-- ==== Sys2Proof/Word.lean ====
section
/-!
DEFINITION. The words of the machine: bytes, 32-bit instruction words, 64-bit scalars and addresses (R27, R37), and the
register numbers of each class (R37).
-/
namespace Sys2Proof

/-- A byte of memory. -/
abbrev Byte := BitVec 8
/-- A 32-bit word: an instruction word, a lane of a vector register, a predicate mask (R27, R37). -/
abbrev Word := BitVec 32
/-- A 64-bit word: a scalar register or a virtual address (R37, R115). -/
abbrev DWord := BitVec 64

/-- Vector register `v0` to `v1023` (R37). -/
abbrev VReg := Fin 1024
/-- Scalar register `s0` to `s127` (R37). -/
abbrev SReg := Fin 128
/-- Predicate register `p0` to `p15` (R37). -/
abbrev PReg := Fin 16
/-- Residue set `q0` to `q7` (R37). -/
abbrev QReg := Fin 8
/-- Accumulator tile `acc0` to `acc3` (R37). -/
abbrev AReg := Fin 4

end Sys2Proof
end

