-- ==== Sys2Proof/Config.lean ====
section
/-!
DEFINITION. What the spec leaves to the implementation or to an external standard: free values, applied to the State's counter
`free`, and the cryptographic functions that the spec names but does not define. None has a body.
-/
namespace Sys2Proof.Config

/-- A choice the spec leaves open (a victim, a count, a position), one for each value of the State's counter. -/
opaque freeNat : Nat → Nat
/-- Messages that the shared pool of an input port holds (R19). -/
opaque hopPool : Nat
/-- A data value the spec leaves open. -/
opaque freeWord : Nat → BitVec 64
/-- The data key and the tweak key of a key generation (R335), taken from the trust controller's random source. -/
opaque dataKey : Nat → BitVec 128
opaque tweakKey : Nat → BitVec 128
/-- SM4 in XTS mode (R335), an external standard: data key, tweak key, tweak, the bytes of a 128-byte line. -/
opaque xtsEnc : BitVec 128 → BitVec 128 → Nat → List (BitVec 8) → List (BitVec 8)
opaque xtsDec : BitVec 128 → BitVec 128 → Nat → List (BitVec 8) → List (BitVec 8)
/-- SM2 verification (R370): a public key, the signed bytes, the signature. -/
opaque sm2Ok : BitVec 512 → List (BitVec 8) → List (BitVec 8) → Bool
/-- The SM2 signature over a report under the identity key (R371). -/
opaque sign : BitVec 256 → List (BitVec 8) → BitVec 512
/-- The code in byte 8 of a response for the first check that an image fails, 0 FORMAT to 4 ROLLBACK (R370): the spec gives no numbers. -/
opaque rejectCode : Nat → Nat
/-- SM3 of a byte string (R370, R371). -/
opaque sm3 : List (BitVec 8) → BitVec 256
/-- The authentication tag of a Golris packet under a key (R343). -/
opaque packetTag : List (BitVec 8) → List (BitVec 8) → BitVec 128

end Sys2Proof.Config
end

