-- ==== Sys2Proof/Syntax.lean ====
section
/-!
DEFINITION. The steps of the part, one constructor of `Instr` for each row of spec/opcode_table.json: 175 instructions, and
140 events and commands of the engines (spec/95). Operand forms follow R30 to R39 and each instruction's own rule.
-/
namespace Sys2Proof

/-! ### Operand types and modifiers -/

/-- Integer type table of R33. -/
inductive IType where
  | i8 | i16 | i32 | i64 | n8 | n16 | n32 | n64 | i16x2 | b32 | b64
  deriving DecidableEq, Repr

/-- Float type table of R33; `fmt` is the narrow format and reading in the tiller's `%fmt`. -/
inductive FType where
  | f32 | f16 | bf16 | e4m3 | e5m2 | e2m1 | ln6 | fmt
  deriving DecidableEq, Repr

/-- RND of R32: `dflt` takes the choice of `%mode`. -/
inductive Rnd where
  | dflt | rne | rtz | rpi | rmi | rna | rs
  deriving DecidableEq, Repr

/-- Condition of `scmp` and `icmp` (R113, R161). -/
inductive CC where
  | eq | ne | lt | le | gt | ge
  deriving DecidableEq, Repr

/-- Condition of `fcmp` (R169). -/
inductive FCC where
  | eq | ne | lt | le | gt | ge | un | ord
  deriving DecidableEq, Repr

/-- MODE of the branch family (R104). -/
inductive BMode where
  | div | any | all
  deriving DecidableEq, Repr

/-- Operation of `sbit` and `bit` (R113, R163). -/
inductive BitOp where
  | popc | clz | ctz | brev | bswap
  deriving DecidableEq, Repr

/-- Operation of `plog` (R114). -/
inductive PLogOp where
  | and | or | xor | andn | orn | not | mov | set
  deriving DecidableEq, Repr

/-- Reading of a narrow format (R57, R63). -/
inductive Reading where
  | finite | nan | ieee
  deriving DecidableEq, Repr

/-- Field operation of `setmode` (R68). -/
inductive FieldOp where
  | keep | clear | set
  deriving DecidableEq, Repr

/-- Special registers that `srd` reads (R43). -/
inductive SpReg where
  | group | block | launch | slice | tile | core | vd | time | sheaf | fmt | mode | flags
  deriving DecidableEq, Repr

/-- Special registers that `swr` writes (R43). -/
inductive SpRegW where
  | fmt | mode | flags
  deriving DecidableEq, Repr

/-- Cache hint CH (R149). -/
inductive Hint where
  | none | nt | byp
  deriving DecidableEq, Repr

/-- Scope of an ordering (R130). -/
inductive Scope where
  | grp | blk | slc | prt | sys
  deriving DecidableEq, Repr

/-- SEM of an atomic (R150). -/
inductive Sem where
  | acq | rel | ar
  deriving DecidableEq, Repr

/-- SEM of `fence` (R153). -/
inductive FSem where
  | ar | acq | rel | sc
  deriving DecidableEq, Repr

/-- Integer atomic operation (R144). -/
inductive AIntOp where
  | add | min | max | and | or | xor | exch | inc | dec
  deriving DecidableEq, Repr

/-- Float atomic operation (R144). -/
inductive AFltOp where
  | fadd | fmin | fmax
  deriving DecidableEq, Repr

/-- Operation and type of an atomic (R144). -/
inductive AOp where
  | int (o : AIntOp) (t : IType)
  | flt (o : AFltOp)
  deriving DecidableEq, Repr

/-- Integer reduction (R177). -/
inductive IRed where
  | add | min | max | and | or | xor
  deriving DecidableEq, Repr

/-- Float reduction (R177). -/
inductive FRed where
  | fadd | fmin | fmax
  deriving DecidableEq, Repr

/-- Operation of `vred` and `scan` (R177). -/
inductive RedOp where
  | int (o : IRed) (t : IType)
  | flt (o : FRed) (r : Rnd)
  deriving DecidableEq, Repr

/-- Mode of `xlane` (R174). -/
inductive XMode where
  | pick | lo | hi | mir
  deriving DecidableEq, Repr

/-- Operation of `poll` (R178). -/
inductive PollOp where
  | some | every | same | nil | odd
  deriving DecidableEq, Repr

/-- Operation of `flgwr` (R181). -/
inductive FlgOp where
  | or | andn | mov
  deriving DecidableEq, Repr

/-- Operation of `cline` (R155). -/
inductive ClineOp where
  | inv | wb | evict
  deriving DecidableEq, Repr

/-- Level of `pref` (R155). -/
inductive PrefLvl where
  | l1 | home | near
  deriving DecidableEq, Repr

/-- Direction of a copy (R200). -/
inductive Dir where
  | g2l | l2g | g2g | l2l
  deriving DecidableEq, Repr

/-- HALF of `cpy.wb` (R204). -/
inductive WbHalf where
  | lead | foll | split
  deriving DecidableEq, Repr

/-- Element size of `cpya` (R200, R205). -/
inductive ESize where
  | e1 | e2 | e4 | e8
  deriving DecidableEq, Repr

/-- Type of `cfill` (R200, R203). -/
inductive FillT where
  | n8 | n16 | b32 | b64
  deriving DecidableEq, Repr

/-- A layout record (R189): the fields that are not reserved. -/
structure Layout where
  swz : Fin 3
  twl : Fin 6
  thl : Fin 8
  outer : Fin 3
  deriving DecidableEq, Repr

/-- Operation of `ratom` (R355). -/
inductive RAOp where
  | add | exch | fset
  deriving DecidableEq, Repr

/-- Operand format of `mma` (R237). -/
inductive MFmt where
  | bf16 | e4m3 | e5m2 | e2m1 | ln6 | fmt | i8
  deriving DecidableEq, Repr

/-- Which streams `mwait` and `wbrel` name (R238, R239), and which sets `qwait` names (R266). -/
inductive Sel8 where
  | one (n : Fin 8)
  | all (n : Fin 8)
  deriving DecidableEq, Repr

/-- Level of `cancel` (R295). -/
inductive CancelLvl where
  | launch | graph | phase | job
  deriving DecidableEq, Repr

/-- HALF of `pmcrd` (R413). -/
inductive PmcHalf where
  | full | lo | hi
  deriving DecidableEq, Repr

/-- Operation of `tctl` (R412). -/
inductive TctlOp where
  | son | soff | cfrz | crun | stop
  deriving DecidableEq, Repr

/-- SEL of `qrd` (R267). -/
inductive QrdSel where
  | e1 | e2 | next | hdr
  deriving DecidableEq, Repr

/-! ### Operands -/

/-- Guard and lookahead of the first word (R30, R34, R35): `pred` 15 is unpredicated. -/
structure Hd where
  pred : Fin 16
  neg  : Bool
  look : Fin 16
  deriving DecidableEq, Repr

/-- An immediate by the length that carries it (R39). -/
inductive Imm where
  | i10 (v : BitVec 10)
  | i22 (v : BitVec 22)
  | i32 (v : BitVec 32)
  deriving DecidableEq, Repr

/-- Operand B: a register of a class of `n` numbers, or an immediate of any length (R39). -/
inductive Src (n : Nat) where
  | reg (r : Fin n)
  | imm (v : Imm)
  deriving DecidableEq, Repr

/-- Operand B where only the 64-bit form exists: a register or a 10-bit immediate. -/
inductive Src10 (n : Nat) where
  | reg (r : Fin n)
  | imm (v : BitVec 10)
  deriving DecidableEq, Repr

/-- Operand A of vector class: direct, or indirect through a scalar base and an offset (R38). -/
inductive VSrc where
  | reg (r : VReg)
  | ind (base : SReg) (off : Fin 8)
  deriving DecidableEq, Repr

/-- Scalar arithmetic operands (R112). -/
structure SOp where
  h : Hd
  ty : IType
  sat : Bool
  d : SReg
  a : SReg
  b : Src 128
  deriving DecidableEq, Repr

/-- Vector integer operands without C (R157). -/
structure VOp where
  h : Hd
  ty : IType
  sat : Bool
  d : VReg
  a : VSrc
  b : Src 1024
  deriving DecidableEq, Repr

/-- Vector integer operands with C (R157). -/
structure VOp3 where
  h : Hd
  ty : IType
  sat : Bool
  d : VReg
  a : VSrc
  b : Src 1024
  c : VReg
  deriving DecidableEq, Repr

/-- Vector float operands without C (R168). -/
structure FOp where
  h : Hd
  ty : FType
  rnd : Rnd
  sat : Bool
  d : VReg
  a : VSrc
  b : Src 1024
  deriving DecidableEq, Repr

/-- Vector float operands with C (`ffma`, R168). -/
structure FOp3 where
  h : Hd
  ty : FType
  rnd : Rnd
  sat : Bool
  d : VReg
  a : VSrc
  b : Src 1024
  c : VReg
  deriving DecidableEq, Repr

/-- Vector float operands with one source (R168). -/
structure FUn where
  h : Hd
  ty : FType
  rnd : Rnd
  sat : Bool
  d : VReg
  a : VSrc
  deriving DecidableEq, Repr

/-- Operands of a load or store (R149): `r` is the data register, `ord` the scope of `.acq` or `.rel` if the form has it. -/
structure MemOp (ρ α : Type) where
  h : Hd
  ty : IType
  hint : Hint
  ord : Option Scope
  r : ρ
  a : α
  off : BitVec 22
  deriving DecidableEq, Repr

/-- Operands that `atom` and `atoml` share (R150). -/
structure AtomOp where
  h : Hd
  op : AOp
  sem : Option (Sem × Scope)
  d : VReg
  a : VSrc
  off : BitVec 22
  deriving DecidableEq, Repr

/-- Operands of `cas` and `casl` (R151). -/
structure CasOp where
  h : Hd
  ty : IType
  sem : Option (Sem × Scope)
  d : VReg
  a : VSrc
  b : VReg
  c : VReg
  off : BitVec 22
  deriving DecidableEq, Repr

/-- Source of `setfmt` in the 64-bit form (R67). -/
inductive FmtSrc where
  | named (f : FType) (r : Reading)
  | reg (a : SReg)
  deriving DecidableEq, Repr

/-- Field operations of `setmode` (R68); `drnd` `dflt` keeps DRND. -/
structure ModeOps where
  satd : FieldOp
  ftz : FieldOp
  daz : FieldOp
  drnd : Rnd
  deriving DecidableEq, Repr

/-- Source of `setmode` in the 64-bit form (R68). -/
inductive ModeSrc where
  | ops (o : ModeOps)
  | reg (a : SReg)
  deriving DecidableEq, Repr

/-- Source of `smov` without `.hi` (R113). -/
inductive SmovSrc where
  | reg (a : SReg)
  | imm (v : Imm)
  deriving DecidableEq, Repr

/-- Forms of `pbits` (R114). -/
inductive PbForm where
  | tos (d : SReg) (a : PReg)
  | top (d : PReg) (a : SReg)
  | pop (d : SReg) (a : PReg)
  deriving DecidableEq, Repr

/-- Source of `mov` (R164). -/
inductive MovSrc where
  | vec (a : VSrc)
  | imm (v : Imm)
  | scl (a : SReg)
  | lane
  deriving DecidableEq, Repr

/-- Amount of `slide` (R175). -/
inductive Amt where
  | imm (n : Fin 256)
  | reg (c : SReg)
  deriving DecidableEq, Repr

/-- Registers of the 128-bit copies and the arrival offset when ARV is 1 (R200). -/
structure CpyOp where
  h : Hd
  arv : Option (BitVec 22)
  d : SReg
  a : SReg
  b : SReg
  deriving DecidableEq, Repr

/-- Forms of `cstat` (R208). -/
inductive CstatForm where
  | st (d a : SReg)
  | addr (d a : SReg)
  | clr (d : SReg)
  deriving DecidableEq, Repr

/-- Forms of `rstat` (R358). -/
inductive RstatForm where
  | grp (d : SReg)
  | sh (d a : SReg)
  | clr (d : SReg)
  deriving DecidableEq, Repr

/-- Operand B of `ratom` and `rflag`: a scalar or IMM32 (R355, R356). -/
inductive Src32 where
  | reg (r : SReg)
  | imm (v : BitVec 32)
  deriving DecidableEq, Repr

/-- Operand of `ctrwait` (R296). -/
inductive Src22 where
  | reg (r : SReg)
  | imm (v : BitVec 22)
  deriving DecidableEq, Repr

/-- Operands of `mma` (R237); a scale is present with its 16-byte-unit offset. -/
structure MmaOp where
  h : Hd
  fa : MFmt
  fb : MFmt
  zacc : Bool
  spb : Bool
  d : AReg
  a : SReg
  b : SReg
  stream : Fin 8
  asc : Option (BitVec 16)
  bsc : Option (BitVec 16)
  deriving DecidableEq, Repr

/-- Operand of `mcfg` (R240). -/
inductive McfgSrc where
  | named (lay : Layout) (aread bread : Reading)
  | fmt (lay : Layout)
  deriving DecidableEq, Repr

/-- Operands of `qst` (R261): `ncol1` is NCOL − 1. -/
structure QstOp where
  h : Hd
  rd : Fin 4
  aint : Bool
  sat : Bool
  rnd : Rnd
  ty : FType
  d : AReg
  a : SReg
  b : SReg
  c : QReg
  col0 : Fin 256
  ncol1 : Fin 512
  alpha : BitVec 32
  deriving DecidableEq, Repr

/-- Operands of `vqst` (R262). -/
structure VqstOp where
  h : Hd
  rd : Fin 4
  sint : Bool
  sat : Bool
  rnd : Rnd
  ty : FType
  d : QReg
  a : SReg
  b : VReg
  c : SReg
  row : Fin 128
  deriving DecidableEq, Repr

/-! ### Operands of events and commands -/

/-- Where a command comes from (R378): none is the management port, a number the command page of that partition; and its TAG. -/
structure Cmd where
  src : Option Nat
  tag : Nat
  deriving DecidableEq, Repr

/-- The way in which a host hart runs (R422): machine mode, supervisor and user mode with V = 0, and with V = 1. -/
inductive HMode where
  | m | s | u | vs | vu
  deriving DecidableEq, Repr

/-- What a host hart does (R142, R340, R376, R401, R421 to R425): accesses of memory, LR and SC and those of HLV, HLVX and HSV among them; a write
of one of its registers, a read or write of a CSR; an access of a register of its slice's VIRTIO device or interrupt controller, or of a VD's counter
page, at an offset, or of a queue's notify page; the instructions of its privileged architecture: a call, a breakpoint, an encoding it does not have, the returns, the
fences of its translations; taking a pending interrupt; and, as firmware in M-mode, starting a stopped hart and stopping. -/
inductive HartOp where
  | fetch | load | store | amo (op : AOp) | fence | lr | sc | hlv | hlvx | hsv
  | setX (n : Nat) | setF (n : Nat) | setV (n : Nat) | csrRead (n : Nat) | csrWrite (n : Nat)
  | vioRead | vioWrite | aplicRead | aplicWrite | ctrRead (vd : Nat) | ctrWrite (vd : Nat) | notify (q : Nat)
  | ecall | ebreak | illegal | mret | sret | sfence | hfence | take
  | start (hart : Nat) | halt
  deriving DecidableEq, Repr

/-- What a host hart does next: the hart, the operation, the virtual address or the offset, the size in bytes and the data. -/
structure HartAcc where
  slice : Nat
  hart : Nat
  op : HartOp
  va : Nat
  size : Nat
  data : Nat
  deriving DecidableEq, Repr

/-- Attributes with which a queue is registered (R270). -/
structure QAttr where
  pin : Bool
  lcok : Bool
  npok : Bool
  maint : Bool
  dev : Bool
  weight : Nat
  deriving DecidableEq, Repr

/-- Answers to a fault report (R328, R329). -/
inductive FrAns where
  | retry | abort | inject
  deriving DecidableEq, Repr

/-- The steps of the part. -/
inductive Instr where
  -- The sequencer (04)
  | pad
  | nop (h : Hd)
  | bra (h : Hd) (m : BMode) (off : BitVec 22)
  | brx (h : Hd) (m : BMode) (a : SReg)
  | call (h : Hd) (m : BMode) (d : SReg) (off : BitVec 22)
  | callx (h : Hd) (m : BMode) (d a : SReg)
  | ret (h : Hd) (m : BMode) (a : SReg)
  | join (look : Fin 16)
  | wide (look : Fin 16)
  | endwide (look : Fin 16)
  | exit (h : Hd)
  | trap (h : Hd) (n : Fin 512)
  | bkpt (h : Hd)
  | bar (look : Fin 16) (id : Fin 16) (pass : Bool) (n : Src10 128)
  | parrive (h : Hd) (old : Option SReg) (a : SReg) (cnt : Option SReg) (off : BitVec 22)
  | pwait (h : Hd) (par : Bool) (a : SReg) (off : BitVec 22)
  | elect (h : Hd) (d : PReg)
  | setfmt (h : Hd) (save : Option SReg) (src : FmtSrc)
  | setfmtImm (h : Hd) (save : Option SReg) (v : BitVec 6)
  | setmode (h : Hd) (save : Option SReg) (src : ModeSrc)
  | setmodeStep (h : Hd) (save : Option SReg) (o : ModeOps) (n : BitVec 16)
  | srd (h : Hd) (d : SReg) (r : SpReg)
  | swr (h : Hd) (r : SpRegW) (a : SReg)
  | sadd (o : SOp)
  | ssub (o : SOp)
  | smul (o : SOp)
  | smulh (o : SOp)
  | sdiv (o : SOp)
  | srem (o : SOp)
  | sand (o : SOp)
  | sor (o : SOp)
  | sxor (o : SOp)
  | sshl (o : SOp)
  | sshr (o : SOp)
  | ssra (o : SOp)
  | smin (o : SOp)
  | smax (o : SOp)
  | scmp (cc : CC) (o : SOp)
  | ssel (o : SOp)
  | smov (h : Hd) (ty : IType) (d : SReg) (src : SmovSrc)
  | smovHi (h : Hd) (d : SReg) (v : BitVec 32)
  | sbfx (h : Hd) (ty : IType) (d a : SReg) (pos : Fin 64) (len : Fin 128)
  | sbit (h : Hd) (ty : IType) (op : BitOp) (d a : SReg)
  | sget (h : Hd) (ty : IType) (d : SReg) (a : VSrc) (lane : Src10 128)
  | plog (h : Hd) (op : PLogOp) (d a b : PReg)
  | pbits (h : Hd) (f : PbForm)
  | yield (h : Hd)
  | snooze (h : Hd) (a : SReg)
  | snoozeImm (h : Hd) (n : BitVec 22)
  | rett (look : Fin 16)
  -- The vector unit (06)
  | iadd (o : VOp)
  | isub (o : VOp)
  | imul (o : VOp)
  | imulh (o : VOp)
  | imad (o : VOp3)
  | imin (o : VOp)
  | imax (o : VOp)
  | iabs (h : Hd) (ty : IType) (sat : Bool) (d : VReg) (a : VSrc)
  | and (o : VOp)
  | or (o : VOp)
  | xor (o : VOp)
  | shl (o : VOp)
  | shr (o : VOp)
  | sra (o : VOp)
  | rshr (rnd : Rnd) (o : VOp)
  | icmp (h : Hd) (ty : IType) (cc : CC) (d : PReg) (a : VSrc) (b : Src 1024)
  | sel (n : PReg) (o : VOp)
  | bfx (h : Hd) (ty : IType) (ins : Bool) (d : VReg) (a : VSrc) (pos : Fin 64) (len : Fin 128)
  | bfxReg (h : Hd) (ty : IType) (ins : Bool) (d : VReg) (a : VSrc) (b c : VReg)
  | bit (h : Hd) (ty : IType) (op : BitOp) (d : VReg) (a : VSrc)
  | mov (h : Hd) (ty : IType) (d : VReg) (src : MovSrc)
  | pdot2 (o : VOp3)
  | padd (o : VOp)
  | psub (o : VOp)
  | pmul (o : VOp)
  | pack (h : Hd) (sat : Bool) (d : VReg) (a : VSrc) (b : Src10 1024)
  | unpk (h : Hd) (hi : Bool) (d : VReg) (a : VSrc)
  | fadd (o : FOp)
  | fsub (o : FOp)
  | fmul (o : FOp)
  | ffma (o : FOp3)
  | fmin (o : FOp)
  | fmax (o : FOp)
  | fcmp (h : Hd) (ty : FType) (cc : FCC) (d : PReg) (a : VSrc) (b : Src 1024)
  | fdiv (o : FOp)
  | frcp (o : FUn)
  | frsq (o : FUn)
  | fsqrt (o : FUn)
  | fexp2 (o : FUn)
  | flog2 (o : FUn)
  | fclass (h : Hd) (ty : FType) (d : VReg) (a : VSrc)
  | frnd (o : FUn)
  | fscl (o : FOp)
  | cvt (h : Hd) (dt st : FType) (pk : Bool) (rnd : Rnd) (sat : Bool) (d : VReg) (a : VSrc)
  | cvtfi (h : Hd) (it : IType) (ft : FType) (rnd : Rnd) (d : VReg) (a : VSrc)
  | cvtif (h : Hd) (ft : FType) (it : IType) (rnd : Rnd) (sat : Bool) (d : VReg) (a : VSrc)
  | cvti (h : Hd) (dt st : IType) (sat : Bool) (d : VReg) (a : VSrc)
  | xlane (h : Hd) (ty : IType) (m : XMode) (keep : Bool) (d : VReg) (a : VSrc) (b : Src 1024)
  | slide (h : Hd) (ty : IType) (dn : Bool) (d : VReg) (a : VSrc) (b : VReg) (n : Amt)
  | slideImm (h : Hd) (ty : IType) (dn : Bool) (d : VReg) (a : VSrc) (fill : BitVec 32) (n : Amt)
  | bcast (h : Hd) (ty : IType) (d : VReg) (a : VSrc) (b : Src 128)
  | vred (h : Hd) (op : RedOp) (d : SReg) (a : VSrc)
  | scan (h : Hd) (excl : Bool) (op : RedOp) (d : VReg) (a : VSrc)
  | poll (h : Hd) (op : PollOp) (d a : PReg)
  | vmatch (h : Hd) (ty : IType) (d : VReg) (a : VSrc)
  | flgrd (h : Hd) (clr : Bool) (d : SReg)
  | flgwr (h : Hd) (op : FlgOp) (b : Src 128)
  -- The load-store unit (05)
  | ld (o : MemOp VReg SReg)
  | st (o : MemOp VReg SReg)
  | ldl (o : MemOp VReg SReg)
  | stl (o : MemOp VReg SReg)
  | sld (o : MemOp SReg SReg)
  | sst (o : MemOp SReg SReg)
  | gath (o : MemOp VReg VSrc)
  | scat (o : MemOp VReg VSrc)
  | lgath (o : MemOp VReg VSrc)
  | lscat (o : MemOp VReg VSrc)
  | ldb (o : MemOp VReg SReg)
  | atom (o : AtomOp) (b : VReg)
  | atomImm32 (o : AtomOp) (v : BitVec 32)
  | cas (o : CasOp)
  | atomOrd (h : Hd) (a : VSrc) (b : VReg) (off : BitVec 22)
  | atoml (o : AtomOp) (b : VReg)
  | atomlImm32 (o : AtomOp) (v : BitVec 32)
  | casl (o : CasOp)
  | fence (h : Hd) (sem : FSem) (scope : Scope)
  | ifence (h : Hd)
  | cline (h : Hd) (op : ClineOp) (a : SReg) (off : BitVec 22)
  | pref (h : Hd) (lvl : PrefLvl) (a : SReg) (off : BitVec 22)
  | ipref (h : Hd) (a : SReg) (off : BitVec 22)
  | stz (h : Hd) (a : SReg) (off : BitVec 22)
  -- The copy engine (07)
  | cpy (o : CpyOp) (c : SReg) (srclay : Bool) (dir : Dir) (hint : Hint) (lay : Layout)
  | cpya (o : CpyOp) (dir : Dir) (esz : ESize) (hint : Hint)
  | cpyWb (o : CpyOp) (half : WbHalf) (hint : Hint)
  | seal (h : Hd) (arv : Option SReg) (save : Option SReg)
  | cwait (h : Hd) (isTo : Bool) (v : Src10 128)
  | cwaitImm22 (h : Hd) (isTo : Bool) (v : BitVec 22)
  | cstat (h : Hd) (f : CstatForm)
  | cfill (o : CpyOp) (c : SReg) (glob : Bool) (ty : FillT)
  | cgath (o : CpyOp) (c : SReg) (glob : Bool) (hint : Hint) (lay : Layout)
  -- The network (13)
  | rcpy (o : CpyOp) (c : SReg) (srcl : Bool) (hint : Hint) (dpitch : BitVec 32)
  | ratom (h : Hd) (op : RAOp) (sem : Option Sem) (ty : IType) (d a : SReg) (b : Src32) (c : SReg) (off : BitVec 22)
  | rflag (h : Hd) (after : Option SReg) (rel : Bool) (w64 : Bool) (d : SReg) (b : Src32) (c : SReg) (off : BitVec 22)
  | rnote (h : Hd) (a c : SReg) (tag : BitVec 22)
  | rget (o : CpyOp) (c : SReg) (hint : Hint) (dpitch : BitVec 32)
  | rstat (h : Hd) (f : RstatForm)
  -- The matrix engine (08)
  | mma (o : MmaOp)
  | mwait (h : Hd) (s : Sel8) (v : Src10 128)
  | aalloc (h : Hd) (n : Src10 128)
  | afree (h : Hd) (n : Src10 128)
  | azero (h : Hd) (d : AReg)
  | ardv (h : Hd) (ty : FType) (rnd : Rnd) (sat : Bool) (d : VReg) (a : AReg) (b : SReg) (n : Fin 64)
  | awrv (h : Hd) (ty : FType) (d : AReg) (a : SReg) (b : VReg) (n : Fin 64)
  | mcfg (h : Hd) (src : McfgSrc)
  | wbrel (h : Hd) (s : Sel8) (a : SReg)
  | mstat (h : Hd) (d : SReg)
  | acpy (h : Hd) (d a : AReg)
  | aldl (h : Hd) (foll : Bool) (d : AReg) (a b : SReg) (off : BitVec 22)
  | astl (h : Hd) (foll : Bool) (d : AReg) (a b : SReg) (off : BitVec 22)
  -- The shaping engine (09)
  | qst (o : QstOp)
  | vqst (o : VqstOp)
  | qresLd (h : Hd) (d : QReg) (a : SReg) (off : BitVec 22)
  | qresSt (h : Hd) (d : QReg) (a : SReg) (off : BitVec 22)
  | qzero (h : Hd) (d : QReg)
  | qcfg (h : Hd) (rd : Fin 4) (ord2 : Bool) (d : QReg) (a b : SReg)
  | qwait (h : Hd) (s : Sel8) (v : Src10 128)
  | qrd (h : Hd) (sel : QrdSel) (d : VReg) (a : QReg) (b : SReg)
  -- Launch, residency and trace (10, 11, 15)
  | launch (h : Hd) (d a b : SReg) (off : BitVec 22)
  | cancel (h : Hd) (lvl : CancelLvl) (clr : Bool) (a : SReg)
  | ctrrd (h : Hd) (d a : SReg)
  | ctrwait (h : Hd) (a : SReg) (v : Src22)
  | fbpt (look : Fin 16) (off : BitVec 22)
  | tmark (h : Hd) (a : SReg) (tag : BitVec 22)
  | pmcrd (h : Hd) (half : PmcHalf) (d : SReg) (n : Src10 128)
  | tctl (h : Hd) (op : TctlOp)
  -- Sequencer and load-store events (04, 05): q is a quarter, b g t block, group and tiller slot, id a pending instruction, r a request,
  -- w a walk, m a message
  | pendingReadyTimeout (q : Nat)
  | snoozeExpiry (b g id : Nat)
  | instructionFetchFault (b g t : Nat)
  | loadDataReturn (r : Nat)
  | writeAcknowledge (r : Nat)
  | atomicResultReturn (r : Nat)
  | requestSlotWaitEnd (b g t : Nat)
  | walkComplete (w : Nat)
  | homeRequestArrival (r : Nat)
  | stampedMessagePerform (r : Nat)
  | parkedReplay (b g t : Nat)
  | fabricHop (m : Nat)
  | edgeMessageArrival (m : Nat)
  | firewallStatusReceived (r : Nat)
  -- Copy, matrix and shaping events (07 to 09): c is a copy, id an operation
  | copyStart (c : Nat)
  | copyDone (c : Nat)
  | copyFaultStop (c : Nat)
  | copyFaultServiced (c : Nat)
  | descriptorWaitEnd (b g t : Nat)
  | sealWindowWaitEnd (b g t : Nat)
  | mmaStart (b id : Nat)
  | mmaOperandsRead (b id : Nat)
  | mmaRetire (b id : Nat)
  | aallocComplete (b g id : Nat)
  | matrixSlotWaitEnd (b g t : Nat)
  | shapeConversion (b id : Nat)
  | shapeWriteComplete (b id : Nat)
  -- Launch events (10): key names a partition's queue, lk a launch, c a cancel
  | notifyWrite (pid q : Nat)
  | queueSlotAssign (pid : Nat)
  | slotReclaim (pid q : Nat)
  | headPacketRead (slice key : Nat)
  | dependenceRecheck (slice key : Nat)
  | packetLeaveHead (slice key : Nat)
  | startNotice (lk slice : Nat)
  | blockPlacement (slice : Nat)
  | blockEnd (b : Nat)
  | doneNotice (lk slice : Nat)
  | orderedAtomicApply (lk slice : Nat)
  | launchComplete (lk : Nat)
  | cancelArrival (c slice : Nat)
  | nopreHoldLapse (lk : Nat)
  -- Residency events (11)
  | preemptionRequest (slice : Nat)
  | stoppingDrainComplete (b : Nat)
  | saveComplete (b : Nat)
  | spillSavedBlock (slice : Nat)
  | restoreComplete (b : Nat)
  | rotationInterval (slice : Nat)
  | deferredRotationCompare (slice : Nat)
  | rotationSwapComplete (slice : Nat)
  | swapOutTimeout (b : Nat)
  | swappedFaultServiced (b : Nat)
  -- Channel events (12)
  | heldRecordWrite (id : Nat)
  | faultDoorbell (pid vd word : Nat)
  | patrolRead (slice : Nat)
  | powerDownEntry (slice pch : Nat)
  | selfRefreshEntry (slice pch : Nat)
  | scrubZeroPhase (pid job : Nat)
  | scrubJobDone (pid job : Nat)
  | scrubResume (slice job : Nat)
  | verifyPass (slice job : Nat)
  -- Network events (13): src is the sender's IPv6 address, ce the ECN mark, psn a packet's number
  | golrisReceive (slice src : Nat) (ce : Bool) (pkt : List Byte)
  | ethernetFrameReceive (slice : Nat) (frame : List Byte)
  | ackSend (key : Nat)
  | ackReceive (slice src : Nat) (ce : Bool) (pkt : List Byte)
  | retransmitTimeout (slice peer psn : Nat)
  | rateUpdate (slice peer : Nat)
  | rflagAfterSend (op : Nat)
  -- Power-on and package input (14, 18)
  | packagePowerOnReset
  | selfTestComplete (slice : Nat) (pass : Bool)
  | sliceFirmwareReady (slice : Nat)
  | inputUndervoltage
  | inputBrownout
  | inputOvervoltage
  -- Commands and events of the trust controller (14, 12)
  | devinfo (c : Cmd)
  | fwLoad (c : Cmd) (bytes : List Byte)
  | fwDone (c : Cmd)
  | attest (c : Cmd) (nonce : List Byte)
  | svnBurn (c : Cmd) (kind : Nat)
  | partCreate (c : Cmd) (pid c0 r0 c1 r1 : Nat) (map : Option (List Nat)) (uri : List Byte)
  | partitionZeroingComplete (pid : Nat)
  | partDestroy (c : Cmd) (pid : Nat)
  | resize (c : Cmd) (pid slice : Nat) (add : Bool) (drain gused : Nat) (map : Option (List Nat))
  | hartsDownTimeout (pid : Nat)
  | drainExpiry (pid : Nat)
  | resizeStepComplete (pid : Nat)
  | granuleMigrationComplete (pid : Nat)
  | sliceReset (c : Cmd) (slice : Nat)
  | mgmtCoreTimeout (slice : Nat)
  | sliceRejoin (slice : Nat)
  | partStatus (c : Cmd) (pid : Nat)
  | sregRd (c : Cmd) (slice off : Nat)
  | sregWr (c : Cmd) (slice off val : Nat)
  | qreg (c : Cmd) (q vd hdr : Nat) (a : QAttr)
  | ctrbase (c : Cmd) (vd base : Nat)
  | savearea (c : Cmd) (base size : Nat)
  | ownertab (c : Cmd) (base : Nat)
  | spillarea (c : Cmd) (base size : Nat)
  | peer (c : Cmd) (idx : Nat) (entry : List Byte) (addrs : List (Nat × Nat))
  | pattest (c : Cmd) (nonce : List Byte)
  | hartsDown (c : Cmd) (slice : Nat)
  | vdctx (c : Cmd) (vd : Nat) (img : List Byte)
  | wayprof (c : Cmd) (prof : Nat) (masks pols : List Nat)
  | pageRetire (c : Cmd) (vd va size cw : Nat)
  | shootdown (c : Cmd) (vd : Nat) (range : Option (Nat × Nat)) (cw : Nat)
  | fresolve (c : Cmd) (handle : Nat) (ans : FrAns)
  | keyGen (c : Cmd) (slot : Nat)
  | keyZero (c : Cmd) (slot : Nat)
  | scrubStart (c : Cmd) (job : Nat) (ranges : List (Nat × Nat)) (slots : List Nat) (cores : List (Nat × Nat)) (vd : Nat)
  -- Trace events (15)
  | refresh (slice vd : Nat)
  | stop (slice core quarter vd : Nat)
  | resume (slice core quarter : Nat)
  | csave (slice vd : Nat)
  | crestore (slice vd : Nat)
  | dumpWritten (q : Nat)
  | sampleTaken (q : Nat)
  | recordStreamRoom (b g t : Nat)
  | counterReadLo (slice vd n : Nat)
  | counterReadHi (slice vd n : Nat)
  | counterPageWrite (slice vd off val : Nat)
  -- Register writes with a behaviour of their own, and power (16)
  | pwrCtlWrite (slice v : Nat)
  | resCtlWrite (slice v : Nat)
  | chErrWrite (slice v : Nat)
  | powerWindowEnd (slice : Nat)
  | railVoltageReached (col : Nat)
  | railFallConfirm (col : Nat)
  | railSettleExpiry (col : Nat)
  | currentLimitAlarm (slice : Nat)
  | alarmPersist1us (slice : Nat)
  | alarmPersist10us (slice : Nat)
  | alarmClear50us (slice : Nat)
  | thermalSample (slice t0 t1 : Nat)
  -- The rest of the table's events
  | instructionCacheFill (b g t : Nat)
  | pendingWritePerformed (b g id : Nat)
  | frequencyChangeComplete (slice : Nat)
  | currentLimitAlarmClear (slice : Nat)
  | partitionDestroyComplete (pid : Nat)
  | hostHartAccess (a : HartAcc)
  | pacedPacketSend (slice peer : Nat)
  | virtioQueueNotify (slice queue : Nat)
  | portLinkChange (slice : Nat) (up : Bool)
  deriving DecidableEq, Repr

end Sys2Proof
end

