-- ==== Sys2Proof/WellFormed.lean ====
section
/-!
DEFINITION. Which instructions have an encoding: the type subset of each opcode, the guard, and the limits on operand values that
the rules state as illegal instructions (R33, R34, R51 checks 5 to 7).
-/
namespace Sys2Proof

/-- PRED 0b1111 with PNEG 1 is reserved (R34). -/
def Hd.wf (h : Hd) : Bool := !(h.pred == 15 && h.neg)

/-- `.i32 .i64 .n32 .n64` (R112). -/
def tyW4 : List IType := [.i32, .i64, .n32, .n64]
/-- `.b32 .b64 .i32 .i64 .n32 .n64` (R112). -/
def tyB6 : List IType := [.b32, .b64, .i32, .i64, .n32, .n64]
/-- `.b32 .b64`. -/
def tyB2 : List IType := [.b32, .b64]
/-- "int" of R159. -/
def tyInt : List IType := [.i8, .i16, .i32, .i64, .n8, .n16, .n32, .n64]
/-- Every integer type but `.i16x2`. -/
def tyNoPair : List IType := [.i8, .i16, .i32, .i64, .n8, .n16, .n32, .n64, .b32, .b64]
/-- Every integer type. -/
def tyAll : List IType := [.i8, .i16, .i32, .i64, .n8, .n16, .n32, .n64, .i16x2, .b32, .b64]
/-- `.f32 .f16 .bf16` (R167). -/
def tyF3 : List FType := [.f32, .f16, .bf16]
/-- The narrow formats of R57. -/
def tyNarrow : List FType := [.e4m3, .e5m2, .e2m1, .ln6]

/-- Width of an integer type's operand in bits (R156, R112). -/
def IType.width : IType → Nat
  | .i8 => 8 | .n8 => 8 | .i16 => 16 | .n16 => 16
  | .i32 => 32 | .n32 => 32 | .b32 => 32 | .i16x2 => 32
  | .i64 => 64 | .n64 => 64 | .b64 => 64

/-- A length that no 64-bit form carries is needed where operand C is present (R157). -/
def Src.notI10 {n : Nat} : Src n → Bool
  | .imm (.i10 _) => false
  | _ => true

/-- `qwait.all` names no set (R266). -/
def Sel8.wfSet : Sel8 → Bool
  | .one _ => true
  | .all n => n == 0
/-- An immediate count that must not be negative (R106, R207, R216, R239, R266, R413). -/
def Src10.nonneg {n : Nat} : Src10 n → Bool
  | .reg _ => true
  | .imm v => decide (v.toNat < 512)

def SOp.wf (o : SOp) (tys : List IType) (sat : Bool) : Bool := o.h.wf && tys.contains o.ty && (sat || !o.sat)
def VOp.wf (o : VOp) (tys : List IType) (sat : Bool) : Bool := o.h.wf && tys.contains o.ty && (sat || !o.sat)
def VOp3.wf (o : VOp3) (tys : List IType) : Bool := o.h.wf && tys.contains o.ty && o.b.notI10
/-- `rs` says whether RND and SAT are used. -/
def FOp.wf (o : FOp) (rs : Bool) : Bool := o.h.wf && tyF3.contains o.ty && (rs || (o.rnd == .dflt && !o.sat))
def FOp3.wf (o : FOp3) : Bool := o.h.wf && tyF3.contains o.ty && o.b.notI10
def FUn.wf (o : FUn) (sat : Bool) : Bool := o.h.wf && tyF3.contains o.ty && (sat || !o.sat)
/-- `loc` is the local form: scope `.grp` or `.blk` only, no hint (R149). -/
def MemOp.wf {ρ α : Type} (o : MemOp ρ α) (tys : List IType) (loc : Bool) : Bool :=
  o.h.wf && tys.contains o.ty &&
    (!loc || (o.hint == .none && (o.ord == none || o.ord == some .grp || o.ord == some .blk)))

/-- The types each atomic operation takes (R144). -/
def AOp.wf : AOp → Bool
  | .flt _ => true
  | .int .add t => tyW4.contains t
  | .int .min t => tyW4.contains t
  | .int .max t => tyW4.contains t
  | .int .inc t => t == .n32 || t == .n64
  | .int .dec t => t == .n32 || t == .n64
  | .int .and t => tyB6.contains t
  | .int .or t => tyB6.contains t
  | .int .xor t => tyB6.contains t
  | .int .exch t => tyB6.contains t

/-- The scopes of `atoml` and `casl` (R150, R151). -/
def semLocal : Option (Sem × Scope) → Bool
  | none => true
  | some (_, .grp) => true
  | some (_, .blk) => true
  | some _ => false

def RedOp.wf : RedOp → Bool
  | .int _ t => tyW4.contains t
  | .flt .fadd r => r != .rs
  | .flt _ r => r == .dflt

/-- OUTER 2 leaves no tile fields (R189). -/
def Layout.wf (l : Layout) : Bool := l.outer != 2 || (l.swz == 0 && l.twl == 0 && l.thl == 0)

/-- The pairs that allow PK (R172). -/
def cvtPk (dt st : FType) : Bool :=
  ((dt == .e4m3 || dt == .e5m2) && tyF3.contains st) || ((st == .e4m3 || st == .e5m2) && tyF3.contains dt)

/-- Position and length of a bit field within `w` bits (R113, R162). -/
def fieldOk (pos len w : Nat) : Bool := decide (0 < len) && decide (pos + len ≤ w)

/-- Whether an amount is within the element count (R175). -/
def Amt.ok (n : Amt) (ty : IType) : Bool :=
  match n with
  | .imm v => decide (v.val ≤ if ty == .i16x2 then 64 else 32)
  | .reg _ => true

/-- The instructions that have an encoding; an event or command has none and is well formed as it stands. -/
def Instr.wf : Instr → Bool
  | .nop h => h.wf
  | .bra h _ _ => h.wf
  | .brx h _ _ => h.wf
  | .call h _ _ _ => h.wf
  | .callx h _ _ _ => h.wf
  | .ret h _ _ => h.wf
  | .exit h => h.wf
  | .trap h _ => h.wf
  | .bkpt h => h.wf
  | .bar _ _ _ n => (match n with | .imm v => decide (v.toNat ≤ 32) | .reg _ => true)
  | .parrive h _ _ _ _ => h.wf
  | .pwait h _ _ _ => h.wf
  | .elect h _ => h.wf
  | .setfmt h _ src => h.wf && (match src with | .named f _ => tyNarrow.contains f | .reg _ => true)
  | .setfmtImm h _ _ => h.wf
  | .setmode h _ src => h.wf && (match src with | .ops _ => true | .reg _ => true)
  | .setmodeStep h _ _ _ => h.wf
  | .srd h _ _ => h.wf
  | .swr h _ _ => h.wf
  | .sadd o => o.wf tyW4 true
  | .ssub o => o.wf tyW4 true
  | .smul o => o.wf tyW4 true
  | .smulh o => o.wf tyW4 false
  | .sdiv o => o.wf tyW4 true
  | .srem o => o.wf tyW4 false
  | .sand o => o.wf tyB6 false
  | .sor o => o.wf tyB6 false
  | .sxor o => o.wf tyB6 false
  | .sshl o => o.wf tyB6 false
  | .sshr o => o.wf tyB6 false
  | .ssra o => o.wf [.i32, .i64] false
  | .smin o => o.wf tyW4 false
  | .smax o => o.wf tyW4 false
  | .scmp _ o => o.wf tyW4 false
  | .ssel o => o.wf tyB6 false
  | .smov h ty _ _ => h.wf && tyB6.contains ty
  | .smovHi h _ _ => h.wf
  | .sbfx h ty _ _ pos len => h.wf && (ty == .i64 || ty == .n64) && fieldOk pos len 64
  | .sbit h ty _ _ _ => h.wf && tyB2.contains ty
  | .sget h ty _ _ _ => h.wf && (ty == .b32 || ty == .i32)
  | .plog h op _ a b => h.wf && (match op with
      | .not => b == 0 | .mov => b == 0 | .set => a == 0 && b == 0 | _ => true)
  | .pbits h _ => h.wf
  | .yield h => h.wf
  | .snooze h _ => h.wf
  | .snoozeImm h _ => h.wf
  | .iadd o => o.wf tyInt true
  | .isub o => o.wf tyInt true
  | .imul o => o.wf tyInt true
  | .imulh o => o.wf tyW4 false
  | .imad o => o.wf tyInt
  | .imin o => o.wf tyInt false
  | .imax o => o.wf tyInt false
  | .iabs h ty _ _ _ => h.wf && [IType.i8, .i16, .i32, .i64].contains ty
  | .and o => o.wf tyB2 false
  | .or o => o.wf tyB2 false
  | .xor o => o.wf tyB2 false
  | .shl o => o.wf tyB2 false
  | .shr o => o.wf [.b32, .b64, .n32, .n64] false
  | .sra o => o.wf [.i32, .i64] false
  | .rshr _ o => o.wf tyW4 false
  | .icmp h ty _ _ _ _ => h.wf && tyNoPair.contains ty
  | .sel _ o => o.wf tyB2 false
  | .bfx h ty _ _ _ pos len => h.wf && tyW4.contains ty && fieldOk pos len ty.width
  | .bfxReg h ty _ _ _ _ _ => h.wf && tyW4.contains ty
  | .bit h ty _ _ _ => h.wf && tyB2.contains ty
  | .mov h ty _ src => h.wf && (match src with | .lane => ty == .b32 | _ => true)
  | .pdot2 o => o.wf [.i16x2]
  | .padd o => o.wf [.i16x2] true
  | .psub o => o.wf [.i16x2] true
  | .pmul o => o.wf [.i16x2] true
  | .pack h _ _ _ _ => h.wf
  | .unpk h _ _ _ => h.wf
  | .fadd o => o.wf true
  | .fsub o => o.wf true
  | .fmul o => o.wf true
  | .ffma o => o.wf
  | .fmin o => o.wf false
  | .fmax o => o.wf false
  | .fcmp h ty _ _ _ _ => h.wf && tyF3.contains ty
  | .fdiv o => o.wf true
  | .frcp o => o.wf true
  | .frsq o => o.wf true
  | .fsqrt o => o.wf true
  | .fexp2 o => o.wf true
  | .flog2 o => o.wf true
  | .fclass h ty _ _ => h.wf && tyF3.contains ty
  | .frnd o => o.wf false
  | .fscl o => o.wf true
  | .cvt h dt sty pk _ _ _ _ => h.wf && (!pk || cvtPk dt sty)
  | .cvtfi h it _ _ _ _ => h.wf && tyInt.contains it
  | .cvtif h _ it _ _ _ _ => h.wf && tyInt.contains it
  | .cvti h dt sty _ _ _ => h.wf && tyInt.contains dt && tyInt.contains sty
  | .xlane h ty _ _ _ _ _ => h.wf && tyB2.contains ty
  | .slide h ty _ _ _ _ n => h.wf && (ty == .b32 || ty == .i16x2) && n.ok ty
  | .slideImm h ty _ _ _ _ n => h.wf && (ty == .b32 || ty == .i16x2) && n.ok ty
  | .bcast h ty _ _ _ => h.wf && tyB2.contains ty
  | .vred h op _ _ => h.wf && op.wf
  | .scan h _ op _ _ => h.wf && op.wf
  | .poll h _ _ _ => h.wf
  | .vmatch h ty _ _ => h.wf && tyB2.contains ty
  | .flgrd h _ _ => h.wf
  | .flgwr h _ _ => h.wf
  | .ld o => o.wf tyAll false
  | .st o => o.wf tyAll false
  | .ldl o => o.wf tyAll true
  | .stl o => o.wf tyAll true
  | .sld o => o.wf tyNoPair false
  | .sst o => o.wf tyNoPair false
  | .gath o => o.wf tyAll false
  | .scat o => o.wf tyAll false
  | .lgath o => o.wf tyAll true
  | .lscat o => o.wf tyAll true
  | .ldb o => o.wf tyNoPair false
  | .atom o _ => o.h.wf && o.op.wf
  | .atomImm32 o _ => o.h.wf && o.op.wf
  | .cas o => o.h.wf && tyB6.contains o.ty
  | .atomOrd h _ _ _ => h.wf
  | .atoml o _ => o.h.wf && o.op.wf && semLocal o.sem
  | .atomlImm32 o _ => o.h.wf && o.op.wf && semLocal o.sem
  | .casl o => o.h.wf && tyB6.contains o.ty && semLocal o.sem
  | .fence h _ _ => h.wf
  | .ifence h => h.wf
  | .cline h _ _ _ => h.wf
  | .pref h _ _ _ => h.wf
  | .ipref h _ _ => h.wf
  | .stz h _ _ => h.wf
  | .cpy o _ _ _ _ lay => o.h.wf && lay.wf
  | .cpya o _ _ _ => o.h.wf
  | .cpyWb o _ _ => o.h.wf
  | .seal h _ _ => h.wf
  | .cwait h _ v => h.wf && v.nonneg
  | .cwaitImm22 h _ v => h.wf && decide (v.toNat < 2097152)
  | .cstat h _ => h.wf
  | .cfill o _ _ _ => o.h.wf
  | .cgath o _ _ _ lay => o.h.wf && lay.wf
  | .rcpy o _ _ _ _ => o.h.wf
  | .ratom h op _ ty _ _ _ _ _ => h.wf && (match op with
      | .add => tyW4.contains ty | _ => [IType.b32, .b64, .n32, .n64].contains ty)
  | .rflag h _ _ _ _ _ _ _ => h.wf
  | .rnote h _ _ _ => h.wf
  | .rget o _ _ _ => o.h.wf
  | .rstat h _ => h.wf
  | .mma o => o.h.wf
  | .mwait h _ v => h.wf && v.nonneg
  | .aalloc h n => h.wf && n.nonneg
  | .afree h n => h.wf && n.nonneg
  | .azero h _ => h.wf
  | .ardv h ty rnd sat _ _ _ n => h.wf && tyF3.contains ty && decide (0 < n.val) && decide (n.val ≤ 32) &&
      (ty != .f32 || (rnd == .dflt && !sat))
  | .awrv h ty _ _ _ n => h.wf && tyF3.contains ty && decide (0 < n.val) && decide (n.val ≤ 32)
  | .mcfg h src => h.wf && (match src with | .named l _ _ => l.wf | .fmt l => l.wf)
  | .wbrel h _ _ => h.wf
  | .mstat h _ => h.wf
  | .acpy h _ _ => h.wf
  | .aldl h _ _ _ _ _ => h.wf
  | .astl h _ _ _ _ _ => h.wf
  | .qst o => o.h.wf && decide (o.col0.val + o.ncol1.val + 1 ≤ 256)
  | .vqst o => o.h.wf
  | .qresLd h _ _ _ => h.wf
  | .qresSt h _ _ _ => h.wf
  | .qzero h _ => h.wf
  | .qcfg h _ _ _ _ _ => h.wf
  | .qwait h q v => h.wf && q.wfSet && v.nonneg
  | .qrd h _ _ _ _ => h.wf
  | .launch h _ _ _ _ => h.wf
  | .cancel h lvl clr _ => h.wf && (!clr || lvl != .launch)
  | .ctrrd h _ _ => h.wf
  | .ctrwait h _ _ => h.wf
  | .tmark h _ _ => h.wf
  | .pmcrd h _ _ _ => h.wf
  | .tctl h _ => h.wf
  | _ => true

end Sys2Proof
end

