-- ==== Sys2Proof/Decode.lean ====
section
/-!
DEFINITION. The words of an instruction (R27 to R39), the decoder with the ordered checks 1 to 7 of R51, and after it the
encoder, from the same tables. A decoder's refusal is the number of the first check that fails, the INFO word of R99.
-/
namespace Sys2Proof

/-! ### Codes of the modifier tables -/

/-- Code of the integer type table of R33. -/
def IType.code : IType → Nat
  | .i8 => 0 | .i16 => 1 | .i32 => 2 | .i64 => 3 | .n8 => 4 | .n16 => 5 | .n32 => 6 | .n64 => 7 | .i16x2 => 8 | .b32 => 9 | .b64 => 10
/-- The value a code names, if the table assigns it (integer type table of R33). -/
def IType.ofCode : Nat → Option IType
  | 0 => some .i8 | 1 => some .i16 | 2 => some .i32 | 3 => some .i64 | 4 => some .n8 | 5 => some .n16 | 6 => some .n32 | 7 => some .n64 | 8 => some .i16x2 | 9 => some .b32 | 10 => some .b64 | _ => none

/-- Code of the float type table of R33. -/
def FType.code : FType → Nat
  | .f32 => 0 | .f16 => 1 | .bf16 => 2 | .e4m3 => 3 | .e5m2 => 4 | .e2m1 => 5 | .ln6 => 6 | .fmt => 15
/-- The value a code names, if the table assigns it (float type table of R33). -/
def FType.ofCode : Nat → Option FType
  | 0 => some .f32 | 1 => some .f16 | 2 => some .bf16 | 3 => some .e4m3 | 4 => some .e5m2 | 5 => some .e2m1 | 6 => some .ln6 | 15 => some .fmt | _ => none

/-- Code of the RND of R32; 0b111 is reserved. -/
def Rnd.code : Rnd → Nat
  | .dflt => 0 | .rne => 1 | .rtz => 2 | .rpi => 3 | .rmi => 4 | .rna => 5 | .rs => 6
/-- The value a code names, if the table assigns it (RND of R32; 0b111 is reserved). -/
def Rnd.ofCode : Nat → Option Rnd
  | 0 => some .dflt | 1 => some .rne | 2 => some .rtz | 3 => some .rpi | 4 => some .rmi | 5 => some .rna | 6 => some .rs | _ => none

/-- Code of the cc of R113 and R161. -/
def CC.code : CC → Nat
  | .eq => 0 | .ne => 1 | .lt => 2 | .le => 3 | .gt => 4 | .ge => 5
/-- The value a code names, if the table assigns it (cc of R113 and R161). -/
def CC.ofCode : Nat → Option CC
  | 0 => some .eq | 1 => some .ne | 2 => some .lt | 3 => some .le | 4 => some .gt | 5 => some .ge | _ => none

/-- Code of the cc of R169. -/
def FCC.code : FCC → Nat
  | .eq => 0 | .ne => 1 | .lt => 2 | .le => 3 | .gt => 4 | .ge => 5 | .un => 6 | .ord => 7
/-- The value a code names, if the table assigns it (cc of R169). -/
def FCC.ofCode : Nat → Option FCC
  | 0 => some .eq | 1 => some .ne | 2 => some .lt | 3 => some .le | 4 => some .gt | 5 => some .ge | 6 => some .un | 7 => some .ord | _ => none

/-- Code of the MODE of R104. -/
def BMode.code : BMode → Nat
  | .div => 0 | .any => 1 | .all => 2
/-- The value a code names, if the table assigns it (MODE of R104). -/
def BMode.ofCode : Nat → Option BMode
  | 0 => some .div | 1 => some .any | 2 => some .all | _ => none

/-- Code of the op of R113 and R163. -/
def BitOp.code : BitOp → Nat
  | .popc => 0 | .clz => 1 | .ctz => 2 | .brev => 3 | .bswap => 4
/-- The value a code names, if the table assigns it (op of R113 and R163). -/
def BitOp.ofCode : Nat → Option BitOp
  | 0 => some .popc | 1 => some .clz | 2 => some .ctz | 3 => some .brev | 4 => some .bswap | _ => none

/-- Code of the op of R114. -/
def PLogOp.code : PLogOp → Nat
  | .and => 0 | .or => 1 | .xor => 2 | .andn => 3 | .orn => 4 | .not => 5 | .mov => 6 | .set => 7
/-- The value a code names, if the table assigns it (op of R114). -/
def PLogOp.ofCode : Nat → Option PLogOp
  | 0 => some .and | 1 => some .or | 2 => some .xor | 3 => some .andn | 4 => some .orn | 5 => some .not | 6 => some .mov | 7 => some .set | _ => none

/-- Code of the READ of R63. -/
def Reading.code : Reading → Nat
  | .finite => 0 | .nan => 1 | .ieee => 2
/-- The value a code names, if the table assigns it (READ of R63). -/
def Reading.ofCode : Nat → Option Reading
  | 0 => some .finite | 1 => some .nan | 2 => some .ieee | _ => none

/-- Code of the field operation of R68. -/
def FieldOp.code : FieldOp → Nat
  | .keep => 0 | .clear => 1 | .set => 2
/-- The value a code names, if the table assigns it (field operation of R68). -/
def FieldOp.ofCode : Nat → Option FieldOp
  | 0 => some .keep | 1 => some .clear | 2 => some .set | _ => none

/-- Code of the special register numbers of R43, without `%lane`. -/
def SpReg.code : SpReg → Nat
  | .group => 1 | .block => 2 | .launch => 3 | .slice => 4 | .tile => 5 | .core => 6 | .vd => 7 | .time => 8 | .sheaf => 9 | .fmt => 16 | .mode => 17 | .flags => 18
/-- The value a code names, if the table assigns it (special register numbers of R43, without `%lane`). -/
def SpReg.ofCode : Nat → Option SpReg
  | 1 => some .group | 2 => some .block | 3 => some .launch | 4 => some .slice | 5 => some .tile | 6 => some .core | 7 => some .vd | 8 => some .time | 9 => some .sheaf | 16 => some .fmt | 17 => some .mode | 18 => some .flags | _ => none

/-- Code of the writable special register numbers of R43. -/
def SpRegW.code : SpRegW → Nat
  | .fmt => 16 | .mode => 17 | .flags => 18
/-- The value a code names, if the table assigns it (writable special register numbers of R43). -/
def SpRegW.ofCode : Nat → Option SpRegW
  | 16 => some .fmt | 17 => some .mode | 18 => some .flags | _ => none

/-- Code of the CH of R149. -/
def Hint.code : Hint → Nat
  | .none => 0 | .nt => 1 | .byp => 2
/-- The value a code names, if the table assigns it (CH of R149). -/
def Hint.ofCode : Nat → Option Hint
  | 0 => some .none | 1 => some .nt | 2 => some .byp | _ => Option.none

/-- Code of the SCOPE of R149. -/
def Scope.code : Scope → Nat
  | .grp => 0 | .blk => 1 | .slc => 2 | .prt => 3 | .sys => 4
/-- The value a code names, if the table assigns it (SCOPE of R149). -/
def Scope.ofCode : Nat → Option Scope
  | 0 => some .grp | 1 => some .blk | 2 => some .slc | 3 => some .prt | 4 => some .sys | _ => none

/-- Code of the SEM of R150 other than relaxed. -/
def Sem.code : Sem → Nat
  | .acq => 1 | .rel => 2 | .ar => 3
/-- The value a code names, if the table assigns it (SEM of R150 other than relaxed). -/
def Sem.ofCode : Nat → Option Sem
  | 1 => some .acq | 2 => some .rel | 3 => some .ar | _ => none

/-- Code of the SEM of R153. -/
def FSem.code : FSem → Nat
  | .ar => 0 | .acq => 1 | .rel => 2 | .sc => 3
/-- The value a code names, if the table assigns it (SEM of R153). -/
def FSem.ofCode : Nat → Option FSem
  | 0 => some .ar | 1 => some .acq | 2 => some .rel | 3 => some .sc | _ => none

/-- Code of the AOP of R144, integer operations. -/
def AIntOp.code : AIntOp → Nat
  | .add => 0 | .min => 1 | .max => 2 | .and => 3 | .or => 4 | .xor => 5 | .exch => 6 | .inc => 7 | .dec => 8
/-- The value a code names, if the table assigns it (AOP of R144, integer operations). -/
def AIntOp.ofCode : Nat → Option AIntOp
  | 0 => some .add | 1 => some .min | 2 => some .max | 3 => some .and | 4 => some .or | 5 => some .xor | 6 => some .exch | 7 => some .inc | 8 => some .dec | _ => none

/-- Code of the AOP of R144, float operations. -/
def AFltOp.code : AFltOp → Nat
  | .fadd => 9 | .fmin => 10 | .fmax => 11
/-- The value a code names, if the table assigns it (AOP of R144, float operations). -/
def AFltOp.ofCode : Nat → Option AFltOp
  | 9 => some .fadd | 10 => some .fmin | 11 => some .fmax | _ => none

/-- Code of the OPR of R177 with FT 0. -/
def IRed.code : IRed → Nat
  | .add => 0 | .min => 1 | .max => 2 | .and => 3 | .or => 4 | .xor => 5
/-- The value a code names, if the table assigns it (OPR of R177 with FT 0). -/
def IRed.ofCode : Nat → Option IRed
  | 0 => some .add | 1 => some .min | 2 => some .max | 3 => some .and | 4 => some .or | 5 => some .xor | _ => none

/-- Code of the OPR of R177 with FT 1. -/
def FRed.code : FRed → Nat
  | .fadd => 0 | .fmin => 1 | .fmax => 2
/-- The value a code names, if the table assigns it (OPR of R177 with FT 1). -/
def FRed.ofCode : Nat → Option FRed
  | 0 => some .fadd | 1 => some .fmin | 2 => some .fmax | _ => none

/-- Code of the mode of R174. -/
def XMode.code : XMode → Nat
  | .pick => 0 | .lo => 1 | .hi => 2 | .mir => 3
/-- The value a code names, if the table assigns it (mode of R174). -/
def XMode.ofCode : Nat → Option XMode
  | 0 => some .pick | 1 => some .lo | 2 => some .hi | 3 => some .mir | _ => none

/-- Code of the op of R178. -/
def PollOp.code : PollOp → Nat
  | .some => 0 | .every => 1 | .same => 2 | .nil => 3 | .odd => 4
/-- The value a code names, if the table assigns it (op of R178). -/
def PollOp.ofCode : Nat → Option PollOp
  | 0 => Option.some .some | 1 => Option.some .every | 2 => Option.some .same | 3 => Option.some .nil | 4 => Option.some .odd
  | _ => Option.none

/-- Code of the op of R181. -/
def FlgOp.code : FlgOp → Nat
  | .or => 0 | .andn => 1 | .mov => 2
/-- The value a code names, if the table assigns it (op of R181). -/
def FlgOp.ofCode : Nat → Option FlgOp
  | 0 => some .or | 1 => some .andn | 2 => some .mov | _ => none

/-- Code of the op of R155. -/
def ClineOp.code : ClineOp → Nat
  | .inv => 0 | .wb => 1 | .evict => 2
/-- The value a code names, if the table assigns it (op of R155). -/
def ClineOp.ofCode : Nat → Option ClineOp
  | 0 => some .inv | 1 => some .wb | 2 => some .evict | _ => none

/-- Code of the lvl of R155. -/
def PrefLvl.code : PrefLvl → Nat
  | .l1 => 0 | .home => 1 | .near => 2
/-- The value a code names, if the table assigns it (lvl of R155). -/
def PrefLvl.ofCode : Nat → Option PrefLvl
  | 0 => some .l1 | 1 => some .home | 2 => some .near | _ => none

/-- Code of the DIR of R200. -/
def Dir.code : Dir → Nat
  | .g2l => 0 | .l2g => 1 | .g2g => 2 | .l2l => 3
/-- The value a code names, if the table assigns it (DIR of R200). -/
def Dir.ofCode : Nat → Option Dir
  | 0 => some .g2l | 1 => some .l2g | 2 => some .g2g | 3 => some .l2l | _ => none

/-- Code of the HALF of R200. -/
def WbHalf.code : WbHalf → Nat
  | .lead => 0 | .foll => 1 | .split => 2
/-- The value a code names, if the table assigns it (HALF of R200). -/
def WbHalf.ofCode : Nat → Option WbHalf
  | 0 => some .lead | 1 => some .foll | 2 => some .split | _ => none

/-- Code of the ESZ of R200. -/
def ESize.code : ESize → Nat
  | .e1 => 0 | .e2 => 1 | .e4 => 2 | .e8 => 3
/-- The value a code names, if the table assigns it (ESZ of R200). -/
def ESize.ofCode : Nat → Option ESize
  | 0 => some .e1 | 1 => some .e2 | 2 => some .e4 | 3 => some .e8 | _ => none

/-- Code of the TYPE of `cfill` (R200), integer table. -/
def FillT.code : FillT → Nat
  | .n8 => 4 | .n16 => 5 | .b32 => 9 | .b64 => 10
/-- The value a code names, if the table assigns it (TYPE of `cfill` (R200), integer table). -/
def FillT.ofCode : Nat → Option FillT
  | 4 => some .n8 | 5 => some .n16 | 9 => some .b32 | 10 => some .b64 | _ => none

/-- Code of the AOP of R355. -/
def RAOp.code : RAOp → Nat
  | .add => 0 | .exch => 1 | .fset => 2
/-- The value a code names, if the table assigns it (AOP of R355). -/
def RAOp.ofCode : Nat → Option RAOp
  | 0 => some .add | 1 => some .exch | 2 => some .fset | _ => none

/-- Code of the format fields of R237; INT8 is its flag with code 0. -/
def MFmt.code : MFmt → Nat
  | .i8 => 0 | .bf16 => 2 | .e4m3 => 3 | .e5m2 => 4 | .e2m1 => 5 | .ln6 => 6 | .fmt => 15
/-- The value a code names, if the table assigns it (format fields of R237; INT8 is its flag with code 0). -/
def MFmt.ofCode : Nat → Option MFmt
  | 0 => some .i8 | 2 => some .bf16 | 3 => some .e4m3 | 4 => some .e5m2 | 5 => some .e2m1 | 6 => some .ln6 | 15 => some .fmt | _ => none

/-- Code of the LVL of R295. -/
def CancelLvl.code : CancelLvl → Nat
  | .launch => 0 | .graph => 1 | .phase => 2 | .job => 3
/-- The value a code names, if the table assigns it (LVL of R295). -/
def CancelLvl.ofCode : Nat → Option CancelLvl
  | 0 => some .launch | 1 => some .graph | 2 => some .phase | 3 => some .job | _ => none

/-- Code of the HALF of R413. -/
def PmcHalf.code : PmcHalf → Nat
  | .full => 0 | .lo => 1 | .hi => 2
/-- The value a code names, if the table assigns it (HALF of R413). -/
def PmcHalf.ofCode : Nat → Option PmcHalf
  | 0 => some .full | 1 => some .lo | 2 => some .hi | _ => none

/-- Code of the op of R412. -/
def TctlOp.code : TctlOp → Nat
  | .son => 0 | .soff => 1 | .cfrz => 2 | .crun => 3 | .stop => 4
/-- The value a code names, if the table assigns it (op of R412). -/
def TctlOp.ofCode : Nat → Option TctlOp
  | 0 => some .son | 1 => some .soff | 2 => some .cfrz | 3 => some .crun | 4 => some .stop | _ => none

/-- Code of the SEL of R267. -/
def QrdSel.code : QrdSel → Nat
  | .e1 => 0 | .e2 => 1 | .next => 2 | .hdr => 3
/-- The value a code names, if the table assigns it (SEL of R267). -/
def QrdSel.ofCode : Nat → Option QrdSel
  | 0 => some .e1 | 1 => some .e2 | 2 => some .next | 3 => some .hdr | _ => none
/-! ### The words and their fields -/

/-- The fields of the words of one instruction (R30, R36). Fields of words that are absent are 0. -/
structure Raw where
  len : Nat
  op : Nat
  look : Nat
  pred : Nat
  pneg : Nat
  type : Nat
  rnd : Nat
  sat : Nat
  modx : Nat
  d : Nat
  a : Nat
  b : Nat
  inda : Nat
  immb : Nat
  c : Nat
  imm22 : Nat
  imm32 : Nat
  deriving DecidableEq, Repr

/-- The first word (R30). -/
def Raw.word0 (r : Raw) : Nat :=
  r.len + 4 * r.op + 1024 * r.look + 16384 * r.pred + 262144 * r.pneg + 524288 * r.type + 8388608 * r.rnd +
    67108864 * r.sat + 134217728 * r.modx
/-- Word 1 (R36). -/
def Raw.word1 (r : Raw) : Nat := r.d + 1024 * r.a + 1048576 * r.b + 1073741824 * r.inda + 2147483648 * r.immb
/-- Word 2 (R36). -/
def Raw.word2 (r : Raw) : Nat := r.c + 1024 * r.imm22

/-- The words of an instruction by its LEN (R27). -/
def Raw.words (r : Raw) : List Nat :=
  match r.len with
  | 1 => [r.word0, r.word1]
  | 2 => [r.word0, r.word1, r.word2]
  | 3 => [r.word0, r.word1, r.word2, r.imm32]
  | _ => [r.word0]

/-- The fields of words w0 to w3; words that the length does not have are given as 0 (R30, R36). -/
def rawOf (w0 w1 w2 w3 : Nat) : Raw where
  len := w0 % 4
  op := w0 / 4 % 256
  look := w0 / 1024 % 16
  pred := w0 / 16384 % 16
  pneg := w0 / 262144 % 2
  type := w0 / 524288 % 16
  rnd := w0 / 8388608 % 8
  sat := w0 / 67108864 % 2
  modx := w0 / 134217728 % 32
  d := w1 % 1024
  a := w1 / 1024 % 1024
  b := w1 / 1048576 % 1024
  inda := w1 / 1073741824 % 2
  immb := w1 / 2147483648 % 2
  c := w2 % 1024
  imm22 := w2 / 1024 % 4194304
  imm32 := w3 % 4294967296

/-! ### Steps of a decoder: each passes what it reads to the rest, or fails with its check's number -/

/-- What decoding gives: an instruction, or the number of the check of R51 that fails. -/
abbrev Dec := Except Nat Instr

/-- Continue if `c` holds, else fail check `n`. -/
def ck (n : Nat) (c : Bool) (k : Dec) : Dec := if c then k else .error n
/-- Continue with the value present, else fail check `n`. -/
def need {α : Type} (n : Nat) (o : Option α) (k : α → Dec) : Dec :=
  match o with
  | some x => k x
  | none => .error n
/-- A register number within its class (R37). -/
def fin? (n k : Nat) : Option (Fin n) := if h : k < n then some ⟨k, h⟩ else none
/-- A register field within its class: check 7. -/
def reg (n k : Nat) (f : Fin n → Dec) : Dec := need 7 (fin? n k) f
/-- Unused fields are zero: check 7. -/
def zero (l : List Nat) (k : Dec) : Dec := ck 7 (l.all (· == 0)) k
/-- MOD fields that must be zero: check 5. -/
def mod0 (l : List Nat) (k : Dec) : Dec := ck 5 (l.all (· == 0)) k
/-- An integer type of the opcode's subset: check 5 (R33). -/
def ity (tys : List IType) (r : Raw) (k : IType → Dec) : Dec :=
  need 5 (IType.ofCode r.type) fun t => ck 5 (tys.contains t) (k t)
/-- A float type of the opcode's subset: check 5 (R33). -/
def fty (tys : List FType) (r : Raw) (k : FType → Dec) : Dec :=
  need 5 (FType.ofCode r.type) fun t => ck 5 (tys.contains t) (k t)
/-- Every float type. -/
def tyFAll : List FType := [.f32, .f16, .bf16, .e4m3, .e5m2, .e2m1, .ln6, .fmt]
/-- RND of an opcode that rounds: 0b111 is reserved (R32). -/
def rndF (r : Raw) (k : Rnd → Dec) : Dec := need 5 (Rnd.ofCode r.rnd) k
/-- The guard (R34, check 6) and LOOK. -/
def hdr (r : Raw) (k : Hd → Dec) : Dec :=
  ck 6 (!(r.pred == 15 && r.pneg == 1)) (k ⟨Fin.ofNat 16 r.pred, r.pneg == 1, Fin.ofNat 16 r.look⟩)
/-- The guard of an instruction that must be unpredicated (R105, R107, R302): checks 6 and 7. -/
def unpred (r : Raw) (k : Fin 16 → Dec) : Dec :=
  ck 6 (!(r.pred == 15 && r.pneg == 1)) (ck 7 (r.pred == 15 && r.pneg == 0) (k (Fin.ofNat 16 r.look)))
/-- Operand A of vector class, direct or indirect (R38). -/
def vsrc (r : Raw) (k : VSrc → Dec) : Dec :=
  if r.inda == 1 then k (.ind (Fin.ofNat 128 (r.a % 128)) (Fin.ofNat 8 (r.a / 128))) else k (.reg (Fin.ofNat 1024 r.a))
/-- Operand B of an opcode without C: at 96 and 128 bits an immediate is required (R39, R157). R157 says so of the vector opcodes; for the scalar
opcodes 0x14 to 0x24 with a register B and extra words of zero the spec names no check, and check 7 fails here too. DESIGN CHOICE
(notes/assumptions/100.md). -/
def srcB (n : Nat) (r : Raw) (k : Src n → Dec) : Dec :=
  if r.immb == 1 then
    match r.len with
    | 1 => k (.imm (.i10 (BitVec.ofNat 10 r.b)))
    | 2 => zero [r.b, r.c] (k (.imm (.i22 (BitVec.ofNat 22 r.imm22))))
    | _ => zero [r.b, r.c, r.imm22] (k (.imm (.i32 (BitVec.ofNat 32 r.imm32))))
  else ck 7 (r.len == 1) (reg n r.b fun b => k (.reg b))
/-- Operand B of an opcode with C (R157). -/
def srcBC (n : Nat) (r : Raw) (k : Src n → Dec) : Dec :=
  if r.len == 2 then
    if r.immb == 1 then zero [r.b] (k (.imm (.i22 (BitVec.ofNat 22 r.imm22))))
    else zero [r.imm22] (reg n r.b fun b => k (.reg b))
  else ck 7 (r.immb == 1) (zero [r.b, r.imm22] (k (.imm (.i32 (BitVec.ofNat 32 r.imm32)))))
/-- Operand B where only a register or a 10-bit immediate exists. -/
def src10 (n : Nat) (r : Raw) (k : Src10 n → Dec) : Dec :=
  if r.immb == 1 then k (.imm (BitVec.ofNat 10 r.b)) else reg n r.b fun b => k (.reg b)
/-- A register that a flag makes present; without it the field is zero (R67, R108, R206). -/
def optReg (n flag k : Nat) (f : Option (Fin n) → Dec) : Dec :=
  if flag == 1 then reg n k fun x => f (some x) else zero [k] (f none)
/-- An immediate that replaces every register of B, by length. -/
def immOnly (r : Raw) (k : Imm → Dec) : Dec :=
  ck 7 (r.immb == 1) (srcB 1 r fun s => match s with | .imm v => k v | .reg _ => .error 7)

/-! ### The decoder of each opcode: the lengths it defines (as LEN) and how its fields are read -/

/-- A row of the opcode map (R50). -/
abbrev OpRow := Option (List Nat × (Raw → Dec))

def decS (tys : List IType) (sat : Bool) (mk : SOp → Instr) (r : Raw) : Dec :=
  ity tys r fun t => mod0 [r.modx, r.rnd, if sat then 0 else r.sat] <| hdr r fun h => zero [r.inda] <|
    reg 128 r.d fun d => reg 128 r.a fun a => srcB 128 r fun b => .ok (mk ⟨h, t, r.sat == 1, d, a, b⟩)

def decV (tys : List IType) (sat : Bool) (mk : VOp → Instr) (r : Raw) : Dec :=
  ity tys r fun t => mod0 [r.modx, r.rnd, if sat then 0 else r.sat] <| hdr r fun h =>
    vsrc r fun a => srcB 1024 r fun b => .ok (mk ⟨h, t, r.sat == 1, Fin.ofNat 1024 r.d, a, b⟩)

def decV3 (tys : List IType) (mk : VOp3 → Instr) (r : Raw) : Dec :=
  ity tys r fun t => mod0 [r.modx, r.rnd] <| hdr r fun h => vsrc r fun a => srcBC 1024 r fun b =>
    .ok (mk ⟨h, t, r.sat == 1, Fin.ofNat 1024 r.d, a, b, Fin.ofNat 1024 r.c⟩)

def decF (rs : Bool) (mk : FOp → Instr) (r : Raw) : Dec :=
  fty tyF3 r fun t => rndF r fun rn => mod0 [r.modx, if rs then 0 else r.rnd, if rs then 0 else r.sat] <|
    hdr r fun h => vsrc r fun a => srcB 1024 r fun b =>
      .ok (mk ⟨h, t, rn, r.sat == 1, Fin.ofNat 1024 r.d, a, b⟩)

def decF3 (mk : FOp3 → Instr) (r : Raw) : Dec :=
  fty tyF3 r fun t => rndF r fun rn => mod0 [r.modx] <| hdr r fun h => vsrc r fun a => srcBC 1024 r fun b =>
    .ok (mk ⟨h, t, rn, r.sat == 1, Fin.ofNat 1024 r.d, a, b, Fin.ofNat 1024 r.c⟩)

def decFU (sat : Bool) (mk : FUn → Instr) (r : Raw) : Dec :=
  fty tyF3 r fun t => rndF r fun rn => mod0 [r.modx, if sat then 0 else r.sat] <| hdr r fun h =>
    vsrc r fun a => zero [r.immb, r.b] <| .ok (mk ⟨h, t, rn, r.sat == 1, Fin.ofNat 1024 r.d, a⟩)

def opSeq : Nat → OpRow
  | 0x00 => some ([1], fun r => mod0 [r.modx, r.sat, r.rnd, r.type] <| hdr r fun h =>
      zero [r.d, r.a, r.b, r.inda, r.immb] <| .ok (.nop h))
  | 0x01 => some ([2], fun r => need 5 (BMode.ofCode r.modx) fun m => mod0 [r.sat, r.rnd, r.type] <| hdr r fun h =>
      zero [r.d, r.a, r.b, r.inda, r.immb, r.c] <| .ok (.bra h m (BitVec.ofNat 22 r.imm22)))
  | 0x02 => some ([1], fun r => need 5 (BMode.ofCode r.modx) fun m => mod0 [r.sat, r.rnd, r.type] <| hdr r fun h =>
      zero [r.d, r.b, r.inda, r.immb] <| reg 128 r.a fun a => .ok (.brx h m a))
  | 0x03 => some ([2], fun r => need 5 (BMode.ofCode r.modx) fun m => mod0 [r.sat, r.rnd, r.type] <| hdr r fun h =>
      zero [r.a, r.b, r.inda, r.immb, r.c] <| reg 128 r.d fun d => .ok (.call h m d (BitVec.ofNat 22 r.imm22)))
  | 0x04 => some ([1], fun r => need 5 (BMode.ofCode r.modx) fun m => mod0 [r.sat, r.rnd, r.type] <| hdr r fun h =>
      zero [r.b, r.inda, r.immb] <| reg 128 r.d fun d => reg 128 r.a fun a => .ok (.callx h m d a))
  | 0x05 => some ([1], fun r => need 5 (BMode.ofCode r.modx) fun m => mod0 [r.sat, r.rnd, r.type] <| hdr r fun h =>
      zero [r.d, r.b, r.inda, r.immb] <| reg 128 r.a fun a => .ok (.ret h m a))
  | 0x06 => some ([1], fun r => mod0 [r.modx, r.sat, r.rnd, r.type] <| unpred r fun l =>
      zero [r.d, r.a, r.b, r.inda, r.immb] <| .ok (.join l))
  | 0x07 => some ([1], fun r => mod0 [r.modx, r.sat, r.rnd, r.type] <| unpred r fun l =>
      zero [r.d, r.a, r.b, r.inda, r.immb] <| .ok (.wide l))
  | 0x08 => some ([1], fun r => mod0 [r.modx, r.sat, r.rnd, r.type] <| unpred r fun l =>
      zero [r.d, r.a, r.b, r.inda, r.immb] <| .ok (.endwide l))
  | 0x09 => some ([1], fun r => mod0 [r.modx, r.sat, r.rnd, r.type] <| hdr r fun h =>
      zero [r.d, r.a, r.b, r.inda, r.immb] <| .ok (.exit h))
  | 0x0A => some ([1], fun r => mod0 [r.modx, r.sat, r.rnd, r.type] <| hdr r fun h =>
      zero [r.d, r.a, r.inda] <| ck 7 (r.immb == 1) <| reg 512 r.b fun n => .ok (.trap h n))
  | 0x0B => some ([1], fun r => mod0 [r.modx, r.sat, r.rnd, r.type] <| hdr r fun h =>
      zero [r.d, r.a, r.b, r.inda, r.immb] <| .ok (.bkpt h))
  | 0x0C => some ([1], fun r => mod0 [r.sat, r.rnd, r.type] <| unpred r fun l => zero [r.d, r.a, r.inda] <|
      src10 128 r fun n =>
        ck 7 (match n with | .imm v => decide (v.toNat ≤ 32) | .reg _ => true) <|
          .ok (.bar l (Fin.ofNat 16 (r.modx / 2)) (r.modx % 2 == 1) n))
  | 0x0D => some ([2], fun r => mod0 [r.modx / 4, r.sat, r.rnd, r.type] <| hdr r fun h =>
      zero [r.inda, r.immb, r.c] <| optReg 128 (r.modx / 2 % 2) r.d fun d => reg 128 r.a fun a =>
        optReg 128 (r.modx % 2) r.b fun b => .ok (.parrive h d a b (BitVec.ofNat 22 r.imm22)))
  | 0x0E => some ([2], fun r => mod0 [r.modx / 2, r.sat, r.rnd, r.type] <| hdr r fun h =>
      zero [r.d, r.b, r.inda, r.immb, r.c] <| reg 128 r.a fun a =>
        .ok (.pwait h (r.modx % 2 == 1) a (BitVec.ofNat 22 r.imm22)))
  | 0x0F => some ([1], fun r => mod0 [r.modx, r.sat, r.rnd, r.type] <| hdr r fun h =>
      zero [r.a, r.b, r.inda, r.immb] <| reg 16 r.d fun d => .ok (.elect h d))
  | 0x10 => some ([1, 2], fun r => mod0 [r.modx / 4 % 2, r.sat, r.rnd] <|
      if r.len == 2 then
        mod0 [r.modx / 16, r.modx % 4, r.type] <| hdr r fun h => zero [r.a, r.b, r.inda, r.immb, r.c, r.imm22 / 64] <|
          optReg 128 (r.modx / 8 % 2) r.d fun s => .ok (.setfmtImm h s (BitVec.ofNat 6 r.imm22))
      else if r.modx / 16 == 1 then
        mod0 [r.modx % 4, r.type] <| hdr r fun h => zero [r.b, r.inda, r.immb] <|
          optReg 128 (r.modx / 8 % 2) r.d fun s => reg 128 r.a fun a => .ok (.setfmt h s (.reg a))
      else
        fty tyNarrow r fun f => need 5 (Reading.ofCode (r.modx % 4)) fun rd => hdr r fun h =>
          zero [r.a, r.b, r.inda, r.immb] <| optReg 128 (r.modx / 8 % 2) r.d fun s => .ok (.setfmt h s (.named f rd)))
  | 0x11 => some ([1, 2], fun r =>
      if r.modx / 16 == 1 then
        ck 5 (r.len == 1) <| mod0 [r.modx % 8, r.sat, r.rnd, r.type] <| hdr r fun h => zero [r.b, r.inda, r.immb] <|
          optReg 128 (r.modx / 8 % 2) r.d fun s => reg 128 r.a fun a => .ok (.setmode h s (.reg a))
      else
        mod0 [r.type % 4] <| need 5 (FieldOp.ofCode (r.modx / 2 % 4)) fun sa =>
          need 5 (FieldOp.ofCode (r.modx % 2 * 2 + r.sat)) fun ft => need 5 (FieldOp.ofCode (r.type / 4)) fun da =>
          rndF r fun rn => hdr r fun h => zero [r.a, r.b, r.inda, r.immb] <|
          optReg 128 (r.modx / 8 % 2) r.d fun s =>
            if r.len == 2 then zero [r.c, r.imm22 / 65536] <|
              .ok (.setmodeStep h s ⟨sa, ft, da, rn⟩ (BitVec.ofNat 16 r.imm22))
            else .ok (.setmode h s (.ops ⟨sa, ft, da, rn⟩)))
  | 0x12 => some ([1], fun r => mod0 [r.modx, r.sat, r.rnd, r.type] <| hdr r fun h => zero [r.b, r.inda, r.immb] <|
      reg 128 r.d fun d => need 7 (SpReg.ofCode r.a) fun s => .ok (.srd h d s))
  | 0x13 => some ([1], fun r => mod0 [r.modx, r.sat, r.rnd, r.type] <| hdr r fun h => zero [r.b, r.inda, r.immb] <|
      need 7 (SpRegW.ofCode r.d) fun s => reg 128 r.a fun a => .ok (.swr h s a))
  | 0x14 => some ([1, 2, 3], decS tyW4 true .sadd)
  | 0x15 => some ([1, 2, 3], decS tyW4 true .ssub)
  | 0x16 => some ([1, 2, 3], decS tyW4 true .smul)
  | 0x17 => some ([1, 2, 3], decS tyW4 false .smulh)
  | 0x18 => some ([1, 2, 3], decS tyW4 true .sdiv)
  | 0x19 => some ([1, 2, 3], decS tyW4 false .srem)
  | 0x1A => some ([1, 2, 3], decS tyB6 false .sand)
  | 0x1B => some ([1, 2, 3], decS tyB6 false .sor)
  | 0x1C => some ([1, 2, 3], decS tyB6 false .sxor)
  | 0x1D => some ([1, 2, 3], decS tyB6 false .sshl)
  | 0x1E => some ([1, 2, 3], decS tyB6 false .sshr)
  | 0x1F => some ([1, 2, 3], decS [.i32, .i64] false .ssra)
  | 0x20 => some ([1, 2, 3], decS tyW4 false .smin)
  | 0x21 => some ([1, 2, 3], decS tyW4 false .smax)
  | 0x22 => some ([1, 2, 3], fun r => need 5 (CC.ofCode r.modx) fun cc =>
      decS tyW4 false (.scmp cc) { r with modx := 0 })
  | 0x23 => some ([1, 2, 3], decS tyB6 false .ssel)
  | 0x24 => some ([1, 2, 3], fun r => ity tyB6 r fun t => mod0 [r.modx / 2, r.sat, r.rnd] <|
      if r.modx % 2 == 1 then
        ck 5 (t == .b64 && r.len == 3) <| hdr r fun h => zero [r.inda, r.a, r.b, r.c, r.imm22] <| ck 7 (r.immb == 1) <|
          reg 128 r.d fun d => .ok (.smovHi h d (BitVec.ofNat 32 r.imm32))
      else hdr r fun h => zero [r.inda] <| reg 128 r.d fun d =>
        if r.immb == 1 then zero [r.a] <| immOnly r fun v => .ok (.smov h t d (.imm v))
        else ck 7 (r.len == 1) <| zero [r.b] <| reg 128 r.a fun a => .ok (.smov h t d (.reg a)))
  | 0x25 => some ([2], fun r => ity [.i64, .n64] r fun t => mod0 [r.modx, r.sat, r.rnd] <| hdr r fun h =>
      zero [r.inda, r.immb, r.b, r.c, r.imm22 / 8192] <| ck 7 (fieldOk (r.imm22 % 64) (r.imm22 / 64 % 128) 64) <|
        reg 128 r.d fun d => reg 128 r.a fun a =>
          .ok (.sbfx h t d a (Fin.ofNat 64 (r.imm22 % 64)) (Fin.ofNat 128 (r.imm22 / 64 % 128))))
  | 0x26 => some ([1], fun r => ity tyB2 r fun t => need 5 (BitOp.ofCode r.modx) fun o => mod0 [r.sat, r.rnd] <|
      hdr r fun h => zero [r.inda, r.immb, r.b] <| reg 128 r.d fun d => reg 128 r.a fun a => .ok (.sbit h t o d a))
  | 0x27 => some ([1], fun r => ity [.b32, .i32] r fun t => mod0 [r.modx, r.sat, r.rnd] <| hdr r fun h =>
      reg 128 r.d fun d => vsrc r fun a => src10 128 r fun b => .ok (.sget h t d a b))
  | 0x28 => some ([1], fun r => need 5 (PLogOp.ofCode r.modx) fun o => mod0 [r.sat, r.rnd, r.type] <| hdr r fun h =>
      zero [r.inda, r.immb, (match o with | .not => r.b | .mov => r.b | .set => r.a + r.b | _ => 0)] <|
        reg 16 r.d fun d => reg 16 r.a fun a => reg 16 r.b fun b => .ok (.plog h o d a b))
  | 0x29 => some ([1], fun r => ck 5 (decide (r.modx < 3)) <| mod0 [r.sat, r.rnd, r.type] <| hdr r fun h =>
      zero [r.inda, r.immb, r.b] <|
        match r.modx with
        | 0 => reg 128 r.d fun d => reg 16 r.a fun a => .ok (.pbits h (.tos d a))
        | 1 => reg 16 r.d fun d => reg 128 r.a fun a => .ok (.pbits h (.top d a))
        | _ => reg 128 r.d fun d => reg 16 r.a fun a => .ok (.pbits h (.pop d a)))
  | 0x2A => some ([1], fun r => mod0 [r.modx, r.sat, r.rnd, r.type] <| hdr r fun h =>
      zero [r.d, r.a, r.b, r.inda, r.immb] <| .ok (.yield h))
  | 0x2B => some ([1, 2], fun r => mod0 [r.modx, r.sat, r.rnd, r.type] <| hdr r fun h =>
      zero [r.d, r.b, r.inda, r.immb] <|
        if r.len == 2 then zero [r.a, r.c] <| .ok (.snoozeImm h (BitVec.ofNat 22 r.imm22))
        else reg 128 r.a fun a => .ok (.snooze h a))
  | 0x2C => some ([1], fun r => mod0 [r.modx, r.sat, r.rnd, r.type] <| unpred r fun l =>
      zero [r.d, r.a, r.b, r.inda, r.immb] <| .ok (.rett l))
  | _ => none

/-- The reduction of `vred` and `scan` (R177): check 5. -/
def redOp (r : Raw) (k : RedOp → Dec) : Dec :=
  if r.modx / 16 == 1 then
    mod0 [r.type] <| need 5 (FRed.ofCode (r.modx % 8)) fun o => rndF r fun rn =>
      ck 5 (RedOp.wf (.flt o rn)) (k (.flt o rn))
  else ity tyW4 r fun t => need 5 (IRed.ofCode (r.modx % 8)) fun o => mod0 [r.rnd] (k (.int o t))

/-- The amount of `slide` (R175): check 7. -/
def amtF (r : Raw) (t : IType) (k : Amt → Dec) : Dec :=
  if r.modx / 2 == 1 then zero [r.imm22] <| reg 128 r.c fun c => k (.reg c)
  else zero [r.c] <| reg 256 r.imm22 fun n => ck 7 (Amt.ok (.imm n) t) (k (.imm n))

def opVec : Nat → OpRow
  | 0x40 => some ([1, 2, 3], decV tyInt true .iadd)
  | 0x41 => some ([1, 2, 3], decV tyInt true .isub)
  | 0x42 => some ([1, 2, 3], decV tyInt true .imul)
  | 0x43 => some ([1, 2, 3], decV tyW4 false .imulh)
  | 0x44 => some ([2, 3], decV3 tyInt .imad)
  | 0x45 => some ([1, 2, 3], decV tyInt false .imin)
  | 0x46 => some ([1, 2, 3], decV tyInt false .imax)
  | 0x47 => some ([1], fun r => ity [.i8, .i16, .i32, .i64] r fun t => mod0 [r.modx, r.rnd] <| hdr r fun h =>
      vsrc r fun a => zero [r.immb, r.b] <| .ok (.iabs h t (r.sat == 1) (Fin.ofNat 1024 r.d) a))
  | 0x48 => some ([1, 2, 3], decV tyB2 false .and)
  | 0x49 => some ([1, 2, 3], decV tyB2 false .or)
  | 0x4A => some ([1, 2, 3], decV tyB2 false .xor)
  | 0x4B => some ([1, 2, 3], decV tyB2 false .shl)
  | 0x4C => some ([1, 2, 3], decV [.b32, .b64, .n32, .n64] false .shr)
  | 0x4D => some ([1, 2, 3], decV [.i32, .i64] false .sra)
  | 0x4E => some ([1, 2, 3], fun r => rndF r fun rn => decV tyW4 false (.rshr rn) { r with rnd := 0 })
  | 0x4F => some ([1, 2, 3], fun r => ity tyNoPair r fun t => need 5 (CC.ofCode r.modx) fun cc =>
      mod0 [r.rnd, r.sat] <| hdr r fun h => reg 16 r.d fun d => vsrc r fun a => srcB 1024 r fun b =>
        .ok (.icmp h t cc d a b))
  | 0x50 => some ([1, 2, 3], fun r => mod0 [r.modx / 16] <|
      decV tyB2 false (.sel (Fin.ofNat 16 r.modx)) { r with modx := 0 })
  | 0x51 => some ([2, 3], fun r => ity tyW4 r fun t => mod0 [r.modx / 2, r.rnd, r.sat] <| hdr r fun h =>
      vsrc r fun a => zero [r.immb] <|
        if r.len == 2 then
          zero [r.b, r.c, r.imm22 / 8192] <| ck 7 (fieldOk (r.imm22 % 64) (r.imm22 / 64 % 128) t.width) <|
            .ok (.bfx h t (r.modx == 1) (Fin.ofNat 1024 r.d) a (Fin.ofNat 64 (r.imm22 % 64))
              (Fin.ofNat 128 (r.imm22 / 64 % 128)))
        else zero [r.imm22, r.imm32] <|
          .ok (.bfxReg h t (r.modx == 1) (Fin.ofNat 1024 r.d) a (Fin.ofNat 1024 r.b) (Fin.ofNat 1024 r.c)))
  | 0x52 => some ([1], fun r => ity tyB2 r fun t => need 5 (BitOp.ofCode r.modx) fun o => mod0 [r.rnd, r.sat] <|
      hdr r fun h => vsrc r fun a => zero [r.immb, r.b] <| .ok (.bit h t o (Fin.ofNat 1024 r.d) a))
  | 0x53 => some ([1, 2, 3], fun r => ity tyAll r fun t => ck 5 (decide (r.modx < 4) && (r.modx != 3 || t == .b32)) <|
      mod0 [r.rnd, r.sat] <| hdr r fun h =>
        match r.modx with
        | 0 => ck 7 (r.len == 1) <| zero [r.immb, r.b] <| vsrc r fun a => .ok (.mov h t (Fin.ofNat 1024 r.d) (.vec a))
        | 1 => zero [r.inda, r.a] <| immOnly r fun v => .ok (.mov h t (Fin.ofNat 1024 r.d) (.imm v))
        | 2 => ck 7 (r.len == 1) <| zero [r.inda, r.immb, r.b] <| reg 128 r.a fun a =>
            .ok (.mov h t (Fin.ofNat 1024 r.d) (.scl a))
        | _ => ck 7 (r.len == 1) <| zero [r.inda, r.immb, r.a, r.b] <| .ok (.mov h t (Fin.ofNat 1024 r.d) .lane))
  | 0x54 => some ([2, 3], decV3 [.i16x2] .pdot2)
  | 0x55 => some ([1, 2, 3], decV [.i16x2] true .padd)
  | 0x56 => some ([1, 2, 3], decV [.i16x2] true .psub)
  | 0x57 => some ([1, 2, 3], decV [.i16x2] true .pmul)
  | 0x58 => some ([1], fun r => ity [.i16x2] r fun _ => mod0 [r.modx, r.rnd] <| hdr r fun h => vsrc r fun a =>
      src10 1024 r fun b => .ok (.pack h (r.sat == 1) (Fin.ofNat 1024 r.d) a b))
  | 0x59 => some ([1], fun r => ity [.i16x2] r fun _ => mod0 [r.modx / 2, r.rnd, r.sat] <| hdr r fun h =>
      vsrc r fun a => zero [r.immb, r.b] <| .ok (.unpk h (r.modx == 1) (Fin.ofNat 1024 r.d) a))
  | 0x5A => some ([1, 2, 3], decF true .fadd)
  | 0x5B => some ([1, 2, 3], decF true .fsub)
  | 0x5C => some ([1, 2, 3], decF true .fmul)
  | 0x5D => some ([2, 3], decF3 .ffma)
  | 0x5E => some ([1, 2, 3], decF false .fmin)
  | 0x5F => some ([1, 2, 3], decF false .fmax)
  | 0x60 => some ([1, 2, 3], fun r => fty tyF3 r fun t => need 5 (FCC.ofCode r.modx) fun cc =>
      mod0 [r.rnd, r.sat] <| hdr r fun h => reg 16 r.d fun d => vsrc r fun a => srcB 1024 r fun b =>
        .ok (.fcmp h t cc d a b))
  | 0x61 => some ([1, 2, 3], decF true .fdiv)
  | 0x62 => some ([1], decFU true .frcp)
  | 0x63 => some ([1], decFU true .frsq)
  | 0x64 => some ([1], decFU true .fsqrt)
  | 0x65 => some ([1], decFU true .fexp2)
  | 0x66 => some ([1], decFU true .flog2)
  | 0x67 => some ([1], fun r => fty tyF3 r fun t => mod0 [r.modx, r.rnd, r.sat] <| hdr r fun h => vsrc r fun a =>
      zero [r.immb, r.b] <| .ok (.fclass h t (Fin.ofNat 1024 r.d) a))
  | 0x68 => some ([1], decFU false .frnd)
  | 0x69 => some ([1, 2, 3], decF true .fscl)
  | 0x6A => some ([1], fun r => fty tyFAll r fun dt => need 5 (FType.ofCode (r.modx % 16)) fun sty =>
      rndF r fun rn => ck 5 (r.modx / 16 == 0 || cvtPk dt sty) <| hdr r fun h => vsrc r fun a =>
        zero [r.immb, r.b] <| .ok (.cvt h dt sty (r.modx / 16 == 1) rn (r.sat == 1) (Fin.ofNat 1024 r.d) a))
  | 0x6B => some ([1], fun r => fty tyFAll r fun ft => need 5 (IType.ofCode r.modx) fun it =>
      ck 5 (tyInt.contains it) <| rndF r fun rn => mod0 [r.sat] <| hdr r fun h => vsrc r fun a =>
        zero [r.immb, r.b] <| .ok (.cvtfi h it ft rn (Fin.ofNat 1024 r.d) a))
  | 0x6C => some ([1], fun r => ity tyInt r fun it => need 5 (FType.ofCode r.modx) fun ft =>
      rndF r fun rn => hdr r fun h => vsrc r fun a =>
        zero [r.immb, r.b] <| .ok (.cvtif h ft it rn (r.sat == 1) (Fin.ofNat 1024 r.d) a))
  | 0x6D => some ([1], fun r => ity tyInt r fun dt => need 5 (IType.ofCode r.modx) fun sty =>
      ck 5 (tyInt.contains sty) <| mod0 [r.rnd] <| hdr r fun h => vsrc r fun a =>
        zero [r.immb, r.b] <| .ok (.cvti h dt sty (r.sat == 1) (Fin.ofNat 1024 r.d) a))
  | 0x6E => some ([1, 2, 3], fun r => ity tyB2 r fun t => need 5 (XMode.ofCode (r.modx % 8)) fun m =>
      mod0 [r.modx / 16, r.rnd, r.sat] <| hdr r fun h => vsrc r fun a => srcB 1024 r fun b =>
        .ok (.xlane h t m (r.modx / 8 == 1) (Fin.ofNat 1024 r.d) a b))
  | 0x6F => some ([2, 3], fun r => ity [.b32, .i16x2] r fun t => mod0 [r.modx / 4, r.rnd, r.sat] <| hdr r fun h =>
      vsrc r fun a => amtF r t fun n =>
        if r.len == 2 then zero [r.immb] <|
          .ok (.slide h t (r.modx % 2 == 1) (Fin.ofNat 1024 r.d) a (Fin.ofNat 1024 r.b) n)
        else ck 7 (r.immb == 1) <| zero [r.b] <|
          .ok (.slideImm h t (r.modx % 2 == 1) (Fin.ofNat 1024 r.d) a (BitVec.ofNat 32 r.imm32) n))
  | 0x70 => some ([1, 2, 3], fun r => ity tyB2 r fun t => mod0 [r.modx, r.rnd, r.sat] <| hdr r fun h =>
      vsrc r fun a => srcB 128 r fun b => .ok (.bcast h t (Fin.ofNat 1024 r.d) a b))
  | 0x71 => some ([1], fun r => redOp r fun o => mod0 [r.modx / 8 % 2, r.sat] <| hdr r fun h => zero [r.immb, r.b] <|
      reg 128 r.d fun d => vsrc r fun a => .ok (.vred h o d a))
  | 0x72 => some ([1], fun r => redOp r fun o => mod0 [r.sat] <| hdr r fun h => zero [r.immb, r.b] <| vsrc r fun a =>
      .ok (.scan h (r.modx / 8 % 2 == 1) o (Fin.ofNat 1024 r.d) a))
  | 0x73 => some ([1], fun r => need 5 (PollOp.ofCode r.modx) fun o => mod0 [r.sat, r.rnd, r.type] <| hdr r fun h =>
      zero [r.inda, r.immb, r.b] <| reg 16 r.d fun d => reg 16 r.a fun a => .ok (.poll h o d a))
  | 0x74 => some ([1], fun r => ity tyB2 r fun t => mod0 [r.modx, r.rnd, r.sat] <| hdr r fun h => vsrc r fun a =>
      zero [r.immb, r.b] <| .ok (.vmatch h t (Fin.ofNat 1024 r.d) a))
  | 0x75 => some ([1], fun r => mod0 [r.modx / 2, r.sat, r.rnd, r.type] <| hdr r fun h =>
      zero [r.a, r.b, r.inda, r.immb] <| reg 128 r.d fun d => .ok (.flgrd h (r.modx == 1) d))
  | 0x76 => some ([1, 2, 3], fun r => need 5 (FlgOp.ofCode r.modx) fun o => mod0 [r.sat, r.rnd, r.type] <|
      hdr r fun h => zero [r.d, r.a, r.inda] <| srcB 128 r fun b => .ok (.flgwr h o b))
  | _ => none

/-- SEM and SCOPE of a load or store (R149): `sem` is the one code the form allows; SCOPE is 0 without it. -/
def ordF (r : Raw) (sem : Nat) (loc : Bool) (k : Option Scope → Dec) : Dec :=
  if r.modx % 2 * 2 + r.sat == 0 then mod0 [r.rnd] (k none)
  else ck 5 (r.modx % 2 * 2 + r.sat == sem) <| need 5 (Scope.ofCode r.rnd) fun s =>
    ck 5 (!loc || decide (r.rnd < 2)) (k (some s))

/-- The layout that loads and stores share (R149). -/
def decMem {ρ α : Type} (tys : List IType) (sem : Nat) (loc : Bool) (data : Raw → (ρ → Dec) → Dec)
    (addr : Raw → (α → Dec) → Dec) (mk : MemOp ρ α → Instr) (r : Raw) : Dec :=
  ity tys r fun t => need 5 (Hint.ofCode (r.modx / 8)) fun ch => mod0 [r.modx / 2 % 4, if loc then r.modx / 8 else 0] <|
    ordF r sem loc fun o => hdr r fun h => zero [r.immb, r.c] <| addr r fun a => data r fun x =>
      .ok (mk ⟨h, t, ch, o, x, a, BitVec.ofNat 22 r.imm22⟩)

/-- Vector destination, B zero. -/
def dstV (r : Raw) (k : VReg → Dec) : Dec := zero [r.b] (k (Fin.ofNat 1024 r.d))
/-- Vector source in B, D zero. -/
def srcV (r : Raw) (k : VReg → Dec) : Dec := zero [r.d] (k (Fin.ofNat 1024 r.b))
/-- Scalar destination, B zero. -/
def dstS (r : Raw) (k : SReg → Dec) : Dec := zero [r.b] (reg 128 r.d k)
/-- Scalar source in B, D zero. -/
def srcS (r : Raw) (k : SReg → Dec) : Dec := zero [r.d] (reg 128 r.b k)
/-- Scalar base in A, INDA 0. -/
def baseS (r : Raw) (k : SReg → Dec) : Dec := zero [r.inda] (reg 128 r.a k)

/-- SEM and SCOPE of an atomic (R150). -/
def semF (r : Raw) (loc : Bool) (k : Option (Sem × Scope) → Dec) : Dec :=
  if r.modx % 2 * 2 + r.sat == 0 then mod0 [r.rnd] (k none)
  else need 5 (Sem.ofCode (r.modx % 2 * 2 + r.sat)) fun m => need 5 (Scope.ofCode r.rnd) fun s =>
    ck 5 (!loc || decide (r.rnd < 2)) (k (some (m, s)))

/-- AOP and TYPE of an atomic (R144, R150). -/
def aopF (r : Raw) (k : AOp → Dec) : Dec :=
  if r.modx / 2 < 9 then
    need 5 (AIntOp.ofCode (r.modx / 2)) fun o => need 5 (IType.ofCode r.type) fun t =>
      ck 5 (AOp.wf (.int o t)) (k (.int o t))
  else need 5 (AFltOp.ofCode (r.modx / 2)) fun o => mod0 [r.type] (k (.flt o))

def decAtom (loc : Bool) (mk : AtomOp → VReg → Instr) (mkI : AtomOp → BitVec 32 → Instr) (r : Raw) : Dec :=
  aopF r fun op => semF r loc fun sm => hdr r fun h => vsrc r fun a => zero [r.c] <|
    if r.len == 2 then zero [r.immb] <|
      .ok (mk ⟨h, op, sm, Fin.ofNat 1024 r.d, a, BitVec.ofNat 22 r.imm22⟩ (Fin.ofNat 1024 r.b))
    else ck 7 (r.immb == 1) <| zero [r.b] <|
      .ok (mkI ⟨h, op, sm, Fin.ofNat 1024 r.d, a, BitVec.ofNat 22 r.imm22⟩ (BitVec.ofNat 32 r.imm32))

def decCas (loc : Bool) (mk : CasOp → Instr) (r : Raw) : Dec :=
  ity tyB6 r fun t => mod0 [r.modx / 2] <| semF r loc fun sm => hdr r fun h => vsrc r fun a => zero [r.immb] <|
    .ok (mk ⟨h, t, sm, Fin.ofNat 1024 r.d, a, Fin.ofNat 1024 r.b, Fin.ofNat 1024 r.c, BitVec.ofNat 22 r.imm22⟩)

/-- The operands of the maintenance forms (R155). -/
def maint (r : Raw) (k : Hd → SReg → BitVec 22 → Dec) : Dec :=
  hdr r fun h => zero [r.d, r.b, r.c, r.inda, r.immb] <| reg 128 r.a fun a => k h a (BitVec.ofNat 22 r.imm22)

def opLsu : Nat → OpRow
  | 0x90 => some ([2], decMem tyAll 1 false dstV baseS .ld)
  | 0x91 => some ([2], decMem tyAll 2 false srcV baseS .st)
  | 0x92 => some ([2], decMem tyAll 1 true dstV baseS .ldl)
  | 0x93 => some ([2], decMem tyAll 2 true srcV baseS .stl)
  | 0x94 => some ([2], decMem tyNoPair 1 false dstS baseS .sld)
  | 0x95 => some ([2], decMem tyNoPair 2 false srcS baseS .sst)
  | 0x96 => some ([2], decMem tyAll 1 false dstV vsrc .gath)
  | 0x97 => some ([2], decMem tyAll 2 false srcV vsrc .scat)
  | 0x98 => some ([2], decMem tyAll 1 true dstV vsrc .lgath)
  | 0x99 => some ([2], decMem tyAll 2 true srcV vsrc .lscat)
  | 0x9A => some ([2], decMem tyNoPair 1 false dstV baseS .ldb)
  | 0x9B => some ([2, 3], decAtom false .atom .atomImm32)
  | 0x9C => some ([2], decCas false .cas)
  | 0x9D => some ([2], fun r => ck 5 (r.modx == 18 && r.sat == 0 && r.rnd == 0 && r.type == 0) <| hdr r fun h =>
      zero [r.d, r.c, r.immb] <| vsrc r fun a => .ok (.atomOrd h a (Fin.ofNat 1024 r.b) (BitVec.ofNat 22 r.imm22)))
  | 0x9E => some ([2, 3], decAtom true .atoml .atomlImm32)
  | 0x9F => some ([2], decCas true .casl)
  | 0xA0 => some ([1], fun r => mod0 [r.modx / 2, r.type] <| need 5 (FSem.ofCode (r.modx % 2 * 2 + r.sat)) fun m =>
      need 5 (Scope.ofCode r.rnd) fun s => hdr r fun h => zero [r.d, r.a, r.b, r.inda, r.immb] <| .ok (.fence h m s))
  | 0xA1 => some ([1], fun r => mod0 [r.modx, r.sat, r.type] <| ck 5 (r.rnd == 2) <| hdr r fun h =>
      zero [r.d, r.a, r.b, r.inda, r.immb] <| .ok (.ifence h))
  | 0xA2 => some ([2], fun r => need 5 (ClineOp.ofCode r.modx) fun o => mod0 [r.sat, r.rnd, r.type] <|
      maint r fun h a off => .ok (.cline h o a off))
  | 0xA3 => some ([2], fun r => need 5 (PrefLvl.ofCode r.modx) fun o => mod0 [r.sat, r.rnd, r.type] <|
      maint r fun h a off => .ok (.pref h o a off))
  | 0xA4 => some ([2], fun r => mod0 [r.modx, r.sat, r.rnd, r.type] <| maint r fun h a off => .ok (.ipref h a off))
  | 0xA5 => some ([2], fun r => mod0 [r.modx, r.sat, r.rnd, r.type] <| maint r fun h a off => .ok (.stz h a off))
  | _ => none

/-- A layout record from IMM32 or ALAY (R189): reserved values fail check 7. -/
def layF (v : Nat) (k : Layout → Dec) : Dec :=
  zero [v / 1024] <| reg 3 (v / 256 % 4) fun s => reg 6 (v / 32 % 8) fun w => reg 8 (v / 4 % 8) fun t =>
    reg 3 (v % 4) fun o => ck 7 (Layout.wf ⟨s, w, t, o⟩) (k ⟨s, w, t, o⟩)

/-- ARV with its offset, and the scalars D, A, B of the 128-bit copies (R200). -/
def cpyF (r : Raw) (k : CpyOp → Dec) : Dec :=
  hdr r fun h => zero [r.inda, r.immb, if r.modx / 8 % 2 == 1 then 0 else r.imm22] <|
    reg 128 r.d fun d => reg 128 r.a fun a => reg 128 r.b fun b =>
      k ⟨h, if r.modx / 8 % 2 == 1 then some (BitVec.ofNat 22 r.imm22) else none, d, a, b⟩

/-- An immediate count that is not negative: check 7. -/
def cnt10 (r : Raw) (k : Src10 128 → Dec) : Dec := src10 128 r fun n => ck 7 n.nonneg (k n)

def opCopy : Nat → OpRow
  | 0xB0 => some ([3], fun r => mod0 [r.modx / 16, r.sat, r.rnd, r.type / 4] <| need 5 (Dir.ofCode (r.modx % 4)) fun dir =>
      need 5 (Hint.ofCode (r.type % 4)) fun ch => cpyF r fun o => reg 128 r.c fun c => layF r.imm32 fun l =>
        .ok (.cpy o c (r.modx / 4 % 2 == 1) dir ch l))
  | 0xB1 => some ([3], fun r => mod0 [r.modx / 16, r.modx / 4 % 2, r.sat, r.rnd] <| need 5 (Dir.ofCode (r.modx % 4)) fun dir =>
      need 5 (ESize.ofCode (r.type / 4)) fun e => need 5 (Hint.ofCode (r.type % 4)) fun ch => cpyF r fun o =>
        zero [r.c, r.imm32] <| .ok (.cpya o dir e ch))
  | 0xB2 => some ([3], fun r => mod0 [r.modx / 16, r.modx / 4 % 2, r.sat, r.rnd, r.type / 4] <|
      need 5 (WbHalf.ofCode (r.modx % 4)) fun hf => need 5 (Hint.ofCode (r.type % 4)) fun ch => cpyF r fun o =>
        zero [r.c, r.imm32] <| .ok (.cpyWb o hf ch))
  | 0xB3 => some ([1], fun r => mod0 [r.modx / 4, r.sat, r.rnd, r.type] <| hdr r fun h => zero [r.b, r.inda, r.immb] <|
      optReg 128 (r.modx / 2) r.a fun a => optReg 128 (r.modx % 2) r.d fun d => .ok (.seal h a d))
  | 0xB4 => some ([1, 2], fun r => mod0 [r.modx / 2, r.sat, r.rnd, r.type] <| hdr r fun h => zero [r.d, r.a, r.inda] <|
      if r.len == 2 then ck 7 (r.immb == 1) <| zero [r.b, r.c] <| ck 7 (decide (r.imm22 < 2097152)) <|
        .ok (.cwaitImm22 h (r.modx == 1) (BitVec.ofNat 22 r.imm22))
      else cnt10 r fun v => .ok (.cwait h (r.modx == 1) v))
  | 0xB5 => some ([1], fun r => ck 5 (decide (r.modx < 3)) <| mod0 [r.sat, r.rnd, r.type] <| hdr r fun h =>
      zero [r.b, r.inda, r.immb] <| reg 128 r.d fun d =>
        match r.modx with
        | 0 => reg 128 r.a fun a => .ok (.cstat h (.st d a))
        | 1 => reg 128 r.a fun a => .ok (.cstat h (.addr d a))
        | _ => zero [r.a] <| .ok (.cstat h (.clr d)))
  | 0xB6 => some ([3], fun r => mod0 [r.modx / 16, r.modx / 4 % 2, r.sat, r.rnd] <| ck 5 (decide (r.modx % 4 < 2)) <|
      need 5 (FillT.ofCode r.type) fun t => cpyF r fun o => zero [r.imm32] <| reg 128 r.c fun c =>
        .ok (.cfill o c (r.modx % 4 == 1) t))
  | 0xB7 => some ([3], fun r => mod0 [r.modx / 16, r.modx / 4 % 2, r.sat, r.rnd, r.type / 4, r.modx % 2] <|
      need 5 (Hint.ofCode (r.type % 4)) fun ch => cpyF r fun o => reg 128 r.c fun c => layF r.imm32 fun l =>
        .ok (.cgath o c (r.modx % 4 == 2) ch l))
  | 0xB8 => some ([3], fun r => mod0 [r.modx / 16, r.modx % 4, r.sat, r.rnd, r.type / 4] <|
      need 5 (Hint.ofCode (r.type % 4)) fun ch => cpyF r fun o => reg 128 r.c fun c =>
        .ok (.rcpy o c (r.modx / 4 % 2 == 1) ch (BitVec.ofNat 32 r.imm32)))
  | 0xB9 => some ([3], fun r => need 5 (RAOp.ofCode (r.modx / 8)) fun op => mod0 [r.modx % 2, r.sat, r.rnd] <|
      ity (match op with | .add => tyW4 | _ => [.b32, .b64, .n32, .n64]) r fun t => hdr r fun h =>
        zero [r.inda, if r.immb == 1 then r.b else r.imm32] <| reg 128 r.d fun d => reg 128 r.a fun a =>
          reg 128 r.b fun b => reg 128 r.c fun c =>
            .ok (.ratom h op (Sem.ofCode (r.modx / 2 % 4)) t d a
              (if r.immb == 1 then .imm (BitVec.ofNat 32 r.imm32) else .reg b) c (BitVec.ofNat 22 r.imm22)))
  | 0xBA => some ([3], fun r => mod0 [r.modx % 8, r.sat, r.rnd, r.type / 2] <| hdr r fun h =>
      zero [r.inda, if r.immb == 1 then r.b else r.imm32] <| reg 128 r.d fun d =>
        optReg 128 (r.modx / 16) r.a fun a => reg 128 r.b fun b => reg 128 r.c fun c =>
          .ok (.rflag h a (r.modx / 8 % 2 == 1) (r.type == 1) d
            (if r.immb == 1 then .imm (BitVec.ofNat 32 r.imm32) else .reg b) c (BitVec.ofNat 22 r.imm22)))
  | 0xBB => some ([2], fun r => mod0 [r.modx, r.sat, r.rnd, r.type] <| hdr r fun h =>
      zero [r.d, r.b, r.inda, r.immb] <| reg 128 r.a fun a => reg 128 r.c fun c =>
        .ok (.rnote h a c (BitVec.ofNat 22 r.imm22)))
  | 0xBC => some ([3], fun r => mod0 [r.modx / 16, r.modx % 8, r.sat, r.rnd, r.type / 4] <|
      need 5 (Hint.ofCode (r.type % 4)) fun ch => cpyF r fun o => reg 128 r.c fun c =>
        .ok (.rget o c ch (BitVec.ofNat 32 r.imm32)))
  | 0xBD => some ([1], fun r => ck 5 (decide (r.modx < 3)) <| mod0 [r.sat, r.rnd, r.type] <| hdr r fun h =>
      zero [r.b, r.inda, r.immb] <| reg 128 r.d fun d =>
        match r.modx with
        | 0 => zero [r.a] <| .ok (.rstat h (.grp d))
        | 1 => reg 128 r.a fun a => .ok (.rstat h (.sh d a))
        | _ => zero [r.a] <| .ok (.rstat h (.clr d)))
  | _ => none

/-- A format of `mma` (R237): INT8 is its flag with a zero code. -/
def mfmt (flag code : Nat) (k : MFmt → Dec) : Dec :=
  need 5 (MFmt.ofCode code) fun f => ck 5 ((f == .i8) == (flag == 1)) (k f)

/-- ALL, and STREAM or SET (R238, R239, R266). -/
def sel8 (r : Raw) : Sel8 := if r.modx / 8 == 1 then .all (Fin.ofNat 8 r.modx) else .one (Fin.ofNat 8 r.modx)

def opMat : Nat → OpRow
  | 0xC0 => some ([3], fun r => mod0 [r.modx / 16] <| mfmt r.sat r.type fun fa => mfmt (r.rnd / 4) (r.modx % 16) fun fb =>
      hdr r fun h => zero [r.inda, r.immb, r.c, r.imm22 / 32, if r.imm22 / 8 % 2 == 1 then 0 else r.imm32 % 65536,
          if r.imm22 / 16 % 2 == 1 then 0 else r.imm32 / 65536] <|
        reg 4 r.d fun d => reg 128 r.a fun a => reg 128 r.b fun b =>
          .ok (.mma ⟨h, fa, fb, r.rnd / 2 % 2 == 1, r.rnd % 2 == 1, d, a, b, Fin.ofNat 8 r.imm22,
            if r.imm22 / 8 % 2 == 1 then some (BitVec.ofNat 16 r.imm32) else none,
            if r.imm22 / 16 % 2 == 1 then some (BitVec.ofNat 16 (r.imm32 / 65536)) else none⟩))
  | 0xC1 => some ([1], fun r => mod0 [r.modx / 16, r.sat, r.rnd, r.type] <| hdr r fun h => zero [r.d, r.a, r.inda] <|
      cnt10 r fun v => .ok (.mwait h (sel8 r) v))
  | 0xC2 => some ([1], fun r => mod0 [r.modx, r.sat, r.rnd, r.type] <| hdr r fun h => zero [r.d, r.a, r.inda] <|
      cnt10 r fun v => .ok (.aalloc h v))
  | 0xC3 => some ([1], fun r => mod0 [r.modx, r.sat, r.rnd, r.type] <| hdr r fun h => zero [r.d, r.a, r.inda] <|
      cnt10 r fun v => .ok (.afree h v))
  | 0xC4 => some ([1], fun r => mod0 [r.modx, r.sat, r.rnd, r.type] <| hdr r fun h =>
      zero [r.a, r.b, r.inda, r.immb] <| reg 4 r.d fun d => .ok (.azero h d))
  | 0xC5 => some ([2], fun r => fty tyF3 r fun t => rndF r fun rn => mod0 [r.modx] <|
      ck 5 (t != .f32 || (r.rnd == 0 && r.sat == 0)) <| hdr r fun h => zero [r.inda, r.immb, r.c] <|
        reg 4 r.a fun a => reg 128 r.b fun b => reg 64 r.imm22 fun n =>
          ck 7 (decide (0 < n.val) && decide (n.val ≤ 32)) <|
            .ok (.ardv h t rn (r.sat == 1) (Fin.ofNat 1024 r.d) a b n))
  | 0xC6 => some ([2], fun r => fty tyF3 r fun t => mod0 [r.modx, r.rnd, r.sat] <| hdr r fun h =>
      zero [r.inda, r.immb, r.c] <| reg 4 r.d fun d => reg 128 r.a fun a => reg 64 r.imm22 fun n =>
        ck 7 (decide (0 < n.val) && decide (n.val ≤ 32)) <| .ok (.awrv h t d a (Fin.ofNat 1024 r.b) n))
  | 0xC7 => some ([2], fun r => mod0 [r.modx, r.sat, r.rnd] <| ck 5 (r.type == 0 || r.type == 15) <| hdr r fun h =>
      zero [r.d, r.a, r.b, r.c, r.inda, r.immb] <|
        if r.type == 15 then layF r.imm22 fun l => .ok (.mcfg h (.fmt l))
        else zero [r.imm22 / 16384] <| layF (r.imm22 % 1024) fun l =>
          need 7 (Reading.ofCode (r.imm22 / 1024 % 4)) fun ra => need 7 (Reading.ofCode (r.imm22 / 4096 % 4)) fun rb =>
            .ok (.mcfg h (.named l ra rb)))
  | 0xC8 => some ([1], fun r => mod0 [r.modx / 16, r.sat, r.rnd, r.type] <| hdr r fun h =>
      zero [r.d, r.b, r.inda, r.immb] <| reg 128 r.a fun a => .ok (.wbrel h (sel8 r) a))
  | 0xC9 => some ([1], fun r => mod0 [r.modx, r.sat, r.rnd, r.type] <| hdr r fun h =>
      zero [r.a, r.b, r.inda, r.immb] <| reg 128 r.d fun d => .ok (.mstat h d))
  | 0xCA => some ([1], fun r => mod0 [r.modx, r.sat, r.rnd, r.type] <| hdr r fun h =>
      zero [r.b, r.inda, r.immb] <| reg 4 r.d fun d => reg 4 r.a fun a => .ok (.acpy h d a))
  | 0xCB => some ([2], fun r => mod0 [r.modx / 2, r.sat, r.rnd, r.type] <| hdr r fun h => zero [r.inda, r.immb, r.c] <|
      reg 4 r.d fun d => reg 128 r.a fun a => reg 128 r.b fun b =>
        .ok (.aldl h (r.modx == 1) d a b (BitVec.ofNat 22 r.imm22)))
  | 0xCC => some ([2], fun r => mod0 [r.modx / 2, r.sat, r.rnd, r.type] <| hdr r fun h => zero [r.inda, r.immb, r.c] <|
      reg 4 r.d fun d => reg 128 r.a fun a => reg 128 r.b fun b =>
        .ok (.astl h (r.modx == 1) d a b (BitVec.ofNat 22 r.imm22)))
  | _ => none

def opShape : Nat → OpRow
  | 0xD0 => some ([3], fun r => fty tyFAll r fun t => rndF r fun rn => mod0 [r.modx % 4] <| hdr r fun h =>
      zero [r.inda, r.immb, r.imm22 / 131072] <| ck 7 (decide (r.imm22 % 256 + r.imm22 / 256 % 512 + 1 ≤ 256)) <|
        reg 4 r.d fun d => reg 128 r.a fun a => reg 128 r.b fun b => reg 8 r.c fun c =>
          .ok (.qst ⟨h, Fin.ofNat 4 (r.modx / 8), r.modx / 4 % 2 == 1, r.sat == 1, rn, t, d, a, b, c,
            Fin.ofNat 256 r.imm22, Fin.ofNat 512 (r.imm22 / 256), BitVec.ofNat 32 r.imm32⟩))
  | 0xD1 => some ([2], fun r => fty tyFAll r fun t => rndF r fun rn => mod0 [r.modx % 4] <| hdr r fun h =>
      zero [r.inda, r.immb] <| reg 8 r.d fun d => reg 128 r.a fun a => reg 128 r.c fun c => reg 128 r.imm22 fun w =>
        .ok (.vqst ⟨h, Fin.ofNat 4 (r.modx / 8), r.modx / 4 % 2 == 1, r.sat == 1, rn, t, d, a,
          Fin.ofNat 1024 r.b, c, w⟩))
  | 0xD2 => some ([2], fun r => mod0 [r.modx, r.sat, r.rnd, r.type] <| hdr r fun h =>
      zero [r.b, r.c, r.inda, r.immb] <| reg 8 r.d fun d => reg 128 r.a fun a =>
        .ok (.qresLd h d a (BitVec.ofNat 22 r.imm22)))
  | 0xD3 => some ([2], fun r => mod0 [r.modx, r.sat, r.rnd, r.type] <| hdr r fun h =>
      zero [r.b, r.c, r.inda, r.immb] <| reg 8 r.d fun d => reg 128 r.a fun a =>
        .ok (.qresSt h d a (BitVec.ofNat 22 r.imm22)))
  | 0xD4 => some ([1], fun r => mod0 [r.modx, r.sat, r.rnd, r.type] <| hdr r fun h =>
      zero [r.a, r.b, r.inda, r.immb] <| reg 8 r.d fun d => .ok (.qzero h d))
  | 0xD5 => some ([2], fun r => mod0 [r.modx % 2, r.sat, r.rnd, r.type] <|
      ck 5 (r.modx / 2 % 4 == 1 || r.modx / 2 % 4 == 2) <| hdr r fun h => zero [r.c, r.imm22, r.inda, r.immb] <|
        reg 8 r.d fun d => reg 128 r.a fun a => reg 128 r.b fun b =>
          .ok (.qcfg h (Fin.ofNat 4 (r.modx / 8)) (r.modx / 2 % 4 == 2) d a b))
  | 0xD6 => some ([1], fun r => mod0 [r.modx / 16, r.sat, r.rnd, r.type] <| hdr r fun h => zero [r.d, r.a, r.inda] <|
      zero [r.modx / 8 * (r.modx % 8)] <| cnt10 r fun v => .ok (.qwait h (sel8 r) v))
  | 0xD7 => some ([1], fun r => need 5 (QrdSel.ofCode r.modx) fun s => mod0 [r.sat, r.rnd, r.type] <| hdr r fun h =>
      zero [r.inda, r.immb] <| reg 8 r.a fun a => reg 128 r.b fun b => .ok (.qrd h s (Fin.ofNat 1024 r.d) a b))
  | _ => none

def opLaunch : Nat → OpRow
  | 0xD8 => some ([2], fun r => mod0 [r.modx, r.sat, r.rnd, r.type] <| hdr r fun h => zero [r.c, r.inda, r.immb] <|
      reg 128 r.d fun d => reg 128 r.a fun a => reg 128 r.b fun b => .ok (.launch h d a b (BitVec.ofNat 22 r.imm22)))
  | 0xD9 => some ([1], fun r => mod0 [r.modx / 16, r.sat, r.rnd, r.type] <|
      need 5 (CancelLvl.ofCode (r.modx % 8)) fun l => ck 5 (r.modx / 8 == 0 || l != .launch) <| hdr r fun h =>
        zero [r.d, r.b, r.inda, r.immb] <| reg 128 r.a fun a => .ok (.cancel h l (r.modx / 8 == 1) a))
  | 0xDA => some ([1], fun r => mod0 [r.modx, r.sat, r.rnd, r.type] <| hdr r fun h => zero [r.b, r.inda, r.immb] <|
      reg 128 r.d fun d => reg 128 r.a fun a => .ok (.ctrrd h d a))
  | 0xDB => some ([2], fun r => mod0 [r.modx, r.sat, r.rnd, r.type] <| hdr r fun h => zero [r.d, r.c, r.inda] <|
      reg 128 r.a fun a =>
        if r.immb == 1 then zero [r.b] <| .ok (.ctrwait h a (.imm (BitVec.ofNat 22 r.imm22)))
        else zero [r.imm22] <| reg 128 r.b fun b => .ok (.ctrwait h a (.reg b)))
  | 0xDC => some ([2], fun r => mod0 [r.modx, r.sat, r.rnd, r.type] <| unpred r fun l =>
      zero [r.d, r.a, r.b, r.c, r.inda, r.immb] <| .ok (.fbpt l (BitVec.ofNat 22 r.imm22)))
  | 0xDD => some ([2], fun r => mod0 [r.modx, r.sat, r.rnd, r.type] <| hdr r fun h =>
      zero [r.d, r.b, r.c, r.inda, r.immb] <| reg 128 r.a fun a => .ok (.tmark h a (BitVec.ofNat 22 r.imm22)))
  | 0xDE => some ([1], fun r => need 5 (PmcHalf.ofCode r.modx) fun f => mod0 [r.sat, r.rnd, r.type] <| hdr r fun h =>
      zero [r.a, r.inda] <| reg 128 r.d fun d => src10 128 r fun v => .ok (.pmcrd h f d v))
  | 0xDF => some ([1], fun r => need 5 (TctlOp.ofCode r.modx) fun o => mod0 [r.sat, r.rnd, r.type] <| hdr r fun h =>
      zero [r.d, r.a, r.b, r.inda, r.immb] <| .ok (.tctl h o))
  | _ => none

/-- The opcode map (R50). -/
def opRow (op : Nat) : OpRow :=
  if op < 0x40 then opSeq op else if op < 0x90 then opVec op else if op < 0xB0 then opLsu op
  else if op < 0xC0 then opCopy op else if op < 0xD0 then opMat op else if op < 0xD8 then opShape op else opLaunch op

/-! ### The decoder -/

/-- An instruction and its length in words, or the check of R51 that fails, from the words of a fetch block at and after an
instruction start. Words that run past the block's end fail check 2 (R41). -/
def decodeWords (ws : List Nat) : Except Nat (Instr × Nat) :=
  match ws with
  | [] => .error 2
  | w0 :: rest =>
    if w0 % 4 == 0 then (if w0 == 0 then .ok (.pad, 1) else .error 1)
    else if rest.length < w0 % 4 then .error 2
    else match opRow (w0 / 4 % 256) with
      | none => .error 3
      | some (lens, f) =>
        if !lens.contains (w0 % 4) then .error 4
        else match f (rawOf w0 (rest.getD 0 0) (if 2 ≤ w0 % 4 then rest.getD 1 0 else 0)
            (if w0 % 4 == 3 then rest.getD 2 0 else 0)) with
          | .ok i => .ok (i, w0 % 4 + 1)
          | .error e => .error e

/-- A word from its four bytes, little-endian (R27). -/
def wordOfBytes (b0 b1 b2 b3 : Byte) : Nat := b0.toNat + 256 * b1.toNat + 65536 * b2.toNat + 16777216 * b3.toNat

/-- The words of a byte sequence; a partial last word is dropped. -/
def wordsOfBytes : List Byte → List Nat
  | b0 :: b1 :: b2 :: b3 :: t => wordOfBytes b0 b1 b2 b3 :: wordsOfBytes t
  | _ => []

/-- The bytes of a word, little-endian (R27). -/
def bytesOfWord (w : Nat) : List Byte :=
  [BitVec.ofNat 8 w, BitVec.ofNat 8 (w / 256), BitVec.ofNat 8 (w / 65536), BitVec.ofNat 8 (w / 16777216)]

/-- The decoder on bytes: the instruction and the bytes after it, or the check that fails. -/
def decode (bs : List Byte) : Except Nat (Instr × List Byte) :=
  match decodeWords (wordsOfBytes bs) with
  | .ok (i, n) => .ok (i, bs.drop (4 * n))
  | .error e => .error e

/-! ### The encoder -/

/-- The header fields and zeros elsewhere. -/
def rawH (len op : Nat) (h : Hd) : Raw :=
  { len := len, op := op, look := h.look.val, pred := h.pred.val, pneg := h.neg.toNat, type := 0, rnd := 0, sat := 0,
    modx := 0, d := 0, a := 0, b := 0, inda := 0, immb := 0, c := 0, imm22 := 0, imm32 := 0 }

/-- The header of an unpredicated instruction. -/
def rawU (len op : Nat) (look : Fin 16) : Raw := rawH len op ⟨15, false, look⟩

/-- Operand A of vector class into A and INDA (R38). -/
def Raw.setA (r : Raw) : VSrc → Raw
  | .reg v => { r with a := v.val }
  | .ind b o => { r with a := b.val + 128 * o.val, inda := 1 }

/-- LEN that an immediate of an opcode without C takes (R39). -/
def Imm.len : Imm → Nat
  | .i10 _ => 1
  | .i22 _ => 2
  | .i32 _ => 3

/-- LEN that operand B of an opcode without C takes. -/
def Src.len {n : Nat} : Src n → Nat
  | .reg _ => 1
  | .imm v => v.len

/-- LEN that operand B of an opcode with C takes (R157). -/
def Src.lenC {n : Nat} : Src n → Nat
  | .imm (.i32 _) => 3
  | _ => 2

/-- An immediate into its field (R39). -/
def Raw.setImm (r : Raw) : Imm → Raw
  | .i10 v => { r with immb := 1, b := v.toNat }
  | .i22 v => { r with immb := 1, imm22 := v.toNat }
  | .i32 v => { r with immb := 1, imm32 := v.toNat }

/-- Operand B into its field. -/
def Raw.setB {n : Nat} (r : Raw) : Src n → Raw
  | .reg x => { r with b := x.val }
  | .imm v => r.setImm v

/-- Operand B of the 64-bit forms. -/
def Raw.setB10 {n : Nat} (r : Raw) : Src10 n → Raw
  | .reg x => { r with b := x.val }
  | .imm v => { r with immb := 1, b := v.toNat }

/-- Operand B of `ratom` and `rflag`. -/
def Raw.setB32 (r : Raw) : Src32 → Raw
  | .reg x => { r with b := x.val }
  | .imm v => { r with immb := 1, imm32 := v.toNat }

/-- A register that may be absent. -/
def optVal {n : Nat} : Option (Fin n) → Nat
  | some x => x.val
  | none => 0

/-- 1 when something is present. -/
def isSome1 {α : Type} : Option α → Nat
  | some _ => 1
  | none => 0

def encS (op : Nat) (o : SOp) : Raw :=
  { ((rawH o.b.len op o.h).setB o.b) with type := o.ty.code, sat := o.sat.toNat, d := o.d.val, a := o.a.val }
def encV (op : Nat) (o : VOp) : Raw :=
  { (((rawH o.b.len op o.h).setB o.b).setA o.a) with type := o.ty.code, sat := o.sat.toNat, d := o.d.val }
def encV3 (op : Nat) (o : VOp3) : Raw :=
  { (((rawH o.b.lenC op o.h).setB o.b).setA o.a) with
      type := o.ty.code, sat := o.sat.toNat, d := o.d.val, c := o.c.val }
def encF (op : Nat) (o : FOp) : Raw :=
  { (((rawH o.b.len op o.h).setB o.b).setA o.a) with
      type := o.ty.code, rnd := o.rnd.code, sat := o.sat.toNat, d := o.d.val }
def encF3 (op : Nat) (o : FOp3) : Raw :=
  { (((rawH o.b.lenC op o.h).setB o.b).setA o.a) with
      type := o.ty.code, rnd := o.rnd.code, sat := o.sat.toNat, d := o.d.val, c := o.c.val }
def encFU (op : Nat) (o : FUn) : Raw :=
  { ((rawH 1 op o.h).setA o.a) with type := o.ty.code, rnd := o.rnd.code, sat := o.sat.toNat, d := o.d.val }

/-- SEM, SCOPE, CH and the offset of a load or store (R149). -/
def encMem {ρ α : Type} (op sem : Nat) (o : MemOp ρ α) : Raw :=
  { (rawH 2 op o.h) with
      type := o.ty.code, imm22 := o.off.toNat
      rnd := (match o.ord with | some s => s.code | none => 0)
      sat := (match o.ord with | some _ => sem % 2 | none => 0)
      modx := 8 * o.hint.code + (match o.ord with | some _ => sem / 2 | none => 0) }

/-- SEM and SCOPE of an atomic, with AOP (R150). -/
def Raw.setSem (r : Raw) (aop : Nat) : Option (Sem × Scope) → Raw
  | none => { r with modx := 2 * aop }
  | some (m, s) => { r with modx := 2 * aop + m.code / 2, sat := m.code % 2, rnd := s.code }

def AOp.aop : AOp → Nat
  | .int o _ => o.code
  | .flt o => o.code
def AOp.tyCode : AOp → Nat
  | .int _ t => t.code
  | .flt _ => 0

def encAtom (len op : Nat) (o : AtomOp) : Raw :=
  { (((rawH len op o.h).setSem o.op.aop o.sem).setA o.a) with
      type := o.op.tyCode, d := o.d.val, imm22 := o.off.toNat }
def encCas (op : Nat) (o : CasOp) : Raw :=
  { (((rawH 2 op o.h).setSem 0 o.sem).setA o.a) with
      type := o.ty.code, d := o.d.val, b := o.b.val, c := o.c.val, imm22 := o.off.toNat }

/-- The bits of a layout record (R189). -/
def Layout.bits (l : Layout) : Nat := l.outer.val + 4 * l.thl.val + 32 * l.twl.val + 256 * l.swz.val

def encCpy (op : Nat) (o : CpyOp) : Raw :=
  { (rawH 3 op o.h) with
      modx := 8 * isSome1 o.arv, imm22 := (match o.arv with | some v => v.toNat | none => 0)
      d := o.d.val, a := o.a.val, b := o.b.val }

def encRed (op : Nat) (h : Hd) (excl : Nat) : RedOp → Raw
  | .int o t => { (rawH 1 op h) with modx := o.code + 8 * excl, type := t.code }
  | .flt o r => { (rawH 1 op h) with modx := o.code + 8 * excl + 16, rnd := r.code }

def Raw.setAmt (r : Raw) : Amt → Raw
  | .imm n => { r with imm22 := n.val }
  | .reg c => { r with c := c.val, modx := r.modx + 2 }

def Sel8.code : Sel8 → Nat
  | .one n => n.val
  | .all n => 8 + n.val

def MFmt.flag (f : MFmt) : Nat := if f = .i8 then 1 else 0

/-- The fields of an instruction's words; an event or command has none, and `pad` is a word of its own (R28). -/
def Instr.raw : Instr → Option Raw
  | .nop h => some (rawH 1 0x00 h)
  | .bra h m off => some { (rawH 2 0x01 h) with modx := m.code, imm22 := off.toNat }
  | .brx h m a => some { (rawH 1 0x02 h) with modx := m.code, a := a.val }
  | .call h m d off => some { (rawH 2 0x03 h) with modx := m.code, d := d.val, imm22 := off.toNat }
  | .callx h m d a => some { (rawH 1 0x04 h) with modx := m.code, d := d.val, a := a.val }
  | .ret h m a => some { (rawH 1 0x05 h) with modx := m.code, a := a.val }
  | .join l => some (rawU 1 0x06 l)
  | .wide l => some (rawU 1 0x07 l)
  | .endwide l => some (rawU 1 0x08 l)
  | .exit h => some (rawH 1 0x09 h)
  | .trap h n => some { (rawH 1 0x0A h) with immb := 1, b := n.val }
  | .bkpt h => some (rawH 1 0x0B h)
  | .bar l id p n => some { ((rawU 1 0x0C l).setB10 n) with modx := 2 * id.val + p.toNat }
  | .parrive h old a cnt off => some { (rawH 2 0x0D h) with
      modx := 2 * isSome1 old + isSome1 cnt, d := optVal old, a := a.val, b := optVal cnt, imm22 := off.toNat }
  | .pwait h p a off => some { (rawH 2 0x0E h) with modx := p.toNat, a := a.val, imm22 := off.toNat }
  | .elect h d => some { (rawH 1 0x0F h) with d := d.val }
  | .setfmt h s (.named f rd) => some { (rawH 1 0x10 h) with
      modx := rd.code + 8 * isSome1 s, type := f.code, d := optVal s }
  | .setfmt h s (.reg a) => some { (rawH 1 0x10 h) with modx := 16 + 8 * isSome1 s, d := optVal s, a := a.val }
  | .setfmtImm h s v => some { (rawH 2 0x10 h) with modx := 8 * isSome1 s, d := optVal s, imm22 := v.toNat }
  | .setmode h s (.ops o) => some { (rawH 1 0x11 h) with
      modx := o.ftz.code / 2 + 2 * o.satd.code + 8 * isSome1 s, sat := o.ftz.code % 2, rnd := o.drnd.code
      type := 4 * o.daz.code, d := optVal s }
  | .setmode h s (.reg a) => some { (rawH 1 0x11 h) with modx := 16 + 8 * isSome1 s, d := optVal s, a := a.val }
  | .setmodeStep h s o n => some { (rawH 2 0x11 h) with
      modx := o.ftz.code / 2 + 2 * o.satd.code + 8 * isSome1 s, sat := o.ftz.code % 2, rnd := o.drnd.code
      type := 4 * o.daz.code, d := optVal s, imm22 := n.toNat }
  | .srd h d s => some { (rawH 1 0x12 h) with d := d.val, a := s.code }
  | .swr h s a => some { (rawH 1 0x13 h) with d := s.code, a := a.val }
  | .sadd o => some (encS 0x14 o)
  | .ssub o => some (encS 0x15 o)
  | .smul o => some (encS 0x16 o)
  | .smulh o => some (encS 0x17 o)
  | .sdiv o => some (encS 0x18 o)
  | .srem o => some (encS 0x19 o)
  | .sand o => some (encS 0x1A o)
  | .sor o => some (encS 0x1B o)
  | .sxor o => some (encS 0x1C o)
  | .sshl o => some (encS 0x1D o)
  | .sshr o => some (encS 0x1E o)
  | .ssra o => some (encS 0x1F o)
  | .smin o => some (encS 0x20 o)
  | .smax o => some (encS 0x21 o)
  | .scmp cc o => some { (encS 0x22 o) with modx := cc.code }
  | .ssel o => some (encS 0x23 o)
  | .smov h t d (.reg a) => some { (rawH 1 0x24 h) with type := t.code, d := d.val, a := a.val }
  | .smov h t d (.imm v) => some { ((rawH v.len 0x24 h).setImm v) with type := t.code, d := d.val }
  | .smovHi h d v => some { (rawH 3 0x24 h) with type := 10, modx := 1, immb := 1, d := d.val, imm32 := v.toNat }
  | .sbfx h t d a p l => some { (rawH 2 0x25 h) with
      type := t.code, d := d.val, a := a.val, imm22 := p.val + 64 * l.val }
  | .sbit h t o d a => some { (rawH 1 0x26 h) with type := t.code, modx := o.code, d := d.val, a := a.val }
  | .sget h t d a b => some { (((rawH 1 0x27 h).setB10 b).setA a) with type := t.code, d := d.val }
  | .plog h o d a b => some { (rawH 1 0x28 h) with modx := o.code, d := d.val, a := a.val, b := b.val }
  | .pbits h (.tos d a) => some { (rawH 1 0x29 h) with modx := 0, d := d.val, a := a.val }
  | .pbits h (.top d a) => some { (rawH 1 0x29 h) with modx := 1, d := d.val, a := a.val }
  | .pbits h (.pop d a) => some { (rawH 1 0x29 h) with modx := 2, d := d.val, a := a.val }
  | .yield h => some (rawH 1 0x2A h)
  | .snooze h a => some { (rawH 1 0x2B h) with a := a.val }
  | .snoozeImm h n => some { (rawH 2 0x2B h) with imm22 := n.toNat }
  | .rett l => some (rawU 1 0x2C l)
  | .iadd o => some (encV 0x40 o)
  | .isub o => some (encV 0x41 o)
  | .imul o => some (encV 0x42 o)
  | .imulh o => some (encV 0x43 o)
  | .imad o => some (encV3 0x44 o)
  | .imin o => some (encV 0x45 o)
  | .imax o => some (encV 0x46 o)
  | .iabs h t s d a => some { ((rawH 1 0x47 h).setA a) with type := t.code, sat := s.toNat, d := d.val }
  | .and o => some (encV 0x48 o)
  | .or o => some (encV 0x49 o)
  | .xor o => some (encV 0x4A o)
  | .shl o => some (encV 0x4B o)
  | .shr o => some (encV 0x4C o)
  | .sra o => some (encV 0x4D o)
  | .rshr rn o => some { (encV 0x4E o) with rnd := rn.code }
  | .icmp h t cc d a b => some { (((rawH b.len 0x4F h).setB b).setA a) with
      type := t.code, modx := cc.code, d := d.val }
  | .sel n o => some { (encV 0x50 o) with modx := n.val }
  | .bfx h t ins d a p l => some { ((rawH 2 0x51 h).setA a) with
      type := t.code, modx := ins.toNat, d := d.val, imm22 := p.val + 64 * l.val }
  | .bfxReg h t ins d a b c => some { ((rawH 3 0x51 h).setA a) with
      type := t.code, modx := ins.toNat, d := d.val, b := b.val, c := c.val }
  | .bit h t o d a => some { ((rawH 1 0x52 h).setA a) with type := t.code, modx := o.code, d := d.val }
  | .mov h t d (.vec a) => some { ((rawH 1 0x53 h).setA a) with type := t.code, d := d.val }
  | .mov h t d (.imm v) => some { ((rawH v.len 0x53 h).setImm v) with type := t.code, modx := 1, d := d.val }
  | .mov h t d (.scl a) => some { (rawH 1 0x53 h) with type := t.code, modx := 2, d := d.val, a := a.val }
  | .mov h t d .lane => some { (rawH 1 0x53 h) with type := t.code, modx := 3, d := d.val }
  | .pdot2 o => some (encV3 0x54 o)
  | .padd o => some (encV 0x55 o)
  | .psub o => some (encV 0x56 o)
  | .pmul o => some (encV 0x57 o)
  | .pack h s d a b => some { (((rawH 1 0x58 h).setB10 b).setA a) with type := 8, sat := s.toNat, d := d.val }
  | .unpk h hi d a => some { ((rawH 1 0x59 h).setA a) with type := 8, modx := hi.toNat, d := d.val }
  | .fadd o => some (encF 0x5A o)
  | .fsub o => some (encF 0x5B o)
  | .fmul o => some (encF 0x5C o)
  | .ffma o => some (encF3 0x5D o)
  | .fmin o => some (encF 0x5E o)
  | .fmax o => some (encF 0x5F o)
  | .fcmp h t cc d a b => some { (((rawH b.len 0x60 h).setB b).setA a) with
      type := t.code, modx := cc.code, d := d.val }
  | .fdiv o => some (encF 0x61 o)
  | .frcp o => some (encFU 0x62 o)
  | .frsq o => some (encFU 0x63 o)
  | .fsqrt o => some (encFU 0x64 o)
  | .fexp2 o => some (encFU 0x65 o)
  | .flog2 o => some (encFU 0x66 o)
  | .fclass h t d a => some { ((rawH 1 0x67 h).setA a) with type := t.code, d := d.val }
  | .frnd o => some (encFU 0x68 o)
  | .fscl o => some (encF 0x69 o)
  | .cvt h dt sty pk rn s d a => some { ((rawH 1 0x6A h).setA a) with
      type := dt.code, modx := sty.code + 16 * pk.toNat, rnd := rn.code, sat := s.toNat, d := d.val }
  | .cvtfi h it ft rn d a => some { ((rawH 1 0x6B h).setA a) with
      type := ft.code, modx := it.code, rnd := rn.code, d := d.val }
  | .cvtif h ft it rn s d a => some { ((rawH 1 0x6C h).setA a) with
      type := it.code, modx := ft.code, rnd := rn.code, sat := s.toNat, d := d.val }
  | .cvti h dt sty s d a => some { ((rawH 1 0x6D h).setA a) with
      type := dt.code, modx := sty.code, sat := s.toNat, d := d.val }
  | .xlane h t m k d a b => some { (((rawH b.len 0x6E h).setB b).setA a) with
      type := t.code, modx := m.code + 8 * k.toNat, d := d.val }
  | .slide h t dn d a b n => some ({ ((rawH 2 0x6F h).setA a) with
      type := t.code, modx := dn.toNat, d := d.val, b := b.val }.setAmt n)
  | .slideImm h t dn d a v n => some ({ ((rawH 3 0x6F h).setA a) with
      type := t.code, modx := dn.toNat, d := d.val, immb := 1, imm32 := v.toNat }.setAmt n)
  | .bcast h t d a b => some { (((rawH b.len 0x70 h).setB b).setA a) with type := t.code, d := d.val }
  | .vred h o d a => some { ((encRed 0x71 h 0 o).setA a) with d := d.val }
  | .scan h e o d a => some { ((encRed 0x72 h e.toNat o).setA a) with d := d.val }
  | .poll h o d a => some { (rawH 1 0x73 h) with modx := o.code, d := d.val, a := a.val }
  | .vmatch h t d a => some { ((rawH 1 0x74 h).setA a) with type := t.code, d := d.val }
  | .flgrd h c d => some { (rawH 1 0x75 h) with modx := c.toNat, d := d.val }
  | .flgwr h o b => some { ((rawH b.len 0x76 h).setB b) with modx := o.code }
  | .ld o => some { (encMem 0x90 1 o) with d := o.r.val, a := o.a.val }
  | .st o => some { (encMem 0x91 2 o) with b := o.r.val, a := o.a.val }
  | .ldl o => some { (encMem 0x92 1 o) with d := o.r.val, a := o.a.val }
  | .stl o => some { (encMem 0x93 2 o) with b := o.r.val, a := o.a.val }
  | .sld o => some { (encMem 0x94 1 o) with d := o.r.val, a := o.a.val }
  | .sst o => some { (encMem 0x95 2 o) with b := o.r.val, a := o.a.val }
  | .gath o => some { ((encMem 0x96 1 o).setA o.a) with d := o.r.val }
  | .scat o => some { ((encMem 0x97 2 o).setA o.a) with b := o.r.val }
  | .lgath o => some { ((encMem 0x98 1 o).setA o.a) with d := o.r.val }
  | .lscat o => some { ((encMem 0x99 2 o).setA o.a) with b := o.r.val }
  | .ldb o => some { (encMem 0x9A 1 o) with d := o.r.val, a := o.a.val }
  | .atom o b => some { (encAtom 2 0x9B o) with b := b.val }
  | .atomImm32 o v => some { (encAtom 3 0x9B o) with immb := 1, imm32 := v.toNat }
  | .cas o => some (encCas 0x9C o)
  | .atomOrd h a b off => some { ((rawH 2 0x9D h).setA a) with modx := 18, b := b.val, imm22 := off.toNat }
  | .atoml o b => some { (encAtom 2 0x9E o) with b := b.val }
  | .atomlImm32 o v => some { (encAtom 3 0x9E o) with immb := 1, imm32 := v.toNat }
  | .casl o => some (encCas 0x9F o)
  | .fence h m s => some { (rawH 1 0xA0 h) with modx := m.code / 2, sat := m.code % 2, rnd := s.code }
  | .ifence h => some { (rawH 1 0xA1 h) with rnd := 2 }
  | .cline h o a off => some { (rawH 2 0xA2 h) with modx := o.code, a := a.val, imm22 := off.toNat }
  | .pref h o a off => some { (rawH 2 0xA3 h) with modx := o.code, a := a.val, imm22 := off.toNat }
  | .ipref h a off => some { (rawH 2 0xA4 h) with a := a.val, imm22 := off.toNat }
  | .stz h a off => some { (rawH 2 0xA5 h) with a := a.val, imm22 := off.toNat }
  | .cpy o c side dir ch l => some { (encCpy 0xB0 o) with
      modx := dir.code + 4 * side.toNat + 8 * isSome1 o.arv, type := ch.code, c := c.val, imm32 := l.bits }
  | .cpya o dir e ch => some { (encCpy 0xB1 o) with
      modx := dir.code + 8 * isSome1 o.arv, type := ch.code + 4 * e.code }
  | .cpyWb o hf ch => some { (encCpy 0xB2 o) with modx := hf.code + 8 * isSome1 o.arv, type := ch.code }
  | .seal h arv save => some { (rawH 1 0xB3 h) with
      modx := isSome1 save + 2 * isSome1 arv, a := optVal arv, d := optVal save }
  | .cwait h k v => some { ((rawH 1 0xB4 h).setB10 v) with modx := k.toNat }
  | .cwaitImm22 h k v => some { (rawH 2 0xB4 h) with modx := k.toNat, immb := 1, imm22 := v.toNat }
  | .cstat h (.st d a) => some { (rawH 1 0xB5 h) with modx := 0, d := d.val, a := a.val }
  | .cstat h (.addr d a) => some { (rawH 1 0xB5 h) with modx := 1, d := d.val, a := a.val }
  | .cstat h (.clr d) => some { (rawH 1 0xB5 h) with modx := 2, d := d.val }
  | .cfill o c g t => some { (encCpy 0xB6 o) with
      modx := g.toNat + 8 * isSome1 o.arv, type := t.code, c := c.val }
  | .cgath o c g ch l => some { (encCpy 0xB7 o) with
      modx := 2 * g.toNat + 8 * isSome1 o.arv, type := ch.code, c := c.val, imm32 := l.bits }
  | .rcpy o c sl ch p => some { (encCpy 0xB8 o) with
      modx := 4 * sl.toNat + 8 * isSome1 o.arv, type := ch.code, c := c.val, imm32 := p.toNat }
  | .ratom h op sm t d a b c off => some { ((rawH 3 0xB9 h).setB32 b) with
      modx := 8 * op.code + 2 * (match sm with | some m => m.code | none => 0), type := t.code, d := d.val, a := a.val
      c := c.val, imm22 := off.toNat }
  | .rflag h after rel w d b c off => some { ((rawH 3 0xBA h).setB32 b) with
      modx := 16 * isSome1 after + 8 * rel.toNat, type := w.toNat, d := d.val, a := optVal after, c := c.val
      imm22 := off.toNat }
  | .rnote h a c tag => some { (rawH 2 0xBB h) with a := a.val, c := c.val, imm22 := tag.toNat }
  | .rget o c ch p => some { (encCpy 0xBC o) with type := ch.code, c := c.val, imm32 := p.toNat }
  | .rstat h (.grp d) => some { (rawH 1 0xBD h) with modx := 0, d := d.val }
  | .rstat h (.sh d a) => some { (rawH 1 0xBD h) with modx := 1, d := d.val, a := a.val }
  | .rstat h (.clr d) => some { (rawH 1 0xBD h) with modx := 2, d := d.val }
  | .mma o => some { (rawH 3 0xC0 o.h) with
      modx := o.fb.code, type := o.fa.code, sat := o.fa.flag
      rnd := 4 * o.fb.flag + 2 * o.zacc.toNat + o.spb.toNat, d := o.d.val, a := o.a.val, b := o.b.val
      imm22 := o.stream.val + 8 * isSome1 o.asc + 16 * isSome1 o.bsc
      imm32 := (match o.asc with | some v => v.toNat | none => 0) +
        65536 * (match o.bsc with | some v => v.toNat | none => 0) }
  | .mwait h s v => some { ((rawH 1 0xC1 h).setB10 v) with modx := s.code }
  | .aalloc h n => some ((rawH 1 0xC2 h).setB10 n)
  | .afree h n => some ((rawH 1 0xC3 h).setB10 n)
  | .azero h d => some { (rawH 1 0xC4 h) with d := d.val }
  | .ardv h t rn s d a b n => some { (rawH 2 0xC5 h) with
      type := t.code, rnd := rn.code, sat := s.toNat, d := d.val, a := a.val, b := b.val, imm22 := n.val }
  | .awrv h t d a b n => some { (rawH 2 0xC6 h) with
      type := t.code, d := d.val, a := a.val, b := b.val, imm22 := n.val }
  | .mcfg h (.named l ra rb) => some { (rawH 2 0xC7 h) with imm22 := l.bits + 1024 * ra.code + 4096 * rb.code }
  | .mcfg h (.fmt l) => some { (rawH 2 0xC7 h) with type := 15, imm22 := l.bits }
  | .wbrel h s a => some { (rawH 1 0xC8 h) with modx := s.code, a := a.val }
  | .mstat h d => some { (rawH 1 0xC9 h) with d := d.val }
  | .acpy h d a => some { (rawH 1 0xCA h) with d := d.val, a := a.val }
  | .aldl h f d a b off => some { (rawH 2 0xCB h) with
      modx := f.toNat, d := d.val, a := a.val, b := b.val, imm22 := off.toNat }
  | .astl h f d a b off => some { (rawH 2 0xCC h) with
      modx := f.toNat, d := d.val, a := a.val, b := b.val, imm22 := off.toNat }
  | .qst o => some { (rawH 3 0xD0 o.h) with
      modx := 4 * o.aint.toNat + 8 * o.rd.val, sat := o.sat.toNat, rnd := o.rnd.code, type := o.ty.code, d := o.d.val
      a := o.a.val, b := o.b.val, c := o.c.val, imm22 := o.col0.val + 256 * o.ncol1.val, imm32 := o.alpha.toNat }
  | .vqst o => some { (rawH 2 0xD1 o.h) with
      modx := 4 * o.sint.toNat + 8 * o.rd.val, sat := o.sat.toNat, rnd := o.rnd.code, type := o.ty.code, d := o.d.val
      a := o.a.val, b := o.b.val, c := o.c.val, imm22 := o.row.val }
  | .qresLd h d a off => some { (rawH 2 0xD2 h) with d := d.val, a := a.val, imm22 := off.toNat }
  | .qresSt h d a off => some { (rawH 2 0xD3 h) with d := d.val, a := a.val, imm22 := off.toNat }
  | .qzero h d => some { (rawH 1 0xD4 h) with d := d.val }
  | .qcfg h rd o2 d a b => some { (rawH 2 0xD5 h) with
      modx := 8 * rd.val + 2 * (if o2 then 2 else 1), d := d.val, a := a.val, b := b.val }
  | .qwait h s v => some { ((rawH 1 0xD6 h).setB10 v) with modx := s.code }
  | .qrd h s d a b => some { (rawH 1 0xD7 h) with modx := s.code, d := d.val, a := a.val, b := b.val }
  | .launch h d a b off => some { (rawH 2 0xD8 h) with d := d.val, a := a.val, b := b.val, imm22 := off.toNat }
  | .cancel h l clr a => some { (rawH 1 0xD9 h) with modx := l.code + 8 * clr.toNat, a := a.val }
  | .ctrrd h d a => some { (rawH 1 0xDA h) with d := d.val, a := a.val }
  | .ctrwait h a (.reg b) => some { (rawH 2 0xDB h) with a := a.val, b := b.val }
  | .ctrwait h a (.imm v) => some { (rawH 2 0xDB h) with a := a.val, immb := 1, imm22 := v.toNat }
  | .fbpt l off => some { (rawU 2 0xDC l) with imm22 := off.toNat }
  | .tmark h a tag => some { (rawH 2 0xDD h) with a := a.val, imm22 := tag.toNat }
  | .pmcrd h f d n => some { ((rawH 1 0xDE h).setB10 n) with modx := f.code, d := d.val }
  | .tctl h o => some { (rawH 1 0xDF h) with modx := o.code }
  | _ => none

/-- The words of a well-formed instruction (R27); no words for an event or command. -/
def encode (i : Instr) : List Nat :=
  match i with
  | .pad => [0]
  | i => match i.raw with
    | some r => r.words
    | none => []

/-- The bytes of a well-formed instruction in memory (R27). -/
def encodeBytes (i : Instr) : List Byte := (encode i).flatMap bytesOfWord

/-! ### The opcode table's numbering of bits -/

/-- The four words of an instruction whose bits are `w` (bit 0 the least significant bit of the first word); bits at and
above `nbits` are zero. -/
def tableWords (nbits w : Nat) : List Nat :=
  let v := w % 2 ^ nbits
  [v % 4294967296, v / 4294967296 % 4294967296, v / 18446744073709551616 % 4294967296,
    v / 79228162514264337593543950336 % 4294967296]

/-- What the decoder reads from an instruction whose bits are `w`, laid out in memory as R27 states. -/
def decodeTableWord (nbits w : Nat) : Option Instr :=
  match decode ((tableWords nbits w).flatMap bytesOfWord) with
  | .ok (i, _) => some i
  | .error _ => none

end Sys2Proof
end

