-- ==== Sys2Proof/Machine/Bits.lean ====
section
/-!
DEFINITION. Bit fields, sign extension, wrapping and byte order (R3, R40, R54, R75), on naturals and integers.
-/
namespace Sys2Proof.Machine

/-- Bits [hi:lo] of x (R40). -/
def bits (x hi lo : Nat) : Nat := x / 2 ^ lo % 2 ^ (hi + 1 - lo)
/-- One bit of x. -/
def bit (x i : Nat) : Bool := x / 2 ^ i % 2 == 1
/-- The low n bits of x read as a signed number (R40). -/
def sext (x n : Nat) : Int := if x % 2 ^ n < 2 ^ (n - 1) then ((x % 2 ^ n : Nat) : Int) else ((x % 2 ^ n : Nat) : Int) - 2 ^ n
/-- The n low bits of an integer (wrap_n of R75). -/
def wrapN (t : Int) (n : Nat) : Nat := (t % ((2 ^ n : Nat) : Int)).toNat
/-- wrap_i of R75. -/
def wrapI (t : Int) (n : Nat) : Int := sext (wrapN t n) n
/-- Set or clear one bit. -/
def setBit (x i : Nat) (v : Bool) : Nat := if v then x ||| 2 ^ i else if bit x i then x - 2 ^ i else x

/-- Number of bits needed for x: 0 for 0. -/
def bitLen (x : Nat) : Nat := if x == 0 then 0 else Nat.log2 x + 1

/-- The value of bytes, little-endian (R3). -/
def ofBytes : List Byte → Nat
  | [] => 0
  | b :: t => b.toNat + 256 * ofBytes t
/-- The n bytes of a value, little-endian (R3). -/
def toBytes : Nat → Nat → List Byte
  | 0, _ => []
  | n + 1, x => BitVec.ofNat 8 x :: toBytes n (x / 256)

/-- 0, 1, …, n − 1. -/
def upto (n : Nat) : List Nat := List.range n

/-- Count of one bits among the low w bits (`.popc`). -/
def popc : Nat → Nat → Nat
  | 0, _ => 0
  | w + 1, x => x % 2 + popc w (x / 2)
/-- Leading zeros in w bits (`.clz`; w for 0). -/
def clz (w x : Nat) : Nat := w - bitLen (x % 2 ^ w)
/-- Trailing zeros in w bits (`.ctz`; w for 0). -/
def ctz : Nat → Nat → Nat
  | 0, _ => 0
  | w + 1, x => if x % 2 == 1 then 0 else 1 + ctz w (x / 2)
/-- The low w bits reversed (`.brev`). -/
def brev : Nat → Nat → Nat
  | 0, _ => 0
  | w + 1, x => x % 2 * 2 ^ w + brev w (x / 2)
/-- The low n bytes reversed (`.bswap`). -/
def bswap : Nat → Nat → Nat
  | 0, _ => 0
  | n + 1, x => x % 256 * 256 ^ n + bswap n (x / 256)

/-- The operation of `sbit` and `bit` on w bits (R113, R163). -/
def bitOp (o : BitOp) (w x : Nat) : Nat :=
  match o with
  | .popc => popc w x
  | .clz => clz w x
  | .ctz => ctz w x
  | .brev => brev w x
  | .bswap => bswap (w / 8) x

/-- Comparison of integers under a condition (R113, R161). -/
def ccHolds (cc : CC) (a b : Int) : Bool :=
  match cc with
  | .eq => a == b
  | .ne => a != b
  | .lt => decide (a < b)
  | .le => decide (a ≤ b)
  | .gt => decide (b < a)
  | .ge => decide (b ≤ a)

/-- Whether a type is a signed integer type (R54). -/
def signedTy : IType → Bool
  | .i8 => true | .i16 => true | .i32 => true | .i64 => true | .i16x2 => true
  | _ => false

/-- The w low bits of x read as the type reads them (R112, R156). -/
def readTy (t : IType) (x : Nat) : Int := if signedTy t then sext x t.width else ((x % 2 ^ t.width : Nat) : Int)

/-- Quotient rounded toward zero (R112). -/
def divTrunc (a b : Int) : Int := Int.tdiv a b

/-- Indices of the one bits of a mask of n bits, ascending. -/
def lanesOf (n mask : Nat) : List Nat := (upto n).filter fun i => bit mask i

/-- The mask of a list of lanes. -/
def maskOf : List Nat → Nat
  | [] => 0
  | i :: t => 2 ^ i ||| maskOf t

/-- Replace element i of a list. -/
def listSet {α : Type} : List α → Nat → α → List α
  | [], _, _ => []
  | _ :: t, 0, v => v :: t
  | x :: t, i + 1, v => x :: listSet t i v

/-- Element i of a list, or a default. -/
def listGet {α : Type} (d : α) : List α → Nat → α
  | [], _ => d
  | x :: _, 0 => x
  | _ :: t, i + 1 => listGet d t i

/-- The first index whose element satisfies a test. -/
def findIdx {α : Type} (p : α → Bool) : List α → Option Nat
  | [] => none
  | x :: t => if p x then some 0 else (findIdx p t).map (· + 1)

end Sys2Proof.Machine
end

