-- ==== Sys2Proof/Machine/Cells.lean ====
section
/-!
DEFINITION. Sparse storage in one canonical form: a list of key and value pairs, keys strictly rising, no value equal to what an
unlisted key reads as. Memory, local memory, register files and accumulator tiles are held in it.
-/
namespace Sys2Proof.Machine

/-- Key and value pairs. -/
abbrev Cells (α : Type) := List (Nat × α)

/-- The value at a key; `d` is what an unlisted key reads as. -/
def cget {α : Type} (d : α) : Cells α → Nat → α
  | [], _ => d
  | (a, v) :: t, k => if k = a then v else if k < a then d else cget d t k

/-- Insert or replace. -/
def cput {α : Type} : Cells α → Nat → α → Cells α
  | [], k, v => [(k, v)]
  | (a, w) :: t, k, v =>
    if k < a then (k, v) :: (a, w) :: t else if k = a then (k, v) :: t else (a, w) :: cput t k v

/-- Remove a key. -/
def cdel {α : Type} : Cells α → Nat → Cells α
  | [], _ => []
  | (a, w) :: t, k => if k < a then (a, w) :: t else if k = a then t else (a, w) :: cdel t k

/-- Write a value: writing the default removes the entry. -/
def cset {α : Type} [DecidableEq α] (d : α) (l : Cells α) (k : Nat) (v : α) : Cells α :=
  if v = d then cdel l k else cput l k v

/-- Write consecutive values from a key on. -/
def csets {α : Type} [DecidableEq α] (d : α) : Cells α → Nat → List α → Cells α
  | l, _, [] => l
  | l, k, v :: t => csets d (cset d l k v) (k + 1) t

/-- Read n consecutive values from a key on. -/
def cgets {α : Type} (d : α) (l : Cells α) (k n : Nat) : List α := (upto n).map fun i => cget d l (k + i)

/-- Keys rise strictly above `lo`, and no value is the default. -/
def cwfFrom {α : Type} [DecidableEq α] (d : α) (lo : Nat) : Cells α → Bool
  | [] => true
  | (a, v) :: t => decide (lo ≤ a) && decide (v ≠ d) && cwfFrom d (a + 1) t

/-- The canonical form. -/
def cwf {α : Type} [DecidableEq α] (d : α) (l : Cells α) : Bool := cwfFrom d 0 l

/-- Keep the entries whose key satisfies a test. -/
def cfilter {α : Type} (p : Nat → Bool) (l : Cells α) : Cells α := l.filter fun e => p e.1

/-- Bytes of memory or of a local region. -/
abbrev Memory := Cells Byte

/-- The canonical form of a memory. -/
def Memory.wf (m : Memory) : Bool := cwf (0 : Byte) m

/-- A value of n bytes, little-endian (R3). -/
def readLE (m : Memory) (a n : Nat) : Nat := ofBytes (cgets 0 m a n)
/-- Write a value of n bytes, little-endian (R3). -/
def writeLE (m : Memory) (a n v : Nat) : Memory := csets 0 m a (toBytes n v)

/-! ### Tables of records by identifier -/

/-- The record under an identifier. -/
def tget {α : Type} : List (Nat × α) → Nat → Option α
  | [], _ => none
  | (a, v) :: t, k => if k = a then some v else tget t k

/-- Replace the record under an identifier, or append it. -/
def tput {α : Type} : List (Nat × α) → Nat → α → List (Nat × α)
  | [], k, v => [(k, v)]
  | (a, w) :: t, k, v => if k = a then (a, v) :: t else (a, w) :: tput t k v

/-- Remove the record under an identifier. -/
def tdel {α : Type} (l : List (Nat × α)) (k : Nat) : List (Nat × α) := l.filter fun e => e.1 != k

/-- Change every record. -/
def tmap {α : Type} (f : Nat → α → α) (l : List (Nat × α)) : List (Nat × α) := l.map fun e => (e.1, f e.1 e.2)

end Sys2Proof.Machine
end

