-- ==== Sys2Proof/Machine/Num.lean ====
section
/-!
DEFINITION. Number formats and exact arithmetic (03): the value of a code, rounding and quantisation, the deterministic
generator, the exact operations of the vector unit and the dot product. A finite value is held exactly as sign, m and e with
magnitude m · 2^e. A value that is not exactly of this form (a quotient, a root, an exponential, a logarithm) is held to at
least 70 significant bits with one further bit set below them, which decides every rounding as the exact value does.
-/
namespace Sys2Proof.Machine

/-- An exact value: a NaN (`sig` a signalling one), an infinity, or a finite number. -/
inductive Xv where
  | nan (sig : Bool)
  | inf (neg : Bool)
  | num (neg : Bool) (m : Nat) (e : Int)
  deriving DecidableEq, Repr

/-- SATF, OVF, INX and INV of `%flags` (R65). -/
def fSATF : Nat := 1
def fOVF : Nat := 2
def fINX : Nat := 4
def fINV : Nat := 8

/-- Mantissa bits, exponent bits and bias of a binary format (R53). -/
def fmtParams : FType → Nat × Nat × Nat
  | .f32 => (23, 8, 127)
  | .f16 => (10, 5, 15)
  | .bf16 => (7, 8, 127)
  | .e4m3 => (3, 4, 7)
  | .e5m2 => (2, 5, 15)
  | .e2m1 => (1, 2, 1)
  | .ln6 => (0, 5, 0)
  | .fmt => (23, 8, 127)

/-- Bits of a code of a format (R53). -/
def fmtBits (f : FType) : Nat := let p := fmtParams f; 1 + p.2.1 + p.1

/-- FP32, FP16 and BF16 (R53): always the IEEE-like reading, the only ones with signalling NaNs and flushing. -/
def wideF : FType → Bool
  | .f32 => true | .f16 => true | .bf16 => true
  | _ => false

/-- The constants of LN6 with 24 fractional bits (R55). -/
def lnt : Nat → Nat
  | 0 => 0x1000000
  | 1 => 0x1306FE1
  | 2 => 0x16A09E6
  | _ => 0x1AE89FA

/-- Magnitude m of LN6 as mantissa and exponent, for m ≥ 1 (R55). -/
def lnVal (m : Nat) : Nat × Int := (lnt (m % 4), (m / 4 : Nat) - 28)

/-- The value of a code in a reading (R53, R55, R57). -/
def fvalue (f : FType) (rd : Reading) (c : Nat) : Xv :=
  match f with
  | .ln6 =>
    let s := bit c 5
    let m := c % 32
    if m == 0 then (if s && rd != .finite then .nan false else .num s 0 0)
    else if m == 31 && rd == .ieee then .inf s
    else .num s (lnVal m).1 (lnVal m).2
  | _ =>
    let (mb, eb, bias) := fmtParams f
    let rd := if wideF f then .ieee else rd
    let s := bit c (mb + eb)
    let ex := c / 2 ^ mb % 2 ^ eb
    let man := c % 2 ^ mb
    if rd == .ieee && ex == 2 ^ eb - 1 then
      (if man == 0 then .inf s else .nan (wideF f && !bit man (mb - 1)))
    else if rd == .nan && s && ex == 0 && man == 0 then .nan false
    else if ex == 0 then .num s man (1 - (bias : Int) - mb)
    else .num s (2 ^ mb + man) ((ex : Int) - bias - mb)

/-- The NaN code of a format and reading (R57, R60); +0 where there is none. -/
def nanCode (f : FType) (rd : Reading) : Nat :=
  match f with
  | .f32 => 0x7FC00000
  | .f16 => 0x7E00
  | .bf16 => 0x7FC0
  | .ln6 => if rd == .finite then 0 else 0x20
  | _ =>
    match rd with
    | .finite => 0
    | .nan => 2 ^ (fmtBits f - 1)
    | .ieee => 2 ^ (fmtBits f - 1) - 1

/-- Whether the reading of a format has a NaN, and infinities (R57). -/
def hasNan (f : FType) (rd : Reading) : Bool := wideF f || rd != .finite
def hasInf (f : FType) (rd : Reading) : Bool := wideF f || rd == .ieee

/-- Whether the reading has −0 (R57). -/
def hasNegZero (f : FType) (rd : Reading) : Bool :=
  wideF f || rd == .finite || (rd == .ieee && f != .ln6)

/-- The code of the largest finite magnitude (R57). -/
def maxCode (f : FType) (rd : Reading) : Nat :=
  match f with
  | .ln6 => if rd == .ieee then 30 else 31
  | _ => if hasInf f rd then (2 ^ (fmtParams f).2.1 - 1) * 2 ^ (fmtParams f).1 - 1 else 2 ^ (fmtBits f - 1) - 1

/-- The code of an infinity. -/
def infCode (f : FType) : Nat :=
  match f with
  | .ln6 => 31
  | _ => (2 ^ (fmtParams f).2.1 - 1) * 2 ^ (fmtParams f).1

/-- The sign bit of a format's code. -/
def signBit (f : FType) (neg : Bool) : Nat := if neg then 2 ^ (fmtBits f - 1) else 0

/-- Compare m1 · 2^e1 with m2 · 2^e2. -/
def cmpMag (m1 : Nat) (e1 : Int) (m2 : Nat) (e2 : Int) : Ordering :=
  if m1 == 0 || m2 == 0 then compare m1 m2
  else
    let l1 := (bitLen m1 : Int) + e1
    let l2 := (bitLen m2 : Int) + e2
    if l1 < l2 then .lt else if l2 < l1 then .gt
    else if e1 ≤ e2 then compare m1 (m2 * 2 ^ (e2 - e1).toNat) else compare (m1 * 2 ^ (e1 - e2).toNat) m2

/-- mix32 of R62. -/
def mix32 (x : Nat) : Nat :=
  let x := x ^^^ (x / 2 ^ 16)
  let x := x * 0x7FEB352D % 2 ^ 32
  let x := x ^^^ (x / 2 ^ 15)
  let x := x * 0x846CA68B % 2 ^ 32
  x ^^^ (x / 2 ^ 16)

/-- srgen of R62. -/
def srgen (seed blk who idx : Nat) : Nat :=
  let x := seed % 2 ^ 32 ^^^ (seed / 2 ^ 32 % 2 ^ 32 * 0x9E3779B9 % 2 ^ 32)
  let x := mix32 (x ^^^ (blk % 2 ^ 32))
  let x := mix32 (x ^^^ (who % 2 ^ 32))
  mix32 (x ^^^ (idx % 2 ^ 32))

/-- The choice between neighbours n and n + 1 (R59). `even` says the code of n ends in 0, `half` compares the remainder with
half a step, `frac` is the floor of the fraction times 2^32. -/
def pickUp (rnd : Rnd) (neg even : Bool) (half : Ordering) (frac draw : Nat) : Bool :=
  match rnd with
  | .rtz => false
  | .rpi => !neg
  | .rmi => neg
  | .rna => half != .lt
  | .rs => decide (draw < frac)
  | _ => half == .gt || (half == .eq && !even)

/-- m · 2^e in units of 2^q, rounded to an integer (R59); the flag says it is inexact. -/
def roundUnits (rnd : Rnd) (neg : Bool) (m : Nat) (e q : Int) (draw : Nat) : Nat × Bool :=
  if q ≤ e then (m * 2 ^ (e - q).toNat, false)
  else
    let d0 := (q - e).toNat
    let far := decide (bitLen m + 40 < d0)
    let m := if far && m != 0 then 1 else m
    let d := if far then 42 else d0
    let n := m / 2 ^ d
    let rem := m % 2 ^ d
    if rem == 0 then (n, false)
    else
      let up := pickUp rnd neg (n % 2 == 0) (compare (2 * rem) (2 ^ d)) (rem * 2 ^ 32 / 2 ^ d) draw
      (if up then n + 1 else n, true)

/-- The result of a magnitude above the largest finite (R60): `inf` says the input itself is an infinity. -/
def overCode (f : FType) (rd : Reading) (rnd : Rnd) (sat neg isInf : Bool) : Nat × Nat :=
  let big := signBit f neg + maxCode f rd
  if hasInf f rd then
    if isInf then (signBit f neg + infCode f, 0)
    else if sat then (big, fSATF ||| fINX)
    else
      let toInf := match rnd with
        | .rtz => false
        | .rpi => !neg
        | .rmi => neg
        | _ => true
      (if toInf then signBit f neg + infCode f else big, fOVF ||| fINX)
  else if sat || !hasNan f rd then (big, fSATF ||| fINX)
  else (nanCode f rd, fOVF ||| fINX)

/-- The zero of a sign in a reading (R57). -/
def zeroCode (f : FType) (rd : Reading) (neg : Bool) : Nat := if neg && hasNegZero f rd then signBit f true else 0

/-- Largest m ≥ lo with LN6 magnitude at most x, searching upward with fuel. -/
def lnFloor : Nat → Nat → Nat → Int → Nat
  | 0, lo, _, _ => lo
  | k + 1, lo, m, e => if cmpMag (lnVal (lo + 1)).1 (lnVal (lo + 1)).2 m e == .gt then lo else lnFloor k (lo + 1) m e

/-- Rounding to LN6 without bound (R55, R59): the magnitude code and whether it is inexact. -/
def roundLn (rnd : Rnd) (neg : Bool) (m : Nat) (e : Int) (draw : Nat) : Nat × Bool :=
  if m == 0 then (0, false)
  else
    -- the exponent of x gives the group of four codes to search from
    let ex := (bitLen m : Int) - 1 + e
    let lo := if ex < -4 then 0 else lnFloor 6 (4 * (ex + 4).toNat - 1) m e
    let nv := if lo == 0 then (0, (-28 : Int)) else lnVal lo
    let wv := lnVal (lo + 1)
    if lo != 0 && cmpMag nv.1 nv.2 m e == .eq then (lo, false)
    else
      -- all three magnitudes in one unit
      let u := min e (min nv.2 wv.2)
      let far := decide (ex < -80)
      let x := if far then 1 else m * 2 ^ (e - u).toNat
      let u' := if far then (-90 : Int) else u
      let n := nv.1 * 2 ^ (nv.2 - u').toNat
      let w := wv.1 * 2 ^ (wv.2 - u').toNat
      let up := pickUp rnd neg (lo % 2 == 0) (compare (2 * (x - n)) (w - n)) ((x - n) * 2 ^ 32 / (w - n)) draw
      (if up then lo + 1 else lo, true)

/-- round_f of R75: the code and the flags it sets (R59, R60). -/
def roundF (f : FType) (rd : Reading) (rnd : Rnd) (sat : Bool) (draw : Nat) (x : Xv) : Nat × Nat :=
  match x with
  | .nan sig => (nanCode f rd, if sig || !hasNan f rd then fINV else 0)
  | .inf neg => overCode f rd rnd sat neg true
  | .num neg m e =>
    if m == 0 then (zeroCode f rd neg, 0)
    else match f with
      | .ln6 =>
        if (bitLen m : Int) + e > 60 then overCode f rd rnd sat neg false
        else
          let (k, ix) := roundLn rnd neg m e draw
          if k > maxCode f rd then overCode f rd rnd sat neg false
          else if k == 0 then (zeroCode f rd neg, fINX)
          else (signBit f neg + k, if ix then fINX else 0)
      | _ =>
        let (mb, eb, bias) := fmtParams f
        let emin : Int := 1 - (bias : Int)
        let ex := (bitLen m : Int) - 1 + e
        if ex > 2 ^ eb then overCode f rd rnd sat neg false
        else
          let q := (if ex < emin then emin else ex) - mb
          let (k, ix) := roundUnits rnd neg m e q draw
          -- k · 2^q as a code of the extended pattern
          let code : Nat :=
            if k == 0 then 0
            else if q == emin - mb && k < 2 ^ mb then k
            else if k == 2 ^ (mb + 1) then ((q + mb + 1 + bias) * 2 ^ mb).toNat
            else ((q + mb + bias) * 2 ^ mb).toNat + (k - 2 ^ mb)
          if code > maxCode f rd then overCode f rd rnd sat neg false
          else if code == 0 then (zeroCode f rd neg, fINX)
          else (signBit f neg + code, if ix then fINX else 0)

/-- Whether a code of FP32, FP16 or BF16 is a subnormal. -/
def isSub (f : FType) (c : Nat) : Bool :=
  let (mb, eb, _) := fmtParams f
  wideF f && c / 2 ^ mb % 2 ^ eb == 0 && c % 2 ^ mb != 0

/-- FTZ of R61 on a rounded result. -/
def flushF (f : FType) (ftz : Bool) (r : Nat × Nat) : Nat × Nat :=
  if ftz && isSub f r.1 then (signBit f (bit r.1 (fmtBits f - 1)), r.2 ||| fINX) else r

/-- DAZ of R61 on an operand's code. -/
def dazCode (f : FType) (daz : Bool) (c : Nat) : Nat :=
  if daz && isSub f c then signBit f (bit c (fmtBits f - 1)) else c

/-- round_f32 of R75: FP32, RNE or the given choice, saturation off. -/
def roundF32 (rnd : Rnd) (x : Xv) : Nat × Nat := roundF .f32 .ieee rnd false 0 x

/-- A value rounded to an integer (R59 with V the integers): the integer and whether it differs. -/
def roundInt (rnd : Rnd) (neg : Bool) (m : Nat) (e : Int) (draw : Nat) : Int × Bool :=
  let (k, ix) := roundUnits rnd neg m e 0 draw
  (if neg then -(k : Int) else k, ix)

/-! ### Exact operations (R167, R168) -/

def Xv.neg : Xv → Xv
  | .nan s => .nan s
  | .inf n => .inf (!n)
  | .num n m e => .num (!n) m e

def Xv.isNan : Xv → Bool
  | .nan _ => true
  | _ => false
def Xv.isSig : Xv → Bool
  | .nan s => s
  | _ => false
def Xv.isZero : Xv → Bool
  | .num _ m _ => m == 0
  | _ => false
def Xv.sign : Xv → Bool
  | .nan _ => false
  | .inf n => n
  | .num n _ _ => n

/-- A signed integer times 2^e; `z` is the sign of an exact zero. -/
def ofInt (z : Bool) (t e : Int) : Xv := if t == 0 then .num z 0 0 else .num (decide (t < 0)) t.natAbs e

/-- The exact sum of two finite numbers, in the smaller exponent. -/
def sumFin (rmi : Bool) (n1 : Bool) (m1 : Nat) (e1 : Int) (n2 : Bool) (m2 : Nat) (e2 : Int) : Xv :=
  if m1 == 0 && m2 == 0 then .num (if n1 == n2 then n1 else rmi) 0 0
  else if m1 == 0 then .num n2 m2 e2
  else if m2 == 0 then .num n1 m1 e1
  else
    let e := min e1 e2
    let a : Int := m1 * 2 ^ (e1 - e).toNat
    let b : Int := m2 * 2 ^ (e2 - e).toNat
    ofInt rmi ((if n1 then -a else a) + (if n2 then -b else b)) e

/-- The NaN rules that come before an operation (R167): canonical NaN with INV for a signalling operand. -/
def nanOps (l : List Xv) : Option (Xv × Nat) :=
  if l.any Xv.isSig then some (.nan false, fINV) else if l.any Xv.isNan then some (.nan false, 0) else none

/-- a + b with the special cases of R167; `rmi` says the rounding is toward −∞. -/
def xAdd (rmi : Bool) (a b : Xv) : Xv × Nat :=
  match nanOps [a, b] with
  | some r => r
  | none =>
    match a, b with
    | .inf n, .inf k => if n == k then (.inf n, 0) else (.nan false, fINV)
    | .inf n, _ => (.inf n, 0)
    | _, .inf n => (.inf n, 0)
    | .num n1 m1 e1, .num n2 m2 e2 => (sumFin rmi n1 m1 e1 n2 m2 e2, 0)
    | _, _ => (.nan false, 0)

/-- a × b with the special cases of R167. -/
def xMul (a b : Xv) : Xv × Nat :=
  match nanOps [a, b] with
  | some r => r
  | none =>
    let n := a.sign != b.sign
    match a, b with
    | .num _ m1 e1, .num _ m2 e2 => (.num n (m1 * m2) (e1 + e2), 0)
    | x, y => if x.isZero || y.isZero then (.nan false, fINV) else (.inf n, 0)

/-- a × b + c, no intermediate rounding (R168). -/
def xFma (rmi : Bool) (a b c : Xv) : Xv × Nat :=
  match nanOps [a, b, c] with
  | some r => r
  | none =>
    let (p, fl) := xMul a b
    if fl != 0 then (p, fl) else xAdd rmi p c

/-- A quotient or root held to enough bits: `exact` says nothing lies below. -/
def sticky (n : Bool) (m : Nat) (e : Int) (exact : Bool) : Xv :=
  if exact then .num n m e else .num n (2 * m + 1) (e - 1)

/-- a / b (R167, R168). -/
def xDiv (a b : Xv) : Xv × Nat :=
  match nanOps [a, b] with
  | some r => r
  | none =>
    let n := a.sign != b.sign
    match a, b with
    | .inf _, .inf _ => (.nan false, fINV)
    | .inf _, _ => (.inf n, 0)
    | _, .inf _ => (.num n 0 0, 0)
    | .num _ m1 e1, .num _ m2 e2 =>
      if m2 == 0 then (if m1 == 0 then (.nan false, fINV) else (.inf n, 0))
      else if m1 == 0 then (.num n 0 0, 0)
      else
        let k := 80 + bitLen m2
        (sticky n (m1 * 2 ^ k / m2) (e1 - e2 - k) (m1 * 2 ^ k % m2 == 0), 0)
    | _, _ => (.nan false, 0)

/-- Integer square root by bits: `r` the root so far, `k` the bits to try. -/
def isqrtGo (x : Nat) : Nat → Nat → Nat
  | 0, r => r
  | k + 1, r => let c := r + 2 ^ k; if c * c ≤ x then isqrtGo x k c else isqrtGo x k r
/-- ⌊√x⌋. -/
def isqrt (x : Nat) : Nat := isqrtGo x (bitLen x / 2 + 1) 0

/-- √a (R168). -/
def xSqrt (a : Xv) : Xv × Nat :=
  match nanOps [a] with
  | some r => r
  | none =>
    match a with
    | .inf n => if n then (.nan false, fINV) else (.inf false, 0)
    | .num n m e =>
      if m == 0 then (.num n 0 0, 0)
      else if n then (.nan false, fINV)
      else
        let k : Nat := 160 + (e % 2).toNat
        let r := isqrt (m * 2 ^ k)
        (sticky false r ((e - k) / 2) (r * r == m * 2 ^ k), 0)
    | _ => (.nan false, 0)

/-- 1 / √a (R168). -/
def xRsqrt (a : Xv) : Xv × Nat :=
  match nanOps [a] with
  | some r => r
  | none =>
    match a with
    | .inf n => if n then (.nan false, fINV) else (.num false 0 0, 0)
    | .num n m e =>
      if m == 0 then (.inf n, 0)
      else if n then (.nan false, fINV)
      else
        -- a = (m · 2^odd) · 4^h, and 1/√a = √(4^k / (m · 2^odd)) · 2^(−h − k)
        let o := (e % 2).toNat
        let h := e / 2
        let d := m * 2 ^ o
        let k := 100 + bitLen d
        let r := isqrt (4 ^ k / d)
        (sticky false r (-h - k) (r * r * d == 4 ^ k), 0)
    | _ => (.nan false, 0)

/-- Fixed-point bits of the series below. -/
def seriesBits : Nat := 360

/-- Σ z^(2j+1) / (2j+1) from j on, for z in fixed point: `p` is z^(2j+1), `z2` is z². -/
def atanhGo (z2 : Nat) : Nat → Nat → Nat → Nat
  | 0, _, _ => 0
  | k + 1, j, p => p / (2 * j + 1) + atanhGo z2 k (j + 1) (p * z2 / 2 ^ seriesBits)
/-- 2 · atanh z in fixed point. -/
def atanh2 (z : Nat) : Nat := 2 * atanhGo (z * z / 2 ^ seriesBits) 130 0 z
/-- ln 2 in fixed point: 2 · atanh(1/3). -/
def ln2Fix : Nat := atanh2 (2 ^ seriesBits / 3)
/-- e^t − 1 in fixed point for 0 ≤ t < 1, Taylor's series from term j on with `p` = t^j / j!. -/
def expGo (t : Nat) : Nat → Nat → Nat → Nat
  | 0, _, _ => 0
  | k + 1, j, p => p + expGo t k (j + 1) (p * t / 2 ^ seriesBits / (j + 1))
/-- 2^f in fixed point for a fraction f in fixed point. -/
def exp2Fix (f : Nat) : Nat := 2 ^ seriesBits + expGo (f * ln2Fix / 2 ^ seriesBits) 90 1 (f * ln2Fix / 2 ^ seriesBits)
/-- log2 y in fixed point for 1 ≤ y < 2 in fixed point. -/
def log2Fix (y : Nat) : Nat := atanh2 ((y - 2 ^ seriesBits) * 2 ^ seriesBits / (y + 2 ^ seriesBits)) * 2 ^ seriesBits / ln2Fix

/-- 2^a (R168). -/
def xExp2 (a : Xv) : Xv × Nat :=
  match nanOps [a] with
  | some r => r
  | none =>
    match a with
    | .inf n => if n then (.num false 0 0, 0) else (.inf false, 0)
    | .num n m e =>
      if m == 0 then (.num false 1 0, 0)
      else if (bitLen m : Int) + e > 20 then (.num false 1 (if n then -2000000 else 2000000), 0)
      else if e ≥ 0 then (.num false 1 (if n then -(m * 2 ^ e.toNat : Int) else (m * 2 ^ e.toNat : Int)), 0)
      else
        let d := (-e).toNat
        let t : Int := if n then -(m : Int) else m
        let i := t / (2 ^ d : Int)
        let f := (t % (2 ^ d : Int)).toNat
        if f == 0 then (.num false 1 i, 0)
        else
          let y := if d ≤ seriesBits then exp2Fix (f * 2 ^ (seriesBits - d)) else exp2Fix (f / 2 ^ (d - seriesBits))
          (sticky false (y / 2 ^ (seriesBits - 200)) (i - 200) false, 0)
    | _ => (.nan false, 0)

/-- log2 a (R168). -/
def xLog2 (a : Xv) : Xv × Nat :=
  match nanOps [a] with
  | some r => r
  | none =>
    match a with
    | .inf n => if n then (.nan false, fINV) else (.inf false, 0)
    | .num n m e =>
      if m == 0 then (.inf true, 0)
      else if n then (.nan false, fINV)
      else
        let l := bitLen m - 1
        let ex : Int := l + e
        if m == 2 ^ l then (ofInt false ex 0, 0)
        else
          let y := m * 2 ^ (seriesBits - l)
          let t : Int := ex * 2 ^ 200 + (log2Fix y / 2 ^ (seriesBits - 200) : Nat)
          -- the exact value lies strictly between t and t + 1
          (if t < 0 then sticky true (-t - 1).toNat (-200) false else sticky false t.toNat (-200) false, 0)
    | _ => (.nan false, 0)

/-- Order of two values that are not NaN, −0 below +0 (R145, R168). -/
def xLess (a b : Xv) : Bool :=
  match a, b with
  | .inf n, .inf k => n && !k
  | .inf n, _ => n
  | _, .inf k => !k
  | .num n1 m1 e1, .num n2 m2 e2 =>
    if n1 != n2 then n1
    else if n1 then cmpMag m2 e2 m1 e1 == .lt else cmpMag m1 e1 m2 e2 == .lt
  | _, _ => false

/-- Equality of two values that are not NaN, −0 equal to +0 (R169). -/
def xEq (a b : Xv) : Bool :=
  match a, b with
  | .inf n, .inf k => n == k
  | .num n1 m1 e1, .num n2 m2 e2 => (m1 == 0 && m2 == 0) || (n1 == n2 && cmpMag m1 e1 m2 e2 == .eq)
  | _, _ => false

/-- The code `fmin` or `fmax` selects (R145, R168): `big` selects the greater. -/
def minMaxCode (f : FType) (big : Bool) (a b : Nat) : Nat :=
  let x := fvalue f .ieee a
  let y := fvalue f .ieee b
  if x.isNan && y.isNan then nanCode f .ieee
  else if x.isNan then b
  else if y.isNan then a
  else if big then (if xLess x y then b else a) else (if xLess y x then b else a)

/-! ### Immediates (R39) -/

/-- The integer an immediate of 10 or 22 bits denotes. -/
def immInt : Imm → Int
  | .i10 v => sext v.toNat 10
  | .i22 v => sext v.toNat 22
  | .i32 v => sext v.toNat 32

/-- An integer immediate at a type, as w bits (R39). -/
def immBits (t : IType) (v : Imm) : Nat :=
  match t, v with
  | .i16x2, .i32 x => x.toNat
  | .i16x2, v => let h := wrapN (immInt v) 16; h + 65536 * h
  | t, .i32 x => if signedTy t then wrapN (sext x.toNat 32) t.width else x.toNat % 2 ^ t.width
  | t, v => wrapN (immInt v) t.width

/-- A float immediate at FP32, FP16 or BF16, as a code (R39): no flag, saturation off. -/
def immFloat (f : FType) (v : Imm) : Nat :=
  match v with
  | .i32 x => if f == .f32 then x.toNat else (roundF f .ieee .rne false 0 (fvalue .f32 .ieee x.toNat)).1
  | v => (roundF f .ieee .rne false 0 (ofInt false (immInt v) 0)).1

/-! ### Block scales and the dot product (R58, R69, R70, R71) -/

/-- The exponent of a scale code; none is the NaN code 255 (R58). -/
def scaleExp (c : Nat) : Option Int := if c == 255 then none else some ((c : Int) - 127)

/-- A product within a group of the dot product (R70): a NaN operand alone sets no flag, not even a signalling one. -/
def dotMul (a b : Xv) : Xv × Nat := if a.isNan || b.isNan then (.nan false, 0) else xMul a b
/-- The product of two codes' values; LN6 by LN6 is the table's product (R56). -/
def codeMul (fa fb : FType) (ra rb : Reading) (a b : Nat) : Xv × Nat :=
  if fa == .ln6 && fb == .ln6 then
    match fvalue .ln6 ra a, fvalue .ln6 rb b with
    | .num n1 _ _, .num n2 _ _ =>
      let ma := a % 32
      let mb := b % 32
      if ma == 0 || mb == 0 then (.num (n1 != n2) 0 0, 0)
      else let p := ma + mb; (.num (n1 != n2) (lnt (p % 4)) ((p / 4 : Nat) - 32), 0)
    | x, y => dotMul x y
  else dotMul (fvalue fa ra a) (fvalue fb rb b)

/-- The sum of a group's products (R70): the value S before scaling, and the flags. -/
def groupSum (ps : List (Xv × Nat)) : Xv × Nat :=
  let fl := if ps.any fun p => p.2 != 0 then fINV else 0
  if ps.any fun p => p.1.isNan then (.nan false, fl)
  else if ps.any (fun p => p.1 == .inf false) && ps.any (fun p => p.1 == .inf true) then (.nan false, fINV)
  else if ps.any fun p => p.1 == .inf false then (.inf false, 0)
  else if ps.any fun p => p.1 == .inf true then (.inf true, 0)
  else
    let nz := ps.filterMap fun p => match p.1 with
      | .num n m e => if m == 0 then none else some (n, m, e)
      | _ => none
    let e0 := nz.foldl (fun acc p => min acc p.2.2) 100000
    let t := nz.foldl (fun (acc : Int) p =>
      let v : Int := p.2.1 * 2 ^ (p.2.2 - e0).toNat
      if p.1 then acc - v else acc + v) 0
    (ofInt (ps.all fun p => p.1.sign) t e0, 0)

/-- Multiply by a power of two; none is the NaN scale, which makes NaN with INV (R58, R70). -/
def scaleX (sc : Option Int) (x : Xv × Nat) : Xv × Nat :=
  match sc with
  | none => (.nan false, x.2 ||| fINV)
  | some k => match x.1 with
    | .num n m e => (.num n m (e + k), x.2)
    | _ => x

end Sys2Proof.Machine
end

