-- ==== Sys2Proof/Machine/State.lean ====
section
/-!
DEFINITION. The state of a package (00 to 18): everything the spec gives the machine, as plain data, the ways a step can stop, and
the state at power-on reset.
-/
namespace Sys2Proof.Machine

/-- Why the machine stops. -/
inductive Fault where
  /-- An instruction is executed while no tiller is selected (`cur` names none). Raised by every instruction's meaning. Safe: the
  spec has no such step. -/
  | noTiller
  deriving DecidableEq, Repr

/-- Why a step has no meaning. -/
inductive Refusal where
  /-- The instruction has no meaning yet. Raised by the dispatch only. Safe. -/
  | notModelled (mnemonic : String)
  deriving DecidableEq, Repr

/-- Which tiller executes: block, group within the block, tiller slot. -/
structure Cur where
  b : Nat
  g : Nat
  t : Nat
  deriving DecidableEq, Repr

/-- A register as the scoreboard marks it (R85). -/
inductive RegId where
  | v (n : Nat)
  | s (n : Nat)
  | p (n : Nat)
  | flags
  deriving DecidableEq, Repr

/-- A write to one register: a vector lane, a scalar, a predicate bit. -/
inductive Wr where
  | v (r lane : Nat) (x : Word)
  | s (r : Nat) (x : DWord)
  | p (r lane : Nat) (x : Bool)
  deriving DecidableEq, Repr

/-- What an access needs (R122); `sup` marks that of a hart, which has checked the U bit of its first stage for its own mode (R423). -/
structure Acc where
  r : Bool := false
  w : Bool := false
  x : Bool := false
  sup : Bool := false
  deriving DecidableEq, Repr

/-- One lane's operation on its location (R129, R144, R146, R155). -/
inductive ElOp where
  | read
  | write (x : Nat)
  | atom (op : AOp) (x : Nat)
  | cas (cmp new : Nat)
  | ord (x who n : Nat)
  | line (op : ClineOp)
  deriving DecidableEq, Repr

/-- One lane's access: the lane, the virtual address, the size in bytes and the operation. -/
structure LOp where
  lane : Nat
  va : Nat
  size : Nat
  op : ElOp
  deriving DecidableEq, Repr

/-- A fault that parks (R127): its kind, the CAUSE or DETAIL of R326 and R329, and what a report to the management core tells. -/
inductive PKindF where
  | stage1 | stage2 | walk | aliasF | poison | home | firewall
  deriving DecidableEq, Repr

/-- A fault with its CAUSE, GPA, level and walk-stage flag (R329); `home` is the slice that refused (R21); `ordq` says that the spill
area of ordered atomics is full (R147). -/
structure PFault where
  kind : PKindF
  cause : Nat := 0
  gpa : Nat := 0
  level : Nat := 0
  flag : Nat := 0
  home : Nat := 0
  ordq : Bool := false
  deriving DecidableEq, Repr

/-- A fault of a parked instruction: the page, its kind, the token of its report and whether it has been answered. -/
structure FaultRef where
  va : Nat
  f : PFault
  token : Nat
  resolved : Bool := false
  deriving DecidableEq, Repr

/-- Where a memory instruction's values go (R149 to R151). -/
inductive Dst where
  | none
  | vec (d : Nat) (t : IType)
  | scl (d : Nat) (t : IType)
  | bcast (d : Nat) (t : IType) (mask : Nat)
  deriving DecidableEq, Repr

/-- A global memory instruction in flight (R119, R125, R139): its unfinished lanes, the faults met, the scopes it acquires and releases at,
whether its stores have been accepted by the L1 (R149), and its address. -/
structure MemFlight where
  dst : Dst
  lanes : List LOp
  acc : Acc
  hint : Hint := .none
  acq : Option Scope := .none
  rel : Option Scope := .none
  accepted : Bool := false
  faults : List FaultRef := []
  pc : Nat := 0
  deriving DecidableEq, Repr

/-- A wait that another step ends; `ctrfault` is a `ctrwait` that is parked on a fault of its counter's page (R296). -/
inductive Cond where
  | pwait (addr : Nat) (par : Bool)
  | cwait (isTo : Bool) (v : Nat)
  | mwait (sel : Sel8) (v : Nat)
  | qwait (sel : Sel8) (v : Nat)
  | ctrwait (va v : Nat)
  | ctrfault (va v : Nat) (f : FaultRef)
  | snooze (til : Nat)
  | bar (id : Nat)
  | aalloc (op : Nat)
  | fence (sem : FSem) (scope : Scope)
  | remote (op : Nat)
  | shape (op : Nat)
  | matrix (op : Nat)
  deriving DecidableEq, Repr

/-- What an issued instruction still waits for: its own latency, its requests, or a condition. -/
inductive PKind where
  | alu
  | mem (m : MemFlight)
  | cond (c : Cond)
  deriving DecidableEq, Repr

/-- An issued instruction that has not completed (R83, R85): the tiller slot and its lanes, its opcode, the registers marked, the
writes to perform, the flags to set, and what ends it. -/
structure Pend where
  slot : Nat
  mask : Nat
  op : Nat
  marks : List RegId
  wr : List Wr
  fl : Nat
  kind : PKind
  deriving DecidableEq, Repr

/-- An open lookahead window (R83): the pending instruction and the instructions left. -/
structure Win where
  id : Nat
  left : Nat
  deriving DecidableEq, Repr

/-- Why a tiller is in Long-wait (R86): a pending instruction, a parked memory instruction, its next fetch, room in the record stream,
or the window of sheaves. -/
inductive LWait where
  | on (id : Nat)
  | parked (id : Nat)
  | fetch (f : List FaultRef)
  | recRoom
  | sealWin
  deriving DecidableEq, Repr

/-- Tiller states (R86). -/
inductive TState where
  | free
  | ready
  | waiting
  | longWait (w : LWait)
  | atBar (id : Nat)
  | atJoin
  | atWide
  | held (was : TState)
  | ended
  deriving DecidableEq, Repr

/-- A tiller slot (R86); `parkAt` is the address at which it parked last and `parkNo` the number of that park among those of its group
(R88, R95); `parkSince` says since when it is parked on a fault (R314). -/
structure Tiller where
  mask : Nat := 0
  pc : Nat := 0
  fmt : Word := 0x13
  mode : Word := 1
  wins : List Win := []
  skip : Nat := 0
  st : TState := .free
  rcd : Option Nat := none
  parkAt : Nat := 0
  parkNo : Nat := 0
  parkSince : Option Nat := none
  deriving DecidableEq, Repr

/-- A split record (R86, R89): `lanes` are At-join lanes held in the record, parked at `joinPc`. -/
structure Rcd where
  addr : Nat
  mask : Nat
  fmt : Word
  mode : Word
  parent : Option Nat
  dfr : Option (Nat × Nat) := none
  lanes : Nat := 0
  joinPc : Nat := 0
  deriving DecidableEq, Repr

/-- The wide region's saved state (R94): the address of `wide`, the tillers and records. -/
structure WideSave where
  pc : Nat
  tillers : List Tiller
  rcds : List (Nat × Rcd)
  slot : Nat
  deriving DecidableEq, Repr

/-- The hidden trap state (R100): the saved scalars, the slot of the handler's tiller at entry and its lanes, the records open at entry. -/
structure TrapSave where
  saved : List DWord
  slot : Nat
  mask : Nat
  rcds : List Nat
  deriving DecidableEq, Repr

/-- A group's executions of `bar` on one barrier in the phase (R96): the lanes of the tillers that executed it, their count, and for each
execution, the latest first, its lanes and its address. -/
structure BarArr where
  id : Nat
  lanes : Nat
  cnt : Nat
  execs : List (Nat × Nat) := []
  deriving DecidableEq, Repr

/-- A named barrier of a block (R96): the first arrival's count as written, the target, the groups arrived. -/
structure Bar where
  first : Option Nat := none
  target : Nat := 0
  arrived : List Nat := []
  deriving DecidableEq, Repr

/-- A sealed sheaf and its status record (R186, R208, R358): the arrival object, the copies in issue order, whether it is outstanding,
and what it recorded when it failed; `post` says that it was sealed after the group's flashback point (R199). -/
structure SheafSt where
  num : Nat
  arv : Option Nat := none
  copies : List Nat := []
  out : Bool := true
  failed : Bool := false
  cause : Nat := 0
  whr : Nat := 0
  copy : Nat := 0
  sarv : Bool := false
  addr : Nat := 0
  rcause : Nat := 0
  post : Bool := false
  deriving DecidableEq, Repr

/-- Flashback state of a group (R301); `pendMark` is the number of its next instruction to be issued at the point. -/
structure Flash where
  valid : Bool := false
  dirty : Bool := false
  pc : Nat := 0
  rcd : List Byte := []
  mask : Nat := 0
  fmt : Word := 0x13
  mode : Word := 1
  copyMark : Nat := 0
  pendMark : Nat := 0
  recipe : Bool := false
  deriving DecidableEq, Repr

/-- A group (R76, R86, R103). `v` is keyed register · 32 + lane; `slot` is its slot in the quarter; `parks` counts the times a tiller of it
has parked. `readySince` and `idleSince` say since which clock of its slice, in thousandths, it has had a ready tiller, and since when
none Ready or Waiting (R80). -/
structure Group where
  role : Nat := 0
  producer : Bool := false
  quarter : Nat := 0
  slot : Nat := 0
  vregs : Nat := 32
  sregs : Nat := 16
  v : Cells Word := []
  s : Cells DWord := []
  p : Cells Word := []
  flags : Nat := 0
  tillers : List Tiller := []
  rcds : List (Nat × Rcd) := []
  nextRcd : Nat := 0
  pend : List (Nat × Pend) := []
  nextPend : Nat := 0
  lastSlot : Nat := 7
  exited : Nat := 0
  parks : Nat := 0
  wide : Option WideSave := none
  trap : Option TrapSave := none
  bars : List BarArr := []
  ended : Bool := false
  lastIssue : Nat := 0
  lastPc : Nat := 0
  readySince : Option Nat := none
  idleSince : Option Nat := none
  sealCnt : Nat := 0
  sheafNum : Nat := 0
  openSheaf : List Nat := []
  sheaves : List SheafSt := []
  anyFail : Bool := false
  flash : Flash := {}
  rsAny : Bool := false
  rsCause : Nat := 0
  rsPeer : Nat := 0
  recCnt : Nat := 0
  ordCnt : Cells Nat := []
  deriving DecidableEq, Repr

/-- States of a matrix operation (R226); one that has Retired or been Abandoned is gone. -/
inductive MSt where
  | queued | running | draining | held
  deriving DecidableEq, Repr

/-- A matrix operation (R217, R226): its issuing group, tile and stream, formats (none is INT8) and readings, operands, the layout
captured, its shadow and flags, whether its results are discarded, and whether it was issued after the flashback point. -/
structure MOp where
  g : Nat
  tile : Nat
  stream : Nat
  zacc : Bool
  spb : Bool
  fa : Option FType
  fb : Option FType
  ra : Reading
  rb : Reading
  k : Nat
  aoff : Nat
  apitch : Nat
  boff : Nat
  asc : Option Nat
  bsc : Option Nat
  lay : Layout
  st : MSt := .queued
  shadow : Cells Word := []
  fl : Nat := 0
  drop : Bool := false
  post : Bool := true
  pc : Nat := 0
  lane : Nat := 0
  deriving DecidableEq, Repr

/-- What an instruction other than `mma` does to tiles in its turn (R228, R234 to R236); elements are numbered row · 256 + column: a tile becomes
zero, or a copy; elements are written (`awrv`, and `aldl` with the words it has read); a patch goes to vector registers, with the roundings in
force; elements go to words of local memory. -/
inductive TileAct where
  | zero (d : Nat)
  | copy (d a : Nat)
  | put (d : Nat) (cells : List (Nat × Word))
  | get (a base v n mask : Nat) (t : FType) (rnd : Rnd) (sat fl : Bool) (draws : List Nat)
  | store (a at' : Nat) (keys : List Nat)
  deriving DecidableEq, Repr

/-- An instruction on tiles that is accepted and waits for earlier ones (R228): its group, the pending instruction that it completes, what
it does, and whether it was issued after the flashback point. -/
structure TileOp where
  g : Nat
  pend : Option Nat := none
  act : TileAct
  post : Bool := true
  deriving DecidableEq, Repr

/-- A row of a residue set (R247): E1 and E2 as FP32 bits, NEXT, RVALID. -/
structure ResRow where
  e1 : Word := 0
  e2 : Word := 0
  next : Word := 0
  valid : Bool := false
  deriving DecidableEq, Repr

/-- A residue set (R247): its header, and its rows that are not empty. -/
structure ResSet where
  entry : Nat := 0
  roworg : Nat := 0
  valid : Bool := false
  order : Nat := 0
  rd : Nat := 0
  rows : Cells ResRow := []
  deriving DecidableEq, Repr

/-- A tensor table entry (R72): BASE, DIM0 to DIM3, STRIDE1 to STRIDE3, SCALE_OFF, ATTR. -/
structure TEnt where
  base : Nat
  dims : List Nat
  strides : List Nat
  soff : Nat
  attr : Nat
  deriving DecidableEq, Repr

/-- What `qst` and `vqst` store through an entry (R242, R261, R262): the entry and its address, RD, a0, r0, the rounding and saturation in
force, and the source. -/
inductive ShSrc where
  | tile (d : Nat) (aint : Bool) (col0 ncol alpha : Nat)
  | lanes (row mask : Nat) (sint : Bool) (vals : List Word)
  deriving DecidableEq, Repr

/-- A store through an entry. -/
structure ShStore where
  ent : TEnt
  at' : Nat
  rd : Nat
  a0 : Nat
  r0 : Nat
  rnd : Rnd
  sat : Bool
  src : ShSrc
  deriving DecidableEq, Repr

/-- The operations of the shaping engine (R261 to R265, R267). -/
inductive ShKind where
  | store (x : ShStore)
  | resLd (va : Nat)
  | resSt (va : Nat)
  | zero
  | cfg (entry roworg next order rd : Nat)
  | read (sel : QrdSel) (w mask d : Nat)
  deriving DecidableEq, Repr

/-- A byte to be written: address, the bits written, their values (R253). -/
structure ShByte where
  va : Nat
  mask : Nat
  val : Nat
  deriving DecidableEq, Repr

/-- A shaping operation (R250, R258): its group and set; `out` holds the unwritten codes once it has been converted; `pend` is the
pending instruction that it completes; its flags, pending fault, whether it was accepted after the flashback point, PC and lane. `after` is the
number of the first instruction of the group that is not before it (R251). -/
structure ShOp where
  g : Nat
  kind : ShKind
  set : Nat
  out : Option (List ShByte) := none
  pend : Option Nat := none
  fl : Nat := 0
  fault : Option FaultRef := none
  post : Bool := true
  pc : Nat := 0
  lane : Nat := 0
  after : Nat := 0
  deriving DecidableEq, Repr

/-- A `wbrel` whose arrival is to come (R238): the operations it names, and the object. -/
structure WbRel where
  ops : List Nat
  obj : Nat
  deriving DecidableEq, Repr

/-- Residency states (R299). -/
inductive ResSt where
  | waiting | resident | stopping | saving | moving | saved | spilled | swapped | restoring
  deriving DecidableEq, Repr

/-- Why a block ends as failed (R101, R118, R326): KIND 4 or 5, DETAIL, and the fields of the record. -/
structure Fail where
  kind : Nat
  detail : Nat
  va : Nat := 0
  pc : Nat := 0
  lane : Nat := 0
  info : Nat := 0
  acc : Nat := 0
  deriving DecidableEq, Repr

/-- A block: what it is of (`lk` names its launch in the machine's table), where it runs, its groups, local memory and barriers. `lbase`
is where its local region begins on the core; `swap` says that it leaves for a swap-out, `savedAt` is the ticket of its saving. -/
structure Block where
  launch : Nat := 0
  lk : Nat := 0
  idx : Nat := 0
  vd : Nat := 0
  pid : Nat := 0
  slice : Nat := 0
  core : Nat := 0
  swap : Bool := false
  carried : Bool := false
  savedAt : Nat := 0
  isTile : Bool := false
  maint : Bool := false
  traph : Nat := 0
  seed : Nat := 0
  res : ResSt := .waiting
  groups : List Group := []
  localSz : Nat := 0
  lbase : Nat := 0
  loc : Memory := []
  wbSz : Nat := 0
  wbL : Memory := []
  wbF : Memory := []
  accMax : Nat := 0
  live : Nat := 0
  acc : List (Cells Word) := List.replicate 4 []
  alay : Layout := ⟨0, 0, 0, 2⟩
  aread : Reading := .nan
  bread : Reading := .nan
  mops : List (Nat × MOp) := []
  tops : List (Nat × TileOp) := []
  rels : List WbRel := []
  qsets : List ResSet := List.replicate 8 {}
  sops : List (Nat × ShOp) := []
  bars : List Bar := []
  fail : Option Fail := none
  cancelled : Bool := false
  deriving DecidableEq, Repr

/-- A quarter's issue state (R77, R79, R391, R398): `act` holds block and group at positions 0 to 7; while `counting`, SCNT counts the clocks since
`sampAt`, and else it is 0. -/
structure Quarter where
  act : List (Option (Nat × Nat)) := List.replicate 8 none
  lastPos : Nat := 7
  giveUp : Option Nat := none
  sptr : Nat := 23
  stop : Option Nat := none
  dumped : Bool := false
  stopAt : Nat := 0
  stopCause : Nat := 0
  sampAt : Nat := 0
  counting : Bool := false
  deriving DecidableEq, Repr

/-! ### Caches and translation -/

/-- A route TLB entry (R120) of a block, in a set of its range (R121); `glob` is G. -/
structure TlbE where
  blk : Nat
  set : Nat
  vd : Nat
  vpn : Nat
  big : Bool
  home : Nat
  acc : Acc
  cache : Nat
  key : Nat
  glob : Bool := false
  deriving DecidableEq, Repr

/-- A frame-cache entry (R322): VD tag, page, SLA of the page, key slot, and the permissions and CACHE of the translation it is of (R143). -/
structure FrameE where
  home : Nat
  vd : Nat
  vpn : Nat
  big : Bool
  sla : Nat
  pa : Nat
  key : Nat
  acc : Acc := { r := true, w := true, x := true }
  cache : Nat := 0
  deriving DecidableEq, Repr

/-- A line of an L1 data cache or of the near ways: VD tag, granule, data (R124). -/
structure CLine where
  vd : Nat
  gran : Nat
  data : List Byte
  deriving DecidableEq, Repr

/-- A fetch block in an instruction cache (R41): VD tag, address over 32, its eight words. -/
structure IBlk where
  vd : Nat
  blk : Nat
  words : List Nat
  deriving DecidableEq, Repr

/-- A line of a slice cache (R324): bank and way, VD tag, granule; `near` data for a line of a remote home, `old` the DRAM content
under a dirty line; `perf` says of near data which access of its home it is of. -/
structure SLine where
  bank : Nat
  way : Nat
  vd : Nat
  gran : Nat
  near : Option (List Byte) := none
  line : Nat := 0
  old : Option (List Byte) := none
  victim : Bool := false
  perf : Nat := 0
  deriving DecidableEq, Repr

/-- An entry of a walker's walk cache (R320): a non-leaf entry of a stage and VD at a level, for the addresses with these upper bits, and the
table it points to. -/
structure WcEnt where
  stage : Nat
  vd : Nat
  level : Nat
  upper : Nat
  table : Nat
  deriving DecidableEq, Repr

/-- A core's caches; `tblk` are the blocks among which the sets of the route TLB are partitioned, in the order of their ranges (R121). -/
structure CoreSt where
  tblk : List Nat := []
  tlb : List TlbE := []
  l1 : List CLine := []
  ic : List IBlk := []
  deriving DecidableEq, Repr

/-! ### Requests, walks, messages, reports -/

/-- Where a granule request stands (R119, R120, R140, R322): waiting for a walk, on its way as a message, at its home, waiting for the
home's walk or for its stamp, answered (`m` is the response's message, if it crosses the fabric), answered at the core, failed on its
way back, refused by a firewall, or failed. -/
inductive ReqSt where
  | walk (w : Nat)
  | going (m : Nat)
  | atHome
  | frame (w : Nat)
  | stamped
  | back (m : Nat)
  | done
  | failBack (m : Nat) (f : PFault)
  | refused (f : PFault)
  | failed
  deriving DecidableEq, Repr

/-- A granule request of a memory instruction (R119, R123): its issuer, what it asks, its answer. `vals` holds the old value of each
lane; `line` the granule's data for a fill; `stamp` the causal stamp, keyed source · 16 + destination, and `num` its number among the writes to
its home (R140); `perf` numbers the accesses in the order performed; `pref` is the level that a prefetch asks for (R155). -/
structure Req where
  b : Nat
  g : Nat
  pend : Nat
  slot : Nat
  slice : Nat
  core : Nat
  pid : Nat
  vd : Nat
  gran : Nat
  lanes : List LOp
  acc : Acc
  hint : Hint := .none
  ordered : Bool := false
  home : Nat := 0
  cache : Nat := 0
  key : Nat := 0
  fill : Bool := true
  st : ReqSt
  stamp : List (Nat × Nat) := []
  num : Option Nat := none
  vals : List (Nat × Nat) := []
  line : List Byte := []
  fl : Nat := 0
  perf : Nat := 0
  pref : Option PrefLvl := none
  deriving DecidableEq, Repr

/-- An entry of the ordered queue of a home bank (R146, R147): its launch, location, operand and key, and whether it has spilled,
and to which place of the spill area. -/
structure OrdEnt where
  home : Nat
  sla : Nat
  key : Nat
  bank : Nat
  pid : Nat
  vd : Nat
  launch : Nat
  va : Nat
  x : Nat
  blk : Nat
  who : Nat
  n : Nat
  spilled : Bool := false
  at' : Nat := 0
  deriving DecidableEq, Repr

/-- What a page walk serves (R320). -/
inductive WalkFor where
  | tlb (blk core : Nat)
  | frame (req : Nat)
  deriving DecidableEq, Repr

/-- A page walk (R320). -/
structure Walk where
  slice : Nat
  pid : Nat
  vd : Nat
  va : Nat
  acc : Acc
  what : WalkFor
  deriving DecidableEq, Repr

/-- Message classes of the fabric (R18). -/
inductive MCls where
  | req | rsp | wr | ctl
  deriving DecidableEq, Repr

/-- A message on the fabric (R18 to R21): class, partition id, source, destination, present position, and the request it carries or
answers; `port` is the slice it came from last; `esc` says that it holds an escape buffer. `refused` carries the edge's status back. -/
structure Msg where
  cls : MCls
  pid : Nat
  src : Nat
  dst : Nat
  pos : Nat
  port : Nat := 16
  req : Nat
  acc : Acc := {}
  esc : Bool := false
  refused : Option PKindF := none
  deriving DecidableEq, Repr

/-- What a write does that its home has not taken yet (R127, R386): bytes at a virtual address, an amount added to an 8-byte counter, or bytes
at a partition address. -/
inductive LateOp where
  | put (va : Nat) (b : List Byte)
  | add (va n : Nat)
  | pa (at' : Nat) (b : List Byte)
  deriving DecidableEq, Repr

/-- A write of an engine of a slice that waits for its home. -/
structure Late where
  slice : Nat
  pid : Nat
  vd : Nat
  op : LateOp
  deriving DecidableEq, Repr

/-- Who waits for the answer to a fault report. -/
inductive Waiter where
  | none
  | lane (b g pend va : Nat)
  | fetch (b g t : Nat)
  | copy (id : Nat)
  | queue (slice q : Nat)
  | shape (id : Nat)
  deriving DecidableEq, Repr

/-- A fault report that awaits a reply (R326, R329): to the guest's ring (`guest`) or the management core; `held` while the ring is
full (R326), `waiting` while the held list is full. -/
structure Report where
  slice : Nat
  pid : Nat
  vd : Nat
  f : PFault
  va : Nat
  pc : Nat := 0
  acc : Acc := {}
  info : Nat := 0
  guest : Bool
  inject : Bool := false
  held : Bool := false
  waiter : Waiter
  deriving DecidableEq, Repr

/-! ### Copies (07) -/

/-- What a copy instruction is (R201 to R205, R353, R354). -/
inductive CpKind where
  | cpy (srclay : Bool) (dir : Dir) (lay : Layout)
  | cgath (glob : Bool) (lay : Layout)
  | cfill (glob : Bool) (t : FillT)
  | wb (half : WbHalf)
  | cpya (dir : Dir) (esz : ESize)
  | rcpy (peer : Nat) (srcl : Bool) (dpitch : Nat)
  | rget (peer : Nat) (dpitch : Nat)
  deriving DecidableEq, Repr

/-- States of a copy (R187). -/
inductive CpSt where
  | queued | running | stopped | suspended (was : CpSt) | done | failed
  deriving DecidableEq, Repr

/-- A copy (R184, R187, R198): its group, the values of D, A, B and C, the arrival offset, the next traversal index, its state, what it
recorded when it failed, whether it was issued after the flashback point, its pending fault, and the index table or descriptor. `lane` is the
lane that its accesses belong to, and `after` the number of the first instruction of the group that is not before it (R192). -/
structure Copy where
  b : Nat
  g : Nat
  kind : CpKind
  d : Nat
  a : Nat
  e : Nat
  c : Nat
  arv : Option Nat := none
  hint : Hint := .none
  next : Nat := 0
  st : CpSt := .queued
  cause : Nat := 0
  whr : Nat := 0
  addr : Nat := 0
  rcause : Nat := 0
  post : Bool := true
  fault : Option FaultRef := none
  aux : List Byte := []
  lane : Nat := 0
  after : Nat := 0
  deriving DecidableEq, Repr

/-! ### Launches (10) -/

/-- States of a virtual queue (R272). -/
inductive QState where
  | unmapped | pending | mapped | pinned
  deriving DecidableEq, Repr

/-- A registered virtual queue (R269, R270, R272): its slot, since when it is mapped, the ticket of its first pending notify, the packets
counted in DONE, and those complete beyond. -/
structure Queue where
  pid : Nat
  vd : Nat
  hdr : Nat
  pin : Bool := false
  lcok : Bool := false
  npok : Bool := false
  maint : Bool := false
  dev : Bool := false
  weight : Nat := 1
  st : QState := .unmapped
  slot : Option Nat := none
  mappedAt : Nat := 0
  pendAt : Nat := 0
  done : Nat := 0
  comp : List Nat := []
  deriving DecidableEq, Repr

/-- A slot of a slice at its queue's head (R277): the packet's number, its bytes once read, whether its dependence is met, the cause
found while reading (5 or 7 of R278), a fault that waits for an answer, whether the header is not usable (R327), the packet's slot, and the
kernel descriptor once the lead has read it. -/
structure Head where
  n : Nat
  pkt : Option (List Byte) := none
  met : Bool := false
  cause : Nat := 0
  fault : Option FaultRef := none
  stopped : Bool := false
  slot : Option Nat := none
  kd : Option (List Byte) := none
  deriving DecidableEq, Repr

/-- A launch that has left the head and is not complete (R278 to R290). `lid` is `%launch`; `left` says on which slices it has left the
head, with a ticket; `noticed` which of them know the block count; `next` is for each slice the index from which its own blocks have
not started, and `extra` are blocks reassigned to a slice and not started (R281); `sent` and `held` are done notices, `acks` those of the
ordered atomics; `killed` are the slices where a cancel has taken effect. -/
structure Launch where
  pid : Nat
  vd : Nat
  queue : Nat
  n : Nat
  lid : Nat
  pkt : List Byte
  pktVa : Nat
  kd : List Byte
  blocks : Nat
  list : List Nat
  maint : Bool
  leftAt : Nat
  lapsed : Bool := false
  cancelled : Bool := false
  killed : List Nat := []
  left : List (Nat × Nat) := []
  noticed : List Nat := []
  next : Cells Nat := []
  extra : List (Nat × Nat) := []
  sent : List Nat := []
  held : List Nat := []
  ordering : Bool := false
  acks : List Nat := []
  nfail : Nat := 0
  first : Nat := 2 ^ 32 - 1
  fcode : Nat := 0
  deriving DecidableEq, Repr

/-- A cancel on its way (R291, R295): the launches it names and the slices it has yet to reach. -/
structure Cancel where
  launches : List Nat
  slices : List Nat
  deriving DecidableEq, Repr

/-! ### The network (13) -/

/-- A peer entry (R342). STATE is `st`; the address and the key are numbers. -/
structure Peer where
  rdev : Nat := 0
  rpart : Nat := 0
  st : Nat := 0
  lvd : Nat := 0
  rvd : Nat := 0
  rpeer : Nat := 0
  addr0 : Nat := 0
  naddr : Nat := 1
  npath : Nat := 1
  perm : Nat := 0
  rto0 : Nat := 10
  nring : Nat := 0
  niid : Nat := 0
  key : List Byte := []
  deriving DecidableEq, Repr

/-- A Golris packet without its tag (R343); VER is 1. -/
structure GPkt where
  typ : Nat
  sslice : Nat := 0
  ctl : Nat := 0
  dpeer : Nat := 0
  psn : Nat := 0
  msg : Nat := 0
  va : Nat := 0
  len : Nat := 0
  aux : Nat := 0
  payload : List Byte := []
  deriving DecidableEq, Repr

/-- A packet sent and not acknowledged (R347): the remote operation it is of, how often it has been sent, its path, its timeout and when
that expires. -/
structure Sent where
  pkt : GPkt
  op : Option Nat
  sends : Nat
  path : Nat
  rto : Nat
  due : Nat
  deriving DecidableEq, Repr

/-- The sending side of a connection (R345, R349): next PSN and MSG, packets that wait, packets unacknowledged, the rate state, the counts
of the update interval, when the next packet and the next update may come. -/
structure Conn where
  psn : Nat := 0
  msg : Nat := 0
  queue : List (Option Nat × GPkt) := []
  sent : List Sent := []
  rate : Rat := 200000
  alpha : Rat := 1
  acked : Nat := 0
  marked : Nat := 0
  paceAt : Nat := 0
  rateAt : Nat := 0
  deriving DecidableEq, Repr

/-- The receiving side of a connection, for one sending slice (R343, R345): the cumulative PSN, the PSNs applied beyond it, packets held,
and what the next ACK tells; `refused` are the refusals of packets that the sender may
hold unacknowledged, of the highest PSN come (`top`) and the 1,023 before it. `slice` received last. -/
structure Rcv where
  pid : Nat
  peer : Nat
  sslice : Nat
  slice : Nat
  cum : Nat := 0
  ahead : List Nat := []
  held : List (GPkt × Nat) := []
  unack : Nat := 0
  firstAt : Nat := 0
  ce : Nat := 0
  top : Nat := 0
  refused : List (Nat × Nat) := []
  deriving DecidableEq, Repr

/-- A packet that a port has sent (R339, R341, R343, R346): the slice, the source and the destination address, the UDP ports and checksum,
whether with ECT(0), the VLAN, the bytes after the UDP header. -/
structure WireOut where
  slice : Nat
  src : Nat
  dst : Nat
  sport : Nat
  dport : Nat
  sum : Nat
  ect : Bool
  vid : Nat
  bytes : List Byte
  deriving DecidableEq, Repr

/-- What a remote operation is (R353 to R357): a copy, an atomic with its pending entry, destination and type, a flag or a note. -/
inductive RemKind where
  | cpy (id : Nat)
  | get (id : Nat)
  | atom (pend d : Nat) (t : IType)
  | flag
  | note
  deriving DecidableEq, Repr

/-- Why a remote operation has not been sent: nothing, the sheaves of `.after`, or an earlier operation of the group to the peer (R360,
R361). -/
inductive RemWait where
  | none | after (k : Nat) | behind
  deriving DecidableEq, Repr

/-- A remote operation in flight (R351): its issuer and the lanes of its tiller, the peer, what it is, its MSG number, what it waits for, the packet it will send, the
bytes not yet acknowledged or received, whether it is not acknowledged and a `.sys` release waits for it, whether it acquires, and the first refusal of a copy. -/
structure RemOp where
  b : Nat
  g : Nat
  mask : Nat
  slice : Nat
  pid : Nat
  vd : Nat
  peer : Nat
  kind : RemKind
  msg : Nat := 0
  wait : RemWait := .none
  pkt : Option GPkt := none
  left : Nat := 0
  fenced : Bool := false
  acq : Bool := false
  fail : Option (Nat × Nat) := none
  deriving DecidableEq, Repr

/-! ### Slices and partitions -/

/-- States of a key slot (R335); an active key is known by the number of its generation. -/
inductive KeySt where
  | empty
  | active (k : Nat)
  | zeroed
  deriving DecidableEq, Repr

/-- A VD context (R321). -/
structure VdCtx where
  s1root : Nat := 0
  s2root : Nat := 0
  frbase : Nat := 0
  frdoor : Nat := 0
  friid : Nat := 0
  ks1 : Nat := 0
  ks2 : Nat := 0
  ks3 : Nat := 0
  near : Bool := false
  glob : Bool := false
  wprof : Nat := 0
  deriving DecidableEq, Repr

/-- A way-mask and allocation profile (R324, R325): one mask per class, and a 2-bit policy per class and operation. -/
structure WayProf where
  masks : List Nat
  pol : List Nat
  deriving DecidableEq, Repr

/-- FW_CTL of a slice, in the always-on domain (R374). -/
structure FwCtl where
  asgn : Bool := false
  excl : Bool := false
  hold : Bool := true
  pid : Nat := 0
  deriving DecidableEq, Repr

/-- INT_ROUTE of a slice (R376): IFBASE as its bits [63:16]. -/
structure IntRoute where
  ifbase : Nat := 0
  nharts : Nat := 0
  pid : Nat := 0
  deriving DecidableEq, Repr

/-- A trace entry as the engine holds it (R390). -/
structure TrcEnt where
  ring : Nat := 0
  sen : Bool := false
  uctl : Bool := false
  brken : Bool := false
  marken : Bool := false
  recm : Bool := false
  rpl : Bool := false
  cset : Nat := 255
  dump : Nat := 0
  rstream : Nat := 0
  deriving DecidableEq, Repr

/-- A counter set (R401): the VD it is bound to, counters, selectors, shadows with their valid bits, freeze; `off` are the counters that a
restored image has made unavailable (R406). -/
structure CtrSet where
  vd : Option Nat := none
  ctr : List Nat := List.replicate 8 0
  sel : List Nat := List.replicate 8 0
  shd : List Nat := List.replicate 8 0
  svalid : Nat := 0
  frz : Bool := false
  off : Nat := 0
  deriving DecidableEq, Repr

/-- Events posted on a partition's command page or as records of the management port (R378, R382). -/
inductive EvKind where
  | sliceReset | selfTestFail | firewall | queueHeader | divergence | recordStream | resizeNotice | counterSet
  deriving DecidableEq, Repr

/-- An event: for a partition, or for the management controller; a record of the latter names the slice's partition, if it has one (R382). -/
structure Event where
  pid : Option Nat
  kind : EvKind
  part : Option Nat := none
  slice : Nat := 0
  arg : Nat := 0
  lost : Nat := 0
  deriving DecidableEq, Repr

/-- A virtqueue in the packed layout of VIRTIO 1.2 (R340): whether it is ready, its size, the addresses of its descriptor ring and of the
driver's and the device's areas, and the device's positions with their wrap counters. -/
structure VQueue where
  ready : Bool := false
  size : Nat := 0
  desc : Nat := 0
  drv : Nat := 0
  dev : Nat := 0
  pos : Nat := 0
  wrap : Bool := true
  used : Nat := 0
  uwrap : Bool := true
  deriving DecidableEq, Repr

/-- The VIRTIO network device of a slice (R340): the selectors, the features that the driver took, the status, the interrupt status, the queues
by number. -/
structure Virtio where
  fsel : Nat := 0
  dsel : Nat := 0
  feats : Nat := 0
  qsel : Nat := 0
  status : Nat := 0
  isr : Nat := 0
  queues : List (Nat × VQueue) := []
  deriving DecidableEq, Repr

/-- An inbound WRITE applied under REC (R365): its VD, the entry of a record stream for it, its bytes, and whether the entry has been written. -/
structure WrSeen where
  vd : Nat
  key : Nat
  pay : List Byte
  va : Nat
  len : Nat
  done : Bool
  deriving DecidableEq, Repr

/-- The slice's interrupt controller, an APLIC in MSI delivery mode (R376): whether it delivers, and by source the configuration and the target;
the pending and enabled sources as masks. -/
structure Aplic where
  ie : Bool := false
  cfg : Cells Nat := []
  tgt : Cells Nat := []
  pend : Nat := 0
  en : Nat := 0
  deriving DecidableEq, Repr

/-- A slice outside its cores. `wrSeen` are the inbound writes of VDs in record mode. `rxFrames` are received frames that no buffer of the VIRTIO device has taken. `map` is the slice's copy of the interleave map (R319), one byte an entry; `zeroed` says that its stack has
been zeroed since its reset (R338, R383); `pchAt` is when each pseudo-channel last had a request or entered power-down (R332). NET_CTL and
NET_CC hold their writable bits (R341, R349). `passc` is the number of passes; `rising` and `falling` say that a change of K is in progress
(R415); `hot` that k is being lowered for heat (R419); `clk` are the thousandths of arithmetic clocks passed up to time `clkAt` (R17); `ctrOut` is what the last 32-bit read of a counter page returned (R405); `pre` are the pre-emptions begun: launch key and index of the block
that waits, and the core chosen (R306). -/
structure Slice where
  inReset : Bool := true
  zeroed : Bool := false
  pchAt : Cells Nat := []
  mac : Nat := 0
  gport : Nat := 49319
  vid : Nat := 0
  ect : Bool := true
  gen : Bool := false
  link : Bool := false
  netCC : Nat := 400 * 2 ^ 48 + 16 * 2 ^ 40 + 10 * 2 ^ 16 + 1000
  retx : Nat := 0
  badtag : Nat := 0
  refused : Nat := 0
  pause : Nat := 0
  rxFrames : List (List Byte) := []
  vio : Virtio := {}
  aplic : Aplic := {}
  rplPos : Cells Nat := []
  wrSeen : List WrSeen := []
  shi : Nat := 200
  slo : Nat := 96
  kmax : Nat := 40
  kmin : Nat := 0
  vote : Nat := 0
  rising : Bool := false
  falling : Bool := false
  want : Nat := 0
  alarms : Nat := 0
  sval : Nat := 0
  alarm : Bool := false
  alarmAt : Nat := 0
  calmAt : Nat := 0
  winAlarm : Bool := false
  winEnd : Nat := 1000000
  thermAt : Nat := 0
  hot : Bool := false
  clk : Nat := 0
  clkAt : Nat := 0
  map : List Nat := List.replicate 256 0
  keys : List (Nat × KeySt) := []
  fcache : List FrameE := []
  wcache : List WcEnt := []
  scache : List SLine := []
  chErrCE : Nat := 0
  chErrUE : Nat := 0
  patrol : Bool := false
  patrolPos : Nat := 0
  srIdle : Nat := 1000
  pdIdle : Nat := 256
  pch : Cells Nat := []
  roten : Bool := true
  lockmb : Nat := 12
  thresh : Nat := 16
  passc : Nat := 1
  gft : Cells Nat := []
  trcCtl : Nat := 0
  trcTab : Nat := 0
  trcAddr : Nat := 0
  trcLost : Nat := 0
  trcStops : Nat := 0
  trcDiv : Nat := 0
  trc : List (Nat × TrcEnt) := []
  csets : List (Nat × CtrSet) := []
  ctrOut : Nat := 0
  k : Nat := 0
  vdStop : List Nat := []
  heads : List (Nat × Head) := []
  drain : Bool := false
  rotNext : Nat := 500000
  rotDefer : Bool := false
  pre : List (Nat × Nat × Nat) := []
  preempts : Nat := 0
  rots : Nat := 0
  skips : Nat := 0
  swapouts : Nat := 0
  saveBase : Nat := 0
  saveSize : Nat := 0
  temps : List Nat := [0, 0]
  deriving DecidableEq, Repr

/-- Life of a partition (R373). -/
inductive PState where
  | forming | booting | running | resizing | destroying
  deriving DecidableEq, Repr

/-- A resize in progress (R385): removal or addition of a slice, DRAIN, G_USED, the new map, the command, the step (0 while HARTS_DOWN is
awaited) and since when, the granules to be moved, the one whose copy is in progress and whether it goes to the staging granule, the one that is
staged, and whether the leaving slice has been reset (R388). -/
structure Resize where
  add : Bool
  slice : Nat
  drain : Nat
  gused : Nat
  map : List Nat
  cmd : Cmd
  step : Nat := 0
  since : Nat := 0
  moves : List Nat := []
  copying : Option (Nat × Bool) := none
  staged : Option Nat := none
  lost : Bool := false
  deriving DecidableEq, Repr

/-- A command that steps 3 to 5 of a resize hold (R388): PAGE_RETIRE of a VD's page with its completion word, or KEY_GEN. -/
inductive HeldCmd where
  | pageRetire (c : Cmd) (vd va size cw : Nat)
  | keyGen (c : Cmd) (slot : Nat)
  deriving DecidableEq, Repr

/-- A partition (R373 to R377) with what its kernel has given it through the command page. `cancels` is keyed VD · 4 + level (R293);
`quiet` says that queue heads are quiesced (R385); `owned` are the frames entered in the owner table, with the VD and address (R323);
`down` are the slices whose harts HARTS_DOWN has said are stopped; `cmd` is the command that forms or destroys it. -/
structure Part where
  st : PState := .forming
  slices : List Nat := []
  down : List Nat := []
  map : List Nat := List.replicate 256 0
  uri : List Byte := []
  cmd : Cmd := ⟨none, 0⟩
  resize : Option Resize := none
  peers : List (Nat × Peer) := []
  addrs : Cells Nat := []
  owned : List (Nat × Nat × Nat) := []
  vds : List (Nat × VdCtx) := []
  wprofs : List (Nat × WayProf) := []
  ownerTab : Option Nat := none
  spillBase : Nat := 0
  spillSize : Nat := 0
  ctrBase : Cells Nat := []
  cancels : List (Nat × List Nat) := []
  quiet : Bool := false
  held : List HeldCmd := []
  deriving DecidableEq, Repr

/-- SCRUB_PROG of a job on a slice (R337), kept in the always-on domain. `writing` says that zeros are being written or verified, `at'` the
fabric cycle up to which PROG has been brought, `heldProg` the PROG held at the last reset (R338). -/
structure ScrubProg where
  active : Bool := false
  writing : Bool := false
  at' : Nat := 0
  done : Bool := false
  resumed : Bool := false
  verify : Bool := false
  total : Nat := 0
  prog : Nat := 0
  heldProg : Nat := 0
  deriving DecidableEq, Repr

/-- A scrub job of a partition (R337): ranges of PA as base and length, the slots, a core mask for each slice, the VD; `zeroing` once
step 4 has begun. -/
structure ScrubJob where
  ranges : List (Nat × Nat) := []
  slots : List Nat := []
  cores : List (Nat × Nat) := []
  vd : Nat := 0
  zeroing : Bool := false
  cmd : Cmd := ⟨none, 0⟩
  deriving DecidableEq, Repr

/-- What the next step is (the model's own): an instruction issued on a quarter, named by slice · 16 + core · 4 + quarter; an
event; n bytes of a line of a stack going wrong, which the codes of R330 meet at the next read; a command record with an OPC and a TAG. -/
inductive Move where
  | issue (q : Nat)
  | ev (i : Instr)
  | upset (line n : Nat)
  | record (src : Option Nat) (code tag : Nat)
  deriving DecidableEq, Repr

/-- The two parts (R1). -/
inductive PkgPart where
  | ts4 | ts16
  deriving DecidableEq, Repr

/-- The fuses (R368). SVN1 to SVN5 are thermometer codes. -/
structure Fuses where
  rdev : DWord := 0
  idkey : BitVec 256 := 0
  idpub : BitVec 512 := 0
  pubkeys : List (BitVec 512) := List.replicate 4 0
  revoke : Nat := 0
  svn : List DWord := List.replicate 5 0
  deriving DecidableEq, Repr

/-- A response to a command (R378): where it goes, TAG, STATUS, the values of its result, and a report's bytes. -/
structure Resp where
  cmd : Cmd
  status : Nat
  data : List Nat := []
  bytes : List Byte := []
  deriving DecidableEq, Repr

/-- A rail (R420): the operating point whose voltage it holds, the end of a settle and the point to which the rail falls then. -/
structure Rail where
  level : Nat := 0
  settle : Option Nat := none
  target : Nat := 0
  deriving DecidableEq, Repr

/-- An entry of a hart's TLB (R421, R422): a page translated in a mode under an ASID and a VMID; the accesses that its walk permits, the page of
the partition address, and the VD of the tag. -/
structure HTlb where
  mode : HMode
  asid : Nat
  vmid : Nat
  page : Nat
  acc : Acc
  pa : Nat
  vd : Nat
  deriving DecidableEq, Repr

/-- A host hart (R12, R142, R381, R421 to R424): whether it runs, its mode, its pc, its X, F and V registers (V of 256 bits) and CSRs by number,
its TLB, its IMSIC's files (0 the S file, 1 to 15 the guest files, 16 the M file) with their pending and enabled identities as masks, delivery and
threshold, the reservation of LR (the home, the address and the bytes of the reserved line), the value its last operation returned, and the
cause and address of its last exception. -/
structure Hart where
  run : Bool := false
  mode : HMode := .m
  pc : Nat := 0
  tlb : List HTlb := []
  eip : Cells Nat := []
  eie : Cells Nat := []
  edel : Cells Nat := []
  ethr : Cells Nat := []
  x : Cells Nat := []
  f : Cells Nat := []
  v : Cells Nat := []
  csr : Cells Nat := []
  resv : Option (Nat × Nat × List Byte) := none
  val : Nat := 0
  cause : Option Nat := none
  tval : Nat := 0
  deriving DecidableEq, Repr

/-- The machine. `powered` is false once the input protection has disconnected the part (R428); `bootStep` is the step of R369. `mem` is keyed home · 2^36 + SLA and holds what the home bank reads, cached or not; `errs`, `poison` and `lineKey` are
keyed by that over 128. `jobs` is keyed partition · 4 + job, `sprog`
slice · 4 + job; `rails` by column, `harts` by slice · 8 + hart, `conns` by slice · 1024 + peer, `rcvs` by (partition · 1024 + peer) · 256 +
sending slice; `perfs` counts the accesses performed at the homes; `stSent` and
`stApplied` are keyed source · 16 + destination, `stKnown` slice · 256 + source · 16 + destination and hold a number plus 1, 0 for none (R140); `stSkip` are numbers that
a home has passed before their turn; `late` are writes that wait for their home (R127, R386); `wire` and `frames` are the packets and frames that the ports have sent; `migrating` names partition and granule; `irqs` the interrupt file address and
identity of each MSI delivered, with its partition; `msix` the vectors that the management port has raised (R378). `notices` are the notices to the management cores: a number, the slice and the record
(R327); `doors` are the words written to fault doorbell pages and not yet acted on, with the partition and the VD (R328). -/
structure State where
  part : PkgPart := .ts4
  powered : Bool := true
  now : Nat := 0
  free : Nat := 0
  bootStep : Nat := 1
  fuses : Fuses := {}
  tested : List (Nat × Bool) := []
  fwSet : List Byte := []
  images : List (Nat × List Byte) := []
  resps : List Resp := []
  rails : List (Nat × Rail) := []
  harts : List (Nat × Hart) := []
  conns : List (Nat × Conn) := []
  rcvs : List (Nat × Rcv) := []
  wire : List WireOut := []
  frames : List (Nat × List Byte) := []
  agenda : List (Nat × Move) := []
  cur : Option Cur := none
  nextId : Nat := 0
  slices : List (Nat × Slice) := []
  cores : List (Nat × CoreSt) := []
  quarters : List (Nat × Quarter) := []
  parts : List (Nat × Part) := []
  blocks : List (Nat × Block) := []
  mem : Memory := []
  errs : Cells Nat := []
  poison : Cells Bool := []
  lineKey : Cells Nat := []
  reqs : List (Nat × Req) := []
  walks : List (Nat × Walk) := []
  ordq : List OrdEnt := []
  copies : List (Nat × Copy) := []
  queues : List (Nat × Queue) := []
  launches : List (Nat × Launch) := []
  cancels : List (Nat × Cancel) := []
  rops : List (Nat × RemOp) := []
  msgs : List (Nat × Msg) := []
  reports : List (Nat × Report) := []
  perfs : Nat := 0
  stSent : Cells Nat := []
  stApplied : Cells Nat := []
  stKnown : Cells Nat := []
  stSkip : List (Nat × Nat) := []
  late : List Late := []
  fw : List (Nat × FwCtl) := []
  routes : List (Nat × IntRoute) := []
  irqs : List (Nat × Nat × Nat) := []
  msix : List Nat := []
  msiLost : Cells Nat := []
  events : List Event := []
  notices : List (Nat × Nat × List Byte) := []
  doors : List (Nat × Nat × Nat) := []
  jobs : List (Nat × ScrubJob) := []
  sprog : List (Nat × ScrubProg) := []
  migrating : List (Nat × Nat) := []
  deriving DecidableEq, Repr

/-- The machine right after reset. -/
def State.reset : State := {}

end Sys2Proof.Machine
end

