-- ==== Sys2Proof/Machine/Ctl.lean ====
section
/-!
DEFINITION. The split table of a group (R86 to R95): splits, joins, records, deferred paths, ends of tillers and wide regions, as
functions of the group.
-/
namespace Sys2Proof.Machine

/-- Whether a tiller is live: neither Free nor Ended. -/
def TState.live : TState → Bool
  | .free => false
  | .ended => false
  | _ => true

/-- Slots of the tillers that satisfy a test. -/
def Group.slotsOf (g : Group) (p : Tiller → Bool) : List Nat := (upto g.tillers.length).filter fun i => p (listGet {} g.tillers i)
/-- The tiller of a slot. -/
def Group.til (g : Group) (k : Nat) : Tiller := listGet {} g.tillers k
def Group.setTil (g : Group) (k : Nat) (t : Tiller) : Group := { g with tillers := listSet g.tillers k t }

/-- The smallest remaining count for each window open in any of the tillers (R84). -/
def mergeWins (a b : List Win) : List Win :=
  a.map (fun w => match b.find? fun v => v.id == w.id with
    | some v => { w with left := min w.left v.left }
    | none => w) ++ b.filter fun v => !a.any fun w => w.id == v.id

/-- R87: tiller `k` splits, the lanes `gm` going to `tgt`, the others to `nxt`; none is a split overflow. -/
def Group.split (g : Group) (k gm tgt pc nxt : Nat) : Option Group :=
  let t := g.til k
  let own := t.rcd.bind fun r => (tget g.rcds r).bind fun x => if x.addr == pc then some r else none
  let opened : Option (Nat × Group) := match own with
    | some r => some (r, g)
    | none =>
      if g.rcds.length ≥ 16 then none
      else
        let x : Rcd := { addr := pc, mask := t.mask, fmt := t.fmt, mode := t.mode, parent := t.rcd }
        some (g.nextRcd, { g with nextRcd := g.nextRcd + 1, rcds := tput g.rcds g.nextRcd x })
  match opened with
  | none => none
  | some (r, g) =>
    let rest : Tiller := { t with mask := t.mask - (t.mask &&& gm), pc := nxt, rcd := some r }
    match (g.slotsOf fun u => u.st == .free).head? with
    | some u =>
      some ((g.setTil u { mask := gm, pc := tgt, fmt := t.fmt, mode := t.mode, wins := t.wins, st := .ready, rcd := some r }).setTil k rest)
    | none =>
      match tget g.rcds r with
      | none => none
      | some x =>
        match x.dfr with
        | none => some ({ g with rcds := tput g.rcds r { x with dfr := some (gm, tgt) } }.setTil k rest)
        | some (m, p) =>
          if p == tgt then some ({ g with rcds := tput g.rcds r { x with dfr := some (m ||| gm, p) } }.setTil k rest) else none

/-- Whether a record lies below another, by its parents; fuel bounds the chain. -/
def Group.below (g : Group) (r : Nat) : Nat → Nat → Bool
  | 0, _ => false
  | n + 1, x => match (tget g.rcds x).bind Rcd.parent with
    | none => false
    | some p => p == r || g.below r n p

/-- The tillers of a record (R88). -/
def Group.members (g : Group) (r : Nat) : List Nat := g.slotsOf fun t => t.rcd == some r && t.st != .free

/-- What becomes of a record when nothing of it moves (R88, R89). -/
inductive RcdFate where
  | open' | mismatch | start | close
  deriving DecidableEq, Repr

/-- The addresses at which a record's lanes wait. -/
def Group.waits (g : Group) (r : Nat) (x : Rcd) : List Nat :=
  ((g.members r).filter fun k => (g.til k).st == .atJoin).map (fun k => (g.til k).parkAt) ++ (if x.lanes != 0 then [x.joinPc] else [])

/-- R88's cases for a record: open while a tiller of it moves or a record below it is open. -/
def Group.fate (g : Group) (r : Nat) (x : Rcd) : RcdFate :=
  let m := g.members r
  if m.any (fun k => (g.til k).st != .atJoin && (g.til k).st != .ended) || g.rcds.any (fun e => g.below r 17 e.1) then .open'
  else
    let w := g.waits r x
    if w.any fun a => a != w.headD 0 then .mismatch
    else if x.dfr.isSome then .start else .close

/-- R89: start the deferred path of a record in the lowest of its Ended and the Free slots, else in the place of its At-join tiller. The spec
does not say which windows the path holds. DESIGN CHOICE (notes/assumptions/72.md): none in a Free or an Ended slot, and those of the
At-join tiller in its place. -/
def Group.startDeferred (g : Group) (r : Nat) (x : Rcd) : Group :=
  match x.dfr with
  | none => g
  | some (m, pc) =>
    let t : Tiller := { mask := m, pc := pc, fmt := x.fmt, mode := x.mode, st := .ready, rcd := some r }
    match (g.slotsOf fun u => u.st == .free || (u.st == .ended && u.rcd == some r)).head? with
    | some k => { g with rcds := tput g.rcds r { x with dfr := none } }.setTil k t
    | none =>
      match (g.members r).find? fun k => (g.til k).st == .atJoin with
      | none => g
      | some k =>
        let u := g.til k
        { g with rcds := tput g.rcds r { x with dfr := none, lanes := x.lanes ||| u.mask, joinPc := u.parkAt } }.setTil k
          { t with wins := u.wins }

/-- R88: close a record. One tiller goes on after the `join` in the lowest of its slots with the record's lanes that have not ended;
none does when all have. When the record holds parked lanes and no slot (R89: the started path took it and split, and its lanes ended),
the tiller takes the lowest Free slot. DEDUCED (notes/assumptions/73.md). The tiller keeps the `skip` count of the slot that it takes.
DESIGN CHOICE (notes/assumptions/74.md). Lanes that had ended before a wide region are ended for a record that closes inside it, as R88 words
it, though R94 enables them. DESIGN CHOICE (notes/assumptions/105.md). -/
def Group.close (g : Group) (r : Nat) (x : Rcd) : Group :=
  let m := g.members r
  let mask := x.mask - (x.mask &&& g.exited)
  let wins := m.foldl (fun w k => mergeWins w (g.til k).wins) []
  let at' := (g.waits r x).headD 0
  let freed := { g with tillers := g.tillers.map fun t => if t.rcd == some r then ({} : Tiller) else t, rcds := tdel g.rcds r }
  let slot := match m.head? with
    | some k => some k
    | none => if x.lanes != 0 then (freed.slotsOf fun u => u.st == .free).head? else none
  match slot with
  | some k =>
    if mask == 0 then freed
    else freed.setTil k { mask := mask, pc := at' + 8, fmt := x.fmt, mode := x.mode, wins := wins, st := .ready, rcd := x.parent,
                          skip := (g.til k).skip }
  | none => freed

/-- Let records close and deferred paths start as long as any can; true is a join mismatch. -/
def Group.settleRcds (g : Group) : Nat → Group × Bool
  | 0 => (g, false)
  | n + 1 =>
    match g.rcds.find? fun e => g.fate e.1 e.2 != .open' with
    | none => (g, false)
    | some (r, x) => match g.fate r x with
      | .mismatch => (g, true)
      | .start => (g.startDeferred r x, false)
      | .close => (g.close r x).settleRcds n
      | .open' => (g, false)

/-- A tiller parks in a state at an address. -/
def Group.park (g : Group) (k : Nat) (st : TState) (pc : Nat) : Group :=
  { g with parks := g.parks + 1 }.setTil k { g.til k with st := st, parkAt := pc, parkNo := g.parks + 1 }

/-- Tiller `k` parks at a `join` at `pc` and merges with a tiller of its record that waits there (R88). The merged tiller keeps the `skip`
count of its slot, the lower one. DESIGN CHOICE (notes/assumptions/74.md). -/
def Group.parkJoin (g : Group) (k pc : Nat) : Group :=
  let t := g.til k
  let no := g.parks + 1
  match (g.members (t.rcd.getD 0)).find? fun j => j != k && (g.til j).st == .atJoin && (g.til j).parkAt == pc && (g.til j).rcd == t.rcd with
  | some j =>
    let u := g.til j
    let lo := min j k
    let hi := max j k
    ({ g with parks := no }.setTil hi {}).setTil lo
      { u with mask := t.mask ||| u.mask, wins := mergeWins u.wins t.wins, st := .atJoin, parkAt := pc, parkNo := no, skip := (g.til lo).skip }
  | none => g.park k .atJoin pc

/-- Lanes of a tiller end (R90): it is Ended when none is left, and its slot is free when it belongs to no record. -/
def Group.endLanes (g : Group) (k m : Nat) : Group :=
  let t := g.til k
  let left := t.mask - (t.mask &&& m)
  { g with exited := g.exited ||| m }.setTil k
    (if left != 0 then { t with mask := left } else if t.rcd.isSome then { t with mask := 0, st := .ended, wins := [] } else {})

/-- Whether a group has ended (R90): no live tiller, no deferred path. -/
def Group.over (g : Group) : Bool :=
  !g.tillers.any (fun t => t.st.live) && !g.rcds.any (fun e => e.2.dfr.isSome)

/-- R94: enter the wide region when every live tiller is At-wide at one address. The lowest of their slots is taken, Ended ones not counted
(DESIGN CHOICE, notes/assumptions/75.md); the split table starts empty in the region, all 8 slots and 16 records, while the saved one is
kept (DESIGN CHOICE, notes/assumptions/76.md). The wide tiller's `skip` count starts at 0 (DESIGN CHOICE, notes/assumptions/106.md). -/
def Group.enterWide (g : Group) : Option Group :=
  let live := g.slotsOf fun t => t.st.live
  match live with
  | [] => none
  | k :: _ =>
    let at' := (g.til k).parkAt
    if g.wide.isSome || live.any fun j => (g.til j).st != .atWide || (g.til j).parkAt != at' then none
    else
      -- the At-wide tiller that holds the lowest-numbered lane
      let low := (upto 32).findSome? fun i => live.find? fun j => bit (g.til j).mask i
      let u := g.til (low.getD k)
      let wins := live.foldl (fun w j => mergeWins w (g.til j).wins) []
      some { g with
        wide := some { pc := at', tillers := g.tillers, rcds := g.rcds, slot := k }, rcds := []
        tillers := listSet (g.tillers.map fun _ => ({} : Tiller)) k
          { mask := 2 ^ 32 - 1, pc := at' + 8, fmt := u.fmt, mode := u.mode, wins := wins, st := .ready } }

/-- R95: end the wide region; every saved tiller goes on after `endwide`, with its windows that are still open and those of the wide tiller
that are still open. DESIGN CHOICE (notes/assumptions/77.md): the spec does not say what becomes of the wide tiller's windows. -/
def Group.leaveWide (g : Group) (w : WideSave) (nxt : Nat) (wins : List Win) : Group :=
  let openWin (x : Win) := g.pend.any fun p => p.1 == x.id
  { g with wide := none, rcds := w.rcds
           tillers := w.tillers.map fun t =>
             if t.st == .atWide then { t with st := .ready, pc := nxt, wins := mergeWins (t.wins.filter openWin) (wins.filter openWin) } else t }

/-- Whether a tiller is parked at `join`, `bar` or `wide`. -/
def TState.parked : TState → Bool
  | .atJoin => true
  | .atBar _ => true
  | .atWide => true
  | _ => false

/-- The slot of the parked tiller that parked last (R88, R95). -/
def Group.lastParked (g : Group) : Nat :=
  (g.slotsOf fun t => t.st.parked).foldl (fun k j => if !(g.til k).st.parked || (g.til k).parkNo < (g.til j).parkNo then j else k) 0

/-- The slot of the live tiller that executed `bar` last of those that an entry tells of, and the address of that `bar` (R96). -/
def Group.barLast (g : Group) (e : BarArr) : Nat × Nat :=
  (e.execs.findSome? fun x => ((g.slotsOf fun t => t.st.live && t.mask &&& x.1 != 0).head?).map fun k => (k, x.2)).getD (0, 0)

/-- R95's mismatches after a tiller has parked: every live tiller is parked and nothing can follow. The trap's code, if any: 5 when a
tiller is At-wide, else 6. A barrier at which the group has arrived can still release. -/
def Group.stuck (g : Group) : Option Nat :=
  let live := g.slotsOf fun t => t.st.live
  if live.isEmpty || live.any fun k => !(g.til k).st.parked then none
  else if live.any fun k => (g.til k).st == .atWide then some 5
  else if live.any fun k => match (g.til k).st with
      | .atBar b => !(g.bars.any fun e => e.id == b)
      | _ => false
    then none
  else some 6

end Sys2Proof.Machine
end

