-- ==== Sys2Proof/Machine/Mem.lean ====
section
/-!
DEFINITION. The memory of the stacks: homes and lines (R319, R322), error codes and poison (R330), keys (R335), and the slice cache
in front of it (R324, R325). An access is to part of one 128-byte line of one home.
-/
namespace Sys2Proof.Machine

/-- Change a record of a table, if it is there. -/
def tmod {α : Type} (l : List (Nat × α)) (k : Nat) (f : α → α) : List (Nat × α) :=
  match tget l k with
  | some v => tput l k (f v)
  | none => l

def State.modSlice (s : State) (k : Nat) (f : Slice → Slice) : State := { s with slices := tmod s.slices k f }
def State.modCore (s : State) (k : Nat) (f : CoreSt → CoreSt) : State := { s with cores := tmod s.cores k f }
def State.modQuarter (s : State) (k : Nat) (f : Quarter → Quarter) : State := { s with quarters := tmod s.quarters k f }
def State.modBlock (s : State) (k : Nat) (f : Block → Block) : State := { s with blocks := tmod s.blocks k f }
def State.modPart (s : State) (k : Nat) (f : Part → Part) : State := { s with parts := tmod s.parts k f }
def State.modReq (s : State) (k : Nat) (f : Req → Req) : State := { s with reqs := tmod s.reqs k f }

/-- A slice's record, or that of a slice in reset. -/
def State.slice (s : State) (k : Nat) : Slice := (tget s.slices k).getD {}
/-- The key of a core in `cores` (slice and `%core`). -/
def coreKey (slice core : Nat) : Nat := slice * 4 + core
def State.core (s : State) (k : Nat) : CoreSt := (tget s.cores k).getD {}

/-- A choice the spec leaves open among n, and the state with the counter advanced. -/
def State.choose (s : State) (n : Nat) : Nat × State := (Config.freeNat s.free % n, { s with free := s.free + 1 })

/-- A value the spec leaves open, and the state with the counter advanced. -/
def State.freeVal (s : State) : DWord × State := (Config.freeWord s.free, { s with free := s.free + 1 })

/-- A fresh identifier. -/
def State.fresh (s : State) : Nat × State := (s.nextId, { s with nextId := s.nextId + 1 })

/-! ### Homes (R319) -/

/-- VGRAN: the 2 MiB granules visible on a slice (R319). -/
def vgran : Nat := 21456
/-- The home slice and stack-local address of a partition address; none is cause RANGE (R319). -/
def homeOf (map : List Nat) (pa : Nat) : Option (Nat × Nat) :=
  let g := pa / 2 ^ 21
  let e := g % 256
  let w := listGet 0 map e
  if !bit w 7 then none
  else
    let sl := w % 16
    let names (l : List Nat) := (l.filter fun x => bit x 7 && x % 16 == sl).length
    let lg := g / 256 * names map + names (map.take e)
    if lg ≥ vgran then none else some (sl, lg * 2 ^ 21 + pa % 2 ^ 21)
/-- The key of a stack address in `mem`. -/
def cell (home sla : Nat) : Nat := home * 2 ^ 36 + sla
/-- The key of its line. -/
def lineAt (home sla : Nat) : Nat := cell home sla / 128

/-- Whether a home cannot answer: its slice is in reset, or the granule is mid-migration (R127). -/
def State.homeDown (s : State) (home pid pa : Nat) : Bool :=
  (s.slice home).inReset || s.migrating.any fun e => e.1 == pid && e.2 == pa / 2 ^ 21

/-! ### Lines (R330, R335) -/

/-- Apply R330 to a line: the state with its corrections and counts, and whether the line is poisoned. -/
def State.checkLine (s : State) (line : Nat) : State × Bool :=
  if cget false s.poison line then (s, true)
  else
    let e := cget 0 s.errs line
    let home := line / 2 ^ 29
    if e == 0 then (s, false)
    else if e ≤ 4 then
      ({ s.modSlice home fun x => { x with chErrCE := (x.chErrCE + 1) % 2 ^ 32 } with errs := cset 0 s.errs line 0 }, false)
    else
      ({ s.modSlice home fun x => { x with chErrUE := (x.chErrUE + 1) % 2 ^ 24 } with
          errs := cset 0 s.errs line 0, poison := cset false s.poison line true }, true)

/-- n further bytes of a line go wrong: the codes of R330 meet them at the next read. The codes are not held: a line's data with n wrong bytes stands
for them. DESIGN CHOICE (notes/assumptions/115.md). -/
def State.upset (s : State) (line n : Nat) : State :=
  if line / 2 ^ 29 ≥ 16 || cget false s.poison line then s else { s with errs := cset 0 s.errs line (cget 0 s.errs line + n) }
/-- The key that a slot of a slice gives: 0 for no slot, none where a read is a poison fault (R335). -/
def State.keyOf (s : State) (home slot : Nat) : Option Nat :=
  if slot == 0 then some 0
  else match tget (s.slice home).keys slot with
    | some (.active k) => some k
    | _ => none

/-- The partition address of a stack address under an interleave map (R319, read backwards). -/
def paOf (map : List Nat) (home sla : Nat) : Nat :=
  let es := (upto 256).filter fun e => bit (listGet 0 map e) 7 && listGet 0 map e % 16 == home
  let lg := sla / 2 ^ 21
  (lg / max es.length 1 * 256 + listGet 0 es (lg % max es.length 1)) * 2 ^ 21 + sla % 2 ^ 21
/-- What reading a line through key `b` gives when its 128 bytes were written through key `a` (R335): SM4 in XTS mode with the tweak PA >> 7,
key 0 for none. -/
def recryptLine (a b tweak : Nat) (l : List Byte) : List Byte :=
  let c := if a == 0 then l else Config.xtsEnc (Config.dataKey a) (Config.tweakKey a) tweak l
  let p := if b == 0 then c else Config.xtsDec (Config.dataKey b) (Config.tweakKey b) tweak c
  (upto 128).map fun i => listGet 0 p i

/-- The bytes from a home address, within one line, through a key slot (R330, R335); none is poison. -/
def State.homeRead (s : State) (home sla n slot : Nat) : State × Option (List Byte) :=
  let line := lineAt home sla
  match s.keyOf home slot with
  | none => (s, none)
  | some k =>
    let (s, bad) := s.checkLine line
    if bad then (s, none)
    else
      let raw := cgets 0 s.mem (cell home sla) n
      let lk := cget 0 s.lineKey line
      if lk == k then (s, some raw)
      else
        let l := recryptLine lk k (paOf (s.slice home).map home sla / 128) (cgets 0 s.mem (line * 128) 128)
        (s, some ((l.drop (sla % 128)).take n))

/-- Replace part of a list. -/
def splice (l : List Byte) (at' : Nat) (b : List Byte) : List Byte := l.take at' ++ b ++ l.drop (at' + b.length)

/-- Write bytes at a home address, within one line, through a key slot: a partial write of a poisoned line, or one through a slot
without a key, is not performed (R330, R335). -/
def State.homeWrite (s : State) (home sla slot : Nat) (b : List Byte) : State × Bool :=
  let line := lineAt home sla
  match s.keyOf home slot with
  | none => (s, false)
  | some k =>
    let base := sla / 128 * 128
    if b.length == 128 then
      ({ s with mem := csets 0 s.mem (cell home base) b, poison := cset false s.poison line false, errs := cset 0 s.errs line 0,
                lineKey := cset 0 s.lineKey line k }, true)
    else
      match s.homeRead home base 128 slot with
      | (s, none) => (s, false)
      | (s, some old) =>
        if cget 0 s.lineKey line == k then ({ s with mem := csets 0 s.mem (cell home sla) b }, true)
        else
          ({ s with mem := csets 0 s.mem (cell home base) (splice old (sla % 128) b), lineKey := cset 0 s.lineKey line k }, true)

/-- Zero lines with fresh codes and no key (R337, R375). -/
def State.zeroLines (s : State) (p : Nat → Bool) : State :=
  { s with mem := cfilter (fun a => !p (a / 128)) s.mem, poison := cfilter (fun l => !p l) s.poison,
           errs := cfilter (fun l => !p l) s.errs, lineKey := cfilter (fun l => !p l) s.lineKey }

/-! ### Counting (R401, R402) -/

/-- The counters of a set after n occurrences of an event (R401): those that are enabled and select it. -/
def CtrSet.bump (c : CtrSet) (ev n : Nat) : CtrSet :=
  let one (i : Nat) : Nat :=
    if bit (listGet 0 c.sel i) 16 && listGet 0 c.sel i % 2 ^ 16 == ev && !bit c.off i then (listGet 0 c.ctr i + n) % 2 ^ 64 else listGet 0 c.ctr i
  if c.frz then c else { c with ctr := (upto 8).map one }

/-- Count n occurrences of an event for a VD on a slice (R401, R402). -/
def State.count (s : State) (slice vd ev n : Nat) : State :=
  s.modSlice slice fun x =>
    { x with csets := tmap (fun _ c => if c.vd == some vd then c.bump ev n else c) x.csets }

/-! ### The slice cache (R324, R325) -/

/-- Bank of a granule at a virtual address (R120). -/
def bankOf (va : Nat) : Nat := bits va 10 7 ^^^ bits va 14 11
/-- The bank and set of a granule. DESIGN CHOICE: the set is address bits [20:11]. -/
def bankSet (va : Nat) : Nat := bankOf va * 1024 + bits va 20 11

/-- Traffic class: 0 demand, 1 copy, 2 weights, 3 atomics (R324). Operation: 0 read, 1 write, 2 atomic (R325). `full` says that a write
covers its line, of which DRAM then reads nothing (R330). -/
structure Traf where
  cls : Nat := 0
  op : Nat := 0
  full : Bool := false
  hint : Hint := .none
  deriving DecidableEq, Repr

/-- The ways a VD's traffic may allocate in, and whether as first victim; none is no-allocate (R324, R325). Profile 0 before any
WAYPROF, and a profile never written, allow every way. -/
def State.allocWays (s : State) (slice pid vd : Nat) (t : Traf) : Option (List Nat × Bool) :=
  let p := tget s.parts pid
  let ctx := p.bind fun p => tget p.vds vd
  let prof := p.bind fun p => tget p.wprofs ((ctx.map VdCtx.wprof).getD 0)
  let mask := match prof with
    | some f => listGet 0 f.masks t.cls
    | none => 2 ^ 24 - 1
  let pol := match prof with
    | some f => listGet 0 f.pol (t.cls * 3 + t.op)
    | none => 0
  let locked := ((s.slice slice).lockmb + 1) / 2
  let ways := (lanesOf 24 mask).filter fun w => decide (w < 24 - locked)
  if ways.isEmpty || pol == 1 then none
  else some (ways, pol == 2 || t.hint == .nt)

/-- A line of the slice cache of (VD tag, granule). -/
def findSLine (l : List SLine) (vd gran : Nat) (near : Bool) : Option SLine :=
  l.find? fun x => x.vd == vd && x.gran == gran && x.near.isSome == near

/-- Allocate a line for a VD: the lowest free permitted way, else the line marked as first victim, else a choice the spec leaves open. An
eviction is counted for the VD (R325, R402). -/
def State.allocLine (s : State) (slice vd : Nat) (ways : List Nat) (x : SLine) : State :=
  let c := (s.slice slice).scache
  let at' (w : Nat) := c.find? fun y => y.bank == x.bank && y.way == w
  let put (s : State) (w : Nat) := s.modSlice slice fun sl =>
    { sl with scache := { x with way := w } :: sl.scache.filter fun y => !(y.bank == x.bank && y.way == w) }
  match ways.find? fun w => (at' w).isNone with
  | some w => put s w
  | none =>
    let s := s.count slice vd 0x007 1
    match ways.find? fun w => (at' w).any fun y => y.victim with
    | some w => put s w
    | none => let (i, s) := s.choose ways.length; put s (listGet 0 ways i)

/-- A pseudo-channel receives a request and wakes (R332): it is Active. States: 0 active, 1 power-down, 2 self-refresh. -/
def State.wakePch (s : State) (home sla : Nat) : State :=
  let k := bits sla 12 7 ^^^ bits sla 18 13
  s.modSlice home fun x => { x with pch := cset 0 x.pch k 0, pchAt := cset 0 x.pchAt k s.now }

/-- An access at the home passes its slice cache, a hit or a miss that the counters tell (R402): on a miss it enters the bank's miss queue,
which wakes its pseudo-channel (R332), and the line is allocated as the policy says; a write to a line that is held records what DRAM holds
below it. -/
def State.touch (s : State) (home pid vd vdTag gran sla : Nat) (t : Traf) : State :=
  let s := match findSLine (s.slice home).scache vdTag gran false with
    | some _ => s.count home vd 0x005 1
    | none =>
      let s := s.count home vd 0x006 1
      let s := (if t.full then s else s.count home vd 0x008 1).wakePch home sla
      match s.allocWays home pid vd t with
      | none => s
      | some (ways, fv) =>
        s.allocLine home vd ways { bank := bankSet (gran * 128), way := 0, vd := vdTag, gran := gran, line := lineAt home sla, victim := fv }
  if t.op == 0 then s
  else
    let old := cgets 0 s.mem (cell home (sla / 128 * 128)) 128
    s.modSlice home fun sl => { sl with scache := sl.scache.map fun y =>
      if y.vd == vdTag && y.gran == gran && y.near.isNone && y.old.isNone then { y with old := some old } else y }

/-- Drop home lines without writing them back (R337): what DRAM held below a dirty line is what memory reads again. -/
def dropDirty (m : Memory) (l : List SLine) : Memory :=
  l.foldl (fun m y => match y.old with
    | some b => csets 0 m (y.line * 128) b
    | none => m) m

end Sys2Proof.Machine
end

