-- ==== Sys2Proof/Machine/Walk.lean ====
section
/-!
DEFINITION. Translation (R318 to R323): the page walk of both stages with the walk cache, the owner table, the route TLB and the frame cache,
and reads and writes of an engine by virtual address. The layout of a page table entry is that of the RISC-V privileged architecture, which R320 names. PRESUMED
(notes/assumptions/13.md).
-/
namespace Sys2Proof.Machine

/-- Canonical addresses (R115): bits [63:57] all equal bit 56. -/
def canonical (va : Nat) : Bool := let t := va / 2 ^ 56 % 2 ^ 8; t == 0 || t == 255
/-- The VD tag of an address: 0 in the partition-global range (R115). -/
def vdTag (vd va : Nat) : Nat := if bit va 56 then 0 else vd

/-- A page table entry read from memory. -/
structure Pte where
  v : Bool
  r : Bool
  w : Bool
  x : Bool
  u : Bool
  a : Bool
  d : Bool
  rsw : Nat
  ppn : Nat
  rsv : Bool
  pbmt : Nat
  n : Bool
  deriving DecidableEq, Repr

/-- The fields of a 64-bit entry. -/
def pteOf (e : Nat) : Pte :=
  { v := bit e 0, r := bit e 1, w := bit e 2, x := bit e 3, u := bit e 4, a := bit e 6, d := bit e 7, rsw := bits e 9 8,
    ppn := bits e 53 10, rsv := bits e 60 54 != 0, pbmt := bits e 62 61, n := bit e 63 }

/-- Neither pointer nor leaf: invalid, write without read, or a reserved bit (R320, cause 1). -/
def Pte.bad (e : Pte) : Bool := !e.v || (!e.r && e.w) || e.rsv || e.pbmt == 3
def Pte.leaf (e : Pte) : Bool := e.r || e.x
/-- A pointer with a bit that only leaves have, a leaf whose page number is not aligned to its level, or an N bit outside 64 KiB
leaves. -/
def Pte.malformed (e : Pte) (level : Nat) : Bool :=
  if e.leaf then e.ppn % 2 ^ (9 * level) != 0 || (e.n && (level != 0 || e.ppn % 16 != 8))
  else level == 0 || e.d || e.a || e.u || e.pbmt != 0 || e.n

/-- The address a leaf maps. -/
def Pte.target (e : Pte) (level va : Nat) : Nat :=
  let page := if e.n then e.ppn / 16 * 16 + bits va 15 12 else e.ppn
  if level == 0 then page * 4096 + va % 4096 else e.ppn * 4096 + va % 2 ^ (12 + 9 * level)

/-- The cause of a leaf that does not permit an access: 2 permission, 3 A or D (R326, R329). -/
def Pte.deny (e : Pte) (a : Acc) : Option Nat :=
  if (!e.u && !a.sup) || (a.r && !e.r) || (a.w && !e.w) || (a.x && !e.x) then some 2
  else if !e.a || (a.w && !e.d) then some 3
  else none

/-- A result with the state that reading it leaves. -/
abbrev Res (α : Type) : Type := State × Except PFault α

/-- Whether a slice's firewall takes messages of a partition (R21, R374). -/
def State.admits (s : State) (slice pid : Nat) : Bool :=
  let f := (tget s.fw slice).getD {}
  f.asgn && !f.hold && f.pid == pid

/-- Where a slice finds a partition address: at a home whose edge takes its message, in a granule that is not mid-migration (R21, R127, R319,
R374, R386). -/
def State.paHome (s : State) (slice : Nat) (map : List Nat) (pa : Nat) : Except PFault (Nat × Nat) :=
  match homeOf map pa with
  | none => .error { kind := .stage2, cause := 4 }
  | some (home, sla) =>
    let pid := ((tget s.fw slice).getD {}).pid
    if s.homeDown home pid pa then .error { kind := .home, home := home }
    else if home != slice && !s.admits home pid then .error { kind := .firewall, home := home }
    else .ok (home, sla)

/-- Eight bytes at a partition address through a slice's map, read at the channel; the cause of a second-stage fault, or poison, where there
are none. -/
def State.readPa8 (s : State) (slice : Nat) (map : List Nat) (pa key : Nat) : Res Nat :=
  match s.paHome slice map pa with
  | .error f => (s, .error f)
  | .ok (home, sla) => match (s.wakePch home sla).homeRead home sla 8 key with
    | (s, none) => (s, .error { kind := .poison })
    | (s, some b) => (s, .ok (ofBytes b))

/-- The table that a walk cache holds for a step of a walk (R320). -/
def State.wcFind (s : State) (slice stage vd level upper : Nat) : Option Nat :=
  ((s.slice slice).wcache.find? fun e => e.stage == stage && e.vd == vd && e.level == level && e.upper == upper).map WcEnt.table
/-- A non-leaf entry enters the walk cache, which holds 1,024 of each stage; a full one loses an entry the spec does not name. -/
def State.wcFill (s : State) (slice : Nat) (e : WcEnt) : State :=
  let l := (s.slice slice).wcache
  let same := l.filter fun x => x.stage == e.stage
  if same.length < 1024 then s.modSlice slice fun x => { x with wcache := e :: l }
  else
    let (i, s) := s.choose same.length
    let gone := listGet e same i
    s.modSlice slice fun x => { x with wcache := e :: l.filter fun y => y != gone }

/-- What a second-stage translation gives. -/
structure Leaf2 where
  pa : Nat
  level : Nat
  acc : Acc
  pbmt : Nat
  ksel : Nat
  deriving DecidableEq, Repr

/-- One step of the second-stage walk of a slice's walker (Sv57x4): a leaf, or the next table. The top level has two more index bits. -/
def State.walk2At (slice : Nat) (map : List Nat) (vd gpa : Nat) (acc : Acc) (level table : Nat) (s : State) : Res (Leaf2 ⊕ Nat) :=
  let upper := gpa / 2 ^ (12 + 9 * level)
  let acc : Acc := { acc with sup := false }
  match s.wcFind slice 2 vd level upper with
  | some next => (s, .ok (.inr next))
  | none => match s.readPa8 slice map (table + 8 * (if level == 4 then bits gpa 58 48 else upper % 512)) 0 with
    | (s, .error f) => (s, .error (if f.kind == .firewall then f else { f with gpa := gpa, level := level }))
    | (s, .ok w) =>
      let e := pteOf w
      let flt (c : Nat) : Res (Leaf2 ⊕ Nat) := (s, .error { kind := .stage2, cause := c, gpa := gpa, level := level })
      if e.bad || e.malformed level then flt 1
      else if e.leaf then
        match e.deny acc with
        | some c => flt c
        | none => (s, .ok (.inl { pa := e.target level gpa, level := level, acc := { r := e.r, w := e.w && e.d, x := e.x }, pbmt := e.pbmt, ksel := e.rsw }))
      else (s.wcFill slice { stage := 2, vd := vd, level := level, upper := upper, table := e.ppn * 4096 }, .ok (.inr (e.ppn * 4096)))
/-- The second-stage walk from a level down; an entry of level 0 is a leaf or malformed. -/
def State.walk2Go (slice : Nat) (map : List Nat) (vd gpa : Nat) (acc : Acc) : Nat → Nat → State → Res Leaf2
  | 0, table, s => match State.walk2At slice map vd gpa acc 0 table s with
    | (s, .error f) => (s, .error f)
    | (s, .ok (.inl x)) => (s, .ok x)
    | (s, .ok (.inr _)) => (s, .error { kind := .stage2, cause := 1, gpa := gpa, level := 0 })
  | l + 1, table, s => match State.walk2At slice map vd gpa acc (l + 1) table s with
    | (s, .error f) => (s, .error f)
    | (s, .ok (.inl x)) => (s, .ok x)
    | (s, .ok (.inr next)) => State.walk2Go slice map vd gpa acc l next s

/-- The second stage (R318): the identity for VD 0; a root that is not Sv57x4 faults every access. -/
def State.walk2 (s : State) (slice : Nat) (map : List Nat) (vd : Nat) (ctx : VdCtx) (gpa : Nat) (acc : Acc) : Res Leaf2 :=
  if vd == 0 then (s, .ok { pa := gpa, level := 4, acc := { r := true, w := true, x := true }, pbmt := 0, ksel := 0 })
  else if ctx.s2root / 2 ^ 60 != 10 then (s, .error { kind := .stage2, cause := 1, gpa := gpa, level := 4 })
  else State.walk2Go slice map vd gpa acc 4 (ctx.s2root % 2 ^ 44 * 4096) s

/-- The key slot that a KSEL selects (R320). -/
def VdCtx.keySlot (c : VdCtx) : Nat → Nat
  | 1 => c.ks1
  | 2 => c.ks2
  | 3 => c.ks3
  | _ => 0

/-- What a first-stage translation gives. -/
structure Leaf1 where
  gpa : Nat
  level : Nat
  acc : Acc
  pbmt : Nat
  deriving DecidableEq, Repr

/-- One step of the first-stage walk of a slice's walker (Sv57): a leaf, or the next table. The tables lie at guest addresses; a
second-stage fault on reading one is a walk fault (R127). -/
def State.walk1At (slice : Nat) (map : List Nat) (vd : Nat) (ctx : VdCtx) (va : Nat) (acc : Acc) (level table : Nat) (s : State) : Res (Leaf1 ⊕ Nat) :=
  let upper := va / 2 ^ (12 + 9 * level)
  let at' := table + 8 * (upper % 512)
  let inTable (f : PFault) : PFault :=
    if f.kind == .firewall then f
    else { kind := if f.kind == .stage2 then .walk else f.kind, cause := f.cause, gpa := at', level := level, flag := 1, home := f.home }
  match s.wcFind slice 1 vd level upper with
  | some next => (s, .ok (.inr next))
  | none => match s.walk2 slice map vd ctx at' { r := true } with
    | (s, .error f) => (s, .error (inTable f))
    | (s, .ok l2) => match s.readPa8 slice map l2.pa (ctx.keySlot l2.ksel) with
      | (s, .error f) => (s, .error (inTable f))
      | (s, .ok w) =>
        let e := pteOf w
        let flt (c : Nat) : Res (Leaf1 ⊕ Nat) := (s, .error { kind := .stage1, cause := c })
        if e.bad || e.malformed level then flt 1
        else if e.leaf then
          match e.deny acc with
          | some c => flt c
          | none => (s, .ok (.inl { gpa := e.target level va, level := level, acc := { r := e.r, w := e.w && e.d, x := e.x }, pbmt := e.pbmt }))
        else (s.wcFill slice { stage := 1, vd := vd, level := level, upper := upper, table := e.ppn * 4096 }, .ok (.inr (e.ppn * 4096)))
/-- The first-stage walk from a level down; an entry of level 0 is a leaf or malformed. -/
def State.walk1Go (slice : Nat) (map : List Nat) (vd : Nat) (ctx : VdCtx) (va : Nat) (acc : Acc) : Nat → Nat → State → Res Leaf1
  | 0, table, s => match State.walk1At slice map vd ctx va acc 0 table s with
    | (s, .error f) => (s, .error f)
    | (s, .ok (.inl x)) => (s, .ok x)
    | (s, .ok (.inr _)) => (s, .error { kind := .stage1, cause := 1 })
  | l + 1, table, s => match State.walk1At slice map vd ctx va acc (l + 1) table s with
    | (s, .error f) => (s, .error f)
    | (s, .ok (.inl x)) => (s, .ok x)
    | (s, .ok (.inr next)) => State.walk1Go slice map vd ctx va acc l next s

/-- A translation: the home, the address there, the partition address, attributes (R120, R322), and the level of the second-stage leaf. -/
structure Xl where
  home : Nat
  sla : Nat
  pa : Nat
  gpa : Nat
  key : Nat
  cache : Nat
  big : Bool
  acc : Acc
  level : Nat := 0
  deriving DecidableEq, Repr

/-- Whether a partition address lies in a fenced range of a scrub job (R337). -/
def State.fenced (s : State) (pid pa : Nat) : Bool :=
  s.jobs.any fun e => e.1 / 4 == pid && e.2.ranges.any fun r => decide (r.1 ≤ pa) && decide (pa < r.1 + r.2)

/-- A walk without the owner table: the address, the context, both stages, the fence and the map (R318 to R320, R337). Sv57 translates no
address that is not canonical. -/
def State.walkVa (s : State) (slice pid vd va : Nat) (acc : Acc) : Res Xl :=
  match tget s.parts pid with
  | none => (s, .error { kind := .stage1, cause := 1 })
  | some p =>
    let own := (tget p.vds vd).getD {}
    let glob := bit va 56
    if !canonical va then (s, .error { kind := .stage1, cause := 1 })
    else if glob && !own.glob then (s, .error { kind := .stage1, cause := 4 })
    else
      let vd := if glob then 0 else vd
      let ctx := (tget p.vds vd).getD {}
      let map := (s.slice slice).map
      if ctx.s1root / 2 ^ 60 != 10 then (s, .error { kind := .stage1, cause := 1 })
      else match State.walk1Go slice map vd ctx va acc 4 (ctx.s1root % 2 ^ 44 * 4096) s with
        | (s, .error f) => (s, .error f)
        | (s, .ok l1) => match s.walk2 slice map vd ctx l1.gpa acc with
          | (s, .error f) => (s, .error f)
          | (s, .ok l2) =>
            let flt (c : Nat) : Res Xl := (s, .error { kind := .stage2, cause := c, gpa := l1.gpa, level := l2.level })
            if s.fenced pid l2.pa then flt 5
            else match homeOf map l2.pa with
              | none => flt 4
              | some (home, sla) =>
                let pb := if l1.pbmt != 0 then l1.pbmt else l2.pbmt
                (s, .ok { home := home, sla := sla, pa := l2.pa, gpa := l1.gpa, key := ctx.keySlot l2.ksel,
                          cache := if pb != 0 then 0 else if ctx.near then 2 else 1,
                          big := decide (1 ≤ l1.level) && decide (1 ≤ l2.level), level := l2.level,
                          acc := { r := l1.acc.r && l2.acc.r, w := l1.acc.w && l2.acc.w, x := l1.acc.x && l2.acc.x } })
/-- Whether an access to every page of n bytes from an address on translates (R327); nothing changes. -/
def State.translates (s : State) (slice pid vd va n : Nat) (acc : Acc) : Bool :=
  (upto ((va % 4096 + n + 4095) / 4096)).all fun i => match (s.walkVa slice pid vd (va / 4096 * 4096 + 4096 * i) acc).2 with
    | .ok _ => true
    | .error _ => false

/-- The owner table (R323): 16 bytes for each 4 KiB frame. DESIGN CHOICE: the VA in bytes 0 to 7, the VD in bytes 8 and 9, VALID in bit 0
of byte 10. -/
def ownerEntry (vd va : Nat) : List Byte := toBytes 8 (va / 4096 * 4096) ++ toBytes 2 vd ++ toBytes 6 1

/-- Check the owner table for one 4 KiB frame of a leaf and enter a writable mapping (R323). -/
def State.ownerFrame (slice pid vd : Nat) (x : Xl) (s : State) (base va pa : Nat) : Res Unit :=
  let tag := vdTag vd va
  match s.paHome slice (s.slice slice).map (base + 16 * (pa / 4096)) with
  | .error f => (s, .error (if f.kind == .firewall then f else { f with gpa := x.gpa, level := x.level }))
  | .ok (home, sla) => match (s.wakePch home sla).homeRead home sla 16 0 with
    | (s, none) => (s, .error { kind := .poison })
    | (s, some b) =>
      let e := ofBytes b
      if bit e 80 then
        if e % 2 ^ 64 == va / 4096 * 4096 && bits e 79 64 == tag then (s, .ok ())
        else (s, .error { kind := .aliasF, gpa := x.gpa, level := x.level })
      else if x.acc.w then
        ((s.homeWrite home sla 0 (ownerEntry tag va)).1.modPart pid fun p => { p with owned := (pa / 4096, tag, va / 4096) :: p.owned }, .ok ())
      else (s, .ok ())

/-- Check the owner table for every frame of the piece that the route TLB and the frame cache will hold: 512 of a 2 MiB piece (R120, R323). -/
def State.ownerCheck (s : State) (slice pid vd va : Nat) (x : Xl) : State × Option PFault :=
  match (tget s.parts pid).bind Part.ownerTab with
  | none => (s, none)
  | some base =>
    let n := if x.big then 512 else 1
    let low := (upto n).map fun i => i * 4096
    let va0 := if x.big then va / 2 ^ 21 * 2 ^ 21 else va
    let pa0 := if x.big then x.pa / 2 ^ 21 * 2 ^ 21 else x.pa
    match low.foldl (fun (r : Res Unit) o => match r with
      | (s, .ok _) => State.ownerFrame slice pid vd x s base (va0 + o) (pa0 + o)
      | r => r) (s, .ok ()) with
    | (s, .error f) => (s, some f)
    | (s, .ok _) => (s, none)

/-- A whole walk: both stages, the fence, the map and the owner table (R320, R323). -/
def State.fullWalk (s : State) (slice pid vd va : Nat) (acc : Acc) : Res Xl :=
  match s.walkVa slice pid vd va acc with
  | (s, .error f) => (s, .error f)
  | (s, .ok x) =>
    match s.ownerCheck slice pid vd va x with
    | (s, some f) => (s, .error f)
    | (s, none) => (s, .ok x)

/-! ### Residents and the route TLB (R120, R121) -/

/-- Whether a block's resources on its core are held. -/
def ResSt.held : ResSt → Bool
  | .resident => true
  | .stopping => true
  | .saving => true
  | .restoring => true
  | .moving => true
  | _ => false
/-- Whether a block occupies a core; a tile block also occupies its follower. -/
def Block.on (b : Block) (slice core : Nat) : Bool :=
  b.res.held && b.slice == slice && (b.core == core || (b.isTile && b.core + 1 == core))
/-- The blocks on a core, in the order of the table. -/
def State.residents (s : State) (slice core : Nat) : List (Nat × Block) := s.blocks.filter fun e => e.2.on slice core

/-- log2 of a block's share of the 128 sets of a route TLB among n blocks (R121). -/
def tlbBits (n : Nat) : Nat := Nat.log2 (128 / max n 1)
/-- The range of a block among those of a core: its first set, and log2 of its size (R121). -/
def tlbRange (tblk : List Nat) (blk : Nat) : Option (Nat × Nat) :=
  (findIdx (fun b => b == blk) tblk).map fun i => (i * 2 ^ tlbBits tblk.length, tlbBits tblk.length)
/-- Partition the sets of a core's route TLB among the blocks resident on it (R121): entries of a block whose range shrinks or moves are
dropped. The ranges follow one another in the order in which their blocks came. DESIGN CHOICE (notes/assumptions/81.md). -/
def CoreSt.repart (c : CoreSt) (res : List Nat) : CoreSt :=
  let l := (c.tblk.filter fun b => res.contains b) ++ res.filter fun b => !c.tblk.contains b
  let kept (b : Nat) : Bool := match tlbRange c.tblk b, tlbRange l b with
    | some x, some y => x.1 == y.1 && decide (x.2 ≤ y.2)
    | _, _ => false
  if l == c.tblk then c else { c with tblk := l, tlb := c.tlb.filter fun e => kept e.blk }
/-- Bring the partition of every core's route TLB up to date with its residents. -/
def State.settleTlbs (s : State) : State :=
  { s with cores := tmap (fun k c => c.repart ((s.residents (k / 4) (k % 4)).map Prod.fst)) s.cores }
/-- The set of a page in a block's range. -/
def tlbSet (k va : Nat) (big : Bool) : Nat := if big then bits va (20 + k) 21 else bits va (11 + k) 12
/-- The virtual page number of an address. -/
def vpnOf (va : Nat) (big : Bool) : Nat := if big then va / 2 ^ 21 else va / 4096
/-- Look a page of a VD up in the block's range: both sizes are probed, and a global entry matches every VD (R120, R121). -/
def State.tlbFind (s : State) (slice core blk vd va : Nat) : Option TlbE :=
  let c := s.core (coreKey slice core)
  match tlbRange c.tblk blk with
  | none => none
  | some (base, k) => c.tlb.find? fun e => e.blk == blk && (e.vd == vd || e.glob) && e.vpn == vpnOf va e.big && e.set == base + tlbSet k va e.big
/-- Enter a page; a full set of 16 ways loses an entry the spec does not name. -/
def State.tlbFill (s : State) (slice core : Nat) (e : TlbE) : State :=
  let l := (s.core (coreKey slice core)).tlb.filter fun x => !(x.blk == e.blk && x.big == e.big && x.vpn == e.vpn)
  let same := l.filter fun x => x.blk == e.blk && x.set == e.set
  if same.length < 16 then s.modCore (coreKey slice core) fun c => { c with tlb := e :: l }
  else
    let (i, s) := s.choose same.length
    let gone := listGet e same i
    s.modCore (coreKey slice core) fun c => { c with tlb := e :: l.filter fun x => x != gone }

/-- The entry of a translation for a block (R120): G for the partition-global range. -/
def tlbOf (blk vd va : Nat) (x : Xl) : TlbE :=
  { blk := blk, set := 0, vd := vd, vpn := vpnOf va x.big, big := x.big, home := x.home, acc := x.acc, cache := x.cache, key := x.key, glob := bit va 56 }
/-- Enter a page in its set of the block's range; a block without one enters nothing. -/
def State.tlbEnter (s : State) (slice core va : Nat) (e : TlbE) : State :=
  match tlbRange (s.core (coreKey slice core)).tblk e.blk with
  | none => s
  | some (base, k) => s.tlbFill slice core { e with set := base + tlbSet k va e.big }

/-! ### The frame cache (R322) -/

/-- A frame-cache entry for a page: 16 ways, and a full set loses an entry the spec does not name. The set is the page number modulo 2,048.
DESIGN CHOICE (notes/assumptions/84.md). -/
def State.frameFill (s : State) (home : Nat) (e : FrameE) : State :=
  let l := (s.slice home).fcache.filter fun x => !(x.vd == e.vd && x.big == e.big && x.vpn == e.vpn)
  let same := l.filter fun x => x.vpn % 2048 == e.vpn % 2048
  if same.length < 16 then s.modSlice home fun x => { x with fcache := e :: l }
  else
    let (i, s) := s.choose same.length
    let gone := listGet e same i
    s.modSlice home fun x => { x with fcache := e :: l.filter fun y => y != gone }
def State.frameFind (s : State) (home vdt va : Nat) : Option FrameE :=
  (s.slice home).fcache.find? fun x => x.vd == vdt && x.vpn == vpnOf va x.big
/-- The frame of a translation. -/
def frameOf (vdt va : Nat) (x : Xl) : FrameE :=
  let low := va % (if x.big then 2 ^ 21 else 4096)
  { home := x.home, vd := vdt, vpn := vpnOf va x.big, big := x.big, sla := x.sla - low, pa := x.pa - low, key := x.key, acc := x.acc, cache := x.cache }
/-- Whether a route entry and a frame, got by two walks, are of one translation (R143): the home, CACHE, and a frame that permits the access. -/
def FrameE.agrees (fr : FrameE) (home cache : Nat) (a : Acc) : Bool :=
  fr.home == home && fr.cache == cache && !((a.r && !fr.acc.r) || (a.w && !fr.acc.w) || (a.x && !fr.acc.x))
/-- Drop what a core holds of a page for a block, or what a home holds of a page: the next access walks again. -/
def State.routeDrop (s : State) (slice core blk va : Nat) : State :=
  s.modCore (coreKey slice core) fun c => { c with tlb := c.tlb.filter fun e => !(e.blk == blk && e.vpn == vpnOf va e.big) }
def State.frameDrop (s : State) (home vdt va : Nat) : State :=
  s.modSlice home fun x => { x with fcache := x.fcache.filter fun e => !(e.vd == vdt && e.vpn == vpnOf va e.big) }

/-! ### An engine's own accesses -/

/-- Whose route TLB an engine's access uses: a core and a block resident on it. -/
structure Via where
  core : Nat
  blk : Nat
  deriving DecidableEq, Repr

/-- The route entry of an engine's access: from the route TLB of the core that works for the block, else by a walk (R120, R122, R195). -/
def State.routeEnt (s : State) (slice pid vd va : Nat) (acc : Acc) (via : Option Via) : Res TlbE :=
  let hit := via.bind fun v => (s.tlbFind slice v.core v.blk vd va).bind fun e =>
    if (acc.r && !e.acc.r) || (acc.w && !e.acc.w) || (acc.x && !e.acc.x) then none else some e
  match hit with
  | some e => (s, .ok e)
  | none =>
    let s := if via.isSome then s.count slice vd 0x009 1 else s
    match (s.count slice vd 0x00A 1).fullWalk slice pid vd va acc with
    | (s, .error f) => (s, .error f)
    | (s, .ok x) =>
      let e := tlbOf ((via.map Via.blk).getD 0) vd va x
      ((via.map fun v => s.tlbEnter slice v.core va e).getD s, .ok e)

/-- The frame of an address at its home: from the frame cache, else by a walk of the home's walker (R322). -/
def State.frameEnt (s : State) (home pid vd va : Nat) (acc : Acc) : Res FrameE :=
  match s.frameFind home (vdTag vd va) va with
  | some e => (s, .ok e)
  | none => match (s.count home vd 0x00A 1).fullWalk home pid vd va acc with
    | (s, .error f) => (s, .error f)
    | (s, .ok x) => let e := frameOf (vdTag vd va) va x; (if x.home == home then s.frameFill home e else s, .ok e)

/-- Where an access with a route entry goes (R14, R21, R127): the home's slice is not in reset, its firewall takes the message, its frame
cache translates, and the granule is not mid-migration. -/
def State.reachAt (s : State) (pid vd va : Nat) (acc : Acc) (e : TlbE) : Res (Option Xl) :=
  if (s.slice e.home).inReset then (s, .error { kind := .home, home := e.home })
  else if !s.admits e.home pid then (s, .error { kind := .firewall, home := e.home })
  else match s.frameEnt e.home pid vd va acc with
    | (s, .error f) => (s, .error f)
    | (s, .ok fr) =>
      if !fr.agrees e.home e.cache acc then (s.frameDrop e.home (vdTag vd va) va, .ok none)
      else
        let low := va % (if fr.big then 2 ^ 21 else 4096)
        if s.homeDown e.home pid (fr.pa + low) then (s, .error { kind := .home, home := e.home })
        else (s, .ok (some { home := e.home, sla := fr.sla + low, pa := fr.pa + low, gpa := 0, key := fr.key, cache := e.cache, big := fr.big, acc := e.acc }))

/-- Drop the route entry of an engine's access. -/
def State.viaDrop (s : State) (slice va : Nat) (via : Option Via) : State := match via with
  | some v => s.routeDrop slice v.core v.blk va
  | none => s
/-- Where an engine's access to a virtual address goes: the route TLB or the walker names the home, and the home translates (R14). A frame
of another translation makes the engine walk again, once (R143); a refusal by a firewall drops the route entry (R127). -/
def State.reach (s : State) (slice pid vd va : Nat) (acc : Acc) (via : Option Via := none) : Res Xl :=
  match s.routeEnt slice pid vd va acc via with
  | (s, .error f) => (s, .error f)
  | (s, .ok e) => match s.reachAt pid vd va acc e with
    | (s, .error f) => (if f.kind == .firewall then s.viaDrop slice va via else s, .error f)
    | (s, .ok (some x)) => (s, .ok x)
    | (s, .ok none) => match (s.viaDrop slice va via).routeEnt slice pid vd va acc via with
      | (s, .error f) => (s, .error f)
      | (s, .ok e) => match s.reachAt pid vd va acc e with
        | (s, .error f) => (if f.kind == .firewall then s.viaDrop slice va via else s, .error f)
        | (s, .ok (some x)) => (s, .ok x)
        | (s, .ok none) => (s, .error { kind := .home, home := e.home })

/-- Read n bytes by virtual address, a line at a time; `fuel` bounds the lines. -/
def State.vmReadGo (slice pid vd : Nat) (t : Traf) (via : Option Via) : Nat → State → Nat → Nat → Res (List Byte)
  | 0, s, _, _ => (s, .ok [])
  | k + 1, s, va, n =>
    if n == 0 then (s, .ok [])
    else
      let m := min n (128 - va % 128)
      match s.reach slice pid vd va { r := true } via with
      | (s, .error f) => (s, .error f)
      | (s, .ok x) =>
        match (s.touch x.home pid vd (vdTag vd va) (va / 128) x.sla t).homeRead x.home x.sla m x.key with
        | (s, none) => (s, .error { kind := .poison })
        | (s, some b) =>
          match State.vmReadGo slice pid vd t via k s (va + m) (n - m) with
          | (s, .ok l) => (s, .ok (b ++ l))
          | r => r

/-- Read n bytes by virtual address as an engine of a slice. -/
def State.vmRead (s : State) (slice pid vd va n : Nat) (t : Traf := {}) (via : Option Via := none) : Res (List Byte) :=
  State.vmReadGo slice pid vd t via (n / 128 + 2) s va n

/-- Bytes written at a partition address within one line: each aligned 8 of them that lie in a VD's fault doorbell page are an answer to a
fault record (R321, R328). -/
def State.door (s : State) (pid pa : Nat) (b : List Byte) : State :=
  match ((tget s.parts pid).map Part.vds).bind fun l => l.find? fun e => e.2.frdoor != 0 && e.2.frdoor / 4096 == pa / 4096 with
  | none => s
  | some (vd, _) =>
    let at' := (8 - pa % 8) % 8
    { s with doors := s.doors ++ (upto ((b.length - at') / 8)).map fun i => (pid, vd, ofBytes ((b.drop (at' + 8 * i)).take 8)) }

/-- Write bytes by virtual address, a line at a time. -/
def State.vmWriteGo (slice pid vd : Nat) (t : Traf) (via : Option Via) : Nat → State → Nat → List Byte → State × Option PFault
  | 0, s, _, _ => (s, none)
  | k + 1, s, va, b =>
    if b.isEmpty then (s, none)
    else
      let m := min b.length (128 - va % 128)
      match s.reach slice pid vd va { w := true } via with
      | (s, .error f) => (s, some f)
      | (s, .ok x) =>
        match (s.touch x.home pid vd (vdTag vd va) (va / 128) x.sla { t with full := m == 128 }).homeWrite x.home x.sla x.key (b.take m) with
        | (s, false) => (s, some { kind := .poison })
        | (s, true) => State.vmWriteGo slice pid vd t via k (s.door pid x.pa (b.take m)) (va + m) (b.drop m)

/-- Write bytes by virtual address as an engine of a slice. -/
def State.vmWrite (s : State) (slice pid vd va : Nat) (b : List Byte) (t : Traf := { op := 1 }) (via : Option Via := none) : State × Option PFault :=
  State.vmWriteGo slice pid vd t via (b.length / 128 + 2) s va b

/-- Write bytes at a partition address, within one line: false when its home does not take them. -/
def State.paStore (s : State) (slice pa : Nat) (b : List Byte) : State × Option PFault :=
  match s.paHome slice (s.slice slice).map pa with
  | .error f => (s, some f)
  | .ok (home, sla) => (((s.wakePch home sla).homeWrite home sla 0 (b.take (128 - pa % 128))).1, none)

/-- Read bytes of one line at a partition address. -/
def State.paRead (s : State) (slice pa n : Nat) : State × Option (List Byte) :=
  match s.paHome slice (s.slice slice).map pa with
  | .error _ => (s, none)
  | .ok (home, sla) => (s.wakePch home sla).homeRead home sla n 0

end Sys2Proof.Machine
end

