-- ==== Sys2Proof/Machine/Report.lean ====
section
/-!
DEFINITION. Reports of faults (R326 to R329), message-signalled interrupts (R376, R424) and events (R378, R382).
-/
namespace Sys2Proof.Machine

/-- Post an event for a partition; it tells the MSIs discarded since the last (R424). -/
def State.postEvent (s : State) (pid : Nat) (k : EvKind) (slice arg : Nat) : State :=
  { s with events := s.events ++ [{ pid := some pid, kind := k, slice := slice, arg := arg, lost := cget 0 s.msiLost pid }],
           msiLost := cset 0 s.msiLost pid 0 }

/-- Post an event record of the management port, which names the slice, its partition and the cause; vector 1 follows (R378, R382). -/
def State.portEvent (s : State) (k : EvKind) (slice arg : Nat) : State :=
  let f := (tget s.fw slice).getD {}
  { s with events := s.events ++ [{ pid := none, kind := k, part := if f.asgn then some f.pid else none, slice := slice, arg := arg }], msix := s.msix ++ [1] }

/-- The key of hart h of a partition: its slice's position in the list and its number there (R376). -/
def State.hartKeyOf (s : State) (pid h : Nat) : Option Nat := (((tget s.parts pid).map Part.slices).getD [])[h / 8]?.map fun k => k * 8 + h % 8
/-- An identity becomes pending in a file of a hart's IMSIC, resident or not (R421, R424). -/
def State.pendFile (s : State) (pid h file iid : Nat) : State :=
  match s.hartKeyOf pid h with
  | none => s
  | some k =>
    let x := (tget s.harts k).getD {}
    if iid == 0 || iid ≥ 2048 then s else { s with harts := tput s.harts k { x with eip := cset 0 x.eip file (cget 0 x.eip file ||| 2 ^ iid) } }

/-- Write an MSI to a file of hart h: file f lies at IFBASE + 65,536 · h + 4,096 · f (R376). DESIGN CHOICE (notes/assumptions/31.md): the S file of a hart comes first
and its guest files follow, a page each. -/
def State.sendMsi (s : State) (pid ifbase h f iid : Nat) : State :=
  { s with irqs := s.irqs ++ [(pid, ifbase * 2 ^ 16 + 65536 * h + 4096 * f, iid)] }.pendFile pid h f iid
/-- Deliver an identity by MSI to a VD's guest file (R376, R424). -/
def State.msi (s : State) (slice pid vd iid : Nat) : State :=
  let e := cget 0 (s.slice slice).gft vd
  let rt := (tget s.routes slice).getD {}
  let fw := (tget s.fw slice).getD {}
  let hart := bits e 10 4
  let gf := e % 16
  if rt.pid != fw.pid then s
  else if !bit e 31 || gf == 0 || hart ≥ rt.nharts then { s with msiLost := cset 0 s.msiLost pid (cget 0 s.msiLost pid + 1) }
  else s.sendMsi pid rt.ifbase hart gf iid

/-- The APLIC sends the MSI of a source that is pending and enabled, inside the region only (R376). -/
def State.aplicSend (s : State) (slice src : Nat) : State :=
  let a := (s.slice slice).aplic
  let rt := (tget s.routes slice).getD {}
  let fw := (tget s.fw slice).getD {}
  let t := cget 0 a.tgt src
  if !(a.ie && bit a.pend src && bit a.en src && cget 0 a.cfg src % 8 != 0) then s
  else
    let s := s.modSlice slice fun x => { x with aplic := { a with pend := setBit a.pend src false } }
    if rt.pid != fw.pid || !fw.asgn || bits t 31 18 ≥ rt.nharts || bits t 17 12 > 15 then s
    else s.sendMsi fw.pid rt.ifbase (bits t 31 18) (bits t 17 12) (t % 2048)
/-- A device of the slice raises its source: the VIRTIO device's is 1. DESIGN CHOICE (notes/assumptions/65.md): the spec numbers no source. -/
def State.deviceIrq (s : State) (slice src : Nat) : State :=
  (s.modSlice slice fun x => { x with aplic := { x.aplic with pend := if cget 0 x.aplic.cfg src % 8 == 0 then x.aplic.pend else setBit x.aplic.pend src true } }).aplicSend slice src
/-- Bits of the APLIC's register maps: the sources below 32 of a mask. -/
def Aplic.read (a : Aplic) (off : Nat) : Nat :=
  if off == 0 then 0x80000004 + (if a.ie then 256 else 0)
  else if off < 0x1000 && off % 4 == 0 then cget 0 a.cfg (off / 4)
  else if off == 0x1C00 || off == 0x1D00 then a.pend % 2 ^ 32
  else if off == 0x1E00 then a.en % 2 ^ 32
  else if 0x3004 ≤ off && off < 0x4000 && off % 4 == 0 then cget 0 a.tgt ((off - 0x3000) / 4)
  else 0
/-- A write of the APLIC's registers. PRESUMED (notes/assumptions/65.md): the offsets of the RISC-V AIA; sources 1 to 31. -/
def Aplic.write (a : Aplic) (off v : Nat) : Aplic :=
  let live := maskOf ((upto 31).filterMap fun i => if cget 0 a.cfg (i + 1) % 8 != 0 then some (i + 1) else none)
  if off == 0 then { a with ie := bit v 8 }
  else if off < 0x80 && off % 4 == 0 then
    if v % 8 == 0 then { a with cfg := cset 0 a.cfg (off / 4) 0, pend := setBit a.pend (off / 4) false, en := setBit a.en (off / 4) false, tgt := cset 0 a.tgt (off / 4) 0 }
    else { a with cfg := cset 0 a.cfg (off / 4) (v % 8) }
  else if off == 0x1C00 then { a with pend := a.pend ||| (v &&& live) }
  else if off == 0x1CDC then { a with pend := a.pend ||| (2 ^ (v % 32) &&& live) }
  else if off == 0x1D00 then { a with pend := a.pend - (a.pend &&& v) }
  else if off == 0x1DDC then { a with pend := setBit a.pend (v % 32) false }
  else if off == 0x1E00 then { a with en := a.en ||| (v &&& live) }
  else if off == 0x1EDC then { a with en := a.en ||| (2 ^ (v % 32) &&& live) }
  else if off == 0x1F00 then { a with en := a.en - (a.en &&& v) }
  else if off == 0x1FDC then { a with en := setBit a.en (v % 32) false }
  else if 0x3004 ≤ off && off < 0x3080 && off % 4 == 0 then { a with tgt := cset 0 a.tgt ((off - 0x3000) / 4) (v % 2 ^ 32) }
  else a
/-- A write of the APLIC, after which it sends what has become due; genmsi (0x3000) sends an MSI of its own to an S file. -/
def State.aplicWrite (s : State) (slice off v : Nat) : State :=
  let rt := (tget s.routes slice).getD {}
  let fw := (tget s.fw slice).getD {}
  let s := s.modSlice slice fun x => { x with aplic := x.aplic.write off v }
  if off == 0x3000 then
    if rt.pid != fw.pid || !fw.asgn || bits v 31 18 ≥ rt.nharts then s else s.sendMsi fw.pid rt.ifbase (bits v 31 18) 0 (v % 2048)
  else (upto 31).foldl (fun s i => s.aplicSend slice (i + 1)) s

/-- How a ring took a record. -/
inductive RingOut where
  | written | dropped | full | unusable
  deriving DecidableEq, Repr

/-- Append a record to a fault ring (R326, R327): `base` is the header's address; the header and every slot must translate. A full ring
counts a dropped record when no reply is awaited. -/
def State.faultRing (s : State) (slice pid vd base : Nat) (await : Bool) (rcd : List Byte) : State × RingOut :=
  if base == 0 then (s, .unusable)
  else match s.vmRead slice pid vd base 64 with
    | (s, .error _) => (s, .unusable)
    | (s, .ok h) =>
      let lg := ofBytes (h.take 4)
      let drops := ofBytes ((h.drop 4).take 4)
      let head := ofBytes ((h.drop 8).take 8)
      let tail := ofBytes ((h.drop 16).take 8)
      if lg < 4 || lg > 16 || (h.drop 24).any (· != 0) || !s.translates slice pid vd base (64 + 32 * 2 ^ lg) { r := true, w := true } then (s, .unusable)
      else if tail - head ≥ 2 ^ lg then
        if await then (s, .full)
        else ((s.vmWrite slice pid vd (base + 4) (toBytes 4 (drops + 1))).1, .dropped)
      else
        match s.vmWrite slice pid vd (base + 64 + 32 * (tail % 2 ^ lg)) rcd with
        | (s, some _) => (s, .unusable)
        | (s, none) => ((s.vmWrite slice pid vd (base + 16) (toBytes 8 (tail + 1))).1, .written)

/-- A fault-ring record (R326). -/
def frRecord (va pc token kind detail acc info : Nat) : List Byte :=
  toBytes 8 va ++ toBytes 8 pc ++ toBytes 4 token ++ toBytes 1 kind ++ toBytes 1 detail ++ toBytes 1 acc ++ toBytes 1 0 ++ toBytes 8 info

/-- ACC of a record (R326). -/
def Acc.code (a : Acc) : Nat := (if a.r then 1 else 0) + (if a.w then 2 else 0) + (if a.x then 4 else 0)

/-- KIND and DETAIL of a guest's record for a parked fault (R326). -/
def guestKind (f : PFault) : Nat × Nat :=
  match f.kind with
  | .stage1 => (1, f.cause)
  | .poison => (2, 0)
  | _ => (3, 0)

/-- The VD's fault ring and its interrupt identity. -/
def State.ringOf (s : State) (pid vd : Nat) : Nat × Nat :=
  match (tget s.parts pid).bind fun p => tget p.vds vd with
  | some c => (c.frbase, c.friid)
  | none => (0, 0)

/-- Try to write the guest's record of a report (R326, R327): with an unusable ring the report goes to the management core; with a
full one it is held. The record of an injected walk abort carries the VA only (R329). -/
def State.tryRecord (s : State) (id : Nat) (r : Report) : State :=
  let (base, iid) := s.ringOf r.pid r.vd
  let rcd := if r.inject then frRecord r.va 0 (id + 1) 3 0 0 0
    else frRecord r.va r.pc (id + 1) (guestKind r.f).1 (guestKind r.f).2 r.acc.code r.info
  match s.faultRing r.slice r.pid r.vd base true rcd with
  | (s, .written) => { s.msi r.slice r.pid r.vd iid with reports := tput s.reports id { r with held := false } }
  | (s, .unusable) => { s with reports := tput s.reports id { r with guest := false, held := false } }
  | (s, _) => { s with reports := tput s.reports id { r with held := true } }

/-- Whether the guest, and not the management core, is told of a fault (R127). -/
def PFault.toGuest (f : PFault) : Bool := f.kind == .stage1 || f.kind == .poison
/-- Whether the list of reports that a slice holds while their rings are full has no place left (R326); faults on their way from the slice, whose
records are to come, have theirs. -/
def State.heldFull (s : State) (slice : Nat) : Bool :=
  256 ≤ (s.reports.filter fun e => e.2.slice == slice && e.2.held).length + (s.reqs.filter fun e => e.2.home == slice && match e.2.st with
    | .failBack _ f => f.toGuest
    | _ => false).length
/-- Whether a record that awaits a reply must wait unwritten and unheld: its ring is full, and so is the held list (R326). -/
def State.noRoom (s : State) (slice pid vd : Nat) : Bool :=
  s.heldFull slice && (s.faultRing slice pid vd (s.ringOf pid vd).1 true []).2 == .full
/-- Whether a fault must wait unreported (R326). -/
def State.unreported (s : State) (slice pid vd : Nat) (f : PFault) : Bool := f.toGuest && s.noRoom slice pid vd

/-- The GPA and level of a home fault (R329): those of the access, which the management core's walk gives; a fault met on a table has them. -/
def State.homeDetail (s : State) (slice pid vd va : Nat) (acc : Acc) (f : PFault) : PFault :=
  if f.kind != .home || f.flag == 1 then f
  else match (s.walkVa slice pid vd va acc).2 with
    | .ok x => { f with gpa := x.gpa, level := x.level }
    | .error _ => f

/-- Report a fault that awaits a reply (R127, R326, R329). The token of the record is the report's number plus 1. -/
def State.report (s : State) (r : Report) : Nat × State :=
  let (id, s) := s.fresh
  if r.f.toGuest then (id + 1, s.tryRecord id { r with guest := true })
  else (id + 1, { s with reports := tput s.reports id { r with guest := false, f := s.homeDetail r.slice r.pid r.vd r.va r.acc r.f } })

/-- Write a record that awaits no reply: a program fault, a trap or a firewall notice (R326); with no usable ring it is a notice to
the management core (R327). -/
def State.notice (s : State) (slice pid vd va pc kind detail acc info : Nat) : State :=
  let (base, iid) := s.ringOf pid vd
  match s.faultRing slice pid vd base false (frRecord va pc 0 kind detail acc info) with
  | (s, .written) => s.msi slice pid vd iid
  | (s, .dropped) => s
  | (s, _) =>
    let (id, s) := s.fresh
    { s with notices := s.notices ++ [(id, slice, frRecord va pc 0 kind detail acc info)] }

/-- A firewall refused a message of access `acc` (R21, R326, R382): a notice to VD 0 of the slice's owner, or an event of the port. -/
def State.fwNotice (s : State) (home acc : Nat) : State :=
  let f := (tget s.fw home).getD {}
  if f.asgn then s.notice home f.pid 0 0 0 6 0 acc home else s.portEvent .firewall home acc

/-! ### Writes that wait for their home (R127, R386) -/

/-- Write bytes at a partition address (completion words, doorbells, command pages), within one line. A home in reset or a granule that is
mid-migration holds the write, and it is performed later. -/
def State.paWrite (s : State) (slice pa : Nat) (b : List Byte) : State :=
  match s.paStore slice pa b with
  | (s, none) => s
  | (s, some f) =>
    if f.kind == .home then { s with late := s.late ++ [{ slice := slice, pid := 0, vd := 0, op := .pa pa b }] }
    else if f.kind == .firewall then s.fwNotice f.home 2 else s

/-- An engine's read; a refusal is noticed. -/
def State.engRead (s : State) (slice pid vd va n : Nat) (via : Option Via := none) : Res (List Byte) :=
  match s.vmRead slice pid vd va n {} via with
  | (s, .error f) => (if f.kind == .firewall then s.fwNotice f.home 1 else s, .error f)
  | r => r
/-- An engine's write; a refusal is noticed. -/
def State.engWrite (s : State) (slice pid vd va : Nat) (b : List Byte) (t : Traf := { op := 1 }) (via : Option Via := none) : State × Option PFault :=
  match s.vmWrite slice pid vd va b t via with
  | (s, some f) => (if f.kind == .firewall then s.fwNotice f.home 2 else s, some f)
  | r => r
/-- Whether earlier writes of a VD's engines on a slice wait for their home: later ones stay behind them. -/
def State.isLate (s : State) (slice pid vd : Nat) : Bool := s.late.any fun x => x.slice == slice && x.pid == pid && x.vd == vd
/-- An engine's write that nothing waits for: one that its home does not answer is held (R127, R386); one that faults otherwise is not made. -/
def State.lateWrite (s : State) (slice pid vd va : Nat) (b : List Byte) : State :=
  let hold (s : State) : State := { s with late := s.late ++ [{ slice := slice, pid := pid, vd := vd, op := .put va b }] }
  if s.isLate slice pid vd then hold s
  else match s.engWrite slice pid vd va b with
    | (s, some f) => if f.kind == .home then hold s else s
    | (s, none) => s
/-- Add to an 8-byte counter modulo 2^64 (R289); an addition that its home does not answer is held. A fault otherwise leaves it out.
DEDUCED (notes/assumptions/39.md). -/
def State.lateAdd (s : State) (slice pid vd va n : Nat) : State :=
  let hold (s : State) : State := { s with late := s.late ++ [{ slice := slice, pid := pid, vd := vd, op := .add va n }] }
  let miss (s : State) (f : PFault) : State := if f.kind == .home then hold s else s
  if s.isLate slice pid vd then hold s
  else match s.engRead slice pid vd va 8 with
    | (s, .error f) => miss s f
    | (s, .ok b) => match s.engWrite slice pid vd va (toBytes 8 (ofBytes b + n)) with
      | (s, some f) => miss s f
      | (s, none) => s
/-- Make the writes that wait for their homes, in order. -/
def State.settleLate (s : State) : State :=
  s.late.foldl (fun s x => match x.op with
    | .put va b => s.lateWrite x.slice x.pid x.vd va b
    | .add va n => s.lateAdd x.slice x.pid x.vd va n
    | .pa pa b => s.paWrite x.slice pa b) { s with late := [] }

end Sys2Proof.Machine
end

