-- ==== Sys2Proof/Machine/Ctr.lean ====
section
/-!
DEFINITION. What other engines need of the trace engine: the trace entry of a VD (R390) and the record stream (R407 to R410).
-/
namespace Sys2Proof.Machine

/-- A trace entry from its 32 bytes; REC and RPL both set, or a reserved bit, makes all zeros (R390). -/
def trcOf (b : List Byte) : TrcEnt :=
  let at' (i n : Nat) := ofBytes ((b.drop i).take n)
  let ctl := at' 8 1
  if (bit ctl 4 && bit ctl 5) || ctl / 64 != 0 || at' 10 6 != 0 then {}
  else { ring := at' 0 8, sen := bit ctl 0, uctl := bit ctl 1, brken := bit ctl 2, marken := bit ctl 3, recm := bit ctl 4,
         rpl := bit ctl 5, cset := at' 9 1, dump := at' 16 8, rstream := at' 24 8 }

/-- Release the set bound to a VD. -/
def releaseSet (l : List (Nat × CtrSet)) (vd : Nat) : List (Nat × CtrSet) := l.filter fun e => e.2.vd != some vd

/-- Read a VD's entry from the table (R390) and bind its counter set (R401); a set already bound, or a number 64 to 254, gives none
and an event. -/
def State.trcLoad (s : State) (slice pid vd : Nat) : State :=
  let rd := if (s.slice slice).trcTab == 0 then (s, none) else s.paRead slice ((s.slice slice).trcTab + 32 * vd) 32
  let s := rd.1
  let sl := s.slice slice
  let e : TrcEnt := (rd.2.map trcOf).getD {}
  let want := e.cset
  let mine := sl.csets.find? fun x => x.2.vd == some vd
  let keep := mine.any fun x => x.1 == want
  let sets := if keep then sl.csets else releaseSet sl.csets vd
  let taken := (tget sets want).any fun x => x.vd != some vd && x.vd != none
  let bad := (taken || (64 ≤ want && want < 255 : Bool)) && want != 255
  let sets := if want == 255 || bad || keep then sets else tput sets want { (tget sets want).getD {} with vd := some vd }
  let s := s.modSlice slice fun x =>
    { x with trc := tput x.trc vd { e with cset := if bad then 255 else want }, csets := sets }
  if bad then s.postEvent pid .counterSet slice vd else s

/-- The entry of a VD on a slice, read when first needed (R390). -/
def State.trcEnt (s : State) (slice pid vd : Nat) : State × TrcEnt :=
  match tget (s.slice slice).trc vd with
  | some e => (s, e)
  | none => let s := s.trcLoad slice pid vd; (s, (tget (s.slice slice).trc vd).getD {})

/-! ### Record streams -/

/-- The usable header of a record stream, which and whose slots translate: log2 of its 16-byte units, HEAD and TAIL (R327, R407). -/
def State.rsHeader (s : State) (slice pid vd base : Nat) : State × Option (Nat × Nat × Nat) :=
  if base == 0 then (s, none)
  else match s.vmRead slice pid vd base 64 with
    | (s, .error _) => (s, none)
    | (s, .ok h) =>
      let lg := ofBytes (h.take 4)
      if lg < 4 || lg > 16 || (h.drop 24).any (· != 0) || !s.translates slice pid vd base (64 + 16 * 2 ^ lg) { r := true, w := true } then (s, none)
      else (s, some (lg, ofBytes ((h.drop 8).take 8), ofBytes ((h.drop 16).take 8)))

/-- Every group of the VD on the slice stops at its next instruction boundary (R327, R410), if it has not been stopped so. -/
def State.stopVd (s : State) (slice pid vd : Nat) (k : EvKind) : State :=
  if (s.slice slice).vdStop.contains vd then s
  else (s.modSlice slice fun x => { x with vdStop := vd :: x.vdStop }).postEvent pid k slice vd

/-- Replay has diverged (R410). -/
def State.diverge (s : State) (slice pid vd : Nat) : State :=
  if (s.slice slice).vdStop.contains vd then s
  else (s.modSlice slice fun x => { x with trcDiv := (x.trcDiv + 1) % 2 ^ 16 }).stopVd slice pid vd .divergence

/-- Write 16-byte units from a position of the ring on, wrapping; false when a slot does not take one. -/
def State.rsPut (s : State) (slice pid vd base lg : Nat) : Nat → List Byte → Nat → State × Bool
  | _, _, 0 => (s, true)
  | tail, b, k + 1 =>
    if b.isEmpty then (s, true)
    else match s.vmWrite slice pid vd (base + 64 + 16 * (tail % 2 ^ lg)) (b.take 16) with
      | (s, none) => s.rsPut slice pid vd base lg (tail + 1) (b.drop 16) k
      | (s, some _) => (s, false)

/-- How a record stream took an entry. -/
inductive RecOut where
  | ok | full | stopped
  deriving DecidableEq, Repr

/-- Append an entry (R407, R408): with an unusable header, or a slot that does not take the entry, the VD's groups stop (R327). -/
def State.rsAppend (s : State) (slice pid vd base : Nat) (typ key : Nat) (payload : List Byte) : State × RecOut :=
  match s.rsHeader slice pid vd base with
  | (s, none) => (s.stopVd slice pid vd .recordStream, .stopped)
  | (s, some (lg, head, tail)) =>
    let n := 1 + payload.length / 16
    if tail + n - head > 2 ^ lg then (s, .full)
    else
      let e := toBytes 1 typ ++ toBytes 1 slice ++ toBytes 2 payload.length ++ toBytes 4 0 ++ toBytes 8 key ++ payload
      match s.rsPut slice pid vd base lg tail e n with
      | (s, false) => (s.stopVd slice pid vd .recordStream, .stopped)
      | (s, true) => match s.vmWrite slice pid vd (base + 16) (toBytes 8 (tail + n)) with
        | (s, none) => (s, .ok)
        | (s, some _) => (s.stopVd slice pid vd .recordStream, .stopped)

/-- The payload of the first entry from a position on that satisfies a test of type, key and payload. -/
def State.rsFind (s : State) (slice pid vd base lg : Nat) (p : Nat → Nat → List Byte → Bool) : Nat → Nat → Nat → Option (List Byte)
  | 0, _, _ => none
  | k + 1, pos, tail =>
    if pos ≥ tail then none
    else
      let at' (i : Nat) := base + 64 + 16 * (i % 2 ^ lg)
      match (s.vmRead slice pid vd (at' pos) 16).2 with
      | .error _ => none
      | .ok h =>
        let plen := ofBytes ((h.drop 2).take 2)
        let pay := (upto (plen / 16)).flatMap fun i => match (s.vmRead slice pid vd (at' (pos + 1 + i)) 16).2 with
          | .ok b => b
          | .error _ => []
        if p (ofBytes (h.take 1)) (ofBytes (h.drop 8)) pay then some pay
        else s.rsFind slice pid vd base lg p k (pos + 1 + plen / 16) tail

/-- What a recorded or replayed read gives (R407 to R410): the value, no room yet, or the VD's groups stopped. -/
inductive RecRead where
  | val (v : Nat) | full | stopped
  deriving DecidableEq, Repr

/-- A read listed in R407 by (launch, block, group, sequence number): recorded under REC, replaced under RPL. -/
def State.recRead (s : State) (slice pid vd launch block group seq v : Nat) : State × RecRead :=
  match s.trcEnt slice pid vd with
  | (s, e) =>
    if e.recm then
      match s.rsAppend slice pid vd e.rstream 2 launch (toBytes 4 block ++ toBytes 1 group ++ toBytes 3 seq ++ toBytes 8 v) with
      | (s, .ok) => (s, .val v)
      | (s, .full) => (s, .full)
      | (s, .stopped) => (s, .stopped)
    else if e.rpl then
      match s.rsHeader slice pid vd e.rstream with
      | (s, none) => (s.stopVd slice pid vd .recordStream, .stopped)
      | (s, some (lg, head, tail)) =>
        let want := toBytes 4 block ++ toBytes 1 group ++ toBytes 3 seq
        match s.rsFind slice pid vd e.rstream lg (fun t k p => t == 2 && k == launch && p.take 8 == want) 65536 head tail with
        | some p => (s, .val (ofBytes ((p.drop 8).take 8)))
        | none => (s.diverge slice pid vd, .stopped)
    else (s, .val v)

end Sys2Proof.Machine
end

