-- ==== Sys2Proof/Machine/Uses.lean ====
section
/-!
DEFINITION. The registers each instruction names (R37, R38, R51 check 9, R85): read and written, in the order A, B, C, D, and the vector
registers an indirect operand reaches, which are checked last.
-/
namespace Sys2Proof.Machine

/-- Vector register r, lane i (R37). -/
def Group.vget (g : Group) (r i : Nat) : Word := cget 0 g.v (r * 32 + i)
/-- Scalar register (R37). -/
def Group.sget (g : Group) (r : Nat) : DWord := cget 0 g.s r
/-- Predicate register (R37). -/
def Group.pget (g : Group) (r : Nat) : Word := cget 0 g.p r
def Group.vset (g : Group) (r i : Nat) (x : Word) : Group := { g with v := cset 0 g.v (r * 32 + i) x }
def Group.sset (g : Group) (r : Nat) (x : DWord) : Group := { g with s := cset 0 g.s r x }
def Group.pset (g : Group) (r : Nat) (x : Word) : Group := { g with p := cset 0 g.p r x }

/-- The registers an instruction names. -/
structure Uses where
  rd : List RegId := []
  wr : List RegId := []
  ind : List RegId := []
  deriving DecidableEq, Repr

/-- Every register an instruction names. -/
def Uses.all (u : Uses) : List RegId := u.rd ++ u.wr ++ u.ind

/-- The guard's predicate. -/
def hdUses (h : Hd) : List RegId := if h.pred.val == 15 then [] else [.p h.pred.val]

/-- The vector register an operand A names (R38). -/
def vidx (g : Group) : VSrc → Nat
  | .reg r => r.val
  | .ind b o => (g.sget b.val).toNat + o.val

/-- Whether a type is 64 bits wide. -/
def wide64 (t : IType) : Bool := t.width == 64
/-- n consecutive vector registers. -/
def runV (n r : Nat) : List RegId := (upto n).map fun k => .v (r + k)
/-- A register, or a pair of registers for a 64-bit type. -/
def pairV (wide : Bool) (r : Nat) : List RegId := if wide then [.v r, .v (r + 1)] else [.v r]
/-- Operand A of n registers. -/
def usesA (g : Group) (n : Nat) : VSrc → Uses
  | .reg r => { rd := runV n r.val }
  | .ind b o => { rd := [.s b.val], ind := runV n ((g.sget b.val).toNat + o.val) }

/-- A scalar operand B. -/
def srcS (b : Src 128) : List RegId := match b with
  | .reg r => [.s r.val]
  | .imm _ => []
def src10S (b : Src10 128) : List RegId := match b with
  | .reg r => [.s r.val]
  | .imm _ => []
def src10V (b : Src10 1024) : List RegId := match b with
  | .reg r => [.v r.val]
  | .imm _ => []
def optS {n : Nat} : Option (Fin n) → List RegId
  | some r => [.s r.val]
  | none => []
/-- A vector operand B. -/
def srcV (wide : Bool) : Src 1024 → List RegId
  | .reg r => pairV wide r.val
  | .imm _ => []

/-- Scalars read and written. -/
def usS (h : Hd) (rd wr : List SReg) : Uses := { rd := hdUses h ++ rd.map fun r => .s r.val, wr := wr.map fun r => .s r.val }
/-- Operand A of vector class with other registers. -/
def usV (g : Group) (h : Hd) (n : Nat) (a : VSrc) (rd wr : List RegId) : Uses :=
  let u := usesA g n a
  { u with rd := hdUses h ++ u.rd ++ rd, wr := wr }

def usesS (o : SOp) : Uses := { rd := hdUses o.h ++ [.s o.a.val] ++ srcS o.b, wr := [.s o.d.val] }
def usesV (g : Group) (o : VOp) : Uses :=
  usV g o.h (if wide64 o.ty then 2 else 1) o.a (srcV (wide64 o.ty) o.b) (pairV (wide64 o.ty) o.d.val)
/-- Shifts: B is never a pair (R160). -/
def usesSh (g : Group) (o : VOp) : Uses :=
  usV g o.h (if wide64 o.ty then 2 else 1) o.a (srcV false o.b) (pairV (wide64 o.ty) o.d.val)
def usesV3 (g : Group) (o : VOp3) : Uses :=
  usV g o.h (if wide64 o.ty then 2 else 1) o.a (srcV (wide64 o.ty) o.b ++ pairV (wide64 o.ty) o.c.val) (pairV (wide64 o.ty) o.d.val)
def usesF (g : Group) (o : FOp) : Uses := usV g o.h 1 o.a (srcV false o.b) [.v o.d.val]
def usesF3 (g : Group) (o : FOp3) : Uses := usV g o.h 1 o.a (srcV false o.b ++ [.v o.c.val]) [.v o.d.val]
def usesFU (g : Group) (o : FUn) : Uses := usV g o.h 1 o.a [] [.v o.d.val]
/-- Global addresses are vector pairs (R149). -/
def usesAt (g : Group) (o : AtomOp) (n : Nat) (b : List RegId) (wide : Bool) : Uses := usV g o.h n o.a b (pairV wide o.d.val)
def aopWide : AOp → Bool
  | .int _ t => wide64 t
  | .flt _ => false
def usesCas (g : Group) (o : CasOp) (n : Nat) : Uses :=
  usV g o.h n o.a (pairV (wide64 o.ty) o.b.val ++ pairV (wide64 o.ty) o.c.val) (pairV (wide64 o.ty) o.d.val)
def usesCpy (o : CpyOp) (more : List SReg) : Uses := usS o.h ([o.a, o.b] ++ more ++ [o.d]) []
def movRd (g : Group) (w : Bool) (h : Hd) (d : VReg) : MovSrc → Uses
  | .vec a => usV g h (if w then 2 else 1) a [] (pairV w d.val)
  | .scl a => { rd := hdUses h ++ [.s a.val], wr := pairV w d.val }
  | _ => { rd := hdUses h, wr := pairV w d.val }
def amtRd : Amt → List RegId
  | .imm _ => []
  | .reg c => [.s c.val]

/-- The scalars that a trap record is written to and a return from it restores (R100, R102). -/
def trapRegs (g : Group) : List RegId := (upto 4).map fun i => .s (g.sregs - 4 + i)

/-- The registers of an instruction of the sequencer. -/
def usesSeq (g : Group) : Instr → Uses
  | .nop h => usS h [] []
  | .bra h _ _ => usS h [] []
  | .brx h _ a => usS h [a] []
  | .call h _ d _ => usS h [] [d]
  | .callx h _ d a => usS h [a] [d]
  | .ret h _ a => usS h [a] []
  | .exit h => usS h [] []
  | .trap h _ => usS h [] []
  | .bkpt h => usS h [] []
  | .bar _ _ _ n => { rd := src10S n }
  | .parrive h old a cnt _ => { rd := hdUses h ++ [.s a.val] ++ optS cnt, wr := optS old }
  | .pwait h _ a _ => usS h [a] []
  | .elect h d => { rd := hdUses h, wr := [.p d.val] }
  | .setfmt h sv src => { rd := hdUses h ++ (match src with | .reg a => [.s a.val] | _ => []), wr := optS sv }
  | .setfmtImm h sv _ => { rd := hdUses h, wr := optS sv }
  | .setmode h sv src => { rd := hdUses h ++ (match src with | .reg a => [.s a.val] | _ => []), wr := optS sv }
  | .setmodeStep h sv _ _ => { rd := hdUses h, wr := optS sv }
  | .srd h d r => { rd := hdUses h ++ (if r == .flags then [.flags] else []), wr := [.s d.val] }
  | .swr h r a => { rd := hdUses h ++ [.s a.val] ++ (if r == .flags then [.flags] else []) }
  | .sadd o => usesS o
  | .ssub o => usesS o
  | .smul o => usesS o
  | .smulh o => usesS o
  | .sdiv o => usesS o
  | .srem o => usesS o
  | .sand o => usesS o
  | .sor o => usesS o
  | .sxor o => usesS o
  | .sshl o => usesS o
  | .sshr o => usesS o
  | .ssra o => usesS o
  | .smin o => usesS o
  | .smax o => usesS o
  | .scmp _ o => usesS o
  | .ssel o => usesS o
  | .smov h _ d src => { rd := hdUses h ++ (match src with | .reg a => [.s a.val] | _ => []), wr := [.s d.val] }
  | .smovHi h d _ => usS h [] [d]
  | .sbfx h _ d a _ _ => usS h [a] [d]
  | .sbit h _ _ d a => usS h [a] [d]
  | .plog h _ d a b => { rd := hdUses h ++ [.p a.val, .p b.val], wr := [.p d.val] }
  | .pbits h f => match f with
    | .tos d a => { rd := hdUses h ++ [.p a.val], wr := [.s d.val] }
    | .top d a => { rd := hdUses h ++ [.s a.val], wr := [.p d.val] }
    | .pop d a => { rd := hdUses h ++ [.p a.val], wr := [.s d.val] }
  | .yield h => usS h [] []
  | .snooze h a => usS h [a] []
  | .snoozeImm h _ => usS h [] []
  | .rett _ => { rd := trapRegs g, wr := trapRegs g }
  | _ => {}

/-- The registers of an instruction of the vector unit, and of `sget`. -/
def usesVec (g : Group) : Instr → Uses
  | .sget h _ d a b => usV g h 1 a (src10S b) [.s d.val]
  | .iadd o => usesV g o
  | .isub o => usesV g o
  | .imul o => usesV g o
  | .imulh o => usesV g o
  | .imad o => usesV3 g o
  | .imin o => usesV g o
  | .imax o => usesV g o
  | .iabs h t _ d a => usV g h (if wide64 t then 2 else 1) a [] (pairV (wide64 t) d.val)
  | .and o => usesV g o
  | .or o => usesV g o
  | .xor o => usesV g o
  | .shl o => usesSh g o
  | .shr o => usesSh g o
  | .sra o => usesSh g o
  | .rshr _ o => usesSh g o
  | .icmp h t _ d a b => usV g h (if wide64 t then 2 else 1) a (srcV (wide64 t) b) [.p d.val]
  | .sel n o => let u := usesV g o; { u with rd := u.rd ++ [.p n.val] }
  | .bfx h t _ d a _ _ => usV g h (if wide64 t then 2 else 1) a [] (pairV (wide64 t) d.val)
  | .bfxReg h t _ d a b c => usV g h (if wide64 t then 2 else 1) a [.v b.val, .v c.val] (pairV (wide64 t) d.val)
  | .bit h t op d a => usV g h (if wide64 t then 2 else 1) a [] (pairV (wide64 t && (op == .brev || op == .bswap)) d.val)
  | .mov h t d src => movRd g (wide64 t) h d src
  | .pdot2 o => usesV3 g o
  | .padd o => usesV g o
  | .psub o => usesV g o
  | .pmul o => usesV g o
  | .pack h _ d a b => usV g h 1 a (src10V b) [.v d.val]
  | .unpk h _ d a => usV g h 1 a [] [.v d.val]
  | .fadd o => usesF g o
  | .fsub o => usesF g o
  | .fmul o => usesF g o
  | .ffma o => usesF3 g o
  | .fmin o => usesF g o
  | .fmax o => usesF g o
  | .fcmp h _ _ d a b => usV g h 1 a (srcV false b) [.p d.val]
  | .fdiv o => usesF g o
  | .frcp o => usesFU g o
  | .frsq o => usesFU g o
  | .fsqrt o => usesFU g o
  | .fexp2 o => usesFU g o
  | .flog2 o => usesFU g o
  | .fclass h _ d a => usV g h 1 a [] [.v d.val]
  | .frnd o => usesFU g o
  | .fscl o => usesF g o
  | .cvt h _ st pk _ _ d a =>
    let narrow := st == .e4m3 || st == .e5m2
    usV g h (if pk && !narrow then 4 else 1) a [] (runV (if pk && narrow then 4 else 1) d.val)
  | .cvtfi h it _ _ d a => usV g h 1 a [] (pairV (wide64 it) d.val)
  | .cvtif h _ it _ _ d a => usV g h (if wide64 it then 2 else 1) a [] [.v d.val]
  | .cvti h dt st _ d a => usV g h (if wide64 st then 2 else 1) a [] (pairV (wide64 dt) d.val)
  | .xlane h t _ _ d a b => usV g h (if wide64 t then 2 else 1) a (srcV false b) (pairV (wide64 t) d.val)
  | .slide h _ _ d a b n => usV g h 1 a ([.v b.val] ++ amtRd n) [.v d.val]
  | .slideImm h _ _ d a _ n => usV g h 1 a (amtRd n) [.v d.val]
  | .bcast h t d a b => usV g h (if wide64 t then 2 else 1) a (srcS b) (pairV (wide64 t) d.val)
  | .vred h op d a => usV g h (match op with | .int _ t => if wide64 t then 2 else 1 | _ => 1) a [] [.s d.val]
  | .scan h _ op d a =>
    let w := match op with | .int _ t => wide64 t | _ => false
    usV g h (if w then 2 else 1) a [] (pairV w d.val)
  | .poll h _ d a => { rd := hdUses h ++ [.p a.val], wr := [.p d.val] }
  | .vmatch h t d a => usV g h (if wide64 t then 2 else 1) a [] [.v d.val]
  | .flgrd h _ d => { rd := hdUses h ++ [.flags], wr := [.s d.val] }
  | .flgwr h _ b => { rd := hdUses h ++ srcS b ++ [.flags] }
  | _ => {}

/-- The registers of an instruction of the load-store unit. -/
def usesLsu (g : Group) : Instr → Uses
  | .ld o => { rd := hdUses o.h ++ [.s o.a.val], wr := pairV (wide64 o.ty) o.r.val }
  | .st o => { rd := hdUses o.h ++ [.s o.a.val] ++ pairV (wide64 o.ty) o.r.val }
  | .ldl o => { rd := hdUses o.h ++ [.s o.a.val], wr := pairV (wide64 o.ty) o.r.val }
  | .stl o => { rd := hdUses o.h ++ [.s o.a.val] ++ pairV (wide64 o.ty) o.r.val }
  | .sld o => usS o.h [o.a] [o.r]
  | .sst o => usS o.h [o.a, o.r] []
  | .gath o => usV g o.h 2 o.a [] (pairV (wide64 o.ty) o.r.val)
  | .scat o => usV g o.h 2 o.a (pairV (wide64 o.ty) o.r.val) []
  | .lgath o => usV g o.h 1 o.a [] (pairV (wide64 o.ty) o.r.val)
  | .lscat o => usV g o.h 1 o.a (pairV (wide64 o.ty) o.r.val) []
  | .ldb o => { rd := hdUses o.h ++ [.s o.a.val], wr := pairV (wide64 o.ty) o.r.val }
  | .atom o b => usesAt g o 2 (pairV (aopWide o.op) b.val) (aopWide o.op)
  | .atomImm32 o _ => usesAt g o 2 [] (aopWide o.op)
  | .cas o => usesCas g o 2
  | .atomOrd h a b _ => usV g h 2 a [.v b.val] []
  | .atoml o b => usesAt g o 1 (pairV (aopWide o.op) b.val) (aopWide o.op)
  | .atomlImm32 o _ => usesAt g o 1 [] (aopWide o.op)
  | .casl o => usesCas g o 1
  | .fence h _ _ => usS h [] []
  | .ifence h => usS h [] []
  | .cline h _ a _ => usS h [a] []
  | .pref h _ a _ => usS h [a] []
  | .ipref h a _ => usS h [a] []
  | .stz h a _ => usS h [a] []
  | _ => {}

/-- The registers of an instruction of the copy, network, matrix, shaping, launch and trace engines. -/
def usesEng : Instr → Uses
  | .cpy o c _ _ _ _ => usesCpy o [c]
  | .cpya o _ _ _ => usesCpy o []
  | .cpyWb o _ _ => usesCpy o []
  | .seal h arv sv => { rd := hdUses h ++ optS arv, wr := optS sv }
  | .cwait h _ v => { rd := hdUses h ++ src10S v }
  | .cwaitImm22 h _ _ => usS h [] []
  | .cstat h f => match f with
    | .st d a => usS h [a] [d]
    | .addr d a => usS h [a] [d]
    | .clr d => usS h [] [d]
  | .cfill o c _ _ => usesCpy o [c]
  | .cgath o c _ _ _ => usesCpy o [c]
  | .rcpy o c _ _ _ => usesCpy o [c]
  | .ratom h _ _ _ d a b c _ => { rd := hdUses h ++ [.s a.val] ++ (match b with | .reg r => [.s r.val] | _ => []) ++ [.s c.val], wr := [.s d.val] }
  | .rflag h af _ _ d b c _ => { rd := hdUses h ++ optS af ++ (match b with | .reg r => [.s r.val] | _ => []) ++ [.s c.val, .s d.val] }
  | .rnote h a c _ => usS h [a, c] []
  | .rget o c _ _ => usesCpy o [c]
  | .rstat h f => match f with
    | .grp d => usS h [] [d]
    | .sh d a => usS h [a] [d]
    | .clr d => usS h [] [d]
  | .mma o => usS o.h [o.a, o.b] []
  | .mwait h _ v => { rd := hdUses h ++ src10S v }
  | .aalloc h n => { rd := hdUses h ++ src10S n }
  | .afree h n => { rd := hdUses h ++ src10S n }
  | .azero h _ => usS h [] []
  | .ardv h _ _ _ d _ b n => { rd := hdUses h ++ [.s b.val], wr := runV n.val d.val }
  | .awrv h _ _ a b n => { rd := hdUses h ++ [.s a.val] ++ runV n.val b.val }
  | .mcfg h _ => usS h [] []
  | .wbrel h _ a => usS h [a] []
  | .mstat h d => usS h [] [d]
  | .acpy h _ _ => usS h [] []
  | .aldl h _ _ a b _ => usS h [a, b] []
  | .astl h _ _ a b _ => usS h [a, b] []
  | .qst o => usS o.h [o.a, o.b] []
  | .vqst o => { rd := hdUses o.h ++ [.s o.a.val, .v o.b.val, .s o.c.val] }
  | .qresLd h _ a _ => usS h [a] []
  | .qresSt h _ a _ => usS h [a] []
  | .qzero h _ => usS h [] []
  | .qcfg h _ _ _ a b => usS h [a, b] []
  | .qwait h _ v => { rd := hdUses h ++ src10S v }
  | .qrd h _ d _ b => { rd := hdUses h ++ [.s b.val], wr := [.v d.val] }
  | .launch h d a b _ => usS h [a, b] [d]
  | .cancel h _ _ a => usS h [a] []
  | .ctrrd h d a => usS h [a] [d]
  | .ctrwait h a v => { rd := hdUses h ++ [.s a.val] ++ (match v with | .reg r => [.s r.val] | _ => []) }
  | .tmark h a _ => usS h [a] []
  | .pmcrd h _ d n => { rd := hdUses h ++ src10S n, wr := [.s d.val] }
  | .tctl h _ => usS h [] []
  | _ => {}

/-- The registers an instruction names, by its major opcode's engine. -/
def usesOf (i : Instr) (g : Group) : Uses :=
  let op := ((Instr.raw i).map Raw.op).getD 0
  if op < 0x40 then (if op == 0x27 then usesVec g i else usesSeq g i)
  else if op < 0x90 then usesVec g i
  else if op < 0xB0 then usesLsu g i
  else usesEng i

end Sys2Proof.Machine
end

