-- ==== Sys2Proof/Machine/Ops.lean ====
section
/-!
DEFINITION. The operations that every instruction shares: the executing tiller and its registers, issue with its checks (R51, R78,
R83, R85), results that are written later, program faults (R118), taking a trap (R99 to R101) and returning from one (R102).
-/
namespace Sys2Proof.Machine

/-! ### Instructions as issue sees them -/

/-- The fields of an instruction; all zero for `pad`. -/
def fields (i : Instr) : Raw := (Instr.raw i).getD (rawH 0 0 ⟨0, false, 0⟩)
/-- Bytes of an instruction. -/
def ilen (i : Instr) : Nat := 4 * (fields i).len + 4
/-- The major opcode. -/
def opcode (i : Instr) : Nat := (fields i).op
/-- Opcodes marked L in R50. -/
def lOps : List Nat :=
  [0x0C, 0x0E, 0x18, 0x19, 0x2B, 0x61, 0x62, 0x63, 0x64, 0x65, 0x66, 0x90, 0x92, 0x94, 0x96, 0x98, 0x9A, 0x9B, 0x9C, 0x9E, 0x9F, 0xA0,
   0xB4, 0xB9, 0xC1, 0xC2, 0xC5, 0xCB, 0xD2, 0xD6, 0xDA, 0xDB, 0xDE]
/-- Whether an opcode honours LOOK (R35). -/
def isL (op : Nat) : Bool := lOps.contains op
/-- Whether an opcode is of the vector unit or the load-store unit (R66). -/
def isVecLsu (op : Nat) : Bool := 0x40 ≤ op && op ≤ 0xAF
/-- What a recipe may execute (R304): instructions of the sequencer, the vector and the load-store unit that do not set DIRTY. -/
def recipeOk (op : Nat) : Bool := op < 0xB0 && !(List.contains [0x0C, 0x0D, 0x9B, 0x9C, 0x9D, 0x9E, 0x9F] op)

/-- The group runs its flashback point's recipe, and not a trap handler (R304). -/
def Group.inRecipe (g : Group) : Bool := g.flash.recipe && g.trap.isNone

/-! ### The executing tiller -/

/-- The state with the executing tiller, its group and its block taken out of it; `close` puts them back. -/
structure Ex where
  s : State
  c : Cur
  b : Block
  g : Group
  t : Tiller
  deriving DecidableEq, Repr

/-- Take the executing tiller out. -/
def State.load (s : State) : Option Ex :=
  match s.cur with
  | none => none
  | some c => match tget s.blocks c.b with
    | none => none
    | some b => match b.groups[c.g]? with
      | none => none
      | some g => match g.tillers[c.t]? with
        | none => none
        | some t => some { s := s, c := c, b := b, g := g, t := t }

/-- The group with the executing tiller in it. -/
def Ex.grp (x : Ex) : Group := x.g.setTil x.c.t x.t
/-- The block with the executing group in it. -/
def Ex.blk (x : Ex) : Block := { x.b with groups := listSet x.b.groups x.c.g x.grp }
/-- Put everything back. -/
def Ex.close (x : Ex) : State := { x.s with blocks := tput x.s.blocks x.c.b x.blk }
/-- Apply a function of the state. -/
def Ex.via (x : Ex) (f : State → State) : Ex := ((f x.close).load).getD x
/-- Apply a function of the group, and take the tiller out again. -/
def Ex.onGrp (x : Ex) (f : Group → Group) : Ex := let g := f x.grp; { x with g := g, t := g.til x.c.t }

def Ex.s' (x : Ex) (r : SReg) : Nat := (x.g.sget r.val).toNat
def Ex.setS (x : Ex) (r : Nat) (v : Nat) : Ex := { x with g := x.g.sset r (BitVec.ofNat 64 v) }

/-- G: the guard-true active lanes of the tiller (R34). -/
def Ex.guard (x : Ex) (h : Hd) : Nat :=
  let p := if h.pred.val == 15 then 2 ^ 32 - 1 else (x.g.pget h.pred.val).toNat
  let p := if h.neg && h.pred.val != 15 then 2 ^ 32 - 1 - p else p
  p &&& x.t.mask

/-- The lanes of a mask, ascending. -/
def lanes (m : Nat) : List Nat := lanesOf 32 m
/-- The lowest lane of a mask. -/
def lowLane (m : Nat) : Nat := (lanes m).headD 0

/-- The first register at or above the group's allocation (R38). Of several, the one that comes first in the order A, B, C, D, indirect registers
last, is named. DESIGN CHOICE (notes/assumptions/101.md): the spec states no order. -/
def rangeFault (g : Group) (u : Uses) : Option Nat :=
  u.all.findSome? fun r => match r with
    | .v n => if n ≥ g.vregs then some (n % 2 ^ 64) else none
    | .s n => if n ≥ g.sregs then some n else none
    | _ => none

/-- Whether a register carries a pending write, or is held by a memory instruction (R85, R126); `%flags` waits for the tiller's own
earlier instructions of the vector and load-store units (R66) and for a pending write of it by any other instruction (R85). -/
def marked (g : Group) (slot : Nat) (r : RegId) : Bool :=
  match r with
  | .flags => g.pend.any fun p => if isVecLsu p.2.op then p.2.slot == slot else p.2.marks.contains .flags
  | r => g.pend.any fun p => p.2.marks.contains r

/-! ### Pending results -/

/-- Perform one write. -/
def Group.put (g : Group) : Wr → Group
  | .v r i x => g.vset r i x
  | .s r x => g.sset r x
  | .p r i x => g.pset r (BitVec.ofNat 32 (setBit (g.pget r).toNat i x))

/-- A window closes in every tiller; a tiller in Long-wait on it becomes Ready, and one Waiting tries again (R83, R86). -/
def Tiller.unwin (id : Nat) (t : Tiller) : Tiller :=
  { t with wins := t.wins.filter fun w => w.id != id
           st := match t.st with
             | .longWait w => if w == .on id then .ready else t.st
             | .held (.longWait w) => if w == .on id then .held .ready else t.st
             | .waiting => .ready
             | .held .waiting => .held .ready
             | st => st }

/-- A pending instruction completes: its writes are performed, its flags set, its marks and windows cleared (R82, R83, R85). -/
def Group.complete (g : Group) (id : Nat) : Group :=
  match tget g.pend id with
  | none => g
  | some p =>
    let g := p.wr.foldl Group.put g
    { g with pend := tdel g.pend id, flags := g.flags ||| p.fl, tillers := g.tillers.map (Tiller.unwin id) }

/-- An instruction has been issued and completes later: its pending entry, and for an opcode marked L the window that LOOK opens (R83,
R85). -/
def Ex.pend (x : Ex) (i : Instr) (marks : List RegId) (wr : List Wr) (fl : Nat) (kind : PKind) : Ex :=
  let id := x.g.nextPend
  let op := opcode i
  let p : Pend := { slot := x.c.t, mask := x.t.mask, op := op, marks := marks, wr := wr, fl := fl, kind := kind }
  let g := { x.g with pend := tput x.g.pend id p, nextPend := id + 1 }
  if !isL op then { x with g := g }
  else
    let look := (fields i).look
    let st := if look != 0 then x.t.st else match kind with
      | .alu => x.t.st
      | .mem _ => .longWait (.on id)
      | .cond (.bar b) => .atBar b
      | .cond _ => .longWait (.on id)
    { x with g := g, t := { x.t with wins := x.t.wins ++ [{ id := id, left := look }], st := st } }

/-- A result of the sequencer or the vector unit, written when its latency has passed (R82). -/
def Ex.defer (x : Ex) (i : Instr) (wr : List Wr) (fl : Nat) : Ex :=
  x.pend i ((usesOf i x.g).wr ++ (if fl != 0 then [.flags] else [])) wr fl .alu

/-- Set the dirty-since-flashback bit (R300). -/
def Ex.dirty (x : Ex) : Ex := { x with g := { x.g with flash := { x.g.flash with dirty := true } } }

/-! ### How an instruction ends -/

/-- What comes of an instruction's effect: it has taken place; a trap; a program fault; the tiller waits in a state and the
instruction has not issued. -/
inductive Eff where
  | ok (x : Ex)
  | trap (code info : Nat)
  | prog (f : Fail)
  | wait (s : State) (st : TState)
  deriving DecidableEq, Repr

/-- The memory instructions of a group that are parked end; their masked lanes are never performed (R127). -/
def Group.unpark (g : Group) : Group :=
  { g with pend := g.pend.filter fun e => match e.2.kind with
      | .mem m => m.faults.isEmpty
      | _ => true }
/-- The block ends as failed (R101, R118): its groups stop, what is parked ends, and the record is written to the VD's fault ring (R326). -/
def State.failBlock (s : State) (bid : Nat) (f : Fail) : State :=
  match tget s.blocks bid with
  | none => s
  | some b =>
    if b.fail.isSome then s
    else
      let info := if f.kind == 5 then f.info else f.lane + 2 ^ 32 * b.idx
      (s.modBlock bid fun b => { b with fail := some f, groups := b.groups.map Group.unpark, sops := b.sops.filter fun o => o.2.fault.isNone }).notice b.slice b.pid b.vd f.va f.pc f.kind f.detail f.acc info

/-- The words of an instruction in its core's instruction cache: word 1 above word 0; 0 where not fetched (R100). -/
def State.wordsAt (s : State) (slice core vd pc : Nat) : Nat :=
  match (s.core (coreKey slice core)).ic.find? fun e => e.vd == vdTag vd pc && e.blk == pc / 32 with
  | some e => let k := pc % 32 / 4; listGet 0 e.words k + 2 ^ 32 * listGet 0 e.words (k + 1)
  | none => 0

/-- Words 1 and 0 of an instruction (R100). -/
def twoWords (i : Instr) : Nat := let w := encode i; listGet 0 w 0 + 2 ^ 32 * listGet 0 w 1

/-- Taking a trap (R100): the other live tillers are Held, the top four scalars are saved and receive the trap record, and the tiller
goes on at TRAPH. -/
def Group.trapEntry (g : Group) (k traph pc code info words : Nat) : Group :=
  let n := g.sregs
  let t := g.til k
  let rcd3 := t.mask * 2 ^ 32 + k * 2 ^ 16 + g.rcds.length * 2 ^ 8 + code
  let saved := (upto 4).map fun i => g.sget (n - 4 + i)
  let hold (u : Tiller) : Tiller := if u.st.live then { u with st := .held u.st } else u
  let g1 : Group := { g with
    tillers := listSet (g.tillers.map hold) k { t with pc := traph, st := .ready }
    trap := some { saved := saved, slot := k, mask := t.mask, rcds := g.rcds.map Prod.fst }
    flash := { g.flash with valid := false } }
  (((g1.sset (n - 4) (BitVec.ofNat 64 pc)).sset (n - 3) (BitVec.ofNat 64 rcd3)).sset (n - 2) (BitVec.ofNat 64 info)).sset (n - 1)
    (BitVec.ofNat 64 words)

/-- A trap of tiller `k` of group `gi` (R99 to R101): the block fails when TRAPH is 0 or the trap comes within a handler. -/
def State.trapAt (s : State) (bid gi k pc code info words : Nat) : State :=
  match tget s.blocks bid with
  | none => s
  | some b => match b.groups[gi]? with
    | none => s
    | some g =>
      if b.traph == 0 || g.trap.isSome then s.failBlock bid { kind := 5, detail := code, pc := pc, lane := lowLane (g.til k).mask, info := info }
      else s.modBlock bid fun b => { b with groups := listSet b.groups gi (g.trapEntry k b.traph pc code info words) }

/-- Take a trap at the tiller's instruction: pending writes of the scalars that the record goes to come first (R85). -/
def Ex.trapped (x : Ex) (code info words : Nat) : State :=
  if x.b.traph != 0 && x.g.trap.isNone && (trapRegs x.g).any (marked x.g x.c.t) then
    { x with t := { x.t with st := .waiting } }.close
  else x.close.trapAt x.c.b x.c.g x.c.t x.t.pc code info words

/-- End an instruction: `x` is the tiller before it. An instruction that has issued is counted (R402). -/
def finish (i : Instr) (x : Ex) : Eff → State
  | .ok y => (y.close).count x.b.slice x.b.vd 0x001 1
  | .trap code info => x.trapped code info (twoWords i)
  | .prog f => x.close.failBlock x.c.b f
  | .wait s st => { x with s := s, t := { x.t with st := st } }.close

/-- Return from a trap handler (R102): the tiller goes to the address in scalar n − 4, the four scalars get their saved values, and
every Held tiller its former state. -/
def Group.trapReturn (g : Group) (k : Nat) (tr : TrapSave) : Group :=
  let n := g.sregs
  let pc := (g.sget (n - 4)).toNat
  let g := (upto 4).foldl (fun g i => g.sset (n - 4 + i) (listGet 0 tr.saved i)) g
  let free (u : Tiller) : Tiller := match u.st with
    | .held st => { u with st := st }
    | _ => u
  { g with trap := none, tillers := listSet (g.tillers.map free) k { (g.til k) with pc := pc, st := .ready } }

/-- Bit i of a record's SMASK or PMASK, or membership in VLIST (R303). -/
def liveReg (rcd : List Byte) (r : RegId) : Bool :=
  let at' (i n : Nat) := ofBytes ((rcd.drop i).take n)
  match r with
  | .v n => (upto (at' 8 1)).any fun i => at' (64 + 2 * i) 2 == n
  | .s n => bit (at' 16 16) n
  | .p n => bit (at' 32 2) n
  | .flags => false

/-- A write of a register of the live set voids the group's point (R301). -/
def Flash.wrote (f : Flash) (l : List RegId) : Flash := if f.valid && l.any (liveReg f.rcd) then { f with valid := false } else f

/-- The handler ends with every lane of its tiller, whatever it split into or merged with (R101): the scalars and the Held tillers are
restored. -/
def Group.trapOver (g : Group) (tr : TrapSave) : Group :=
  let n := g.sregs
  let g := { g with flash := g.flash.wrote (trapRegs g) }
  let g := (upto 4).foldl (fun g i => g.sset (n - 4 + i) (listGet 0 tr.saved i)) g
  { g with trap := none, tillers := g.tillers.map fun u => match u.st with
    | .held st => { u with st := st }
    | _ => u }

/-! ### Issue -/

/-- Whether the quarter of a group issues for its VD: no precise stop holds it (R398), and no divergence has stopped the VD (R410). -/
def State.quarterOpen (s : State) (b : Block) (g : Group) : Bool :=
  let q := (tget s.quarters (coreKey b.slice b.core * 4 + g.quarter)).getD {}
  !(s.slice b.slice).vdStop.contains b.vd &&
  match q.stop with
  | some v => v != b.vd && q.dumped
  | none => true

/-- Whether the tiller may try to issue: its block runs and it is Ready or in a short wait (R78, R86). -/
def Ex.able (x : Ex) : Bool :=
  x.b.res == .resident && x.b.fail.isNone && !x.b.cancelled && !x.g.ended && (x.t.st == .ready || x.t.st == .waiting) &&
  x.s.quarterOpen x.b x.g

/-- The window that forbids the next instruction (R83). -/
def Ex.shut (x : Ex) : Option Nat := (x.t.wins.find? fun w => w.left == 0).map (·.id)

/-- A tiller parks: when nothing of the group can move any more, the mismatch trap of R95. -/
def Ex.parked (x : Ex) (words : Nat) : State :=
  match x.grp.stuck with
  | none => x.close
  | some code => x.trapped code x.t.pc words

/-- The executing tiller parks in a state at an address. -/
def Ex.park (x : Ex) (st : TState) (pc : Nat) : Ex :=
  { x with g := { x.g with parks := x.g.parks + 1 }, t := { x.t with st := st, parkAt := pc, parkNo := x.g.parks + 1 } }

/-- The state of a tiller that its window holds back (R86, R96): At-bar for `bar.stay`, Long-wait for a memory instruction or an
engine, Waiting for a result of its own core. -/
def Ex.stall (x : Ex) (id words : Nat) : State :=
  match (tget x.g.pend id).map Pend.kind with
  | some (.cond (.bar b)) =>
    let y := x.park (.atBar b) x.t.pc
    match y.grp.stuck with
    | none => y.close
    | some code => x.trapped code x.t.pc words
  | some .alu => { x with t := { x.t with st := .waiting } }.close
  | _ => { x with t := { x.t with st := .longWait (.on id) } }.close

/-- The tiller goes on to the next instruction: its windows count it (R83), and a write of a live register voids the flashback
point (R301). -/
def Ex.book (x : Ex) (i : Instr) : Ex :=
  let r := fields i
  let acts := x.guard ⟨Fin.ofNat 16 r.pred, r.pneg == 1, 0⟩ != 0
  { x with
    g := { x.g with lastIssue := x.s.now, lastPc := x.t.pc, lastSlot := x.c.t, flash := if acts then x.g.flash.wrote (usesOf i x.g).wr else x.g.flash }
    t := { x.t with st := .ready, pc := (x.t.pc + ilen i) % 2 ^ 64, wins := x.t.wins.map fun w => { w with left := w.left - 1 } } }

/-- Issue an instruction: the wait of windows and scoreboard (R83, R85), the checks 8 and 9 of R51 and that of R304, then the effect.
`priv` is check 8. -/
def issueP (priv : Ex → Bool) (i : Instr) (f : Ex → Eff) (s : State) : Host.Outcome State Fault Refusal :=
  match s.load with
  | none => .fault .noTiller
  | some x =>
    let u := usesOf i x.g
    if !x.able then .next s
    else match x.shut with
      | some id => .next (x.stall id (twoWords i))
      | none =>
        if u.all.any (marked x.g x.c.t) then .next { x with t := { x.t with st := .waiting } }.close
        else if !priv x || (x.g.inRecipe && !recipeOk (opcode i)) then .next (x.trapped 2 0 (twoWords i))
        else match rangeFault x.g u with
          | some n => .next (x.trapped 3 n (twoWords i))
          | none => .next (finish i x (f (x.book i)))

/-- Issue without a privilege check. -/
def issue (i : Instr) (f : Ex → Eff) (s : State) : Host.Outcome State Fault Refusal := issueP (fun _ => true) i f s

/-- A uniform instruction has its effect when the guard is true for an active lane (R34). -/
def uniform (h : Hd) (f : Ex → Eff) (x : Ex) : Eff := if x.guard h == 0 then .ok x else f x

/-- The conditions under which an instruction issues and has its own effect: the tiller can issue, no window or pending register holds
it back, and every register is in range. -/
def Issues (i : Instr) (s : State) (x : Ex) : Prop :=
  s.load = some x ∧ x.able = true ∧ x.shut = none ∧ (usesOf i x.g).all.any (marked x.g x.c.t) = false ∧
  (x.g.inRecipe && !recipeOk (opcode i)) = false ∧ rangeFault x.g (usesOf i x.g) = none

end Sys2Proof.Machine
end

