-- ==== Sys2Proof/Machine/Flags.lean ====
section
/-!
DEFINITION. `%fmt`, `%mode` and `%flags` (R63 to R66): the effective rounding, saturation, format and reading of an instruction, the
draw of the generator and the step counter (R62), and integer saturation with its flag (R75).
-/
namespace Sys2Proof.Machine

/-- DRND, DAZ, FTZ, SATD and SRSTEP of `%mode` (R64). -/
def drnd (m : Word) : Rnd := (Rnd.ofCode (m.toNat % 8)).getD .rne
def daz (m : Word) : Bool := bit m.toNat 3
def ftz (m : Word) : Bool := bit m.toNat 4
def satd (m : Word) : Bool := bit m.toNat 5
def srstep (m : Word) : Nat := m.toNat / 2 ^ 16
/-- FMT and READ of `%fmt` (R63). -/
def fmtOf (f : Word) : FType := (FType.ofCode (f.toNat % 16)).getD .e4m3
def readOf (f : Word) : Reading := (Reading.ofCode (f.toNat / 16 % 4)).getD .nan

/-- eff_rnd and eff_sat (R75). -/
def effRnd (m : Word) (r : Rnd) : Rnd := if r == .dflt then drnd m else r
def effSat (m : Word) (sat : Bool) : Bool := sat || satd m

/-- The format a float type names: `.fmt` is that of `%fmt` (R33, R66). -/
def effF (f : Word) (t : FType) : FType := if t == .fmt then fmtOf f else t
/-- The reading in force for a format: IEEE for the wide formats, else that of `%fmt` (R156). -/
def effRd (f : Word) (t : FType) : Reading := if wideF t then .ieee else readOf f

/-- A valid `%fmt` (R63) and a valid `%mode` (R64). -/
def validFmt (n : Nat) : Bool := 3 ≤ n % 16 && n % 16 ≤ 6 && n / 16 % 4 != 3
def validMode (n : Nat) : Bool := 1 ≤ n % 8 && n % 8 ≤ 6

/-- The draw of a vector instruction for a lane and an element (R62). -/
def Ex.draw (x : Ex) (lane e : Nat) : Nat :=
  srgen x.b.seed x.b.idx (x.c.g * 32 + lane) (srstep x.t.mode * 65536 + e)

/-- The step counter advances after an instruction that rounds stochastically (R62). -/
def Ex.stepSr (x : Ex) (rounds : Bool) (r : Rnd) : Ex :=
  if rounds && effRnd x.t.mode r == .rs then
    { x with t := { x.t with mode := BitVec.ofNat 32 ((srstep x.t.mode + 1) % 65536 * 65536 + x.t.mode.toNat % 65536) } }
  else x

/-- sat_i and sat_n (R75): the value and the flags. -/
def satInt (signed : Bool) (w : Nat) (t : Int) : Int × Nat :=
  let hi : Int := if signed then 2 ^ (w - 1) - 1 else 2 ^ w - 1
  let lo : Int := if signed then -(2 ^ (w - 1)) else 0
  if t > hi then (hi, fSATF) else if t < lo then (lo, fSATF) else (t, 0)

/-- Narrow an exact result to w bits: saturated, or wrapped (R112, R159). -/
def narrow (signed sat : Bool) (w : Nat) (t : Int) : Nat × Nat :=
  if sat then let r := satInt signed w t; (wrapN r.1 w, r.2) else (wrapN t w, 0)

/-- Round an exact value to a format with FTZ for the wide formats (R59 to R61). -/
def roundV (f : FType) (rd : Reading) (rnd : Rnd) (sat fl : Bool) (draw : Nat) (r : Xv × Nat) : Nat × Nat :=
  let y := roundF f rd rnd sat draw r.1
  flushF f fl (y.1, y.2 ||| r.2)

end Sys2Proof.Machine
end

