-- ==== Sys2Proof/Machine/Operands.lean ====
section
/-!
DEFINITION. Operand forms: what each form reads (R36 to R39, R112, R156, R157) and how a result is written.
-/
namespace Sys2Proof.Machine

/-! ### Scalar operands (R112) -/

/-- A scalar read as a type reads it. -/
def sval (g : Group) (t : IType) (r : SReg) : Int := readTy t (g.sget r.val).toNat
/-- Operand B of the scalar family. -/
def sB (g : Group) (t : IType) : Src 128 → Int
  | .reg r => sval g t r
  | .imm v => readTy t (immBits t v)
/-- A result of w bits extended to 64 (R112). -/
def extend (t : IType) (v : Nat) : DWord := BitVec.ofInt 64 (readTy t v)
/-- A 10-bit operand B read as unsigned 64-bit; a negative immediate as its 64-bit pattern. -/
def val10 (g : Group) : Src10 128 → Nat
  | .reg r => (g.sget r.val).toNat
  | .imm v => wrapN (sext v.toNat 10) 64

/-! ### Vector operands (R38, R156, R157) -/

/-- The raw bits of a register, or a pair, in a lane. -/
def rawLane (g : Group) (wide : Bool) (r i : Nat) : Nat :=
  if wide then (g.vget r i).toNat + 2 ^ 32 * (g.vget (r + 1) i).toNat else (g.vget r i).toNat
/-- A lane of a register read at an integer type (R156). -/
def laneI (g : Group) (t : IType) (r i : Nat) : Int := readTy t (rawLane g (wide64 t) r i)
/-- Operand B at an integer type. -/
def vB (g : Group) (t : IType) (b : Src 1024) (i : Nat) : Int := match b with
  | .reg r => laneI g t r.val i
  | .imm v => readTy t (immBits t v)
/-- The writes of a result to a lane: extended to 32 bits by the type, or to a pair (R156). -/
def wrLane (t : IType) (r i v : Nat) : List Wr :=
  if wide64 t then [.v r i (BitVec.ofNat 32 v), .v (r + 1) i (BitVec.ofNat 32 (v / 2 ^ 32))]
  else [.v r i (BitVec.ofInt 32 (readTy t v))]

/-- The code of a float type in a register's lane (R156), a subnormal read as zero under DAZ (R61). -/
def laneF (g : Group) (m : Word) (f : FType) (r i : Nat) : Nat :=
  dazCode f (daz m) ((g.vget r i).toNat % 2 ^ fmtBits f)
/-- Operand B at a float type. -/
def fB (g : Group) (m : Word) (f : FType) (b : Src 1024) (i : Nat) : Nat := match b with
  | .reg r => laneF g m f r.val i
  | .imm v => dazCode f (daz m) (immFloat f v)

/-! ### Per-lane results -/

/-- A vector instruction (R158): each lane of G gives its writes and flags from the operands read at issue. -/
def vecResult (G : Nat) (f : Nat → List Wr × Nat) : List Wr × Nat :=
  (lanes G).foldl (fun acc i => let r := f i; (acc.1 ++ r.1, acc.2 ||| r.2)) ([], 0)

/-- A per-lane instruction with results (R34, R158). -/
def perLane (i : Instr) (h : Hd) (f : Ex → Nat → List Wr × Nat) (x : Ex) : Eff :=
  let G := x.guard h
  if G == 0 then .ok x
  else let r := vecResult G (f x); .ok (x.defer i r.1 r.2)

end Sys2Proof.Machine
end

