-- ==== Sys2Proof/Machine/Scalar.lean ====
section
/-!
DEFINITION. The scalar integer and predicate instructions (R112 to R114).
-/
namespace Sys2Proof.Machine

/-- The result of a scalar operation: saturated or wrapped to w bits, then extended (R112). -/
def scalarResult (x : Ex) (o : SOp) (sat : Bool) (f : Int → Int → Int) : DWord × Nat :=
  let r := narrow (signedTy o.ty) (sat && effSat x.t.mode o.sat) o.ty.width (f (sval x.g o.ty o.a) (sB x.g o.ty o.b))
  (extend o.ty r.1, r.2)

/-- The effect of the scalar family (R112): a uniform instruction whose result is written to scalar D. -/
def scalarEff (i : Instr) (o : SOp) (sat : Bool) (f : Int → Int → Int) (x : Ex) : Eff :=
  let r := scalarResult x o sat f
  .ok (x.defer i [.s o.d.val r.1] r.2)

/-- Issue of the scalar family. -/
def scalarOp (i : Instr) (o : SOp) (sat : Bool) (f : Int → Int → Int) (s : State) : Host.Outcome State Fault Refusal :=
  issue i (uniform o.h (scalarEff i o sat f)) s

/-- The w bits of a value read as unsigned. -/
def unsg (t : IType) (a : Int) : Nat := wrapN a t.width
/-- A shift amount modulo w (R112). -/
def samt (t : IType) (b : Int) : Nat := (b % (t.width : Int)).toNat
/-- A bitwise operation on the w bits of both operands. -/
def bitsOp (t : IType) (f : Nat → Nat → Nat) (a b : Int) : Int := (f (unsg t a) (unsg t b) : Nat)
/-- Quotient and remainder with R112's results for a zero divisor. -/
def sdivI (t : IType) (a b : Int) : Int := if b == 0 then (if signedTy t then -1 else 2 ^ t.width - 1) else divTrunc a b
def sremI (a b : Int) : Int := if b == 0 then a else a - b * divTrunc a b

def execSadd (o : SOp) (s : State) := scalarOp (.sadd o) o true (fun a b => a + b) s
def execSsub (o : SOp) (s : State) := scalarOp (.ssub o) o true (fun a b => a - b) s
def execSmul (o : SOp) (s : State) := scalarOp (.smul o) o true (fun a b => a * b) s
def execSmulh (o : SOp) (s : State) := scalarOp (.smulh o) o false (fun a b => a * b / 2 ^ o.ty.width) s
def execSdiv (o : SOp) (s : State) := scalarOp (.sdiv o) o true (sdivI o.ty) s
def execSrem (o : SOp) (s : State) := scalarOp (.srem o) o false sremI s
def execSand (o : SOp) (s : State) := scalarOp (.sand o) o false (bitsOp o.ty (· &&& ·)) s
def execSor (o : SOp) (s : State) := scalarOp (.sor o) o false (bitsOp o.ty (· ||| ·)) s
def execSxor (o : SOp) (s : State) := scalarOp (.sxor o) o false (bitsOp o.ty (· ^^^ ·)) s
def execSshl (o : SOp) (s : State) := scalarOp (.sshl o) o false (fun a b => a * 2 ^ samt o.ty b) s
def execSshr (o : SOp) (s : State) := scalarOp (.sshr o) o false (fun a b => (unsg o.ty a / 2 ^ samt o.ty b : Nat)) s
def execSsra (o : SOp) (s : State) := scalarOp (.ssra o) o false (fun a b => a / 2 ^ samt o.ty b) s
def execSmin (o : SOp) (s : State) := scalarOp (.smin o) o false (fun a b => min a b) s
def execSmax (o : SOp) (s : State) := scalarOp (.smax o) o false (fun a b => max a b) s

/-- `scmp` (R113): 1 or 0. -/
def scmpEff (i : Instr) (cc : CC) (o : SOp) (x : Ex) : Eff :=
  .ok (x.defer i [.s o.d.val (if ccHolds cc (sval x.g o.ty o.a) (sB x.g o.ty o.b) then 1 else 0)] 0)
def execScmp (cc : CC) (o : SOp) (s : State) := issue (.scmp cc o) (uniform o.h (scmpEff (.scmp cc o) cc o)) s

/-- `ssel` keeps to the old D (R113). -/
def sselEff (i : Instr) (o : SOp) (x : Ex) : Eff :=
  let v := if x.g.sget o.d.val != 0 then sval x.g o.ty o.a else sB x.g o.ty o.b
  .ok (x.defer i [.s o.d.val (extend o.ty (wrapN v o.ty.width))] 0)
def execSsel (o : SOp) (s : State) := issue (.ssel o) (uniform o.h (sselEff (.ssel o) o)) s

/-- One scalar written from a value of the group. -/
def toScalar (i : Instr) (h : Hd) (d : SReg) (f : Group → DWord) (s : State) : Host.Outcome State Fault Refusal :=
  issue i (uniform h fun x => .ok (x.defer i [.s d.val (f x.g)] 0)) s

/-- `smov` (R113). -/
def smovVal (ty : IType) (g : Group) : SmovSrc → DWord
  | .reg a => extend ty ((g.sget a.val).toNat % 2 ^ ty.width)
  | .imm v => extend ty (immBits ty v)
def execSmov (h : Hd) (ty : IType) (d : SReg) (src : SmovSrc) (s : State) :=
  toScalar (.smov h ty d src) h d (fun g => smovVal ty g src) s
/-- `smov.hi` keeps bits [31:0] (R113). -/
def execSmovHi (h : Hd) (d : SReg) (v : BitVec 32) (s : State) :=
  toScalar (.smovHi h d v) h d (fun g => BitVec.ofNat 64 ((g.sget d.val).toNat % 2 ^ 32 + 2 ^ 32 * v.toNat)) s
/-- `sbfx` (R113). -/
def sbfxVal (ty : IType) (a pos len : Nat) : DWord :=
  let f := bits a (pos + len - 1) pos
  if signedTy ty then BitVec.ofInt 64 (sext f len) else BitVec.ofNat 64 f
def execSbfx (h : Hd) (ty : IType) (d a : SReg) (pos : Fin 64) (len : Fin 128) (s : State) :=
  toScalar (.sbfx h ty d a pos len) h d (fun g => sbfxVal ty (g.sget a.val).toNat pos.val len.val) s
/-- `sbit` (R113). -/
def execSbit (h : Hd) (ty : IType) (op : BitOp) (d a : SReg) (s : State) :=
  toScalar (.sbit h ty op d a) h d (fun g => BitVec.ofNat 64 (bitOp op ty.width ((g.sget a.val).toNat % 2 ^ ty.width))) s

/-- `sget` reads a lane whether or not it is active (R113). -/
def execSget (h : Hd) (ty : IType) (d : SReg) (a : VSrc) (b : Src10 128) (s : State) :=
  let i : Instr := .sget h ty d a b
  issue i (uniform h fun x =>
    .ok (x.defer i [.s d.val (extend ty (x.g.vget (vidx x.g a) (val10 x.g b % 32)).toNat)] 0)) s

/-- The operation of `plog` on one bit (R114). -/
def plogBit : PLogOp → Bool → Bool → Bool
  | .and, a, b => a && b
  | .or, a, b => a || b
  | .xor, a, b => a != b
  | .andn, a, b => a && !b
  | .orn, a, b => a || !b
  | .not, a, _ => !a
  | .mov, a, _ => a
  | .set, _, _ => true

/-- A predicate written per lane of G (R114). -/
def perLaneP (i : Instr) (h : Hd) (d : PReg) (f : Ex → Nat → Bool) (s : State) : Host.Outcome State Fault Refusal :=
  issue i (perLane i h fun x l => ([.p d.val l (f x l)], 0)) s

def execPlog (h : Hd) (op : PLogOp) (d a b : PReg) (s : State) :=
  perLaneP (.plog h op d a b) h d
    (fun x l => plogBit op ((x.g.pget a.val).getLsbD l) ((x.g.pget b.val).getLsbD l)) s

/-- `pbits` (R114). -/
def execPbits (h : Hd) (f : PbForm) (s : State) : Host.Outcome State Fault Refusal :=
  let i : Instr := .pbits h f
  match f with
  | .tos d a => toScalar i h d (fun g => (g.pget a.val).zeroExtend 64) s
  | .top d a => perLaneP i h d (fun x l => (x.g.sget a.val).getLsbD l) s
  | .pop d a =>
    issue i (uniform h fun x =>
      .ok (x.defer i [.s d.val (BitVec.ofNat 64 (popc 32 ((x.g.pget a.val).toNat &&& x.t.mask)))] 0)) s

end Sys2Proof.Machine
end

