-- ==== Sys2Proof/Machine/VecInt.lean ====
section
/-!
DEFINITION. The vector unit's integer, logic, packed and move instructions (R159 to R166).
-/
namespace Sys2Proof.Machine

/-- A per-lane instruction that may round: the step counter advances as R62 states, whatever the guard. -/
def perLaneR (i : Instr) (h : Hd) (rounds : Bool) (r : Rnd) (f : Ex → Nat → List Wr × Nat) (x : Ex) : Eff :=
  match perLane i h f x with
  | .ok y => .ok (y.stepSr rounds r)
  | e => e

/-- One lane of the integer family (R159). -/
def intLane (x : Ex) (o : VOp) (sat : Bool) (f : Int → Int → Int) (l : Nat) : List Wr × Nat :=
  let r := narrow (signedTy o.ty) (sat && effSat x.t.mode o.sat) o.ty.width
    (f (laneI x.g o.ty (vidx x.g o.a) l) (vB x.g o.ty o.b l))
  (wrLane o.ty o.d.val l r.1, r.2)

/-- The integer family (R159). -/
def intOp (i : Instr) (o : VOp) (sat : Bool) (f : Int → Int → Int) (s : State) : Host.Outcome State Fault Refusal :=
  issue i (perLane i o.h fun x l => intLane x o sat f l) s

def execIadd (o : VOp) (s : State) := intOp (.iadd o) o true (fun a b => a + b) s
def execIsub (o : VOp) (s : State) := intOp (.isub o) o true (fun a b => a - b) s
def execImul (o : VOp) (s : State) := intOp (.imul o) o true (fun a b => a * b) s
def execImulh (o : VOp) (s : State) := intOp (.imulh o) o false (fun a b => a * b / 2 ^ o.ty.width) s
def execImin (o : VOp) (s : State) := intOp (.imin o) o false (fun a b => min a b) s
def execImax (o : VOp) (s : State) := intOp (.imax o) o false (fun a b => max a b) s

/-- `imad`: a × b + c (R159). -/
def imadLane (x : Ex) (o : VOp3) (l : Nat) : List Wr × Nat :=
  let r := narrow (signedTy o.ty) (effSat x.t.mode o.sat) o.ty.width
    (laneI x.g o.ty (vidx x.g o.a) l * vB x.g o.ty o.b l + laneI x.g o.ty o.c.val l)
  (wrLane o.ty o.d.val l r.1, r.2)
def execImad (o : VOp3) (s : State) := issue (.imad o) (perLane (.imad o) o.h fun x l => imadLane x o l) s

/-- `iabs` (R159). -/
def iabsLane (x : Ex) (ty : IType) (sat : Bool) (d : VReg) (a : VSrc) (l : Nat) : List Wr × Nat :=
  let r := narrow true (effSat x.t.mode sat) ty.width ((laneI x.g ty (vidx x.g a) l).natAbs : Int)
  (wrLane ty d.val l r.1, r.2)
def execIabs (h : Hd) (ty : IType) (sat : Bool) (d : VReg) (a : VSrc) (s : State) :=
  let i : Instr := .iabs h ty sat d a
  issue i (perLane i h fun x l => iabsLane x ty sat d a l) s

/-- The w bits of lane l of operands A and B. -/
def bitsA (x : Ex) (o : VOp) (l : Nat) : Nat := wrapN (laneI x.g o.ty (vidx x.g o.a) l) o.ty.width
def bitsB (x : Ex) (o : VOp) (l : Nat) : Nat := wrapN (vB x.g o.ty o.b l) o.ty.width
/-- The shift amount of R160: bits [5:0] of the single register or the immediate, modulo w. -/
def shiftAmt (x : Ex) (o : VOp) (l : Nat) : Nat :=
  (match o.b with
   | .reg r => (x.g.vget r.val l).toNat
   | .imm v => immBits .b32 v) % 64 % o.ty.width

/-- A logic or shift instruction (R160): the result's bits from those of the operands. -/
def logicOp (i : Instr) (o : VOp) (f : Ex → Nat → Nat) (s : State) : Host.Outcome State Fault Refusal :=
  issue i (perLane i o.h fun x l => (wrLane o.ty o.d.val l (f x l), 0)) s

def execAnd (o : VOp) (s : State) := logicOp (.and o) o (fun x l => bitsA x o l &&& bitsB x o l) s
def execOr (o : VOp) (s : State) := logicOp (.or o) o (fun x l => bitsA x o l ||| bitsB x o l) s
def execXor (o : VOp) (s : State) := logicOp (.xor o) o (fun x l => bitsA x o l ^^^ bitsB x o l) s
def execShl (o : VOp) (s : State) := logicOp (.shl o) o (fun x l => bitsA x o l * 2 ^ shiftAmt x o l % 2 ^ o.ty.width) s
def execShr (o : VOp) (s : State) := logicOp (.shr o) o (fun x l => bitsA x o l / 2 ^ shiftAmt x o l) s
def execSra (o : VOp) (s : State) :=
  logicOp (.sra o) o (fun x l => wrapN (laneI x.g o.ty (vidx x.g o.a) l / 2 ^ shiftAmt x o l) o.ty.width) s

/-- `rshr`: a / 2^s rounded to an integer (R160). -/
def rshrLane (x : Ex) (rnd : Rnd) (o : VOp) (l : Nat) : List Wr × Nat :=
  let a := laneI x.g o.ty (vidx x.g o.a) l
  let r := roundInt (effRnd x.t.mode rnd) (decide (a < 0)) a.natAbs (-(shiftAmt x o l : Int)) (x.draw l 0)
  (wrLane o.ty o.d.val l (wrapN r.1 o.ty.width), if r.2 then fINX else 0)
def execRshr (rnd : Rnd) (o : VOp) (s : State) :=
  issue (.rshr rnd o) (perLaneR (.rshr rnd o) o.h true rnd fun x l => rshrLane x rnd o l) s

/-- `icmp` (R161). -/
def execIcmp (h : Hd) (ty : IType) (cc : CC) (d : PReg) (a : VSrc) (b : Src 1024) (s : State) :=
  let i : Instr := .icmp h ty cc d a b
  issue i (perLane i h fun x l => ([.p d.val l (ccHolds cc (laneI x.g ty (vidx x.g a) l) (vB x.g ty b l))], 0)) s

/-- `sel` (R161). -/
def execSel (n : PReg) (o : VOp) (s : State) :=
  logicOp (.sel n o) o (fun x l => if (x.g.pget n.val).getLsbD l then bitsA x o l else bitsB x o l) s

/-- The field operation of `bfx` (R162): none leaves D unchanged. -/
def bfxVal (ty : IType) (ins : Bool) (old a pos len : Nat) : Option Nat :=
  let w := ty.width
  if len == 0 || pos ≥ w then (if ins then none else some 0)
  else
    let k := min len (w - pos)
    if ins then some (old - bits old (pos + k - 1) pos * 2 ^ pos + bits a (k - 1) 0 * 2 ^ pos)
    else
      let f := bits a (pos + k - 1) pos
      some (if signedTy ty then wrapN (sext f k) w else f)
def bfxLane (x : Ex) (ty : IType) (ins : Bool) (d : VReg) (a : VSrc) (pos len l : Nat) : List Wr × Nat :=
  match bfxVal ty ins (rawLane x.g (wide64 ty) d.val l) (rawLane x.g (wide64 ty) (vidx x.g a) l) pos len with
  | some v => (wrLane ty d.val l v, 0)
  | none => ([], 0)
def execBfx (h : Hd) (ty : IType) (ins : Bool) (d : VReg) (a : VSrc) (pos : Fin 64) (len : Fin 128) (s : State) :=
  let i : Instr := .bfx h ty ins d a pos len
  issue i (perLane i h fun x l => bfxLane x ty ins d a pos.val len.val l) s
def execBfxReg (h : Hd) (ty : IType) (ins : Bool) (d : VReg) (a : VSrc) (b c : VReg) (s : State) :=
  let i : Instr := .bfxReg h ty ins d a b c
  issue i (perLane i h fun x l =>
    bfxLane x ty ins d a ((x.g.vget b.val l).toNat % 64) ((x.g.vget c.val l).toNat % 128) l) s

/-- `bit` (R163): a count goes to the single register D. -/
def execBit (h : Hd) (ty : IType) (op : BitOp) (d : VReg) (a : VSrc) (s : State) :=
  let i : Instr := .bit h ty op d a
  issue i (perLane i h fun x l =>
    let v := bitOp op ty.width (rawLane x.g (wide64 ty) (vidx x.g a) l)
    (if op == .brev || op == .bswap then wrLane ty d.val l v else [.v d.val l (BitVec.ofNat 32 v)], 0)) s

/-- The value `mov` gives a lane (R164). -/
def movVal (x : Ex) (ty : IType) (l : Nat) : MovSrc → Nat
  | .vec a => rawLane x.g (wide64 ty) (vidx x.g a) l % 2 ^ ty.width
  | .imm v => immBits ty v
  | .scl a => (x.g.sget a.val).toNat % 2 ^ ty.width
  | .lane => l
/-- `.i16x2` moves both elements as they stand. -/
def execMov (h : Hd) (ty : IType) (d : VReg) (src : MovSrc) (s : State) :=
  let i : Instr := .mov h ty d src
  issue i (perLane i h fun x l => (wrLane (if ty == .i16x2 then .b32 else ty) d.val l (movVal x ty l src), 0)) s

/-! ### Packed (R165, R166) -/

/-- Element e of an `.i16x2` word (R156). -/
def half (v e : Nat) : Int := sext (v / 2 ^ (16 * e)) 16
/-- Operand B as an `.i16x2` word. -/
def packB (x : Ex) (b : Src 1024) (l : Nat) : Nat := match b with
  | .reg r => (x.g.vget r.val l).toNat
  | .imm v => immBits .i16x2 v
/-- Two 16-bit results into a word. -/
def join2 (a b : Nat × Nat) : Nat × Nat := (a.1 + 65536 * b.1, a.2 ||| b.2)
/-- A packed operation on both elements (R165). -/
def packLane (x : Ex) (o : VOp) (f : Int → Int → Int) (l : Nat) : List Wr × Nat :=
  let a := (x.g.vget (vidx x.g o.a) l).toNat
  let b := packB x o.b l
  let el (e : Nat) := narrow true (effSat x.t.mode o.sat) 16 (f (half a e) (half b e))
  let r := join2 (el 0) (el 1)
  ([.v o.d.val l (BitVec.ofNat 32 r.1)], r.2)
def packOp (i : Instr) (o : VOp) (f : Int → Int → Int) (s : State) : Host.Outcome State Fault Refusal :=
  issue i (perLane i o.h fun x l => packLane x o f l) s
def execPadd (o : VOp) (s : State) := packOp (.padd o) o (fun a b => a + b) s
def execPsub (o : VOp) (s : State) := packOp (.psub o) o (fun a b => a - b) s
def execPmul (o : VOp) (s : State) := packOp (.pmul o) o (fun a b => a * b) s

/-- `pack` (R165): an immediate is read as `.i32`. -/
def execPack (h : Hd) (sat : Bool) (d : VReg) (a : VSrc) (b : Src10 1024) (s : State) :=
  let i : Instr := .pack h sat d a b
  issue i (perLane i h fun x l =>
    let bv : Int := match b with
      | .reg r => laneI x.g .i32 r.val l
      | .imm v => sext v.toNat 10
    let r := join2 (narrow true (effSat x.t.mode sat) 16 (laneI x.g .i32 (vidx x.g a) l)) (narrow true (effSat x.t.mode sat) 16 bv)
    ([.v d.val l (BitVec.ofNat 32 r.1)], r.2)) s
/-- `unpk` (R165). -/
def execUnpk (h : Hd) (hi : Bool) (d : VReg) (a : VSrc) (s : State) :=
  let i : Instr := .unpk h hi d a
  issue i (perLane i h fun x l =>
    ([.v d.val l (BitVec.ofInt 32 (half (x.g.vget (vidx x.g a) l).toNat (if hi then 1 else 0)))], 0)) s

/-- `pdot2` (R166): a wrapping accumulation outside INT32 sets OVF. -/
def pdot2Lane (x : Ex) (o : VOp3) (l : Nat) : List Wr × Nat :=
  let a := (x.g.vget (vidx x.g o.a) l).toNat
  let b := packB x o.b l
  let t := laneI x.g .i32 o.c.val l + half a 0 * half b 0 + half a 1 * half b 1
  if effSat x.t.mode o.sat then
    let r := satInt true 32 t
    ([.v o.d.val l (BitVec.ofInt 32 r.1)], r.2)
  else ([.v o.d.val l (BitVec.ofInt 32 t)], if t < -(2 ^ 31) || t ≥ 2 ^ 31 then fOVF else 0)
def execPdot2 (o : VOp3) (s : State) := issue (.pdot2 o) (perLane (.pdot2 o) o.h fun x l => pdot2Lane x o l) s

end Sys2Proof.Machine
end

