-- ==== Sys2Proof/Machine/VecFlt.lean ====
section
/-!
DEFINITION. The vector unit's floating-point arithmetic and conversions (R167 to R172).
-/
namespace Sys2Proof.Machine

/-- Values of operands A and B of a float instruction. -/
def fA (x : Ex) (ty : FType) (a : VSrc) (l : Nat) : Xv := fvalue ty .ieee (laneF x.g x.t.mode ty (vidx x.g a) l)
def fBv (x : Ex) (ty : FType) (b : Src 1024) (l : Nat) : Xv := fvalue ty .ieee (fB x.g x.t.mode ty b l)

/-- Round a lane's exact result and write it (R167). -/
def floatOut (x : Ex) (ty : FType) (rnd : Rnd) (sat : Bool) (d l : Nat) (r : Xv × Nat) : List Wr × Nat :=
  let y := roundV ty .ieee (effRnd x.t.mode rnd) (effSat x.t.mode sat) (ftz x.t.mode) (x.draw l 0) r
  ([.v d l (BitVec.ofNat 32 y.1)], y.2)

/-- A float instruction of two operands (R168); the exact operation is told whether the rounding is toward −∞. -/
def floatOp (i : Instr) (o : FOp) (f : Bool → Xv → Xv → Xv × Nat) (s : State) : Host.Outcome State Fault Refusal :=
  issue i (perLaneR i o.h true o.rnd fun x l =>
    floatOut x o.ty o.rnd o.sat o.d.val l (f (effRnd x.t.mode o.rnd == .rmi) (fA x o.ty o.a l) (fBv x o.ty o.b l))) s
/-- A float instruction of one operand (R168). -/
def floatUn (i : Instr) (o : FUn) (f : Xv → Xv × Nat) (s : State) : Host.Outcome State Fault Refusal :=
  issue i (perLaneR i o.h true o.rnd fun x l => floatOut x o.ty o.rnd o.sat o.d.val l (f (fA x o.ty o.a l))) s

def execFadd (o : FOp) (s : State) := floatOp (.fadd o) o xAdd s
def execFsub (o : FOp) (s : State) := floatOp (.fsub o) o (fun m a b => xAdd m a b.neg) s
def execFmul (o : FOp) (s : State) := floatOp (.fmul o) o (fun _ a b => xMul a b) s
def execFdiv (o : FOp) (s : State) := floatOp (.fdiv o) o (fun _ a b => xDiv a b) s
def execFfma (o : FOp3) (s : State) :=
  let i : Instr := .ffma o
  issue i (perLaneR i o.h true o.rnd fun x l =>
    floatOut x o.ty o.rnd o.sat o.d.val l (xFma (effRnd x.t.mode o.rnd == .rmi) (fA x o.ty o.a l) (fBv x o.ty o.b l)
      (fvalue o.ty .ieee (laneF x.g x.t.mode o.ty o.c.val l)))) s
def execFrcp (o : FUn) (s : State) := floatUn (.frcp o) o (fun a => xDiv (.num false 1 0) a) s
def execFrsq (o : FUn) (s : State) := floatUn (.frsq o) o xRsqrt s
def execFsqrt (o : FUn) (s : State) := floatUn (.fsqrt o) o xSqrt s
def execFexp2 (o : FUn) (s : State) := floatUn (.fexp2 o) o xExp2 s
def execFlog2 (o : FUn) (s : State) := floatUn (.flog2 o) o xLog2 s

/-- `fmin` and `fmax` select an operand's code; a signalling NaN sets INV (R145, R168). -/
def minMaxLane (x : Ex) (o : FOp) (big : Bool) (l : Nat) : List Wr × Nat :=
  let a := laneF x.g x.t.mode o.ty (vidx x.g o.a) l
  let b := fB x.g x.t.mode o.ty o.b l
  let fl := if (fvalue o.ty .ieee a).isSig || (fvalue o.ty .ieee b).isSig then fINV else 0
  ([.v o.d.val l (BitVec.ofNat 32 (minMaxCode o.ty big a b))], fl)
def execFmin (o : FOp) (s : State) := issue (.fmin o) (perLane (.fmin o) o.h fun x l => minMaxLane x o false l) s
def execFmax (o : FOp) (s : State) := issue (.fmax o) (perLane (.fmax o) o.h fun x l => minMaxLane x o true l) s

/-- Result and INV of a float comparison (R169). -/
def fcmpVal (cc : FCC) (a b : Xv) : Bool × Nat :=
  let un := a.isNan || b.isNan
  let sg := if a.isSig || b.isSig then fINV else 0
  match cc with
  | .eq => (!un && xEq a b, sg)
  | .ne => (un || !xEq a b, sg)
  | .lt => if un then (false, fINV) else (xLess a b && !xEq a b, 0)
  | .le => if un then (false, fINV) else (xLess a b || xEq a b, 0)
  | .gt => if un then (false, fINV) else (xLess b a && !xEq a b, 0)
  | .ge => if un then (false, fINV) else (xLess b a || xEq a b, 0)
  | .un => (un, sg)
  | .ord => (!un, sg)
def execFcmp (h : Hd) (ty : FType) (cc : FCC) (d : PReg) (a : VSrc) (b : Src 1024) (s : State) :=
  let i : Instr := .fcmp h ty cc d a b
  issue i (perLane i h fun x l =>
    let r := fcmpVal cc (fA x ty a l) (fBv x ty b l)
    ([.p d.val l r.1], r.2)) s

/-- The class bit of a code (R170). -/
def fclassBit (f : FType) (c : Nat) : Nat :=
  let neg := bit c (fmtBits f - 1)
  match fvalue f .ieee c with
  | .nan sg => if sg then 8 else 9
  | .inf n => if n then 0 else 7
  | .num _ m _ => if m == 0 then (if neg then 3 else 4) else if isSub f c then (if neg then 2 else 5) else (if neg then 1 else 6)
def execFclass (h : Hd) (ty : FType) (d : VReg) (a : VSrc) (s : State) :=
  let i : Instr := .fclass h ty d a
  issue i (perLane i h fun x l =>
    ([.v d.val l (BitVec.ofNat 32 (2 ^ fclassBit ty ((x.g.vget (vidx x.g a) l).toNat % 2 ^ fmtBits ty)))], 0)) s

/-- `frnd`: a rounded to an integral value of the type (R168). -/
def frndX (rnd : Rnd) (draw : Nat) (a : Xv) : Xv × Nat :=
  match nanOps [a] with
  | some r => r
  | none => match a with
    | .num n m e =>
      let r := roundInt rnd n m e draw
      (ofInt n r.1 0, if r.2 then fINX else 0)
    | v => (v, 0)
def execFrnd (o : FUn) (s : State) :=
  let i : Instr := .frnd o
  issue i (perLaneR i o.h true o.rnd fun x l =>
    let rnd := effRnd x.t.mode o.rnd
    floatOut x o.ty o.rnd false o.d.val l (match frndX rnd (x.draw l 0) (fA x o.ty o.a l) with
      | (.num n m e, fl) => (if m == 0 then .num (fA x o.ty o.a l).sign 0 0 else .num n m e, fl)
      | r => r)) s

/-- `fscl`: a × 2^b, b an integer (R168); far exponents are cut where every type has overflowed or vanished. -/
def fsclX (a : Xv) (b : Int) : Xv × Nat :=
  match nanOps [a] with
  | some r => r
  | none => match a with
    | .num n m e => (.num n m (e + max (-100000) (min 100000 b)), 0)
    | v => (v, 0)
def execFscl (o : FOp) (s : State) :=
  let i : Instr := .fscl o
  issue i (perLaneR i o.h true o.rnd fun x l =>
    floatOut x o.ty o.rnd o.sat o.d.val l (fsclX (fA x o.ty o.a l) (vB x.g .i32 o.b l))) s

/-! ### Conversions (R171, R172) -/

/-- The exact pairs of R171: source and its reading, destination. -/
def exactPair (st dt : FType) (rd : Reading) : Bool :=
  st == dt ||
  match st, dt with
  | .f16, .f32 => true
  | .bf16, .f32 => true
  | .e4m3, .f32 => true
  | .e4m3, .bf16 => true
  | .e4m3, .f16 => true
  | .e5m2, .f32 => true
  | .e5m2, .bf16 => true
  | .e5m2, .f16 => rd == .ieee
  | .e2m1, .f32 => true
  | .e2m1, .bf16 => true
  | .e2m1, .f16 => true
  | .e2m1, .e4m3 => true
  | .e2m1, .e5m2 => true
  | _, _ => false

/-- The code of an exact value in a type that holds it. -/
def exactCode (f : FType) (rd : Reading) (x : Xv) : Nat :=
  match x with
  | .nan _ => nanCode f rd
  | .inf n => signBit f n + infCode f
  | v => (roundF f rd .rtz false 0 v).1

/-- A converted code (R171): an exact pair neither rounds nor flushes, and a conversion to a narrow format never flushes (R61): DAZ, which R61
counts as flushing, acts on neither, and on a wide operand of any other pair. DEDUCED (notes/assumptions/97.md). -/
def cvtCode (x : Ex) (dt st : FType) (rnd : Rnd) (sat : Bool) (l e c : Nat) : Nat × Nat :=
  let rs := effRd x.t.fmt st
  let rd := effRd x.t.fmt dt
  if exactPair st dt rs then
    let v := fvalue st rs c
    (exactCode dt rd v, if v.isSig then fINV else 0)
  else
    roundV dt rd (effRnd x.t.mode rnd) (effSat x.t.mode sat) (ftz x.t.mode && wideF dt) (x.draw l e)
      (fvalue st rs (dazCode st (daz x.t.mode && wideF dt) c), 0)

/-- The lanes of `cvt`; PK packs or unpacks four codes (R172). A widening that rounds stochastically draws with e the number of the byte, as R62
gives for packed results. DESIGN CHOICE (notes/assumptions/89.md): R172 states idx for narrowing only. -/
def cvtLane (x : Ex) (dt st : FType) (pk : Bool) (rnd : Rnd) (sat : Bool) (d : VReg) (a : VSrc) (l : Nat) : List Wr × Nat :=
  let ai := vidx x.g a
  let m := 2 ^ fmtBits st
  if !pk then
    let r := cvtCode x dt st rnd sat l 0 ((x.g.vget ai l).toNat % m)
    ([.v d.val l (BitVec.ofNat 32 r.1)], r.2)
  else if wideF dt then
    (upto 4).foldl (fun acc e =>
      let r := cvtCode x dt st rnd sat l e (bits (x.g.vget ai l).toNat (8 * e + 7) (8 * e))
      (acc.1 ++ [.v (d.val + e) l (BitVec.ofNat 32 r.1)], acc.2 ||| r.2)) ([], 0)
  else
    let r := (upto 4).foldl (fun (acc : Nat × Nat) e =>
      let r := cvtCode x dt st rnd sat l e ((x.g.vget (ai + e) l).toNat % m)
      (acc.1 + r.1 * 2 ^ (8 * e), acc.2 ||| r.2)) (0, 0)
    ([.v d.val l (BitVec.ofNat 32 r.1)], r.2)
/-- Whether a `cvt` rounds is decided by the types and the readings at issue (R62, R171). -/
def cvtEff (i : Instr) (h : Hd) (dt st : FType) (pk : Bool) (rnd : Rnd) (sat : Bool) (d : VReg) (a : VSrc) (x : Ex) : Eff :=
  let dt := effF x.t.fmt dt
  let st := effF x.t.fmt st
  perLaneR i h (!exactPair st dt (effRd x.t.fmt st)) rnd (fun x l => cvtLane x dt st pk rnd sat d a l) x
def execCvt (h : Hd) (dt st : FType) (pk : Bool) (rnd : Rnd) (sat : Bool) (d : VReg) (a : VSrc) (s : State) :=
  let i : Instr := .cvt h dt st pk rnd sat d a
  issue i (cvtEff i h dt st pk rnd sat d a) s

/-- Float to integer (R171): a NaN gives 0 with INV, the rest saturates. -/
def cvtfiVal (it : IType) (rnd : Rnd) (draw : Nat) (v : Xv) : Nat × Nat :=
  let w := it.width
  let sg := signedTy it
  match v with
  | .nan _ => (0, fINV)
  | .inf n => let r := satInt sg w (if n then -(2 ^ 80) else 2 ^ 80); (wrapN r.1 w, fSATF ||| fINX)
  | .num n m e =>
    if (bitLen m : Int) + e > 100 then let r := satInt sg w (if n then -(2 ^ 80) else 2 ^ 80); (wrapN r.1 w, fSATF ||| fINX)
    else
      let t := roundInt rnd n m e draw
      let r := satInt sg w t.1
      (wrapN r.1 w, if r.2 != 0 then fSATF ||| fINX else if t.2 then fINX else 0)
def execCvtfi (h : Hd) (it : IType) (ft : FType) (rnd : Rnd) (d : VReg) (a : VSrc) (s : State) :=
  let i : Instr := .cvtfi h it ft rnd d a
  issue i (perLaneR i h true rnd fun x l =>
    let f := effF x.t.fmt ft
    let c := dazCode f (daz x.t.mode) ((x.g.vget (vidx x.g a) l).toNat % 2 ^ fmtBits f)
    let r := cvtfiVal it (effRnd x.t.mode rnd) (x.draw l 0) (fvalue f (effRd x.t.fmt f) c)
    (wrLane it d.val l r.1, r.2)) s

/-- Integer to float (R171). -/
def execCvtif (h : Hd) (ft : FType) (it : IType) (rnd : Rnd) (sat : Bool) (d : VReg) (a : VSrc) (s : State) :=
  let i : Instr := .cvtif h ft it rnd sat d a
  issue i (perLaneR i h true rnd fun x l =>
    let f := effF x.t.fmt ft
    let y := roundV f (effRd x.t.fmt f) (effRnd x.t.mode rnd) (effSat x.t.mode sat) (ftz x.t.mode && wideF f) (x.draw l 0)
      (ofInt false (laneI x.g it (vidx x.g a) l) 0, 0)
    ([.v d.val l (BitVec.ofNat 32 y.1)], y.2)) s

/-- Integer to integer (R171). -/
def execCvti (h : Hd) (dt st : IType) (sat : Bool) (d : VReg) (a : VSrc) (s : State) :=
  let i : Instr := .cvti h dt st sat d a
  issue i (perLane i h fun x l =>
    let r := narrow (signedTy dt) (effSat x.t.mode sat) dt.width (laneI x.g st (vidx x.g a) l)
    (wrLane dt d.val l r.1, r.2)) s

end Sys2Proof.Machine
end

