-- ==== Sys2Proof/Machine/VecX.lean ====
section
/-!
DEFINITION. Cross-lane instructions, reductions, votes, matches and the flag instructions (R173 to R182). A source lane is read
whatever its state (R173).
-/
namespace Sys2Proof.Machine

/-- The source lane of `xlane` (R174): none is outside the group. -/
def xlaneSrc (m : XMode) (i b : Nat) : Option Nat :=
  match m with
  | .pick => some (b % 32)
  | .lo => if b ≤ i then some (i - b) else none
  | .hi => if i + b ≤ 31 then some (i + b) else none
  | .mir => some (i ^^^ (b % 32))
def execXlane (h : Hd) (ty : IType) (m : XMode) (keep : Bool) (d : VReg) (a : VSrc) (b : Src 1024) (s : State) :=
  let i : Instr := .xlane h ty m keep d a b
  issue i (perLane i h fun x l =>
    let bv := wrapN (vB x.g .n32 b l) 32
    let v := match xlaneSrc m l bv with
      | some k => rawLane x.g (wide64 ty) (vidx x.g a) k
      | none => if keep then rawLane x.g (wide64 ty) (vidx x.g a) l else 0
    (wrLane ty d.val l v, 0)) s

/-- Element e of a register: a lane for `.b32`, a half for `.i16x2` (R175). -/
def elem (g : Group) (ty : IType) (r e : Nat) : Nat :=
  if ty == .i16x2 then bits (g.vget r (e / 2)).toNat (16 * (e % 2) + 15) (16 * (e % 2)) else (g.vget r e).toNat
/-- The element that enters at e of D (R175): `up` from the block before A, `dn` from the block after. -/
def slideElem (E n : Nat) (dn : Bool) (e : Nat) (av fv : Nat → Nat) : Nat :=
  if dn then (if e + n < E then av (e + n) else fv (e + n - E)) else (if n ≤ e then av (e - n) else fv (E + e - n))
/-- One lane of `slide`. -/
def slideLane (g : Group) (ty : IType) (dn : Bool) (d ai n : Nat) (fill : Nat → Nat) (l : Nat) : List Wr × Nat :=
  let E := if ty == .i16x2 then 64 else 32
  let f (e : Nat) := slideElem E n dn e (elem g ty ai) fill
  ([.v d l (BitVec.ofNat 32 (if ty == .i16x2 then f (2 * l) + 65536 * f (2 * l + 1) else f l))], 0)
/-- The amount, at most E (R175). -/
def slideAmt (g : Group) (ty : IType) : Amt → Nat
  | .imm n => n.val
  | .reg c => min (g.sget c.val).toNat (if ty == .i16x2 then 64 else 32)
def execSlide (h : Hd) (ty : IType) (dn : Bool) (d : VReg) (a : VSrc) (b : VReg) (n : Amt) (s : State) :=
  let i : Instr := .slide h ty dn d a b n
  issue i (perLane i h fun x l =>
    slideLane x.g ty dn d.val (vidx x.g a) (slideAmt x.g ty n) (elem x.g ty b.val) l) s
def execSlideImm (h : Hd) (ty : IType) (dn : Bool) (d : VReg) (a : VSrc) (fill : BitVec 32) (n : Amt) (s : State) :=
  let i : Instr := .slideImm h ty dn d a fill n
  issue i (perLane i h fun x l =>
    slideLane x.g ty dn d.val (vidx x.g a) (slideAmt x.g ty n)
      (fun e => if ty == .i16x2 then bits fill.toNat (16 * (e % 2) + 15) (16 * (e % 2)) else fill.toNat) l) s

/-- `bcast` (R176). -/
def execBcast (h : Hd) (ty : IType) (d : VReg) (a : VSrc) (b : Src 128) (s : State) :=
  let i : Instr := .bcast h ty d a b
  issue i (perLane i h fun x l =>
    let k := match b with
      | .reg r => (x.g.sget r.val).toNat % 32
      | .imm v => immBits .b32 v % 32
    (wrLane ty d.val l (rawLane x.g (wide64 ty) (vidx x.g a) k), 0)) s

/-! ### Reductions and scans (R177) -/

/-- The type of a reduction's elements. -/
def redTy : RedOp → IType
  | .int _ t => t
  | .flt _ _ => .b32
/-- One step of an integer reduction on w-bit values. -/
def redInt (o : IRed) (t : IType) (r x : Nat) : Nat :=
  let w := t.width
  match o with
  | .add => (r + x) % 2 ^ w
  | .min => if readTy t x < readTy t r then x else r
  | .max => if readTy t r < readTy t x then x else r
  | .and => r &&& x
  | .or => r ||| x
  | .xor => r ^^^ x
/-- One step of a float reduction (R177): the first value stands as it is, later ones under DAZ. -/
def redFlt (m : Word) (o : FRed) (rnd : Rnd) (r x : Nat) : Nat × Nat :=
  let a := dazCode .f32 (daz m) r
  let b := dazCode .f32 (daz m) x
  let va := fvalue .f32 .ieee a
  let vb := fvalue .f32 .ieee b
  match o with
  | .fadd =>
    let rn := if rnd == .dflt then (if drnd m == .rs then .rne else drnd m) else rnd
    roundV .f32 .ieee rn false (ftz m) 0 (xAdd (rn == .rmi) va vb)
  | .fmin => (minMaxCode .f32 false a b, if va.isSig || vb.isSig then fINV else 0)
  | .fmax => (minMaxCode .f32 true a b, if va.isSig || vb.isSig then fINV else 0)
/-- One step with its flags. -/
def redStep (m : Word) (op : RedOp) (r x : Nat) : Nat × Nat :=
  match op with
  | .int o t => (redInt o t r x, 0)
  | .flt o rnd => redFlt m o rnd r x
/-- The identity of an operation (R177). -/
def redId : RedOp → Nat
  | .int .add _ => 0
  | .int .min t => if signedTy t then 2 ^ (t.width - 1) - 1 else 2 ^ t.width - 1
  | .int .max t => if signedTy t then 2 ^ (t.width - 1) else 0
  | .int .and t => 2 ^ t.width - 1
  | .int .or _ => 0
  | .int .xor _ => 0
  | .flt .fadd _ => 0x80000000
  | .flt .fmin _ => 0x7F800000
  | .flt .fmax _ => 0xFF800000
/-- The running values over a list of lanes, ascending, and the flags of every step. -/
def redScan (m : Word) (op : RedOp) (val : Nat → Nat) : List Nat → Option Nat → List (Nat × Option Nat × Nat) × Nat
  | [], _ => ([], 0)
  | l :: t, prev =>
    let r := match prev with
      | none => (val l, 0)
      | some p => redStep m op p (val l)
    let rest := redScan m op val t (some r.1)
    ((l, prev, r.1) :: rest.1, r.2 ||| rest.2)

/-- The scan of the lanes of G of operand A. -/
def redOf (x : Ex) (op : RedOp) (a : VSrc) (G : Nat) : List (Nat × Option Nat × Nat) × Nat :=
  redScan x.t.mode op (fun l => rawLane x.g (wide64 (redTy op)) (vidx x.g a) l) (lanes G) none

def execVred (h : Hd) (op : RedOp) (d : SReg) (a : VSrc) (s : State) :=
  let i : Instr := .vred h op d a
  issue i (uniform h fun x =>
    let r := redOf x op a (x.guard h)
    let v := (r.1.getLast?.map fun e => e.2.2).getD 0
    .ok (x.defer i [.s d.val (extend (redTy op) v)] r.2)) s
def execScan (h : Hd) (excl : Bool) (op : RedOp) (d : VReg) (a : VSrc) (s : State) :=
  let i : Instr := .scan h excl op d a
  issue i (fun x =>
    let G := x.guard h
    if G == 0 then .ok x
    else
      let r := redOf x op a G
      .ok (x.defer i (r.1.flatMap fun e => wrLane (redTy op) d.val e.1 (if excl then e.2.1.getD (redId op) else e.2.2)) r.2)) s

/-- `poll` (R178). -/
def pollVal (op : PollOp) (bs : List Bool) : Bool :=
  match op with
  | .some => bs.any id
  | .every => bs.all id
  | .same => bs.all id || !bs.any id
  | .nil => !bs.any id
  | .odd => (bs.filter id).length % 2 == 1
def execPoll (h : Hd) (op : PollOp) (d a : PReg) (s : State) :=
  perLaneP (.poll h op d a) h d
    (fun x _ => pollVal op ((lanes (x.guard h)).map fun l => (x.g.pget a.val).getLsbD l)) s

/-- `vmatch` (R179). -/
def execVmatch (h : Hd) (ty : IType) (d : VReg) (a : VSrc) (s : State) :=
  let i : Instr := .vmatch h ty d a
  issue i (perLane i h fun x l =>
    let v (k : Nat) := rawLane x.g (wide64 ty) (vidx x.g a) k
    ([.v d.val l (BitVec.ofNat 32 (maskOf ((lanes (x.guard h)).filter fun k => v k == v l)))], 0)) s

/-! ### Flags (R180, R181) -/

/-- A read that record mode covers (R407): the value goes on, or the tiller waits for room, or the VD's groups stop. -/
def Ex.recorded (x : Ex) (v : Nat) (k : Ex → Nat → Eff) : Eff :=
  let (s, r) := x.s.recRead x.b.slice x.b.pid x.b.vd x.b.launch x.b.idx x.c.g x.g.recCnt v
  match r with
  | .val v => k { x with s := s, g := { x.g with recCnt := x.g.recCnt + 1 } } v
  | .full => .wait s (.longWait .recRoom)
  | .stopped => .wait s .ready

def execFlgrd (h : Hd) (clr : Bool) (d : SReg) (s : State) :=
  let i : Instr := .flgrd h clr d
  issue i (uniform h fun x => x.recorded x.g.flags fun x v =>
    let x := x.defer i [.s d.val (BitVec.ofNat 64 v)] 0
    .ok (if clr then { x with g := { x.g with flags := x.g.flags - (x.g.flags &&& v) } } else x)) s
/-- The new `%flags` of `flgwr` (R181). -/
def flgNew (op : FlgOp) (f v : Nat) : Nat :=
  match op with
  | .or => f ||| v
  | .andn => f - (f &&& v)
  | .mov => v
def execFlgwr (h : Hd) (op : FlgOp) (b : Src 128) (s : State) :=
  let i : Instr := .flgwr h op b
  issue i (uniform h fun x =>
    let v := (match b with
      | .reg r => (x.g.sget r.val).toNat
      | .imm v => immBits .b32 v) % 16
    .ok { x with g := { x.g with flags := flgNew op x.g.flags v } }) s

end Sys2Proof.Machine
end

