-- ==== Sys2Proof/Machine/LsuOps.lean ====
section
/-!
DEFINITION. The load-store unit's shared operations: what one lane does to its location (R129, R144, R145), the checks of R118, the
coalescer and the request slots (R119 to R123, R286), the L1 data cache and near ways (R124), acquires (R139), causal
stamps (R140), and how requests end, park and replay (R125 to R127).
-/
namespace Sys2Proof.Machine

/-! ### One lane's operation -/

/-- New value and flags of an atomic (R144, R145); the mode word 1 is RNE with neither DAZ nor FTZ. -/
def atomNew (op : AOp) (o b : Nat) : Nat × Nat :=
  match op with
  | .int a t =>
    let v := match a with
      | .add => (o + b) % 2 ^ t.width
      | .min => if readTy t b < readTy t o then b else o
      | .max => if readTy t o < readTy t b then b else o
      | .and => o &&& b
      | .or => o ||| b
      | .xor => o ^^^ b
      | .exch => b
      | .inc => if o ≥ b then 0 else o + 1
      | .dec => if o == 0 || o > b then b else o - 1
    (v, 0)
  | .flt .fadd => redFlt 1 .fadd .rne o b
  | .flt .fmin => redFlt 1 .fmin .rne o b
  | .flt .fmax => redFlt 1 .fmax .rne o b

/-- The new value, if the operation writes, and its flags, from the old value. -/
def elStep (op : ElOp) (o : Nat) : Option Nat × Nat :=
  match op with
  | .read => (none, 0)
  | .write x => (some x, 0)
  | .atom a x => let r := atomNew a o x; (some r.1, r.2)
  | .cas c n => (if o == c then some n else none, 0)
  | .ord _ _ _ => (none, 0)
  | .line _ => (none, 0)

/-- Lanes of one granule in ascending order (R132) on its 128 bytes: the bytes, the old value of each lane, the flags. -/
def elRun (base : Nat) : List LOp → List Byte → List Byte × List (Nat × Nat) × Nat
  | [], b => (b, [], 0)
  | o :: t, b =>
    let at' := o.va - base
    let old := ofBytes ((b.drop at').take o.size)
    let r := elStep o.op old
    let b := match r.1 with
      | some v => splice b at' (toBytes o.size v)
      | none => b
    let rest := elRun base t b
    (rest.1, (o.lane, old) :: rest.2.1, r.2 ||| rest.2.2)

/-- Lanes of a local access in ascending order (R132, R133). -/
def localRun : List LOp → Memory → Memory × List (Nat × Nat) × Nat
  | [], m => (m, [], 0)
  | o :: t, m =>
    let old := readLE m o.va o.size
    let r := elStep o.op old
    let m := match r.1 with
      | some v => writeLE m o.va o.size v
      | none => m
    let rest := localRun t m
    (rest.1, (o.lane, old) :: rest.2.1, r.2 ||| rest.2.2)

/-- The register writes of a lane's value (R149 to R151). -/
def Dst.wr (d : Dst) (lane v : Nat) : List Wr :=
  match d with
  | .none => []
  | .vec d t => wrLane t d lane v
  | .scl d t => [.s d (extend t v)]
  | .bcast d t mask => (lanes mask).flatMap fun l => wrLane t d l v

/-- The first check of R118 that an access fails, as a DETAIL of R326. -/
def accFault (glob : Bool) (localSz al : Nat) (o : LOp) : Option Nat :=
  if o.va % al != 0 then some 0x10
  else if !glob && o.va + o.size > localSz then some 0x20
  else if glob && !canonical o.va then some 0x30
  else none

/-- The program fault of an instruction's accesses, if any: the lowest lane that fails (R118). -/
def progFault (glob : Bool) (localSz al pc : Nat) (acc : Acc) (l : List LOp) : Option Fail :=
  l.findSome? fun o => (accFault glob localSz al o).map fun d =>
    { kind := 4, detail := d, va := o.va, pc := pc, lane := o.lane, acc := acc.code }

/-! ### Shares of request slots (R123, R286) -/

/-- A VD's weight: the largest WEIGHT among its registered queues, 1 if it has none (R286). -/
def State.vdWeight (s : State) (pid vd : Nat) : Nat :=
  let w := s.queues.filterMap fun e => if e.2.pid == pid && e.2.vd == vd then some e.2.weight else none
  if w.isEmpty then 1 else w.foldl max 0
/-- The request slots a VD may hold on a core (R286). -/
def State.slotShare (s : State) (slice core pid vd : Nat) : Nat :=
  let vds := ((s.residents slice core).map fun e => e.2.vd).eraseDups
  let tot := (vds.map fun v => s.vdWeight pid v).foldl (· + ·) 0
  32 + (4096 - 32 * vds.length) * s.vdWeight pid vd / max tot 1
/-- The slots in use by a VD. A copy's requests are made and answered within one step and hold none between steps. -/
def State.slotsUsed (s : State) (slice core vd : Nat) : Nat :=
  (s.reqs.filter fun e => e.2.slice == slice && e.2.core == core && e.2.vd == vd).length
/-- Whether n granule requests of a block have slots: of its VD's share, and of the core's 4,096 (R123, R286). -/
def State.slotsFor (s : State) (b : Block) (n : Nat) : Bool :=
  decide (s.slotsUsed b.slice b.core b.vd + n ≤ s.slotShare b.slice b.core b.pid b.vd) &&
  decide ((s.reqs.filter fun e => e.2.slice == b.slice && e.2.core == b.core).length + n ≤ 4096)

/-! ### L1 data cache and near ways (R124) -/

/-- The data of a granule in the L1 of a core, or in the near ways of its slice. -/
def State.l1Find (s : State) (slice core vdt gran : Nat) : Option (List Byte) :=
  ((s.core (coreKey slice core)).l1.find? fun x => x.vd == vdt && x.gran == gran).map CLine.data
def State.nearFind (s : State) (slice vdt gran : Nat) : Option (List Byte) :=
  (findSLine (s.slice slice).scache vdt gran true).bind SLine.near
/-- Fill an L1 line; with all 2,048 lines in use the victim is a choice the spec leaves open. -/
def State.l1Fill (s : State) (slice core vdt gran : Nat) (d : List Byte) : State :=
  let l := (s.core (coreKey slice core)).l1.filter fun x => !(x.vd == vdt && x.gran == gran)
  let x : CLine := { vd := vdt, gran := gran, data := d }
  if l.length < 2048 then s.modCore (coreKey slice core) fun c => { c with l1 := x :: l }
  else let (i, s) := s.choose 2048; s.modCore (coreKey slice core) fun c => { c with l1 := x :: l.eraseIdx i }
/-- Drop lines of the L1 of a core that satisfy a test. -/
def State.l1Drop (s : State) (key : Nat) (p : CLine → Bool) : State :=
  s.modCore key fun c => { c with l1 := c.l1.filter fun x => !p x }
/-- Drop near lines of a slice that satisfy a test. -/
def State.nearDrop (s : State) (slice : Nat) (p : SLine → Bool) : State :=
  s.modSlice slice fun x => { x with scache := x.scache.filter fun y => !(y.near.isSome && p y) }

/-- Width of a scope (R130). -/
def scopeRank : Scope → Nat
  | .grp => 0
  | .blk => 1
  | .slc => 2
  | .prt => 3
  | .sys => 4
/-- Answers on their way to cores of a slice, of requests that satisfy a test, fill no line when they arrive. -/
def State.noFill (s : State) (slice : Nat) (p : Req → Bool) : State :=
  { s with reqs := tmap (fun _ q => if q.slice == slice && p q then { q with fill := false } else q) s.reqs }
/-- What an acquire does before later operations (R139): lines are dropped, and reads performed before it fill none when they return. At `.prt`
the near lines of VD tag 0 go too: R139 names those of the VD, and R136 lets no partition-global line stay old. DEDUCED
(notes/assumptions/112.md). -/
def State.acquire (s : State) (slice core vd : Nat) (sc : Scope) : State :=
  let mine (q : Req) : Bool := q.vd == vd || vdTag q.vd (q.gran * 128) == 0
  let s := if scopeRank sc ≥ 2 then
      (s.l1Drop (coreKey slice core) fun x => x.vd == vd || x.vd == 0).noFill slice fun q => q.core == core && mine q
    else s
  if scopeRank sc ≥ 3 then (s.nearDrop slice fun y => y.vd == vd || y.vd == 0).noFill slice mine else s

/-! ### Requests -/

/-- The VD tag of a request's granule (R115). -/
def Req.tag (r : Req) : Nat := vdTag r.vd (r.gran * 128)
/-- Whether every operation only reads. -/
def Req.reads (r : Req) : Bool := r.lanes.all fun o => o.op == .read
/-- Whether an operation is an atomic that returns a value. -/
def ElOp.isAtom : ElOp → Bool
  | .atom _ _ => true
  | .cas _ _ => true
  | _ => false
/-- Whether a request may change its home: it is numbered and stamped as a write (R140). -/
def Req.writes (r : Req) : Bool := r.lanes.any fun o => o.op.isAtom || match o.op with
  | .write _ => true
  | _ => false

/-- The number that slice s holds for writes from k to h (R140), plus 1. -/
def stKey (s k h : Nat) : Nat := s * 256 + k * 16 + h
/-- What a slice knows of the writes between slices that satisfy a test, as entries keyed source · 16 + destination. -/
def State.known (s : State) (at' : Nat) (p : Nat → Bool) : List (Nat × Nat) :=
  (upto 256).filterMap fun k => if p k && cget 0 s.stKnown (at' * 256 + k) != 0 then some (k, cget 0 s.stKnown (at' * 256 + k) - 1) else none
/-- The causal stamp of a write or an ordered read from a slice to another: for each slice k the highest known write from k to the
destination (R140). -/
def State.stampFor (s : State) (src dst : Nat) : List (Nat × Nat) := s.known src fun k => k % 16 == dst
/-- The stamp of a response: all that the home knows. DESIGN CHOICE (notes/assumptions/82.md): R140 says that slices learn from the stamps of
responses and not which entries those hold. -/
def State.stampBack (s : State) (src : Nat) : List (Nat × Nat) := s.known src fun _ => true
/-- Whether 32-bit counter a is ahead of b, modulo 2^32 (R140). -/
def ahead32 (a b : Nat) : Bool := let d := (a + 2 ^ 32 - b) % 2 ^ 32; d != 0 && decide (d < 2 ^ 31)
/-- A slice learns the numbers of a stamp (R140). -/
def State.learn (s : State) (at' : Nat) (st : List (Nat × Nat)) : State :=
  st.foldl (fun s e =>
    let old := cget 0 s.stKnown (at' * 256 + e.1)
    if old == 0 || ahead32 e.2 (old - 1) then { s with stKnown := cset 0 s.stKnown (at' * 256 + e.1) (e.2 + 1) } else s) s
/-- Whether slice h has applied every write to it that a stamp names. -/
def State.stampMet (s : State) (h : Nat) (st : List (Nat × Nat)) : Bool :=
  st.all fun e => e.1 % 16 != h || e.1 / 16 == h || !ahead32 e.2 (cget 0 s.stApplied e.1)

/-- A message class of a request (R18): writes are WR; reads, atomics and ordered atomics are REQ. -/
def Req.cls (r : Req) : MCls := if r.lanes.any fun o => match o.op with
  | .write _ => true
  | _ => false then .wr else .req

/-- Put a message of a request on the fabric. -/
def State.post (s : State) (cls : MCls) (pid src dst req : Nat) (acc : Acc) (refused : Option PKindF) : Nat × State :=
  let (m, s) := s.fresh
  (m, { s with msgs := tput s.msgs m { cls := cls, pid := pid, src := src, dst := dst, pos := src, req := req, acc := acc, refused := refused } })

/-- Whether CACHE lets a prefetch have its level (R124, R155). -/
def prefOk (home slice cache : Nat) : PrefLvl → Bool
  | .l1 => cache != 0
  | .home => true
  | .near => cache == 2 && home != slice

/-- Send a request to the home that its route entry names (R14, R120, R124): a read that the L1 or the near ways hold is answered at
once, unless an earlier request of the core to the granule is on its way (R131); a prefetch asks its own level only. A read that misses the L1
is counted (R402). A prefetch whose level CACHE does not allow is dropped. -/
def State.routeGo (s : State) (id : Nat) (r : Req) (e : TlbE) : State :=
  let r := { r with home := e.home, cache := e.cache, key := e.key }
  let vdt := vdTag r.vd (r.gran * 128)
  let ahead := s.reqs.any fun q => decide (q.1 < id) && q.2.slice == r.slice && (q.2.core == r.core || q.2.b == r.b) && q.2.gran == r.gran
  if r.pref.any fun l => !prefOk e.home r.slice e.cache l then { s with reqs := tdel s.reqs id }
  else
  let cached := r.reads && e.cache != 0
  let look := cached && !r.ordered && !ahead
  let asksL1 : Bool := match r.pref with
    | some l => l == .l1
    | none => true
  let l1 := if look && asksL1 then s.l1Find r.slice r.core vdt r.gran else none
  let near := if look && e.cache == 2 && r.pref != some .home then
      (findSLine (s.slice r.slice).scache vdt r.gran true).bind fun y => y.near.map fun d => (d, y.perf)
    else none
  let s := if cached && asksL1 && l1.isNone then s.count r.slice r.vd 0x004 1 else s
  let done (d line : List Byte) (perf : Nat) : State :=
    { s with reqs := tput s.reqs id { r with st := .done, vals := (elRun (r.gran * 128) r.lanes d).2.1, line := line, perf := perf } }
  match l1, near with
  | some d, _ => done d [] 0
  | none, some (d, perf) => done d d perf
  | none, none =>
    if e.home == r.slice then { s with reqs := tput s.reqs id { r with st := .atHome } }
    else
      let stamp := if r.writes || r.ordered then s.stampFor r.slice e.home else []
      let n := (cget 0 s.stSent (stKey 0 r.slice e.home) + 1) % 2 ^ 32
      let s := if r.writes then
          { s with stSent := cset 0 s.stSent (stKey 0 r.slice e.home) n, stKnown := cset 0 s.stKnown (stKey r.slice r.slice e.home) (n + 1) }
        else s
      let (m, s) := s.post r.cls r.pid r.slice e.home id r.acc none
      { s with reqs := tput s.reqs id { r with st := .going m, stamp := stamp, num := if r.writes then some n else none } }

/-- A pending memory instruction. -/
def State.flight (s : State) (bi gi id : Nat) : Option (Block × Group × Pend × MemFlight) :=
  (tget s.blocks bi).bind fun b => (b.groups[gi]?).bind fun g => (tget g.pend id).bind fun p => match p.kind with
    | .mem m => some (b, g, p, m)
    | _ => none

/-- Change a group of a block. -/
def State.modGroup (s : State) (bi gi : Nat) (f : Group → Group) : State :=
  s.modBlock bi fun b => match b.groups[gi]? with
    | some g => { b with groups := listSet b.groups gi (f g) }
    | none => b

/-- Tillers in a short wait try again (R86). -/
def Group.wake (g : Group) : Group :=
  { g with tillers := g.tillers.map fun t => match t.st with
    | .waiting => { t with st := .ready }
    | .held .waiting => { t with st := .held .ready }
    | _ => t }

/-- Whether the stores of an instruction complete when the L1 accepts them (R149, R155): it writes or maintains lines, and no release at
`.slc` or wider. -/
def MemFlight.posted (m : MemFlight) : Bool :=
  (m.lanes.all fun o => match o.op with
    | .write _ => true
    | .line _ => true
    | _ => false) && !(m.rel.any fun sc => decide (2 ≤ scopeRank sc))

/-- The L1 has accepted the stores of an instruction once every unfinished lane's request has left for its home: the instruction is complete
for its own core, and its registers are released (R126, R149). -/
def State.accept (s : State) (bi gi id : Nat) : State :=
  match s.flight bi gi id with
  | none => s
  | some (_, _, p, m) =>
    let sent (o : LOp) : Bool := s.reqs.any fun e => e.2.b == bi && e.2.g == gi && e.2.pend == id && e.2.gran == o.va / 128 && match e.2.st with
      | .walk _ => false
      | _ => true
    if m.accepted || !m.posted || !m.lanes.all sent then s
    else s.modGroup bi gi fun g => { g with pend := tput g.pend id { p with marks := [], kind := .mem { m with accepted := true } } }.wake

/-- Send a request, and see whether its instruction is now accepted. -/
def State.route (s : State) (id : Nat) (r : Req) (e : TlbE) : State := (s.routeGo id r e).accept r.b r.g r.pend

/-- Ask the walker; requests for one page and access share a walk (R119, R320). -/
def State.askWalk (s : State) (w : Walk) : Nat × State :=
  match s.walks.find? fun e => e.2.slice == w.slice && e.2.pid == w.pid && e.2.vd == w.vd && e.2.va / 4096 == w.va / 4096 &&
      e.2.acc == w.acc && e.2.what == w.what with
  | some e => (e.1, s)
  | none => let (id, s) := s.fresh; (id, { s.count w.slice w.vd 0x00A 1 with walks := tput s.walks id w })

/-- Start a request: the route TLB, else the walker (R120, R122). An entry that lacks a permission is walked again, which names the
fault. `first` says that the page has not been looked up for the instruction yet (R119): a miss is counted once (R402). -/
def State.startReq (s : State) (id : Nat) (r : Req) (first : Bool) : State :=
  let va := r.gran * 128
  match s.tlbFind r.slice r.core r.b r.vd va with
  | some e =>
    if (r.acc.r && !e.acc.r) || (r.acc.w && !e.acc.w) || (r.acc.x && !e.acc.x) then
      let s := s.modCore (coreKey r.slice r.core) fun c => { c with tlb := c.tlb.filter fun x => x != e }
      let (w, s) := s.askWalk { slice := r.slice, pid := r.pid, vd := r.vd, va := va, acc := r.acc, what := .tlb r.b r.core }
      { s with reqs := tput s.reqs id { r with st := .walk w } }
    else s.route id r e
  | none =>
    let s := if first then s.count r.slice r.vd 0x009 1 else s
    let (w, s) := s.askWalk { slice := r.slice, pid := r.pid, vd := r.vd, va := va, acc := r.acc, what := .tlb r.b r.core }
    { s with reqs := tput s.reqs id { r with st := .walk w } }

/-- The granules of a list of accesses, each once. -/
def granules (l : List LOp) : List Nat := (l.map fun o => o.va / 128).eraseDups

/-- Issue the requests of the unfinished lanes of a memory instruction, one for each granule, with one lookup for each page (R119). A store cancels the fills of
reads of its granule that are on their way. -/
def State.sendLanes (s : State) (bi gi id : Nat) : State :=
  match s.flight bi gi id with
  | none => s
  | some (b, _, p, m) =>
    let gs := granules m.lanes
    gs.foldl (fun s gran =>
      let (rid, s) := s.fresh
      let r : Req := { b := bi, g := gi, pend := id, slot := p.slot, slice := b.slice, core := b.core, pid := b.pid, vd := b.vd,
                       gran := gran, lanes := m.lanes.filter (fun o => o.va / 128 == gran), acc := m.acc, hint := m.hint,
                       ordered := m.acq.isSome, st := .atHome }
      let s := if r.writes then
          { s with reqs := tmap (fun _ q => if q.slice == r.slice && q.core == r.core && q.gran == gran && q.tag == r.tag then
              { q with fill := false } else q) s.reqs }
        else s
      s.startReq rid r ((gs.find? fun y => y / 32 == gran / 32) == some gran)) s

/-! ### How a request ends -/

/-- Every fault of a memory instruction is known and its requests have ended: complete it, or park its tiller (R125); in a block that has failed or
is cancelled it ends (R127). -/
def State.endFlight (s : State) (bi gi id : Nat) : State :=
  if s.reqs.any fun e => e.2.b == bi && e.2.g == gi && e.2.pend == id then s
  else match s.flight bi gi id with
    | none => s
    | some (b, g, p, m) =>
      if m.lanes.isEmpty then
        let s := s.modGroup bi gi fun g => g.complete id
        match m.acq with
        | some sc => s.acquire b.slice b.core b.vd sc
        | none => s
      else if b.fail.isSome || b.cancelled then s.modGroup bi gi fun g => { g with pend := tdel g.pend id }
      else
        let t := g.til p.slot
        let st := match t.st with
          | .ready => .longWait (.parked id)
          | .waiting => .longWait (.parked id)
          | .longWait _ => .longWait (.parked id)
          | st => st
        s.modGroup bi gi fun g => g.setTil p.slot { t with st := st }

/-- The near line of a granule receives newer data (R124, R131): that of an access performed later at the home. -/
def State.nearNewer (s : State) (slice vdt gran perf : Nat) (d : List Byte) : State :=
  s.modSlice slice fun x => { x with scache := x.scache.map fun y =>
    if y.near.isSome && y.vd == vdt && y.gran == gran && y.perf < perf then { y with near := some d, perf := perf } else y }

/-- The lines that an answer updates and fills (R124, R131): an L1 line that it hits, near data that is older, and for a read a line of the L1
and of the near ways. Answers of accesses to the granule performed before a write fill nothing any more; a block that has changed its core
since its write finds no line of before on the new one (R313). An answer from the L1 changes nothing. -/
def State.fillLines (s : State) (r : Req) : State :=
  let vdt := vdTag r.vd (r.gran * 128)
  if r.line.length != 128 then s
  else
    let s := s.nearNewer r.slice vdt r.gran r.perf r.line
    if r.writes then
      let s := s.noFill r.slice fun q => q.gran == r.gran && q.tag == vdt && decide (q.perf < r.perf)
      let core := ((tget s.blocks r.b).map Block.core).getD r.core
      let s := if core == r.core then s else s.l1Drop (coreKey r.slice core) fun x => x.vd == vdt && x.gran == r.gran
      if (s.l1Find r.slice r.core vdt r.gran).isSome then s.l1Fill r.slice r.core vdt r.gran r.line else s
    else
    let s := if (s.l1Find r.slice r.core vdt r.gran).isSome then s.l1Fill r.slice r.core vdt r.gran r.line else s
    if r.reads && r.fill && r.cache != 0 then
      let l1 : Bool := match r.pref with
        | some l => l == .l1
        | none => r.hint != .byp
      let near : Bool := match r.pref with
        | some l => l == .near
        | none => true
      let s := if l1 then s.l1Fill r.slice r.core vdt r.gran r.line else s
      if near && r.cache == 2 && r.home != r.slice && (s.nearFind r.slice vdt r.gran).isNone then
        match s.allocWays r.slice r.pid r.vd { hint := r.hint } with
        | some (ways, fv) =>
          s.allocLine r.slice r.vd ways
            { bank := bankSet (r.gran * 128), way := 0, vd := vdt, gran := r.gran, near := some r.line, victim := fv, perf := r.perf }
        | none => s
      else s
    else s

/-- A request's answer reaches its core (R149, R150): registers and flags are written, the lines filled. -/
def State.retire (s : State) (rid : Nat) (r : Req) : State :=
  let s := { s with reqs := tdel s.reqs rid }
  match s.flight r.b r.g r.pend with
  | none => if r.pref.isSome then s.fillLines r else s
  | some (_, _, p, m) =>
    let wr := r.vals.flatMap fun e => m.dst.wr e.1 e.2
    let mine := r.lanes.map (·.lane)
    let left := m.lanes.filter fun o => !(o.va / 128 == r.gran && mine.contains o.lane)
    let s := s.modGroup r.b r.g fun g =>
      { wr.foldl Group.put g with flags := g.flags ||| r.fl, pend := tput g.pend r.pend { p with kind := .mem { m with lanes := left } } }
    (s.fillLines r).endFlight r.b r.g r.pend

/-- A request has failed (R125, R127): its lanes stay unfinished, the fault is reported, and lanes of one page and kind share a report. -/
def State.failReq (s : State) (rid : Nat) (r : Req) (detector : Nat) (f : PFault) : State :=
  let s := { s with reqs := tdel s.reqs rid }
  match s.flight r.b r.g r.pend with
  | none => s
  | some (b, _, p, m) =>
    let va := (r.lanes.map LOp.va).headD (r.gran * 128)
    let same := m.faults.any fun e => e.va / 4096 == va / 4096 && e.f == f
    if same || b.fail.isSome || b.cancelled then s.endFlight r.b r.g r.pend
    else
      let (token, s) := s.report { slice := detector, pid := r.pid, vd := r.vd, f := f, va := va, pc := m.pc, acc := r.acc,
                                   info := (r.lanes.map LOp.lane).headD 0 + 2 ^ 32 * b.idx, guest := false,
                                   waiter := .lane r.b r.g r.pend va }
      let m := { m with faults := m.faults ++ [{ va := va, f := f, token := token }] }
      (s.modGroup r.b r.g fun g => { g with pend := tput g.pend r.pend { p with kind := .mem m } }).endFlight r.b r.g r.pend

/-- No earlier request of the core, or of the block from the core it stood on before a swap, to the granule is still on its way (R131, R313). -/
def State.first (s : State) (rid : Nat) (r : Req) (p : Req → Bool) : Bool :=
  !s.reqs.any fun e => decide (e.1 < rid) && e.2.slice == r.slice && (e.2.core == r.core || e.2.b == r.b) && e.2.tag == r.tag && e.2.gran == r.gran && p e.2

/-! ### Issue -/

/-- Whether a release at a scope need not wait for the earlier memory operations of the tiller's lanes (R134, R139): they are complete, at
`.grp` and `.blk` or accepted by the L1, and so are the local writes of `astl` (R236); at `.sys` its remote operations are acknowledged too. -/
def earlierDone (s : State) (bi gi : Nat) (g : Group) (before mask : Nat) (sc : Scope) : Bool :=
  !g.pend.any (fun e => decide (e.1 < before) && e.2.mask &&& mask != 0 && match e.2.kind with
    | .mem m => !(m.accepted && decide (scopeRank sc < 2))
    | .cond (.matrix _) => e.2.op == 0xCC
    | _ => false) &&
  (sc != .sys || !s.rops.any fun e => e.2.b == bi && e.2.g == gi && e.2.mask &&& mask != 0 && e.2.fenced)

/-- Whether a local access of the tiller must wait for the local writes of an earlier `astl` of it (R133, R236). -/
def Ex.localWait (x : Ex) : Bool := x.g.pend.any fun e => e.2.op == 0xCC && e.2.mask &&& x.t.mask != 0
/-- What a memory instruction asks. -/
structure MemAsk where
  glob : Bool
  al : Nat
  acc : Acc
  dst : Dst := .none
  hint : Hint := .none
  acq : Option Scope := .none
  rel : Option Scope := .none
  deriving DecidableEq, Repr

/-- The registers that a memory instruction holds until it is complete (R126): its destinations and sources but for predicates. -/
def memMarks (i : Instr) (x : Ex) : List RegId := (usesOf i x.g).all.filter fun (r : RegId) => match r with
  | .p _ => false
  | _ => true
/-- The effect of a memory instruction on the lanes it acts on (R118, R119, R123, R125, R139): a release waits until earlier operations
are complete; a global access is sent, a local one performed. -/
def memEff (i : Instr) (q : MemAsk) (pc : Nat) (l : List LOp) (x : Ex) : Eff :=
  if l.isEmpty then .ok x
  else match progFault q.glob x.b.localSz q.al pc q.acc l with
    | some f => .prog f
    | none =>
      let held : Bool := match q.rel with
        | some sc => !earlierDone x.s x.c.b x.c.g x.g x.g.nextPend x.t.mask sc
        | none => false
      if held then .wait x.s .waiting
      else if q.glob then
        if !x.s.slotsFor x.b (granules l).length then .wait x.s .waiting
        else
          let m : MemFlight := { dst := q.dst, lanes := l, acc := q.acc, hint := q.hint, acq := q.acq, rel := q.rel, pc := pc }
          let id := x.g.nextPend
          .ok ((x.pend i (memMarks i x) [] 0 (.mem m)).via fun s => s.sendLanes x.c.b x.c.g id)
      else if x.localWait then .wait x.s .waiting
      else
        let r := localRun l x.b.loc
        let y := { x with b := { x.b with loc := r.1 } }
        if q.dst == Dst.none then .ok { y with g := { y.g with flags := y.g.flags ||| r.2.2 } }
        else .ok (y.pend i (memMarks i x ++ if r.2.2 != 0 then [.flags] else []) (r.2.1.flatMap fun (e : Nat × Nat) => q.dst.wr e.1 e.2) r.2.2 .alu)

end Sys2Proof.Machine
end

