-- ==== Sys2Proof/Machine/Seq.lean ====
section
/-!
DEFINITION. The sequencer's own instructions: filler, branches, joins, wide regions, exit, traps, barriers, `elect`, format and mode,
special registers, `yield`, `snooze` and `rett` (R41, R42, R67, R68, R87 to R111).
-/
namespace Sys2Proof.Machine

/-! ### Code -/

/-- The words of a fetch block read through translation with X permission, and not from the instruction cache; the access passes the home's
slice cache as demand traffic (R324). -/
def State.codeBlock (s : State) (slice pid vd va : Nat) (via : Option Via := none) : Res (List Nat) :=
  let base := va / 32 * 32
  match s.reach slice pid vd base { x := true } via with
  | (s, .error f) => (s, .error f)
  | (s, .ok x) => match (s.touch x.home pid vd (vdTag vd base) (base / 128) x.sla {}).homeRead x.home x.sla 32 x.key with
    | (s, none) => (s, .error { kind := .poison })
    | (s, some b) => (s, .ok (wordsOfBytes b))

/-- The fetch block of an address in a core's instruction cache. -/
def State.icFind (s : State) (slice core vd pc : Nat) : Option IBlk :=
  (s.core (coreKey slice core)).ic.find? fun e => e.vd == vdTag vd pc && e.blk == pc / 32
/-- A fetched block enters the cache; with all 4,096 blocks in use the victim is a choice the spec leaves open. -/
def State.icFill (s : State) (slice core : Nat) (e : IBlk) : State :=
  let l := (s.core (coreKey slice core)).ic
  if l.length < 4096 then s.modCore (coreKey slice core) fun c => { c with ic := e :: l }
  else let (i, s) := s.choose l.length; s.modCore (coreKey slice core) fun c => { c with ic := e :: l.eraseIdx i }

/-- Word offsets in a fetch block at which instructions start (R41). -/
def starts : Nat → Nat → List Nat → List Nat
  | 0, _, _ => []
  | _ + 1, _, [] => []
  | k + 1, at', w :: t => at' :: starts k (at' + w % 4 + 1) (t.drop (w % 4))

/-- Whether a target is an instruction start (R41): of the block in the instruction cache, else of the code in memory. A block that
cannot be fetched is no misaligned target: the fetch reports its fault (R128). -/
def State.startOk (s : State) (b : Block) (tgt : Nat) : Bool :=
  tgt % 4 == 0 &&
  (let off := tgt % 32 / 4
   match s.icFind b.slice b.core b.vd tgt with
   | some e => (starts 8 0 e.words).contains off
   | none =>
     if !canonical tgt then true
     else match (s.codeBlock b.slice b.pid b.vd tgt).2 with
       | .ok w => (starts 8 0 w).contains off
       | .error _ => true)

/-- `pad` (R28): stepped over; it takes no issue slot. -/
def execPad (s : State) : Host.Outcome State Fault Refusal :=
  match s.load with
  | none => .fault .noTiller
  | some x => if !x.able then .next s else .next { x with t := { x.t with pc := (x.t.pc + 4) % 2 ^ 64 } }.close

/-- `nop` (R42). -/
def execNop (h : Hd) (s : State) : Host.Outcome State Fault Refusal := issue (.nop h) (fun x => .ok x) s

/-! ### Branches (R87, R91, R104) -/

/-- A transfer by its mode, guard and target: `pc` is the instruction's address and `x` stands at the next. -/
def branchEff (pc : Nat) (h : Hd) (m : BMode) (link : Option SReg) (tgt : Nat) (x : Ex) : Eff :=
  let g := x.guard h
  let take := match m with
    | .all => g == x.t.mask
    | _ => g != 0
  let setLink (y : Ex) : Ex := match link with
    | some d => y.setS d.val x.t.pc
    | none => y
  if m != .div || g == x.t.mask || g == 0 then
    if !take then .ok x
    else if !x.s.startOk x.b tgt then .trap 4 tgt
    else .ok (setLink { x with t := { x.t with pc := tgt } })
  else if !x.s.startOk x.b tgt then .trap 4 tgt
  else match (setLink x).grp.split x.c.t g tgt pc x.t.pc with
    | none => .trap 7 tgt
    | some g' => .ok { x with g := g', t := g'.til x.c.t }

/-- The address of the instruction that has been booked. -/
def Ex.pc0 (x : Ex) (i : Instr) : Nat := (x.t.pc + 2 ^ 64 - ilen i) % 2 ^ 64
/-- pc_target of R40: the instruction's address and a signed word offset. -/
def pcTarget (pc : Nat) (off : BitVec 22) : Nat := wrapN ((pc : Int) + 4 * sext off.toNat 22) 64

def execBra (h : Hd) (m : BMode) (off : BitVec 22) (s : State) : Host.Outcome State Fault Refusal :=
  let i : Instr := .bra h m off
  issue i (fun x => branchEff (x.pc0 i) h m none (pcTarget (x.pc0 i) off) x) s
def execBrx (h : Hd) (m : BMode) (a : SReg) (s : State) : Host.Outcome State Fault Refusal :=
  let i : Instr := .brx h m a
  issue i (fun x => branchEff (x.pc0 i) h m none (x.s' a) x) s
def execCall (h : Hd) (m : BMode) (d : SReg) (off : BitVec 22) (s : State) : Host.Outcome State Fault Refusal :=
  let i : Instr := .call h m d off
  issue i (fun x => branchEff (x.pc0 i) h m (some d) (pcTarget (x.pc0 i) off) x) s
def execCallx (h : Hd) (m : BMode) (d a : SReg) (s : State) : Host.Outcome State Fault Refusal :=
  let i : Instr := .callx h m d a
  issue i (fun x => branchEff (x.pc0 i) h m (some d) (x.s' a) x) s
/-- `ret`; the first one of a recipe that is taken ends it and goes to FBPC + 12 (R104, R304). -/
def execRet (h : Hd) (m : BMode) (a : SReg) (s : State) : Host.Outcome State Fault Refusal :=
  let i : Instr := .ret h m a
  issue i (fun x =>
    let g := x.guard h
    let take := if m == .all then g == x.t.mask else g != 0
    if x.g.inRecipe && take then
      branchEff (x.pc0 i) h m none ((x.g.flash.pc + 12) % 2 ^ 64) { x with g := { x.g with flash := { x.g.flash with recipe := false } } }
    else branchEff (x.pc0 i) h m none (x.s' a) x) s

/-! ### Joins, wide regions, exit (R88 to R95, R101) -/

/-- The group after records have settled; a join mismatch is a trap of the tiller that parked last. INFO of a wide mismatch is the address at
which that tiller parked, also where this is a `join` or a `bar`. DESIGN CHOICE (notes/assumptions/104.md): R99 names a tiller's own `wide`,
`endwide` or `exit`, and it has none. -/
def Ex.settled (x : Ex) (pc : Nat) (g : Group) : Eff :=
  match g.settleRcds 64 with
  | (_, true) => .trap 6 pc
  | (g, false) => match g.stuck with
    | some code => .trap code pc
    | none => .ok { x with g := g, t := g.til x.c.t }

def execJoin (look : Fin 16) (s : State) : Host.Outcome State Fault Refusal :=
  let i : Instr := .join look
  issue i (fun x => if x.t.rcd.isNone then .ok x else x.settled (x.pc0 i) (x.grp.parkJoin x.c.t (x.pc0 i))) s

def execWide (look : Fin 16) (s : State) : Host.Outcome State Fault Refusal :=
  let i : Instr := .wide look
  issue i (fun x =>
    let pc := x.pc0 i
    if x.g.wide.isSome then .trap 5 pc
    else
      let g := x.grp.park x.c.t .atWide pc
      match g.enterWide with
      | some g => .ok { x with g := g, t := g.til x.c.t }
      | none => match g.stuck with
        | some code => .trap code pc
        | none => .ok { x with g := g, t := g.til x.c.t }) s

def execEndwide (look : Fin 16) (s : State) : Host.Outcome State Fault Refusal :=
  let i : Instr := .endwide look
  issue i (fun x =>
    match x.g.wide with
    | none => .trap 5 (x.pc0 i)
    | some w =>
      if x.t.rcd.isSome then .trap 5 (x.pc0 i)
      else let g := x.grp.leaveWide w x.t.pc x.t.wins; .ok { x with g := g, t := g.til x.c.t }) s

/-! ### Barriers (R96, R107) -/

/-- A barrier releases and its phase is over: every `bar.stay` on it completes, its At-bar tillers become Ready, and executions of the phase
count for no later one. -/
def Group.release (g : Group) (id : Nat) : Group :=
  let done := (g.pend.filter fun e => e.2.kind == .cond (.bar id)).map Prod.fst
  let g := done.foldl Group.complete g
  { g with bars := g.bars.filter fun e => e.id != id, tillers := g.tillers.map fun t => match t.st with
    | .atBar k => if k == id then { t with st := .ready } else t
    | .held (.atBar k) => if k == id then { t with st := .held .ready } else t
    | _ => t }
def Block.release (b : Block) (id : Nat) : Block :=
  { b with groups := b.groups.map fun g => g.release id, bars := listSet b.bars id {} }
/-- The groups of a block that have not Ended. -/
def Block.liveGroups (b : Block) : Nat := (b.groups.filter fun g => !g.ended).length
/-- INFO of the barrier-count trap (R99). -/
def barInfo (id cnt target : Nat) : Nat := id + cnt % 256 * 256 + target % 256 * 65536
/-- Whether an arrival's count is wrong (R96): not that of the phase's first arrival, or above the block's groups. -/
def Block.barBad (b : Block) (id cnt : Nat) : Bool :=
  cnt > b.groups.length || match (listGet {} b.bars id).first with
    | some f => f != cnt
    | none => false
/-- A group arrives at a barrier (R96). A group that has arrived and whose live tillers all execute `bar` on it again in the open phase
arrives a second time, and is counted twice. DESIGN CHOICE (notes/assumptions/78.md): the spec states no rule for it. -/
def Block.arrive (b : Block) (gi id cnt : Nat) : Block :=
  let bar := listGet {} b.bars id
  let bar := if bar.first.isSome then bar else { bar with first := some cnt, target := if cnt == 0 then b.liveGroups else cnt }
  let bar := { bar with arrived := bar.arrived ++ [gi] }
  let g := listGet {} b.groups gi
  let g := { g with bars := g.bars.filter fun e => e.id != id }
  let b := { b with bars := listSet b.bars id bar, groups := listSet b.groups gi g }
  if bar.arrived.length ≥ bar.target then b.release id else b

/-- The lanes of the live tillers. -/
def Group.liveMask (g : Group) : Nat := (g.tillers.filter fun t => t.st.live).foldl (fun m t => m ||| t.mask) 0

/-- The executing group with a barrier's executions so far joined by the tiller's, at address `pc`. When tillers of a group give different
counts, the group's count is the one that the last of them gave. DESIGN CHOICE (notes/assumptions/79.md). -/
def Ex.barMark (x : Ex) (id cnt pc : Nat) : Ex :=
  let old := x.g.bars.find? fun e => e.id == id
  let e : BarArr := { id := id, lanes := (old.map BarArr.lanes).getD 0 ||| x.t.mask, cnt := cnt,
                      execs := (x.t.mask, pc) :: (old.map BarArr.execs).getD [] }
  { x with g := { x.g with bars := e :: x.g.bars.filter fun e => e.id != id } }
/-- Change the block and take the tiller out again. -/
def Ex.onBlk (x : Ex) (f : Block → Block) : Ex :=
  let b := f x.blk
  let g := listGet {} b.groups x.c.g
  { x with b := b, g := g, t := g.til x.c.t }

/-- The release at `.blk` of a barrier's arrival (R96, R98, R139): the tiller's earlier operations have been accepted. -/
def Ex.releaseBlk (x : Ex) : Bool := earlierDone x.s x.c.b x.c.g x.g x.g.nextPend x.t.mask .blk

/-- The effect of `bar` with its count (R96), once the tiller's earlier operations have been accepted. -/
def barEff (i : Instr) (id : Nat) (pass : Bool) (cnt : Nat) (x : Ex) : Eff :=
  let y := x.barMark id cnt (x.pc0 i)
  let lanes' := ((y.g.bars.find? fun e => e.id == id).map BarArr.lanes).getD 0
  let arrives := x.grp.liveMask &&& lanes' == x.grp.liveMask
  if cnt > 32 || (arrives && x.b.barBad id cnt) then .trap 8 (barInfo id cnt (listGet {} x.b.bars id).target)
  else if !x.releaseBlk then .wait x.s .waiting
  else
    let y := if pass then y else y.pend i [] [] 0 (.cond (.bar id))
    let y := if y.t.st == .atBar id then y.park (.atBar id) (x.pc0 i) else y
    let y := if arrives then y.onBlk fun b => b.arrive x.c.g id cnt else y
    match if y.t.st == .atBar id then y.grp.stuck else none with
    | some code => .trap code (x.pc0 i)
    | none => .ok y.dirty

def execBar (look id : Fin 16) (pass : Bool) (n : Src10 128) (s : State) : Host.Outcome State Fault Refusal :=
  let i : Instr := .bar look id pass n
  issue i (fun x => barEff i id.val pass (val10 x.g n) x) s

/-! ### Traps (R101, R102, R106) -/

def execTrap (h : Hd) (n : Fin 512) (s : State) : Host.Outcome State Fault Refusal :=
  issue (.trap h n) (uniform h fun _ => .trap 0x0A n.val) s

/-- The key of a group's quarter in `quarters`. -/
def quarterKey (b : Block) (g : Group) : Nat := coreKey b.slice b.core * 4 + g.quarter
/-- A precise stop of a quarter for a VD (R398): a second one has no effect. Causes: 1 `bkpt`, 2 command, 3 `tctl` (R399). -/
def State.preciseStop (s : State) (slice q vd cause : Nat) : State :=
  let cur := (tget s.quarters q).getD {}
  if cur.stop.isSome then s
  else
    let s := s.modSlice slice fun x => { x with trcStops := (x.trcStops + 1) % 2 ^ 16 }
    { s with quarters := tput s.quarters q { cur with stop := some vd, dumped := false, stopAt := s.now, stopCause := cause } }

/-- `bkpt` (R101, R106, R398): a precise stop when breakpoints are armed, else a trap. -/
def execBkpt (h : Hd) (s : State) : Host.Outcome State Fault Refusal :=
  issue (.bkpt h) (uniform h fun x =>
    let (s, e) := x.s.trcEnt x.b.slice x.b.pid x.b.vd
    if e.brken then .ok { x with s := s.preciseStop x.b.slice (quarterKey x.b x.g) x.b.vd 1 } else .trap 0x0B 0) s

/-- `rett` (R102): outside a handler an illegal instruction; with records the handler opened itself a join mismatch (R99, R101). -/
def execRett (look : Fin 16) (s : State) : Host.Outcome State Fault Refusal :=
  let i : Instr := .rett look
  issue i (fun x =>
    match x.g.trap with
    | none => .trap 1 0
    | some tr =>
      let tgt := (x.g.sget (x.g.sregs - 4)).toNat
      let own := match x.t.rcd with
        | some r => !tr.rcds.contains r
        | none => false
      if own then .trap 6 (x.pc0 i)
      else if !x.s.startOk x.b tgt then .trap 4 tgt
      else .ok (x.onGrp fun g => g.trapReturn x.c.t tr)) s

/-! ### Phase-bit barriers (R97, R98, R108) -/

/-- An arrival of n on an object's 8 bytes (R98): none is the barrier-object trap; else the new value and the old GEN. -/
def arriveObj (o n : Nat) : Option (Nat × Nat) :=
  let target := o % 2 ^ 16
  let cnt := bits o 31 16
  let gen := bits o 63 32
  if target == 0 || cnt ≥ target then none
  else if n == 0 then some (o, gen)
  else if cnt + n ≥ target then some ((gen + 1) % 2 ^ 32 * 2 ^ 32 + target, gen)
  else some (gen * 2 ^ 32 + (cnt + n) * 2 ^ 16 + target, gen)

/-- The program fault of a barrier-object address (R108), if any. -/
def objFault (x : Ex) (h : Hd) (pc acc a : Nat) : Option Fail :=
  if a % 8 != 0 then some { kind := 4, detail := 0x10, va := a, pc := pc, lane := lowLane (x.guard h), acc := acc }
  else if a + 8 > x.b.localSz then some { kind := 4, detail := 0x20, va := a, pc := pc, lane := lowLane (x.guard h), acc := acc }
  else none

/-- A local address from a scalar base and a signed offset (R108, R149). -/
def addr64 (a : Nat) (off : BitVec 22) : Nat := wrapN ((a : Int) + sext off.toNat 22) 64

def execParrive (h : Hd) (old : Option SReg) (a : SReg) (cnt : Option SReg) (off : BitVec 22) (s : State) : Host.Outcome State Fault Refusal :=
  let i : Instr := .parrive h old a cnt off
  issue i (uniform h fun x =>
    let at' := addr64 (x.s' a) off
    let n := match cnt with
      | some r => x.s' r % 2 ^ 16
      | none => 1
    match objFault x h (x.pc0 i) 3 at' with
    | some f => .prog f
    | none => if !x.releaseBlk then .wait x.s .waiting else match arriveObj (readLE x.b.loc at' 8) n with
      | none => .trap 9 at'
      | some (v, gen) =>
        let x := { x with b := { x.b with loc := writeLE x.b.loc at' 8 v } }
        .ok (match old with
          | some d => x.setS d.val gen
          | none => x).dirty) s

/-- `pwait` completes at once when GEN[0] is not its parity, else waits (R98). -/
def execPwait (h : Hd) (par : Bool) (a : SReg) (off : BitVec 22) (s : State) : Host.Outcome State Fault Refusal :=
  let i : Instr := .pwait h par a off
  issue i (uniform h fun x =>
    let at' := addr64 (x.s' a) off
    match objFault x h (x.pc0 i) 1 at' with
    | some f => .prog f
    | none => if bit (readLE x.b.loc at' 8) 32 != par then .ok x else .ok (x.pend i [] [] 0 (.cond (.pwait at' par)))) s

/-! ### `elect`, format and mode, special registers -/

/-- `elect` (R109). -/
def execElect (h : Hd) (d : PReg) (s : State) : Host.Outcome State Fault Refusal :=
  perLaneP (.elect h d) h d (fun x l => l == lowLane (x.guard h)) s

/-- The old value into the saved scalar (R67, R68). -/
def Ex.save (x : Ex) (sv : Option SReg) (v : Word) : Ex := match sv with
  | some d => x.setS d.val v.toNat
  | none => x
/-- Write `%fmt` unless the value is invalid (R63). -/
def Ex.setFmt (x : Ex) (v : Nat) : Ex :=
  if validFmt v then { x with t := { x.t with fmt := BitVec.ofNat 32 (v % 64) } } else x
/-- Write `%mode` unless DRND is invalid (R64); reserved bits stay 0. -/
def Ex.setMode (x : Ex) (v : Nat) : Ex :=
  if validMode v then { x with t := { x.t with mode := BitVec.ofNat 32 (v / 2 ^ 16 % 2 ^ 16 * 2 ^ 16 + v % 64) } } else x
/-- Apply the field operations of `setmode` (R68). -/
def modeOps (o : ModeOps) (m : Nat) : Nat :=
  let f (op : FieldOp) (i m : Nat) : Nat := match op with
    | .keep => m
    | .clear => setBit m i false
    | .set => setBit m i true
  let m := f o.satd 5 (f o.ftz 4 (f o.daz 3 m))
  if o.drnd == .dflt then m else m / 8 * 8 + o.drnd.code

def execSetfmt (h : Hd) (sv : Option SReg) (src : FmtSrc) (s : State) : Host.Outcome State Fault Refusal :=
  issue (.setfmt h sv src) (uniform h fun x =>
    let v := match src with
      | .named f r => r.code * 16 + f.code
      | .reg a => x.s' a % 64
    .ok ((x.save sv x.t.fmt).setFmt v)) s
def execSetfmtImm (h : Hd) (sv : Option SReg) (v : BitVec 6) (s : State) : Host.Outcome State Fault Refusal :=
  issue (.setfmtImm h sv v) (uniform h fun x => .ok ((x.save sv x.t.fmt).setFmt v.toNat)) s
def execSetmode (h : Hd) (sv : Option SReg) (src : ModeSrc) (s : State) : Host.Outcome State Fault Refusal :=
  issue (.setmode h sv src) (uniform h fun x =>
    let v := match src with
      | .ops o => modeOps o x.t.mode.toNat
      | .reg a => x.s' a % 2 ^ 32
    .ok ((x.save sv x.t.mode).setMode v)) s
def execSetmodeStep (h : Hd) (sv : Option SReg) (o : ModeOps) (n : BitVec 16) (s : State) : Host.Outcome State Fault Refusal :=
  issue (.setmodeStep h sv o n) (uniform h fun x =>
    .ok ((x.save sv x.t.mode).setMode (modeOps o x.t.mode.toNat % 2 ^ 16 + 2 ^ 16 * n.toNat))) s

/-- A special register's value (R43, R110). -/
def spVal (x : Ex) : SpReg → Nat
  | .group => x.c.g
  | .block => x.b.idx
  | .launch => x.b.launch
  | .slice => x.b.slice
  | .tile => x.b.core / 2
  | .core => x.b.core
  | .vd => x.b.vd
  | .time => x.s.now % 2 ^ 64
  | .sheaf => x.g.sheafNum
  | .fmt => x.t.fmt.toNat
  | .mode => x.t.mode.toNat
  | .flags => x.g.flags
/-- Reads of `%time`, `%tile` and `%core` are recorded and replayed (R43, R407). -/
def spRecorded : SpReg → Bool
  | .time => true
  | .tile => true
  | .core => true
  | _ => false
def execSrd (h : Hd) (d : SReg) (r : SpReg) (s : State) : Host.Outcome State Fault Refusal :=
  let i : Instr := .srd h d r
  let put (x : Ex) (v : Nat) : Eff := .ok (x.defer i [.s d.val (BitVec.ofNat 64 v)] 0)
  issue i (uniform h fun x => if spRecorded r then x.recorded (spVal x r) put else put x (spVal x r)) s
def execSwr (h : Hd) (r : SpRegW) (a : SReg) (s : State) : Host.Outcome State Fault Refusal :=
  issue (.swr h r a) (uniform h fun x =>
    let v := x.s' a % 2 ^ 32
    .ok (match r with
      | .fmt => x.setFmt v
      | .mode => x.setMode v
      | .flags => { x with g := { x.g with flags := v % 16 } })) s

/-! ### `yield`, `snooze` (R80, R111) -/

/-- `yield`: the tiller's `skip` is 0, its group comes last in the rotation, and changes places with a ready pending group. Other tillers of the
group that have been passed over 32 times keep that priority. DESIGN CHOICE (notes/assumptions/107.md). -/
def Ex.yields (x : Ex) : Ex :=
  let q := quarterKey x.b x.g
  let k := (tget x.s.quarters q).getD {}
  let pos := (findIdx (fun e => e == some (x.c.b, x.c.g)) k.act).getD k.lastPos
  { x with s := { x.s with quarters := tput x.s.quarters q { k with lastPos := pos, giveUp := some pos } }, t := { x.t with skip := 0 } }
def execYield (h : Hd) (s : State) : Host.Outcome State Fault Refusal :=
  issue (.yield h) (uniform h fun x => .ok x.yields) s
/-- `snooze`: a duration of 0 acts as `yield`. -/
def snoozeEff (i : Instr) (n : Nat) (x : Ex) : Eff :=
  let n := min n 10000000
  if n == 0 then .ok x.yields else .ok (x.pend i [] [] 0 (.cond (.snooze (x.s.now + n))))
def execSnooze (h : Hd) (a : SReg) (s : State) : Host.Outcome State Fault Refusal :=
  let i : Instr := .snooze h a
  issue i (uniform h fun x => snoozeEff i (x.s' a) x) s
def execSnoozeImm (h : Hd) (n : BitVec 22) (s : State) : Host.Outcome State Fault Refusal :=
  let i : Instr := .snoozeImm h n
  issue i (uniform h (snoozeEff i n.toNat)) s

end Sys2Proof.Machine
end

