-- ==== Sys2Proof/Machine/Lsu.lean ====
section
/-!
DEFINITION. The instructions of the load-store unit (R149 to R155).
-/
namespace Sys2Proof.Machine

/-- Element size in bytes (R149). -/
def tySize (t : IType) : Nat := t.width / 8
/-- One access for each guard-true active lane. -/
def laneOps (x : Ex) (h : Hd) (size : Nat) (addr : Nat → Nat) (op : Nat → ElOp) : List LOp :=
  (lanes (x.guard h)).map fun l => { lane := l, va := addr l, size := size, op := op l }
/-- The one access of a uniform instruction, of the lowest guard-true active lane (R118). -/
def oneOp (x : Ex) (h : Hd) (size va : Nat) (op : ElOp) : List LOp :=
  if x.guard h == 0 then [] else [{ lane := lowLane (x.guard h), va := va, size := size, op := op }]

/-- Address of lane i from a scalar base (R149). -/
def baseAddr (x : Ex) (a : SReg) (off : BitVec 22) (size l : Nat) : Nat := (addr64 (x.s' a) off + l * size) % 2 ^ 64
/-- Address of lane i from a vector pair (R149). -/
def pairAddr (x : Ex) (a : VSrc) (off : BitVec 22) (l : Nat) : Nat := addr64 (rawLane x.g true (vidx x.g a) l) off
/-- Local address of lane i from a vector, modulo 2^32 (R149). -/
def vecAddr (x : Ex) (a : VSrc) (off : BitVec 22) (l : Nat) : Nat := addr64 (x.g.vget (vidx x.g a) l).toNat off % 2 ^ 32
/-- The data a lane stores. -/
def laneData (x : Ex) (t : IType) (r l : Nat) : ElOp := .write (rawLane x.g (wide64 t) r l % 2 ^ t.width)

/-- What a load or a store of a form asks. -/
def loadAsk {ρ α : Type} (o : MemOp ρ α) (glob : Bool) (dst : Dst) : MemAsk :=
  { glob := glob, al := tySize o.ty, acc := { r := true }, dst := dst, hint := o.hint, acq := o.ord }
def storeAsk {ρ α : Type} (o : MemOp ρ α) (glob : Bool) : MemAsk :=
  { glob := glob, al := tySize o.ty, acc := { w := true }, hint := o.hint, rel := o.ord }

/-! ### Loads and stores (R149) -/

def execLd (o : MemOp VReg SReg) (s : State) : Host.Outcome State Fault Refusal :=
  let i : Instr := .ld o
  issue i (fun x => memEff i (loadAsk o true (.vec o.r.val o.ty)) (x.pc0 i)
    (laneOps x o.h (tySize o.ty) (baseAddr x o.a o.off (tySize o.ty)) fun _ => .read) x) s
def execSt (o : MemOp VReg SReg) (s : State) : Host.Outcome State Fault Refusal :=
  let i : Instr := .st o
  issue i (fun x => memEff i (storeAsk o true) (x.pc0 i)
    (laneOps x o.h (tySize o.ty) (baseAddr x o.a o.off (tySize o.ty)) (laneData x o.ty o.r.val)) x) s
def execLdl (o : MemOp VReg SReg) (s : State) : Host.Outcome State Fault Refusal :=
  let i : Instr := .ldl o
  issue i (fun x => memEff i (loadAsk o false (.vec o.r.val o.ty)) (x.pc0 i)
    (laneOps x o.h (tySize o.ty) (baseAddr x o.a o.off (tySize o.ty)) fun _ => .read) x) s
def execStl (o : MemOp VReg SReg) (s : State) : Host.Outcome State Fault Refusal :=
  let i : Instr := .stl o
  issue i (fun x => memEff i (storeAsk o false) (x.pc0 i)
    (laneOps x o.h (tySize o.ty) (baseAddr x o.a o.off (tySize o.ty)) (laneData x o.ty o.r.val)) x) s
def execSld (o : MemOp SReg SReg) (s : State) : Host.Outcome State Fault Refusal :=
  let i : Instr := .sld o
  issue i (fun x => memEff i (loadAsk o true (.scl o.r.val o.ty)) (x.pc0 i)
    (oneOp x o.h (tySize o.ty) (addr64 (x.s' o.a) o.off) .read) x) s
def execSst (o : MemOp SReg SReg) (s : State) : Host.Outcome State Fault Refusal :=
  let i : Instr := .sst o
  issue i (fun x => memEff i (storeAsk o true) (x.pc0 i)
    (oneOp x o.h (tySize o.ty) (addr64 (x.s' o.a) o.off) (.write (x.s' o.r % 2 ^ o.ty.width))) x) s
def execGath (o : MemOp VReg VSrc) (s : State) : Host.Outcome State Fault Refusal :=
  let i : Instr := .gath o
  issue i (fun x => memEff i (loadAsk o true (.vec o.r.val o.ty)) (x.pc0 i)
    (laneOps x o.h (tySize o.ty) (pairAddr x o.a o.off) fun _ => .read) x) s
def execScat (o : MemOp VReg VSrc) (s : State) : Host.Outcome State Fault Refusal :=
  let i : Instr := .scat o
  issue i (fun x => memEff i (storeAsk o true) (x.pc0 i)
    (laneOps x o.h (tySize o.ty) (pairAddr x o.a o.off) (laneData x o.ty o.r.val)) x) s
def execLgath (o : MemOp VReg VSrc) (s : State) : Host.Outcome State Fault Refusal :=
  let i : Instr := .lgath o
  issue i (fun x => memEff i (loadAsk o false (.vec o.r.val o.ty)) (x.pc0 i)
    (laneOps x o.h (tySize o.ty) (vecAddr x o.a o.off) fun _ => .read) x) s
def execLscat (o : MemOp VReg VSrc) (s : State) : Host.Outcome State Fault Refusal :=
  let i : Instr := .lscat o
  issue i (fun x => memEff i (storeAsk o false) (x.pc0 i)
    (laneOps x o.h (tySize o.ty) (vecAddr x o.a o.off) (laneData x o.ty o.r.val)) x) s
def execLdb (o : MemOp VReg SReg) (s : State) : Host.Outcome State Fault Refusal :=
  let i : Instr := .ldb o
  issue i (fun x => memEff i (loadAsk o true (.bcast o.r.val o.ty (x.guard o.h))) (x.pc0 i)
    (oneOp x o.h (tySize o.ty) (addr64 (x.s' o.a) o.off) .read) x) s

/-! ### Atomics (R150 to R152) -/

/-- The type of an atomic's operand and result. -/
def aopTy : AOp → IType
  | .int _ t => t
  | .flt _ => .b32
/-- Whether an atomic's SEM has an acquire, or a release. -/
def semAcq : Option (Sem × Scope) → Option Scope
  | some (.acq, sc) => some sc
  | some (.ar, sc) => some sc
  | _ => none
def semRel : Option (Sem × Scope) → Option Scope
  | some (.rel, sc) => some sc
  | some (.ar, sc) => some sc
  | _ => none
/-- What an atomic asks. -/
def atomAsk (ty : IType) (sem : Option (Sem × Scope)) (glob : Bool) (d : Nat) : MemAsk :=
  { glob := glob, al := tySize ty, acc := { r := true, w := true }, dst := .vec d ty, acq := semAcq sem, rel := semRel sem }
/-- An operand given as an immediate (R39). -/
def atomImm (op : AOp) (v : BitVec 32) : Nat := match op with
  | .int _ t => immBits t (.i32 v)
  | .flt _ => immFloat .f32 (.i32 v)
/-- The effect of an atomic: the dirty bit is set when a lane acts (R300). -/
def atomEff (i : Instr) (o : AtomOp) (glob : Bool) (b : Ex → Nat → Nat) (x : Ex) : Eff :=
  let ty := aopTy o.op
  let l := laneOps x o.h (tySize ty) (if glob then pairAddr x o.a o.off else vecAddr x o.a o.off) fun l => .atom o.op (b x l % 2 ^ ty.width)
  memEff i (atomAsk ty o.sem glob o.d.val) (x.pc0 i) l (if l.isEmpty then x else x.dirty)

def execAtom (o : AtomOp) (b : VReg) (s : State) : Host.Outcome State Fault Refusal :=
  let i : Instr := .atom o b
  issue i (atomEff i o true fun x l => rawLane x.g (aopWide o.op) b.val l) s
def execAtomImm32 (o : AtomOp) (v : BitVec 32) (s : State) : Host.Outcome State Fault Refusal :=
  let i : Instr := .atomImm32 o v
  issue i (atomEff i o true fun _ _ => atomImm o.op v) s
def execAtoml (o : AtomOp) (b : VReg) (s : State) : Host.Outcome State Fault Refusal :=
  let i : Instr := .atoml o b
  issue i (atomEff i o false fun x l => rawLane x.g (aopWide o.op) b.val l) s
def execAtomlImm32 (o : AtomOp) (v : BitVec 32) (s : State) : Host.Outcome State Fault Refusal :=
  let i : Instr := .atomlImm32 o v
  issue i (atomEff i o false fun _ _ => atomImm o.op v) s

/-- The effect of a compare-and-swap (R151). -/
def casEff (i : Instr) (o : CasOp) (glob : Bool) (x : Ex) : Eff :=
  let v (r : VReg) (l : Nat) : Nat := rawLane x.g (wide64 o.ty) r.val l % 2 ^ o.ty.width
  let l := laneOps x o.h (tySize o.ty) (if glob then pairAddr x o.a o.off else vecAddr x o.a o.off) fun l => .cas (v o.b l) (v o.c l)
  memEff i (atomAsk o.ty o.sem glob o.d.val) (x.pc0 i) l (if l.isEmpty then x else x.dirty)
def execCas (o : CasOp) (s : State) : Host.Outcome State Fault Refusal := issue (.cas o) (casEff (.cas o) o true) s
def execCasl (o : CasOp) (s : State) : Host.Outcome State Fault Refusal := issue (.casl o) (casEff (.casl o) o false) s

/-- `atom.f32.fadd.ord` (R146, R152): each lane's entry has the key (block, group · 32 + lane, count of the lane). -/
def execAtomOrd (h : Hd) (a : VSrc) (b : VReg) (off : BitVec 22) (s : State) : Host.Outcome State Fault Refusal :=
  let i : Instr := .atomOrd h a b off
  issue i (fun x =>
    let l := laneOps x h 4 (pairAddr x a off) fun l => .ord (x.g.vget b.val l).toNat (x.c.g * 32 + l) (cget 0 x.g.ordCnt l)
    let cnt := l.foldl (fun c o => cset 0 c o.lane (cget 0 c o.lane + 1)) x.g.ordCnt
    memEff i { glob := true, al := 4, acc := { r := true, w := true } } (x.pc0 i) l
      (if l.isEmpty then x else { x with g := { x.g with ordCnt := cnt } }.dirty)) s

/-! ### Fences, code, maintenance (R153 to R155) -/

/-- A fence's acquire, when its SEM has one. -/
def fenceAcq (s : State) (b : Block) (sem : FSem) (sc : Scope) : State :=
  if sem == .rel then s else s.acquire b.slice b.core b.vd sc
/-- `fence` completes when the operations before it have completed (R139, R153). -/
def execFence (h : Hd) (sem : FSem) (scope : Scope) (s : State) : Host.Outcome State Fault Refusal :=
  let i : Instr := .fence h sem scope
  issue i (uniform h fun x =>
    if earlierDone x.s x.c.b x.c.g x.g x.g.nextPend x.t.mask scope then
      .ok { x with s := fenceAcq x.s x.b sem scope }
    else .ok (x.pend i [] [] 0 (.cond (.fence sem scope)))) s

/-- `ifence.slc`: the instruction caches of the slice lose the VD's blocks (R154), those of the partition-global range among them. -/
def State.icDrop (s : State) (slice vd : Nat) : State :=
  { s with cores := tmap (fun k c => if k / 4 == slice then { c with ic := c.ic.filter fun e => !(e.vd == vd || e.vd == 0) } else c) s.cores }
def execIfence (h : Hd) (s : State) : Host.Outcome State Fault Refusal :=
  issue (.ifence h) (uniform h fun x => .ok { x with s := x.s.icDrop x.b.slice x.b.vd }) s
def execCline (h : Hd) (op : ClineOp) (a : SReg) (off : BitVec 22) (s : State) : Host.Outcome State Fault Refusal :=
  let i : Instr := .cline h op a off
  issue i (fun x => memEff i { glob := true, al := 1, acc := { r := true } } (x.pc0 i)
    (oneOp x h 1 (addr64 (x.s' a) off) (.line op)) x) s
/-- Request the granule of an address into a level of the caches for a block (R155); `id` is a number that no pending instruction has. A
fault on its way drops it, one of a page that gives no R too: R122's table names no permission for `pref`. DESIGN CHOICE
(notes/assumptions/109.md). -/
def State.prefetch (s : State) (bi gi id slot : Nat) (lvl : PrefLvl) (va : Nat) : State :=
  match tget s.blocks bi with
  | none => s
  | some b =>
    let (rid, s) := s.fresh
    s.startReq rid { b := bi, g := gi, pend := id, slot := slot, slice := b.slice, core := b.core, pid := b.pid, vd := b.vd, gran := va / 128,
                     lanes := [{ lane := 0, va := va / 128 * 128, size := 1, op := .read }], acc := { r := true }, st := .atHome, pref := some lvl } true
/-- Request the four fetch blocks of a granule into the core's instruction cache (R155); one that faults is dropped. -/
def State.icPrefetch (s : State) (bi : Nat) (va : Nat) : State :=
  match tget s.blocks bi with
  | none => s
  | some b => (upto 4).foldl (fun s i =>
      let at' := va / 128 * 128 + 32 * i
      if (s.icFind b.slice b.core b.vd at').isSome then s
      else match s.codeBlock b.slice b.pid b.vd at' (some ⟨b.core, bi⟩) with
        | (t, .ok w) => t.icFill b.slice b.core { vd := vdTag b.vd at', blk := at' / 32, words := w }
        | (_, .error _) => s) s
/-- `pref` completes at issue: the request is on its way, or dropped when no slot is free or the address is not canonical (R155). -/
def execPref (h : Hd) (lvl : PrefLvl) (a : SReg) (off : BitVec 22) (s : State) : Host.Outcome State Fault Refusal :=
  issue (.pref h lvl a off) (uniform h fun x =>
    let va := addr64 (x.s' a) off
    if !canonical va || !x.s.slotsFor x.b 1 then .ok x
    else
      let id := x.g.nextPend
      .ok ({ x with g := { x.g with nextPend := id + 1 } }.via fun s => s.prefetch x.c.b x.c.g id x.c.t lvl va)) s
/-- `ipref` completes at issue (R155). -/
def execIpref (h : Hd) (a : SReg) (off : BitVec 22) (s : State) : Host.Outcome State Fault Refusal :=
  issue (.ipref h a off) (uniform h fun x =>
    let va := addr64 (x.s' a) off
    if !canonical va then .ok x else .ok (x.via fun s => s.icPrefetch x.c.b va)) s
def execStz (h : Hd) (a : SReg) (off : BitVec 22) (s : State) : Host.Outcome State Fault Refusal :=
  let i : Instr := .stz h a off
  issue i (fun x => memEff i { glob := true, al := 128, acc := { w := true } } (x.pc0 i)
    (oneOp x h 128 (addr64 (x.s' a) off) (.write 0)) x) s

end Sys2Proof.Machine
end

