-- ==== Sys2Proof/Machine/LsuEv.lean ====
section
/-!
DEFINITION. The events of the load-store unit, the walker, the home banks and the fabric: walks (R320), requests at their home (R322,
R325, R330, R146), answers (R149, R150), replays (R125), messages (R18 to R21) and stamps (R140). An event that is not due changes
nothing.
-/
namespace Sys2Proof.Machine

/-- The outcome of an event: the state it gives, or the same state when it is not due. -/
def event (s : State) (o : Option State) : Host.Outcome State Fault Refusal := .next (o.getD s)

/-! ### Answers at the core -/

/-- Take an answer of a kind at its core, in the order of the requests to one granule (R131). -/
def State.answer (s : State) (rid : Nat) (p : Req → Bool) : Option State :=
  match tget s.reqs rid with
  | none => none
  | some r => if r.st == .done && p r && s.first rid r (fun _ => true) then some (s.retire rid r) else none
/-- Whether a request carries atomics that return values. -/
def Req.atoms (r : Req) : Bool := r.lanes.any fun o => o.op.isAtom

def execLoadDataReturn (r : Nat) (s : State) : Host.Outcome State Fault Refusal := event s (s.answer r Req.reads)
def execWriteAcknowledge (r : Nat) (s : State) : Host.Outcome State Fault Refusal := event s (s.answer r fun q => !q.reads && !q.atoms)
def execAtomicResultReturn (r : Nat) (s : State) : Host.Outcome State Fault Refusal := event s (s.answer r fun q => q.atoms)

/-- A tiller that waited for slots, descriptors or a window tries its instruction again (R86). -/
def State.unwait (s : State) (b g t : Nat) : Option State :=
  match (tget s.blocks b).bind fun x => x.groups[g]? with
  | none => none
  | some gr => if (gr.til t).st == .waiting then some (s.modGroup b g fun g => g.setTil t { g.til t with st := .ready }) else none
/-- The request slots that an instruction waits for are free (R123). -/
def execRequestSlotWaitEnd (b g t : Nat) (s : State) : Host.Outcome State Fault Refusal := event s (s.unwait b g t)

/-! ### Walks (R320) -/

/-- The count of a pair of slices passes the numbers that follow it and have been passed. -/
def State.passOn (key : Nat) : Nat → State → State
  | 0, s => s
  | k + 1, s =>
    let n := (cget 0 s.stApplied key + 1) % 2 ^ 32
    if s.stSkip.contains (key, n) then
      State.passOn key k { s with stApplied := cset 0 s.stApplied key n, stSkip := s.stSkip.filter fun e => e != (key, n) }
    else s
/-- A write with a number counts as applied at its home (R140), also when the home turns it away, once those with lower numbers do. -/
def State.passNum (s : State) (r : Req) : State := match r.num with
  | some n =>
    let key := stKey 0 r.slice r.home
    State.passOn key (s.stSkip.length + 1) { s with stSkip := (key, n) :: s.stSkip }
  | none => s

/-- The home answers a request: to its own core at once, else by a response on the fabric (R18). -/
def State.respond (s : State) (rid : Nat) (r : Req) (f : Option PFault) : State :=
  let s := s.passNum r
  if r.home == r.slice then
    match f with
    | none => { s with reqs := tput s.reqs rid { r with st := .done } }
    | some f => s.failReq rid r r.home f
  else
    let (m, s) := s.post .rsp r.pid r.home r.slice rid {} none
    { s with reqs := tput s.reqs rid { r with stamp := s.stampBack r.home, st := match f with
      | none => .back m
      | some f => .failBack m f } }

/-- A route TLB walk has ended (R120, R320); requests whose fault cannot be reported yet stay with it (R326). -/
def State.endRouteWalk (s : State) (wid : Nat) (w : Walk) (blk core : Nat) : State :=
  let waiting := s.reqs.filter fun e => e.2.st == .walk wid
  match s.fullWalk w.slice w.pid w.vd w.va w.acc with
  | (s', .error f) =>
    let s := waiting.foldl (fun s e => if s.unreported w.slice w.pid w.vd f then s else s.failReq e.1 e.2 w.slice f) s'
    if s.reqs.any fun e => e.2.st == .walk wid then s else { s with walks := tdel s.walks wid }
  | (s', .ok x) =>
    let e := tlbOf blk w.vd w.va x
    let s := { s' with walks := tdel s'.walks wid }.tlbEnter w.slice core w.va e
    waiting.foldl (fun s r => s.route r.1 r.2 e) s

/-- A frame-cache walk has ended (R322): the request goes on, or is answered with the fault. -/
def State.endFrameWalk (s : State) (wid : Nat) (w : Walk) (rid : Nat) : State :=
  match tget s.reqs rid with
  | none => { s with walks := tdel s.walks wid }
  | some r =>
    match s.fullWalk w.slice w.pid w.vd w.va w.acc with
    | (s', .error f) =>
      if s.unreported w.slice w.pid w.vd f then s else { s' with walks := tdel s'.walks wid }.respond rid r (some f)
    | (s', .ok x) =>
      let s := { s' with walks := tdel s'.walks wid }.frameFill w.slice (frameOf (vdTag w.vd w.va) w.va x)
      { s with reqs := tput s.reqs rid { r with st := .atHome } }

/-- `WALK_COMPLETE`: one of the 16 walks in flight of a slice ends. -/
def execWalkComplete (w : Nat) (s : State) : Host.Outcome State Fault Refusal :=
  event s (match tget s.walks w with
    | none => none
    | some x =>
      let ahead := (s.walks.filter fun e => e.2.slice == x.slice && decide (e.1 < w)).length
      if ahead ≥ 16 then none
      else match x.what with
        | .tlb blk core => some (s.endRouteWalk w x blk core)
        | .frame r => some (s.endFrameWalk w x r))

/-! ### At the home -/

/-- Traffic class and operation of a request (R324, R325). -/
def Req.traf (r : Req) : Traf :=
  if r.lanes.any fun o => o.op.isAtom then { cls := 3, op := 2, hint := r.hint }
  else { cls := 0, op := if r.reads then 0 else 1, hint := r.hint }

/-- Whether a request writes all 128 bytes of its line (R330). -/
def Req.fullLine (r : Req) : Bool :=
  (r.lanes.all fun o => match o.op with
    | .write _ => true
    | _ => false) &&
  (upto 128).all fun i => r.lanes.any fun o => decide (o.va ≤ r.gran * 128 + i) && decide (r.gran * 128 + i < o.va + o.size)

/-- Bytes of one entry in the spill area. DESIGN CHOICE (notes/assumptions/30.md): 32. -/
def ordBytes : Nat := 32
/-- An entry as it stands in the spill area: its launch, address, operand and key. DESIGN CHOICE (notes/assumptions/30.md): the layout. -/
def OrdEnt.bytes (e : OrdEnt) : List Byte := toBytes 8 e.launch ++ toBytes 8 e.va ++ toBytes 4 e.x ++ toBytes 4 e.blk ++ toBytes 4 e.who ++ toBytes 4 e.n
/-- A spill goes through the slice cache as traffic of the class Atomics (R324) to its place in the partition's spill area (R147). -/
def State.spill (s : State) (slice : Nat) (e : OrdEnt) : State :=
  let pa := ((tget s.parts e.pid).map Part.spillBase).getD 0 + ordBytes * e.at'
  let s := match homeOf (s.slice slice).map pa with
    | some (home, sla) => s.touch home e.pid e.vd 0 (pa / 128) sla { cls := 3, op := 1 }
    | none => s
  s.paWrite slice pa e.bytes
/-- The lowest places of the spill area that none of n entries takes. -/
def State.spillFree (s : State) (pid n : Nat) : List Nat :=
  (upto (s.ordq.length + n)).filter fun i => !s.ordq.any fun e => e.pid == pid && e.spilled && e.at' == i
/-- Queue the entries of an ordered atomic (R146, R147): a bank holds 2,048; more go to the partition's spill area; none is room for all
or none. -/
def State.queueOrd (s : State) (r : Req) (launch blk sla key : Nat) : Option State :=
  let bank := bankOf (r.gran * 128)
  let held := (s.ordq.filter fun e => e.home == r.home && e.bank == bank && !e.spilled).length
  let spilled := (s.ordq.filter fun e => e.pid == r.pid && e.spilled).length
  let room := ((tget s.parts r.pid).map Part.spillSize).getD 0 / ordBytes
  let n := r.lanes.length
  let extra := n - (2048 - held)
  if extra > 0 && spilled + extra > room then none
  else
    let free := s.spillFree r.pid n
    let mk (i : Nat) (o : LOp) : OrdEnt :=
      match o.op with
      | .ord x who k => { home := r.home, sla := sla + o.va % 128, key := key, bank := bank, pid := r.pid, vd := r.vd, launch := launch, va := o.va, x := x, blk := blk, who := who,
                          n := k, spilled := decide (held + i ≥ 2048), at' := if held + i ≥ 2048 then listGet 0 free (i - (2048 - held)) else 0 }
      | _ => { home := 0, sla := 0, key := 0, bank := 0, pid := 0, vd := 0, launch := 0, va := 0, x := 0, blk := 0, who := 0, n := 0 }
    let new := (upto n).map fun i => mk i (listGet { lane := 0, va := 0, size := 0, op := .read } r.lanes i)
    some ((new.filter OrdEnt.spilled).foldl (fun s e => s.spill r.home e) { s with ordq := s.ordq ++ new })

/-- Drop a granule from the L1s and the near ways of a slice; a read of it that is still returning fills no line. -/
def State.dropGran (s : State) (slice vdt gran : Nat) : State :=
  let s := { s with cores := tmap (fun k c => if k / 4 == slice then { c with l1 := c.l1.filter fun x => !(x.vd == vdt && x.gran == gran) } else c) s.cores }
  (s.nearDrop slice fun y => y.vd == vdt && y.gran == gran).noFill slice fun q => q.gran == gran && vdTag q.vd (q.gran * 128) == vdt

/-- A maintenance operation at the home (R155). -/
def State.lineOp (s : State) (r : Req) (op : ClineOp) : State :=
  let vdt := vdTag r.vd (r.gran * 128)
  let here (y : SLine) : Bool := y.vd == vdt && y.gran == r.gran && y.near.isNone
  match op with
  | .inv =>
    ((s.l1Drop (coreKey r.slice r.core) fun x => x.vd == vdt && x.gran == r.gran).nearDrop r.slice fun y => y.vd == vdt && y.gran == r.gran).noFill r.slice
      fun q => q.gran == r.gran && q.tag == vdt
  | .wb => s.modSlice r.home fun x => { x with scache := x.scache.map fun y => if here y then { y with old := none } else y }
  | .evict => (s.modSlice r.home fun x => { x with scache := x.scache.filter fun y => !here y }).dropGran r.slice vdt r.gran

/-- A request whose page the home translates otherwise than its route entry: both entries are dropped and the core walks again, and nothing
has been accessed (R143, R322). DEDUCED (notes/assumptions/83.md). -/
def State.reroute (s : State) (rid : Nat) (r : Req) : State :=
  let s := ((s.passNum r).routeDrop r.slice r.core r.b (r.gran * 128)).frameDrop r.home r.tag (r.gran * 128)
  s.startReq rid { r with num := none, stamp := [] } true

/-- Perform a request at its home (R131, R132, R324, R330): the frame is known. -/
def State.perform (s : State) (rid : Nat) (r : Req) (fr : FrameE) : State :=
  if !fr.agrees r.home r.cache r.acc then s.reroute rid r
  else
  let r := { r with perf := s.perfs + 1 }
  let s := { s with perfs := s.perfs + 1 }
  let va := r.gran * 128
  let low := va % (if fr.big then 2 ^ 21 else 4096)
  let sla := fr.sla + low
  let vdt := vdTag r.vd va
  -- while the held list is full the request waits, and is tried again (R326)
  let poison : State → State := fun s =>
    if s.unreported r.home r.pid r.vd { kind := .poison } then { s with reqs := tput s.reqs rid { r with st := .atHome } }
    else s.respond rid r (some { kind := .poison })
  if s.homeDown r.home r.pid (fr.pa + low) then s.respond rid r (some { kind := .home })
  else match (r.lanes.map LOp.op).headD .read with
    | .line op => (s.lineOp r op).respond rid r none
    | .ord _ _ _ =>
      let b := (tget s.blocks r.b).getD {}
      match s.queueOrd r b.launch b.idx sla fr.key with
      | some s => s.respond rid r none
      | none => s.respond rid r (some { kind := .home, ordq := true })
    | _ =>
      let s := s.touch r.home r.pid r.vd vdt r.gran sla { r.traf with full := r.fullLine }
      if r.fullLine then
        let o := elRun va r.lanes (List.replicate 128 0)
        match s.homeWrite r.home sla fr.key o.1 with
        | (s, true) => (s.door r.pid (fr.pa + low) o.1).respond rid { r with vals := o.2.1, line := o.1 } none
        | (s, false) => poison s
      else match s.homeRead r.home sla 128 fr.key with
        | (s, none) => poison s
        | (s, some d) =>
          let o := elRun va r.lanes d
          let r := { r with vals := o.2.1, line := o.1, fl := o.2.2 }
          if r.writes then
            match s.homeWrite r.home sla fr.key o.1 with
            | (s, true) => (r.lanes.foldl (fun s (l : LOp) => match l.op with
                | .write x => s.door r.pid (fr.pa + low + l.va % 128) (toBytes l.size x)
                | _ => s) s).respond rid r none
            | (s, false) => poison s
          else s.respond rid r none

/-- Whether a request has not been performed yet. -/
def Req.before (r : Req) : Bool := match r.st with
  | .walk _ => true
  | .going _ => true
  | .atHome => true
  | .frame _ => true
  | .stamped => true
  | _ => false

/-- `HOME_REQUEST_ARRIVAL`: requests of one core to one granule come in order (R131), numbered writes of one slice in the order of their
numbers (R140); the frame cache translates (R322); a stamp that is not met holds the request. -/
def execHomeRequestArrival (r : Nat) (s : State) : Host.Outcome State Fault Refusal :=
  event s (match tget s.reqs r with
    | none => none
    | some q =>
      let turn := match q.num with
        | some n => n == (cget 0 s.stApplied (stKey 0 q.slice q.home) + 1) % 2 ^ 32
        | none => true
      if q.st != .atHome || !turn || !s.first r q Req.before then none
      else
        let va := q.gran * 128
        match s.frameFind q.home (vdTag q.vd va) va with
        | none =>
          let (w, s) := s.askWalk { slice := q.home, pid := q.pid, vd := q.vd, va := va, acc := q.acc, what := .frame r }
          some { s with reqs := tput s.reqs r { q with st := .frame w } }
        | some fr => if s.stampMet q.home q.stamp then some (s.perform r q fr) else some { s with reqs := tput s.reqs r { q with st := .stamped } })

/-- `STAMPED_MESSAGE_PERFORM`: every write that the stamp names has been applied (R140). -/
def execStampedMessagePerform (r : Nat) (s : State) : Host.Outcome State Fault Refusal :=
  event s (match tget s.reqs r with
    | none => none
    | some q =>
      if q.st != .stamped || !s.stampMet q.home q.stamp then none
      else match s.frameFind q.home (vdTag q.vd (q.gran * 128)) (q.gran * 128) with
        | none => some { s with reqs := tput s.reqs r { q with st := .atHome } }
        | some fr => some (s.perform r q fr))

/-! ### Replay (R125, R128) -/

/-- The faults of a fetch have all been answered. -/
def fetchDone (st : TState) : Bool := match st with
  | .longWait (.fetch f) => f.all (·.resolved)
  | .held (.longWait (.fetch f)) => f.all (·.resolved)
  | _ => false

/-- A parked memory instruction of a slot whose faults have all been answered, with no request on its way. -/
def State.replayable (s : State) (b g t : Nat) (gr : Group) : Option (Nat × Pend × MemFlight) :=
  gr.pend.findSome? fun e => match e.2.kind with
    | .mem m => if e.2.slot == t && !m.faults.isEmpty && m.faults.all (·.resolved) &&
        !(s.reqs.any fun q => q.2.b == b && q.2.g == g && q.2.pend == e.1) then some (e.1, e.2, m) else none
    | _ => none

/-- `PARKED_REPLAY`: the masked lanes are performed again; a fetch that faulted is repeated. -/
def execParkedReplay (b g t : Nat) (s : State) : Host.Outcome State Fault Refusal :=
  event s (match tget s.blocks b with
    | none => none
    | some bl => match bl.groups[g]? with
      | none => none
      | some gr =>
        if bl.res != .resident || bl.fail.isSome then none
        else
          -- the replay's requests need slots as those of the issue did (R123)
          let u := gr.til t
          if fetchDone u.st then
            some (s.modGroup b g fun g => g.setTil t { u with st := match u.st with
              | .held _ => .held .ready
              | _ => .ready })
          else match s.replayable b g t gr with
            | none => none
            | some (id, p, m) =>
              if !s.slotsFor bl (granules m.lanes).length then none
              else
              let back (st : TState) : TState := match st with
                | .longWait (.parked k) => if k == id then .longWait (.on id) else st
                | .held (.longWait (.parked k)) => if k == id then .held (.longWait (.on id)) else st
                | st => st
              let s := s.modGroup b g fun g =>
                { g.setTil t { u with st := back u.st } with pend := tput g.pend id { p with kind := .mem { m with faults := [] } } }
              some (s.sendLanes b g id))

/-! ### The fabric (R18 to R21) -/

/-- The next slice on the dimension-ordered route (R20): along the row, then along the column. -/
def nextHop (pos dst : Nat) : Nat :=
  if pos % 8 < dst % 8 then pos + 1 else if pos % 8 > dst % 8 then pos - 1
  else if pos / 8 < dst / 8 then pos + 8 else if pos / 8 > dst / 8 then pos - 8 else pos

/-- Whether an older message of the same class, source and destination is on its way (R18). -/
def State.msgBehind (s : State) (m : Nat) (x : Msg) : Bool :=
  s.msgs.any fun e => decide (e.1 < m) && e.2.cls == x.cls && e.2.src == x.src && e.2.dst == x.dst

/-- `FABRIC_HOP`: the receiver takes a message into its shared pool or its class's escape buffer, or refuses it (R19). Messages of a
class between two slices keep their order (R18). -/
def execFabricHop (m : Nat) (s : State) : Host.Outcome State Fault Refusal :=
  event s (match tget s.msgs m with
    | none => none
    | some x =>
      let nxt := nextHop x.pos x.dst
      if x.pos == x.dst || s.msgBehind m x then none
      else
        let there := s.msgs.filter fun e => e.2.pos == nxt && e.2.port == x.pos && e.1 != m
        let sunk := x.cls == .rsp && nxt == x.dst
        let pool := (there.filter fun e => !e.2.esc).length
        if sunk || pool < Config.hopPool then some { s with msgs := tput s.msgs m { x with pos := nxt, port := x.pos, esc := false } }
        else if !there.any fun e => e.2.esc && e.2.cls == x.cls then
          some { s with msgs := tput s.msgs m { x with pos := nxt, port := x.pos, esc := true } }
        else none)

/-- The edge turns a request away with a status (R21). -/
def State.turnAway (s : State) (x : Msg) (r : Req) (f : PFault) : State :=
  let s := s.passNum r
  let (m, s) := s.post .rsp x.pid x.dst x.src x.req {} (some f.kind)
  { s with reqs := tput s.reqs x.req { r with st := .failBack m f } }

/-- `EDGE_MESSAGE_ARRIVAL`: the edge interface of the destination answers for a slice in reset, or applies the firewall (R21). -/
def execEdgeMessageArrival (m : Nat) (s : State) : Host.Outcome State Fault Refusal :=
  event s (match tget s.msgs m with
    | none => none
    | some x =>
      if x.pos != x.dst || s.msgBehind m x then none
      else
        let s := { s with msgs := tdel s.msgs m }
        match tget s.reqs x.req with
        | none => some s
        | some r =>
          if x.cls == .rsp then
            match r.st with
            | .back _ => some { (s.learn x.dst r.stamp) with reqs := tput s.reqs x.req { r with st := .done } }
            | .failBack _ f => if f.kind == .firewall then some { s with reqs := tput s.reqs x.req { r with st := .refused f } }
                else some (s.failReq x.req r r.home f)
            | _ => some s
          else if (s.slice x.dst).inReset then some (s.turnAway x r { kind := .home })
          else if !s.admits x.dst x.pid then some ((s.fwNotice x.dst x.acc.code).turnAway x r { kind := .firewall, home := x.dst })
          else some { (s.learn x.dst r.stamp) with reqs := tput s.reqs x.req { r with st := .atHome } })

/-- `FIREWALL_STATUS_RECEIVED`: the core drops the route entry that named the refused home, and the access parks (R21, R127). -/
def execFirewallStatusReceived (r : Nat) (s : State) : Host.Outcome State Fault Refusal :=
  event s (match tget s.reqs r with
    | none => none
    | some q => match q.st with
      | .refused f =>
        some ((s.routeDrop q.slice q.core q.b (q.gran * 128)).failReq r q q.slice f)
      | _ => none)

end Sys2Proof.Machine
end

