-- ==== Sys2Proof/Machine/Sched.lean ====
section
/-!
DEFINITION. The sequencer's events: pending results (R82), instruction fetch (R41, R52, R128), `snooze` (R111), and the exchange of
active and pending groups (R77, R80).
-/
namespace Sys2Proof.Machine

/-! ### Results and timers -/

/-- The pending instruction of a group. -/
def State.pendOf (s : State) (b g id : Nat) : Option Pend :=
  ((tget s.blocks b).bind fun x => x.groups[g]?).bind fun g => tget g.pend id

/-- `PENDING_WRITE_PERFORMED`: the latency of a result has passed (R82, R85). -/
def execPendingWritePerformed (b g id : Nat) (s : State) : Host.Outcome State Fault Refusal :=
  event s (match s.pendOf b g id with
    | some p => if p.kind == .alu then some (s.modGroup b g fun g => g.complete id) else none
    | none => none)

/-- `SNOOZE_EXPIRY` (R111). -/
def execSnoozeExpiry (b g id : Nat) (s : State) : Host.Outcome State Fault Refusal :=
  event s (match (s.pendOf b g id).map Pend.kind with
    | some (.cond (.snooze til)) => if til ≤ s.now then some (s.modGroup b g fun g => g.complete id) else none
    | _ => none)

/-! ### Fetch -/

/-- The tiller that is to fetch: Ready, its block resident, its next instruction not in the cache. -/
def State.fetcher (s : State) (b g t : Nat) : Option (Block × Tiller) :=
  match tget s.blocks b with
  | none => none
  | some bl => match bl.groups[g]? with
    | none => none
    | some gr =>
      let u := gr.til t
      if u.st == .ready && bl.res == .resident && bl.fail.isNone && (s.icFind bl.slice bl.core bl.vd u.pc).isNone then some (bl, u) else none

/-- `INSTRUCTION_CACHE_FILL`: a fetch block is read with X permission (R41, R52, R122). -/
def execInstructionCacheFill (b g t : Nat) (s : State) : Host.Outcome State Fault Refusal :=
  event s (match s.fetcher b g t with
    | none => none
    | some (bl, u) =>
      if !canonical u.pc then none
      else match s.codeBlock bl.slice bl.pid bl.vd u.pc (some ⟨bl.core, b⟩) with
        | (s, .ok w) => some (s.icFill bl.slice bl.core { vd := vdTag bl.vd u.pc, blk := u.pc / 32, words := w })
        | (_, .error _) => none)

/-- `INSTRUCTION_FETCH_FAULT` (R128): the tiller waits and the fault is reported; a non-canonical address is a program fault. -/
def execInstructionFetchFault (b g t : Nat) (s : State) : Host.Outcome State Fault Refusal :=
  event s (match s.fetcher b g t with
    | none => none
    | some (bl, u) =>
      let lane := lowLane u.mask
      if !canonical u.pc then some (s.failBlock b { kind := 4, detail := 0x30, va := u.pc, pc := u.pc, lane := lane, acc := 4 })
      else match s.codeBlock bl.slice bl.pid bl.vd u.pc (some ⟨bl.core, b⟩) with
        | (_, .ok _) => none
        | (s, .error f) =>
          if s.unreported bl.slice bl.pid bl.vd f then none
          else
            let s := if f.kind == .firewall then s.fwNotice f.home 4 else s
            let va := u.pc / 32 * 32
            let (token, s) := s.report { slice := bl.slice, pid := bl.pid, vd := bl.vd, f := f, va := va, pc := u.pc, acc := { x := true },
                                         info := lane + 2 ^ 32 * bl.idx, guest := false, waiter := .fetch b g t }
            some (s.modGroup b g fun g => g.setTil t { u with st := .longWait (.fetch [{ va := va, f := f, token := token }]) }))

/-! ### Active and pending groups (R80) -/

/-- Whether a group has a tiller that is ready (R78), as stamped at the end of the last clock; whether it has one Ready or Waiting. -/
def Group.ready (g : Group) : Bool := g.readySince.isSome
def Group.lively (g : Group) : Bool := g.tillers.any fun t => t.st == .ready || t.st == .waiting

/-- The groups of a quarter that can issue: those of resident blocks that have not Ended. -/
def State.quarterGroups (s : State) (q : Nat) : List (Nat × Nat × Group) :=
  s.blocks.flatMap fun e =>
    let b := e.2
    if b.res != .resident || b.cancelled || b.fail.isSome || coreKey b.slice b.core != q / 4 then []
    else ((upto b.groups.length).map fun i => (e.1, i, listGet ({} : Group) b.groups i)).filter fun x => x.2.2.quarter == q % 4 && !x.2.2.ended

/-- A quarter's record. -/
def State.quarter (s : State) (q : Nat) : Quarter := (tget s.quarters q).getD {}
/-- The earlier of two candidates: longer in its state first, ties to the lower slot. -/
def earlier (since : Group → Option Nat) (a b : Nat × Nat × Group) : Bool :=
  let x := (since a.2.2).getD 0
  let y := (since b.2.2).getD 0
  decide (x < y) || (x == y && a.2.2.slot < b.2.2.slot)
/-- The best candidate of a list. -/
def bestOf (since : Group → Option Nat) (l : List (Nat × Nat × Group)) : Option (Nat × Nat × Group) :=
  l.foldl (fun o x => match o with
    | none => some x
    | some y => if earlier since x y then some x else some y) none
/-- The pending groups of a quarter that have a ready tiller. -/
def pendingReady (act : List (Option (Nat × Nat))) (l : List (Nat × Nat × Group)) : List (Nat × Nat × Group) :=
  l.filter fun x => x.2.2.ready && !act.contains (some (x.1, x.2.1))

/-- Fill the empty positions from position k on (R80, third and fourth row). -/
def fillPos (l : List (Nat × Nat × Group)) : Nat → Nat → List (Option (Nat × Nat)) → List (Option (Nat × Nat))
  | 0, _, act => act
  | n + 1, k, act =>
    match listGet none act k with
    | some _ => fillPos l n (k + 1) act
    | none => match bestOf Group.readySince (pendingReady act l) with
      | none => act
      | some x => fillPos l n (k + 1) (listSet act k (some (x.1, x.2.1)))

/-- The positions of a quarter at the end of a clock (R80): groups that have gone leave, a group that yields or the one longest without a
Ready or Waiting tiller changes places with the pending group ready longest, and then empty positions fill. The spec does not say which comes
first when one ready pending group could do either. DESIGN CHOICE (notes/assumptions/85.md): the exchange. -/
def settleQuarter (q : Quarter) (l : List (Nat × Nat × Group)) : Quarter :=
  let act := q.act.map fun e => match e with
    | some (b, g) => if l.any fun x => x.1 == b && x.2.1 == g then e else none
    | none => none
  let here (x : Nat × Nat × Group) : Bool := act.contains (some (x.1, x.2.1))
  let yielding : Option (Nat × Nat × Group) := q.giveUp.bind fun p => (listGet none act p).bind fun e => l.find? fun x => x.1 == e.1 && x.2.1 == e.2
  let idle := bestOf Group.idleSince (l.filter fun x => here x && !x.2.2.lively)
  let act := match bestOf Group.readySince (pendingReady act l), (match yielding with | some x => some x | none => idle) with
    | some inn, some out => act.map fun e => if e == some (out.1, out.2.1) then some (inn.1, inn.2.1) else e
    | _, _ => act
  { q with act := fillPos l 8 0 act, giveUp := none }

/-- Since which clock a group has had a ready tiller, and since which none Ready or Waiting. The clocks with a ready tiller count on when an active
group becomes pending. DESIGN CHOICE (notes/assumptions/108.md). -/
def Group.stampIdle (clk : Nat) (ready : Bool) (g : Group) : Group :=
  { g with readySince := if ready then some (g.readySince.getD clk) else none
           idleSince := if g.lively then none else some (g.idleSince.getD clk) }

/-- The arithmetic clock of a slice in MHz (R15, R417). -/
def State.mhz (s : State) (slice : Nat) : Nat := 700 + 25 * (s.slice slice).k
/-- The thousandths of arithmetic clocks that a slice has counted, each at the frequency it ran at (R17). -/
def State.clocks (s : State) (slice : Nat) : Nat := (s.slice slice).clk + (s.now - (s.slice slice).clkAt) * s.mhz slice

/-- `PENDING_READY_TIMEOUT`: a pending group ready for 1,024 clocks changes places with the active group that issued least recently. -/
def execPendingReadyTimeout (q : Nat) (s : State) : Host.Outcome State Fault Refusal :=
  event s (
    let l := s.quarterGroups q
    let k := s.quarter q
    let late := (pendingReady k.act l).filter fun x => match x.2.2.readySince with
      | some t => decide (s.clocks (q / 16) - t ≥ 1024 * 1000)
      | none => false
    match bestOf Group.readySince late, bestOf (fun g => some g.lastIssue) (l.filter fun x => k.act.contains (some (x.1, x.2.1))) with
    | some inn, some out =>
      let act := k.act.map fun e => if e == some (out.1, out.2.1) then some (inn.1, inn.2.1) else e
      some { s with quarters := tput s.quarters q { k with act := act } }
    | _, _ => none)

end Sys2Proof.Machine
end

