-- ==== Sys2Proof/Machine/CopyOps.lean ====
section
/-!
DEFINITION. The copy engine (R183 to R199): where the bytes of a copy lie, the checks at issue, moving bytes, sheaves.
-/
namespace Sys2Proof.Machine

/-! ### Geometry (R189 to R191, R201 to R205) -/

/-- A place a copy reads or writes: global, local, the leader's or the follower's weight buffer. -/
inductive Loc where
  | glob (va : Nat)
  | loc (off : Nat)
  | wbL (off : Nat)
  | wbF (off : Nat)
  deriving DecidableEq, Repr

/-- ROW_BYTES, ROWS and SPITCH of the extent (R191). -/
def Copy.rb (c : Copy) : Nat := bits c.e 15 0
def Copy.rows (c : Copy) : Nat := bits c.e 31 16
def Copy.spitch (c : Copy) : Nat := bits c.e 63 32

/-- lay_addr of R190. -/
def layAddr (base r col rows rb pitch : Nat) (l : Layout) : Nat :=
  if l.outer.val == 2 then base + r * pitch + col
  else
    let th := 2 ^ l.thl.val
    let tw := 16 * 2 ^ l.twl.val
    let tr := r / th
    let ir := r % th
    let tc := col / tw
    let ic := col % tw
    let t := if l.outer.val == 0 then tr * (rb / tw) + tc else tc * (rows / th) + tr
    let nch := tw / 16
    let ch := ic / 16
    let ch := if l.swz.val == 1 then (ch + ir) % nch else if l.swz.val == 2 then (ch + ir / 2) % nch else ch
    base + t * th * tw + ir * tw + ch * 16 + ic % 16
/-- Whether a layout divides the region (R190). -/
def layFits (rows rb : Nat) (l : Layout) : Bool := l.outer.val == 2 || (rb % (16 * 2 ^ l.twl.val) == 0 && rows % 2 ^ l.thl.val == 0)

/-- A global address wraps modulo 2^64, a local offset modulo 2^32 (R201). -/
def gloc (v : Int) : Loc := .glob (wrapN v 64)
def lloc (v : Int) : Loc := .loc (wrapN v 32)
def dirSrcGlob (d : Dir) : Bool := d == .g2l || d == .g2g
def dirDstGlob (d : Dir) : Bool := d == .l2g || d == .g2g
def side (glob : Bool) (v : Int) : Loc := if glob then gloc v else lloc v
/-- Bytes of an element of `cpya`, and of a `cfill` value. -/
def esBytes : ESize → Nat
  | .e1 => 1
  | .e2 => 2
  | .e4 => 4
  | .e8 => 8
def fillBytes : FillT → Nat
  | .n8 => 1
  | .n16 => 2
  | .b32 => 4
  | .b64 => 8

/-- COUNTj, SSTRIDEj and DSTRIDEj of an affine descriptor (R205). -/
def affCount (d : List Byte) (j : Nat) : Nat := ofBytes ((d.drop (4 * j)).take 4)
def affS (d : List Byte) (j : Nat) : Int := sext (ofBytes ((d.drop (32 + 8 * j)).take 8)) 64
def affD (d : List Byte) (j : Nat) : Int := sext (ofBytes ((d.drop (80 + 8 * j)).take 8)) 64
/-- The product of the counts. -/
def affTotal (d : List Byte) : Nat := ((upto 6).map (affCount d)).foldl (· * ·) 1
/-- The offset of element x along the strides, counter 0 innermost. -/
def affOff (d : List Byte) (stride : List Byte → Nat → Int) : Nat → Nat → Nat → Int
  | 0, _, _ => 0
  | n + 1, j, x => (x % affCount d j : Nat) * stride d j + affOff d stride n (j + 1) (x / affCount d j)

/-- Number of traversal indices: bytes, or elements of `cpya`. -/
def Copy.total (c : Copy) : Nat := match c.kind with
  | .cpya _ _ => affTotal c.aux
  | _ => c.rows * c.rb
/-- Bytes at each traversal index. -/
def Copy.unit (c : Copy) : Nat := match c.kind with
  | .cpya _ z => esBytes z
  | _ => 1

/-- The source of traversal index x: a place, or the value of a fill. -/
def Copy.srcAt (c : Copy) (x : Nat) : Option Loc :=
  let r := x / c.rb
  let col := x % c.rb
  match c.kind with
  | .cpy true dir lay => some (side (dirSrcGlob dir) (layAddr c.a r col c.rows c.rb c.spitch lay))
  | .cpy false dir _ => some (side (dirSrcGlob dir) (c.a + r * c.spitch + col : Nat))
  | .cgath _ _ => some (gloc (c.c + sext (ofBytes ((c.aux.drop (4 * r)).take 4)) 32 * c.spitch + col))
  | .cfill _ _ => none
  | .wb _ => some (gloc (c.a + r * c.spitch + col : Nat))
  | .cpya dir _ => some (side (dirSrcGlob dir) (c.a + affOff c.aux affS 6 0 x))
  | .rcpy _ srcl _ => some (side (!srcl) (c.a + r * c.spitch + col : Nat))
  | .rget _ _ => none
/-- The destination of traversal index x. The offset D in a weight buffer counts with all its 64 bits: an offset beyond the buffer is no place.
DESIGN CHOICE (notes/assumptions/110.md). -/
def Copy.dstAt (c : Copy) (x : Nat) : Loc :=
  let r := x / c.rb
  let col := x % c.rb
  match c.kind with
  | .cpy true dir _ => side (dirDstGlob dir) (c.d + r * c.c + col : Nat)
  | .cpy false dir lay => side (dirDstGlob dir) (layAddr c.d r col c.rows c.rb c.c lay)
  | .cgath g lay => side g (layAddr c.d r col c.rows c.rb c.rb lay)
  | .cfill g _ => side g (c.d + r * c.c + col : Nat)
  | .wb .lead => .wbL (c.d + r * c.rb + col)
  | .wb .foll => .wbF (c.d + r * c.rb + col)
  | .wb .split =>
    let h := c.rb / 2
    if col < h then .wbL (c.d + r * h + col) else .wbF (c.d + r * h + col % h)
  | .cpya dir _ => side (dirDstGlob dir) (c.d + affOff c.aux affD 6 0 x)
  | .rcpy _ _ dp => gloc (c.d + r * dp + col : Nat)
  | .rget _ dp => gloc (c.d + r * dp + col : Nat)
/-- The byte that a fill writes at index x (R203), and that a remote read has brought (R354). -/
def Copy.fillAt (c : Copy) (x : Nat) : Byte := match c.kind with
  | .rget _ _ => listGet 0 c.aux x
  | .cfill _ t => BitVec.ofNat 8 (c.a / 256 ^ (x % c.rb % fillBytes t))
  | _ => 0

/-- WHERE of a place (R208). -/
def Loc.whr (src : Bool) : Loc → Nat
  | .glob _ => if src then 0 else 2
  | .loc _ => if src then 1 else 3
  | _ => 4
def Loc.addr : Loc → Nat
  | .glob a => a
  | .loc a => a
  | .wbL a => a
  | .wbF a => a

/-! ### Checks at issue (R191, R197, R203, R204) -/

/-- CAUSE codes of R208. -/
def cFirewall : Nat := 1
def cPoison : Nat := 2
def cCanon : Nat := 3
def cLocal : Nat := 4
def cGeom : Nat := 5
def cWbuf : Nat := 6
def cBarobj : Nat := 7
def cCancel : Nat := 8
def cAlign : Nat := 9
def cAbort : Nat := 10

/-- A remote copy (R351). -/
def CpKind.isRem : CpKind → Bool
  | .rcpy _ _ _ => true
  | .rget _ _ => true
  | _ => false
/-- The cause code of R352 of a failed remote copy: that of the remote side, or the code of its CAUSE. -/
def Copy.remCode (c : Copy) : Nat :=
  if c.rcause != 0 then c.rcause else listGet 13 [0, 14, 5, 11, 9, 8, 0, 12, 7, 10] c.cause

/-- A copy fails for good: cause, WHERE and the first faulting byte. -/
def Copy.failWith (c : Copy) (cause whr addr : Nat) : Copy := { c with st := .failed, cause := cause, whr := whr, addr := addr, fault := none }

/-- Whether the geometry is good (R190, R191, R203, R204). -/
def Copy.geomOk (c : Copy) : Bool :=
  c.rows != 0 && c.rb != 0 &&
  match c.kind with
  | .cpy _ _ lay => layFits c.rows c.rb lay
  | .cgath _ lay => layFits c.rows c.rb lay
  | .cfill _ t => c.rb % fillBytes t == 0 && c.d % fillBytes t == 0 && c.c % fillBytes t == 0
  | .wb .split => c.rb % 2 == 0
  | .rcpy _ _ dp => c.rows == 1 || decide (c.rb ≤ dp)
  | _ => true
/-- Whether a place lies within its region. -/
def Block.holds (b : Block) (n : Nat) : Loc → Bool
  | .glob _ => true
  | .loc o => decide (o + n ≤ b.localSz)
  | .wbL o => b.isTile && decide (o + n ≤ b.wbSz)
  | .wbF o => b.isTile && decide (o + n ≤ b.wbSz)
/-- The check of both sides over the whole extent: the failure, if any, names the side's byte of index 0. -/
def Copy.sideCheck (c : Copy) (b : Block) : Option (Nat × Nat × Nat) :=
  let all := upto c.total
  let n := c.unit
  let bad (src : Bool) (at' : Nat → Option Loc) : Option (Nat × Nat × Nat) :=
    if all.all fun x => match at' x with
        | some l => b.holds n l
        | none => true
    then none
    else match at' 0 with
      | some l => some (if l.whr src == 4 then cWbuf else cLocal, l.whr src, l.addr)
      | none => none
  let gath := match c.kind with
    | .cgath _ _ => true
    | _ => false
  match if gath then none else bad true c.srcAt with
  | some f => some f
  | none => bad false fun x => some (c.dstAt x)
/-- The arrival object's check. -/
def Copy.arvCheck (c : Copy) (b : Block) : Option (Nat × Nat × Nat) :=
  match c.arv with
  | none => none
  | some o => if o + 8 > b.localSz then some (cLocal, 6, o) else if o % 8 != 0 then some (cAlign, 6, o) else none
/-- The checks of R197 that are made at issue; `cpya` is checked when its descriptor has been read. When several fail, the one recorded is the
first in the order GEOM, source, destination, index table, arrival object; of an arrival object LOCAL comes before ALIGN. DESIGN CHOICE
(notes/assumptions/86.md). An index table beyond `.local` is recorded under WHERE 5 with its first byte. DESIGN CHOICE
(notes/assumptions/87.md). -/
def Copy.issueCheck (c : Copy) (b : Block) : Option (Nat × Nat × Nat) :=
  match c.kind with
  | .cpya _ _ => c.arvCheck b
  | k =>
    if !c.geomOk then some (cGeom, (c.dstAt 0).whr false, (c.dstAt 0).addr)
    else match c.sideCheck b with
      | some f => some f
      | none =>
        match k with
        | .cgath _ _ => if c.a % 2 ^ 32 + 4 * c.rows > b.localSz then some (cLocal, 5, c.a % 2 ^ 32) else c.arvCheck b
        | _ => c.arvCheck b
/-- The checks of an affine descriptor (R205). -/
def Copy.affCheck (c : Copy) (b : Block) : Option (Nat × Nat × Nat) :=
  let d := c.aux
  let whr := 5
  if (upto 6).any (fun j => affCount d j == 0) || ((d.drop 24).take 8).any (· != 0) || affTotal d > 2 ^ 40 then some (cGeom, whr, c.e)
  else
    let all := upto c.total
    let odd (l : Loc) : Bool := l.addr % c.unit != 0
    match c.sideCheck b with
    | some f => some f
    | none =>
      if all.any fun x => (c.srcAt x).any odd then some (cAlign, ((c.srcAt 0).map fun l => l.whr true).getD 0, ((c.srcAt 0).map Loc.addr).getD 0)
      else if all.any fun x => odd (c.dstAt x) then some (cAlign, (c.dstAt 0).whr false, (c.dstAt 0).addr)
      else none

/-! ### Moving bytes (R192, R195, R196) -/

/-- Why bytes stop moving: a fault that is serviced, or a failure. -/
inductive CpStop where
  | fault (f : PFault) (whr va : Nat) (acc : Acc)
  | fail (cause whr addr : Nat)
  deriving DecidableEq, Repr

/-- What a fault of a global access does to a copy (R196): a refusal is noticed, poison is recorded in the fault ring. -/
def State.cpFault (s : State) (b : Block) (f : PFault) (whr va : Nat) (acc : Acc) : State × CpStop :=
  match f.kind with
  | .firewall => (s.fwNotice f.home acc.code, .fail cFirewall whr va)
  | .poison => (s.notice b.slice b.pid b.vd va 0 2 0 acc.code (2 ^ 32 * b.idx), .fail cPoison whr va)
  | _ => (s, .fault f whr va acc)

/-- The hint of a copy on a page: CH applies where CACHE permits a cached line (R195). -/
def cpHint (cache : Nat) (h : Hint) : Hint := if cache == 0 then .none else h
/-- Read n bytes, within one line when global, as traffic of a class (R324), through the route TLB of the block's core (R195). -/
def State.cpRead (s : State) (bi : Nat) (b : Block) (n cls : Nat) (hint : Hint) : Loc → State × Except CpStop (List Byte)
  | .loc o => (s, .ok (cgets 0 b.loc o n))
  | .wbL o => (s, .ok (cgets 0 b.wbL o n))
  | .wbF o => (s, .ok (cgets 0 b.wbF o n))
  | .glob va =>
    if !canonical va then (s, .error (.fail cCanon 0 va))
    else match s.reach b.slice b.pid b.vd va { r := true } (some ⟨b.core, bi⟩) with
      | (s, .error f) => let (s, e) := s.cpFault b f 0 va { r := true }; (s, .error e)
      | (s, .ok x) =>
        match (s.touch x.home b.pid b.vd (vdTag b.vd va) (va / 128) x.sla { cls := cls, hint := cpHint x.cache hint }).homeRead x.home x.sla n x.key with
        | (s, some d) => (s, .ok d)
        | (s, none) => let (s, e) := s.cpFault b { kind := .poison } 0 va { r := true }; (s, .error e)

/-- The traffic class of a copy's reads: weights for `cpy.wb` (R324). -/
def CpKind.readCls : CpKind → Nat
  | .wb _ => 2
  | _ => 1

/-- The indices from `from'` on at which a copy writes into the line of a global address. -/
def Copy.inLine (c : Copy) (from' va : Nat) : List Nat := (upto c.total).filter fun x => decide (from' ≤ x) && match c.dstAt x with
  | .glob a => a / 128 == va / 128
  | _ => false
/-- Whether a copy writes every byte of the line that holds a global address at indices from `from'` on (R330). -/
def Copy.coversLine (c : Copy) (from' va : Nat) : Bool :=
  let l := c.inLine from' va
  (upto 128).all fun i => l.any fun x => match c.dstAt x with
    | .glob a => decide (a ≤ va / 128 * 128 + i) && decide (va / 128 * 128 + i < a + c.unit)
    | _ => false
/-- The bytes of a copy's element, and what stops it. -/
def State.cpSrc (s : State) (bi : Nat) (b : Block) (c : Copy) (x : Nat) : State × Except CpStop (List Byte) := match c.srcAt x with
  | none => (s, .ok [c.fillAt x])
  | some l => s.cpRead bi b c.unit c.kind.readCls c.hint l

/-- Write the bytes of index `x`, within one line when global. The copies of the granule in the caches of the slice are dropped. A poisoned
line that the copy still writes whole loses its poison (R330), unless a source byte of it cannot be read: the copy then stops before the line.
DEDUCED (notes/assumptions/88.md). -/
def State.cpWrite (s : State) (bi : Nat) (b : Block) (c : Copy) (x : Nat) (l : Loc) (d : List Byte) : State × Option CpStop :=
  match l with
  | .loc o => (s.modBlock bi fun b => { b with loc := csets 0 b.loc o d }, none)
  | .wbL o => (s.modBlock bi fun b => { b with wbL := csets 0 b.wbL o d }, none)
  | .wbF o => (s.modBlock bi fun b => { b with wbF := csets 0 b.wbF o d }, none)
  | .glob va =>
    if !canonical va then (s, some (.fail cCanon 2 va))
    else match s.reach b.slice b.pid b.vd va { w := true } (some ⟨b.core, bi⟩) with
      | (s, .error f) => let (s, e) := s.cpFault b f 2 va { w := true }; (s, some e)
      | (s, .ok xl) =>
        let vdt := vdTag b.vd va
        let s := (s.touch xl.home b.pid b.vd vdt (va / 128) xl.sla { cls := 1, op := 1, full := c.coversLine x va, hint := cpHint xl.cache c.hint }).dropGran b.slice vdt (va / 128)
        match s.homeWrite xl.home xl.sla xl.key d with
        | (s, true) => (s.door b.pid xl.pa d, none)
        | (s, false) =>
          let poison := let (s, e) := s.cpFault b { kind := .poison } 2 va { w := true }; (s, some e)
          if !c.coversLine x va then poison
          else match (c.inLine x va).findSome? fun y => match s.cpSrc bi b c y with
              | (t, .error e) => some (t, some e)
              | _ => none with
            | some r => r
            | none => match (s.homeWrite xl.home (xl.sla / 128 * 128) xl.key (List.replicate 128 0)).1.homeWrite xl.home xl.sla xl.key d with
              | (s, true) => (s.door b.pid xl.pa d, none)
              | (_, false) => poison

/-- Move the elements from index x on, at most n of them: the index reached and what stopped it. -/
def State.moveGo (bi : Nat) (c : Copy) : Nat → State → Nat → State × Nat × Option CpStop
  | 0, s, x => (s, x, none)
  | n + 1, s, x =>
    match tget s.blocks bi with
    | none => (s, x, none)
    | some b =>
      match s.cpSrc bi b c x with
      | (s, .error e) => (s, x, some e)
      | (s, .ok d) => match s.cpWrite bi b c x (c.dstAt x) d with
        | (s, some e) => (s, x, some e)
        | (s, none) => State.moveGo bi c n s (x + 1)

/-- Read bytes of a copy's descriptor, within one line. -/
def State.auxRead (s : State) (bi : Nat) (b : Block) (va n : Nat) : State × Except CpStop (List Byte) :=
  match s.cpRead bi b n 1 .none (.glob va) with
  | (s, .error (.fault f _ v a)) => (s, .error (.fault f 5 v a))
  | (s, .error (.fail c _ v)) => (s, .error (.fail c 5 v))
  | r => r
/-- Read what a copy reads in full when it starts: the index table of `cgath` (R202), the descriptor of `cpya` (R205), which is then
checked. -/
def State.cpAux (s : State) (b : Block) (c : Copy) : State × Except CpStop Copy :=
  match c.kind with
  | .cgath _ _ => (s, .ok { c with aux := cgets 0 b.loc (c.a % 2 ^ 32) (4 * c.rows) })
  | .cpya _ _ =>
    let m := 128 - c.e % 128
    match s.auxRead c.b b c.e m with
    | (s, .error e) => (s, .error e)
    | (s, .ok d) => match if m == 128 then (s, .ok []) else s.auxRead c.b b (c.e + m) (128 - m) with
      | (s, .error e) => (s, .error e)
      | (s, .ok d') =>
        let c := { c with aux := d ++ d' }
        match if c.e % 64 != 0 then some (cGeom, 5, c.e) else c.affCheck b with
        | some (k, w, a) => (s, .error (.fail k w a))
        | none => (s, .ok c)
  | _ => (s, .ok c)

/-! ### Sheaves (R186, R206) -/

/-- Whether a copy is Done or Failed. -/
def CpSt.over : CpSt → Bool
  | .done => true
  | .failed => true
  | _ => false

/-- An arrival of n on an object of a block's local memory: false when the object is invalid (R98). -/
def Block.arriveAt (b : Block) (o n : Nat) : Block × Bool :=
  match arriveObj (readLE b.loc o 8) n with
  | some (v, _) => ({ b with loc := writeLE b.loc o 8 v }, true)
  | none => (b, false)

/-- A sheaf whose copies have all ended: its arrival, then its record (R187, R206, R208). -/
def closeSheaf (copies : List (Nat × Copy)) (b : Block) (sh : SheafSt) : Block × SheafSt :=
  let cs := sh.copies.map fun id => (tget copies id)
  if !sh.out || cs.any fun c => match c with
      | some c => !c.st.over
      | none => false
  then (b, sh)
  else
    let bad (c : Option Copy) : Bool := match c with
      | some c => c.st == .failed
      | none => false
    let first := findIdx bad cs
    let rc := ((cs.find? fun c => c.any fun c => c.st == .failed && c.kind.isRem).bind fun c => c.map Copy.remCode).getD 0
    let sh := match first.bind fun k => (listGet none cs k).map fun c => (k, c) with
      | some (k, c) => { sh with out := false, failed := true, cause := c.cause, whr := c.whr, copy := k, addr := c.addr, rcause := rc }
      | none => { sh with out := false }
    match sh.arv with
    | none => (b, sh)
    | some o => match b.arriveAt o 1 with
      | (b, true) => (b, sh)
      | (b, false) => (b, { sh with failed := true, cause := cBarobj, whr := 6, copy := 0, sarv := true, addr := o })

/-- A sheaf of the group is outstanding. -/
def Group.outNum (g : Group) (n : Nat) : Bool := g.sheaves.any fun x => x.out && x.num == n
/-- The number of the sheaf that is 64 older than the next one to be sealed (R186). -/
def Group.sealOld (g : Group) : Nat := (g.sealCnt + 1 + 2 ^ 64 - 64) % 2 ^ 32
/-- Close the open sheaf under the next number. -/
def Group.sealSheaf (g : Group) (arv : Option Nat) : Group :=
  let cnt := (g.sealCnt + 1) % 2 ^ 64
  let num := cnt % 2 ^ 32
  let sh : SheafSt := { num := num, arv := arv, copies := g.openSheaf, post := true }
  { g with sealCnt := cnt, sheafNum := num, openSheaf := [], sheaves := g.sheaves ++ [sh] }
/-- Whether a sheaf's number is among the 64 most recent, whose records are held (R208). -/
def Group.recent (g : Group) (num : Nat) : Bool := (g.sheafNum + 2 ^ 32 - num) % 2 ^ 32 < 64
/-- Whether a flag of a group waits on a sheaf's number (R361). -/
def State.flagOn (s : State) (bi gi num : Nat) : Bool := s.rops.any fun e => e.2.b == bi && e.2.g == gi && match e.2.wait with
  | .after k => (k + 2 ^ 32 - num) % 2 ^ 32 < 64
  | _ => false

/-- Bring the sheaves of a group up to date. A record stays while it is among the 64 most recent, its seal could be undone (R199), or a flag waits
on it (R361); copies that have ended are forgotten when they are of no open or outstanding sheaf, and of none whose seal a rewind could still
undo. -/
def State.settleSheaves (s : State) (bi gi : Nat) : State :=
  match tget s.blocks bi with
  | none => s
  | some b => match b.groups[gi]? with
    | none => s
    | some g =>
      let r := g.sheaves.foldl (fun (acc : Block × List SheafSt) sh => let x := closeSheaf s.copies acc.1 sh; (x.1, acc.2 ++ [x.2])) (b, [])
      let failed := r.2.any fun x => x.failed && g.sheaves.any fun y => y.num == x.num && y.out
      let kept := r.2.filter fun x => x.out || g.recent x.num || (x.post && g.flash.valid) || s.flagOn bi gi x.num
      let g := { g with sheaves := kept, anyFail := g.anyFail || failed }
      let live := g.openSheaf ++ (kept.filter fun x => x.out || x.post).flatMap SheafSt.copies
      { s with blocks := tput s.blocks bi { r.1 with groups := listSet r.1.groups gi g }
               copies := s.copies.filter fun e => !(e.2.b == bi && e.2.g == gi && e.2.st.over && !live.contains e.1) }

end Sys2Proof.Machine
end

