-- ==== Sys2Proof/Machine/Copy.lean ====
section
/-!
DEFINITION. The instructions and events of the copy engine (R183 to R187, R200 to R208).
-/
namespace Sys2Proof.Machine

/-! ### Issuing a copy (R183 to R185) -/

/-- Whether a copy descriptor is available to a block: 128 per core, of which each resident block has 8 (R185); remote copies take a place of
the network engine instead (R351). -/
def State.descFree (s : State) (bi : Nat) : Bool :=
  match tget s.blocks bi with
  | none => false
  | some b =>
    let used (k : Nat) : Nat := (s.copies.filter fun e => e.2.b == k && !e.2.st.over && !e.2.kind.isRem).length
    let all := (s.residents b.slice b.core).map Prod.fst
    let total := (all.map used).foldl (· + ·) 0
    let owed := ((all.filter (· != bi)).map fun k => 8 - used k).foldl (· + ·) 0
    used bi < 8 || total + owed < 128

/-- A copy joins the open sheaf (R184); it fails at issue where a check of R197 fails. One with an arrival sets the dirty bit (R199). -/
def Ex.addCopy (x : Ex) (c : Copy) : Ex :=
  let (id, s) := x.s.fresh
  let c := if c.st == .failed then c else match c.issueCheck x.b with
    | some (cause, whr, addr) => c.failWith cause whr addr
    | none => c
  let y : Ex := { x with s := { s with copies := tput s.copies id c }, g := { x.g with openSheaf := x.g.openSheaf ++ [id] } }
  if c.arv.isSome then y.dirty else y

/-- A copy instruction: copy rights whatever the guard, room in the open sheaf, a descriptor (R183, R185). -/
def copyEff (h : Hd) (mk : Ex → Copy) (x : Ex) : Eff :=
  if !x.g.producer then .trap 0x10 1
  else if x.guard h == 0 then .ok x
  else if x.g.openSheaf.length ≥ 256 then .trap 0x10 2
  else if !x.s.descFree x.c.b then .wait x.s .waiting
  else .ok (x.addCopy (mk x))
/-- The copy of an instruction's scalars. -/
def mkCopy (x : Ex) (o : CpyOp) (c : Option SReg) (kind : CpKind) (hint : Hint) : Copy :=
  { b := x.c.b, g := x.c.g, kind := kind, d := x.s' o.d, a := x.s' o.a, e := x.s' o.b, c := (c.map x.s').getD 0,
    arv := o.arv.map BitVec.toNat, hint := hint, lane := lowLane (x.guard o.h), after := x.g.nextPend }

def execCpy (o : CpyOp) (c : SReg) (srclay : Bool) (dir : Dir) (hint : Hint) (lay : Layout) (s : State) : Host.Outcome State Fault Refusal :=
  issue (.cpy o c srclay dir hint lay) (copyEff o.h fun x => mkCopy x o (some c) (.cpy srclay dir lay) hint) s
def execCpyWb (o : CpyOp) (half : WbHalf) (hint : Hint) (s : State) : Host.Outcome State Fault Refusal :=
  issue (.cpyWb o half hint) (copyEff o.h fun x => mkCopy x o none (.wb half) hint) s
def execCfill (o : CpyOp) (c : SReg) (glob : Bool) (ty : FillT) (s : State) : Host.Outcome State Fault Refusal :=
  issue (.cfill o c glob ty) (copyEff o.h fun x => mkCopy x o (some c) (.cfill glob ty) .none) s
def execCgath (o : CpyOp) (c : SReg) (glob : Bool) (hint : Hint) (lay : Layout) (s : State) : Host.Outcome State Fault Refusal :=
  issue (.cgath o c glob hint lay) (copyEff o.h fun x => mkCopy x o (some c) (.cgath glob lay) hint) s
/-- `cpya` is for maintenance launches only: check 8 of R51 comes first (R183, R205). -/
def execCpya (o : CpyOp) (dir : Dir) (esz : ESize) (hint : Hint) (s : State) : Host.Outcome State Fault Refusal :=
  issueP (fun x => x.b.maint) (.cpya o dir esz hint) (copyEff o.h fun x => mkCopy x o none (.cpya dir esz) hint) s

/-! ### `seal`, `cwait`, `cstat` (R186, R206 to R208) -/

def execSeal (h : Hd) (arv save : Option SReg) (s : State) : Host.Outcome State Fault Refusal :=
  let i : Instr := .seal h arv save
  issue i (fun x =>
    if !x.g.producer then .trap 0x10 1
    else if x.guard h == 0 then .ok x
    else
      let o := arv.map fun r => x.s' r % 2 ^ 32
      match o.bind (objFault x h (x.pc0 i) 3) with
      | some f => .prog f
      | none =>
        if x.g.outNum x.g.sealOld then .wait x.s (.longWait .sealWin)
        else
          let y : Ex := { x with g := x.g.sealSheaf o }
          let y := match save with
            | some d => y.setS d.val y.g.sheafNum
            | none => y
          let y := if o.isSome then y.dirty else y
          .ok (y.via fun s => s.settleSheaves x.c.b x.c.g)) s

/-- The outstanding sheaves that `cwait` looks at (R207). -/
def Group.waitsFor (g : Group) (isTo : Bool) (v : Nat) : List SheafSt :=
  let outs := g.sheaves.filter SheafSt.out
  let d := (g.sheafNum + 2 ^ 32 - v % 2 ^ 32) % 2 ^ 32
  if !isTo || d ≥ 2 ^ 31 then outs
  else if d ≥ 64 then []
  else outs.filter fun x => decide ((v % 2 ^ 32 + 2 ^ 32 - x.num) % 2 ^ 32 < 64 - d)
/-- The condition of `cwait` (R207). -/
def Group.cwaitOk (g : Group) (isTo : Bool) (v : Nat) : Bool :=
  g.sealCnt == 0 || if isTo then (g.waitsFor true v).isEmpty else decide ((g.waitsFor false v).length ≤ v)
/-- A wait: complete at once, or pending until its condition holds. -/
def waitEff (i : Instr) (ok : Bool) (c : Cond) (x : Ex) : Eff := if ok then .ok x else .ok (x.pend i [] [] 0 (.cond c))

def execCwait (h : Hd) (isTo : Bool) (v : Src10 128) (s : State) : Host.Outcome State Fault Refusal :=
  let i : Instr := .cwait h isTo v
  issue i (uniform h fun x => let n := val10 x.g v % 2 ^ 32; waitEff i (x.g.cwaitOk isTo n) (.cwait isTo n) x) s
def execCwaitImm22 (h : Hd) (isTo : Bool) (v : BitVec 22) (s : State) : Host.Outcome State Fault Refusal :=
  let i : Instr := .cwaitImm22 h isTo v
  issue i (uniform h fun x => waitEff i (x.g.cwaitOk isTo v.toNat) (.cwait isTo v.toNat) x) s

/-- What a sheaf number names (R208): its record, or the STATE of one that has none. -/
def Group.sheafRec (g : Group) (n : Nat) : Except Nat SheafSt :=
  let d := (g.sheafNum + 2 ^ 32 - n) % 2 ^ 32
  if g.sealCnt == 0 || d ≥ 2 ^ 31 || d ≥ g.sealCnt then .error 0
  else if d ≥ 64 then .error 5
  else match g.sheaves.find? fun x => x.num == n with
    | some x => .ok x
    | none => .error 5
/-- The status word of R208. -/
def Ex.statWord (x : Ex) (n : Nat) : Nat :=
  let any := if x.g.anyFail then 2 ^ 63 else 0
  match x.g.sheafRec n with
  | .error st => any + st
  | .ok sh =>
    if sh.out then
      any + (if sh.copies.any fun id => (tget x.s.copies id).any fun c => c.st == .stopped || c.st == .suspended .stopped then 2 else 1)
    else if !sh.failed then any + 3
    else any + (if sh.sarv then 2 ^ 40 else 0) + sh.copy * 2 ^ 32 + sh.cause * 2 ^ 16 + sh.whr * 2 ^ 8 + 4
/-- The first faulting byte of a sheaf. -/
def Ex.statAddr (x : Ex) (n : Nat) : Nat := match x.g.sheafRec n with
  | .ok sh => if !sh.out && sh.failed then sh.addr else 0
  | .error _ => 0

/-- `cstat` (R208); its reads are recorded and replayed (R407). -/
def execCstat (h : Hd) (f : CstatForm) (s : State) : Host.Outcome State Fault Refusal :=
  issue (.cstat h f) (uniform h fun x => match f with
    | .st d a => x.recorded (x.statWord (x.s' a % 2 ^ 32)) fun y v => .ok (y.setS d.val v)
    | .addr d a => x.recorded (x.statAddr (x.s' a % 2 ^ 32)) fun y v => .ok (y.setS d.val v)
    | .clr d => x.recorded (if x.g.anyFail then 1 else 0) fun y v =>
        .ok ({ y with g := { y.g with anyFail := false } }.setS d.val v)) s

/-! ### Events (R187) -/

/-- Every earlier access of a lane to memory has been performed (R192, R251): each that an earlier instruction of the lane has yet to finish has
a request that its home has performed; a parked one has none. -/
def State.laneTurn (s : State) (bi gi lane after : Nat) : Bool :=
  let performed (q : Req) : Bool := match q.st with
    | .back _ => true
    | .done => true
    | _ => false
  match (tget s.blocks bi).bind fun b => b.groups[gi]? with
  | none => true
  | some g => !g.pend.any fun e => decide (e.1 < after) && match e.2.kind with
    | .mem m => m.lanes.any fun o => o.lane == lane &&
        !s.reqs.any fun q => q.2.b == bi && q.2.g == gi && q.2.pend == e.1 && q.2.gran == o.va / 128 && performed q.2
    | .cond (.matrix _) => e.2.op == 0xCC && bit e.2.mask lane
    | _ => false
def State.cpTurn (s : State) (c : Copy) : Bool := s.laneTurn c.b c.g c.lane c.after
/-- Replace a copy. -/
def State.setCopy (s : State) (id : Nat) (c : Copy) : State := { s with copies := tput s.copies id c }
/-- A remote copy that has failed on its own side is no operation any more once no packet of it is on its way (R351). -/
def State.endRop (s : State) (id : Nat) : State := { s with rops := s.rops.filter fun e => !(e.2.kind == .cpy id && e.2.left == 0) }
/-- Count the granules that a copy has moved from an index to another (R402). -/
def State.countMoved (s : State) (b : Block) (k : Copy) (x y : Nat) : State :=
  s.count b.slice b.vd 0x003 ((y * k.unit + 127) / 128 - (x * k.unit + 127) / 128)
/-- A copy stops before a byte: on a fault that is reported, or for good (R196); none while the report must wait (R326). -/
def State.cpStop (s : State) (id : Nat) (b : Block) (c : Copy) (e : CpStop) : Option State :=
  match e with
  | .fail cause whr addr => some (((s.setCopy id (c.failWith cause whr addr)).endRop id).settleSheaves c.b c.g)
  | .fault f whr va acc =>
    if s.unreported b.slice b.pid b.vd f then none
    else
      let (token, s) := s.report { slice := b.slice, pid := b.pid, vd := b.vd, f := f, va := va, acc := acc, info := 2 ^ 32 * b.idx, guest := false,
                                   waiter := .copy id }
      some (s.setCopy id { c with st := .stopped, whr := whr, addr := va, fault := some { va := va, f := f, token := token } })

/-- The engine starts a queued copy of its own block and reads its table or descriptor (R187, R202, R205). -/
def State.startCopy (s : State) (c : Nat) : Option State :=
  match tget s.copies c with
  | none => none
  | some k => match tget s.blocks k.b with
    | none => none
    | some b =>
      if k.st != .queued || k.kind.isRem || b.res != .resident || !s.cpTurn k then none
      else match s.cpAux b k with
        | (s, .error e) => s.cpStop c b k e
        | (s, .ok k) => some (s.setCopy c { k with st := .running })

/-- A running copy moved as far as it goes, when its VD's share of request slots has room for a request (R185, R286); what `rget` fetches is written once every byte has come (R354). -/
def State.cpRun (s : State) (id : Nat) : Option (Block × Copy × State × Nat × Option CpStop) :=
  match tget s.copies id with
  | none => none
  | some k => match tget s.blocks k.b with
    | none => none
    | some b =>
      let get := match k.kind with
        | .rget _ _ => true
        | _ => false
      let wait := match k.kind with
        | .rcpy _ _ _ => true
        | .rget _ _ => s.rops.any fun e => e.2.kind == .get id
        | _ => false
      if k.st != .running || wait || (b.res != .resident && !get) || !s.slotsFor b 1 then none
      else let r := State.moveGo k.b k (k.total - k.next) s k.next; some (b, k, r.1, r.2.1, r.2.2)

/-- `COPY_DONE`: the last byte is written, then the arrival is made (R187, R193, R196). -/
def execCopyDone (c : Nat) (s : State) : Host.Outcome State Fault Refusal :=
  event s (match s.cpRun c with
    | some (b, k, s, x, none) =>
      let s := s.countMoved b k k.next x
      let k := { k with next := x, st := .done }
      let r := match k.arv, tget s.blocks k.b with
        | some o, some b => match b.arriveAt o 1 with
          | (b, true) => ({ s with blocks := tput s.blocks k.b b }, k)
          | (_, false) => (s, k.failWith cBarobj 6 o)
        | _, _ => (s, k)
      some ((r.1.setCopy c r.2).settleSheaves k.b k.g)
    | _ => none)

/-- A copy of its own block stops before its first faulting byte (R196). -/
def State.stopCopy (s : State) (c : Nat) : Option State :=
  match s.cpRun c with
  | some (b, k, s, x, some e) => (s.countMoved b k k.next x).cpStop c b { k with next := x } e
  | _ => none

/-- `COPY_FAULT_SERVICED`: a Stopped copy whose fault has been answered goes on (R187). -/
def execCopyFaultServiced (c : Nat) (s : State) : Host.Outcome State Fault Refusal :=
  event s (match tget s.copies c with
    | none => none
    | some k =>
      if k.st == .stopped && k.fault.any (·.resolved) then
        let again := k.aux.isEmpty && match k.kind with
          | .cpya _ _ => true
          | .rcpy _ _ _ => true
          | _ => false
        some (s.setCopy c { k with st := if again then .queued else .running, fault := none, whr := 0, addr := 0 })
      else none)

/-- `DESCRIPTOR_WAIT_END`: a descriptor is available to the block again (R185). -/
def execDescriptorWaitEnd (b g t : Nat) (s : State) : Host.Outcome State Fault Refusal := event s (if s.descFree b then s.unwait b g t else none)

/-- `SEAL_WINDOW_WAIT_END`: sheaf n − 64 is no longer outstanding (R186). -/
def execSealWindowWaitEnd (b g t : Nat) (s : State) : Host.Outcome State Fault Refusal :=
  event s (match (tget s.blocks b).bind fun x => x.groups[g]? with
    | none => none
    | some gr =>
      if (gr.til t).st == .longWait .sealWin && !gr.outNum gr.sealOld then
        some (s.modGroup b g fun g => g.setTil t { g.til t with st := .ready })
      else none)

end Sys2Proof.Machine
end

