-- ==== Sys2Proof/Machine/Exit.lean ====
section
/-!
DEFINITION. `exit`: lanes end, and with them tillers, handlers and groups (R90, R94 to R96, R101, R186).
-/
namespace Sys2Proof.Machine

/-- A group has ended (R90): the copies of its open sheaf are sealed (R186), and phases with count 0 lose it (R96). -/
def Block.groupEnded (b : Block) (gi : Nat) : Block :=
  let g := listGet ({} : Group) b.groups gi
  let g := { (if g.openSheaf.isEmpty then g else g.sealSheaf none) with ended := true }
  let b := { b with groups := listSet b.groups gi g }
  (upto 16).foldl (fun b id =>
    let bar := listGet {} b.bars id
    if bar.first == some 0 then
      let t := bar.target - 1
      if bar.arrived.length ≥ t then b.release id else { b with bars := listSet b.bars id { bar with target := t } }
    else b) b

/-- The barriers on which every live tiller of a group has executed `bar` (R96). -/
def Group.atBars (g : Group) : List BarArr := g.bars.filter fun e => g.liveMask &&& e.lanes == g.liveMask
/-- Arrivals that an ended tiller makes complete (R96), and the first whose count is wrong. -/
def arriveAfterExit (gi : Nat) (b : Block) : Block × Option BarArr :=
  (listGet {} b.groups gi).atBars.foldl (fun (acc : Block × Option BarArr) e =>
    if acc.1.barBad e.id e.cnt then (acc.1, acc.2.orElse fun _ => some e)
    else (acc.1.arrive gi e.id e.cnt, acc.2)) (b, none)

/-- The group after lanes of tiller `k` have ended: a handler whose lanes have all ended is over (R101), and records close (R88); true is a
join mismatch. -/
def Group.exits (g : Group) (k m : Nat) : Group × Bool :=
  let g := g.endLanes k m
  let g := match g.trap with
    | some tr => if tr.mask &&& g.exited == tr.mask then g.trapOver tr else g
    | none => g
  g.settleRcds 64

/-- The group after the lanes of the guard have ended, with a wide region that is entered then. -/
def Ex.exited (x : Ex) (m : Nat) : Group := let g := (x.grp.exits x.c.t m).1; g.enterWide.getD g
/-- A trap of a tiller: slot, address, cause and INFO. -/
structure TrapOf where
  slot : Nat
  pc : Nat
  code : Nat
  info : Nat
  deriving DecidableEq, Repr
/-- What `exit` of the lanes of its guard makes of the block, and the trap that it causes (R90, R94 to R96, R101). A mismatch is a trap of the
parked tiller that parked last, at the address where it parked (R88, R95); a wrong count is a trap of the group's last tiller to execute `bar`,
at that `bar` (R96). DEDUCED (notes/assumptions/80.md). -/
def exitOut (x : Ex) (m : Nat) : Block × Option TrapOf :=
  let b := { x.b with groups := listSet x.b.groups x.c.g (x.exited m) }
  let ba := if x.t.mask &&& m == x.t.mask then arriveAfterExit x.c.g b else (b, none)
  let g := listGet {} ba.1.groups x.c.g
  let b := if g.over then ba.1.groupEnded x.c.g else ba.1
  (b, match ba.2, (if (x.grp.exits x.c.t m).2 then some 6 else g.stuck) with
    | some e, _ =>
      let r := g.barLast e
      some ⟨r.1, r.2, 8, barInfo e.id e.cnt (listGet {} b.bars e.id).target⟩
    | none, some code =>
      let k := g.lastParked
      some ⟨k, (g.til k).parkAt, code, (g.til k).parkAt⟩
    | none, none => none)
/-- The effect of `exit` on the lanes of its guard. -/
def exitState (x : Ex) (m : Nat) : State :=
  let r := exitOut x m
  let s := { x.s with blocks := tput x.s.blocks x.c.b r.1 }
  let s := if (listGet {} r.1.groups x.c.g).over then s.settleSheaves x.c.b x.c.g else s
  match r.2 with
  | some t => s.trapAt x.c.b x.c.g t.slot t.pc t.code t.info (s.wordsAt x.b.slice x.b.core x.b.vd t.pc)
  | none => s
/-- Whether `exit` has to wait for pending writes of the top four scalars (R85): it ends a handler, which restores them (R101), or causes a trap,
whose record goes to them (R100). -/
def Ex.exitHeld (x : Ex) (m : Nat) : Bool :=
  (x.g.trap.isSome || (x.b.traph != 0 && (exitOut x m).2.isSome)) && (trapRegs x.g).any (marked x.g x.c.t)
/-- Whether `exit` completes an arrival of its group at a barrier, a release at `.blk` (R96). -/
def Ex.exitArrives (x : Ex) (m : Nat) : Bool := x.t.mask &&& m == x.t.mask && !(x.exited m).atBars.isEmpty

/-- `exit` waits for the tiller's windows (R90). It waits where its end or its trap writes scalars with pending writes (R85), where it completes an
arrival and earlier operations have not been accepted (R96, R139), and where it ends the group with copies in the open sheaf as `seal` does
(R186). In a wide region it traps whatever its guard. DESIGN CHOICE (notes/assumptions/103.md): R95 does not say what an `exit` whose guard is
false in every lane does there. -/
def execExit (h : Hd) (s : State) : Host.Outcome State Fault Refusal :=
  let i : Instr := .exit h
  issue i (fun x =>
    let m := x.guard h
    if x.g.wide.isSome then .trap 5 (x.pc0 i)
    else if m == 0 then .ok x
    else match x.t.wins with
      | w :: _ => .wait x.s (.longWait (.on w.id))
      | [] =>
        if x.exitHeld m || (x.exitArrives m && !x.releaseBlk) then .wait x.s .waiting
        else if (x.grp.exits x.c.t m).1.over && !x.g.openSheaf.isEmpty && x.g.outNum x.g.sealOld then .wait x.s (.longWait .sealWin)
        else .ok (x.via fun _ => exitState x m)) s

end Sys2Proof.Machine
end

