-- ==== Sys2Proof/Machine/MatrixOps.lean ====
section
/-!
DEFINITION. The matrix engine's operation (R217 to R228): operands, the decompressor, the dot product, and the order on a tile.
-/
namespace Sys2Proof.Machine

/-! ### Operands (R221 to R225) -/

/-- Bits of an element: none is INT8. -/
def mBits : Option FType → Nat
  | none => 8
  | some f => fmtBits f
/-- The value of a code; INT8 is the exact integer (R218). -/
def mVal (f : Option FType) (rd : Reading) (c : Nat) : Xv := match f with
  | none => ofInt false (sext c 8) 0
  | some t => fvalue t rd c
/-- The product of a code of A and a code of B. -/
def mMul (o : MOp) (a b : Nat) : Xv × Nat := match o.fa, o.fb with
  | some fa, some fb => codeMul fa fb o.ra o.rb a b
  | fa, fb => dotMul (mVal fa o.ra a) (mVal fb o.rb b)

/-- Element e of elements of w bits packed from byte 0 on (R53). -/
def packed (get : Nat → Byte) (w e : Nat) : Nat :=
  let at' := e * w / 8
  ((get at').toNat + 256 * (get (at' + 1)).toNat) / 2 ^ (e * w % 8) % 2 ^ w

/-- Bytes of a row of A (R221). -/
def MOp.rowBytes (o : MOp) : Nat := o.k * mBits o.fa / 8
/-- The code of A at row i and element k. -/
def MOp.codeA (o : MOp) (loc : Memory) (i k : Nat) : Nat :=
  packed (fun c => cget 0 loc (layAddr o.aoff i c 128 o.rowBytes o.apitch o.lay)) (mBits o.fa) k
/-- Bytes of a chunk of B (R222). -/
def MOp.chunk (o : MOp) : Nat := if o.spb then 512 * mBits o.fb + 1024 else 1024 * mBits o.fb
/-- The metadata word of column j in chunk q. -/
def MOp.meta' (o : MOp) (wb : Memory) (q j : Nat) : Nat := readLE wb (o.boff + q * o.chunk + 512 * mBits o.fb + 8 * j) 8
/-- The code of B at element k of column j of one core, rebuilt where it is 2:4 (R222, R225). -/
def MOp.codeB (o : MOp) (wb : Memory) (k j : Nat) : Nat :=
  let w := mBits o.fb
  let q := k / 64
  let r := k % 64
  if !o.spb then packed (fun c => cget 0 wb (o.boff + q * o.chunk + j * 8 * w + c)) w r
  else
    let kept (n : Nat) : Nat := packed (fun c => cget 0 wb (o.boff + q * o.chunk + j * 4 * w + c)) w n
    let m := o.meta' wb q j / 16 ^ (r / 4) % 16
    if r % 4 == m % 4 then kept (2 * (r / 4)) else if r % 4 == m / 4 then kept (2 * (r / 4) + 1) else 0
/-- Whether the decompressor meets metadata with i0 ≥ i1 (R225). -/
def MOp.metaBad (o : MOp) (wb : Memory) : Bool :=
  o.spb && (upto (o.k / 64)).any fun q => (upto 128).any fun j => (upto 16).any fun g =>
    let m := o.meta' wb q j / 16 ^ g % 16
    decide (m % 4 ≥ m / 4)
/-- Scale codes of row i and of column j for K-block p (R221, R222); 127 is factor 1. -/
def MOp.scaleA (o : MOp) (loc : Memory) (i p : Nat) : Nat := match o.asc with
  | none => 127
  | some a => (cget 0 loc (a * 16 + i * (o.k / 32) + p)).toNat
def MOp.scaleB (o : MOp) (wb : Memory) (p j : Nat) : Nat := match o.bsc with
  | none => 127
  | some a => (cget 0 wb (a * 16 + p * 128 + j)).toNat

/-- The detail of R223 that an operation fails at acceptance, if any. -/
def MOp.check (o : MOp) (b : Block) : Option Nat :=
  let rb := o.rowBytes
  let pitched := o.lay.outer.val == 2
  let last := if pitched then o.aoff + 127 * o.apitch + rb else o.aoff + 128 * rb
  let noScale (f : Option FType) : Bool := f == none || f == some .bf16
  if o.k == 0 || o.k % 64 != 0 || o.k > 65536 then some 1
  else if last > b.localSz || (o.asc.any fun a => decide (a * 16 + 128 * (o.k / 32) > b.localSz)) || o.apitch % 16 != 0 ||
      (pitched && o.apitch < rb) || !layFits 128 rb o.lay then some 2
  else if o.boff + o.k / 64 * o.chunk > b.wbSz || (o.bsc.any fun a => decide (a * 16 + o.k / 32 * 128 > b.wbSz)) then some 3
  else if (o.asc.isSome && noScale o.fa) || (o.bsc.isSome && noScale o.fb) then some 4
  else none

/-! ### The dot product (R69 to R71, R217) -/

/-- Group size (R69). -/
def MOp.gsize (o : MOp) : Nat :=
  let six (f : Option FType) : Bool := f == some .ln6 || f == some .e2m1
  if six o.fa && six o.fb then 16 else 8
/-- The groups from k on: the accumulator's bits and the flags. -/
def MOp.dot (o : MOp) (codeA codeB : Nat → Nat) (scA scB : Nat → Nat) : Nat → Nat → Nat → Nat → Nat × Nat
  | 0, _, acc, fl => (acc, fl)
  | n + 1, k, acc, fl =>
    let idx := (upto o.gsize).map (k + ·)
    if o.fa == none && o.fb == none then
      let t := sext acc 32 + (idx.map fun i => sext (codeA i) 8 * sext (codeB i) 8).foldl (· + ·) 0
      let ovf := if t < -(2 ^ 31) || t ≥ 2 ^ 31 then fOVF else 0
      o.dot codeA codeB scA scB n (k + o.gsize) (wrapN t 32) (fl ||| ovf)
    else
      let S := scaleX (scaleExp (scB (k / 32))) (scaleX (scaleExp (scA (k / 32))) (groupSum (idx.map fun i => mMul o (codeA i) (codeB i))))
      let r := xAdd false (fvalue .f32 .ieee acc) S.1
      let y := roundF32 .rne r.1
      o.dot codeA codeB scA scB n (k + o.gsize) y.1 (fl ||| S.2 ||| r.2 ||| y.2)
/-- Element (i, j) of the result. -/
def MOp.elem (o : MOp) (b : Block) (i j : Nat) : Nat × Nat :=
  let wb := if j < 128 then b.wbL else b.wbF
  let start := if o.zacc then 0 else (cget 0 (listGet [] b.acc o.tile) (i * 256 + j)).toNat
  o.dot (o.codeA b.loc i) (fun k => o.codeB wb k (j % 128)) (o.scaleA b.loc i) (fun p => o.scaleB wb p (j % 128)) (o.k / o.gsize) 0 start 0
/-- The whole tile of 128 rows and 256 columns, and the flags. -/
def MOp.run (o : MOp) (b : Block) : Cells Word × Nat :=
  (upto 32768).foldl (fun (acc : Cells Word × Nat) n =>
    let r := o.elem b (n / 256) (n % 256)
    (if r.1 == 0 then acc.1 else acc.1 ++ [(n, BitVec.ofNat 32 r.1)], acc.2 ||| r.2)) ([], 0)

/-! ### Order (R226 to R228) -/

/-- Whether a shaping operation is yet to read a tile (R254). -/
def ShOp.needs (o : ShOp) (tile : Nat) : Bool := o.out.isNone && match o.kind with
  | .store x => (match x.src with
    | .tile d _ _ _ _ => d == tile
    | .lanes _ _ _ _ => false)
  | _ => false
/-- The tiles that an accepted instruction names, and the one it writes. -/
def TileAct.tiles : TileAct → List Nat
  | .zero d => [d]
  | .copy d a => [d, a]
  | .put d _ => [d]
  | .get a _ _ _ _ _ _ _ _ _ => [a]
  | .store a _ _ => [a]
def TileAct.writes : TileAct → Option Nat
  | .zero d => some d
  | .copy d _ => some d
  | .put d _ => some d
  | .get _ _ _ _ _ _ _ _ _ _ => none
  | .store _ _ _ => none
/-- Whether its turn on its tiles has come (R228, R254): every `mma` and instruction accepted before it on them is over, and every `qst` accepted
before a write has read the tile. -/
def Block.tileTurn (b : Block) (id : Nat) (a : TileAct) : Bool :=
  !(b.mops.any fun e => decide (e.1 < id) && a.tiles.contains e.2.tile) &&
  !(b.tops.any fun e => decide (e.1 < id) && e.2.act.tiles.any a.tiles.contains) &&
  !(b.sops.any fun e => decide (e.1 < id) && a.writes.any e.2.needs)
/-- Row and column of a patch (R234), and the number of one of its elements. -/
def patchRow (v : Nat) : Nat := v % 128
def patchCol (v : Nat) : Nat := bits v 23 16
def patchKey (v l e : Nat) : Nat := (patchRow v + l) * 256 + patchCol v + e
/-- What `ardv` reads from a tile: the writes and the flags (R234); `draws` holds a draw for each element of a lane, lane by lane. -/
def readPatch (t : Cells Word) (base v n mask : Nat) (ty : FType) (rnd : Rnd) (sat fl : Bool) (draws : List Nat) : List Wr × Nat :=
  (lanesOf 32 mask).foldl (fun (r : List Wr × Nat) l => (upto n).foldl (fun (r : List Wr × Nat) e =>
    let c := (cget 0 t (patchKey v l e)).toNat
    let w := if ty == .f32 then (c, 0) else roundV ty .ieee rnd sat fl (listGet 0 draws (l * 32 + e)) (fvalue .f32 .ieee c, 0)
    (r.1 ++ [.v (base + e) l (BitVec.ofNat 32 w.1)], r.2 ||| w.2)) r) ([], 0)
/-- Set a tile. -/
def Block.setTile (b : Block) (d : Nat) (t : Cells Word) : Block := { b with acc := listSet b.acc d t }
/-- What an instruction does to the tiles and to local memory (R234 to R236). -/
def Block.onTile (b : Block) : TileAct → Block
  | .zero d => b.setTile d []
  | .copy d a => b.setTile d (listGet [] b.acc a)
  | .put d l => b.setTile d (l.foldl (fun t e => cset 0 t e.1 e.2) (listGet [] b.acc d))
  | .get _ _ _ _ _ _ _ _ _ _ => b
  | .store a at' keys =>
    let t := listGet [] b.acc a
    { b with loc := (upto keys.length).foldl (fun m w => writeLE m (at' + 4 * w) 4 (cget 0 t (listGet 0 keys w)).toNat) b.loc }
/-- The pending instruction of an accepted one completes, with what it reads. -/
def Block.endTop (b : Block) (o : TileOp) : Block :=
  let r : List Wr × Nat := match o.act with
    | .get a base v n mask t rnd sat fl draws => readPatch (listGet [] b.acc a) base v n mask t rnd sat fl draws
    | _ => ([], 0)
  match o.pend with
  | none => b
  | some p => { b with groups := b.groups.modify o.g fun g => { g with pend := tmod g.pend p fun q => { q with wr := r.1, fl := r.2 } }.complete p }
/-- Perform the accepted instructions whose turn has come (R228). -/
def Block.settleTops : Nat → Block → Block
  | 0, b => b
  | n + 1, b => match b.tops.find? fun e => b.tileTurn e.1 e.2.act with
    | none => b
    | some (id, o) => Block.settleTops n ({ (b.onTile o.act).endTop o with tops := tdel b.tops id })
/-- The operations of the blocks on a tile's pair of cores, with their blocks. -/
def State.tileOps (s : State) (slice core : Nat) : List (Nat × Nat × MOp) :=
  s.blocks.flatMap fun e => if e.2.isTile && e.2.slice == slice && e.2.core == core && e.2.res == .resident
    then e.2.mops.map fun o => (e.1, o.1, o.2) else []
/-- Whether an accepted instruction writes local memory. -/
def TileAct.stores : TileAct → Bool
  | .store _ _ _ => true
  | _ => false
/-- Whether an operation may start, the array pair apart: no other on its tile runs or drains, none earlier of its stream waits, and no
instruction accepted before it on its tile, or that its group stores from a tile, is outstanding (R228, R230). -/
def Block.mayStart (b : Block) (id : Nat) (o : MOp) : Bool :=
  o.st == .queued &&
  !b.mops.any fun e => e.1 != id && ((e.2.tile == o.tile && (e.2.st == .running || e.2.st == .draining)) ||
    (decide (e.1 < id) && e.2.stream == o.stream && (e.2.st == .queued || e.2.st == .held))) &&
  !(b.sops.any fun e => decide (e.1 < id) && e.2.needs o.tile) &&
  !(b.tops.any fun e => decide (e.1 < id) && (e.2.act.tiles.contains o.tile || (e.2.g == o.g && e.2.act.stores)))
/-- Make the arrivals of the `wbrel`s whose operations have all passed Running (R238). -/
def Block.settleRels (b : Block) : Block :=
  b.rels.foldl (fun b r =>
    if r.ops.all fun id => match tget b.mops id with
      | none => true
      | some o => o.st == .draining
    then (b.arriveAt r.obj 1).1 else { b with rels := b.rels ++ [r] }) { b with rels := [] }
/-- Operations not retired of a stream, or of all (R239). -/
def selHas : Sel8 → Nat → Bool
  | .one n, k => n.val == k
  | .all _, _ => true
def Block.unretired (b : Block) (sel : Sel8) : Nat := (b.mops.filter fun e => selHas sel e.2.stream).length

/-- Tillers of a block that wait try again. -/
def Block.wake (b : Block) : Block :=
  { b with groups := b.groups.map fun g => { g with tillers := g.tillers.map fun t => { t with st := match t.st with
      | .waiting => .ready
      | .held .waiting => .held .ready
      | st => st } } }

end Sys2Proof.Machine
end

