-- ==== Sys2Proof/Machine/Matrix.lean ====
section
/-!
DEFINITION. The instructions and events of the matrix engine (R213 to R216, R234 to R241). An instruction that reads or writes a tile is accepted in
issue order and performed once those accepted before it on the tile are over (R228).
-/
namespace Sys2Proof.Machine

/-- Matrix rights (R213) and the tile numbers against the live count (R214), whatever the guard: the INFO of trap 0x11, if any. -/
def matrixRight (matrixOnly : Bool) (tiles : List AReg) (x : Ex) : Option Nat :=
  if !x.b.isTile then some 3
  else if matrixOnly && x.g.role != 2 then some 4
  else if tiles.any fun t => decide (t.val ≥ x.b.live) then some 1
  else none
/-- An instruction under its matrix rights. -/
def matrixEff (matrixOnly : Bool) (tiles : List AReg) (f : Ex → Eff) (x : Ex) : Eff :=
  match matrixRight matrixOnly tiles x with
  | some info => .trap 0x11 info
  | none => f x
/-- An instruction on tiles is accepted (R228): it is performed at once when its turn has come; else it waits in the block, and where it
completes only when performed, as a pending instruction. -/
def Ex.acceptTile (x : Ex) (i : Instr) (a : TileAct) (long : Bool) : Ex :=
  let (id, s) := x.s.fresh
  let x := { x with s := s }
  if x.b.tileTurn id a then { x with b := x.b.onTile a }
  else
    let o : TileOp := { g := x.c.g, pend := if long then some x.g.nextPend else none, act := a }
    let x := { x with b := { x.b with tops := x.b.tops ++ [(id, o)] } }
    if long then x.pend i ((usesOf i x.g).wr ++ if (usesOf i x.g).wr.isEmpty then [] else [.flags]) [] 0 (.cond (.matrix id)) else x
/-- A program fault MATRIX with its detail (R223). -/
def matrixFault (i : Instr) (h : Hd) (x : Ex) (detail : Nat) : Eff :=
  .prog { kind := 4, detail := 0x40 + detail, pc := x.pc0 i, lane := lowLane (x.guard h) }

/-- The format and reading of an operand of `mma` (R220, R237). -/
def mmaFmt (x : Ex) (f : MFmt) (rd : Reading) : Option FType × Reading := match f with
  | .bf16 => (some .bf16, .ieee)
  | .e4m3 => (some .e4m3, rd)
  | .e5m2 => (some .e5m2, rd)
  | .e2m1 => (some .e2m1, rd)
  | .ln6 => (some .ln6, rd)
  | .fmt => (some (fmtOf x.t.fmt), readOf x.t.fmt)
  | .i8 => (none, rd)
/-- The operation that an `mma` asks for. -/
def mmaOp (x : Ex) (o : MmaOp) (pc : Nat) : MOp :=
  let a := mmaFmt x o.fa x.b.aread
  let b := mmaFmt x o.fb x.b.bread
  { g := x.c.g, tile := o.d.val, stream := o.stream.val, zacc := o.zacc, spb := o.spb, fa := a.1, fb := b.1, ra := a.2, rb := b.2,
    k := x.s' o.b / 2 ^ 32, aoff := x.s' o.a % 2 ^ 32, apitch := x.s' o.a / 2 ^ 32, boff := x.s' o.b % 2 ^ 32,
    asc := o.asc.map BitVec.toNat, bsc := o.bsc.map BitVec.toNat, lay := x.b.alay, pc := pc, lane := lowLane (x.guard o.h) }

/-- `mma` (R217, R223, R226, R233, R237): accepted into one of the block's 32 slots. -/
def execMma (o : MmaOp) (s : State) : Host.Outcome State Fault Refusal :=
  let i : Instr := .mma o
  issue i (matrixEff true [o.d] fun x =>
    if x.guard o.h == 0 then .ok x
    else if x.b.mops.length ≥ 32 then .wait x.s .waiting
    else
      let m := mmaOp x o (x.pc0 i)
      match m.check x.b with
      | some d => matrixFault i o.h x d
      | none =>
        let (id, s) := x.s.fresh
        let y : Ex := { x with s := s, b := { x.b with mops := x.b.mops ++ [(id, m)] } }
        .ok (if o.zacc then y else y.dirty)) s

/-- `aalloc` (R216): the new tiles are zero 16 clocks after issue, when the instruction completes. -/
def execAalloc (h : Hd) (n : Src10 128) (s : State) : Host.Outcome State Fault Refusal :=
  let i : Instr := .aalloc h n
  issue i (matrixEff false [] fun x =>
    if x.guard h == 0 then .ok x
    else
      let v := val10 x.g n
      if v > x.b.accMax then .trap 0x11 2
      else if v ≤ x.b.live then .ok x.dirty
      else
        let acc := (upto 4).map fun t => if x.b.live ≤ t && t < v then [] else listGet [] x.b.acc t
        .ok ({ x with b := { x.b with live := v, acc := acc } }.pend i [] [] 0 (.cond (.aalloc v))).dirty) s

/-- `afree` (R216): operations in flight on the released tiles retire with their results discarded. -/
def execAfree (h : Hd) (n : Src10 128) (s : State) : Host.Outcome State Fault Refusal :=
  issue (.afree h n) (matrixEff false [] fun x =>
    if x.guard h == 0 then .ok x
    else
      let v := val10 x.g n
      if v ≥ 4 || v ≥ x.b.live then .ok x.dirty
      else
        let free (o : TileOp) : TileOp := match o.act.writes with
          | some d => if d ≥ v then { o with act := .put d [] } else o
          | none => o
        .ok { x with b := { x.b with live := v, mops := tmap (fun _ o => if o.tile ≥ v then { o with drop := true } else o) x.b.mops,
                                     tops := tmap (fun _ o => free o) x.b.tops } }.dirty) s

/-- `azero` and `acpy` (R235). -/
def execAzero (h : Hd) (d : AReg) (s : State) : Host.Outcome State Fault Refusal :=
  let i : Instr := .azero h d
  issue i (matrixEff false [d] (uniform h fun x => .ok (x.acceptTile i (.zero d.val) false))) s
def execAcpy (h : Hd) (d a : AReg) (s : State) : Host.Outcome State Fault Refusal :=
  let i : Instr := .acpy h d a
  issue i (matrixEff false [d, a] (uniform h fun x => .ok (x.acceptTile i (.copy d.val a.val) false))) s

/-- Whether a patch of n columns exceeds the tile. -/
def patchBad (v n : Nat) : Bool := patchRow v > 96 || patchCol v + n > 256

/-- `ardv` (R234). -/
def execArdv (h : Hd) (ty : FType) (rnd : Rnd) (sat : Bool) (d : VReg) (a : AReg) (b : SReg) (n : Fin 64) (s : State) :
    Host.Outcome State Fault Refusal :=
  let i : Instr := .ardv h ty rnd sat d a b n
  issue i (matrixEff false [a] fun x =>
    let y := x.stepSr (ty != .f32) rnd
    let v := x.s' b
    if x.guard h == 0 then .ok y
    else if patchBad v n.val then matrixFault i h x 6
    else
      let rs := effRnd x.t.mode rnd == .rs && ty != .f32
      let draws := if rs then (upto 1024).map fun k => x.draw (k / 32) (k % 32) else []
      let a' : TileAct := .get a.val d.val v n.val (x.guard h) ty (effRnd x.t.mode rnd) (effSat x.t.mode sat) (ftz x.t.mode) draws
      if x.b.tileTurn x.s.nextId a' then
        let r := readPatch (listGet [] x.b.acc a.val) d.val v n.val (x.guard h) ty (effRnd x.t.mode rnd) (effSat x.t.mode sat) (ftz x.t.mode) draws
        .ok (y.defer i r.1 r.2)
      else .ok (y.acceptTile i a' true)) s

/-- `awrv` (R234): it is complete once accepted; a signalling NaN of a wide format sets INV (R60). -/
def execAwrv (h : Hd) (ty : FType) (d : AReg) (a : SReg) (b : VReg) (n : Fin 64) (s : State) : Host.Outcome State Fault Refusal :=
  let i : Instr := .awrv h ty d a b n
  issue i (matrixEff false [d] fun x =>
    let v := x.s' a
    if x.guard h == 0 then .ok x
    else if patchBad v n.val then matrixFault i h x 6
    else
      let code (l e : Nat) : Nat := (x.g.vget (b.val + e) l).toNat
      let val (l e : Nat) : Word :=
        if ty == .f32 then BitVec.ofNat 32 (code l e) else BitVec.ofNat 32 (exactCode .f32 .ieee (fvalue ty .ieee (code l e % 65536)))
      let cells := (lanes (x.guard h)).flatMap fun l => (upto n.val).map fun e => (patchKey v l e, val l e)
      let sig := ty != .f32 && (lanes (x.guard h)).any fun l => (upto n.val).any fun e => (fvalue ty .ieee (code l e % 65536)).isSig
      let y := x.acceptTile i (.put d.val cells) false
      .ok { y with g := { y.g with flags := y.g.flags ||| if sig then fINV else 0 } }) s

/-- The faults of `aldl` and `astl` (R236). -/
def rowsFault (i : Instr) (h : Hd) (acc at' v : Nat) (x : Ex) : Option Eff :=
  let c := bits v 15 8
  let fail (d : Nat) : Option Eff := some (.prog { kind := 4, detail := d, va := at', pc := x.pc0 i, lane := lowLane (x.guard h), acc := acc })
  if at' % 4 != 0 then fail 0x10
  else if at' + 512 * c > x.b.localSz then fail 0x20
  else if c == 0 || patchRow v + c > 128 then some (matrixFault i h x 7)
  else none
/-- The tile element that local word w of the range holds. -/
def rowsKey (foll : Bool) (v w : Nat) : Nat := (patchRow v + w / 128) * 256 + (if foll then 128 else 0) + w % 128

def execAldl (h : Hd) (foll : Bool) (d : AReg) (a b : SReg) (off : BitVec 22) (s : State) : Host.Outcome State Fault Refusal :=
  let i : Instr := .aldl h foll d a b off
  issue i (matrixEff false [d] fun x =>
    let at' := addr64 (x.s' a) off
    let v := x.s' b
    if x.guard h == 0 then .ok x
    else match rowsFault i h 1 at' v x with
      | some e => e
      | none =>
        if x.localWait then .wait x.s .waiting
        else
          let cells := (upto (128 * bits v 15 8)).map fun w => (rowsKey foll v w, BitVec.ofNat 32 (readLE x.b.loc (at' + 4 * w) 4))
          .ok (x.acceptTile i (.put d.val cells) true)) s
def execAstl (h : Hd) (foll : Bool) (d : AReg) (a b : SReg) (off : BitVec 22) (s : State) : Host.Outcome State Fault Refusal :=
  let i : Instr := .astl h foll d a b off
  issue i (matrixEff false [d] fun x =>
    let at' := addr64 (x.s' a) off
    let v := x.s' b
    if x.guard h == 0 then .ok x
    else match rowsFault i h 2 at' v x with
      | some e => e
      | none =>
        if x.localWait then .wait x.s .waiting
        else .ok (x.acceptTile i (.store d.val at' ((upto (128 * bits v 15 8)).map (rowsKey foll v))) true)) s

/-- `mcfg` (R240). -/
def execMcfg (h : Hd) (src : McfgSrc) (s : State) : Host.Outcome State Fault Refusal :=
  issue (.mcfg h src) (matrixEff true [] (uniform h fun x =>
    let c : Layout × Reading × Reading := match src with
      | .named l ra rb => (l, ra, rb)
      | .fmt l => (l, readOf x.t.fmt, readOf x.t.fmt)
    .ok { x with b := { x.b with alay := c.1, aread := c.2.1, bread := c.2.2 } })) s

/-- `wbrel` (R238). -/
def execWbrel (h : Hd) (sel : Sel8) (a : SReg) (s : State) : Host.Outcome State Fault Refusal :=
  let i : Instr := .wbrel h sel a
  issue i (matrixEff true [] (uniform h fun x =>
    let o := x.s' a % 2 ^ 32
    match objFault x h (x.pc0 i) 3 o with
    | some f => .prog f
    | none =>
      let ops := (x.b.mops.filter fun e => selHas sel e.2.stream).map Prod.fst
      let rel : WbRel := { ops := ops, obj := o }
      let b : Block := { x.b with rels := x.b.rels ++ [rel] }
      let y : Ex := { x with b := b.settleRels }
      .ok y.dirty)) s

/-- `mwait` (R239). -/
def execMwait (h : Hd) (sel : Sel8) (v : Src10 128) (s : State) : Host.Outcome State Fault Refusal :=
  let i : Instr := .mwait h sel v
  issue i (matrixEff false [] (uniform h fun x =>
    let n := val10 x.g v
    waitEff i (decide (x.b.unretired sel ≤ n)) (.mwait sel n) x)) s

/-- The word that `mstat` reads (R241). -/
def Block.mstat (b : Block) : Nat :=
  (upto 8).foldl (fun v k => if b.mops.any fun e => e.2.stream == k then v + 2 ^ (56 + k) else v) 0 +
  b.mops.length * 2 ^ 16 + b.live * 2 ^ 8 + b.accMax * 16
/-- `mstat` (R241); the read is recorded and replayed (R407). -/
def execMstat (h : Hd) (d : SReg) (s : State) : Host.Outcome State Fault Refusal :=
  issue (.mstat h d) (matrixEff false [] (uniform h fun x => x.recorded x.b.mstat fun y v => .ok (y.setS d.val v))) s

/-! ### Events (R226, R228) -/

/-- A matrix operation of a resident block. -/
def State.mop (s : State) (b id : Nat) : Option (Block × MOp) :=
  (tget s.blocks b).bind fun x => if x.res == .resident then (tget x.mops id).map fun o => (x, o) else none

/-- `MMA_START`: the earliest accepted operation of the tile that may start, when the array pair is free; metadata that is wrong abandons it
with program fault MATRIX, detail 5 (R225, R228). -/
def execMmaStart (b id : Nat) (s : State) : Host.Outcome State Fault Refusal :=
  event s (match s.mop b id with
    | none => none
    | some (bl, o) =>
      let ops := s.tileOps bl.slice bl.core
      let free := !ops.any fun e => e.2.2.st == .running
      let ahead := ops.any fun e => decide (e.2.1 < id) && ((tget s.blocks e.1).any fun x => x.mayStart e.2.1 e.2.2)
      if !free || ahead || !bl.mayStart id o then none
      else if o.metaBad bl.wbL || o.metaBad bl.wbF then
        some ((s.modBlock b fun x => { x with mops := tdel x.mops id }).failBlock b { kind := 4, detail := 0x45, pc := o.pc, lane := o.lane })
      else
        let r := o.run bl
        some (s.modBlock b fun x => { x with mops := tput x.mops id { o with st := .running, shadow := r.1, fl := r.2 } }))

/-- `MMA_OPERANDS_READ`: the last operand has been read; `wbrel` arrivals may follow (R226, R238). -/
def execMmaOperandsRead (b id : Nat) (s : State) : Host.Outcome State Fault Refusal :=
  event s (match s.mop b id with
    | none => none
    | some (_, o) =>
      if o.st != .running then none
      else some (s.modBlock b fun x => { x with mops := tput x.mops id { o with st := .draining } }.settleRels))

/-- `MMA_RETIRE`: the shadow becomes the tile, and the flags reach the issuing group (R227, R228, R231). -/
def execMmaRetire (b id : Nat) (s : State) : Host.Outcome State Fault Refusal :=
  event s (match s.mop b id with
    | none => none
    | some (bl, o) =>
      if o.st != .draining || bl.mops.any fun e => decide (e.1 < id) && e.2.stream == o.stream then none
      else
        let s := s.modBlock b fun x =>
          let y : Block := { x with mops := tdel x.mops id, acc := if o.drop then x.acc else listSet x.acc o.tile o.shadow }
          (Block.settleTops y.tops.length y).wake
        some ((s.modGroup b o.g fun g => { g with flags := g.flags ||| o.fl }).count bl.slice bl.vd 0x002 1))

/-- `AALLOC_COMPLETE`: the new tiles are zero (R216). -/
def execAallocComplete (b g id : Nat) (s : State) : Host.Outcome State Fault Refusal :=
  event s (match (s.pendOf b g id).map Pend.kind with
    | some (.cond (.aalloc _)) => some (s.modGroup b g fun g => g.complete id)
    | _ => none)

/-- `MATRIX_SLOT_WAIT_END`: a slot is free (R226). -/
def execMatrixSlotWaitEnd (b g t : Nat) (s : State) : Host.Outcome State Fault Refusal :=
  event s (if (tget s.blocks b).any fun x => decide (x.mops.length < 32) then s.unwait b g t else none)

end Sys2Proof.Machine
end

