-- ==== Sys2Proof/Machine/ShapeOps.lean ====
section
/-!
DEFINITION. The shaping engine's operation (R242 to R248): tensor table entries (R72 to R74), the conversion of an element with its residues, the
hand-over check, residue images, and the bytes that an operation writes.
-/
namespace Sys2Proof.Machine

/-! ### Tensor table entries -/

/-- A tensor entry from its 64 bytes (R72). -/
def tentOf (b : List Byte) : TEnt :=
  let at' (i n : Nat) := ofBytes ((b.drop i).take n)
  { base := at' 0 8, dims := [at' 8 4, at' 12 4, at' 16 4, at' 20 4], strides := [at' 24 8, at' 32 8, at' 40 8], soff := at' 48 8, attr := at' 56 8 }
def TEnt.segSize (e : TEnt) : Nat := bits e.attr 63 32
def TEnt.order (e : TEnt) : Nat := bits e.attr 12 11
def TEnt.chain (e : TEnt) : Bool := bit e.attr 10
def TEnt.axis (e : TEnt) : Nat := bits e.attr 9 8
def TEnt.scaled (e : TEnt) : Bool := bit e.attr 7
def TEnt.icls (e : TEnt) : Bool := bit e.attr 4
def TEnt.fmtCode (e : TEnt) : Nat := e.attr % 16
/-- Its float format and reading. -/
def TEnt.fmt (e : TEnt) : FType := (FType.ofCode e.fmtCode).getD .f32
def TEnt.read (e : TEnt) : Reading := (Reading.ofCode (bits e.attr 6 5)).getD .nan
def TEnt.dim (e : TEnt) (n : Nat) : Nat := listGet 1 e.dims n

/-- The checks of R74 for a float entry; an integer entry fails R255. -/
def TEnt.ok (e : TEnt) : Bool :=
  let w := fmtBits e.fmt
  let narrow := !wideF e.fmt
  bits e.attr 31 13 == 0 && canonical e.base && !e.icls && decide (e.fmtCode ≤ 6) && (!narrow || bits e.attr 6 5 != 3) && e.order != 3 &&
  (!e.scaled || (narrow && e.dim e.axis % 32 == 0)) && (decide (w < 8) || e.strides.all fun x => x % (w / 8) == 0) &&
  !e.dims.contains 0

/-- The further checks of R255 on the instruction's TYPE, `%fmt` and RD. -/
def TEnt.fits (e : TEnt) (ty : FType) (fmt : Word) (rd : Nat) : Bool :=
  (if ty == .fmt then fmt.toNat % 16 == e.fmtCode else ty == e.fmt) && rd != e.axis && !(e.order != 0 && e.segSize != 0 && e.chain)

/-- Whether an index along AXIS is a reset point (R245). -/
def TEnt.resets (e : TEnt) (a : Nat) : Bool := if e.chain || e.segSize == 0 then a == 0 else a % e.segSize == 0

/-- Index along dimension n of the element with index a along AXIS and r along RD. -/
def ShStore.ix (x : ShStore) (a r n : Nat) : Nat := if n == x.ent.axis then a else if n == x.rd then r else 0
/-- The linear index of an element (R62). -/
def ShStore.lin (x : ShStore) (a r : Nat) : Nat :=
  let i := x.ix a r
  let d := x.ent.dim
  i 0 + d 0 * (i 1 + d 1 * (i 2 + d 2 * i 3))
/-- The scale entry's address (R73). -/
def ShStore.scaleVa (x : ShStore) (a r : Nat) : Nat :=
  let i (n : Nat) : Nat := if n == x.ent.axis then x.ix a r n / 32 else x.ix a r n
  let d (n : Nat) : Nat := if n == x.ent.axis then x.ent.dim n / 32 else x.ent.dim n
  (x.ent.base + x.ent.soff + (i 0 + d 0 * (i 1 + d 1 * (i 2 + d 2 * i 3)))) % 2 ^ 64
/-- The bytes that an element's code occupies (R73, R253). -/
def ShStore.bytes (x : ShStore) (a r code : Nat) : List ShByte :=
  let i := x.ix a r
  let row := x.ent.base + i 1 * listGet 0 x.ent.strides 0 + i 2 * listGet 0 x.ent.strides 1 + i 3 * listGet 0 x.ent.strides 2
  let w := fmtBits x.ent.fmt
  let (at', off) :=
    if w == 4 then (row + i 0 / 2, 4 * (i 0 % 2)) else if w == 6 then (row + 3 * (i 0 / 4), 6 * (i 0 % 4)) else (row + i 0 * (w / 8), 0)
  let mask := (2 ^ w - 1) * 2 ^ off
  let val := code * 2 ^ off
  ((upto 4).filter fun k => mask / 256 ^ k % 256 != 0).map fun k =>
    { va := (at' + k) % 2 ^ 64, mask := mask / 256 ^ k % 256, val := val / 256 ^ k % 256 }

/-! ### Conversion (R243, R244) -/

/-- An FP32 code's value. -/
def v32 (c : Nat) : Xv := fvalue .f32 .ieee c
/-- round_f32 to nearest even; no flag is kept. -/
def r32 (x : Xv) : Nat := (roundF .f32 .ieee .rne false 0 x).1
/-- A finite value. -/
def Xv.finite : Xv → Bool
  | .num _ _ _ => true
  | _ => false

/-- shape_elem of R243: `sc` is the element's scale code, `e` holds E1 and E2; the code, the flags and the new residues. -/
def shapeElem (order : Nat) (f : FType) (rd : Reading) (rnd : Rnd) (sat : Bool) (draw : Nat) (sc : Option Nat) (reset : Bool) (x : Nat)
    (e : Nat × Nat) : Nat × Nat × (Nat × Nat) :=
  let e := if reset then (0, 0) else e
  let c := if order == 0 then 0 else if order == 1 then e.1 else r32 (xAdd false (scaleX (some 1) (v32 e.1, 0)).1 (v32 e.2).neg).1
  let u := v32 (r32 (xAdd false (v32 x) (v32 c)).1)
  if sc == some 255 then
    let q := roundF f rd rnd sat draw (.nan false)
    (q.1, q.2 ||| fINV, (0, 0))
  else
    let k : Int := match sc with
      | some c => (c : Int) - 127
      | none => 0
    let q := roundF f rd rnd sat draw (scaleX (some (-k)) (u, 0)).1
    let val := fvalue f rd q.1
    let y := v32 (r32 (scaleX (some k) (val, 0)).1)
    let new := r32 (xAdd false u y.neg).1
    if !u.finite || !val.finite || q.2 &&& fSATF != 0 then (q.1, q.2, (0, 0)) else (q.1, q.2, (new, e.1))

/-- A line (R242): its residue row, its index along RD, and its elements that are not skipped, each an index along AXIS and an FP32
code. -/
structure Line where
  row : Nat
  r : Nat
  els : List (Nat × Nat)
  deriving DecidableEq, Repr

/-- The lines of a store, those at or above DIM left out (R242). -/
def ShStore.lines (x : ShStore) (b : Block) : List Line :=
  let da := x.ent.dim x.ent.axis
  let dr := x.ent.dim x.rd
  match x.src with
  | .tile d aint col0 ncol alpha =>
    ((upto 128).filter fun i => decide (x.r0 + i < dr)).map fun i =>
      { row := i, r := x.r0 + i, els := (upto (min ncol (da - x.a0))).map fun k =>
          let c := (cget 0 (listGet [] b.acc d) (i * 256 + col0 + k)).toNat
          (x.a0 + k, r32 (xMul (if aint then ofInt false (sext c 32) 0 else v32 c) (v32 alpha)).1) }
  | .lanes row mask sint vals =>
    if x.r0 ≥ dr then []
    else [{ row := row, r := x.r0, els := ((lanes mask).filter fun l => decide (x.a0 + l < da)).map fun l =>
              let c := (listGet 0 vals l).toNat
              (x.a0 + l, if sint then r32 (ofInt false (sext c 32) 0) else c) }]
/-- Elements that a line counts, skipped ones with it. -/
def ShStore.width (x : ShStore) : Nat := match x.src with
  | .tile _ _ _ n _ => n
  | .lanes _ _ _ _ => 32
/-- ROWORG of a store (R248). -/
def ShStore.roworg (x : ShStore) : Nat := match x.src with
  | .tile _ _ _ _ _ => x.r0
  | .lanes row _ _ _ => (x.r0 + 2 ^ 32 - row) % 2 ^ 32

/-- The row of a residue set. -/
def ResSet.row (q : ResSet) (i : Nat) : ResRow := cget {} q.rows i
def ResSet.setRow (q : ResSet) (i : Nat) (r : ResRow) : ResSet := { q with rows := cset {} q.rows i r }

/-- The hand-over check (R248) before the lines are converted: the set with its header, or none for detail 1. -/
def ShStore.check (x : ShStore) (lines : List Line) (q : ResSet) : Option ResSet :=
  if x.ent.order == 0 || lines.isEmpty then some q
  else
    let same := q.valid && q.entry == x.at' && q.order == x.ent.order && q.rd == x.rd && q.roworg == x.roworg
    if x.ent.resets x.a0 then
      some (if same then q else
        { entry := x.at', roworg := x.roworg, valid := true, order := x.ent.order, rd := x.rd,
          rows := lines.foldl (fun c l => cset {} c l.row { cget {} c l.row with e1 := 0, e2 := 0 })
            ((upto 128).foldl (fun c i => cset {} c i { cget {} c i with valid := false }) q.rows) })
    else if same && lines.all fun l => (q.row l.row).valid && (q.row l.row).next.toNat == x.a0 then some q
    else none

/-- A converted element: indices along AXIS and RD, and the code. -/
abbrev Code := Nat × Nat × Nat

/-- Convert the elements of a line in order. -/
def ShStore.convLine (x : ShStore) (b : Block) (scales : List (Nat × Nat)) (r : Nat) : List (Nat × Nat) → Nat × Nat → List Code × Nat × (Nat × Nat)
  | [], e => ([], 0, e)
  | (a, c) :: t, e =>
    let sc := if x.ent.scaled then some ((tget scales (x.scaleVa a r)).getD 127) else none
    let draw := srgen b.seed b.idx (2 ^ 31 + bits x.at' 30 6) (x.lin a r % 2 ^ 32)
    let y := shapeElem x.ent.order x.ent.fmt (effRdEnt x.ent) x.rnd x.sat draw sc (x.ent.resets a) c e
    let z := x.convLine b scales r t y.2.2
    ((a, r, y.1) :: z.1, y.2.1 ||| z.2.1, z.2.2)
where
  /-- The reading of an entry: IEEE-like for the wide formats (R72). -/
  effRdEnt (e : TEnt) : Reading := if wideF e.fmt then .ieee else e.read

/-- Convert every line: the codes by line, the flags, the set. -/
def ShStore.convert (x : ShStore) (b : Block) (scales : List (Nat × Nat)) : List Line → ResSet → List (List Code) × Nat × ResSet
  | [], q => ([], 0, q)
  | l :: t, q =>
    let row := q.row l.row
    let y := x.convLine b scales l.r l.els (row.e1.toNat, row.e2.toNat)
    let q := if x.ent.order == 0 then q else
      q.setRow l.row { e1 := BitVec.ofNat 32 y.2.2.1, e2 := BitVec.ofNat 32 y.2.2.2, next := BitVec.ofNat 32 (x.a0 + x.width), valid := true }
    let z := x.convert b scales t q
    (y.1 :: z.1, y.2.1 ||| z.2.1, z.2.2)

/-- Elements in ascending linear index (R73): line after line, or the first of every line, then the second. -/
def ShStore.inOrder (x : ShStore) (codes : List (List Code)) : List Code :=
  if x.ent.axis < x.rd then codes.flatten
  else (upto x.width).flatMap fun k => codes.filterMap fun l => l[k]?

/-! ### Residue images (R247) -/

/-- The 2,112 bytes of a set. -/
def ResSet.image (q : ResSet) : List Byte :=
  toBytes 8 q.entry ++ toBytes 4 q.roworg ++ toBytes 4 ((if q.valid then 2 ^ 31 else 0) + q.order * 4 + q.rd) ++ List.replicate 48 0 ++
  (upto 128).flatMap fun i =>
    let r := q.row i
    toBytes 4 r.e1.toNat ++ toBytes 4 r.e2.toNat ++ toBytes 4 r.next.toNat ++ toBytes 4 (if r.valid then 1 else 0)
/-- The set of an image; none is R257's detail 2. -/
def setOfImage (b : List Byte) : Option ResSet :=
  let at' (i n : Nat) := ofBytes ((b.drop i).take n)
  let ctl := at' 12 4
  let bad := bits ctl 30 4 != 0 || ((b.drop 16).take 48).any (· != 0) || (upto 128).any (fun r => at' (76 + 16 * r) 4 > 1) ||
    (bit ctl 31 && (bits ctl 3 2 == 0 || bits ctl 3 2 == 3))
  if bad then none
  else
    let row (r : Nat) : ResRow := { e1 := BitVec.ofNat 32 (at' (64 + 16 * r) 4), e2 := BitVec.ofNat 32 (at' (68 + 16 * r) 4),
                                    next := BitVec.ofNat 32 (at' (72 + 16 * r) 4), valid := at' (76 + 16 * r) 4 == 1 }
    some { entry := at' 0 8, roworg := at' 8 4, valid := bit ctl 31, order := bits ctl 3 2, rd := ctl % 4
           rows := (upto 128).foldl (fun c r => cset {} c r (row r)) [] }

/-! ### Accesses (R256) -/

/-- Why an operation stops: a fault that is serviced, or a program fault with its DETAIL. -/
inductive ShStop where
  | fault (f : PFault) (va : Nat) (acc : Acc)
  | prog (detail va : Nat) (acc : Acc)
  deriving DecidableEq, Repr

/-- What a fault of an access does (R256, R257). -/
def shFault (f : PFault) (va : Nat) (acc : Acc) : ShStop := match f.kind with
  | .firewall => .prog 0x53 va acc
  | .poison => .prog 0x54 va acc
  | _ => .fault f va acc

/-- The route TLB that the accesses of a block's engines use (R195). -/
def Block.via (b : Block) (bi : Nat) : Option Via := some ⟨b.core, bi⟩
/-- Read bytes at each of a list of addresses. -/
def State.shRead (bi : Nat) (b : Block) (n : Nat) : List Nat → State → State × Except ShStop (List (Nat × List Byte))
  | [], s => (s, .ok [])
  | va :: t, s =>
    if !canonical va then (s, .error (.prog 0x30 va { r := true }))
    else match s.engRead b.slice b.pid b.vd va n (b.via bi) with
      | (s, .error f) => (s, .error (shFault f va { r := true }))
      | (s, .ok d) => match State.shRead bi b n t s with
        | (s, .ok l) => (s, .ok ((va, d) :: l))
        | r => r

/-- The bytes of an operation in one granule, by their place in it, each with its mask and value; a later one of a byte stands over an earlier
one (R73). -/
abbrev ShGran := List (Nat × Nat × Nat)
def ShGran.add (g : ShGran) (w : ShByte) : ShGran :=
  let o := (tget g (w.va % 128)).getD (0, 0)
  tput g (w.va % 128) (o.1 ||| w.mask, o.2 - (o.2 &&& w.mask) + (w.val &&& w.mask))
/-- Gather bytes by granule. -/
def shGrans (l : List ShByte) : List (Nat × ShGran) := l.foldl (fun m w => tput m (w.va / 128) (((tget m (w.va / 128)).getD []).add w)) []
/-- The runs of adjacent whole bytes of a granule. -/
def ShGran.runs : ShGran → List (Nat × List Byte)
  | [] => []
  | (o, w) :: t => match ShGran.runs t with
    | [] => [(o, [BitVec.ofNat 8 w.2])]
    | (p, l) :: r => if p == o + 1 then (o, BitVec.ofNat 8 w.2 :: l) :: r else (o, [BitVec.ofNat 8 w.2]) :: (p, l) :: r
/-- Plain stores of runs. -/
def State.shRuns (bi : Nat) (b : Block) (va : Nat) : List (Nat × List Byte) → State → State × Option PFault
  | [], s => (s, none)
  | (o, l) :: t, s => match s.engWrite b.slice b.pid b.vd (va + o) l { op := 1 } (b.via bi) with
    | (s, some f) => (s, some f)
    | (s, none) => State.shRuns bi b va t s
/-- Write the bytes of a granule (R253): whole bytes as plain stores; where bits of a byte stay, one masked write of the granule at its home. -/
def State.shGran (bi : Nat) (b : Block) (gran : Nat) (g : ShGran) (s : State) : State × Option PFault :=
  let va := gran * 128
  if g.all fun e => e.2.1 == 255 then State.shRuns bi b va g.runs s
  else match s.engRead b.slice b.pid b.vd va 128 (b.via bi) with
    | (s, .error f) => (s, some f)
    | (s, .ok d) =>
      let keep (e : Nat × Nat × Nat) : Nat := let k := (listGet 0 d e.1).toNat; k - (k &&& e.2.1) + e.2.2
      State.shRuns bi b va (ShGran.runs (g.map fun e => (e.1, 255, keep e))) s
/-- Write the granules of an operation: what is left when one stops. -/
def State.shWriteGo (bi : Nat) (b : Block) : List (Nat × ShGran) → State → State × List (Nat × ShGran) × Option ShStop
  | [], s => (s, [], none)
  | (gran, g) :: t, s =>
    let va := gran * 128 + (g.headD (0, 0, 0)).1
    if !canonical va then (s, (gran, g) :: t, some (.prog 0x30 va { w := true }))
    else match State.shGran bi b gran g s with
      | (s, some f) => (s, (gran, g) :: t, some (shFault f va { w := true }))
      | (s, none) => State.shWriteGo bi b t (s.dropGran b.slice (vdTag b.vd va) gran)
/-- Write bytes: what is left when a write stops. -/
def State.shWrite (bi : Nat) (b : Block) (l : List ShByte) (s : State) : State × List ShByte × Option ShStop :=
  let r := State.shWriteGo bi b (shGrans l) s
  (r.1, l.filter fun w => (tget r.2.1 (w.va / 128)).isSome, r.2.2)

end Sys2Proof.Machine
end

