-- ==== Sys2Proof/Machine/Shape.lean ====
section
/-!
DEFINITION. The instructions and events of the shaping engine (R246, R250 to R267).
-/
namespace Sys2Proof.Machine

/-- A shaping instruction of a block that is not a tile block is the accumulator-allocation trap with INFO 3 (R246); one that needs a slot
waits while all 16 are in use (R260). -/
def shapeEff (slot : Bool) (h : Hd) (f : Ex → Eff) (x : Ex) : Eff :=
  if !x.b.isTile then .trap 0x11 3
  else if x.guard h == 0 then .ok x
  else if slot && x.b.sops.length ≥ 16 then .wait x.s .waiting
  else f x

/-- An operation is accepted (R250). -/
def Ex.accept (x : Ex) (i : Instr) (h : Hd) (kind : ShKind) (set : Nat) (pend : Option Nat) : Ex :=
  let (id, s) := x.s.fresh
  let o : ShOp := { g := x.c.g, kind := kind, set := set, pend := pend, pc := x.pc0 i, lane := lowLane (x.guard h), after := x.g.nextPend }
  { x with s := s, b := { x.b with sops := x.b.sops ++ [(id, o)] } }

/-- A program fault of an address at issue (R118, R261, R263): its DETAIL. -/
def shAddr (i : Instr) (h : Hd) (x : Ex) (acc va : Nat) (k : Eff) : Eff :=
  let fail (d : Nat) : Eff := .prog { kind := 4, detail := d, va := va, pc := x.pc0 i, lane := lowLane (x.guard h), acc := acc }
  if va % 64 != 0 then fail 0x10 else if !canonical va then fail 0x30 else k

/-- The tensor entry is read when the instruction issues (R255), as a load of the lowest lane, after the lane's earlier accesses: a fault parks the tiller, and the instruction
issues again when it is answered; an entry that fails a check is the tensor-entry trap. -/
def withEntry (i : Instr) (h : Hd) (ty : FType) (rd va : Nat) (f : Ex → TEnt → Eff) (x : Ex) : Eff :=
  shAddr i h x 1 va (
    if !x.s.laneTurn x.c.b x.c.g (lowLane (x.guard h)) x.g.nextPend then .wait x.s .waiting else
    match x.s.engRead x.b.slice x.b.pid x.b.vd va 64 (x.b.via x.c.b) with
    | (s, .ok d) =>
      let e := tentOf d
      if e.ok && e.fits ty x.t.fmt rd then f { x with s := s } e else .trap 0x12 va
    | (s, .error p) =>
      if s.unreported x.b.slice x.b.pid x.b.vd p then .wait x.s (.longWait (.fetch []))
      else
        let (token, s) := s.report { slice := x.b.slice, pid := x.b.pid, vd := x.b.vd, f := p, va := va, pc := x.pc0 i, acc := { r := true },
                                     info := lowLane (x.guard h) + 2 ^ 32 * x.b.idx, guest := false, waiter := .fetch x.c.b x.c.g x.c.t }
        .wait s (.longWait (.fetch [{ va := va, f := p, token := token }])))

/-- Accept a store; the dirty bit as R259 says. -/
def storeEff (i : Instr) (h : Hd) (set : Nat) (st : ShStore) (x : Ex) : Eff :=
  let y := x.accept i h (.store st) set none
  .ok (if st.ent.order != 0 && (st.ent.chain || !st.ent.resets st.a0) then y.dirty else y)

/-- Whether a store rounds: FP32 to FP32 is exact (R62). -/
def storeRounds (t : FType) : Bool := t != .f32

/-- `qst` (R242, R254, R255, R261). -/
def execQst (o : QstOp) (s : State) : Host.Outcome State Fault Refusal :=
  let i : Instr := .qst o
  issue i (fun x =>
    if !x.b.isTile then .trap 0x11 3
    else if decide (o.d.val ≥ x.b.live) then .trap 0x11 1
    else shapeEff true o.h (fun y =>
      withEntry i o.h o.ty o.rd.val (x.s' o.a) (fun y e =>
        storeEff i o.h o.c.val { ent := e, at' := x.s' o.a, rd := o.rd.val, a0 := x.s' o.b % 2 ^ 32, r0 := x.s' o.b / 2 ^ 32,
                                 rnd := effRnd x.t.mode o.rnd, sat := effSat x.t.mode o.sat,
                                 src := .tile o.d.val o.aint o.col0.val (o.ncol1.val + 1) o.alpha.toNat } y) y)
      (x.stepSr (storeRounds o.ty) o.rnd)) s

/-- `vqst` (R242, R255, R262): the lanes of G, read at issue. -/
def execVqst (o : VqstOp) (s : State) : Host.Outcome State Fault Refusal :=
  let i : Instr := .vqst o
  issue i (fun x =>
    shapeEff true o.h (fun y =>
      withEntry i o.h o.ty o.rd.val (x.s' o.a) (fun y e =>
        storeEff i o.h o.d.val { ent := e, at' := x.s' o.a, rd := o.rd.val, a0 := x.s' o.c % 2 ^ 32, r0 := x.s' o.c / 2 ^ 32,
                                 rnd := effRnd x.t.mode o.rnd, sat := effSat x.t.mode o.sat,
                                 src := .lanes o.row.val (x.guard o.h) o.sint ((upto 32).map fun l => x.g.vget o.b.val l) } y) y)
      (x.stepSr (storeRounds o.ty) o.rnd)) s

/-- `qres.ld` (R263): complete, as seen by LOOK, when the set is loaded. -/
def execQresLd (h : Hd) (d : QReg) (a : SReg) (off : BitVec 22) (s : State) : Host.Outcome State Fault Refusal :=
  let i : Instr := .qresLd h d a off
  issue i (shapeEff true h fun x =>
    let va := addr64 (x.s' a) off
    shAddr i h x 1 va (.ok ((x.accept i h (.resLd va) d.val (some x.g.nextPend)).pend i [] [] 0 (.cond (.shape x.s.nextId))))) s
/-- `qres.st` (R263). -/
def execQresSt (h : Hd) (d : QReg) (a : SReg) (off : BitVec 22) (s : State) : Host.Outcome State Fault Refusal :=
  let i : Instr := .qresSt h d a off
  issue i (shapeEff true h fun x =>
    let va := addr64 (x.s' a) off
    shAddr i h x 2 va (.ok (x.accept i h (.resSt va) d.val none))) s
/-- `qzero` (R264). -/
def execQzero (h : Hd) (d : QReg) (s : State) : Host.Outcome State Fault Refusal :=
  let i : Instr := .qzero h d
  issue i (shapeEff true h fun x => .ok (x.accept i h .zero d.val none)) s
/-- `qcfg` (R265). -/
def execQcfg (h : Hd) (rd : Fin 4) (ord2 : Bool) (d : QReg) (a b : SReg) (s : State) : Host.Outcome State Fault Refusal :=
  let i : Instr := .qcfg h rd ord2 d a b
  issue i (shapeEff true h fun x =>
    .ok (x.accept i h (.cfg (x.s' a) (x.s' b / 2 ^ 32) (x.s' b % 2 ^ 32) (if ord2 then 2 else 1) rd.val) d.val none)) s
/-- Operations of a block that are not complete, of a set or of all (R266). -/
def Block.unshaped (b : Block) (sel : Sel8) : Nat := (b.sops.filter fun e => selHas sel e.2.set).length
/-- `qwait` (R266). -/
def execQwait (h : Hd) (sel : Sel8) (v : Src10 128) (s : State) : Host.Outcome State Fault Refusal :=
  let i : Instr := .qwait h sel v
  issue i (shapeEff false h fun x =>
    let n := val10 x.g v
    waitEff i (decide (x.b.unshaped sel ≤ n)) (.qwait sel n) x) s
/-- `qrd` (R267): its destination is marked until its place in the set's order comes. -/
def execQrd (h : Hd) (sel : QrdSel) (d : VReg) (a : QReg) (b : SReg) (s : State) : Host.Outcome State Fault Refusal :=
  let i : Instr := .qrd h sel d a b
  issue i (shapeEff true h fun x =>
    let w := x.s' b % 128
    .ok ((x.accept i h (.read sel w (x.guard h) d.val) a.val (some x.g.nextPend)).pend i [.v d.val] [] 0 (.cond (.shape x.s.nextId)))) s

/-! ### Events -/

/-- What lane l of `qrd` receives (R267). -/
def ResSet.lane (q : ResSet) (sel : QrdSel) (w l : Nat) : Nat :=
  let r := q.row (w + l)
  let inside (v : Nat) : Nat := if w + l > 127 then 0 else v
  match sel with
  | .e1 => inside r.e1.toNat
  | .e2 => inside r.e2.toNat
  | .next => inside (r.next.toNat % 2 ^ 31 + if r.valid then 2 ^ 31 else 0)
  | .hdr => listGet 0 [q.entry % 2 ^ 32, q.entry / 2 ^ 32 % 2 ^ 32, q.roworg, (if q.valid then 2 ^ 31 else 0) + q.order * 4 + q.rd] l

/-- A shaping operation of a resident block. -/
def State.shop (s : State) (b id : Nat) : Option (Block × ShOp) :=
  (tget s.blocks b).bind fun x => if x.res == .resident then (tget x.sops id).map fun o => (x, o) else none
/-- Every earlier access of its lane has been performed (R251). -/
def State.shTurn (s : State) (b : Nat) (o : ShOp) : Bool := s.laneTurn b o.g o.lane o.after
/-- A fault of it has been answered, or there is none. -/
def ShOp.goes (o : ShOp) : Bool := !o.fault.any fun f => !f.resolved
/-- It is complete (R252): its flags reach the group, its pending instruction completes, tillers that wait for a slot try again. -/
def State.shapeDone (s : State) (b id : Nat) (o : ShOp) (wr : List Wr) : State :=
  (s.modGroup b o.g fun g =>
    let g := { g with flags := g.flags ||| o.fl }
    match o.pend with
    | some k => match tget g.pend k with
      | some p => { g with pend := tput g.pend k { p with wr := wr } }.complete k
      | none => g
    | none => g).modBlock b fun x => { x with sops := tdel x.sops id }.wake
/-- It stops (R256, R257): reported and kept, or the block fails; none while the report must wait (R326). -/
def State.shapeStop (s : State) (b id : Nat) (bl : Block) (o : ShOp) : ShStop → Option State
  | .prog d va acc =>
    some ((s.modBlock b fun x => { x with sops := tdel x.sops id }).failBlock b
      { kind := 4, detail := d, va := va, pc := o.pc, lane := o.lane, acc := acc.code })
  | .fault f va acc =>
    if s.unreported bl.slice bl.pid bl.vd f then none
    else
      let (token, s) := s.report { slice := bl.slice, pid := bl.pid, vd := bl.vd, f := f, va := va, pc := o.pc, acc := acc,
                                   info := o.lane + 2 ^ 32 * bl.idx, guest := false, waiter := .shape id }
      some (s.modBlock b fun x => { x with sops := tput x.sops id { o with fault := some { va := va, f := f, token := token } } })
/-- Replace a residue set of a block. -/
def State.setQ (s : State) (b k : Nat) (q : ResSet) : State := s.modBlock b fun x => { x with qsets := listSet x.qsets k q }

/-- Convert a store: its scale codes are read, the hand-over is checked, then its lines are converted. -/
def State.shapeStore (s : State) (b id : Nat) (bl : Block) (o : ShOp) (x : ShStore) : Option State :=
  let q := listGet {} bl.qsets o.set
  let lines := x.lines bl
  let vas := if x.ent.scaled then (lines.flatMap fun l => l.els.map fun e => x.scaleVa e.1 l.r).eraseDups else []
  match x.check lines q with
  | none => s.shapeStop b id bl o (.prog 0x51 0 {})
  | some q =>
    match State.shRead b bl 1 vas s with
    | (s, .error e) => s.shapeStop b id bl o e
    | (s, .ok sc) =>
      let r := x.convert bl (sc.map fun e => (e.1, ofBytes e.2)) lines q
      let out := (x.inOrder r.1).flatMap fun c => x.bytes c.1 c.2.1 c.2.2
      some (((s.setQ b o.set r.2.2).modBlock b fun y =>
        { y with sops := tput y.sops id { o with out := some out, fl := o.fl ||| r.2.1, fault := none } }).modBlock b Block.wake)

/-- Load a residue set from its image (R257, R263). -/
def State.shapeLoad (s : State) (b id : Nat) (bl : Block) (o : ShOp) (va : Nat) : Option State :=
  match State.shRead b bl 64 ((upto 33).map fun k => (va + 64 * k) % 2 ^ 64) s with
  | (s, .error e) => s.shapeStop b id bl o e
  | (s, .ok l) => match setOfImage (l.flatMap Prod.snd) with
    | none => s.shapeStop b id bl o (.prog 0x52 va { r := true })
    | some q => some ((s.setQ b o.set q).shapeDone b id o [])

/-- `SHAPE_CONVERSION`: the earliest operation of its set reads its inputs and computes its codes and residues, a `qst` once the `mma`s before it
on its tile have retired (R250, R254, R258); one that only concerns the set is then complete. -/
def execShapeConversion (b id : Nat) (s : State) : Host.Outcome State Fault Refusal :=
  event s (match s.shop b id with
    | none => none
    | some (bl, o) =>
      let ahead := bl.sops.any fun e => decide (e.1 < id) && e.2.set == o.set && e.2.out.isNone
      let tileWait := (bl.mops.any fun e => decide (e.1 < id) && o.needs e.2.tile) ||
        bl.tops.any fun e => decide (e.1 < id) && e.2.act.writes.any o.needs
      if o.out.isSome || ahead || tileWait || !o.goes || !s.shTurn b o then none
      else match o.kind with
        | .store x => s.shapeStore b id bl o x
        | .resLd va => s.shapeLoad b id bl o va
        | .resSt va =>
          let img := (listGet {} bl.qsets o.set).image
          let out := (upto 2112).map fun k => ({ va := (va + k) % 2 ^ 64, mask := 255, val := (listGet 0 img k).toNat } : ShByte)
          some (s.modBlock b fun x => { x with sops := tput x.sops id { o with out := some out } })
        | .zero => some ((s.setQ b o.set {}).shapeDone b id o [])
        | .cfg entry roworg next order rd =>
          let q := listGet {} bl.qsets o.set
          let rows := (upto 128).foldl (fun c i => cset {} c i { cget {} c i with next := BitVec.ofNat 32 next, valid := true }) q.rows
          some ((s.setQ b o.set { entry := entry, roworg := roworg, valid := true, order := order, rd := rd, rows := rows }).shapeDone b id o [])
        | .read sel w mask d =>
          let q := listGet {} bl.qsets o.set
          some (s.shapeDone b id o ((lanes mask).map fun l => .v d l (BitVec.ofNat 32 (q.lane sel w l)))))

/-- `SHAPE_WRITE_COMPLETE`: the codes are written, those of a set in the order of acceptance (R251 to R253), up to a fault (R256). -/
def execShapeWriteComplete (b id : Nat) (s : State) : Host.Outcome State Fault Refusal :=
  event s (match s.shop b id with
    | none => none
    | some (bl, o) => match o.out with
      | none => none
      | some out =>
        if !o.goes || bl.sops.any fun e => decide (e.1 < id) && e.2.set == o.set then none
        else match State.shWrite b bl out s with
          | (s, _, none) => some (s.shapeDone b id o [])
          | (s, left, some e) => s.shapeStop b id bl { o with out := some left, fault := none } e)

end Sys2Proof.Machine
end

