-- ==== Sys2Proof/Machine/LaunchOps.lean ====
section
/-!
DEFINITION. The launch engine's records and steps (10): queue headers, packets, kernel descriptors, the checks of R278, distribution
(R279), counters (R289), cancels (R291), and where a block is placed (R210, R297, R298).
-/
namespace Sys2Proof.Machine

/-! ### Queues -/

/-- The key of a partition's queue. -/
def queueKey (pid q : Nat) : Nat := pid * 65536 + q
def State.modQueue (s : State) (k : Nat) (f : Queue → Queue) : State := { s with queues := tmod s.queues k f }
def State.modLaunch (s : State) (k : Nat) (f : Launch → Launch) : State := { s with launches := tmod s.launches k f }
/-- The slice list of a partition; its first slice leads (R279), and from the end of step 1 of a removal the first that stays (R288). -/
def State.sliceList (s : State) (pid : Nat) : List Nat := ((tget s.parts pid).map Part.slices).getD []
def State.leader (s : State) (pid : Nat) : Nat :=
  let gone (k : Nat) : Bool := (tget s.parts pid).any fun p => p.resize.any fun r => !r.add && decide (2 ≤ r.step) && r.slice == k
  ((s.sliceList pid).filter fun k => !gone k).headD 0

/-- An engine's read and write by virtual address; an address that is not canonical translates to nothing. -/
def State.vaRead (s : State) (slice pid vd va n : Nat) : State × Except PFault (List Byte) :=
  if canonical va then s.engRead slice pid vd va n else (s, .error { kind := .stage1, cause := 1 })
def State.vaWrite (s : State) (slice pid vd va : Nat) (b : List Byte) : State × Option PFault :=
  if canonical va then s.engWrite slice pid vd va b else (s, some { kind := .stage1, cause := 1 })

/-- The fields of a queue header (R269). -/
structure QHdr where
  ring : Nat
  lg : Nat
  tail : Nat
  head : Nat
  done : Nat
  deriving DecidableEq, Repr
/-- A header from its 64 bytes; none when it is not usable (R327). -/
def qhdrOf (b : List Byte) : Option QHdr :=
  let at' (i n : Nat) := ofBytes ((b.drop i).take n)
  let lg := at' 8 4
  if lg < 4 || lg > 16 || at' 12 4 != 0 || (b.drop 40).any (· != 0) || at' 0 8 % 128 != 0 then none
  else some { ring := at' 0 8, lg := lg, tail := at' 16 8, head := at' 24 8, done := at' 32 8 }
/-- Whether a fault says that an address does not translate. -/
def PFault.noXlate (f : PFault) : Bool := f.kind == .stage1 || f.kind == .stage2 || f.kind == .walk || f.kind == .aliasF
/-- Read a queue's header: none where it is not usable, for which it and its slots must translate (R327). -/
def State.readHdr (s : State) (slice : Nat) (q : Queue) : State × Except PFault (Option QHdr) :=
  match s.vaRead slice q.pid q.vd q.hdr 64 with
  | (s, .error f) => (s, if f.noXlate then .ok none else .error f)
  | (s, .ok b) => (s, .ok ((qhdrOf b).filter fun h => s.translates slice q.pid q.vd h.ring (128 * 2 ^ h.lg) { r := true, w := true }))
/-- The address of packet n's slot. -/
def QHdr.slot (h : QHdr) (n : Nat) : Nat := (h.ring + 128 * (n % 2 ^ h.lg)) % 2 ^ 64

/-- A notify reaches a queue (R271, R272). -/
def State.notify (s : State) (key : Nat) : State :=
  match tget s.queues key with
  | none => s
  | some q => match q.st with
    | .unmapped => let (t, s) := s.fresh; s.modQueue key fun q => { q with st := .pending, pendAt := t }
    | .pending => s
    | _ => { s with slices := tmap (fun _ x => { x with heads := tmod x.heads key fun h => { h with stopped := false } }) s.slices }

/-! ### Packets and kernel descriptors (R274, R275) -/

/-- A field of a packet or descriptor. -/
def fieldAt (b : List Byte) (i n : Nat) : Nat := ofBytes ((b.drop i).take n)
def pkKdesc (p : List Byte) : Nat := fieldAt p 0 8
def pkBlocks (p : List Byte) : Nat := fieldAt p 8 4
def pkGrain (p : List Byte) : Nat := fieldAt p 12 4
def pkSeed (p : List Byte) : Nat := fieldAt p 16 8
def pkCount (p : List Byte) : Nat := fieldAt p 24 8
def pkAfter (p : List Byte) : Nat := fieldAt p 32 8
/-- GRAPH, PHASE and JOB, by level 1 to 3. -/
def pkId (p : List Byte) (level : Nat) : Nat := fieldAt p (38 + 2 * level) 2
def pkCtl (p : List Byte) : Nat := fieldAt p 46 2
def pkPrio (p : List Byte) : Nat := pkCtl p % 4
def pkLc (p : List Byte) : Bool := bit (pkCtl p) 2
def pkNopre (p : List Byte) : Bool := bit (pkCtl p) 3
def pkArg (p : List Byte) (i : Nat) : Nat := fieldAt p (48 + 8 * i) 8
def Launch.prio (l : Launch) : Nat := pkPrio l.pkt
def Launch.lc (l : Launch) : Bool := pkLc l.pkt
/-- The hold of a non-pre-emptible launch (R285). -/
def Launch.holds (l : Launch) : Bool := pkNopre l.pkt && !l.lapsed

/-- A role record. -/
structure Role where
  entry : Nat
  kind : Nat
  count : Nat
  vregs : Nat
  sregs : Nat
  deriving DecidableEq, Repr
/-- The role records of a descriptor that are present. -/
def kdRoles (d : List Byte) : List Role :=
  (upto (min (fieldAt d 13 1) 4)).map fun r =>
    let at' (i n : Nat) := fieldAt d (16 + 16 * r + i) n
    { entry := at' 0 8, kind := at' 8 1, count := at' 9 1, vregs := 32 * at' 10 1, sregs := 16 * at' 11 1 }
def kdTraph (d : List Byte) : Nat := fieldAt d 0 8
def kdLocal (d : List Byte) : Nat := fieldAt d 8 4
def kdAccMax (d : List Byte) : Nat := fieldAt d 12 1
def kdWbuf (d : List Byte) : Nat := 4096 * fieldAt d 14 2
/-- The 32-register blocks that a block of the kernel needs. -/
def kdVblocks (d : List Byte) : Nat := ((kdRoles d).map fun r => r.count * (r.vregs / 32)).foldl (· + ·) 0
/-- The groups of the kernel, in order, with their roles. -/
def kdGroups (d : List Byte) : List Role := (kdRoles d).flatMap fun r => List.replicate r.count r
/-- A valid descriptor (R274). -/
def kdValid (d : List Byte) : Bool :=
  let nrole := fieldAt d 13 1
  let roles := kdRoles d
  let kinds := roles.map Role.kind
  let total := (roles.map Role.count).foldl (· + ·) 0
  let unused := (d.drop (16 + 16 * nrole)).any (· != 0) || (upto nrole).any fun r => fieldAt d (16 + 16 * r + 12) 4 != 0
  kdLocal d % 1024 == 0 && decide (kdLocal d ≤ 524288) && decide (kdAccMax d ≤ 4) && decide (1 ≤ nrole) && decide (nrole ≤ 4) &&
  decide (fieldAt d 14 2 ≤ 64) && !unused && kinds.eraseDups.length == kinds.length &&
  (roles.all fun r => decide (1 ≤ r.kind) && decide (r.kind ≤ 4) && decide (1 ≤ r.count) && decide (r.count ≤ 32) && decide (32 ≤ r.vregs) &&
    decide (r.vregs ≤ 1024) && decide (16 ≤ r.sregs) && decide (r.sregs ≤ 128) && (decide (3 ≤ r.kind) || r.kind == 4 || r.count == 1)) &&
  decide (1 ≤ total) && decide (total ≤ 32) && decide (kdVblocks d * 32 ≤ 8192) && (kdWbuf d == 0 || decide (1 ≤ kdAccMax d))

/-- The first check of R278 that a packet fails; `kd` is none when the descriptor could not be read, `count` the indirect count read, and
`cause` what was met while reading. -/
def rejectCause (q : Queue) (p : List Byte) (kd : Option (List Byte)) (count : Option Nat) (cause : Nat) (listed : Bool) : Option Nat :=
  let reserved := pkCtl p / 16 != 0 || pkAfter p / 2 ^ 51 != 0 || bits (pkAfter p) 50 48 > 4 ||
    (bits (pkAfter p) 50 48 ≤ 1 && bits (pkAfter p) 47 32 != 0)
  if kd.any fun d => !kdValid d then some 1
  else if (pkLc p && !q.lcok) || (pkNopre p && !q.npok) || (pkLc p && pkNopre p) then some 2
  else if count.any fun c => decide (c > 0x7FFFFFFF) then some 3
  else if pkGrain p == 0 || pkGrain p > 16777216 || (pkBlocks p != 0 && pkCount p != 0) || pkBlocks p > 0x7FFFFFFF || reserved ||
      pkCount p % 4 != 0 then some 4
  else if cause != 0 then some cause
  else if listed then some 6
  else none

/-! ### Distribution (R279) -/

/-- The least block index from b on that position `pos` of a list of k owns. -/
def ownFrom (k grain pos b : Nat) : Nat :=
  let st := b / grain
  if st % k == pos then b else ((st / k + (if st % k < pos then 0 else 1)) * k + pos) * grain
/-- The least own block of a slice that has not started; none is that every one has. -/
def Launch.ownNext (l : Launch) (slice : Nat) : Option Nat :=
  match findIdx (· == slice) l.list with
  | none => none
  | some pos =>
    let b := ownFrom l.list.length (pkGrain l.pkt) pos (cget 0 l.next slice)
    if b < l.blocks then some b else none
/-- The slice a block index goes to under a list (R279, R281). -/
def ownerOf (list : List Nat) (grain b : Nat) : Nat := listGet 0 list (b / max grain 1 % max list.length 1)
/-- Whether a slice has taken its own blocks: the packet has left the head there, and an indirect count is known. -/
def Launch.taken (l : Launch) (slice : Nat) : Bool := l.left.any (fun e => e.1 == slice) && (pkCount l.pkt == 0 || l.noticed.contains slice)
/-- The least block of a launch that a slice has not started. -/
def Launch.unstarted (l : Launch) (slice : Nat) : Option Nat :=
  let extra := (l.extra.filter fun e => e.1 == slice).map Prod.snd
  let own := if l.taken slice then l.ownNext slice else none
  (extra ++ own.toList).foldl (fun o b => match o with
    | none => some b
    | some c => some (min b c)) none
/-- Every block of a launch that a slice owns has ended. -/
def State.sliceOver (s : State) (lk slice : Nat) (l : Launch) : Bool :=
  (l.taken slice || !l.list.contains slice) && (l.unstarted slice).isNone && !s.blocks.any fun e => e.2.lk == lk && e.2.slice == slice
/-- The lead holds the done notice of every slice; one that joined after the packet left the head has none to send while it has no block
(R281, R287). No block is left with a slice that a resize has taken out of the list and whose blocks it has yet to reassign (R288). -/
def State.allDone (s : State) (lk : Nat) (l : Launch) : Bool :=
  let list := s.sliceList l.pid
  (list.all fun k => l.held.contains k || (!l.list.contains k && s.sliceOver lk k l)) &&
  (l.list.all fun k => list.contains k || (l.ownNext k).isNone) && (l.extra.all fun e => list.contains e.1) &&
  !s.blocks.any fun e => e.2.lk == lk && !list.contains e.2.slice
/-- A slice whose part is finished sends its done notice (R287). -/
def State.sendDone (s : State) (lk slice : Nat) : State :=
  match tget s.launches lk with
  | none => s
  | some l =>
    if s.sliceOver lk slice l && !l.sent.contains slice && !l.held.contains slice then
      { s with launches := tput s.launches lk { l with sent := l.sent ++ [slice] } }
    else s

/-! ### Completion (R289, R290) -/

/-- The counter of a level 1 to 3 and an id. -/
def State.levelCtr (s : State) (pid vd level id : Nat) : Nat :=
  (((tget s.parts pid).map fun p => cget 0 p.ctrBase vd).getD 0 + 8 * (65536 * (level - 1) + id)) % 2 ^ 64
/-- Packets from d on that are complete without a gap. -/
def contiguous (comp : List Nat) : Nat → Nat → Nat
  | 0, _ => 0
  | k + 1, d => if comp.contains d then 1 + contiguous comp k (d + 1) else 0
/-- Packet n of a queue completes: DONE passes every newly contiguous packet. -/
def State.packetDone (s : State) (slice key n : Nat) : State :=
  match tget s.queues key with
  | none => s
  | some q =>
    let comp := n :: q.comp
    let k := contiguous comp comp.length q.done
    let s := s.modQueue key fun q => { q with done := q.done + k, comp := comp.filter fun m => decide (m ≥ q.done + k) }
    if k == 0 then s else s.lateAdd slice q.pid q.vd (q.hdr + 32) k
/-- Advance the graph, phase and job counters of a packet. -/
def State.advance (s : State) (slice pid vd : Nat) (p : List Byte) : State :=
  [1, 2, 3].foldl (fun s lv => if pkId p lv == 0 then s else s.lateAdd slice pid vd (s.levelCtr pid vd lv (pkId p lv)) 1) s
/-- Write a packet's STATUS (R290). -/
def State.putStatus (s : State) (slice pid vd va state cause nfail first fcode : Nat) : State :=
  s.lateWrite slice pid vd (va + 112) (toBytes 1 state ++ toBytes 1 cause ++ toBytes 2 0 ++ toBytes 4 nfail ++ toBytes 4 first ++ toBytes 4 fcode)
/-- FCODE of a failed block (R290). -/
def Fail.fcode (f : Fail) : Nat := if f.kind == 5 then f.detail else if f.kind == 0 then 512 else 256

/-! ### Cancel (R291 to R293) -/

/-- Copies of a block that are not over fail with a cause at NEXT, on the destination side. DESIGN CHOICE (notes/assumptions/90.md): R196 names
the first byte not yet performed and not the side. -/
def State.failCopies (s : State) (bid : Nat) (cause : Nat) : State :=
  -- a remote copy of which no packet is on its way, or which has asked for nothing yet, is no operation any more (R351, R363)
  let fresh (id : Nat) : Bool := (tget s.copies id).any fun c => c.st == .queued || c.st == .suspended .queued
  let idle (o : RemOp) : Bool := o.b == bid && match o.kind with
    | .cpy _ => o.left == 0
    | .get id => fresh id
    | _ => false
  let s := { s with rops := s.rops.filter fun e => !idle e.2
                    copies := tmap (fun _ c => if c.b == bid && !c.st.over then
    c.failWith cause ((c.dstAt c.next).whr false) (c.dstAt c.next).addr else c) s.copies }
  match tget s.blocks bid with
  | none => s
  | some b => (upto b.groups.length).foldl (fun s g => s.settleSheaves bid g) s
/-- Whether a block's state is away from its core, or it waits with its state saved. -/
def ResSt.away : ResSt → Bool
  | .saved => true
  | .spilled => true
  | .swapped => true
  | .waiting => true
  | _ => false
/-- A cancel meets a block (R291, R292). -/
def State.cancelBlock (s : State) (bid : Nat) (b : Block) : State :=
  let s := s.modBlock bid fun x =>
    let x := { x with cancelled := true, groups := x.groups.map Group.unpark, sops := x.sops.filter fun o => o.2.fault.isNone }
    if b.res.away then { x with mops := [], sops := [] } else x
  s.failCopies bid cCancel
/-- Whether everything a block has issued has ended (R287, R291, R364): a block that failed or is cancelled still has no request on its way, and no
block a remote operation. -/
def State.blockOver (s : State) (bid : Nat) (b : Block) : Bool :=
  let remote := s.rops.any fun e => e.2.b == bid
  let groups := b.fail.isSome || b.cancelled || b.groups.all Group.ended
  let quiet := !(s.reqs.any fun e => e.2.b == bid) && !(s.copies.any fun e => e.2.b == bid && !e.2.st.over) &&
    b.mops.isEmpty && b.tops.isEmpty && b.sops.isEmpty
  !remote && match b.res with
  | .resident => groups && quiet
  | .saved => b.cancelled || b.fail.isSome
  | .spilled => b.cancelled || b.fail.isSome
  | .swapped => b.cancelled || b.fail.isSome
  | .waiting => b.cancelled || b.fail.isSome
  | _ => false
/-- A cancel reaches a slice for a launch. Blocks that have ended are none of its work (R292). -/
def State.cancelAt (s : State) (slice lk : Nat) : State :=
  match tget s.launches lk with
  | none => s
  | some l =>
    let bs := s.blocks.filter fun e => e.2.lk == lk && e.2.slice == slice && !s.blockOver e.1 e.2
    let some' := !bs.isEmpty || (l.ownNext slice).isSome || l.extra.any fun e => e.1 == slice
    let s := s.modLaunch lk fun l =>
      { l with killed := slice :: l.killed, cancelled := l.cancelled || some', extra := l.extra.filter (fun e => e.1 != slice),
               next := cset 0 l.next slice l.blocks }
    (bs.foldl (fun s e => s.cancelBlock e.1 e.2) s).sendDone lk slice

/-! ### Where a block goes (R210, R297, R298, R315) -/

/-- The cores of a slice on which a kernel's blocks can stand: any core, or the leaders of its tiles. -/
def coresFor (d : List Byte) : List Nat := if kdAccMax d ≥ 1 then [0, 2] else [0, 1, 2, 3]
/-- Whether a residency operation is in progress on the tile of a core. -/
def State.tileMoving (s : State) (slice core : Nat) : Bool :=
  s.blocks.any fun e => e.2.slice == slice && (e.2.res == .moving || (e.2.core / 2 == core / 2 && (match e.2.res with
    | .stopping => true
    | .saving => true
    | .restoring => true
    | _ => false)))
/-- Whether the tiles of a slice are being swapped (R312). -/
def State.swapping (s : State) (slice : Nat) : Bool := s.blocks.any fun e => e.2.slice == slice && e.2.res == .moving
/-- Bases at which a local region could begin, ascending. -/
def localBases (bs : List Block) : List Nat := 0 :: (bs.map fun b => b.lbase + b.localSz)
def overlap (a n b m : Nat) : Bool := decide (a < b + m) && decide (b < a + n)
/-- The lowest free region of local memory. -/
def localFit (bs : List Block) (n : Nat) : Option Nat :=
  let ok := (localBases bs).filter fun a => decide (a + n ≤ 524288) && !bs.any fun b => overlap a n b.lbase b.localSz
  if n == 0 then some 0
  else ok.foldl (fun o a => match o with
    | none => some a
    | some c => some (min a c)) none
/-- The resident groups' slots in a quarter. -/
def slotsIn (bs : List Block) (quarter : Nat) : List Nat :=
  bs.flatMap fun b => (b.groups.filter fun g => g.quarter == quarter).map Group.slot
/-- Whether a kernel's block would be admitted to a core that holds given blocks: the base of its local region (R210, R297). -/
def fitAddr (bs tileBs : List Block) (d : List Byte) : Option Nat :=
  let n := (kdGroups d).length
  let fits (q : Nat) : Bool := decide (((upto n).filter fun g => g % 4 == q).length ≤ 24 - (slotsIn bs q).length)
  let vused := (bs.map fun b => (b.groups.map fun g => g.vregs / 32).foldl (· + ·) 0).foldl (· + ·) 0
  let accs := (tileBs.map Block.accMax).foldl (· + ·) 0
  let wbs := (tileBs.map Block.wbSz).foldl (· + ·) 0
  if bs.length < 16 && (upto 4).all fits && vused + kdVblocks d ≤ 256 &&
      (kdAccMax d == 0 || (accs + kdAccMax d ≤ 4 && wbs + kdWbuf d ≤ 262144 : Bool)) then localFit bs (kdLocal d)
  else none
/-- The blocks whose groups stand on a core, and the tile blocks of its tile. -/
def State.standing (s : State) (slice core : Nat) : List Block :=
  (s.blocks.filter fun e => e.2.res.held && e.2.slice == slice && e.2.core == core).map Prod.snd
def State.tileBlocks (s : State) (slice core : Nat) : List Block :=
  (s.blocks.filter fun e => e.2.res.held && e.2.slice == slice && e.2.isTile && e.2.core / 2 == core / 2).map Prod.snd
/-- Where a kernel's block is placed: the core and the base of its local region (R298). -/
def State.placeFor (s : State) (slice : Nat) (d : List Byte) : Option (Nat × Nat) :=
  (coresFor d).findSome? fun c => (fitAddr (s.standing slice c) (s.tileBlocks slice c) d).map fun a => (c, a)

/-- A block that waits for placement on a slice: its launch, its index, and its record when its state is saved. -/
structure Cand where
  lk : Nat
  l : Launch
  idx : Nat
  saved : Option Nat
  deriving DecidableEq, Repr
/-- The least waiting block of each launch on a slice. -/
def State.cands (s : State) (slice : Nat) : List Cand :=
  s.launches.filterMap fun e =>
    let l := e.2
    let saved := (s.blocks.filter fun x => x.2.lk == e.1 && x.2.slice == slice && (x.2.res == .waiting || x.2.res == .saved || x.2.res == .spilled) &&
      !x.2.cancelled && x.2.fail.isNone).map fun x => ({ lk := e.1, l := l, idx := x.2.idx, saved := some x.1 } : Cand)
    let new := ((l.unstarted slice).map fun b => ({ lk := e.1, l := l, idx := b, saved := none } : Cand)).toList
    (saved ++ new).foldl (fun o c => match o with
      | none => some c
      | some d => if c.idx < d.idx then some c else some d) none
/-- The ticket with which a launch left the head on a slice. -/
def Launch.ticket (l : Launch) (slice : Nat) : Nat := ((l.left.find? fun e => e.1 == slice).map Prod.snd).getD 0
/-- The order of R283. -/
def Cand.before (slice : Nat) (a b : Cand) : Bool :=
  if a.l.lc != b.l.lc then a.l.lc
  else if a.l.prio != b.l.prio then decide (b.l.prio < a.l.prio)
  else decide (a.l.ticket slice < b.l.ticket slice)
/-- Insert into a list kept in an order. -/
def insertBy {α : Type} (lt : α → α → Bool) (x : α) : List α → List α
  | [] => [x]
  | y :: t => if lt x y then x :: y :: t else y :: insertBy lt x t
/-- Sort by an order. -/
def sortBy {α : Type} (lt : α → α → Bool) (l : List α) : List α := l.foldr (insertBy lt) []
/-- The waiting blocks of a slice in the order of R283. -/
def State.waiting (s : State) (slice : Nat) : List Cand := sortBy (Cand.before slice) (s.cands slice)
/-- The first waiting block that a core admits, with its place; none while the slice places nothing or its tiles are being swapped. A restore
waits for another operation of its tile (R315), and later blocks wait behind it (R283); a block that starts does not wait for one. -/
def State.nextPlace (s : State) (slice : Nat) : Option (Cand × Nat × Nat) :=
  if (s.slice slice).inReset || (s.slice slice).drain || s.swapping slice then none
  else ((s.waiting slice).findSome? fun c => (s.placeFor slice c.l.kd).map fun p => (c, p.1, p.2)).filter fun x =>
    !(x.1.saved.isSome && s.tileMoving slice x.2.1)

/-! ### Starting a block (R280) -/

/-- The first free slot of a quarter from a list of slots in use. -/
def freeSlot (used : List Nat) : Nat := ((upto 24).find? fun k => !used.contains k).getD 0
/-- A group at its start. -/
def startGroup (r : Role) (p : List Byte) (gi slot : Nat) : Group :=
  let g : Group := { role := r.kind, producer := r.kind == 1, quarter := gi % 4, slot := slot, vregs := r.vregs, sregs := r.sregs,
                     tillers := { mask := 2 ^ 32 - 1, pc := r.entry, st := .ready } :: List.replicate 7 {} }
  (upto 8).foldl (fun g i => g.sset i (BitVec.ofNat 64 (pkArg p i))) g
/-- The groups of a block, each in the lowest free slot of its quarter (R297). -/
def startGroups (p : List Byte) : List Role → Nat → List (List Nat) → List Group
  | [], _, _ => []
  | r :: t, gi, used =>
    let u := listGet [] used (gi % 4)
    let k := freeSlot u
    startGroup r p gi k :: startGroups p t (gi + 1) (listSet used (gi % 4) (k :: u))
/-- Slots in use on a core, by quarter. -/
def State.usedSlots (s : State) (slice core : Nat) : List (List Nat) := (upto 4).map (slotsIn (s.standing slice core))
/-- A block's record at its start. -/
def newBlock (lk : Nat) (l : Launch) (idx slice core base : Nat) (used : List (List Nat)) : Block :=
  { launch := l.lid, lk := lk, idx := idx, vd := l.vd, pid := l.pid, slice := slice, core := core, isTile := decide (kdAccMax l.kd ≥ 1),
    maint := l.maint, traph := kdTraph l.kd, seed := pkSeed l.pkt, res := .resident, groups := startGroups l.pkt (kdGroups l.kd) 0 used,
    localSz := kdLocal l.kd, lbase := base, wbSz := kdWbuf l.kd, accMax := kdAccMax l.kd, bars := List.replicate 16 {} }
/-- An entry that is not an instruction start is the misaligned-target trap in each group of its role (R274). -/
def State.checkEntries (s : State) (bid : Nat) (b : Block) : State :=
  (upto b.groups.length).foldl (fun s g =>
    let pc := ((listGet ({} : Group) b.groups g).til 0).pc
    if s.startOk b pc then s else s.trapAt bid g 0 pc 4 pc (s.wordsAt b.slice b.core b.vd pc)) s
/-- Start a block on a core (R280): its groups acquire at `.prt`. -/
def State.startBlock (s : State) (slice : Nat) (c : Cand) (core base : Nat) : State :=
  let (id, s) := s.fresh
  let b := newBlock c.lk c.l c.idx slice core base (s.usedSlots slice core)
  let s := s.modLaunch c.lk fun l =>
    if l.extra.contains (slice, c.idx) then { l with extra := l.extra.filter (· != (slice, c.idx)) }
    else { l with next := cset 0 l.next slice (c.idx + 1) }
  ({ s with blocks := tput s.blocks id b }.acquire slice core c.l.vd .prt).checkEntries id b

end Sys2Proof.Machine
end

