-- ==== Sys2Proof/Machine/Launch.lean ====
section
/-!
DEFINITION. The instructions and events of the launch engine (R271 to R296). DEDUCED: the lead slice's slot leaves the head before the
slots of the other slices, which take the launch as the lead recorded it.
-/
namespace Sys2Proof.Machine

/-! ### Queues and slots (R271 to R273) -/

/-- `NOTIFY_WRITE`: an agent writes the notify page of a queue; it is accepted at once. -/
def execNotifyWrite (pid q : Nat) (s : State) : Host.Outcome State Fault Refusal := event s (some (s.notify (queueKey pid q)))

/-- The queues of a partition. -/
def State.queuesOf (s : State) (pid : Nat) : List (Nat × Queue) := s.queues.filter fun e => e.2.pid == pid
/-- `QUEUE_SLOT_ASSIGN`: the Pending queue that was notified first takes the lowest free slot; PIN pins it, of which 44 at most are (R273). -/
def execQueueSlotAssign (pid : Nat) (s : State) : Host.Outcome State Fault Refusal :=
  event s (
    let qs := s.queuesOf pid
    let used := qs.filterMap fun e => e.2.slot
    let first := (qs.filter fun e => e.2.st == .pending).foldl (fun (o : Option (Nat × Queue)) e => match o with
      | none => some e
      | some f => if e.2.pendAt < f.2.pendAt then some e else some f) none
    match first, (upto 48).find? fun k => !used.contains k with
    | some e, some k => some (s.modQueue e.1 fun q => { q with st := if q.pin then .pinned else .mapped, slot := some k, mappedAt := s.now })
    | _, _ => none)

/-- The head of a queue on a slice; one that has none yet starts at the count that the lead has reached. -/
def State.headOf (s : State) (slice key : Nat) : Head := (tget (s.slice slice).heads key).getD { n := 0 }
def State.setHead (s : State) (slice key : Nat) (h : Head) : State := s.modSlice slice fun x => { x with heads := tput x.heads key h }

/-- `SLOT_RECLAIM`: while another queue is Pending, a Mapped queue that is empty or has been mapped for 200 µs, with no launch in its
non-pre-emptible hold, loses its slot (R273); every slice has consumed what the lead has. -/
def execSlotReclaim (pid q : Nat) (s : State) : Host.Outcome State Fault Refusal :=
  event s (
    let key := queueKey pid q
    match tget s.queues key with
    | none => none
    | some x =>
      let lead := s.leader pid
      match s.readHdr lead x with
      | (s', .ok h) =>
        let level := (s.sliceList pid).all fun k => (s.headOf k key).n == (s.headOf lead key).n
        let held := s.launches.any fun e => e.2.pid == pid && e.2.queue == q && e.2.holds
        let wanted := (s.queuesOf pid).any fun e => e.2.st == .pending
        let empty := h.any fun h => h.tail == h.head
        if x.st != .mapped || !level || held || !wanted || !(empty || decide (s.now ≥ x.mappedAt + 200000)) then none
        else
          let (t, s) := s'.fresh
          let s := (s.sliceList pid).foldl (fun s k => s.setHead k key { n := (s.headOf k key).n }) s
          some (s.modQueue key fun y => { y with slot := none, st := if empty then .unmapped else .pending, pendAt := t })
      | _ => none)

/-! ### The head (R277, R278) -/

/-- A queue that a slice serves. -/
def State.served (s : State) (slice key : Nat) : Option Queue :=
  (tget s.queues key).bind fun q =>
    if (q.st == .mapped || q.st == .pinned) && (s.sliceList q.pid).contains slice && !(s.slice slice).inReset then some q else none
/-- What a failed read of the head does: poison rejects the packet with CAUSE 5; any other fault stops the queue and is reported (R277); none
while the report must wait (R326). -/
def State.headFault (s : State) (slice key : Nat) (q : Queue) (h : Head) (va : Nat) (f : PFault) : Option State :=
  if f.kind == .poison then some (s.setHead slice key { h with cause := 5, met := true, pkt := some (h.pkt.getD []) })
  else if s.unreported slice q.pid q.vd f then none
  else
    let (token, s) := s.report { slice := slice, pid := q.pid, vd := q.vd, f := f, va := va, acc := { r := true }, guest := false,
                                 waiter := .queue slice key }
    some (s.setHead slice key { h with fault := some { va := va, f := f, token := token } })
/-- Whether a head may act: no fault of it is unanswered. -/
def Head.goes (h : Head) : Bool := !h.stopped && !h.fault.any fun f => !f.resolved
/-- The address of the counter that AFTER names: the queue's DONE, or a level's counter (R275, R289). -/
def State.afterVa (s : State) (q : Queue) (p : List Byte) : Option Nat :=
  match bits (pkAfter p) 50 48 with
  | 1 => some (q.hdr + 32)
  | 2 => some (s.levelCtr q.pid q.vd 1 (bits (pkAfter p) 47 32))
  | 3 => some (s.levelCtr q.pid q.vd 2 (bits (pkAfter p) 47 32))
  | 4 => some (s.levelCtr q.pid q.vd 3 (bits (pkAfter p) 47 32))
  | _ => none
/-- Evaluate the dependence of a head packet (R277). -/
def State.evalDep (s : State) (slice key : Nat) (q : Queue) (h : Head) (p : List Byte) : Option State :=
  match s.afterVa q p with
  | none => some (s.setHead slice key { h with pkt := some p, met := true, fault := none })
  | some va => match s.vaRead slice q.pid q.vd va 8 with
    | (s, .error f) => s.headFault slice key q { h with pkt := some p, fault := none } va f
    | (s, .ok b) =>
      let met := decide ((ofBytes b + 2 ^ 32 - pkAfter p % 2 ^ 32) % 2 ^ 32 < 2 ^ 31)
      some (s.setHead slice key { h with pkt := some p, met := met, fault := none })

/-- The address of packet n of a queue, by its header now. -/
def State.slotVa (s : State) (slice : Nat) (q : Queue) (n : Nat) : Option Nat := match (s.readHdr slice q).2 with
  | .ok (some d) => some (d.slot n)
  | _ => none
/-- The recorded packet of a launch under replay (R409), in the record stream of the lead slice, which holds the packets (R407). -/
def State.replayPacket (s : State) (q : Queue) (lid : Nat) : Option (List Byte) :=
  let slice := s.leader q.pid
  let (s, e) := s.trcEnt slice q.pid q.vd
  match s.rsHeader slice q.pid q.vd e.rstream with
  | (s, some (lg, head, tail)) => s.rsFind slice q.pid q.vd e.rstream lg (fun t k _ => t == 1 && k == lid) 65536 head tail
  | _ => none

/-- `HEAD_PACKET_READ`: once TAIL exceeds its number the slot reads the packet and evaluates the dependence; a header that is not usable stops
the slot with an event (R277, R327); under replay the packet comes from the record stream (R409). -/
def execHeadPacketRead (slice key : Nat) (s : State) : Host.Outcome State Fault Refusal :=
  event s (match s.served slice key with
    | none => none
    | some q =>
      let h := s.headOf slice key
      if h.pkt.isSome || !h.goes || ((tget s.parts q.pid).any fun p => p.quiet) then none
      else
      let (s, e) := s.trcEnt slice q.pid q.vd
      if e.rpl then
        match s.replayPacket q (key % 65536 * 2 ^ 48 + h.n), s.slotVa slice q h.n with
        | some p, some va => s.evalDep slice key q { h with slot := some va } p
        | _, _ => none
      else match s.readHdr slice q with
        | (s, .error f) => s.headFault slice key q { h with fault := none } q.hdr f
        | (s, .ok none) => some ((s.setHead slice key { h with stopped := true }).postEvent q.pid .queueHeader slice (key % 65536))
        | (s, .ok (some d)) =>
          if d.tail ≤ h.n then none
          else match s.vaRead slice q.pid q.vd (d.slot h.n) 128 with
            | (s, .error f) => s.headFault slice key q { h with fault := none, slot := some (d.slot h.n) } (d.slot h.n) f
            | (s, .ok p) => s.evalDep slice key q { h with slot := some (d.slot h.n) } p)

/-- `DEPENDENCE_RECHECK`: the slot reads the counter again. -/
def execDependenceRecheck (slice key : Nat) (s : State) : Host.Outcome State Fault Refusal :=
  event s (match s.served slice key with
    | none => none
    | some q =>
      let h := s.headOf slice key
      match h.pkt with
      | some p => if h.met || !h.goes then none else s.evalDep slice key q h p
      | none => none)

/-- Whether an id of the packet is in its VD's cancel list (R278, R293). -/
def State.listed (s : State) (q : Queue) (p : List Byte) : Bool :=
  [1, 2, 3].any fun lv => pkId p lv != 0 && ((tget s.parts q.pid).bind fun x => tget x.cancels (q.vd * 4 + lv)).any fun l => l.contains (pkId p lv)

/-- The lead's packet has been read with its descriptor and count: it leaves the head (R277, R278), rejected with final STATUS, or as a
launch with STATE 1. -/
def State.leaveLead (s : State) (slice key : Nat) (q : Queue) (h : Head) (p : List Byte) (kd : Option (List Byte)) (count : Option Nat)
    (cause : Nat) : State :=
  let s := (s.setHead slice key { n := h.n + 1 })
  let s := s.lateWrite slice q.pid q.vd (q.hdr + 24) (toBytes 8 (h.n + 1))
  match if p.isEmpty then some cause else rejectCause q p kd count cause (s.listed q p) with
  | some c =>
    let s := match h.slot with
      | some va => s.putStatus slice q.pid q.vd va 5 c 0 (2 ^ 32 - 1) 0
      | none => s
    (s.advance slice q.pid q.vd p).packetDone slice key h.n
  | none =>
    let (lk, s) := s.fresh
    let va := h.slot.getD 0
    let s := s.lateWrite slice q.pid q.vd (va + 112) (toBytes 1 1 ++ toBytes 15 0)
    let l : Launch := { pid := q.pid, vd := q.vd, queue := key % 65536, n := h.n, lid := key % 65536 * 2 ^ 48 + h.n, pkt := p, pktVa := va,
                        kd := kd.getD [], blocks := if pkCount p == 0 then pkBlocks p else count.getD 0, list := s.sliceList q.pid,
                        maint := q.maint, leftAt := s.now, left := [(slice, lk)], noticed := [slice] }
    { s with launches := tput s.launches lk l }.sendDone lk slice

/-- What the lead reads before its packet leaves the head: the descriptor, then the count of an indirect launch, with the cause of a
poisoned count; or a fault that stops it, with the descriptor if it has been read. -/
def State.leadReads (s : State) (slice : Nat) (q : Queue) (p : List Byte) :
    State × Except (Nat × PFault × Option (List Byte)) (List Byte × Option Nat × Nat) :=
  match s.vaRead slice q.pid q.vd (pkKdesc p) 128 with
  | (s, .error f) => (s, .error (pkKdesc p, f, none))
  | (s, .ok kd) =>
    if pkCount p == 0 || pkCount p % 4 != 0 then (s, .ok (kd, none, 0))
    else match s.vaRead slice q.pid q.vd (pkCount p) 4 with
      | (s, .error f) => if f.kind == .poison then (s, .ok (kd, none, 5)) else (s, .error (pkCount p, f, some kd))
      | (s, .ok c) => (s, .ok (kd, some (ofBytes c), 0))

/-- `PACKET_LEAVE_HEAD`: every slice reads the kernel descriptor (R277); on the lead slice the packet is checked and becomes a launch, recorded under
REC (R407); on another slice, once it has left the lead's head, the slot takes the launch. -/
def execPacketLeaveHead (slice key : Nat) (s : State) : Host.Outcome State Fault Refusal :=
  event s (match s.served slice key with
    | none => none
    | some q =>
      let h := s.headOf slice key
      match h.pkt with
      | none => none
      | some p =>
        if !h.met && h.cause == 0 || !h.goes then none
        else if slice == s.leader q.pid then
          let (s, e) := s.trcEnt slice q.pid q.vd
          let lid := key % 65536 * 2 ^ 48 + h.n
          let go (s : State) (kd : Option (List Byte)) (count : Option Nat) (cause : Nat) : Option State :=
            if e.recm && !p.isEmpty then
              match s.rsAppend slice q.pid q.vd e.rstream 1 lid p with
              | (s, .ok) => some (s.leaveLead slice key q h p kd count cause)
              | _ => none
            else some (s.leaveLead slice key q h p kd count cause)
          if h.cause != 0 then go s h.kd none h.cause
          else match s.leadReads slice q p with
            | (s, .ok (kd, c, e)) => go s (some kd) c e
            | (s, .error (va, f, kd)) => s.headFault slice key q { h with fault := none, kd := kd } va f
        else if (s.headOf (s.leader q.pid) key).n ≤ h.n then none
        else match if h.cause != 0 then (s, .ok []) else s.vaRead slice q.pid q.vd (pkKdesc p) 128 with
          | (s, .error f) => s.headFault slice key q { h with fault := none } (pkKdesc p) f
          | (s, .ok _) =>
            let (t, s) := s.fresh
            let s := s.setHead slice key { n := h.n + 1 }
            match s.launches.find? fun e => e.2.pid == q.pid && e.2.queue == key % 65536 && e.2.n == h.n with
            | some e => some ((s.modLaunch e.1 fun l => { l with left := l.left ++ [(slice, t)] }).sendDone e.1 slice)
            | none => some s)

/-- `START_NOTICE`: a slice receives the count of an indirect launch and takes its own blocks (R282). -/
def execStartNotice (lk slice : Nat) (s : State) : Host.Outcome State Fault Refusal :=
  event s (match tget s.launches lk with
    | none => none
    | some l =>
      if pkCount l.pkt == 0 || l.noticed.contains slice || !l.left.any fun e => e.1 == slice then none
      else some ((s.modLaunch lk fun l => { l with noticed := slice :: l.noticed }).sendDone lk slice))

/-! ### Blocks (R280, R283, R287, R297) -/

/-- `BLOCK_PLACEMENT`: the first waiting block in the order of R283 that a core admits is placed; one whose state is saved is restored (R310). -/
def execBlockPlacement (slice : Nat) (s : State) : Host.Outcome State Fault Refusal :=
  event s (match s.nextPlace slice with
    | none => none
    | some (c, core, base) => match c.saved with
      | none => some (s.startBlock slice c core base)
      | some id =>
        let used := s.usedSlots slice core
        some (s.modBlock id fun b =>
          { b with res := .restoring, core := core, lbase := base, groups := reslot b.groups used }))
where
  /-- The groups of a restored block in the lowest free slots of their quarters. -/
  reslot : List Group → List (List Nat) → List Group
    | [], _ => []
    | g :: t, used =>
      let u := listGet [] used g.quarter
      let k := freeSlot u
      { g with slot := k } :: reslot t (listSet used g.quarter (k :: u))

/-- `BLOCK_END`: a block has ended; its resources are freed, and its launch counts it if it failed (R287, R290). -/
def execBlockEnd (bid : Nat) (s : State) : Host.Outcome State Fault Refusal :=
  event s (match tget s.blocks bid with
    | none => none
    | some b =>
      if !s.blockOver bid b then none
      else
        let s := { s with blocks := tdel s.blocks bid, copies := s.copies.filter (fun e => e.2.b != bid),
                          cores := tmap (fun _ c => { c with tlb := c.tlb.filter fun e => e.blk != bid }) s.cores }
        let s := s.modLaunch b.lk fun l => match b.fail with
          | none => l
          | some f =>
            let low := decide (b.idx < l.first)
            { l with nfail := l.nfail + 1, first := if low then b.idx else l.first, fcode := if low then f.fcode else l.fcode }
        some (s.sendDone b.lk b.slice))

/-! ### Completion (R146, R287 to R290) -/

/-- `DONE_NOTICE`: the lead receives a slice's notice; with one from every slice it orders the ordered atomics applied. -/
def execDoneNotice (lk slice : Nat) (s : State) : Host.Outcome State Fault Refusal :=
  event s (match tget s.launches lk with
    | none => none
    | some l =>
      if !l.sent.contains slice then none
      else
        let l := { l with sent := l.sent.filter (· != slice), held := slice :: l.held }
        some { s with launches := tput s.launches lk { l with ordering := s.allDone lk l } })

/-- The order of the keys of ordered atomics (R146). -/
def OrdEnt.before (a b : OrdEnt) : Bool :=
  decide (a.blk < b.blk) || (a.blk == b.blk && (decide (a.who < b.who) || (a.who == b.who && decide (a.n < b.n))))
/-- Apply an entry at its home, as traffic of the class Atomics: round_f32(value(mem32(x)) + value(e.b), RNE). -/
def State.applyOrd (s : State) (e : OrdEnt) : State :=
  match (s.touch e.home e.pid e.vd (vdTag e.vd e.va) (e.va / 128) e.sla { cls := 3, op := 2 }).homeRead e.home e.sla 4 e.key with
  | (s, none) => s
  | (s, some b) =>
    let v := roundF32 .rne (xAdd false (v32 (ofBytes b)) (v32 e.x)).1
    (s.homeWrite e.home e.sla e.key (toBytes 4 v.1)).1
/-- `ORDERED_ATOMIC_APPLY`: a slice applies the entries of a launch homed there in ascending key order and acknowledges; a granule that is
mid-migration holds them (R386). -/
def execOrderedAtomicApply (lk slice : Nat) (s : State) : Host.Outcome State Fault Refusal :=
  event s (match tget s.launches lk with
    | none => none
    | some l =>
      let mine (e : OrdEnt) : Bool := e.pid == l.pid && e.launch == l.lid && e.home == slice
      if !l.ordering || l.acks.contains slice || !(s.sliceList l.pid).contains slice ||
          (s.ordq.filter mine).any (fun e => s.homeDown slice e.pid (paOf (s.slice slice).map slice e.sla)) then none
      else
        let s := (sortBy OrdEnt.before (s.ordq.filter mine)).foldl State.applyOrd s
        some ({ s with ordq := s.ordq.filter fun e => !mine e }.modLaunch lk fun l => { l with acks := slice :: l.acks }))

/-- `LAUNCH_COMPLETE`: with every acknowledgement in, the lead writes STATUS, then advances the counters. -/
def execLaunchComplete (lk : Nat) (s : State) : Host.Outcome State Fault Refusal :=
  event s (match tget s.launches lk with
    | none => none
    | some l =>
      if !l.ordering || !(s.sliceList l.pid).all fun k => l.acks.contains k then none
      else
        let lead := s.leader l.pid
        let st := if l.cancelled then 4 else if l.nfail != 0 then 3 else 2
        let s := { s with launches := tdel s.launches lk }.putStatus lead l.pid l.vd l.pktVa st 0 l.nfail l.first l.fcode
        some ((s.advance lead l.pid l.vd l.pkt).packetDone lead (queueKey l.pid l.queue) l.n))

/-- `NOPRE_HOLD_LAPSE`: 100 µs after the packet left the head (R285). -/
def execNopreHoldLapse (lk : Nat) (s : State) : Host.Outcome State Fault Refusal :=
  event s (match tget s.launches lk with
    | none => none
    | some l => if l.holds && s.now ≥ l.leftAt + 100000 then some (s.modLaunch lk fun l => { l with lapsed := true }) else none)

/-- `CANCEL_ARRIVAL`: a cancel reaches a slice (R291). -/
def execCancelArrival (c slice : Nat) (s : State) : Host.Outcome State Fault Refusal :=
  event s (match tget s.cancels c with
    | none => none
    | some x =>
      if !x.slices.contains slice then none
      else
        let left := x.slices.filter (· != slice)
        let s := { s with cancels := if left.isEmpty then tdel s.cancels c else tput s.cancels c { x with slices := left } }
        some (x.launches.foldl (fun s lk => s.cancelAt slice lk) s))

/-! ### Instructions (R294 to R296) -/

/-- A tiller parks on a fault of an access made at issue; it issues again when the fault is answered. -/
def parkRead (i : Instr) (h : Hd) (va : Nat) (x : Ex) (s : State) (p : PFault) (acc : Acc := { r := true }) : Eff :=
  if s.unreported x.b.slice x.b.pid x.b.vd p then .wait x.s (.longWait (.fetch []))
  else
    let (token, s) := s.report { slice := x.b.slice, pid := x.b.pid, vd := x.b.vd, f := p, va := va, pc := x.pc0 i, acc := acc,
                                 info := lowLane (x.guard h) + 2 ^ 32 * x.b.idx, guest := false, waiter := .fetch x.c.b x.c.g x.c.t }
    .wait s (.longWait (.fetch [{ va := va, f := p, token := token }]))

/-- The outcome of `launch`: no such queue, a full ring, or the packet number and its slot. -/
inductive LaunchOut where
  | none | full | put (t slot : Nat)
  deriving DecidableEq, Repr
/-- The value that `launch` returns. -/
def LaunchOut.value (q : Nat) : LaunchOut → Nat
  | .none => 0xFFFFFFFFFFFFFFFE
  | .full => 0xFFFFFFFFFFFFFFFF
  | .put t _ => (q % 65536 * 2 ^ 48 + t) % 2 ^ 64
/-- What `launch` finds at the queue that a scalar names (R294), or a fault of reading its header. -/
def Ex.launchOut (x : Ex) (q : Nat) : State × Except (Nat × PFault) LaunchOut :=
  match if q / 65536 != 0 then none else tget x.s.queues (queueKey x.b.pid q) with
  | none => (x.s, .ok .none)
  | some k =>
    if k.vd != x.b.vd || !k.dev then (x.s, .ok .none)
    else match x.s.readHdr x.b.slice k with
      | (s, .ok (some h)) => (s, .ok (if h.tail - h.done ≥ 2 ^ h.lg then .full else .put h.tail (h.slot h.tail)))
      | (s, .ok none) => (s, .ok .none)
      | (s, .error f) => (s, .error (k.hdr, f))
/-- The packet enters its slot with STATUS zero, TAIL advances and the queue is notified; or the fault of a write that is not performed. -/
def Ex.publish (x : Ex) (q t slot : Nat) (p : List Byte) : State × Option (Nat × PFault) :=
  match tget x.s.queues (queueKey x.b.pid q) with
  | none => (x.s, none)
  | some k => match x.s.vaWrite x.b.slice k.pid k.vd slot (p.take 112 ++ List.replicate 16 0) with
    | (s, some f) => (s, some (slot, f))
    | (s, none) => match s.vaWrite x.b.slice k.pid k.vd (k.hdr + 16) (toBytes 8 (t + 1)) with
      | (s, some f) => (s, some (k.hdr + 16, f))
      | (s, none) => (s.notify (queueKey x.b.pid q), none)

/-- `launch` (R294): a queue that takes nothing answers at once; else a release at `.prt` waits for the lanes' earlier operations before the packet
is read. Its result is recorded, and under replay it places nothing (R407, R409). -/
def execLaunch (h : Hd) (d a b : SReg) (off : BitVec 22) (s : State) : Host.Outcome State Fault Refusal :=
  let i : Instr := .launch h d a b off
  issue i (uniform h fun x =>
    let va := addr64 (x.s' a) off
    let q := x.s' b
    let fail (k : Nat) : Eff := .prog { kind := 4, detail := k, va := va, pc := x.pc0 i, lane := lowLane (x.guard h), acc := 1 }
    let (s, e) := x.s.trcEnt x.b.slice x.b.pid x.b.vd
    let x := { x with s := s }
    if e.rpl then x.recorded 0 fun y v => .ok (y.setS d.val v).dirty
    else match x.launchOut q with
      | (s, .error (at', f)) => parkRead i h at' x s f
      | (s, .ok (.put t slot)) =>
        if va % 128 != 0 then fail 0x10
        else if !canonical va then fail 0x30
        else if !earlierDone x.s x.c.b x.c.g x.g x.g.nextPend x.t.mask .prt then .wait x.s .waiting
        else
          match s.engRead x.b.slice x.b.pid x.b.vd va 128 (x.b.via x.c.b) with
          | (s, .error p) => parkRead i h va x s p
          | (s, .ok p) =>
            let x := { x with s := s }
            match x.publish q t slot p with
            | (s, some (at', f)) => parkRead i h at' x s f { w := true }
            | (_, none) => x.recorded ((LaunchOut.put t slot).value q) fun y v => .ok ({ y with s := (y.publish q t slot p).1 }.setS d.val v).dirty
      | (s, .ok o) => { x with s := s }.recorded (o.value q) fun y v => .ok (y.setS d.val v).dirty) s

/-- The level of a cancel: 1 to 3, 0 for a launch. -/
def cancelLevel : CancelLvl → Nat
  | .launch => 0
  | .graph => 1
  | .phase => 2
  | .job => 3
/-- The launches of a VD that a cancel names (R295). -/
def State.named (s : State) (pid vd lv id : Nat) : List Nat :=
  (s.launches.filter fun e => e.2.pid == pid && e.2.vd == vd && (if lv == 0 then e.2.lid == id else pkId e.2.pkt lv == id)).map Prod.fst
/-- Change a VD's cancel list of a level (R293). -/
def Part.setList (p : Part) (vd lv : Nat) (f : List Nat → List Nat) : Part :=
  { p with cancels := tput p.cancels (vd * 4 + lv) (f ((tget p.cancels (vd * 4 + lv)).getD [])) }

/-- `cancel` and `cancel.clr` (R295). An id of 0 is that of no graph, phase or job; a launch may have the identifier 0. DEDUCED
(notes/assumptions/91.md). -/
def execCancel (h : Hd) (lvl : CancelLvl) (clr : Bool) (a : SReg) (s : State) : Host.Outcome State Fault Refusal :=
  issue (.cancel h lvl clr a) (uniform h fun x =>
    let id := x.s' a
    let lv := cancelLevel lvl
    if lv != 0 && (id == 0 || id / 65536 != 0) then .ok x
    else if clr then
      .ok { x with s := x.s.modPart x.b.pid fun p => p.setList x.b.vd lv fun l => l.filter (· != id) }
    else
      let s := if lv == 0 then x.s else x.s.modPart x.b.pid fun p => p.setList x.b.vd lv fun l => (id :: l.filter (· != id)).take 16
      let (c, s) := s.fresh
      let k : Cancel := { launches := s.named x.b.pid x.b.vd lv id, slices := s.sliceList x.b.pid }
      .ok { x with s := { s with cancels := tput s.cancels c k } }) s

/-- The counter that a handle names: its address; none is a program fault CANON (R296). -/
def Ex.handle (x : Ex) (v : Nat) : Option Nat :=
  let kind := bits v 18 16
  if v / 2 ^ 19 != 0 || kind == 0 || kind > 4 then none
  else if kind == 1 then (tget x.s.queues (queueKey x.b.pid (v % 65536))).bind fun q => if q.vd == x.b.vd then some (q.hdr + 32) else none
  else some (x.s.levelCtr x.b.pid x.b.vd (kind - 1) (v % 65536))
/-- Read the counter of a handle. -/
def withCounter (i : Instr) (h : Hd) (v : Nat) (f : Ex → Nat → Nat → Eff) (x : Ex) : Eff :=
  match x.handle v with
  | none => .prog { kind := 4, detail := 0x30, va := v, pc := x.pc0 i, lane := lowLane (x.guard h), acc := 1 }
  | some va => match x.s.vaRead x.b.slice x.b.pid x.b.vd va 8 with
    | (s, .error p) => parkRead i h va x s p
    | (s, .ok b) => f { x with s := s } va (ofBytes b)

/-- `ctrrd` (R296): an acquire at `.prt`; the result is recorded (R407). -/
def execCtrrd (h : Hd) (d a : SReg) (s : State) : Host.Outcome State Fault Refusal :=
  let i : Instr := .ctrrd h d a
  issue i (uniform h fun x => withCounter i h (x.s' a) (fun y _ c => y.recorded c fun z v =>
    .ok ((z.via fun s => s.acquire x.b.slice x.b.core x.b.vd .prt).defer i [.s d.val (BitVec.ofNat 64 v)] 0)) x) s

/-- Whether a counter has reached a value (R296). -/
def reached (c v : Nat) : Bool := decide ((c + 2 ^ 64 - v % 2 ^ 64) % 2 ^ 64 < 2 ^ 63)
/-- `ctrwait` (R296). -/
def execCtrwait (h : Hd) (a : SReg) (v : Src22) (s : State) : Host.Outcome State Fault Refusal :=
  let i : Instr := .ctrwait h a v
  issue i (uniform h fun x =>
    let n := match v with
      | .reg r => x.s' r
      | .imm k => k.toNat
    withCounter i h (x.s' a) (fun y va c =>
      if reached c n then .ok (y.via fun s => s.acquire x.b.slice x.b.core x.b.vd .prt) else waitEff i false (.ctrwait va n) y) x) s

end Sys2Proof.Machine
end

