-- ==== Sys2Proof/Machine/ResidOps.lean ====
section
/-!
DEFINITION. What the residency engine does with a block (11): taking its work off the core (R198, R229, R232, R258, R307), the rewind of a
clean group to its flashback point (R199, R233, R259, R304), bringing it back (R310), room for saved state (R309, R314), and victims (R306).
-/
namespace Sys2Proof.Machine

/-! ### Clean groups (R301 to R304) -/

/-- A group that is rewound: it has not ended, holds a point and is clean, and no group of its block is in a trap handler (R101, R307). DEDUCED
(notes/assumptions/92.md): a group that has ended has nothing to resume, and keeps its copies and operations. -/
def Block.clean (b : Block) (g : Group) : Bool := !g.ended && g.flash.valid && !g.flash.dirty && !b.groups.any fun x => x.trap.isSome

/-- The registers of a group that are live in its record; every other register holds 0 (R303, R304). -/
def Group.liveOnly (g : Group) : Group :=
  let keep (r : RegId) : Bool := liveReg g.flash.rcd r
  { g with v := cfilter (fun k => keep (.v (k / 32))) g.v, s := cfilter (fun k => keep (.s k)) g.s, p := cfilter (fun k => keep (.p k)) g.p }

/-- The copies of a group that were issued before its point. -/
def oldCopies (copies : List (Nat × Copy)) (l : List Nat) : List Nat := l.filter fun id => (tget copies id).any fun c => !c.post
/-- Seals after the point are undone, and copies before it return to the open sheaf (R199). Records that the undone seals had pushed out of the 64
do not come back, and ANYFAIL stays as it stands (R208). DESIGN CHOICE (notes/assumptions/111.md). -/
def Group.unseal (copies : List (Nat × Copy)) (g : Group) : Group :=
  let undone := g.sheaves.filter SheafSt.post
  { g with
    sealCnt := g.flash.copyMark, sheafNum := g.flash.copyMark % 2 ^ 32
    sheaves := g.sheaves.filter fun x => !x.post
    openSheaf := oldCopies copies (undone.flatMap SheafSt.copies ++ g.openSheaf) }

/-- The group as it resumes at its point (R304): one tiller at RECIPE with the point's mask, format and mode. Instructions issued before the point
that still await a result stay. -/
def Group.rewound (copies : List (Nat × Copy)) (g : Group) : Group :=
  let f := g.flash
  let t : Tiller := { mask := f.mask, pc := fieldAt f.rcd 0 8, fmt := f.fmt, mode := f.mode, st := .ready }
  { (g.liveOnly).unseal copies with
    tillers := t :: List.replicate 7 {}, rcds := [], pend := g.pend.filter fun e => decide (e.1 < f.pendMark), exited := 2 ^ 32 - 1 - f.mask, wide := none
    flash := { f with recipe := true } }

/-- Rewind the clean groups of a block: their copies, matrix and shaping operations after the point are discarded (R199, R233, R259). -/
def State.rewind (s : State) (bid : Nat) : State :=
  match tget s.blocks bid with
  | none => s
  | some b =>
    let cl (g : Nat) : Bool := b.clean (listGet {} b.groups g)
    let copies := s.copies
    let groups := b.groups.map fun g => if b.clean g then g.rewound copies else g
    { s with
      copies := s.copies.filter fun e => !(e.2.b == bid && cl e.2.g && e.2.post && !e.2.st.over)
      blocks := tput s.blocks bid { b with
        groups := groups
        mops := b.mops.filter fun o => !(cl o.2.g && o.2.post)
        tops := b.tops.filter fun o => !(cl o.2.g && o.2.post)
        sops := b.sops.filter fun o => !(cl o.2.g && o.2.post) } }

/-! ### Taking work off and bringing it back -/

/-- A copy from a peer. -/
def CpKind.fetches : CpKind → Bool
  | .rget _ _ => true
  | _ => false
/-- Copies of a block are suspended (R198), a fetch from a peer apart (R363), and go on. -/
def State.suspend (s : State) (bid : Nat) : State :=
  { s with copies := tmap (fun _ c => if c.b == bid && !c.st.over && !c.kind.fetches then { c with st := match c.st with
      | .suspended w => .suspended w
      | w => .suspended w } else c) s.copies }
def State.resumeCopies (s : State) (bid : Nat) : State :=
  { s with copies := tmap (fun _ c => if c.b == bid then { c with st := match c.st with
      | .suspended w => w
      | w => w } else c) s.copies }
/-- Matrix operations are aborted, their shadows discarded (R229), and are queued again in their order (R232). -/
def Block.abort (b : Block) : Block := { b with mops := tmap (fun _ o => { o with st := .held, shadow := [], fl := 0 }) b.mops }
def Block.reissue (b : Block) : Block := { b with mops := tmap (fun _ o => { o with st := if o.st == .held then .queued else o.st }) b.mops }
/-- Results of the core's own units complete (R307), those of instructions with numbers below n. -/
def Group.drainTo (n : Nat) (g : Group) : Group := (g.pend.filter fun e => e.2.kind == .alu && decide (e.1 < n)).foldl (fun g e => g.complete e.1) g
def Group.drain (g : Group) : Group := g.drainTo g.nextPend

/-- The work of a block leaves its core: results of its own units complete, but for those after the point of clean groups that are to be rewound,
which are discarded (R158, R307). -/
def State.takeOff (s : State) (bid : Nat) (rewinds : Bool) : State :=
  (s.suspend bid).modBlock bid fun b => { b.abort with groups := b.groups.map fun g => if rewinds && b.clean g then g.drainTo g.flash.pendMark else g.drain }
/-- What a block that a resize has moved finds on its new slice: it executed `fence.sc.prt` as it left (R130), and the instruction caches are
invalidated for its VD (R148, R387). -/
def State.arriveOn (s : State) (slice vd : Nat) : State :=
  (upto 4).foldl (fun s k => s.acquire slice k vd .prt) (s.icDrop slice vd)
/-- Its work is on a core again: copies and operations go on, and the L1 lines of the VD in its cores are invalid (R124, R310, R387). -/
def State.putOn (s : State) (bid : Nat) : State :=
  match tget s.blocks bid with
  | none => s
  | some b =>
    let s := (s.resumeCopies bid).modBlock bid fun b =>
      { b.reissue with res := .resident, carried := false, groups := b.groups.map fun g => { g with lastSlot := 7, readySince := none, idleSince := none } }
    let s := if b.carried then s.arriveOn b.slice b.vd else s
    (if b.isTile then [b.core, b.core + 1] else [b.core]).foldl (fun s k => s.l1Drop (coreKey b.slice k) fun x => x.vd == b.vd || x.vd == 0) s
/-- Route TLB entries of a block are not carried (R310). -/
def State.dropTlb (s : State) (bid : Nat) : State :=
  { s with cores := tmap (fun _ c => { c with tlb := c.tlb.filter fun e => e.blk != bid }) s.cores }
/-- A clean group's recipe that is not at an instruction start is the misaligned-target trap (R304). -/
def State.checkRecipes (s : State) (bid : Nat) : State :=
  match tget s.blocks bid with
  | none => s
  | some b => (upto b.groups.length).foldl (fun s gi =>
      let g := listGet ({} : Group) b.groups gi
      let pc := (g.til 0).pc
      if g.inRecipe && pc == fieldAt g.flash.rcd 0 8 && !s.startOk b pc then s.trapAt bid gi 0 pc 4 pc (s.wordsAt b.slice b.core b.vd pc)
      else s) s

/-! ### Room for saved state (R309, R314). DESIGN CHOICE: the size of a block's saved state. -/

/-- Bytes of a group's registers. -/
def Group.savedBytes (g : Group) : Nat := g.vregs * 128 + g.sregs * 8 + 64
/-- Bytes of a block's saved state. -/
def Block.savedBytes (b : Block) : Nat :=
  (b.groups.map fun g => if b.clean g then 128 + 128 * fieldAt g.flash.rcd 8 1 + g.sregs * 8 + 64 else g.savedBytes).foldl (· + ·) 0 +
  b.localSz + b.live * 131072 + 2 * b.wbSz + (if b.isTile then 8 * 2112 else 0)
/-- Bytes of saved state on a slice of the blocks that satisfy a test. -/
def State.savedOn (s : State) (slice : Nat) (p : Block → Bool) : Nat :=
  ((s.blocks.filter fun e => e.2.slice == slice && p e.2).map fun e => e.2.savedBytes).foldl (· + ·) 0
/-- Free bytes of the locked ways and of the save area. -/
def State.lockFree (s : State) (slice : Nat) : Nat := (s.slice slice).lockmb * 2 ^ 20 - s.savedOn slice fun b => b.res == .saved
def State.saveFree (s : State) (slice : Nat) : Nat :=
  (s.slice slice).saveSize - s.savedOn slice fun b => b.res == .spilled || b.res == .swapped || b.res == .waiting

/-! ### Victims (R306) -/

/-- The launch of a block. -/
def State.launchOf (s : State) (b : Block) : Option Launch := tget s.launches b.lk
/-- Whether a resident block may be a victim. -/
def State.mayYield (s : State) (b : Block) : Bool := b.res == .resident && (s.launchOf b).all fun l => !l.lc && !l.holds
/-- The order in which victims are taken. -/
def State.victimBefore (s : State) (x y : Nat × Block) : Bool :=
  let prio (b : Block) : Nat := ((s.launchOf b).map Launch.prio).getD 0
  let tick (b : Block) : Nat := ((s.launchOf b).map fun l => l.ticket b.slice).getD 0
  if prio x.2 != prio y.2 then decide (prio x.2 < prio y.2)
  else if tick x.2 != tick y.2 then decide (tick y.2 < tick x.2)
  else decide (y.2.idx < x.2.idx)
/-- The shortest run of victims after whose removal a core admits a kernel's block. -/
def State.shortest (s : State) (slice core : Nat) (d : List Byte) (vs : List (Nat × Block)) : Option (List (Nat × Block)) :=
  let gone (n : Nat) : List Nat := (vs.take n).map Prod.fst
  ((upto (vs.length + 1)).find? fun n =>
    let keep (e : Nat × Block) : Bool := e.2.res.held && e.2.slice == slice && !(gone n).contains e.1
    let bs := (s.blocks.filter fun e => keep e && e.2.core == core).map Prod.snd
    let ts := (s.blocks.filter fun e => keep e && e.2.isTile && e.2.core / 2 == core / 2).map Prod.snd
    (fitAddr bs ts d).isSome).map fun n => vs.take n
/-- The victims on the core with the lowest highest PRIO, ties to the lower core, and that core. -/
def State.victims (s : State) (slice : Nat) (d : List Byte) : Option (List (Nat × Block) × Nat) :=
  let tile := decide (kdAccMax d ≥ 1)
  let prio (b : Block) : Nat := ((s.launchOf b).map Launch.prio).getD 0
  let opts := (coresFor d).filterMap fun c =>
    let here (b : Block) : Bool := b.slice == slice && (if tile then b.core / 2 == c / 2 else b.core == c)
    let vs := sortBy s.victimBefore (s.blocks.filter fun e => here e.2 && s.mayYield e.2)
    (s.shortest slice c d vs).map fun l => (l, (l.map fun e => prio e.2).foldl max 0, c)
  (opts.foldl (fun o x => match o with
    | none => some x
    | some y => if x.2.1 < y.2.1 then some x else some y) none).map fun x => (x.1, x.2.2)

/-! ### Parked tillers (R314) -/

/-- A fault among a list that has not been answered. -/
def anyOpen (l : List FaultRef) : Bool := l.any fun f => !f.resolved
/-- Whether a tiller is parked on a fault, counting waits on Stopped copies and on stopped shaping operations (R196, R256, R314). -/
def State.tillerParked (s : State) (b : Block) (g : Group) (t : Tiller) : Bool :=
  let on (w : LWait) : Bool := match w with
    | .parked id => (tget g.pend id).any fun p => match p.kind with
        | .mem m => anyOpen m.faults
        | _ => false
    | .fetch f => anyOpen f
    | .on id => (tget g.pend id).any fun p => match p.kind with
        | .cond (.cwait isTo v) => (g.waitsFor isTo v).any fun x => x.copies.any fun c => (tget s.copies c).any fun c => anyOpen c.fault.toList
        | .cond (.ctrfault _ _ f) => !f.resolved
        | .cond (.qwait sel _) => b.sops.any fun o => selHas sel o.2.set && anyOpen o.2.fault.toList
        | _ => false
    | _ => false
  match t.st with
  | .longWait w => on w
  | .held (.longWait w) => on w
  | _ => false
/-- Say since when each tiller is parked. -/
def State.stampParks (s : State) : State :=
  { s with blocks := tmap (fun _ b => { b with groups := b.groups.map fun g =>
      { g with tillers := g.tillers.map fun t =>
          { t with parkSince := if s.tillerParked b g t then some (t.parkSince.getD s.now) else none } } }) s.blocks }
/-- Every fault on which a block's tillers are parked has been answered (R314). -/
def State.serviced (s : State) (b : Block) : Bool := !b.groups.any fun g => g.tillers.any (s.tillerParked b g)

end Sys2Proof.Machine
end

