-- ==== Sys2Proof/Machine/Resid.lean ====
section
/-!
DEFINITION. The instruction and events of the residency engine (R300 to R317).
-/
namespace Sys2Proof.Machine

/-! ### `fbpt` (R302, R303) -/

/-- Whether a flashback record breaks R303. -/
def badRecord (g : Group) (r : List Byte) : Bool :=
  let nv := fieldAt r 8 1
  let vl := (upto 32).map fun i => fieldAt r (64 + 2 * i) 2
  (r.drop 9).take 7 != List.replicate 7 0 || (r.drop 34).take 30 != List.replicate 30 0 || nv > 32 ||
  (vl.drop nv).any (· != 0) || (vl.take nv).any (fun v => decide (v ≥ g.vregs)) || (vl.take nv).eraseDups.length != nv ||
  fieldAt r 16 16 / 2 ^ g.sregs != 0
/-- Set the marks of R199, R233 and R259: what has been issued so far stands before the point. -/
def Ex.setMarks (x : Ex) : Ex :=
  let mine (b g : Nat) : Bool := b == x.c.b && g == x.c.g
  { x with
    s := { x.s with copies := tmap (fun _ c => if mine c.b c.g then { c with post := false } else c) x.s.copies }
    b := { x.b with
      mops := tmap (fun _ o => if o.g == x.c.g then { o with post := false } else o) x.b.mops
      tops := tmap (fun _ o => if o.g == x.c.g then { o with post := false } else o) x.b.tops
      sops := tmap (fun _ o => if o.g == x.c.g then { o with post := false } else o) x.b.sops }
    g := { x.g with sheaves := x.g.sheaves.map fun h => { h with post := false } } }
/-- The group stands undiverged: one live tiller, no record, no wide region (R302). -/
def Group.whole (g : Group) : Bool := (g.tillers.filter fun t => t.st.live).length ≤ 1 && g.rcds.isEmpty && g.wide.isNone

/-- `fbpt` (R302): it waits for the group's earlier instructions of the sequencer, the vector and the load-store unit; a fault of its fetch
parks as a fetch does, and an address that is not canonical is a program fault CANON (R128). -/
def execFbpt (look : Fin 16) (off : BitVec 22) (s : State) : Host.Outcome State Fault Refusal :=
  let i : Instr := .fbpt look off
  issue i (fun x =>
    let pc := x.pc0 i
    let ra := pcTarget pc off
    let void : Ex := { x with g := { x.g with flash := { x.g.flash with valid := false } } }
    if x.g.pend.any fun e => decide (e.2.op < 0xB0) then .wait x.s .waiting
    else if ra % 128 != 0 || !x.g.whole then .ok void
    else
      let read : State × Except PFault (List Byte) :=
        match x.s.reach x.b.slice x.b.pid x.b.vd ra { x := true } (x.b.via x.c.b) with
        | (s, .error f) => (s, .error f)
        | (s, .ok t) => match (s.touch t.home x.b.pid x.b.vd (vdTag x.b.vd ra) (ra / 128) t.sla {}).homeRead t.home t.sla 128 t.key with
          | (s, none) => (s, .error { kind := .poison })
          | (s, some b) => (s, .ok b)
      if !canonical ra then .prog { kind := 4, detail := 0x30, va := ra, pc := pc, lane := lowLane x.t.mask, acc := 4 } else
      match read with
      | (s, .error f) => parkRead i ⟨15, false, 0⟩ ra x (if f.kind == .firewall then s.fwNotice f.home 4 else s) f { x := true }
      | (s, .ok r) =>
        if badRecord x.g r then .ok { void with s := s }
        else
          let fl : Flash := { x.g.flash with valid := true, dirty := false, pc := pc, rcd := r, mask := x.t.mask, fmt := x.t.fmt, mode := x.t.mode,
                                             copyMark := x.g.sealCnt, pendMark := x.g.nextPend }
          .ok { { x with s := s }.setMarks with g := { { x with s := s }.setMarks.g with flash := fl } }) s

/-! ### Pre-emption and saving (R306 to R310) -/

/-- Whether a pre-emption for a waiting block has begun: it waits, and a block of the slice is Stopping or Saving for it (R306). -/
def State.preempting (s : State) (slice : Nat) (c : Cand) : Bool :=
  (s.slice slice).pre.any fun e => e.1 == c.lk && e.2.1 == c.idx && s.blocks.any fun x => x.2.slice == slice && x.2.core / 2 == e.2.2 / 2 &&
    (x.2.res == .stopping || x.2.res == .saving)
/-- `PREEMPTION_REQUEST`: the first latency-critical block that no core admits and for which a core yields victims chooses them, and they begin
Stopping (R284, R306); while another operation is in progress on the chosen tile, it waits (R315). The core chosen is kept, so that a block
takes one set of victims at a time. -/
def execPreemptionRequest (slice : Nat) (s : State) : Host.Outcome State Fault Refusal :=
  event s (
    if (s.slice slice).inReset || (s.slice slice).drain then none
    else
      let open' (c : Cand) : Option (Cand × List (Nat × Block) × Nat) :=
        if !c.l.lc || (s.placeFor slice c.l.kd).isSome || s.preempting slice c then none
        else (s.victims slice c.l.kd).bind fun v => if v.1.isEmpty || s.tileMoving slice v.2 then none else some (c, v.1, v.2)
      match (s.waiting slice).findSome? open' with
      | none => none
      | some (c, vs, core) =>
        let s := s.modSlice slice fun x => { x with pre := (c.lk, c.idx, core) :: x.pre.filter fun e => !(e.1 == c.lk && e.2.1 == c.idx) }
        some (vs.foldl (fun s e => s.modBlock e.1 fun b => { b with res := .stopping, swap := false }) s))

/-- `STOPPING_DRAIN_COMPLETE`: stores and atomics of the block have completed; its work leaves the core, its clean groups are rewound unless it is
swapped out, and its state is written (R307, R314). -/
def execStoppingDrainComplete (bid : Nat) (s : State) : Host.Outcome State Fault Refusal :=
  event s (match tget s.blocks bid with
    | none => none
    | some b =>
      if b.res != .stopping || s.reqs.any fun e => e.2.b == bid && !e.2.reads then none
      else
        let s := s.takeOff bid !b.swap
        let s := if b.swap then s else s.rewind bid
        some (s.modBlock bid fun b => { b with res := .saving }))

/-- `SAVE_COMPLETE`: the state is in the locked ways, or for a swap-out in the save area, and the resources are free; it waits for room (R307,
R309, R314, R317). -/
def execSaveComplete (bid : Nat) (s : State) : Host.Outcome State Fault Refusal :=
  event s (match tget s.blocks bid with
    | none => none
    | some b =>
      if b.res != .saving then none
      else if b.swap then
        if s.saveFree b.slice < b.savedBytes then none
        else some ((((s.modBlock bid fun b => { b with res := .swapped }).dropTlb bid).modSlice b.slice fun x =>
          { x with swapouts := (x.swapouts + 1) % 65536 }).count b.slice b.vd 0x00D 1)
      else if s.lockFree b.slice < b.savedBytes then none
      else
        let (t, s) := s.fresh
        some ((((s.modBlock bid fun b => { b with res := .saved, savedAt := t }).dropTlb bid).modSlice b.slice fun x =>
          { x with preempts := (x.preempts + 1) % 65536 }).count b.slice b.vd 0x00D 1))

/-- `SPILL_SAVED_BLOCK`: with less than 4.5 MiB of the locked ways free, the oldest Saved block goes to the save area, if it has room (R309). -/
def execSpillSavedBlock (slice : Nat) (s : State) : Host.Outcome State Fault Refusal :=
  event s (
    let saved := s.blocks.filter fun e => e.2.slice == slice && e.2.res == .saved
    let oldest := saved.foldl (fun (o : Option (Nat × Block)) e => match o with
      | none => some e
      | some f => if e.2.savedAt < f.2.savedAt then some e else some f) none
    match oldest with
    | none => none
    | some e =>
      if s.lockFree slice ≥ 4718592 || s.saveFree slice < e.2.savedBytes then none
      else some (s.modBlock e.1 fun b => { b with res := .spilled }))

/-- `RESTORE_COMPLETE`: the state is back on the core; clean groups go on in their recipes (R304, R310). -/
def execRestoreComplete (bid : Nat) (s : State) : Host.Outcome State Fault Refusal :=
  event s (match tget s.blocks bid with
    | none => none
    | some b => if b.res == .restoring then some ((s.putOn bid).checkRecipes bid) else none)

/-! ### Rotation (R311 to R313) -/

/-- A pre-emption, swap-out or restore is in progress on the slice. -/
def State.resBusy (s : State) (slice : Nat) : Bool := s.blocks.any fun e => e.2.slice == slice && match e.2.res with
  | .stopping => true
  | .saving => true
  | .restoring => true
  | _ => false
/-- The comparison of the tiles: the interval is skipped and counted while a resident block is in its hold or the slice is drained; else the
tiles are swapped if ROTEN is 1 and they differ by THRESH. -/
def State.rotate (s : State) (slice : Nat) : State :=
  let x := s.slice slice
  let here (b : Block) : Bool := b.slice == slice && b.res == .resident
  let t0 := listGet 0 x.temps 0
  let t1 := listGet 0 x.temps 1
  if !x.roten then s
  else if x.drain || s.blocks.any fun e => here e.2 && (s.launchOf e.2).any Launch.holds then
    s.modSlice slice fun x => { x with skips := (x.skips + 1) % 65536 }
  else if max t0 t1 - min t0 t1 < x.thresh then s
  else (s.blocks.filter fun e => here e.2).foldl (fun s e => (s.takeOff e.1 false).modBlock e.1 fun b => { b with res := .moving }) s
/-- `ROTATION_INTERVAL`: every 500 µs; while a deferred comparison is pending it adds none (R311). -/
def execRotationInterval (slice : Nat) (s : State) : Host.Outcome State Fault Refusal :=
  event s (
    let x := s.slice slice
    if x.inReset || s.now < x.rotNext then none
    else
      let s := s.modSlice slice fun x => { x with rotNext := x.rotNext + 500000 }
      some (if x.rotDefer then s else if s.resBusy slice then s.modSlice slice fun x => { x with rotDefer := true } else s.rotate slice))
/-- `DEFERRED_ROTATION_COMPARE` (R311, R315). -/
def execDeferredRotationCompare (slice : Nat) (s : State) : Host.Outcome State Fault Refusal :=
  event s (
    if !(s.slice slice).rotDefer || s.resBusy slice then none
    else some ((s.modSlice slice fun x => { x with rotDefer := false }).rotate slice))
/-- `ROTATION_SWAP_COMPLETE`: every block of core c is on core c XOR 2 (R312, R317). -/
def execRotationSwapComplete (slice : Nat) (s : State) : Host.Outcome State Fault Refusal :=
  event s (
    let moving := s.blocks.filter fun e => e.2.slice == slice && e.2.res == .moving
    if moving.isEmpty then none
    else
      let s := moving.foldl (fun s e => (((s.modBlock e.1 fun b => { b with core := b.core ^^^ 2 }).dropTlb e.1).putOn e.1).count slice e.2.vd 0x00D 1) s
      some (s.modSlice slice fun x => { x with rots := (x.rots + 1) % 65536 }))

/-! ### Swap-out (R314) -/

/-- `SWAP_OUT_TIMEOUT`: a tiller of a resident block has been parked on a fault for more than 20 µs, the hold of R285 does not protect the
block, and the save area has room. -/
def execSwapOutTimeout (bid : Nat) (s : State) : Host.Outcome State Fault Refusal :=
  event s (match tget s.blocks bid with
    | none => none
    | some b =>
      let late := b.groups.any fun g => g.tillers.any fun t => t.parkSince.any fun p => decide (s.now > p + 20000)
      if b.res != .resident || !late || (s.launchOf b).any Launch.holds || s.tileMoving b.slice b.core ||
          s.saveFree b.slice < b.savedBytes then none
      else some (s.modBlock bid fun b => { b with res := .stopping, swap := true }))
/-- `SWAPPED_FAULT_SERVICED`: the block waits for placement again. -/
def execSwappedFaultServiced (bid : Nat) (s : State) : Host.Outcome State Fault Refusal :=
  event s (match tget s.blocks bid with
    | none => none
    | some b => if b.res == .swapped && s.serviced b then some (s.modBlock bid fun b => { b with res := .waiting, swap := false }) else none)

/-- RES_CTL as it reads (R316). -/
def Slice.resCtl (x : Slice) : Nat := (if x.roten then 2 ^ 31 else 0) + x.lockmb * 2 ^ 16 + x.thresh * 2 ^ 8
/-- RES_STAT (R317). -/
def Slice.resStat (x : Slice) : Nat := x.preempts * 2 ^ 48 + x.rots * 2 ^ 32 + x.skips * 2 ^ 16 + x.swapouts
/-- A write of RES_CTL: LOCKMB outside 8 to 24 leaves the field unchanged (R316). -/
def Slice.setResCtl (v : Nat) (x : Slice) : Slice :=
  let m := bits v 23 16
  { x with roten := bit v 31, lockmb := if 8 ≤ m && m ≤ 24 then m else x.lockmb, thresh := bits v 15 8 }
/-- `RES_CTL_WRITE`. -/
def execResCtlWrite (slice v : Nat) (s : State) : Host.Outcome State Fault Refusal := event s (some (s.modSlice slice (Slice.setResCtl v)))

end Sys2Proof.Machine
end

