-- ==== Sys2Proof/Machine/ChanOps.lean ====
section
/-!
DEFINITION. Commands and their responses (R378, R379), answers to fault reports (R328, R329), and what the channel drops and zeroes
(R334 to R338).
-/
namespace Sys2Proof.Machine

/-! ### Commands -/

/-- Respond to a command; on the management port vector 0 follows (R378). -/
def State.reply (s : State) (c : Cmd) (status : Nat) (data : List Nat := []) (bytes : List Byte := []) : State :=
  { s with resps := s.resps ++ [{ cmd := c, status := status, data := data, bytes := bytes }],
           msix := if c.src.isNone then s.msix ++ [0] else s.msix }

/-- A command of a partition kernel (R379): STATUS 3 while the partition is Forming or Destroying; the first moves it from Booting to
Running (R373). DEDUCED: on the management port it is not a command, STATUS 1. -/
def State.partCmd (s : State) (c : Cmd) (f : Nat → Part → State → Option State) : Option State :=
  match c.src with
  | none => some (s.reply c 1)
  | some pid => match tget s.parts pid with
    | none => none
    | some p => match p.st with
      | .forming => some (s.reply c 3)
      | .destroying => some (s.reply c 3)
      | .booting => f pid { p with st := .running } { s with parts := tput s.parts pid { p with st := .running } }
      | _ => f pid p s

/-! ### Answers to reports (R328, R329) -/

/-- The fault of a token is answered. -/
def FaultRef.mark (tok : Nat) (f : FaultRef) : FaultRef := if f.token == tok then { f with resolved := true } else f
/-- A tiller parked on the fetch of its next instruction. -/
def Tiller.markFetch (tok : Nat) (t : Tiller) : Tiller :=
  { t with st := match t.st with
      | .longWait (.fetch l) => .longWait (.fetch (l.map (FaultRef.mark tok)))
      | .held (.longWait (.fetch l)) => .held (.longWait (.fetch (l.map (FaultRef.mark tok))))
      | st => st }
/-- A pending memory instruction. -/
def Pend.markFault (tok : Nat) (p : Pend) : Pend := match p.kind with
  | .mem m => { p with kind := .mem { m with faults := m.faults.map (FaultRef.mark tok) } }
  | .cond (.ctrfault va v f) => if f.token == tok then { p with kind := .cond (.ctrwait va v) } else p
  | _ => p
/-- Tell the waiter that its fault has been answered with retry. -/
def State.resolve (s : State) (tok : Nat) : Waiter → State
  | .none => s
  | .lane b g pend _ => s.modGroup b g fun gr => { gr with pend := tmod gr.pend pend (Pend.markFault tok) }
  | .fetch b g _ => s.modGroup b g fun gr => { gr with tillers := gr.tillers.map (Tiller.markFetch tok) }
  | .copy id => { s with copies := tmod s.copies id fun c => { c with fault := c.fault.map (FaultRef.mark tok) } }
  | .queue slice q => s.modSlice slice fun x => { x with heads := tmod x.heads q fun h => { h with fault := h.fault.map (FaultRef.mark tok) } }
  | .shape _ => { s with blocks := tmap (fun _ b => { b with sops := tmap (fun _ o => { o with fault := o.fault.map (FaultRef.mark tok) }) b.sops }) s.blocks }

/-- The block whose shaping operation waits for a token. -/
def State.shapeBlock (s : State) (tok : Nat) : Option Nat :=
  (s.blocks.find? fun e => e.2.sops.any fun o => o.2.fault.any fun f => f.token == tok).map Prod.fst
/-- The block fails with ABORT, or with HOME where the spill area is refused (R147, R328). -/
def State.abortBlock (s : State) (b : Nat) (r : Report) : State :=
  s.failBlock b { kind := 4, detail := if r.f.ordq then 0x60 else 0x70, va := r.va, pc := r.pc, lane := r.info % 32, acc := r.acc.code }
/-- Abort (R277, R328): the waiter's block or copy fails, or its queue's packet is rejected with CAUSE 7. -/
def State.abortWait (s : State) (tok : Nat) (r : Report) : State :=
  match r.waiter with
  | .none => s
  | .lane b _ _ _ => s.abortBlock b r
  | .fetch b _ _ => s.abortBlock b r
  | .copy id => match tget s.copies id with
    | none => s
    | some c => (s.setCopy id (c.failWith cAbort c.whr c.addr)).settleSheaves c.b c.g
  | .queue slice q => s.modSlice slice fun x => { x with heads := tmod x.heads q fun h =>
      { h with fault := none, cause := 7, met := true, pkt := some (h.pkt.getD []) } }
  | .shape id => match s.shapeBlock tok with
    | some b => (s.modBlock b fun x => { x with sops := tdel x.sops id }).abortBlock b r
    | none => s
/-- Apply an answer to a report. A record to be injected waits for room (R326): the report stays until then. -/
def State.answerReport (s : State) (id : Nat) (r : Report) : FrAns → State
  | .retry => { s with reports := tdel s.reports id }.resolve (id + 1) r.waiter
  | .abort => { s with reports := tdel s.reports id }.abortWait (id + 1) r
  | .inject => if s.noRoom r.slice r.pid r.vd then s else s.tryRecord id { r with guest := true, inject := true }

/-! ### Dropping translations and lines (R334) -/

/-- The address of a page. -/
def pageVa (vpn : Nat) (big : Bool) : Nat := vpn * (if big then 2 ^ 21 else 4096)
/-- Whether a page of a VD tag meets a range of one, or the whole VD. -/
def inRange (tag vd : Nat) (range : Option (Nat × Nat)) (va n : Nat) : Bool :=
  tag == vd && match range with
    | none => true
    | some (lo, len) => overlap va n lo len
def pageSize (big : Bool) : Nat := if big then 2 ^ 21 else 4096
/-- Drop the route TLB, walk-cache and frame-cache entries of a VD, in the slices of a partition (R334); a range in the partition-global range
names its entries for every VD. Second-stage entries of the walk cache are known by guest addresses, and all of the VD's are dropped.
DESIGN CHOICE (notes/assumptions/93.md). -/
def State.dropXlate (s : State) (pid vd : Nat) (range : Option (Nat × Nat)) : State :=
  let mine := s.sliceList pid
  let tag := match range with
    | none => vd
    | some (lo, _) => vdTag vd lo
  let step (e : WcEnt) : Nat := 2 ^ (12 + 9 * e.level)
  { s with
    cores := tmap (fun k c => if mine.contains (k / 4) then
      { c with tlb := c.tlb.filter fun e => !inRange (vdTag e.vd (pageVa e.vpn e.big)) tag range (pageVa e.vpn e.big) (pageSize e.big) } else c) s.cores
    slices := tmap (fun k x => if mine.contains k then
      { x with
        fcache := x.fcache.filter fun e => !inRange e.vd tag range (pageVa e.vpn e.big) (pageSize e.big)
        wcache := x.wcache.filter fun e => !(e.vd == tag && (e.stage == 2 || inRange e.vd tag range (e.upper * step e) (step e))) } else x) s.slices }
/-- Drop the lines of a range of a VD tag in every cache of a partition, written back where they are dirty; a read that is past its home
completes without a fill (R334). -/
def State.dropLines (s : State) (pid vd : Nat) (range : Option (Nat × Nat)) : State :=
  let mine := s.sliceList pid
  let s := mine.foldl (fun s k => s.noFill k fun q => inRange (vdTag q.vd (q.gran * 128)) vd range (q.gran * 128) 128) s
  { s with
    cores := tmap (fun k c => if mine.contains (k / 4) then { c with l1 := c.l1.filter fun x => !inRange x.vd vd range (x.gran * 128) 128 } else c) s.cores
    slices := tmap (fun k x => if mine.contains k then
      { x with scache := x.scache.filter fun y => !inRange y.vd vd range (y.gran * 128) 128 } else x) s.slices }
/-- Clear the owner entries of a range (R323, R334). -/
def State.dropOwner (s : State) (pid vd lo len : Nat) : State :=
  match tget s.parts pid with
  | none => s
  | some p =>
    let gone := p.owned.filter fun e => e.2.1 == vd && overlap (e.2.2 * 4096) 4096 lo len
    let s := gone.foldl (fun s e => match p.ownerTab with
      | some base => s.paWrite (s.leader pid) (base + 16 * e.1) (List.replicate 16 0)
      | none => s) s
    s.modPart pid fun p => { p with owned := p.owned.filter fun e => !(e.2.1 == vd && overlap (e.2.2 * 4096) 4096 lo len) }

/-! ### Scrub (R337, R338) -/

/-- The key of a job (its partition · 4 + job), and of its progress on a slice. -/
def jobKey (pid job : Nat) : Nat := pid * 4 + job
/-- The 2 MiB granules of a job as keys of `mem` over 2^21: where the map puts them. -/
def State.jobGrans (s : State) (pid : Nat) (j : ScrubJob) : List Nat :=
  let map := ((tget s.parts pid).map Part.map).getD []
  j.ranges.flatMap fun r => (upto (r.2 / 2 ^ 21)).filterMap fun i => (homeOf map (r.1 + i * 2 ^ 21)).map fun x => cell x.1 x.2 / 2 ^ 21
/-- The granules of a job homed on a slice, in ascending SLA. -/
def State.jobOn (s : State) (pid slice : Nat) (j : ScrubJob) : List Nat :=
  ((s.jobGrans pid j).filter fun g => g / 2 ^ 15 == slice).foldr (fun g l => if l.contains g then l else insertBy (fun a b => decide (a < b)) g l) []
/-- The lines of a job homed on a slice. -/
def State.jobTotal (s : State) (pid slice : Nat) (j : ScrubJob) : Nat := 16384 * (s.jobOn pid slice j).length
/-- Zero the lines of a job homed on a slice whose places in ascending SLA lie in a range. -/
def State.zeroPart (s : State) (pid slice : Nat) (j : ScrubJob) (from' to' : Nat) : State :=
  let g := s.jobOn pid slice j
  s.zeroLines fun l => (findIdx (fun x => x == l / 2 ^ 14) g).any fun i =>
    decide (from' ≤ i * 16384 + l % 16384) && decide (i * 16384 + l % 16384 < to')
/-- Step 2: the lines of the job's VD and ranges are invalidated without write-back (R337). L1 and near lines are known by virtual address only, and
a range by partition address: every one of the partition's goes. They are clean copies, and an access that misses one reads the home. -/
def State.scrubLines (s : State) (pid : Nat) (j : ScrubJob) : State :=
  let mine := s.sliceList pid
  let g := s.jobGrans pid j
  let home (y : SLine) : Bool := y.near.isNone && (y.vd == j.vd || g.contains (y.line / 2 ^ 14))
  let gone := (s.slices.filter fun e => mine.contains e.1).flatMap fun e => e.2.scache.filter home
  let s := mine.foldl (fun s k => s.noFill k fun _ => true) s
  { s with
    mem := dropDirty s.mem gone
    cores := tmap (fun k c => if mine.contains (k / 4) then { c with l1 := [] } else c) s.cores
    slices := tmap (fun k x => if mine.contains k then { x with scache := x.scache.filter fun y => y.near.isNone && !home y } else x) s.slices }
/-- Registers, local memory, accumulators and weight buffers of a block read as zero. -/
def Block.zeroed (b : Block) : Block :=
  { b with loc := [], wbL := [], wbF := [], acc := List.replicate 4 [], groups := b.groups.map fun g => { g with v := [], s := [], p := [] }
           mops := tmap (fun _ o => { o with shadow := [] }) b.mops }
/-- The follower's half of a tile block's state reads as zero: columns 128 to 255 of tiles and shadows, and the follower's weight buffer (R209). -/
def Block.zeroedFoll (b : Block) : Block :=
  let left (t : Cells Word) : Cells Word := t.filter fun e => e.1 % 256 < 128
  { b with wbF := [], acc := b.acc.map left, mops := tmap (fun _ o => { o with shadow := left o.shadow }) b.mops }
/-- The leader's half of a tile block's state, or the whole of another block's, reads as zero. -/
def Block.zeroedLead (b : Block) : Block :=
  let right (t : Cells Word) : Cells Word := t.filter fun e => e.1 % 256 ≥ 128
  let z := b.zeroed
  { z with wbF := b.wbF, acc := b.acc.map right, mops := tmap (fun _ o => { o with shadow := right o.shadow }) b.mops }
/-- Step 3: the named cores are zeroed (R337), and step 2 the state that blocks of the VD have saved in locked ways. -/
def State.scrubCores (s : State) (pid vd : Nat) (cores : List (Nat × Nat)) : State :=
  let named (slice core : Nat) : Bool := cores.any fun e => e.1 == slice && bit e.2 core
  { s with
    blocks := tmap (fun _ b =>
      if b.res.held then
        let b := if named b.slice b.core then b.zeroedLead else b
        if b.isTile && named b.slice (b.core + 1) then b.zeroedFoll else b
      else if b.res == .saved && b.pid == pid && b.vd == vd then b.zeroed else b) s.blocks
    cores := tmap (fun k c => if named (k / 4) (k % 4) then { c with ic := [] } else c) s.cores }
def State.prog (s : State) (slice job : Nat) : ScrubProg := (tget s.sprog (slice * 4 + job)).getD {}
def State.setProg (s : State) (slice job : Nat) (x : ScrubProg) : State := { s with sprog := tput s.sprog (slice * 4 + job) x }
/-- PROG as of a fabric cycle: one line a cycle is written; a part that no reset interrupted is over at TOTAL, another begins its verify pass
there (R337, R338). -/
def ScrubProg.adv (x : ScrubProg) (cycle : Nat) : ScrubProg :=
  let n := min (x.total - x.prog) (cycle - x.at')
  let full := x.prog + n == x.total
  if !x.active || !x.writing then x
  else { x with prog := x.prog + n, at' := x.at' + n, verify := full && x.resumed, active := !full || x.resumed, done := full && !x.resumed }
/-- Bring the parts of every job up to the present: a fabric cycle takes 0.5 ns (R3). -/
def State.settleScrubs (s : State) : State :=
  s.sprog.foldl (fun s e =>
    let y := e.2.adv (2 * s.now)
    let pid := ((tget s.fw (e.1 / 4)).getD {}).pid
    if y == e.2 then s
    else
      let s := match tget s.jobs (jobKey pid (e.1 % 4)) with
        | some j => s.zeroPart pid (e.1 / 4) j e.2.prog y.prog
        | none => s
      { s with sprog := tput s.sprog e.1 y }) s
/-- SCRUB_PROG as it reads (R337). -/
def ScrubProg.word (x : ScrubProg) : Nat :=
  (if x.active then 2 ^ 63 else 0) + (if x.resumed then 2 ^ 62 else 0) + (if x.verify then 2 ^ 61 else 0) + x.total * 2 ^ 32 + x.prog

/-- Whether steps 3 to 5 of a resize run (R388). -/
def Part.migrates (p : Part) : Bool := p.resize.any fun r => decide (3 ≤ r.step) && decide (r.step ≤ 5)
/-- Set a key slot on every slice of a partition. -/
def State.setKey (s : State) (pid slot : Nat) (k : KeySt) : State :=
  let mine := s.sliceList pid
  { s with slices := tmap (fun i x => if mine.contains i then { x with keys := tput x.keys slot k } else x) s.slices }
def Slice.keySt (x : Slice) (slot : Nat) : KeySt := (tget x.keys slot).getD .empty

end Sys2Proof.Machine
end

