-- ==== Sys2Proof/Machine/Channel.lean ====
section
/-!
DEFINITION. The channel's events and commands (R326 to R338).
-/
namespace Sys2Proof.Machine

/-! ### Reports (R326 to R329) -/

/-- `HELD_RECORD_WRITE`: a held record is written when the ring has room. -/
def execHeldRecordWrite (id : Nat) (s : State) : Host.Outcome State Fault Refusal :=
  event s (match tget s.reports id with
    | none => none
    | some r =>
      if !r.held then none
      else
        let t := s.tryRecord id r
        if (tget t.reports id).any fun r => r.held then none else some t)

/-- `FAULT_DOORBELL`: the guest's answer; a token that is stale or unknown, and ACTION 2 or 3, have no effect (R328). -/
def execFaultDoorbell (pid vd word : Nat) (s : State) : Host.Outcome State Fault Refusal :=
  event s (
    let tok := word % 2 ^ 32
    match tget s.reports (tok - 1) with
    | none => none
    | some r =>
      if tok == 0 || r.pid != pid || r.vd != vd || !r.guest || r.held then none
      else match bits word 33 32 with
        | 0 => some (s.answerReport (tok - 1) r .retry)
        | 1 => some (s.answerReport (tok - 1) r .abort)
        | _ => none)

/-- `FRESOLVE`: the handle of a report is its token (R329). A record to be injected waits while 256 others are held (R326). -/
def execFresolve (c : Cmd) (handle : Nat) (ans : FrAns) (s : State) : Host.Outcome State Fault Refusal :=
  event s (s.partCmd c fun pid _ s =>
    match tget s.reports (handle - 1) with
    | some r =>
      if handle == 0 || r.guest || r.pid != pid then some (s.reply c 1)
      else if ans == .inject && s.noRoom r.slice r.pid r.vd then none
      else some ((s.answerReport (handle - 1) r ans).reply c 0)
    | none => some (s.reply c 1))

/-! ### The stack (R331 to R333) -/

/-- `PATROL_READ`: one line of the pass, to which R330 is applied. -/
def execPatrolRead (slice : Nat) (s : State) : Host.Outcome State Fault Refusal :=
  event s (
    let x := s.slice slice
    if !x.patrol || x.inReset then none
    else some ((s.checkLine (lineAt slice (x.patrolPos * 128))).1.modSlice slice fun x => { x with patrolPos := (x.patrolPos + 1) % (vgran * 16384) }))
/-- A write of CH_ERR (R331). -/
def Slice.setChErr (v : Nat) (x : Slice) : Slice :=
  { x with chErrCE := if bit v 32 then 0 else x.chErrCE, chErrUE := if bit v 8 then 0 else x.chErrUE, patrol := bit v 0 }
/-- `CH_ERR_WRITE`. -/
def execChErrWrite (slice v : Nat) (s : State) : Host.Outcome State Fault Refusal := event s (some (s.modSlice slice (Slice.setChErr v)))
/-- `POWER_DOWN_ENTRY`: PDIDLE fabric cycles of 0.5 ns without a request; 0 disables (R332). -/
def execPowerDownEntry (slice pch : Nat) (s : State) : Host.Outcome State Fault Refusal :=
  event s (
    let x := s.slice slice
    if x.inReset || pch ≥ 64 || x.pdIdle == 0 || cget 0 x.pch pch != 0 || 2 * (s.now - cget 0 x.pchAt pch) < x.pdIdle then none
    else some (s.modSlice slice fun x => { x with pch := cset 0 x.pch pch 1, pchAt := cset 0 x.pchAt pch s.now }))
/-- `SELF_REFRESH_ENTRY`: SRIDLE µs in power-down; 0 disables (R332). -/
def execSelfRefreshEntry (slice pch : Nat) (s : State) : Host.Outcome State Fault Refusal :=
  event s (
    let x := s.slice slice
    if x.inReset || x.srIdle == 0 || cget 0 x.pch pch != 1 || s.now - cget 0 x.pchAt pch < 1000 * x.srIdle then none
    else some (s.modSlice slice fun x => { x with pch := cset 0 x.pch pch 2 }))

/-! ### Contexts and profiles (R321, R324, R325) -/

/-- A context image; none when a reserved bit is set or a key slot is out of range. -/
def vdCtxOf (b : List Byte) : Option VdCtx :=
  let at' (i n : Nat) := fieldAt b i n
  if b.length != 64 || (b.drop 41).any (· != 0) || at' 39 1 / 4 != 0 || at' 36 1 > 63 || at' 37 1 > 63 || at' 38 1 > 63 then none
  else some { s1root := at' 0 8, s2root := at' 8 8, frbase := at' 16 8, frdoor := at' 24 8, friid := at' 32 4, ks1 := at' 36 1, ks2 := at' 37 1,
              ks3 := at' 38 1, near := bit (at' 39 1) 0, glob := bit (at' 39 1) 1, wprof := at' 40 1 }
/-- `VDCTX`. -/
def execVdctx (c : Cmd) (vd : Nat) (img : List Byte) (s : State) : Host.Outcome State Fault Refusal :=
  event s (s.partCmd c fun pid _ s =>
    match vdCtxOf img with
    | some x => if vd ≥ 1024 then some (s.reply c 1) else some ((s.modPart pid fun p => { p with vds := tput p.vds vd x }).reply c 0)
    | none => some (s.reply c 1))
/-- `WAYPROF`: a 24-bit mask for each of 4 classes, a 2-bit code for each class and operation. -/
def execWayprof (c : Cmd) (prof : Nat) (masks pols : List Nat) (s : State) : Host.Outcome State Fault Refusal :=
  event s (s.partCmd c fun pid _ s =>
    if prof ≥ 64 || masks.length != 4 || pols.length != 12 || masks.any (fun m => decide (m ≥ 2 ^ 24)) || pols.any (fun p => decide (p ≥ 4)) then
      some (s.reply c 1)
    else some ((s.modPart pid fun p => { p with wprofs := tput p.wprofs prof { masks := masks, pol := pols } }).reply c 0))

/-! ### Page retire and shootdown (R334) -/

/-- The scrub jobs of a partition. -/
def State.jobsOf (s : State) (pid : Nat) : List (Nat × ScrubJob) := s.jobs.filter fun e => e.1 / 4 == pid

/-- Whether the page of a mapping lies in a fenced range (R337): the present walk of one of its 4 KiB ends in the fence, whatever it permits. -/
def State.fencedPage (s : State) (pid vd lo len : Nat) : Bool :=
  !(s.jobsOf pid).isEmpty && (upto (len / 4096)).any fun i => match (s.walkVa (s.leader pid) pid vd (lo + 4096 * i) { sup := true }).2 with
    | .error f => f.kind == .stage2 && f.cause == 5
    | .ok _ => false
/-- `PAGE_RETIRE`: the mapping's translations, lines and owner entry go; requests that wait at a home walk again. While steps 3 to 5 of a resize
run the command is held (R388). -/
def execPageRetire (c : Cmd) (vd va size cw : Nat) (s : State) : Host.Outcome State Fault Refusal :=
  event s (s.partCmd c fun pid p s =>
    if p.migrates then some (s.modPart pid fun p => { p with held := p.held ++ [.pageRetire c vd va size cw] })
    else if vd ≥ 1024 || size < 4096 || size != 2 ^ Nat.log2 size || va % size != 0 then some (s.reply c 1)
    else if s.fencedPage pid vd va size then some (s.reply c 3)
    else
      let tag := vdTag vd va
      let r := some (va, size)
      let s := (((s.dropXlate pid tag r).dropLines pid tag r).dropOwner pid tag va size)
      some ((s.paWrite (s.leader pid) cw (toBytes 8 1)).reply c 0))
/-- `SHOOTDOWN`: translations only (R334). -/
def execShootdown (c : Cmd) (vd : Nat) (range : Option (Nat × Nat)) (cw : Nat) (s : State) : Host.Outcome State Fault Refusal :=
  event s (s.partCmd c fun pid _ s =>
    if vd ≥ 1024 then some (s.reply c 1)
    else some (((s.dropXlate pid vd range).paWrite (s.leader pid) cw (toBytes 8 1)).reply c 0))

/-! ### Keys (R335) -/

/-- `KEY_GEN`: an Empty slot becomes Active on every slice; refused for a slot that a scrub job lists (R337). While steps 3 to 5 of a resize run the
command is held (R388). -/
def execKeyGen (c : Cmd) (slot : Nat) (s : State) : Host.Outcome State Fault Refusal :=
  event s (s.partCmd c fun pid p s =>
    if p.migrates then some (s.modPart pid fun p => { p with held := p.held ++ [.keyGen c slot] })
    else if slot == 0 || slot ≥ 64 then some (s.reply c 1)
    else if (s.slice (s.leader pid)).keySt slot != .empty || (s.jobsOf pid).any fun e => e.2.slots.contains slot then some (s.reply c 3)
    else let (k, s) := s.fresh; some ((s.setKey pid slot (.active (k + 1))).reply c 0))
/-- `KEY_ZERO`: an Active slot becomes Zeroed. DESIGN CHOICE: STATUS 3 for any other. -/
def execKeyZero (c : Cmd) (slot : Nat) (s : State) : Host.Outcome State Fault Refusal :=
  event s (s.partCmd c fun pid _ s =>
    if slot == 0 || slot ≥ 64 then some (s.reply c 1)
    else match (s.slice (s.leader pid)).keySt slot with
      | .active _ => some ((s.setKey pid slot .zeroed).reply c 0)
      | _ => some (s.reply c 3))

/-! ### Scrub jobs (R337, R338) -/

/-- The held commands of a partition are performed once step 5 has completed (R388). -/
def State.runHeld (s : State) (pid : Nat) : State :=
  let l := ((tget s.parts pid).map Part.held).getD []
  l.foldl (fun s i => match (match i with
    | .pageRetire c vd va size cw => execPageRetire c vd va size cw s
    | .keyGen c slot => execKeyGen c slot s) with
    | .next t => t
    | _ => s) (s.modPart pid fun p => { p with held := [] })
/-- `SCRUB_START`: the fence, the invalidation, the zeroing of the cores; each slice's SCRUB_PROG is ACTIVE with its TOTAL. During a resize, which
would migrate what the fence bars, STATUS is 2. DESIGN CHOICE (notes/assumptions/114.md). -/
def execScrubStart (c : Cmd) (job : Nat) (ranges : List (Nat × Nat)) (slots : List Nat) (cores : List (Nat × Nat)) (vd : Nat) (s : State) :
    Host.Outcome State Fault Refusal :=
  event s (s.partCmd c fun pid p s =>
    let bad := job ≥ 4 || ranges.length > 16 || ranges.any (fun r => r.1 % 2 ^ 21 != 0 || r.2 % 2 ^ 21 != 0 || r.2 == 0) ||
      slots.any (fun k => k == 0 || decide (k ≥ 64)) || cores.any (fun e => !p.slices.contains e.1 || decide (e.2 ≥ 16)) || vd ≥ 1024
    if bad then some (s.reply c 1)
    else if p.resize.isSome || (tget s.jobs (jobKey pid job)).isSome then some (s.reply c 2)
    else
      let j : ScrubJob := { ranges := ranges, slots := slots, cores := cores, vd := vd, cmd := c }
      let s := { s with jobs := tput s.jobs (jobKey pid job) j }
      let s := (s.scrubLines pid j).scrubCores pid vd cores
      let start (s : State) (k : Nat) : State := let n := s.jobTotal pid k j; s.setProg k job { active := n != 0, done := n == 0, total := n }
      some (p.slices.foldl start s))
/-- `SCRUB_ZERO_PHASE`: steps 2 and 3 are complete on every slice (a reset completes them on its own), and zeros are written from now on. -/
def execScrubZeroPhase (pid job : Nat) (s : State) : Host.Outcome State Fault Refusal :=
  event s (match tget s.jobs (jobKey pid job) with
    | none => none
    | some j =>
      if j.zeroing then none
      else
        let go (s : State) (k : Nat) : State :=
          if (s.slice k).inReset then s else s.setProg k job { s.prog k job with writing := true, at' := 2 * s.now }
        some ((s.sliceList pid).foldl go { s with jobs := tput s.jobs (jobKey pid job) { j with zeroing := true } }))
/-- `SCRUB_JOB_DONE`: every slice's part is zero; the fence lifts and the listed slots become Empty unless another job names them (R335). -/
def execScrubJobDone (pid job : Nat) (s : State) : Host.Outcome State Fault Refusal :=
  event s (match tget s.jobs (jobKey pid job) with
    | none => none
    | some j =>
      let s := s.settleScrubs
      if !j.zeroing || (s.sliceList pid).any fun k => !(s.prog k job).done then none
      else
        let s := { s with jobs := tdel s.jobs (jobKey pid job) }
        let free := j.slots.filter fun k => !(s.jobsOf pid).any fun e => e.2.slots.contains k
        some ((free.foldl (fun s k => s.setKey pid k .empty) s).reply j.cmd 0))
/-- `SCRUB_RESUME`: the slice's stack has been zeroed after its reset; its part goes on from PROG, with RESUMED set (R338). -/
def execScrubResume (slice job : Nat) (s : State) : Host.Outcome State Fault Refusal :=
  event s (
    let x := s.prog slice job
    let go := (tget s.jobs (jobKey ((tget s.fw slice).getD {}).pid job)).any ScrubJob.zeroing
    if !(s.slice slice).inReset || !x.active || x.writing || !go then none
    else some (((s.zeroLines fun l => l / 2 ^ 29 == slice).modSlice slice fun y => { y with zeroed := true }).setProg slice job
      { x with writing := true, at' := 2 * s.now, resumed := true }))
/-- `VERIFY_PASS`: PROG has reached TOTAL, the lines below the PROG held at the reset are verified, one a fabric cycle, and the slice's part is
over (R338). -/
def execVerifyPass (slice job : Nat) (s : State) : Host.Outcome State Fault Refusal :=
  event s (
    let s := s.settleScrubs
    let x := s.prog slice job
    let f := (tget s.fw slice).getD {}
    if !x.active || !x.verify || 2 * s.now < x.at' + x.heldProg then none
    else match tget s.jobs (jobKey f.pid job) with
      | none => none
      | some j => some ((s.zeroPart f.pid slice j 0 x.heldProg).setProg slice job { x with active := false, verify := false, writing := false, done := true }))

end Sys2Proof.Machine
end

