-- ==== Sys2Proof/Machine/PowerOps.lean ====
section
/-!
DEFINITION. Resetting a slice (R26, R383, R388) and letting it rejoin; the operating point, the votes and the rails (R414, R415, R420).
-/
namespace Sys2Proof.Machine

/-- The slices of the package, by `%slice` (R9). -/
def PkgPart.slices : PkgPart → List Nat
  | .ts4 => [0, 1, 8, 9]
  | .ts16 => upto 16
/-- FW_CTL of a slice. -/
def State.fwOf (s : State) (k : Nat) : FwCtl := (tget s.fw k).getD {}
def State.setFw (s : State) (k : Nat) (f : FwCtl → FwCtl) : State := { s with fw := tput s.fw k (f (s.fwOf k)) }
/-- FW_CTL as it reads (R374). -/
def FwCtl.word (f : FwCtl) : Nat := (if f.asgn then 2 ^ 31 else 0) + (if f.excl then 2 ^ 30 else 0) + (if f.hold then 2 ^ 29 else 0) + f.pid
/-- The partition that owns a slice. -/
def State.ownerPart (s : State) (k : Nat) : Option (Nat × Part) :=
  let f := s.fwOf k
  if f.asgn then (tget s.parts f.pid).map fun p => (f.pid, p) else none

/-! ### Reset (R383) -/

/-- A block ends as failed without a record (R383). -/
def State.loseBlock (s : State) (bid : Nat) (b : Block) : State :=
  let s := { s with blocks := tdel s.blocks bid, copies := s.copies.filter (fun e => e.2.b != bid) }
  let f : Fail := { kind := 0, detail := 0 }
  s.modLaunch b.lk fun l =>
    let low := decide (b.idx < l.first)
    { l with nfail := l.nfail + 1, first := if low then b.idx else l.first, fcode := if low then f.fcode else l.fcode }
/-- Whether a block is carried by a resize (R383, R387): its state is in the save area of the leaving slice. -/
def Part.carries (p : Part) (k : Nat) (b : Block) : Bool :=
  (p.resize.any fun r => !r.add && r.slice == k && decide (2 ≤ r.step)) && (b.res == .swapped || b.res == .spilled || b.res == .waiting)
/-- A request at the home of a reset slice is answered "slice in reset" (R21). -/
def State.refuseReq (s : State) (rid : Nat) (r : Req) : State :=
  let s := s.passNum r
  let (m, s) := s.post .rsp r.pid r.home r.slice rid {} (some .home)
  { s with reqs := tput s.reqs rid { r with st := .failBack m { kind := .home } } }
/-- Whether the home has answered a request. -/
def ReqSt.answered : ReqSt → Bool
  | .walk _ => false
  | .going _ => false
  | .atHome => false
  | .frame _ => false
  | .stamped => false
  | _ => true
/-- Whether a request stands at its home. -/
def ReqSt.homed : ReqSt → Bool
  | .atHome => true
  | .frame _ => true
  | .stamped => true
  | _ => false
/-- A remote operation that is in progress: not a suspended copy to a peer of which nothing is on its way (R363). -/
def State.ropBusy (s : State) (o : RemOp) : Bool := match o.kind with
  | .cpy id => o.left != 0 || !((tget s.copies id).any fun c => match c.st with
      | .suspended _ => true
      | _ => false)
  | _ => true
/-- Something that a block has asked for is still on its way: its saved state is not complete. -/
def State.awaits (s : State) (bid : Nat) : Bool := (s.reqs.any fun e => e.2.b == bid) || s.rops.any fun e => e.2.b == bid && s.ropBusy e.2
/-- A scrub part that a reset interrupts: it stops at its PROG, and SCRUB_PROG is kept (R6, R337, R338). -/
def State.cutScrub (s : State) (k job : Nat) : State :=
  let x := s.prog k job
  if !x.active then s else s.setProg k job { x with writing := false, heldProg := x.prog }
/-- Reset a slice (R26, R383): HOLD is set; its started blocks end as failed but for those whose state a resize carries; what its engines held is
gone, and the numbers of its writes that no home will see are passed (R140); the positions of its queue heads stay. DEDUCED
(notes/assumptions/95.md). -/
def State.resetSlice (s : State) (k : Nat) : State :=
  let s := s.setFw k fun f => { f with hold := true }
  let own := s.ownerPart k
  let kept (e : Nat × Block) : Bool := (own.any fun p => p.2.carries k e.2) && !s.awaits e.1
  let lost := s.blocks.filter fun e => e.2.slice == k && !kept e
  let s := (s.reqs.filter fun e => e.2.slice == k && !e.2.st.answered).foldl (fun s e => s.passNum e.2) s
  let s := lost.foldl (fun s e => s.loseBlock e.1 e.2) s
  let s := (upto 4).foldl (fun s j => s.cutScrub k j) s.settleScrubs
  let s : State := { s with
    reqs := s.reqs.filter fun e => e.2.slice != k
    walks := s.walks.filter fun e => e.2.slice != k
    ordq := s.ordq.filter fun e => e.home != k
    rops := s.rops.filter fun e => e.2.slice != k || (tget s.blocks e.2.b).isSome
    conns := s.conns.filter fun e => e.1 / 1024 != k
    cores := tmap (fun i c => if i / 4 == k then {} else c) s.cores
    quarters := tmap (fun i q => if i / 16 == k then {} else q) s.quarters
    slices := tput s.slices k { heads := (s.slice k).heads.map fun e => (e.1, { n := e.2.n }), map := (s.slice k).map,
                                 keys := tmap (fun _ v => if v == .empty then .empty else .zeroed) (s.slice k).keys }
    harts := s.harts.filter fun e => e.1 / 8 != k }
  let s := (s.reqs.filter fun e => e.2.home == k && e.2.st.homed).foldl (fun s e => s.refuseReq e.1 e.2) s
  let gone := s.reports.filter fun e => e.2.slice == k
  let s := gone.foldl (fun s e => s.answerReport e.1 e.2 .retry) s
  let s := match own with
    | some (pid, p) => s.modPart pid fun q => { q with resize := p.resize.map fun r =>
        if !r.add && r.slice == k && 2 ≤ r.step && r.step ≤ 3 then { r with lost := true } else r }
    | none => s
  lost.foldl (fun s e => s.sendDone e.2.lk k) s
/-- The trust controller resets a slice and tells its owner and the port (R382, R383). -/
def State.resetEvent (s : State) (k : Nat) : State :=
  let s := s.resetSlice k
  let s := match s.ownerPart k with
    | some (pid, _) => s.postEvent pid .sliceReset k 0
    | none => s
  s.portEvent .sliceReset k 0
/-- Codes of 100, 105 and 115 °C (R417, R419). -/
def code100 : Nat := 560
def code105 : Nat := 580
def code115 : Nat := 620
/-- A slice leaves reset: its sensors are sampled first, with readings that are not the spec's to give but never 0 (R419), to which the limits of
R419 apply; its intervals begin. -/
def State.leaveReset (s : State) (k : Nat) : State :=
  let (a, s) := s.choose 1023
  let (b, s) := s.choose 1023
  let hot := max a b + 1
  let x : Slice := { (s.slice k) with inReset := false, temps := [a + 1, b + 1], hot := decide (code105 ≤ hot),
                                      rotNext := s.now + 500000, winEnd := s.now + 1000000, thermAt := s.now + 10000 }
  let s := { s with
    slices := tput s.slices k x
    cores := (upto 4).foldl (fun l c => tput l (coreKey k c) {}) s.cores
    quarters := (upto 16).foldl (fun l q => tput l (16 * k + q) {}) s.quarters }
  if code115 ≤ hot then s.resetEvent k else s

/-! ### Operating point and rails (R414, R415, R417, R420) -/

/-- The column of a slice. -/
def column (k : Nat) : Nat := k % 8
/-- The vote in force: a free or excluded slice votes 0 (R377, R420). -/
def State.voteOf (s : State) (k : Nat) : Nat := if (s.fwOf k).asgn then (s.slice k).vote else 0
/-- The highest vote of a column. -/
def State.maxVote (s : State) (col : Nat) : Nat := ((s.part.slices.filter fun k => column k == col).map s.voteOf).foldl max 0
def State.rail (s : State) (col : Nat) : Rail := (tget s.rails col).getD {}
def State.setRail (s : State) (col : Nat) (r : Rail) : State := { s with rails := tput s.rails col r }
/-- Count the clocks of a slice up to now, before its frequency changes (R17). -/
def State.tick (s : State) (k : Nat) : State := s.modSlice k fun x => { x with clk := s.clocks k, clkAt := s.now }
/-- The operating point to which a slice is on its way. -/
def Slice.aim (x : Slice) : Nat := if x.rising then x.want else x.k
/-- Move K (R415): a fall lowers K, and the vote once the clock has fallen; a raise lifts the vote, never below what a clock that still falls needs,
cancels a settle, and K follows once the rail reports the voltage. A move to the present K ends a raise that waits. A slice that is free or excluded
votes 0 and is not raised (R420). -/
def State.setK (s : State) (slice k : Nat) : State :=
  let x := s.slice slice
  if k < x.k then (s.tick slice).modSlice slice fun x => { x with k := k, falling := true, rising := false }
  else if x.k < k then
    if !(s.fwOf slice).asgn then s
    else
      let col := column slice
      (s.modSlice slice fun x => { x with vote := if x.falling then max x.vote k else k, want := k, rising := true }).setRail col { s.rail col with settle := none }
  else if x.rising then s.modSlice slice fun x => { x with rising := false, falling := true }
  else s
/-- Lower K by one step. -/
def State.stepDown (s : State) (slice : Nat) : State := s.setK slice ((s.slice slice).k - 1)

end Sys2Proof.Machine
end

