-- ==== Sys2Proof/Machine/Power.lean ====
section
/-!
DEFINITION. The power controller's events (R415 to R420) and those of the package input (R428).
-/
namespace Sys2Proof.Machine

/-- PWR_CTL and PWR_STAT as they read (R417). -/
def Slice.pwrCtl (x : Slice) : Nat := x.shi * 2 ^ 24 + x.slo * 2 ^ 16 + x.kmax * 2 ^ 8 + x.kmin
def passCode (n : Nat) : Nat := if n == 4 then 2 else if n == 2 then 1 else 0
def State.pwrStat (s : State) (k : Nat) : Nat :=
  let x := s.slice k
  listGet 0 x.temps 1 * 2 ^ 54 + listGet 0 x.temps 0 * 2 ^ 44 + (s.rail (column k)).level * 2 ^ 34 + s.voteOf k * 2 ^ 28 + x.k * 2 ^ 22 +
    passCode x.passc * 2 ^ 20 + x.alarms * 2 ^ 8 + x.sval
/-- A write of PWR_CTL: KMIN above KMAX, or either above 40, leaves the register unchanged; K, and a raise that waits for its rail, moves to a new
bound at once (R417). -/
def State.setPwrCtl (s : State) (slice v : Nat) : Option State :=
  let kmax := bits v 13 8
  let kmin := bits v 5 0
  if kmin > kmax || kmax > 40 then none
  else
    let s := s.modSlice slice fun x => { x with shi := bits v 31 24, slo := bits v 23 16, kmax := kmax, kmin := kmin }
    let k := (s.slice slice).aim
    some (if kmax < k then s.setK slice kmax else if k < kmin then s.setK slice kmin else s)
/-- `PWR_CTL_WRITE`. -/
def execPwrCtlWrite (slice v : Nat) (s : State) : Host.Outcome State Fault Refusal := event s (s.setPwrCtl slice v)
/-- S of a window (R416). -/
def sensitivity (iss mst : Nat) : Nat := if iss + mst == 0 then 256 else 256 * iss / (iss + mst)
/-- The target of a window's end by the table of R416; SLO ≥ SHI disables lowering (R417). -/
def Slice.tableK (x : Slice) (sv : Nat) : Nat :=
  if sv < x.slo && x.slo < x.shi then max x.kmin (x.k - 1) else if sv > x.shi then min x.kmax (x.k + 1) else x.k
/-- The operating point set at a window's end (R416): nothing is raised while an alarm stood in the window (R418) or heat lowers k (R419), and
another raise that waits for its rail stays. -/
def Slice.windowK (x : Slice) (sv : Nat) : Nat :=
  let t := x.tableK sv
  if t < x.k then t else if x.rising then max x.want t else if x.winAlarm || x.alarm || x.hot then x.k else t
/-- `POWER_WINDOW_END`: every 1 ms of reference time. ISS and MST are measured in clocks, which the model does not count: they are free. -/
def execPowerWindowEnd (slice : Nat) (s : State) : Host.Outcome State Fault Refusal :=
  event s (
    let x := s.slice slice
    if x.inReset || s.now < x.winEnd then none
    else
      let (iss, s) := s.choose (2 ^ 32)
      let (mst, s) := s.choose (2 ^ 32)
      let sv := sensitivity iss mst
      some ((s.modSlice slice fun x => { x with sval := min sv 255, winEnd := x.winEnd + 1000000, winAlarm := x.alarm }).setK slice (x.windowK sv)))
/-- `RAIL_VOLTAGE_REACHED`: the rail holds the highest vote, and raises of K that waited for it take effect (R415, R420). -/
def execRailVoltageReached (col : Nat) (s : State) : Host.Outcome State Fault Refusal :=
  event s (
    let lv := max (s.rail col).level (s.maxVote col)
    let wait := s.slices.any fun e => column e.1 == col && e.2.rising
    if lv == (s.rail col).level && !wait then none
    else
      let s := s.setRail col { level := lv, settle := none }
      some { s with slices := tmap (fun k x => if column k == col && x.rising && x.want ≤ lv then
        { x with k := x.want, rising := false, clk := s.clocks k, clkAt := s.now } else x) s.slices })
/-- `FREQUENCY_CHANGE_COMPLETE`: after a fall of the clock the vote follows (R415). -/
def execFrequencyChangeComplete (slice : Nat) (s : State) : Host.Outcome State Fault Refusal :=
  event s (if (s.slice slice).falling then some (s.modSlice slice fun x => { x with vote := x.aim, falling := false }) else none)
/-- `RAIL_FALL_CONFIRM`: the highest vote is below the rail, and every slice of the column has its K within its vote (R420). -/
def execRailFallConfirm (col : Nat) (s : State) : Host.Outcome State Fault Refusal :=
  event s (
    let r := s.rail col
    let within := s.slices.all fun e => column e.1 != col || e.2.inReset || decide (e.2.k ≤ s.voteOf e.1)
    if r.level ≤ s.maxVote col || r.settle.isSome || !within then none
    else some (s.setRail col { r with settle := some (s.now + 20000), target := s.maxVote col }))
/-- `RAIL_SETTLE_EXPIRY`: 20 µs after the confirmation the rail falls to the maximum that was confirmed; a vote that has fallen since takes a
confirmation and a settle of its own (R420). -/
def execRailSettleExpiry (col : Nat) (s : State) : Host.Outcome State Fault Refusal :=
  event s (match (s.rail col).settle with
    | some t => if s.now < t then none else some (s.setRail col { level := max (s.rail col).target (s.maxVote col) })
    | none => none)

/-! ### Alarms (R418) and heat (R419) -/

/-- An alarm is raised in a slice: `PASSC` goes to 2, or to 4 where it is 2. -/
def Slice.alarmUp (now : Nat) (x : Slice) : Slice :=
  { x with alarms := (x.alarms + 1) % 256, alarm := true, alarmAt := now, winAlarm := true, passc := if x.passc == 1 then 2 else 4 }
/-- `CURRENT_LIMIT_ALARM`. -/
def execCurrentLimitAlarm (slice : Nat) (s : State) : Host.Outcome State Fault Refusal :=
  event s (if (s.slice slice).inReset then none else some (s.modSlice slice (Slice.alarmUp s.now)))
/-- `ALARM_PERSIST_1US`: at `PASSC` 2. -/
def execAlarmPersist1us (slice : Nat) (s : State) : Host.Outcome State Fault Refusal :=
  event s (
    let x := s.slice slice
    if !x.alarm || x.passc != 2 || s.now < x.alarmAt + 1000 then none
    else some (s.modSlice slice fun x => { x with passc := 4, alarmAt := s.now }))
/-- `ALARM_PERSIST_10US`: at `PASSC` 4 k falls by one step per 10 µs. -/
def execAlarmPersist10us (slice : Nat) (s : State) : Host.Outcome State Fault Refusal :=
  event s (
    let x := s.slice slice
    if !x.alarm || x.passc != 4 || s.now < x.alarmAt + 10000 then none
    else some ((s.modSlice slice fun x => { x with alarmAt := s.now }).stepDown slice))
/-- `CURRENT_LIMIT_ALARM_CLEAR`. -/
def execCurrentLimitAlarmClear (slice : Nat) (s : State) : Host.Outcome State Fault Refusal :=
  event s (if (s.slice slice).alarm then some (s.modSlice slice fun x => { x with alarm := false, calmAt := s.now }) else none)
/-- `ALARM_CLEAR_50US`: `PASSC` falls by one level. -/
def execAlarmClear50us (slice : Nat) (s : State) : Host.Outcome State Fault Refusal :=
  event s (
    let x := s.slice slice
    if x.alarm || x.passc == 1 || s.now < x.calmAt + 50000 then none
    else some (s.modSlice slice fun x => { x with passc := x.passc / 2, calmAt := s.now }))
/-- `THERMAL_SAMPLE`: every 10 µs; k falls from 105 °C until both sensors read below 100 °C; at 115 °C the slice is reset. -/
def execThermalSample (slice t0 t1 : Nat) (s : State) : Host.Outcome State Fault Refusal :=
  event s (
    let x := s.slice slice
    if x.inReset || s.now < x.thermAt || t0 ≥ 1024 || t1 ≥ 1024 then none
    else
      let hot := max t0 t1 ≥ code105 || (x.hot && decide (max t0 t1 ≥ code100))
      let s := s.modSlice slice fun x => { x with temps := [t0, t1], thermAt := x.thermAt + 10000, hot := hot }
      some (if max t0 t1 ≥ code115 then s.resetEvent slice else if hot then s.stepDown slice else s))

/-! ### Package input (R369, R428) -/

/-- Power-on reset: everything but the fuses and the part starts again; `free` counts on, and the agenda, which is the outside world's, goes on. -/
def State.powerOn (s : State) : State := { State.reset with part := s.part, fuses := s.fuses, free := s.free, agenda := s.agenda }
def execPackagePowerOnReset (s : State) : Host.Outcome State Fault Refusal := event s (some s.powerOn)
/-- `INPUT_BROWNOUT`: below 36 V the package enters power-on reset. -/
def execInputBrownout (s : State) : Host.Outcome State Fault Refusal := event s (if s.powered then some s.powerOn else none)
/-- `INPUT_OVERVOLTAGE`: above 60 V the part is disconnected, as in a power-off. -/
def execInputOvervoltage (s : State) : Host.Outcome State Fault Refusal :=
  event s (some { s.powerOn with powered := false, bootStep := 0 })
/-- `INPUT_UNDERVOLTAGE`: a current-limit alarm in every slice. -/
def execInputUndervoltage (s : State) : Host.Outcome State Fault Refusal :=
  event s (if s.powered then some { s with slices := tmap (fun _ x => if x.inReset then x else x.alarmUp s.now) s.slices } else none)

end Sys2Proof.Machine
end

