-- ==== Sys2Proof/Machine/NetOps.lean ====
section
/-!
DEFINITION. The network engine's operations (13): packets (R343), peers (R342, R347, R348, R350), sending (R345, R346, R349), the ends of remote
operations (R352), frames (R339, R340). The sizes of an ACK's fields, the codes of AUX for an atomic, and where an ACK and a response name the
sending slice are DESIGN CHOICES.
-/
namespace Sys2Proof.Machine

/-! ### Packets (R343) -/

/-- The header's bytes and the payload. -/
def GPkt.bytes (p : GPkt) : List Byte :=
  toBytes 1 1 ++ toBytes 1 p.typ ++ toBytes 1 p.sslice ++ toBytes 1 p.ctl ++ toBytes 2 p.dpeer ++ toBytes 2 0 ++ toBytes 4 p.psn ++ toBytes 4 p.msg ++
  toBytes 8 p.va ++ toBytes 4 p.len ++ toBytes 4 p.aux ++ p.payload
/-- Types of packets. -/
def tWrite : Nat := 1
def tReadReq : Nat := 2
def tReadRsp : Nat := 3
def tAtomic : Nat := 4
def tAtomicRsp : Nat := 5
def tFlag : Nat := 6
def tNote : Nat := 7
def tAck : Nat := 8
/-- A control packet (R345). -/
def isCtl (t : Nat) : Bool := t == tAtomic || t == tFlag || t == tNote
/-- A packet and its tag from bytes; none for a malformed one. -/
def gpktOf (b : List Byte) : Option (GPkt × List Byte) :=
  let at' (i n : Nat) := fieldAt b i n
  let pay := (b.drop 32).take (b.length - 48)
  let data := at' 1 1 != tReadReq
  if b.length < 48 || at' 0 1 != 1 || at' 1 1 == 0 || at' 1 1 > 8 || at' 6 2 != 0 || at' 24 4 > 4096 || (data && pay.length != at' 24 4) then none
  else some ({ typ := at' 1 1, sslice := at' 2 1, ctl := at' 3 1, dpeer := at' 4 2, psn := at' 8 4, msg := at' 12 4, va := at' 16 8, len := at' 24 4,
               aux := at' 28 4, payload := pay }, b.drop (b.length - 16))
/-- The tag of a packet under a key: SM4-GMAC, an external standard. -/
def tagOf (key : List Byte) (p : GPkt) : List Byte := toBytes 16 (Config.packetTag key p.bytes).toNat

/-! ### Causes (R352) -/

def rcHandle : Nat := 1
def rcDown : Nat := 2
def rcRefused : Nat := 3
def rcFault : Nat := 4
def rcPoison : Nat := 5
def rcSheaf : Nat := 6
def rcGeom : Nat := 8
/-- CAUSE in `cstat` of a cause code. -/
def cstatCause (rc : Nat) : Nat := listGet 10 [0, 10, 10, 1, 10, 2, 0, 8, 5, 4, 9, 3, 7, 10, 1] rc

/-! ### Peers (R342, R350) -/

/-- A peer entry from its 64 bytes; none when it breaks a limit. -/
def peerOf (b : List Byte) : Option Peer :=
  let at' (i n : Nat) := fieldAt b i n
  let p : Peer := { rdev := at' 0 8, rpart := at' 8 1, st := at' 9 1, lvd := at' 10 2, rvd := at' 12 2, rpeer := at' 14 2, addr0 := at' 16 1, naddr := at' 17 1,
                    npath := at' 18 1, perm := at' 19 1, rto0 := at' 20 4, nring := at' 24 8, niid := at' 32 4, key := (b.drop 48).take 16 }
  if b.length != 64 || p.rpart > 15 || p.st > 1 || p.lvd ≥ 1024 || p.rvd ≥ 1024 || p.rpeer ≥ 1024 || p.naddr == 0 || p.naddr > 16 || p.npath == 0 || p.npath > 64 ||
      p.perm ≥ 32 || p.rto0 < 10 || p.rto0 > 10000 || p.addr0 + p.naddr > 256 || ((b.drop 36).take 12).any (· != 0) then none
  else some p
def State.peerAt (s : State) (pid i : Nat) : Option Peer := ((tget s.parts pid).bind fun p => tget p.peers i).bind fun e => if e.st == 0 then none else some e
/-- The address of an entry of the address table. -/
def State.addrAt (s : State) (pid i : Nat) : Nat := ((tget s.parts pid).map fun p => cget 0 p.addrs i).getD 0
/-- The failure of an operation on a handle, if it fails at issue (R341, R350). -/
def State.handleCause (s : State) (slice pid vd h : Nat) : Option Nat :=
  match if h / 1024 != 0 then none else s.peerAt pid h with
  | none => some rcHandle
  | some e => if e.lvd != vd || !bit e.perm 0 then some rcHandle else if e.st == 2 || !(s.slice slice).gen then some rcDown else none

/-! ### Sending (R345, R346, R349) -/

/-- Fields of NET_CC (R349). -/
def ccRai (v : Nat) : Nat := bits v 63 48
def ccG (v : Nat) : Nat := max 1 (bits v 47 40)
def ccTupd (v : Nat) : Nat := bits v 31 16
def ccRmin (v : Nat) : Nat := bits v 15 0
/-- The key of a connection's sending side. -/
def connKey (slice peer : Nat) : Nat := slice * 1024 + peer
/-- A new connection's first update is one interval away. -/
def State.conn (s : State) (slice peer : Nat) : Conn :=
  (tget s.conns (connKey slice peer)).getD { rateAt := s.now + 1000 * max 1 (ccTupd (s.slice slice).netCC) }
def State.setConn (s : State) (slice peer : Nat) (c : Conn) : State := { s with conns := tput s.conns (connKey slice peer) c }
/-- Put a packet on a connection's queue. -/
def State.enqueue (s : State) (slice peer : Nat) (op : Option Nat) (p : GPkt) : State :=
  let c := s.conn slice peer
  s.setConn slice peer { c with queue := c.queue ++ [(op, { p with sslice := slice })] }
/-- The ones' complement sum of 16-bit words. -/
def sum16 : List Byte → Nat
  | [] => 0
  | [a] => a.toNat * 256
  | a :: b :: t => a.toNat * 256 + b.toNat + sum16 t
def fold16 (n : Nat) : Nat := let m := n % 65536 + n / 65536; m % 65536 + m / 65536
/-- The UDP checksum of a datagram (R339): the words of an IPv4-mapped address above its low 32 bits add 0 or 0xFFFF, which changes no ones'
complement sum, so one sum serves IPv4 and IPv6. -/
def udpSum (src dst sport dport : Nat) (data : List Byte) : Nat :=
  let len := 8 + data.length
  let n := fold16 (sum16 (toBytes 16 src).reverse + sum16 (toBytes 16 dst).reverse + 17 + len + sport + dport + len + sum16 data)
  if n == 65535 then 65535 else 65535 - n
/-- A packet leaves by the port on a path, from the slice's own Golris address (R339, R341, R342, R346). -/
def State.emit (s : State) (slice pid : Nat) (e : Peer) (path : Nat) (p : GPkt) : State :=
  let x := s.slice slice
  let src := s.addrAt pid slice
  let dst := s.addrAt pid (e.addr0 + path % max e.naddr 1)
  let d := p.bytes ++ tagOf e.key p
  { s with wire := s.wire ++ [{ slice := slice, src := src, dst := dst, sport := 49152 + path, dport := x.gport, sum := udpSum src dst (49152 + path) x.gport d,
                                ect := x.ect, vid := x.vid, bytes := d }] }
/-- The time in ns that a packet takes at the connection's rate. -/
def Conn.pace (c : Conn) (bytes : Nat) : Nat := ((bytes * 8000 : Rat) / c.rate).ceil.toNat

/-! ### Ends of remote operations (R352) -/

/-- A group's remote status takes a failure (R358): the first since the last clear is kept. -/
def Group.remFail (g : Group) (cause peer : Nat) : Group := if g.rsAny then g else { g with rsAny := true, rsCause := cause, rsPeer := peer }
/-- The destination of an atomic is written and its pending entry ends (R355); an acquire follows. -/
def State.endAtom (s : State) (o : RemOp) (pend : Nat) (wr : List Wr) : State :=
  let s := s.modGroup o.b o.g fun g => (wr.foldl Group.put g).complete pend
  if o.acq then match tget s.blocks o.b with
    | some b => s.acquire b.slice b.core b.vd .sys
    | none => s
  else s
/-- A remote copy is over: Done with its arrival, or Failed (R353, R354). -/
def State.endRemCopy (s : State) (id : Nat) (fail : Option (Nat × Nat)) : State :=
  match tget s.copies id with
  | none => s
  | some k =>
    if k.st.over then s
    else match fail with
      | some (rc, va) => (s.setCopy id { (k.failWith (cstatCause rc) 2 va) with rcause := rc }).settleSheaves k.b k.g
      | none =>
        let r := match k.arv, tget s.blocks k.b with
          | some o, some b => (match b.arriveAt o 1 with
            | (b, true) => ({ s with blocks := tput s.blocks k.b b }, { k with st := .done })
            | (_, false) => (s, k.failWith cBarobj 6 o))
          | _, _ => (s, { k with st := .done })
        (r.1.setCopy id r.2).settleSheaves k.b k.g
/-- A remote operation fails (R352). -/
def State.failOp (s : State) (id : Nat) (o : RemOp) (rc : Nat) : State :=
  let s := { s with rops := tdel s.rops id }
  let st (s : State) : State := s.modGroup o.b o.g fun g => g.remFail rc o.peer
  match o.kind with
  | .cpy c => s.endRemCopy c (some (rc, ((tget s.copies c).map fun k => (k.dstAt 0).addr).getD 0))
  | .get c => s.endRemCopy c (some (rc, ((tget s.copies c).map fun k => k.a).getD 0))
  | .atom p _ _ => (st s).endAtom { o with acq := false } p []
  | .flag => st s
  | .note => st s
/-- Golris is switched off on a slice (R341): each of its operations fails with DOWN, and what it has not sent is discarded. A packet that is not
acknowledged keeps its PSN, which the peer awaits, and is sent again once Golris is on. DEDUCED (notes/assumptions/96.md). -/
def State.golrisOff (s : State) (slice : Nat) : State :=
  let s := { s with conns := tmap (fun k c => if k / 1024 == slice then { c with queue := [] } else c) s.conns }
  (s.rops.filter fun e => e.2.slice == slice).foldl (fun s e => s.failOp e.1 e.2 rcDown) s
/-- A peer goes down (R347): its STATE is 2 on every slice, every operation on it fails with DOWN, and nothing of its connections waits. -/
def State.peerDown (s : State) (pid peer : Nat) : State :=
  let s := s.modPart pid fun p => { p with peers := tmod p.peers peer fun e => { e with st := 2 } }
  let mine := s.sliceList pid
  let s := { s with conns := tmap (fun k c => if k % 1024 == peer && mine.contains (k / 1024) then { c with queue := [], sent := [] } else c) s.conns }
  (s.rops.filter fun e => e.2.pid == pid && e.2.peer == peer).foldl (fun s e => s.failOp e.1 e.2 rcDown) s
/-- Discard a connection's state on every slice (R342, R348). -/
def State.dropConn (s : State) (pid peer : Nat) : State :=
  let mine := s.sliceList pid
  { s with conns := s.conns.filter fun e => !(e.1 % 1024 == peer && mine.contains (e.1 / 1024))
           rcvs := s.rcvs.filter fun e => !(e.2.pid == pid && e.2.peer == peer) }
/-- The lower of two refusals by address. -/
def lowFail : Option (Nat × Nat) → Nat × Nat → Option (Nat × Nat)
  | some a, b => if b.2 < a.2 then some b else some a
  | none, b => some b
/-- A packet of an operation is acknowledged, with a refusal's cause or 0 (R345, R352 to R357). -/
def State.ackOp (s : State) (id : Nat) (p : GPkt) (rc : Nat) : State :=
  match tget s.rops id with
  | none => s
  | some o =>
    let o := if rc != 0 then { o with fail := lowFail o.fail (rc, p.va) } else o
    match o.kind with
    | .cpy c =>
      let o := { o with left := o.left - p.len }
      let whole := (tget s.copies c).all fun k => k.st.over || k.next == k.total
      if o.left == 0 && whole then { s with rops := tdel s.rops id }.endRemCopy c o.fail else { s with rops := tput s.rops id o }
    | .get c =>
      if rc == 0 then s
      else
        let o := { o with left := o.left - p.len }
        if o.left == 0 then { s with rops := tdel s.rops id }.endRemCopy c o.fail else { s with rops := tput s.rops id o }
    | .atom _ _ _ => if rc != 0 then s.failOp id o rc else { s with rops := tput s.rops id { o with fenced := false } }
    | _ => if rc != 0 then s.failOp id o rc else { s with rops := tdel s.rops id }
/-- The operation that a response is for, by the requesting slice, the peer and MSG. -/
def State.opOf (s : State) (pid slice peer msg : Nat) : Option (Nat × RemOp) :=
  s.rops.find? fun e => e.2.pid == pid && e.2.slice == slice && e.2.peer == peer && e.2.msg == msg
/-- The traversal indices of `rget` whose remote byte is at an address. -/
def Copy.remoteAt (c : Copy) (va : Nat) : List Nat := (upto c.total).filter fun x => (c.a + x / c.rb * c.spitch + x % c.rb) % 2 ^ 64 == va
/-- Read data from a peer (R354): it waits in the engine until every byte has come. -/
def State.gotData (s : State) (id : Nat) (o : RemOp) (c : Nat) (p : GPkt) : State :=
  let s := { s with copies := tmod s.copies c fun k =>
    { k with aux := (k.remoteAt p.va).foldl (fun l x => splice l x (p.payload.take (k.rb - x % k.rb))) k.aux } }
  let o := { o with left := o.left - p.len }
  if o.left == 0 then
    let s := { s with rops := tdel s.rops id }
    if o.fail.isSome then s.endRemCopy c o.fail else s
  else { s with rops := tput s.rops id o }
/-- The old value of a remote atomic arrives (R355). -/
def State.gotAtom (s : State) (id : Nat) (o : RemOp) (p : GPkt) : State :=
  match o.kind with
  | .atom pend d t => { s with rops := tdel s.rops id }.endAtom o pend [.s d (extend t (ofBytes (p.payload.take (t.width / 8)) % 2 ^ t.width))]
  | _ => s

/-! ### Reading a copy's source (R353) -/

/-- Bytes of a packet from traversal index x on: within a row and a 4 KiB page. -/
def Copy.chunk (c : Copy) (x va : Nat) : Nat := min (c.rb - x % c.rb) (4096 - va % 4096)
/-- Read n bytes of a copy's source from index x on: the bytes before the first that faults. -/
def State.srcGo (b : Block) (c : Copy) : Nat → State → Nat → State × List Byte × Option CpStop
  | 0, s, _ => (s, [], none)
  | n + 1, s, x => match c.srcAt x with
    | none => (s, [], none)
    | some l => match s.cpRead c.b b 1 1 c.hint l with
      | (s, .error e) => (s, [], some e)
      | (s, .ok d) => let r := State.srcGo b c n s (x + 1); (r.1, d ++ r.2.1, r.2.2)
/-- Queue the packets of `rcpy` from its NEXT on, as far as the source can be read. -/
def State.sendGo (b : Block) (peer op msg : Nat) (rpeer : Nat) : Nat → State → Copy → State × Copy
  | 0, s, c => (s, c)
  | n + 1, s, c =>
    if c.next ≥ c.total then (s, c)
    else
      let va := (c.dstAt c.next).addr
      match State.srcGo b c (c.chunk c.next va) s c.next with
      | (s, d, e) =>
        let s := if d.isEmpty then s else
          { s with rops := tmod s.rops op fun o => { o with left := o.left + d.length } }.enqueue b.slice peer (some op)
            { typ := tWrite, dpeer := rpeer, msg := msg, va := va, len := d.length, payload := d }
        let c := { c with next := c.next + d.length }
        if e.isSome then (s, c) else State.sendGo b peer op msg rpeer n s c
/-- Queue the requests of `rget`. -/
def State.askGo (slice peer op msg rpeer : Nat) (c : Copy) : Nat → State → Nat → State
  | 0, s, _ => s
  | n + 1, s, x =>
    if x ≥ c.total then s
    else
      let va := (c.a + x / c.rb * c.spitch + x % c.rb) % 2 ^ 64
      let k := c.chunk x va
      State.askGo slice peer op msg rpeer c n (s.enqueue slice peer (some op) { typ := tReadReq, dpeer := rpeer, msg := msg, va := va, len := k }) (x + k)
/-- The operation of a remote copy. -/
def State.copyOp (s : State) (c : Nat) : Option (Nat × RemOp) := s.rops.find? fun e => e.2.kind == .cpy c || e.2.kind == .get c

/-! ### Frames (R339, R340) -/

/-- Big-endian bytes of a frame. -/
def beAt (b : List Byte) (i n : Nat) : Nat := ofBytes ((b.drop i).take n).reverse
/-- A UDP datagram in a frame: addresses as IPv6 (IPv4 mapped), the ECN field, the ports, whether its checksum holds, the payload. -/
structure Udp where
  src : Nat
  dst : Nat
  ecn : Nat
  sport : Nat
  dport : Nat
  good : Bool
  data : List Byte
  deriving DecidableEq, Repr
/-- Parse an Ethernet frame with one VLAN tag or none; none when it carries no UDP datagram. -/
def udpOf (f : List Byte) : Option Udp :=
  let l2 := if beAt f 12 2 == 0x8100 then 18 else 14
  let ip := f.drop l2
  let mk (src dst ecn hl : Nat) (addrs : List Byte) : Udp :=
    let u := ip.drop hl
    let len := beAt u 4 2
    let sum := sum16 addrs + 17 + len + sum16 (u.take len)
    { src := src, dst := dst, ecn := ecn, sport := beAt u 0 2, dport := beAt u 2 2, good := fold16 sum == 65535 && decide (8 ≤ len) && decide (len ≤ u.length),
      data := (u.take len).drop 8 }
  let mapped (a : Nat) : Nat := 0xFFFF * 2 ^ 32 + a
  match beAt f (l2 - 2) 2 with
  | 0x0800 => if beAt ip 9 1 == 17 then
      some (mk (mapped (beAt ip 12 4)) (mapped (beAt ip 16 4)) (beAt ip 1 1 % 4) (4 * (beAt ip 0 1 % 16)) ((ip.drop 12).take 8)) else none
  | 0x86DD => if beAt ip 6 1 == 17 then some (mk (beAt ip 8 16) (beAt ip 24 16) (beAt ip 1 1 / 16 % 4) 40 ((ip.drop 8).take 32)) else none
  | _ => none

end Sys2Proof.Machine
end

