-- ==== Sys2Proof/Machine/Net.lean ====
section
/-!
DEFINITION. The instructions and events of the network engine (R339 to R366). DEDUCED: the receiving state of a connection belongs to the
partition, since its packets are sprayed over the ports of all its slices; a control packet waits for every earlier PSN that has not come, which
may be of one.
-/
namespace Sys2Proof.Machine

/-! ### Remote copies (R351, R353, R354) -/

/-- Whether the slice's engine has a place: it holds 4,096 operations (R351). -/
def State.remFree (s : State) (slice : Nat) : Bool := (s.rops.filter fun e => e.2.slice == slice).length < 4096
/-- The MSG number of a new operation of a connection. -/
def State.nextMsg (s : State) (slice peer : Nat) : Nat × State :=
  let c := s.conn slice peer
  (c.msg, s.setConn slice peer { c with msg := (c.msg + 1) % 2 ^ 32 })
/-- A remote copy instruction: rights, room in the sheaf and in the engine; one that fails its handle or a check is Failed at issue. -/
def remCopyEff (o : CpyOp) (c : SReg) (mk : Ex → Nat → Copy) (x : Ex) : Eff :=
  if !x.g.producer then .trap 0x10 1
  else if x.guard o.h == 0 then .ok x
  else if x.g.openSheaf.length ≥ 256 then .trap 0x10 2
  else if !x.s.remFree x.b.slice then .wait x.s .waiting
  else
    let h := x.s' c
    let k := mk x (h % 1024)
    match x.s.handleCause x.b.slice x.b.pid x.b.vd h with
    | some rc => .ok (x.addCopy { (k.failWith (cstatCause rc) 2 (k.dstAt 0).addr) with rcause := rc }).dirty
    | none =>
      let id := x.s.nextId
      let y := x.addCopy k
      if (tget y.s.copies id).all fun k => k.st.over then .ok y.dirty
      else
        let (rid, s) := y.s.fresh
        let (msg, s) := s.nextMsg x.b.slice (h % 1024)
        let get := k.kind.fetches
        let r : RemOp := { b := x.c.b, g := x.c.g, mask := x.t.mask, slice := x.b.slice, pid := x.b.pid, vd := x.b.vd, peer := h % 1024,
                           kind := if get then .get id else .cpy id, msg := msg, left := if get then k.total else 0 }
        .ok { y with s := { s with rops := tput s.rops rid r } }.dirty

def execRcpy (o : CpyOp) (c : SReg) (srcl : Bool) (hint : Hint) (dpitch : BitVec 32) (s : State) : Host.Outcome State Fault Refusal :=
  issue (.rcpy o c srcl hint dpitch) (remCopyEff o c fun x p => mkCopy x o none (.rcpy p srcl dpitch.toNat) hint) s
def execRget (o : CpyOp) (c : SReg) (hint : Hint) (dpitch : BitVec 32) (s : State) : Host.Outcome State Fault Refusal :=
  issue (.rget o c hint dpitch) (remCopyEff o c fun x p => mkCopy x o none (.rget p dpitch.toNat) hint) s

/-- The engine starts a remote copy: it reads the source of `rcpy` from NEXT on as far as it can, or asks for the data of `rget`. -/
def State.startRemote (s : State) (c : Nat) : Option State :=
  match tget s.copies c, s.copyOp c with
  | some k, some (rid, o) => match tget s.blocks k.b with
    | none => none
    | some b =>
      if k.st != .queued || b.res != .resident || !s.cpTurn k then none
      else
        let rpeer := ((s.peerAt b.pid o.peer).map Peer.rpeer).getD 0
        match k.kind with
        | .rcpy _ _ _ =>
          let r := State.sendGo b o.peer rid o.msg rpeer (k.total + 1) s { k with st := .running }
          some ((r.1.countMoved b k k.next r.2.next).setCopy c r.2)
        | _ =>
          let s := State.askGo b.slice o.peer rid o.msg rpeer k (k.total + 1) s 0
          some (s.setCopy c { k with st := .running, aux := List.replicate k.total 0 })
  | _, _ => none
/-- `COPY_START` (R187). -/
def execCopyStart (c : Nat) (s : State) : Host.Outcome State Fault Refusal :=
  event s (if (tget s.copies c).any fun k => k.kind.isRem then s.startRemote c else s.startCopy c)
/-- `COPY_FAULT_STOP` (R196): `rcpy` stops where its source faults. -/
def execCopyFaultStop (c : Nat) (s : State) : Host.Outcome State Fault Refusal :=
  event s (match tget s.copies c with
    | none => none
    | some k => match k.kind with
      | .rcpy _ _ _ => match tget s.blocks k.b with
        | none => none
        | some b =>
          if k.st != .running || k.next ≥ k.total || b.res != .resident then none
          else match State.srcGo b k 1 s k.next with
            | (s, _, some e) => s.cpStop c b k e
            | _ => some (s.setCopy c { k with st := .queued })
      | _ => s.stopCopy c)

/-! ### `ratom`, `rflag`, `rnote`, `rstat` (R355 to R358) -/

/-- Send what a group may send to a peer, in the order of issue, up to an operation that waits for its sheaves (R360, R361). -/
def State.flushGo (slice peer : Nat) : List (Nat × RemOp) → State → State
  | [], s => s
  | (id, o) :: t, s => match o.wait, o.pkt with
    | .after _, _ => s
    | .behind, some p => State.flushGo slice peer t ({ s with rops := tput s.rops id { o with wait := .none, pkt := none } }.enqueue slice peer (some id) p)
    | _, _ => State.flushGo slice peer t s
def State.flushOps (s : State) (b g slice peer : Nat) : State :=
  State.flushGo slice peer (s.rops.filter fun e => e.2.b == b && e.2.g == g && e.2.peer == peer) s
/-- Issue a control operation: it is sent at once, or waits in the engine; its number is `nextId`. -/
def Ex.control (x : Ex) (h : Nat) (kind : RemKind) (acq : Bool) (after : Option Nat) (mk : Nat → GPkt) : Ex :=
  let (id, s) := x.s.fresh
  let peer := h % 1024
  let (msg, s) := s.nextMsg x.b.slice peer
  let rpeer := ((s.peerAt x.b.pid peer).map Peer.rpeer).getD 0
  let p : GPkt := { mk msg with dpeer := rpeer, msg := msg, ctl := 1 }
  let wait : RemWait := match after with
    | some k => .after k
    | none => .behind
  let o : RemOp := { b := x.c.b, g := x.c.g, mask := x.t.mask, slice := x.b.slice, pid := x.b.pid, vd := x.b.vd, peer := peer, kind := kind, msg := msg, wait := wait,
                     pkt := some p, fenced := true, acq := acq }
  { x with s := { s with rops := tput s.rops id o }.flushOps x.c.b x.c.g x.b.slice peer }
/-- A control instruction: a release waits for the lanes' earlier operations; the handle and the alignment are checked (R350, R352). -/
def remCtl (rel : Bool) (h : Nat) (bad : Bool) (fail : Ex → Ex) (go : Ex → Ex) (x : Ex) : Eff :=
  if !x.s.remFree x.b.slice then .wait x.s .waiting
  else if rel && !earlierDone x.s x.c.b x.c.g x.g x.g.nextPend x.t.mask .sys then .wait x.s .waiting
  else match x.s.handleCause x.b.slice x.b.pid x.b.vd h with
    | some rc => .ok (fail { x with g := x.g.remFail rc (h % 1024) }).dirty
    | none => if bad then .ok (fail { x with g := x.g.remFail rcGeom (h % 1024) }).dirty else .ok (go x).dirty
/-- An operand at a type (R39). -/
def rB (x : Ex) (t : IType) : Src32 → Nat
  | .reg r => x.s' r % 2 ^ t.width
  | .imm v => immBits t (.i32 v)
/-- AUX of an atomic. DESIGN CHOICE: the operation in bits [1:0], 64 bits wide in bit 8. -/
def atomAux (op : RAOp) (t : IType) : Nat := (match op with
  | .add => 0
  | .exch => 1
  | .fset => 2) + if wide64 t then 256 else 0
/-- `ratom`: it completes when the old value returns; on failure D keeps its value. -/
def execRatom (h : Hd) (op : RAOp) (sem : Option Sem) (ty : IType) (d a : SReg) (b : Src32) (c : SReg) (off : BitVec 22) (s : State) :
    Host.Outcome State Fault Refusal :=
  let i : Instr := .ratom h op sem ty d a b c off
  issue i (uniform h fun x =>
    let va := addr64 (x.s' a) off
    let n := ty.width / 8
    let rel := sem == some .rel || sem == some .ar
    let acq := sem == some .acq || sem == some .ar
    remCtl rel (x.s' c) (va % n != 0) id (fun x =>
      let p := x.g.nextPend
      let y := x.control (x.s' c) (.atom p d.val ty) acq none fun _ =>
        { typ := tAtomic, va := va, len := n, aux := atomAux op ty, payload := toBytes n (rB x ty b) }
      y.pend i [.s d.val] [] 0 (.cond (.remote x.s.nextId))) x) s
def execRflag (h : Hd) (after : Option SReg) (rel w64 : Bool) (d : SReg) (b : Src32) (c : SReg) (off : BitVec 22) (s : State) : Host.Outcome State Fault Refusal :=
  let i : Instr := .rflag h after rel w64 d b c off
  issue i (uniform h fun x =>
    let va := addr64 (x.s' d) off
    let n := if w64 then 8 else 4
    let v := rB x (if w64 then .b64 else .b32) b
    remCtl rel (x.s' c) (va % n != 0) id (fun x =>
      let k := if x.g.sealCnt == 0 then none else after.map fun r => x.s' r % 2 ^ 32
      x.control (x.s' c) .flag false k fun _ => { typ := tFlag, va := va, len := n, payload := toBytes n v }) x) s
def execRnote (h : Hd) (a c : SReg) (tag : BitVec 22) (s : State) : Host.Outcome State Fault Refusal :=
  issue (.rnote h a c tag) (uniform h fun x =>
    remCtl true (x.s' c) false id (fun x =>
      x.control (x.s' c) .note false none fun _ => { typ := tNote, aux := tag.toNat, len := 8, payload := toBytes 8 (x.s' a) }) x) s
/-- The remote status word (R358). -/
def Ex.remWord (x : Ex) : Nat :=
  let out := (x.s.rops.filter fun e => e.2.b == x.c.b && e.2.g == x.c.g && e.2.fenced).length
  (if x.g.rsAny then 2 ^ 63 else 0) + out * 2 ^ 32 + x.g.rsCause * 2 ^ 16 + x.g.rsPeer
/-- The cause of a sheaf's first failed remote copy. -/
def Ex.sheafCode (x : Ex) (n : Nat) : Nat := match x.g.sheafRec n with
  | .ok sh => if sh.out then 0 else sh.rcause
  | .error _ => 0
/-- `rstat`; its reads are recorded and replayed (R407). -/
def execRstat (h : Hd) (f : RstatForm) (s : State) : Host.Outcome State Fault Refusal :=
  issue (.rstat h f) (uniform h fun x => match f with
    | .grp d => x.recorded x.remWord fun y v => .ok (y.setS d.val v)
    | .sh d a => x.recorded (x.sheafCode (x.s' a % 2 ^ 32)) fun y v => .ok (y.setS d.val v)
    | .clr d => x.recorded x.remWord fun y v => .ok ({ y with g := { y.g with rsAny := false, rsCause := 0, rsPeer := 0 } }.setS d.val v)) s
/-- `RFLAG_AFTER_SEND` (R361): the sheaves are no longer outstanding; if one Failed the flag fails with SHEAF. -/
def execRflagAfterSend (op : Nat) (s : State) : Host.Outcome State Fault Refusal :=
  event s (match tget s.rops op with
    | none => none
    | some o => match o.wait with
      | .after k => match (tget s.blocks o.b).bind fun b => b.groups[o.g]? with
        | none => none
        | some g =>
          if !g.cwaitOk true k then none
          else
            let failed := g.sheaves.any fun x => x.failed && decide ((k + 2 ^ 32 - x.num) % 2 ^ 32 < 64)
            let s := if failed then s.failOp op o rcSheaf else { s with rops := tput s.rops op { o with wait := .behind } }
            some (s.flushOps o.b o.g o.slice o.peer)
      | _ => none)

/-! ### Sending (R345 to R349) -/

/-- The partition of a slice and its entry for a peer. -/
def State.peerOn (s : State) (slice peer : Nat) : Option (Nat × Peer) :=
  (s.ownerPart slice).bind fun p => (s.peerAt p.1 peer).map fun e => (p.1, e)
/-- `PACED_PACKET_SEND`: packet n takes path n mod NPATH; at most 1,024 are unacknowledged. -/
def execPacedPacketSend (slice peer : Nat) (s : State) : Host.Outcome State Fault Refusal :=
  event s (
    let c := s.conn slice peer
    let x := s.slice slice
    match c.queue, s.peerOn slice peer with
    | (op, p) :: t, some (pid, e) =>
      if c.sent.length ≥ 1024 || e.st != 1 || !x.gen || !x.link || x.inReset || s.now < c.paceAt then none
      else
        let p := { p with psn := c.psn }
        let path := c.psn % max e.npath 1
        let rto := e.rto0 * 1000
        let k : Sent := { pkt := p, op := op, sends := 1, path := path, rto := rto, due := s.now + rto }
        let s := s.setConn slice peer { c with queue := t, psn := (c.psn + 1) % 2 ^ 32, sent := c.sent ++ [k], paceAt := s.now + c.pace (p.bytes.length + 16) }
        some ((s.emit slice pid e path p).count slice e.lvd 0x00B 1)
    | _, _ => none)
/-- Send a packet again on the next path with its timeout doubled, or the peer goes down after 13 sends (R346, R347). -/
def State.resend (s : State) (slice pid peer : Nat) (e : Peer) (k : Sent) : State :=
  if k.sends ≥ 13 then s.peerDown pid peer
  else
    let c := s.conn slice peer
    let p := { k.pkt with ctl := k.pkt.ctl ||| 2 }
    let rto := min (2 * k.rto) (64 * e.rto0 * 1000)
    let k' : Sent := { k with sends := k.sends + 1, path := (k.path + 1) % max e.npath 1, rto := rto, due := s.now + rto }
    let s := s.setConn slice peer { c with sent := c.sent.map fun y => if y.pkt.psn == k.pkt.psn then k' else y
                                           paceAt := s.now + c.pace (p.bytes.length + 16) }
    let s := s.modSlice slice fun x => { x with retx := (x.retx + 1) % 65536 }
    ((s.emit slice pid e k'.path p).count slice e.lvd 0x00B 1).count slice e.lvd 0x00C 1
/-- `RETRANSMIT_TIMEOUT`. -/
def execRetransmitTimeout (slice peer psn : Nat) (s : State) : Host.Outcome State Fault Refusal :=
  event s (match (s.conn slice peer).sent.find? fun k => k.pkt.psn == psn, s.peerOn slice peer with
    | some k, some (pid, e) => if s.now < k.due || s.now < (s.conn slice peer).paceAt || !(s.slice slice).gen then none else some (s.resend slice pid peer e k)
    | _, _ => none)
/-- `RATE_UPDATE`: alpha and R from the ECN echo of the interval. -/
def execRateUpdate (slice peer : Nat) (s : State) : Host.Outcome State Fault Refusal :=
  event s (match tget s.conns (connKey slice peer) with
    | none => none
    | some c =>
      let v := (s.slice slice).netCC
      if s.now < c.rateAt then none
      else
        let f : Rat := if c.acked == 0 then 0 else (c.marked : Rat) / (c.acked : Rat)
        let alpha := c.alpha + (f - c.alpha) / (ccG v : Rat)
        let rate := if f > 0 then max (ccRmin v : Rat) (c.rate * (1 - alpha / 2)) else min 1600000 (c.rate + (ccRai v : Rat))
        some (s.setConn slice peer { c with alpha := alpha, rate := rate, acked := 0, marked := 0, rateAt := s.now + 1000 * max 1 (ccTupd v) }))

/-! ### Receiving (R343 to R345, R357) -/

/-- What becomes of a packet at its destination: applied, refused with a cause, or held. -/
inductive ApplyOut where
  | done | refused (rc : Nat) | hold
  deriving DecidableEq, Repr
/-- KIND of a report to a management core (R329). -/
def PKindF.code : PKindF → Nat
  | .stage1 => 0
  | .poison => 0
  | .stage2 => 2
  | .walk => 3
  | .aliasF => 4
  | .home => 5
  | .firewall => 6
/-- What a report to a management core holds (R329). DESIGN CHOICE (notes/assumptions/116.md): the layout. -/
def mcRecord (vd va : Nat) (acc : Acc) (f : PFault) : List Byte :=
  toBytes 1 f.kind.code ++ toBytes 1 f.cause ++ toBytes 1 f.level ++ toBytes 1 f.flag ++ toBytes 2 vd ++ toBytes 1 acc.code ++ toBytes 1 0 ++ toBytes 8 va ++ toBytes 8 f.gpa
/-- A fault of a remote access (R344): a stage-1 fault is recorded with TOKEN 0, other kinds are notices to the management core. -/
def State.inFault (s : State) (slice pid vd va : Nat) (acc : Acc) (f : PFault) : State × ApplyOut :=
  match f.kind with
  | .home => (s, .hold)
  | .poison => (s, .refused rcPoison)
  | .stage1 => (s.notice slice pid vd va 0 1 f.cause acc.code 0, .refused rcFault)
  | _ =>
    let (id, s) := s.fresh
    ({ s with notices := s.notices ++ [(id, slice, mcRecord vd va acc f)] }, .refused rcFault)
/-- A write at the destination, as traffic of a class: its page is translated before any byte is written. -/
def State.inWrite (s : State) (slice pid vd va : Nat) (acc : Acc) (d : List Byte) (t : Traf := { op := 1 }) : State × ApplyOut :=
  if !canonical va then s.inFault slice pid vd va acc { kind := .stage1, cause := 1 }
  else match s.reach slice pid vd va acc with
    | (s, .error f) => (if f.kind == .firewall then s.fwNotice f.home acc.code else s).inFault slice pid vd va acc f
    | (s, .ok _) => match s.engWrite slice pid vd va d t with
      | (s, some f) => s.inFault slice pid vd va acc f
      | (s, none) => (s, .done)
/-- A read at the destination. -/
def State.inRead (s : State) (slice pid vd va n : Nat) (acc : Acc) : State × Except ApplyOut (List Byte) :=
  match s.vaRead slice pid vd va n with
  | (s, .error f) => let r := s.inFault slice pid vd va acc f; (r.1, .error r.2)
  | (s, .ok d) => (s, .ok d)
/-- A ring that cannot be read or written (R327, R344): a home that does not answer holds the note. -/
def noteFault (f : PFault) : ApplyOut := match f.kind with
  | .home => .hold
  | .poison => .refused rcPoison
  | _ => .refused rcRefused
/-- Append a note (R357): the header and every slot of the ring must translate (R327). -/
def State.inNote (s : State) (slice pid peer : Nat) (e : Peer) (p : GPkt) : State × ApplyOut :=
  if e.nring == 0 then (s, .refused rcRefused)
  else match s.vaRead slice pid e.lvd e.nring 64 with
    | (s, .error f) => (s, noteFault f)
    | (s, .ok h) =>
      let lg := fieldAt h 0 4
      let tail := fieldAt h 16 8
      if lg < 4 || lg > 16 || (h.drop 24).any (· != 0) || !s.translates slice pid e.lvd e.nring (64 + 16 * 2 ^ lg) { r := true, w := true } then (s, .refused rcRefused)
      else if tail - fieldAt h 8 8 ≥ 2 ^ lg then ((s.vaWrite slice pid e.lvd (e.nring + 4) (toBytes 4 (fieldAt h 4 4 + 1))).1, .refused rcRefused)
      else
        let r := p.payload.take 8 ++ toBytes 4 (p.aux % 2 ^ 22) ++ toBytes 2 peer ++ toBytes 2 0
        match s.vaWrite slice pid e.lvd (e.nring + 64 + 16 * (tail % 2 ^ lg)) r with
        | (s, some f) => (s, noteFault f)
        | (s, none) => match s.vaWrite slice pid e.lvd (e.nring + 16) (toBytes 8 (tail + 1)) with
          | (s, some f) => (s, noteFault f)
          | (s, none) => (s.msi slice pid e.lvd e.niid, .done)
/-- The bit of PERM that grants a type (R342, R344); responses need none. -/
def permits (e : Peer) (typ : Nat) : Bool :=
  if typ == tWrite || typ == tFlag then bit e.perm 1 else if typ == tReadReq then bit e.perm 2 else if typ == tAtomic then bit e.perm 3
  else if typ == tNote then bit e.perm 4 else true
/-- The new value of an atomic. -/
def remAtom (aux w o b : Nat) : Nat := match aux % 4 with
  | 0 => (o + b) % 2 ^ w
  | 1 => b
  | _ => o ||| b
/-- Apply a packet that has passed the first two checks (R344, R355, R356). A response goes out on the same peer and names the requesting
slice in AUX. -/
def State.applyPkt (s : State) (slice pid peer : Nat) (e : Peer) (p : GPkt) : State × ApplyOut :=
  let back (s : State) (typ : Nat) (d : List Byte) : State :=
    s.enqueue slice peer none { typ := typ, dpeer := e.rpeer, msg := p.msg, va := p.va, len := d.length, aux := p.sslice, payload := d }
  if p.typ == tWrite then s.inWrite slice pid e.lvd p.va { w := true } p.payload { cls := 1, op := 1 }
  else if p.typ == tFlag then s.inWrite slice pid e.lvd p.va { w := true } p.payload
  else if p.typ == tReadReq then
    match s.inRead slice pid e.lvd p.va p.len { r := true } with
    | (s, .error r) => (s, r)
    | (s, .ok d) => (back s tReadRsp d, .done)
  else if p.typ == tAtomic then
    let n := if bit p.aux 8 then 8 else 4
    match s.inRead slice pid e.lvd p.va n { r := true, w := true } with
    | (s, .error r) => (s, r)
    | (s, .ok d) =>
      match s.inWrite slice pid e.lvd p.va { r := true, w := true } (toBytes n (remAtom p.aux (8 * n) (ofBytes d) (ofBytes (p.payload.take n)))) with
      | (s, .done) => (back s tAtomicRsp d, .done)
      | r => r
  else if p.typ == tNote then s.inNote slice pid peer e p
  else match s.opOf pid p.aux peer p.msg with
    | none => (s, .done)
    | some (id, o) => match o.kind with
      | .get c => (s.gotData id o c p, .done)
      | _ => (s.gotAtom id o p, .done)

/-- The entries of TYPE 3 and 4 of a record stream in order (R365, R407): type, key and payload. -/
def State.rsOrder (s : State) (slice pid vd base lg : Nat) : Nat → Nat → Nat → List (Nat × Nat × List Byte)
  | 0, _, _ => []
  | k + 1, pos, tail =>
    if pos ≥ tail then []
    else
      let at' (i : Nat) := base + 64 + 16 * (i % 2 ^ lg)
      let read (i : Nat) : List Byte := match (s.vmRead slice pid vd (at' i) 16).2 with
        | .ok b => b
        | .error _ => []
      let h := read pos
      let t := fieldAt h 0 1
      let units := fieldAt h 2 2 / 16
      let rest := s.rsOrder slice pid vd base lg k (pos + 1 + units) tail
      if t == 3 || t == 4 then (t, fieldAt h 8 8, read (pos + 1)) :: rest else rest
/-- Append entries of TYPE 4 for writes that overlap, all or none. -/
def State.recWrites (s : State) (slice pid vd stream : Nat) (l : List WrSeen) : State × Bool :=
  if (s.rsHeader slice pid vd stream).2.any fun h => h.2.2 + 2 * l.length - h.2.1 > 2 ^ h.1 then (s, false)
  else l.foldl (fun r w => if !r.2 then r else match r.1.rsAppend slice pid vd stream 4 w.key w.pay with
    | (s, .ok) => (s, true)
    | (s, _) => (s, false)) (s, true)
/-- What the order of inbound packets says of one that can be applied (R365, R409): under REC a control packet is recorded, and a WRITE with those
before it that overlap a byte of it and are not recorded yet; under RPL a packet of the stream waits until it stands next, a control packet
that is not in it is a divergence (R410), and a WRITE that is not in it overlaps none. False holds the packet. DEDUCED
(notes/assumptions/113.md). -/
def State.inOrder (s : State) (slice pid peer : Nat) (e : Peer) (p : GPkt) : State × Bool :=
  if !(isCtl p.typ || p.typ == tWrite) then (s, true)
  else
    let (s, t) := s.trcEnt slice pid e.lvd
    let key := peer + p.sslice * 1024
    let pay := toBytes 4 p.psn ++ toBytes 4 p.msg ++ toBytes 8 0
    if t.recm then
      if isCtl p.typ then match s.rsAppend slice pid e.lvd t.rstream 3 key pay with
        | (s, .ok) => (s, true)
        | (s, _) => (s, false)
      else
        let hits := (s.slice slice).wrSeen.filter fun w => w.vd == e.lvd && overlap w.va w.len p.va p.len
        let me : WrSeen := { vd := e.lvd, key := key, pay := pay, va := p.va, len := p.len, done := !hits.isEmpty }
        match if hits.isEmpty then (s, true) else s.recWrites slice pid e.lvd t.rstream (hits.filter (fun w => !w.done) ++ [me]) with
        | (s, true) => (s.modSlice slice fun x => { x with wrSeen := (x.wrSeen.map fun w => if hits.contains w then { w with done := true } else w) ++ [me] }, true)
        | r => r
    else if t.rpl then match s.rsHeader slice pid e.lvd t.rstream with
      | (s, none) => (s.stopVd slice pid e.lvd .recordStream, false)
      | (s, some (lg, head, tail)) =>
        let n := cget 0 (s.slice slice).rplPos e.lvd
        let left := (s.rsOrder slice pid e.lvd t.rstream lg 65536 head tail).drop n
        let me := (if isCtl p.typ then 3 else 4, key, pay)
        if left.head? == some me then (s.modSlice slice fun x => { x with rplPos := cset 0 x.rplPos e.lvd (n + 1) }, true)
        else if left.contains me then (s, false)
        else if isCtl p.typ then (s.diverge slice pid e.lvd, false)
        else (s, true)
    else (s, true)

/-- The key of a connection's receiving side. -/
def rcvKey (pid peer sslice : Nat) : Nat := (pid * 1024 + peer) * 256 + sslice
/-- A PSN counts as applied; the cumulative PSN passes every one applied without a gap. -/
def advanceCum (ahead : List Nat) : Nat → Nat → Nat × List Nat
  | 0, c => (c, ahead)
  | n + 1, c => if ahead.contains c then advanceCum (ahead.filter (· != c)) n ((c + 1) % 2 ^ 32) else (c, ahead)
/-- A packet is to be acknowledged. -/
def Rcv.owe (r : Rcv) (now : Nat) : Rcv := { r with unack := r.unack + 1, firstAt := if r.unack == 0 then now else r.firstAt }
/-- A packet has been applied or refused. -/
def Rcv.took (r : Rcv) (now psn rc : Nat) : Rcv :=
  let a := advanceCum (psn :: r.ahead) (r.ahead.length + 1) r.cum
  { (r.owe now) with cum := a.1, ahead := a.2, refused := if rc == 0 then r.refused else r.refused ++ [(psn, rc)] }
/-- A packet comes: of the refusals, those of PSNs that the sender, which holds 1,024 at most, may still hold unacknowledged stay. -/
def Rcv.sees (r : Rcv) (psn : Nat) : Rcv :=
  let top := if (psn + 2 ^ 32 - r.top) % 2 ^ 32 < 2 ^ 31 then psn else r.top
  { r with top := top, refused := r.refused.filter fun f => (top + 2 ^ 32 - f.1) % 2 ^ 32 < 1024 }
/-- Whether every control packet before a PSN has been applied (R345): each earlier PSN has been, or is of data that is held. -/
def Rcv.ctlTurn (r : Rcv) (psn : Nat) : Bool :=
  let n := (psn + 2 ^ 32 - r.cum) % 2 ^ 32
  decide (n ≤ r.ahead.length + r.held.length) && (upto n).all fun i =>
    let k := (r.cum + i) % 2 ^ 32
    r.ahead.contains k || r.held.any fun h => h.1.psn == k && !isCtl h.1.typ
/-- Try to apply a packet of a connection: a control packet waits for the earlier ones that are or may be control packets (R345), and the order of a record stream holds it. The
connection's state in the table is up to date on return; true is that the packet is over. -/
def State.tryPkt (s : State) (key slice pid peer : Nat) (e : Peer) (p : GPkt) : State × Bool :=
  match tget s.rcvs key with
  | none => (s, false)
  | some r =>
    let fin (s : State) (rc : Nat) : State := { s with rcvs := tmod s.rcvs key fun r => r.took s.now p.psn rc }
    if e.st != 1 || !permits e p.typ then
      (fin (s.modSlice slice fun x => { x with refused := (x.refused + 1) % 65536 }) rcRefused, true)
    else if isCtl p.typ && !r.ctlTurn p.psn then (s, false)
    else match s.applyPkt slice pid peer e p with
      | (t, .done) => match t.inOrder slice pid peer e p with
        | (t, true) => (fin t 0, true)
        | _ => ((s.inOrder slice pid peer e p).1, false)
      | (s, .refused rc) => (fin (s.modSlice slice fun x => { x with refused := (x.refused + 1) % 65536 }) rc, true)
      | (s, .hold) => (s, false)
/-- Try the held packets of a connection again, as often as one of them may let another go. -/
def State.retryGo (key pid peer : Nat) (e : Peer) : Nat → State → State
  | 0, s => s
  | n + 1, s => match tget s.rcvs key with
    | none => s
    | some r =>
      let step (acc : State) (h : GPkt × Nat) : State :=
        let t := acc.tryPkt key h.2 pid peer e h.1
        if t.2 then { t.1 with rcvs := tmod t.1.rcvs key fun r => { r with held := r.held.filter (· != h) } } else t.1
      State.retryGo key pid peer e n (r.held.foldl step s)
/-- Try every held packet of a partition again. -/
def State.retryHeld (s : State) (pid : Nat) : State :=
  (s.rcvs.filter fun e => e.2.pid == pid && !e.2.held.isEmpty).foldl (fun s r => match s.peerAt pid r.2.peer with
    | some e => State.retryGo r.1 pid r.2.peer e r.2.held.length s
    | none => s) s

/-- The first check of R344: the entry, the sender's address and the tag. -/
def State.authentic (s : State) (pid src : Nat) (p : GPkt) (tag : List Byte) : Option Peer :=
  (s.peerAt pid p.dpeer).bind fun e =>
    if ((upto e.naddr).any fun i => s.addrAt pid (e.addr0 + i) == src) && tag == tagOf e.key p then some e else none
/-- A packet that fails the first check is discarded and counted. -/
def State.badTag (s : State) (slice : Nat) : State := s.modSlice slice fun x => { x with badtag := (x.badtag + 1) % 65536 }
/-- A data or control packet arrives (R344, R345): one applied before is acknowledged again. -/
def State.takePkt (s : State) (slice pid : Nat) (ce : Bool) (e : Peer) (p : GPkt) : State :=
  let key := rcvKey pid p.dpeer p.sslice
  let r := (tget s.rcvs key).getD { pid := pid, peer := p.dpeer, sslice := p.sslice, slice := slice }
  let r := { r.sees p.psn with slice := slice, ce := r.ce + if ce then 1 else 0 }
  let d := (p.psn + 2 ^ 32 - r.cum) % 2 ^ 32
  if d ≥ 2 ^ 31 || r.ahead.contains p.psn then { s with rcvs := tput s.rcvs key (r.owe s.now) }
  else
    let r := if r.held.any fun h => h.1.psn == p.psn then r else { r with held := r.held ++ [(p, slice)] }
    State.retryGo key pid p.dpeer e r.held.length { s with rcvs := tput s.rcvs key r }

/-- The payload of an ACK: the cumulative PSN, the bitmap, the count of CE marks, the refusals. -/
def Rcv.ackBytes (r : Rcv) : List Byte :=
  toBytes 4 r.cum ++ toBytes 8 (maskOf ((upto 64).filter fun i => r.ahead.contains ((r.cum + 1 + i) % 2 ^ 32))) ++ toBytes 4 r.ce ++
  toBytes 4 r.refused.length ++ r.refused.flatMap fun f => toBytes 4 f.1 ++ toBytes 4 f.2
/-- `ACK_SEND`: after 8 packets, or 2 µs after the first. MSG names the sending slice that is acknowledged, AUX holds the cause of the first
refusal that the sender may not know. -/
def execAckSend (key : Nat) (s : State) : Host.Outcome State Fault Refusal :=
  event s (match tget s.rcvs key with
    | none => none
    | some r => match s.peerAt r.pid r.peer with
      | none => none
      | some e =>
        if r.unack == 0 || (r.unack < 8 && s.now < r.firstAt + 2000) then none
        else
          let d := r.ackBytes
          let p : GPkt := { typ := tAck, sslice := r.slice, dpeer := e.rpeer, msg := r.sslice, len := d.length, aux := (r.refused.head?.map Prod.snd).getD 0, payload := d }
          some (({ s with rcvs := tput s.rcvs key { r with unack := 0, ce := 0 } }.emit r.slice r.pid e 0 p).count r.slice e.lvd 0x00B 1))

/-- The cause that an ACK gives for a PSN. -/
def ackCause (d : List Byte) (psn : Nat) : Nat :=
  (((upto (fieldAt d 16 4)).find? fun i => fieldAt d (20 + 8 * i) 4 == psn).map fun i => fieldAt d (24 + 8 * i) 4).getD 0
/-- Whether an ACK covers a PSN: it lies before the cumulative PSN, or in the bitmap. -/
def ackCovers (d : List Byte) (psn : Nat) : Bool :=
  let k := (psn + 2 ^ 32 - fieldAt d 0 4) % 2 ^ 32
  decide (k ≥ 2 ^ 31) || (decide (1 ≤ k) && decide (k ≤ 64) && bit (fieldAt d 4 8) (k - 1))
/-- An ACK retires packets, and a packet with three later PSNs applied is due to be sent again (R347), within the rate (R349). -/
def State.takeAck (s : State) (p : GPkt) : State :=
  let slice := p.msg
  let c := s.conn slice p.dpeer
  let d := p.payload
  let gone := c.sent.filter fun k => ackCovers d k.pkt.psn
  let s := s.setConn slice p.dpeer { c with sent := c.sent.filter (fun k => !ackCovers d k.pkt.psn), acked := c.acked + gone.length,
                                            marked := c.marked + fieldAt d 12 4 }
  let s := gone.foldl (fun s k => match k.op with
    | some id => s.ackOp id k.pkt (ackCause d k.pkt.psn)
    | none => s) s
  let later (psn : Nat) : Nat := ((upto 64).filter fun i => bit (fieldAt d 4 8) i && decide ((fieldAt d 0 4 + 1 + i + 2 ^ 32 - psn) % 2 ^ 32 < 2 ^ 31)).length
  let c := s.conn slice p.dpeer
  s.setConn slice p.dpeer { c with sent := c.sent.map fun k => if decide (3 ≤ later k.pkt.psn) && decide (s.now < k.due) then { k with due := s.now } else k }

/-- A Golris packet reaches a port (R344); `ack` says whether an ACK is expected. -/
def State.golrisIn (s : State) (slice src : Nat) (ce : Bool) (b : List Byte) (ack : Option Bool) : Option State :=
  match s.ownerPart slice with
  | none => none
  | some (pid, _) =>
    if !(s.slice slice).gen || (s.slice slice).inReset then none
    else match gpktOf b with
      | none => some (s.badTag slice)
      | some (p, tag) =>
        if ack.any fun a => a != (p.typ == tAck) then none
        else match s.authentic pid src p tag with
          | none => some (s.badTag slice)
          | some e => if p.typ == tAck then (if e.st == 1 then some (s.takeAck p) else none) else some (s.takePkt slice pid ce e p)
/-- `GOLRIS_RECEIVE`: any packet but an ACK. -/
def execGolrisReceive (slice src : Nat) (ce : Bool) (pkt : List Byte) (s : State) : Host.Outcome State Fault Refusal :=
  event s (s.golrisIn slice src ce pkt (some false))
/-- `ACK_RECEIVE`. -/
def execAckReceive (slice src : Nat) (ce : Bool) (pkt : List Byte) (s : State) : Host.Outcome State Fault Refusal :=
  event s (s.golrisIn slice src ce pkt (some true))

/-! ### The port (R339 to R341) -/

/-- A PAUSE or PFC frame: MAC control with opcode 0x0001 or 0x0101. -/
def isPause (f : List Byte) : Bool := beAt f 12 2 == 0x8808 && (beAt f 14 2 == 0x0001 || beAt f 14 2 == 0x0101)
/-- `ETHERNET_FRAME_RECEIVE`: a PAUSE or PFC frame is counted and discarded; UDP to the slice's Golris address goes to Golris when its checksum
holds; other frames to the slice, or to a group address, go to the VIRTIO device. -/
def execEthernetFrameReceive (slice : Nat) (frame : List Byte) (s : State) : Host.Outcome State Fault Refusal :=
  event s (
    let x := s.slice slice
    if x.inReset || frame.length > 9216 || frame.length < 14 then none
    else if isPause frame then some (s.modSlice slice fun x => { x with pause := (x.pause + 1) % 65536 })
    else match s.ownerPart slice with
      | none => none
      | some (pid, _) =>
        let virtio : Option State := if beAt frame 0 6 == x.mac || bit (beAt frame 0 1) 0 then
            some (s.modSlice slice fun x => { x with rxFrames := x.rxFrames ++ [frame] }) else none
        match udpOf frame with
        | some u => if u.dst == s.addrAt pid slice && u.dport == x.gport then (if u.good then s.golrisIn slice u.src (u.ecn == 3) u.data none else none) else virtio
        | none => virtio)
/-- `PORT_LINK_CHANGE`. -/
def execPortLinkChange (slice : Nat) (up : Bool) (s : State) : Host.Outcome State Fault Refusal :=
  event s (some (s.modSlice slice fun x => { x with link := up }))
/-- NET_CTL and NET_STAT as they read (R341, R366). -/
def Slice.netCtl (x : Slice) : Nat := x.gport * 2 ^ 48 + x.vid * 2 ^ 36 + (if x.ect then 4 else 0) + (if x.gen then 2 else 0) + (if x.link then 1 else 0)
def Slice.netStat (x : Slice) : Nat := x.retx * 2 ^ 48 + x.badtag * 2 ^ 32 + x.refused * 2 ^ 16 + x.pause

/-- `PEER` (R342, R348): a limit broken, or a live connection rewritten under its own KEY, is STATUS 1; a live connection goes down first. -/
def execPeer (c : Cmd) (idx : Nat) (entry : List Byte) (addrs : List (Nat × Nat)) (s : State) : Host.Outcome State Fault Refusal :=
  event s (s.partCmd c fun pid p s =>
    match peerOf entry with
    | none => some (s.reply c 1)
    | some e =>
      let old := tget p.peers idx
      let live := old.any fun o => o.st != 0
      if idx ≥ 1024 || addrs.any (fun a => decide (a.1 ≥ 256) || decide (a.2 ≥ 2 ^ 128)) || (live && old.any fun o => o.key == e.key) then some (s.reply c 1)
      else
        let s := if live then s.peerDown pid idx else s
        let s := s.dropConn pid idx
        some ((s.modPart pid fun p => { p with peers := tput p.peers idx e, addrs := addrs.foldl (fun l a => cset 0 l a.1 a.2) p.addrs }).reply c 0))

end Sys2Proof.Machine
end

