-- ==== Sys2Proof/Machine/Virtio.lean ====
section
/-!
DEFINITION. The VIRTIO network device of a slice (R340). The spec names VIRTIO 1.2, the virtio-mmio transport, the packed virtqueue layout and the
features; the registers' offsets, the descriptors and the header of a frame are those of that standard: PRESUMED (notes/assumptions/62.md).
Queue 2k receives and queue 2k + 1 transmits for pair k. VIRTIO_NET_F_CTRL_VQ is not offered, so receiving uses pair 0.
-/
namespace Sys2Proof.Machine

/-- The offered features: CSUM, GUEST_CSUM, MAC, MRG_RXBUF, MQ of R340, and VERSION_1 and RING_PACKED, which the packed layout needs. -/
def vioOffer : Nat := maskOf [0, 1, 5, 15, 22, 32, 34]
/-- The largest size of a queue. DESIGN CHOICE (notes/assumptions/98.md). -/
def vioMax : Nat := 256

/-! ### Registers -/

/-- The configuration space: the MAC address, no status, 8 queue pairs. -/
def Slice.vioConfig (x : Slice) : List Byte := (toBytes 6 x.mac).reverse ++ toBytes 2 0 ++ toBytes 2 8
/-- The value of a register. The vendor identity is 0 (DESIGN CHOICE, notes/assumptions/98.md). -/
def Slice.vioReg (x : Slice) (off : Nat) : Nat :=
  let v := x.vio
  let q := (tget v.queues v.qsel).getD {}
  match off with
  | 0x000 => 0x74726976
  | 0x004 => 2
  | 0x008 => 1
  | 0x010 => if v.fsel < 2 then vioOffer / 2 ^ (32 * v.fsel) % 2 ^ 32 else 0
  | 0x034 => if v.qsel < 16 then vioMax else 0
  | 0x044 => if q.ready then 1 else 0
  | 0x060 => v.isr
  | 0x070 => v.status
  | _ => if off ≥ 0x100 then fieldAt x.vioConfig (off - 0x100) 4 else 0
/-- Put 32 bits into the low or the high half of an address. -/
def setHalf (old : Nat) (high : Bool) (v : Nat) : Nat := if high then old % 2 ^ 32 + v * 2 ^ 32 else old / 2 ^ 32 * 2 ^ 32 + v
/-- A write of a register; status 0 resets the device. Only features that are offered are kept. -/
def Virtio.write (v : Virtio) (off w : Nat) : Virtio :=
  let qmod (f : VQueue → VQueue) : Virtio := if v.qsel < 16 then { v with queues := tput v.queues v.qsel (f ((tget v.queues v.qsel).getD {})) } else v
  match off with
  | 0x014 => { v with fsel := w }
  | 0x020 => if v.dsel < 2 then { v with feats := setHalf v.feats (v.dsel == 1) w &&& vioOffer } else v
  | 0x024 => { v with dsel := w }
  | 0x030 => { v with qsel := w }
  | 0x038 => qmod fun q => { q with size := min w vioMax }
  | 0x044 => qmod fun q => { q with ready := bit w 0 }
  | 0x064 => { v with isr := v.isr - (v.isr &&& w) }
  | 0x070 => if w == 0 then {} else { v with status := w }
  | 0x080 => qmod fun q => { q with desc := setHalf q.desc false w }
  | 0x084 => qmod fun q => { q with desc := setHalf q.desc true w }
  | 0x090 => qmod fun q => { q with drv := setHalf q.drv false w }
  | 0x094 => qmod fun q => { q with drv := setHalf q.drv true w }
  | 0x0A0 => qmod fun q => { q with dev := setHalf q.dev false w }
  | 0x0A4 => qmod fun q => { q with dev := setHalf q.dev true w }
  | _ => v

/-! ### Queues -/

/-- Read n bytes at a partition address, a line at a time; poison reads as zeros. -/
def State.paBytes (slice : Nat) : Nat → State → Nat → Nat → State × List Byte
  | 0, s, _, _ => (s, [])
  | k + 1, s, pa, n =>
    if n == 0 then (s, [])
    else
      let m := min n (128 - pa % 128)
      match s.paRead slice pa m with
      | (s, b) => let r := State.paBytes slice k s (pa + m) (n - m); (r.1, b.getD (List.replicate m 0) ++ r.2)
def State.paGet (s : State) (slice pa n : Nat) : State × List Byte := State.paBytes slice (n / 128 + 2) s pa n
/-- Write bytes at a partition address, a line at a time. -/
def State.paPutGo (slice : Nat) : Nat → State → Nat → List Byte → State
  | 0, s, _, _ => s
  | k + 1, s, pa, b =>
    if b.isEmpty then s
    else let m := 128 - pa % 128; State.paPutGo slice k (s.paWrite slice pa (b.take m)) (pa + m) (b.drop m)
def State.paPut (s : State) (slice pa : Nat) (b : List Byte) : State := State.paPutGo slice (b.length / 128 + 2) s pa b

/-- Descriptors made available from a position on: the buffers (address, length, whether the device writes it) up to the end of a chain, its
identity and the number of descriptors; none when no whole chain is available. -/
def State.chainGo (slice : Nat) (q : VQueue) : Nat → State → Nat → Bool → List (Nat × Nat × Bool) → Option (List (Nat × Nat × Bool) × Nat)
  | 0, _, _, _, _ => none
  | k + 1, s, pos, wrap, l =>
    let d := (s.paGet slice (q.desc + 16 * pos) 16).2
    let f := fieldAt d 14 2
    if bit f 7 != wrap || bit f 15 == wrap then none
    else
      let l := l ++ [(fieldAt d 0 8, fieldAt d 8 4, bit f 1)]
      if bit f 0 then State.chainGo slice q k s (if pos + 1 ≥ q.size then 0 else pos + 1) (if pos + 1 ≥ q.size then !wrap else wrap) l
      else some (l, fieldAt d 12 2)
def State.chain (s : State) (slice : Nat) (q : VQueue) : Option (List (Nat × Nat × Bool) × Nat) := s.chainGo slice q q.size q.pos q.wrap []
/-- Positions move on by n descriptors. -/
def ringOn (size pos n : Nat) (wrap : Bool) : Nat × Bool := if pos + n ≥ size then (pos + n - size, !wrap) else (pos + n, wrap)
/-- A chain of n descriptors is used: its used descriptor is written, and the driver is interrupted unless it has switched that off. -/
def State.useChain (s : State) (slice qi : Nat) (q : VQueue) (n id len : Nat) : State :=
  let f := (if q.uwrap then 0x8080 else 0) + if len == 0 then 0 else 2
  let s := s.paPut slice (q.desc + 16 * q.used + 8) (toBytes 4 len ++ toBytes 2 id ++ toBytes 2 f)
  let quiet := fieldAt (s.paGet slice (q.drv + 2) 2).2 0 2 % 4 == 1
  let a := ringOn q.size q.pos n q.wrap
  let u := ringOn q.size q.used n q.uwrap
  let s := s.modSlice slice fun x => { x with vio := { x.vio with
    queues := tput x.vio.queues qi { q with pos := a.1, wrap := a.2, used := u.1, uwrap := u.2 }
    isr := if quiet then x.vio.isr else x.vio.isr ||| 1 } }
  if quiet then s else s.deviceIrq slice 1
/-- A queue that the driver has made ready on a live device (DRIVER_OK). -/
def State.vioQueue (s : State) (slice qi : Nat) : Option VQueue :=
  let v := (s.slice slice).vio
  (tget v.queues qi).bind fun q => if bit v.status 2 && q.ready && q.size != 0 then some q else none

/-! ### Sending and receiving -/

/-- A frame to send from its 12-byte header and its bytes: with NEEDS_CSUM the checksum is filled in. -/
def vioFrame (b : List Byte) : List Byte :=
  let f := b.drop 12
  let at' := fieldAt b 6 2
  if bit (fieldAt b 0 1) 0 then
    let n := fold16 (sum16 (f.drop at'))
    splice f (at' + fieldAt b 8 2) (toBytes 2 (65535 - n)).reverse
  else f
/-- Whether the port sends a frame of the device (R339, R340). -/
def vioSends (f : List Byte) : Bool := decide (f.length ≤ 9216) && !(udpOf f).any fun u => decide (49152 ≤ u.sport) && decide (u.sport < 49216)
/-- Take the frames that are available in a transmit queue. -/
def State.vioTake (slice qi : Nat) : Nat → State → List (List Byte) → State × List (List Byte)
  | 0, s, fs => (s, fs)
  | k + 1, s, fs => match s.vioQueue slice qi with
    | none => (s, fs)
    | some q => match s.chain slice q with
      | none => (s, fs)
      | some (l, id) =>
        let r := l.foldl (fun (a : State × List Byte) d => let r := a.1.paGet slice d.1 d.2.1; (r.1, a.2 ++ r.2)) (s, [])
        State.vioTake slice qi k (r.1.useChain slice qi q l.length id 0) (fs ++ [vioFrame r.2])
/-- `VIRTIO_QUEUE_NOTIFY`: the frames of a transmit queue are sent, but none with a Golris source port. A receive queue needs no notice. -/
def execVirtioQueueNotify (slice queue : Nat) (s : State) : Host.Outcome State Fault Refusal :=
  event s (
    if (s.slice slice).inReset || !(s.slice slice).link || queue % 2 == 0 then none
    else
      let r := State.vioTake slice queue vioMax s []
      some { r.1 with frames := r.1.frames ++ (r.2.filter vioSends).map fun f => (slice, f) })
/-- Put bytes into the buffers of a chain that the device writes. -/
def State.fillGo (slice : Nat) : List (Nat × Nat × Bool) → State → List Byte → State
  | [], s, _ => s
  | d :: t, s, b => if d.2.2 then State.fillGo slice t (s.paPut slice d.1 (b.take d.2.1)) (b.drop d.2.1) else State.fillGo slice t s b
/-- The room of a chain. -/
def chainRoom (l : List (Nat × Nat × Bool)) : Nat := l.foldl (fun n d => if d.2.2 then n + d.2.1 else n) 0
/-- The chains that n bytes take from a receive queue: with MRG_RXBUF as many as they need; none while there are not enough. -/
def State.roomGo (slice : Nat) (merge : Bool) : Nat → State → VQueue → Nat → List (List (Nat × Nat × Bool) × Nat) → Option (List (List (Nat × Nat × Bool) × Nat))
  | 0, _, _, _, _ => none
  | k + 1, s, q, n, acc => match s.chain slice q with
    | none => none
    | some c =>
      let room := chainRoom c.1
      if n ≤ room then some (acc ++ [c])
      else if !merge then none
      else let a := ringOn q.size q.pos c.1.length q.wrap; State.roomGo slice merge k s { q with pos := a.1, wrap := a.2 } (n - room) (acc ++ [c])
/-- Fill chains with bytes, each used in turn. -/
def State.rxGo (slice : Nat) : List (List (Nat × Nat × Bool) × Nat) → State → List Byte → State
  | [], s, _ => s
  | c :: t, s, b => match s.vioQueue slice 0 with
    | none => s
    | some q =>
      let m := min b.length (chainRoom c.1)
      State.rxGo slice t ((State.fillGo slice c.1 s (b.take m)).useChain slice 0 q c.1.length c.2 m) (b.drop m)
/-- Frames that wait go to the receive queue while it has buffers for them. -/
def State.vioDeliver (slice : Nat) : Nat → State → State
  | 0, s => s
  | k + 1, s => match (s.slice slice).rxFrames, s.vioQueue slice 0 with
    | f :: t, some q =>
      let need := 12 + f.length
      match s.roomGo slice (bit (s.slice slice).vio.feats 15) q.size q need [] with
      | none => s
      | some l =>
        let hd := toBytes 10 0 ++ toBytes 2 l.length
        State.vioDeliver slice k (State.rxGo slice l (s.modSlice slice fun x => { x with rxFrames := t }) (hd ++ f))
    | _, _ => s
/-- Every slice's device takes what it can of the frames that wait. -/
def State.settleVirtio (s : State) : State :=
  (s.slices.filter fun e => !e.2.rxFrames.isEmpty && bit e.2.vio.status 2).foldl (fun s e => State.vioDeliver e.1 e.2.rxFrames.length s) s

end Sys2Proof.Machine
end

