-- ==== Sys2Proof/Machine/Trace.lean ====
section
/-!
DEFINITION. The trace engine (15): markers and samples (R391 to R395, R411), precise stops and dumps (R398 to R400), counter sets (R401 to
R406, R413), `tctl` (R412).
-/
namespace Sys2Proof.Machine

/-! ### Rings (R394, R395) -/

/-- A record that no ring can take is counted (R395, R404). -/
def State.lostRecord (s : State) (slice : Nat) : State := s.modSlice slice fun x => { x with trcLost := (x.trcLost + 1) % 2 ^ 32 }
/-- Write a record of 16 bytes to a sample ring. -/
def State.ringPut (s : State) (slice pid vd ring : Nat) (r : List Byte) : State :=
  match s.vaRead slice pid vd ring 64 with
  | (s, .error _) => s.lostRecord slice
  | (s, .ok h) =>
    let lg := fieldAt h 0 4
    let tail := fieldAt h 16 8
    if lg < 4 || lg > 16 || (h.drop 24).any (· != 0) || !s.translates slice pid vd ring (64 + 16 * 2 ^ lg) { r := true, w := true } then s.lostRecord slice
    else if tail - fieldAt h 8 8 ≥ 2 ^ lg then (s.vaWrite slice pid vd (ring + 4) (toBytes 4 (fieldAt h 4 4 + 1))).1
    else match s.vaWrite slice pid vd (ring + 64 + 16 * (tail % 2 ^ lg)) r with
      | (s, some _) => s.lostRecord slice
      | (s, none) => (s.vaWrite slice pid vd (ring + 16) (toBytes 8 (tail + 1))).1
/-- Word 1 of a sample. -/
def sampleWord (time reason quarter core slot til vd : Nat) (qiss : Bool) : Nat :=
  time % 2 ^ 30 * 2 ^ 32 + reason * 2 ^ 27 + (if qiss then 2 ^ 26 else 0) + quarter * 2 ^ 24 + core * 2 ^ 22 + slot * 2 ^ 17 + til * 2 ^ 14 + vd
/-- Word 1 of a marker: TAG [21:4] in bits [31:14], TAG [3:0] in bits [13:10]. -/
def markerWord (time tag vd : Nat) : Nat := 2 ^ 62 + time % 2 ^ 30 * 2 ^ 32 + tag / 16 * 2 ^ 14 + tag % 16 * 2 ^ 10 + vd

/-- `tmark` (R411). -/
def execTmark (h : Hd) (a : SReg) (tag : BitVec 22) (s : State) : Host.Outcome State Fault Refusal :=
  issue (.tmark h a tag) (uniform h fun x =>
    let (s, e) := x.s.trcEnt x.b.slice x.b.pid x.b.vd
    if e.marken && e.ring != 0 then
      .ok { x with s := s.ringPut x.b.slice x.b.pid x.b.vd e.ring (toBytes 8 (x.s' a) ++ toBytes 8 (markerWord s.now tag.toNat x.b.vd)) }
    else .ok { x with s := s }) s

/-! ### Counter sets (R401 to R406) -/

/-- The unavailable code, whole and of a half (R406). -/
def unavail : Nat := 2 ^ 64 - 1
def unavailHalf : Nat := 2 ^ 32 - 1
/-- Events that are implemented (R402). -/
def evKnown (ev : Nat) : Bool := decide (ev ≤ 0xD) || (decide (0x100 ≤ ev) && decide (ev ≤ 0x116)) || ev == 0x200
/-- Events that measure elapsed clocks, which the model does not count. -/
def evTime (ev : Nat) : Bool := decide (0x100 ≤ ev) && evKnown ev
/-- The set bound to a VD on a slice. -/
def State.setOf (s : State) (slice vd : Nat) : Option (Nat × CtrSet) := (s.slice slice).csets.find? fun e => e.2.vd == some vd
def State.putSet (s : State) (slice k : Nat) (c : CtrSet) : State := s.modSlice slice fun x => { x with csets := tput x.csets k c }
/-- Whether counter n counts clocks. -/
def CtrSet.clocks (c : CtrSet) (n : Nat) : Bool :=
  let sel := listGet 0 c.sel n
  !c.frz && bit sel 16 && evTime (sel % 2 ^ 16) && !bit c.off n
/-- Counters of clocks hold values that are the hardware's: each gets one before anything looks at the set or changes it. -/
def State.syncSet (s : State) (slice vd : Nat) : State :=
  match s.setOf slice vd with
  | none => s
  | some (k, c) =>
    let r := (upto 8).foldl (fun (a : CtrSet × State) n =>
      if a.1.clocks n then let v := a.2.freeVal; ({ a.1 with ctr := listSet a.1.ctr n v.1.toNat }, v.2) else a) (c, s)
    r.2.putSet slice k r.1
/-- A counter is available: its event is implemented, and no restore said otherwise (R402, R406). -/
def CtrSet.avail (c : CtrSet) (n : Nat) : Bool := evKnown (listGet 0 c.sel n % 2 ^ 16) && !bit c.off n
/-- A counter as it reads: the unavailable code where it is not available. -/
def CtrSet.read (c : CtrSet) (n : Nat) : Nat := if c.avail n then listGet 0 c.ctr n else unavail
/-- The two 32-bit reads (R405); a half of a counter that is not available reads 0xFFFF_FFFF, whatever its shadow holds (R406). -/
def CtrSet.readLo (c : CtrSet) (n : Nat) : CtrSet × Nat :=
  let v := c.read n
  ({ c with shd := listSet c.shd n (v / 2 ^ 32), svalid := setBit c.svalid n true }, v % 2 ^ 32)
def CtrSet.readHi (c : CtrSet) (n : Nat) : CtrSet × Nat :=
  let v := if bit c.svalid n && c.avail n then listGet 0 c.shd n else c.read n / 2 ^ 32
  ({ c with svalid := setBit c.svalid n false }, v)

/-- A read of a VD's set whose counters of clocks have their values (R413). -/
def State.pmcGet (s : State) (slice vd : Nat) (half : PmcHalf) (n : Nat) : State × Nat :=
  match s.setOf slice vd, decide (n < 8) with
  | some (k, c), true => match half with
    | .full => (s, c.read n)
    | .lo => (s.putSet slice k (c.readLo n).1, (c.readLo n).2)
    | .hi => (s.putSet slice k (c.readHi n).1, (c.readHi n).2)
  | _, _ => (s, if half == .full then unavail else unavailHalf)
def State.pmcRead (s : State) (slice vd : Nat) (half : PmcHalf) (n : Nat) : State × Nat := (s.syncSet slice vd).pmcGet slice vd half n
/-- `pmcrd` (R413): its result is recorded (R407); a read that waits for room in the stream has not used up the shadow (R408). -/
def execPmcrd (h : Hd) (half : PmcHalf) (d : SReg) (n : Src10 128) (s : State) : Host.Outcome State Fault Refusal :=
  let i : Instr := .pmcrd h half d n
  issue i (uniform h fun x =>
    let k := match n with
      | .reg r => x.s' r
      | .imm v => if v.msb then 8 else v.toNat
    let s := (x.s.trcEnt x.b.slice x.b.pid x.b.vd).1.syncSet x.b.slice x.b.vd
    { x with s := s }.recorded (s.pmcGet x.b.slice x.b.vd half k).2 fun y v =>
      .ok ({ y with s := (y.s.pmcGet x.b.slice x.b.vd half k).1 }.defer i [.s d.val (BitVec.ofNat 64 v)] 0)) s

/-- The partition that a slice belongs to. -/
def State.pidOf (s : State) (slice : Nat) : Option Nat := (s.ownerPart slice).map Prod.fst
/-- The engine reads a VD's entry before it serves the VD's set, which the entry binds (R390, R401). -/
def State.bound (s : State) (slice vd : Nat) : Option State :=
  if vd ≥ 1024 || (s.slice slice).inReset then none else (s.pidOf slice).map fun pid => (s.trcEnt slice pid vd).1
/-- A hart's read through the counter page (R401, R405); `ctrOut` is what it returns. -/
def State.pageRead (s : State) (slice vd : Nat) (half : PmcHalf) (n : Nat) : Option State :=
  if n ≥ 8 then none
  else (s.bound slice vd).map fun s =>
    let r := s.pmcRead slice vd half n
    r.1.modSlice slice fun x => { x with ctrOut := r.2 }
def execCounterReadLo (slice vd n : Nat) (s : State) : Host.Outcome State Fault Refusal := event s (s.pageRead slice vd .lo n)
def execCounterReadHi (slice vd n : Nat) (s : State) : Host.Outcome State Fault Refusal := event s (s.pageRead slice vd .hi n)
/-- A whole register of the counter page by its offset: CTRn, SELn or FRZ (R401); no set reads as the unavailable code. -/
def State.pageReg (s : State) (slice vd off : Nat) : Option (State × Nat) :=
  if off < 0x40 then if off % 8 == 0 then some (s.pmcRead slice vd .full (off / 8)) else none
  else
    let c := (s.setOf slice vd).map Prod.snd
    if off < 0x60 then if off % 4 == 0 then some (s, (c.map fun c => listGet 0 c.sel ((off - 0x40) / 4)).getD unavailHalf) else none
    else if off == 0x60 then some (s, (c.map fun c => if c.frz then 1 else 0).getD unavailHalf) else none
/-- `COUNTER_PAGE_WRITE`: CTRn, SELn or FRZ (R401); a write of SELn makes the counter available again (R406). -/
def CtrSet.pageWrite (c : CtrSet) (off v : Nat) : CtrSet :=
  if off < 0x40 then if off % 8 == 0 then { c with ctr := listSet c.ctr (off / 8) (v % 2 ^ 64) } else c
  else if off < 0x60 then
    let n := (off - 0x40) / 4
    if off % 4 == 0 then { c with sel := listSet c.sel n (v % 2 ^ 17), off := setBit c.off n false } else c
  else if off == 0x60 then { c with frz := bit v 0 } else c
def State.pagePut (s : State) (slice vd off val : Nat) : Option State :=
  (s.bound slice vd).map fun s =>
    let s := s.syncSet slice vd
    match s.setOf slice vd with
    | some e => s.putSet slice e.1 (e.2.pageWrite off val)
    | none => s
def execCounterPageWrite (slice vd off val : Nat) (s : State) : Host.Outcome State Fault Refusal := event s (s.pagePut slice vd off val)

/-- The 160-byte image of a set (R406); a VD without a set has counters that are unavailable. -/
def ctrImage (c : Option CtrSet) : List Byte :=
  let d := c.getD {}
  ((upto 8).flatMap fun n => toBytes 8 (if c.isSome then d.read n else unavail)) ++ (d.sel.flatMap fun v => toBytes 4 v) ++ (d.shd.flatMap fun v => toBytes 4 v) ++
  toBytes 1 d.svalid ++ toBytes 1 (if d.frz then 1 else 0) ++ List.replicate 30 0
/-- The set that an image gives. -/
def CtrSet.load (c : CtrSet) (b : List Byte) : CtrSet :=
  let ctr := (upto 8).map fun n => fieldAt b (8 * n) 8
  { c with ctr := ctr, sel := (upto 8).map fun n => fieldAt b (64 + 4 * n) 4 % 2 ^ 17, shd := (upto 8).map fun n => fieldAt b (96 + 4 * n) 4,
           svalid := fieldAt b 128 1, frz := bit (fieldAt b 129 1) 0, off := maskOf ((upto 8).filter fun n => listGet 0 ctr n == unavail) }
/-- Where the image lies (R389). -/
def Slice.imageAt (x : Slice) : Nat := x.trcAddr / 32 * 32
def State.csave (s : State) (slice vd : Nat) : Option State :=
  (s.pidOf slice).map fun pid =>
    let s := (s.trcEnt slice pid vd).1.syncSet slice vd
    (s.vaWrite slice pid vd (s.slice slice).imageAt (ctrImage ((s.setOf slice vd).map Prod.snd))).1
/-- `CSAVE`. -/
def execCsave (slice vd : Nat) (s : State) : Host.Outcome State Fault Refusal := event s (s.csave slice vd)
def State.crestore (s : State) (slice vd : Nat) : Option State :=
  (s.pidOf slice).map fun pid =>
    let s := (s.trcEnt slice pid vd).1
    match s.setOf slice vd, s.vaRead slice pid vd (s.slice slice).imageAt 160 with
    | some _, (s, .ok b) => match s.setOf slice vd with
      | some e => s.putSet slice e.1 (e.2.load b)
      | none => s
    | _, _ => s
/-- `CRESTORE`. -/
def execCrestore (slice vd : Nat) (s : State) : Host.Outcome State Fault Refusal := event s (s.crestore slice vd)

/-! ### The table (R390) and `tctl` (R412) -/

def State.refresh (s : State) (slice vd : Nat) : Option State :=
  if vd ≥ 1024 then none else (s.pidOf slice).map fun pid => s.trcLoad slice pid vd
/-- `REFRESH`. -/
def execRefresh (slice vd : Nat) (s : State) : Host.Outcome State Fault Refusal := event s (s.refresh slice vd)
/-- Set the engine's copy of SEN for a VD on every slice of the partition. -/
def State.setSen (s : State) (pid vd : Nat) (on : Bool) : State :=
  (s.sliceList pid).foldl (fun s k =>
    let (s, _) := s.trcEnt k pid vd
    s.modSlice k fun x => { x with trc := tmod x.trc vd fun e => { e with sen := on } }) s
/-- FRZ of the VD's set. -/
def State.setFrz (s : State) (slice vd : Nat) (on : Bool) : State :=
  let s := s.syncSet slice vd
  match s.setOf slice vd with
  | some (k, c) => s.putSet slice k { c with frz := on }
  | none => s
/-- The effect of `tctl` under UCTL. -/
def tctlEff (op : TctlOp) (e : TrcEnt) (x : Ex) (s : State) : State :=
  match op with
  | .son => s.setSen x.b.pid x.b.vd true
  | .soff => s.setSen x.b.pid x.b.vd false
  | .cfrz => s.setFrz x.b.slice x.b.vd true
  | .crun => s.setFrz x.b.slice x.b.vd false
  | .stop => if e.brken then s.preciseStop x.b.slice (quarterKey x.b x.g) x.b.vd 3 else s
def execTctl (h : Hd) (op : TctlOp) (s : State) : Host.Outcome State Fault Refusal :=
  issue (.tctl h op) (uniform h fun x =>
    let (s, e) := x.s.trcEnt x.b.slice x.b.pid x.b.vd
    .ok { x with s := if e.uctl then tctlEff op e x s else s }) s

/-! ### Precise stops and dumps (R398 to R400) -/

/-- The groups that stand in a quarter, in the order of their slots. -/
def State.quarterAll (s : State) (q : Nat) : List (Nat × Block × Nat × Group) :=
  sortBy (fun a b => decide (a.2.2.2.slot < b.2.2.2.slot)) (s.blocks.flatMap fun e =>
    if !e.2.res.held || coreKey e.2.slice e.2.core != q / 4 then []
    else ((upto e.2.groups.length).map fun i => (e.1, e.2, i, listGet ({} : Group) e.2.groups i)).filter fun x => x.2.2.2.quarter == q % 4 && !x.2.2.2.ended)
/-- The number of a quarter in `quarters`. -/
def quarterAt (slice core quarter : Nat) : Nat := coreKey slice core * 4 + quarter
def State.stopQuarter (s : State) (slice core quarter vd : Nat) : Option State :=
  let q := quarterAt slice core quarter
  if core ≥ 4 || quarter ≥ 4 || !(s.quarterAll q).any fun x => x.2.1.vd == vd then none else some (s.preciseStop slice q vd 2)
/-- `STOP`. -/
def execStop (slice core quarter vd : Nat) (s : State) : Host.Outcome State Fault Refusal := event s (s.stopQuarter slice core quarter vd)
def State.resumeQuarter (s : State) (slice core quarter : Nat) : Option State :=
  let q := quarterAt slice core quarter
  match (s.quarter q).stop with
  | none => none
  | some vd =>
    let here (b : Block) (g : Group) : Bool := b.vd == vd && b.res.held && coreKey b.slice b.core == q / 4 && g.quarter == q % 4
    some ({ s with blocks := tmap (fun _ b => { b with groups := b.groups.map fun g => if here b g then { g with lastSlot := 7 } else g }) s.blocks }.modQuarter q
      fun k => { k with stop := none, dumped := false })
/-- `RESUME`. -/
def execResume (slice core quarter : Nat) (s : State) : Host.Outcome State Fault Refusal := event s (s.resumeQuarter slice core quarter)

/-- A tiller's state in the order of R86. -/
def TState.code : TState → Nat
  | .free => 0
  | .ready => 1
  | .waiting => 2
  | .longWait _ => 3
  | .atBar _ => 4
  | .atJoin => 5
  | .atWide => 6
  | .held _ => 7
  | .ended => 8
/-- CLASS and REG of a pending write (R400). -/
def RegId.dump : RegId → Nat × Nat
  | .v n => (0, n)
  | .s n => (1, n)
  | .p n => (2, n)
  | .flags => (3, 0)
/-- The launch and the trace engine stand outside the core: their results (`ctrrd`, `pmcrd`) have no clock in a dump (R400). -/
def Pend.outside (p : Pend) : Bool := p.kind != .alu || List.contains [0xDA, 0xDE] p.op
/-- The writes of the core's own units are performed before a dump reads the registers (R399). -/
def Group.drainCore (g : Group) : Group := (g.pend.filter fun e => !e.2.outside).foldl (fun g e => g.complete e.1) g
/-- The pending writes of a group as words of R400; the clocks that a result of the core still takes are free. -/
def dumpPend (l : List (Nat × Pend)) (s : State) : State × List Nat :=
  l.foldl (fun a e => e.2.marks.foldl (fun a r =>
    let (n, s) := if e.2.outside then (2 ^ 32 - 1, a.1) else a.1.choose (2 ^ 32 - 1)
    (s, a.2 ++ [r.dump.1 * 2 ^ 62 + r.dump.2 * 2 ^ 52 + e.2.op * 2 ^ 44 + e.2.slot * 2 ^ 41 + n])) a) (s, [])
/-- A tiller record. -/
def dumpTil (k : Nat) (t : Tiller) : List Byte :=
  toBytes 8 t.pc ++ toBytes 4 t.mask ++ toBytes 1 k ++ toBytes 1 t.st.code ++ toBytes 1 t.fmt.toNat ++ toBytes 1 (t.mode.toNat % 8)
/-- What the dump holds of a group whose finite writes have been performed. DESIGN CHOICE: the places of the fields of its record. -/
def dumpGroup (b : Block) (gi : Nat) (g : Group) (w : List Nat) : List Byte :=
  let til := (upto 8).filter fun k => (g.til k).st != .free
  toBytes 8 b.launch ++ toBytes 4 b.idx ++ toBytes 1 gi ++ toBytes 1 g.slot ++ toBytes 1 til.length ++ toBytes 1 0 ++ toBytes 4 w.length ++ toBytes 4 g.flags ++
  List.replicate 40 0 ++ (til.flatMap fun k => dumpTil k (g.til k)) ++ (w.flatMap fun x => toBytes 8 x) ++
  ((upto (g.vregs * 32)).flatMap fun i => toBytes 4 (g.vget (i / 32) (i % 32)).toNat) ++ ((upto g.sregs).flatMap fun i => toBytes 8 (g.sget i).toNat) ++
  ((upto 16).flatMap fun i => toBytes 4 (g.pget i).toNat)
/-- `DUMP_WRITTEN`: the finite pending writes of the VD's groups are performed and the dump is written; where DUMP is 0 or faults nothing is. The
groups of other VDs may issue again. -/
def execDumpWritten (q : Nat) (s : State) : Host.Outcome State Fault Refusal :=
  event s (
    let k := s.quarter q
    match k.stop, s.pidOf (q / 16) with
    | some vd, some pid =>
      if k.dumped then none
      else
        let mine := (s.quarterAll q).filter fun x => x.2.1.vd == vd
        let r := mine.foldl (fun (a : State × List Byte) x =>
          let w := dumpPend x.2.2.2.pend a.1
          (w.1.modGroup x.1 x.2.2.1 Group.drainCore, a.2 ++ dumpGroup x.2.1 x.2.2.1 x.2.2.2.drainCore w.2)) (s, [])
        let (s, e) := r.1.trcEnt (q / 16) pid vd
        let d := toBytes 8 k.stopAt ++ toBytes 1 (q / 4 % 4) ++ toBytes 1 (q % 4) ++ toBytes 1 mine.length ++ toBytes 1 k.stopCause ++ List.replicate 52 0 ++ r.2
        let s := if e.dump == 0 then s else match s.vaWrite (q / 16) pid vd e.dump d with
          | (t, none) => t
          | (_, some _) => s
        some (s.modQuarter q fun k => { k with dumped := true })
    | _, _ => none)

/-! ### Samples (R391 to R393) -/

/-- The next instruction of a tiller, if its words are in the core's cache. -/
def State.nextOf (s : State) (b : Block) (t : Tiller) : Option Instr :=
  match s.icFind b.slice b.core b.vd t.pc with
  | none => none
  | some e => match decodeWords (e.words.drop (t.pc % 32 / 4)) with
    | .ok (i, _) => some i
    | .error _ => none
/-- The wait of a pending instruction as a reason (R393): an engine's wait has its own code. -/
def Pend.reason (p : Pend) : Nat := match p.kind with
  | .alu => 5
  | .mem _ => 5
  | .cond (.pwait _ _) => 10
  | .cond (.cwait _ _) => 11
  | .cond (.mwait _ _) => 12
  | .cond (.qwait _ _) => 13
  | .cond (.ctrwait _ _) => 14
  | .cond (.snooze _) => 17
  | .cond (.bar _) => 9
  | .cond (.ctrfault _ _ _) => 18
  | .cond _ => 5
/-- The reason of a register wait: 3 for a write by the sequencer or the vector unit, 4 for any other engine's (R393). -/
def Pend.regReason (p : Pend) : Nat := if p.kind == .alu && decide (p.op < 0x90) then 3 else 4
/-- The reasons 3 to 22 for which a tiller waits; empty when it is ready. -/
def State.tilWaits (s : State) (b : Block) (g : Group) (k : Nat) : List Nat :=
  let t := g.til k
  let next := s.nextOf b t
  let uses := ((next.map fun i => (usesOf i g).all).getD []).filter (marked g k)
  let regs := uses.flatMap fun r => (g.pend.filter fun e => e.2.marks.contains r || r == .flags).map fun e => e.2.regReason
  let wins := (t.wins.filter fun w => w.left == 0).filterMap fun w => (tget g.pend w.id).map Pend.reason
  let wait (w : LWait) : List Nat := match w with
    | .on id => ((tget g.pend id).map Pend.reason).toList
    | .parked _ => [18]
    | .fetch _ => [18]
    | .recRoom => [22]
    | .sealWin => [11]
  regs ++ wins ++ match t.st with
    | .ready => if next.isNone && (s.icFind b.slice b.core b.vd t.pc).isNone then [8] else []
    | .waiting => if !regs.isEmpty || !wins.isEmpty then [] else if next.any fun i => opcode i == 0xDC then [19] else [6]
    | .longWait w => wait w
    | .atBar _ => [9]
    | .atJoin => [15]
    | .atWide => [15]
    | .held _ => [16]
    | _ => []
/-- The least of a list of reasons. -/
def leastOf (l : List Nat) : Nat := l.foldl min 22
/-- Tiller, PC and reason of a sample of a group (R392). Whether the datapath is busy under `PASSC` is a matter of clocks: free; it then holds
back the tillers whose next instruction is of the vector unit. -/
def State.sampleOf (s : State) (q : Nat) (x : Nat × Block × Nat × Group) : State × Nat × Nat × Nat :=
  let b := x.2.1
  let g := x.2.2.2
  let live := ((upto 8).find? fun k => (g.til k).st.live).getD 0
  let idle := (upto 8).filter fun k => (g.til k).st == .ready && (s.tilWaits b g k).isEmpty
  let vec := idle.filter fun k => (s.nextOf b (g.til k)).any fun i => decide (0x40 ≤ opcode i) && decide (opcode i < 0x90)
  if !s.quarterOpen b g || b.res != .resident then (s, live, (g.til live).pc, 21)
  else if !(s.quarter q).act.contains (some (x.1, x.2.2.1)) then (s, live, (g.til live).pc, 20)
  else if g.lastIssue == s.now && s.now != 0 then (s, g.lastSlot, g.lastPc, 0)
  else
    let (busy, s) := if (s.slice b.slice).passc == 1 || vec.isEmpty then (0, s) else s.choose 2
    match (if busy == 1 then vec else []), idle with
    | k :: _, _ => (s, k, (g.til k).pc, 2)
    | [], k :: _ => (s, k, (g.til k).pc, 1)
    | [], [] => (s, live, (g.til live).pc, leastOf (s.tilWaits b g live))
/-- PERIOD of TRC_CTL, and whether the slice samples (R389). -/
def Slice.period (x : Slice) : Nat := x.trcCtl / 2 ^ 48
def Slice.samples (x : Slice) : Bool := bit x.trcCtl 0 && decide (16 ≤ x.period)
/-- SCNT stands at 0 while sampling is stopped or no group can be selected, and counts from the clock at which both are so (R391, R396). -/
def Quarter.stamp (on : Bool) (now : Nat) (k : Quarter) : Quarter := if on && k.counting then k else { k with sampAt := now, counting := on }
def State.stampSamples (s : State) : State :=
  { s with quarters := tmap (fun q k => k.stamp ((s.slice (q / 16)).samples && k.act.any Option.isSome) (s.clocks (q / 16))) s.quarters }
/-- `SAMPLE_TAKEN`: the next occupied slot after SPTR is sampled. -/
def execSampleTaken (q : Nat) (s : State) : Host.Outcome State Fault Refusal :=
  event s (
    let slice := q / 16
    let x := s.slice slice
    let k := s.quarter q
    if x.inReset || !x.samples || s.clocks slice - k.sampAt < x.period * 1000 then none
    else
      let all := s.quarterAll q
      match (upto 24).findSome? fun i => all.find? fun y => y.2.2.2.slot == (k.sptr + 1 + i) % 24, s.pidOf slice with
      | some y, some pid =>
        let b := y.2.1
        let s := s.modQuarter q fun k => { k with sampAt := s.clocks slice, sptr := y.2.2.2.slot }
        let (s, e) := s.trcEnt slice pid b.vd
        if !e.sen || e.ring == 0 then some s
        else
          let qiss := s.now != 0 && all.any fun z => z.2.2.2.lastIssue == s.now
          let (s, til, pc, reason) := s.sampleOf q y
          some (s.ringPut slice pid b.vd e.ring (toBytes 8 pc ++ toBytes 8 (sampleWord s.now reason (q % 4) b.core y.2.2.2.slot til b.vd qiss)))
      | _, _ => none)

/-! ### Record streams (R408) -/

/-- `RECORD_STREAM_ROOM`: a tiller that waits for room tries its read again. Queue heads and control packets do so by their own events. -/
def execRecordStreamRoom (b g t : Nat) (s : State) : Host.Outcome State Fault Refusal :=
  event s (match tget s.blocks b with
    | none => none
    | some bl => match bl.groups[g]? with
      | none => none
      | some gr =>
        let u := gr.til t
        let (s, e) := s.trcEnt bl.slice bl.pid bl.vd
        if u.st != .longWait .recRoom then none
        else match s.rsHeader bl.slice bl.pid bl.vd e.rstream with
          | (s, some (lg, head, tail)) =>
            if tail + 2 - head > 2 ^ lg then none else some (s.modGroup b g fun g => g.setTil t { u with st := .ready })
          | (s, none) => some (s.modGroup b g fun g => g.setTil t { u with st := .ready }))

end Sys2Proof.Machine
end

