-- ==== Sys2Proof/Machine/TrustOps.lean ====
section
/-!
DEFINITION. The trust controller's operations (R367 to R380): commands of the port, images and reports (R370, R371), the forming of partitions
(R373, R375, R376), the management registers (R380).
-/
namespace Sys2Proof.Machine

/-! ### Commands -/

/-- A command of the management port at step 4 or later (R369): STATUS 3 before. DEDUCED: on a command page it is not a command, STATUS 1. -/
def State.portCmd (s : State) (c : Cmd) (f : State → Option State) : Option State :=
  if c.src.isSome then some (s.reply c 1) else if s.bootStep < 4 then some (s.reply c 3) else f s
/-- The OPC of a command (R336, R379); none of any other constructor. -/
def opc : Instr → Option Nat
  | .devinfo _ => some 0x01
  | .fwLoad _ _ => some 0x02
  | .fwDone _ => some 0x03
  | .attest _ _ => some 0x04
  | .svnBurn _ _ => some 0x05
  | .partCreate _ _ _ _ _ _ _ _ => some 0x10
  | .partDestroy _ _ => some 0x11
  | .resize _ _ _ _ _ _ _ => some 0x12
  | .sliceReset _ _ => some 0x13
  | .partStatus _ _ => some 0x14
  | .sregRd _ _ _ => some 0x15
  | .sregWr _ _ _ _ => some 0x16
  | .qreg _ _ _ _ _ => some 0x20
  | .ctrbase _ _ _ => some 0x21
  | .savearea _ _ _ => some 0x22
  | .ownertab _ _ => some 0x23
  | .spillarea _ _ _ => some 0x24
  | .peer _ _ _ _ => some 0x25
  | .pattest _ _ => some 0x26
  | .hartsDown _ _ => some 0x27
  | .vdctx _ _ _ => some 0x30
  | .wayprof _ _ _ _ => some 0x31
  | .pageRetire _ _ _ _ _ => some 0x32
  | .shootdown _ _ _ _ => some 0x33
  | .fresolve _ _ _ => some 0x34
  | .keyGen _ _ => some 0x35
  | .keyZero _ _ => some 0x36
  | .scrubStart _ _ _ _ _ _ => some 0x37
  | _ => none
/-- The OPCs of R379. -/
def opcList : List Nat := [0x01, 0x02, 0x03, 0x04, 0x05, 0x10, 0x11, 0x12, 0x13, 0x14, 0x15, 0x16] ++ (upto 8).map (· + 0x20) ++ (upto 8).map (· + 0x30)
/-- The first eight bytes of a command record (R378): OPC, TAG, zeros. -/
def cmdHead (i : Instr) (tag : Nat) : Option (List Byte) := (opc i).map fun o => toBytes 2 o ++ toBytes 2 tag ++ toBytes 4 0
/-- The first bytes of a response record (R378): TAG and STATUS. -/
def Resp.head (r : Resp) : List Byte := toBytes 2 r.cmd.tag ++ toBytes 2 r.status
/-- A partition is being formed, resized or destroyed (R379). -/
def PState.moves : PState → Bool
  | .forming => true
  | .resizing => true
  | .destroying => true
  | _ => false
def State.devBusy (s : State) : Bool := s.parts.any fun e => e.2.st.moves
/-- PART of R371. -/
def PkgPart.code : PkgPart → Nat
  | .ts16 => 1
  | .ts4 => 2
/-- The states of R373 as a report or a response shows them. DESIGN CHOICE: the numbers. -/
def PState.code : PState → Nat
  | .forming => 1
  | .booting => 2
  | .running => 3
  | .resizing => 4
  | .destroying => 5

/-! ### Fuses, images and reports (R368, R370, R371) -/

/-- The value of a thermometer code. -/
def svnValue (w : DWord) : Nat := (lanesOf 64 w.toNat).length
def State.svnOf (s : State) (kind : Nat) : Nat := svnValue (listGet 0 s.fuses.svn (kind - 1))
/-- PASSMAP. -/
def State.passMap (s : State) : Nat := maskOf ((s.tested.filter fun e => e.2).map Prod.fst)
/-- Fields of an image's header. -/
def imgKind (h : List Byte) : Nat := fieldAt h 4 1
def imgKey (h : List Byte) : Nat := fieldAt h 5 1
def imgSvn (h : List Byte) : Nat := fieldAt h 6 2
def imgSize (h : List Byte) : Nat := fieldAt h 8 4
def imgDigest (h : List Byte) : List Byte := (h.drop 16).take 32
/-- The 32 bytes of the SM3 digest of a byte string. -/
def sm3Bytes (b : List Byte) : List Byte := toBytes 32 (Config.sm3 b).toNat
/-- The first check that an image fails: 0 FORMAT to 4 ROLLBACK (R370). DEDUCED: a field outside its range, or a body shorter than SIZE, is FORMAT. -/
def State.imgFails (s : State) (h body : List Byte) : Option Nat :=
  let key := listGet 0 s.fuses.pubkeys (imgKey h)
  if h.length != 128 || fieldAt h 0 4 != 0x4C4F4453 || imgKind h == 0 || imgKind h > 5 || imgKey h > 3 || imgSvn h > 64 || imgSize h == 0 ||
      imgSize h > 67108864 || body.length != imgSize h || (h.drop 112).any (· != 0) then some 0
  else if bit s.fuses.revoke (imgKey h) then some 1
  else if sm3Bytes body != imgDigest h then some 2
  else if !Config.sm2Ok key (h.take 48) ((h.drop 48).take 64) then some 3
  else if imgSvn h < s.svnOf (imgKind h) then some 4
  else none
/-- Check the images of a set in turn: accepted ones replace earlier ones of their kind; the first failure is kept. -/
def State.checkSet : Nat → State → List Byte → Option Nat → State × Option Nat
  | 0, s, _, bad => (s, bad)
  | n + 1, s, b, bad =>
    if b.isEmpty then (s, bad)
    else
      let h := b.take 128
      let body := (b.drop 128).take (imgSize h)
      match s.imgFails h body with
      | some c => State.checkSet n s (b.drop (128 + imgSize h)) (some (bad.getD c))
      | none => State.checkSet n { s with images := tput s.images (imgKind h) (h ++ body) } (b.drop (128 + imgSize h)) bad
/-- Every kind 1 to 5 has been accepted. -/
def State.imagesFull (s : State) : Bool := [1, 2, 3, 4, 5].all fun k => (tget s.images k).isSome
/-- Step 3 ends when every slice that passed has its firmware ready (R369). -/
def State.stepUp (s : State) : State :=
  if s.bootStep == 3 && (s.tested.filter fun e => e.2).all fun e => (tget s.slices e.1).any fun x => !x.inReset then { s with bootStep := 4 } else s

/-- A partition's entry in the partition table. DESIGN CHOICE: its layout: id, state, mask of slices, map. -/
def partEntry (pid : Nat) (p : Part) : List Byte := toBytes 1 pid ++ toBytes 1 p.st.code ++ toBytes 2 (maskOf p.slices) ++ p.map.flatMap fun e => toBytes 1 e
def State.partTable (s : State) : List Byte := s.parts.flatMap fun e => partEntry e.1 e.2
/-- The bytes of a report that are signed, and the report (R371). -/
def State.reportBody (s : State) (nonce : List Byte) (scope : Nat) (table : List Byte) : List Byte :=
  let svn := ((upto 5).map fun i => s.svnOf (i + 1) * 2 ^ (7 * i)).foldl (· + ·) 0
  nonce ++ toBytes 8 s.fuses.rdev.toNat ++ toBytes 1 s.part.code ++ toBytes 1 scope ++ toBytes 2 s.passMap ++ toBytes 4 0 ++ toBytes 8 svn ++
  (upto 5).flatMap (fun i => imgDigest ((tget s.images (i + 1)).getD [])) ++ sm3Bytes table
def State.attestation (s : State) (nonce : List Byte) (scope : Nat) (table : List Byte) : List Byte :=
  let b := s.reportBody nonce scope table
  b ++ toBytes 64 (Config.sign s.fuses.idkey b).toNat

/-! ### Forming a partition (R373, R375 to R377) -/

/-- The slices of a rectangle, ascending. -/
def rectSlices (c0 r0 c1 r1 : Nat) : List Nat := (upto 16).filter fun k => decide (c0 ≤ k % 8) && decide (k % 8 ≤ c1) && decide (r0 ≤ k / 8) && decide (k / 8 ≤ r1)
/-- Whether a set of slices is a rectangle. -/
def isRect (l : List Nat) : Bool :=
  let least (m : List Nat) : Nat := m.foldl min 15
  let most (m : List Nat) : Nat := m.foldl max 0
  !l.isEmpty && rectSlices (least (l.map fun k => k % 8)) (least (l.map fun k => k / 8)) (most (l.map fun k => k % 8)) (most (l.map fun k => k / 8)) == l
/-- The map of a partition that supplies none. -/
def defaultMap (l : List Nat) : List Nat := (upto 256).map fun e => 128 + listGet 0 l (e % l.length)
/-- A supplied map names only slices of the partition, and each of them (R375). -/
def mapOk (l m : List Nat) : Bool :=
  m.length == 256 && (m.all fun e => !bit e 7 || (l.contains (e % 16) && e < 256)) && l.all fun k => m.any fun e => bit e 7 && e % 16 == k
/-- A slice that belongs to no partition. -/
def State.freeSlice (s : State) (k : Nat) : Bool := s.part.slices.contains k && !(s.fwOf k).asgn && !(s.fwOf k).excl
/-- Write INT_ROUTE of the slices of a list (R376). -/
def State.setRoutes (s : State) (l : List Nat) (pid ifbase : Nat) : State :=
  { s with routes := l.foldl (fun r k => tput r k { ifbase := ifbase, nharts := 8 * l.length, pid := pid }) s.routes }
/-- The harts of the slices of a list stop; their state is lost. -/
def State.stopHarts (s : State) (l : List Nat) : State := { s with harts := s.harts.filter fun e => !l.contains (e.1 / 8) }
/-- A slice is reset and zeroed, its firmware is loaded again, and it is free (R375, R379, R385). No scrub part runs there any more; SCRUB_PROG
keeps its counts (R26). -/
def State.freeUp (s : State) (k : Nat) : State :=
  let s := (s.resetSlice k).zeroLines fun l => l / 2 ^ 29 == k
  let s := (upto 4).foldl (fun s j => s.setProg k j { s.prog k j with active := false }) s
  let s := s.setFw k fun f => { f with asgn := false, hold := true, pid := 0 }
  let s := s.modSlice k fun x => { x with heads := [], map := List.replicate 256 0, keys := [] }
  let s : State := { s with routes := tput s.routes k {} }
  s.leaveReset k
/-- Everything of a partition is gone (R373 Absent). -/
def State.dropPart (s : State) (pid : Nat) : State :=
  { s with
    parts := tdel s.parts pid
    cancels := s.cancels.filter fun e => !(e.2.launches.any fun lk => (tget s.launches lk).any fun l => l.pid == pid)
    queues := s.queues.filter fun e => e.2.pid != pid
    launches := s.launches.filter fun e => e.2.pid != pid
    reqs := s.reqs.filter fun e => e.2.pid != pid
    walks := s.walks.filter fun e => e.2.pid != pid
    ordq := s.ordq.filter fun e => e.pid != pid
    rops := s.rops.filter fun e => e.2.pid != pid
    msgs := s.msgs.filter fun e => e.2.pid != pid
    reports := s.reports.filter fun e => e.2.pid != pid
    rcvs := s.rcvs.filter fun e => e.2.pid != pid
    jobs := s.jobs.filter fun e => e.1 / 4 != pid
    migrating := s.migrating.filter fun e => e.1 != pid
    msiLost := cset 0 s.msiLost pid 0 }

/-! ### Management registers (R380) -/

/-- The registers of the table that have a value to read; TRC_CMD is write-only, and its reading is not given: zero (R6). -/
def State.sreg (s : State) (slice off : Nat) : Option Nat :=
  let x := s.slice slice
  match off with
  | 0x00 => some x.resCtl
  | 0x08 => some x.saveBase
  | 0x10 => some x.saveSize
  | 0x18 => some x.resStat
  | 0x20 => some x.netCtl
  | 0x28 => some x.netCC
  | 0x30 => some x.netStat
  | 0x38 => some x.trcCtl
  | 0x40 => some x.trcTab
  | 0x48 => some 0
  | 0x50 => some x.trcAddr
  | 0x58 => some (x.trcLost * 2 ^ 32 + x.trcStops * 2 ^ 16 + x.trcDiv)
  | 0x60 => some x.pwrCtl
  | 0x68 => some (s.pwrStat slice)
  | 0x70 => some (x.srIdle * 2 ^ 16 + x.pdIdle)
  | 0x78 => some (x.chErrCE * 2 ^ 32 + x.chErrUE * 2 ^ 8 + if x.patrol then 1 else 0)
  | 0x80 => some (s.fwOf slice).word
  | 0x88 => let r := (tget s.routes slice).getD {}; some (r.ifbase * 2 ^ 16 + r.nharts * 2 ^ 8 + r.pid)
  | off =>
    if 0xC0 ≤ off && off < 0xE0 && off % 8 == 0 then some (s.prog slice ((off - 0xC0) / 8)).word
    else if 0x1000 ≤ off && off < 0x3000 && off % 8 == 0 then some (cget 0 x.gft ((off - 0x1000) / 8))
    else none

/-- A write of TRC_CMD (R389): other codes are ignored. -/
def State.trcCmd (s : State) (slice v : Nat) : State :=
  let vd := bits v 9 0
  (match bits v 63 56 with
  | 1 => s.refresh slice vd
  | 2 => s.stopQuarter slice (bits v 15 14) (bits v 13 12) vd
  | 3 => s.resumeQuarter slice (bits v 15 14) (bits v 13 12)
  | 4 => s.csave slice vd
  | 5 => s.crestore slice vd
  | _ => none).getD s
/-- A write of TRC_CTL: SCNT starts again where sampling had stopped (R391). -/
def State.setTrcCtl (s : State) (slice v : Nat) : State :=
  { s with slices := tmod s.slices slice fun x => { x with trcCtl := bits v 63 48 * 2 ^ 48 + v % 2 } }.stampSamples
/-- A write of TRC_VDTAB: 0 disables every VD (R389). -/
def Slice.setTab (x : Slice) (v : Nat) : Slice := if v == 0 then { x with trcTab := 0, trc := [], csets := releaseAll x.csets } else { x with trcTab := v }
where
  /-- No set is bound. -/
  releaseAll (l : List (Nat × CtrSet)) : List (Nat × CtrSet) := l.filter fun e => e.2.vd.isNone
/-- A multiple of 1 MiB. -/
def mibOk (v : Nat) : Bool := v % 2 ^ 20 == 0
/-- A write by SREG_WR (R380): what is not listed as writable is ignored. -/
def State.setSreg (s : State) (slice off v : Nat) : State :=
  let md (f : Slice → Slice) : State := s.modSlice slice f
  match off with
  | 0x00 => md (Slice.setResCtl v)
  | 0x08 => if mibOk v then md fun x => { x with saveBase := v } else s
  | 0x10 => if mibOk v then md fun x => { x with saveSize := v } else s
  | 0x20 =>
    let s := if bit v 1 then s else s.golrisOff slice
    s.modSlice slice fun x => { x with gport := bits v 63 48, vid := bits v 47 36, ect := bit v 2, gen := bit v 1 }
  | 0x28 => md fun x => { x with netCC := bits v 63 40 * 2 ^ 40 + v % 2 ^ 32 }
  | 0x38 => s.setTrcCtl slice v
  | 0x40 => md fun x => x.setTab v
  | 0x48 => s.trcCmd slice v
  | 0x50 => if canonical v then md fun x => { x with trcAddr := v } else s
  | 0x60 => (s.setPwrCtl slice v).getD s
  | 0x70 => md fun x => { x with srIdle := bits v 31 16, pdIdle := bits v 15 0 }
  | 0x78 => md (Slice.setChErr v)
  | off =>
    if 0x1000 ≤ off && off < 0x3000 then md fun x => { x with gft := cset 0 x.gft ((off - 0x1000) / 8) (bits v 31 31 * 2 ^ 31 + v % 2 ^ 11) } else s
/-- A command that names a slice's registers: of the port, or of the slice's own partition (R380). -/
def State.sregCmd (s : State) (c : Cmd) (slice off : Nat) (f : State → Nat → State) : Option State :=
  let go (s : State) : Option State := match s.sreg slice off with
    | none => some (s.reply c 1)
    | some v => some (f s v)
  match c.src with
  | none => s.portCmd c fun s => if s.part.slices.contains slice then go s else some (s.reply c 1)
  | some _ => s.partCmd c fun _ p s => if p.slices.contains slice then go s else some (s.reply c 1)

end Sys2Proof.Machine
end

