-- ==== Sys2Proof/Machine/Trust.lean ====
section
/-!
DEFINITION. Boot (R369 to R372), the commands of the port and of a partition kernel (R373 to R380), the boot of a partition (R381), resets and
rejoining (R383).
-/
namespace Sys2Proof.Machine

/-! ### Boot (R369, R372) -/

/-- `SELF_TEST_COMPLETE`: a slice that fails is excluded and reported; step 1 ends with the last. -/
def execSelfTestComplete (slice : Nat) (pass : Bool) (s : State) : Host.Outcome State Fault Refusal :=
  event s (
    if s.bootStep != 1 || !s.part.slices.contains slice || (tget s.tested slice).isSome then none
    else
      let s := { s with tested := tput s.tested slice pass }.setFw slice fun f => { f with excl := !pass }
      let s := if pass then s else s.portEvent .selfTestFail slice 0
      some (if s.part.slices.all fun k => (tget s.tested k).isSome then { s with bootStep := 2 } else s))
/-- `SLICE_FIRMWARE_READY`: step 3 ends when every slice that passed is ready. -/
def execSliceFirmwareReady (slice : Nat) (s : State) : Host.Outcome State Fault Refusal :=
  event s (
    if s.bootStep != 3 || tget s.tested slice != some true || (tget s.slices slice).any (fun x => !x.inReset) then none
    else some ({ s with slices := tput s.slices slice {} }.leaveReset slice).stepUp)

/-- `DEVINFO` (R379): RDEV, IDPUB, PART, PASSMAP, the fused SVNs, then the partition table. -/
def execDevinfo (c : Cmd) (s : State) : Host.Outcome State Fault Refusal :=
  event s (some (
    if c.src.isSome then s.reply c 1
    else if s.bootStep < 2 then s.reply c 3
    else s.reply c 0 ([s.fuses.rdev.toNat, s.fuses.idpub.toNat, s.part.code, s.passMap] ++ (upto 5).map fun i => s.svnOf (i + 1)) s.partTable))
/-- `FW_LOAD`: in step 2 only. -/
def execFwLoad (c : Cmd) (bytes : List Byte) (s : State) : Host.Outcome State Fault Refusal :=
  event s (some (
    if c.src.isSome then s.reply c 1
    else if s.bootStep != 2 then s.reply c 3
    else { s with fwSet := s.fwSet ++ bytes }.reply c 0))
/-- `FW_DONE` (R370): the set is checked; step 3 begins once every kind has been accepted. -/
def execFwDone (c : Cmd) (s : State) : Host.Outcome State Fault Refusal :=
  event s (some (
    if c.src.isSome then s.reply c 1
    else if s.bootStep != 2 then s.reply c 3
    else
      let r := State.checkSet (s.fwSet.length + 1) { s with fwSet := [] } s.fwSet none
      match r.2 with
      | some k => r.1.reply c 4 [Config.rejectCode k]
      | none => ((if r.1.imagesFull then { r.1 with bootStep := 3 }.stepUp else r.1)).reply c 0))
/-- `ATTEST` (R371): the device report. -/
def execAttest (c : Cmd) (nonce : List Byte) (s : State) : Host.Outcome State Fault Refusal :=
  event s (s.portCmd c fun s =>
    some (if nonce.length != 32 then s.reply c 1 else s.reply c 0 [] (s.attestation nonce 0xFF s.partTable)))
/-- `SVN_BURN`: the fused SVN of a kind goes up to that of its accepted image. -/
def execSvnBurn (c : Cmd) (kind : Nat) (s : State) : Host.Outcome State Fault Refusal :=
  event s (s.portCmd c fun s =>
    if kind == 0 || kind > 5 then some (s.reply c 1)
    else
      let v : Nat := 2 ^ imgSvn ((tget s.images kind).getD []) - 1
      let f := { s.fuses with svn := listSet s.fuses.svn (kind - 1) (listGet 0 s.fuses.svn (kind - 1) ||| BitVec.ofNat 64 v) }
      some ({ s with fuses := f }.reply c 0))

/-! ### Partitions (R373 to R377, R381) -/

/-- `PART_CREATE`: the slices' registers are programmed and the partition is Forming. Where the interrupt-file region lies is not given: free. -/
def execPartCreate (c : Cmd) (pid c0 r0 c1 r1 : Nat) (map : Option (List Nat)) (uri : List Byte) (s : State) : Host.Outcome State Fault Refusal :=
  event s (s.portCmd c fun s =>
    let l := rectSlices c0 r0 c1 r1
    if s.devBusy then some (s.reply c 2)
    else if (tget s.parts pid).isSome then some (s.reply c 3)
    else if l.any fun k => (s.fwOf k).excl then some (s.reply c 5)
    else if c0 > c1 || r0 > r1 || c1 > 7 || r1 > 1 || l.any (fun k => !s.part.slices.contains k) then some (s.reply c 6)
    else if pid > 15 || l.any (fun k => !s.freeSlice k) || map.any (fun m => !mapOk l m) then some (s.reply c 1)
    else
      let m := map.getD (defaultMap l)
      let p : Part := { slices := l, map := m, uri := uri, cmd := c }
      let (ifb, s) := s.choose (2 ^ 48)
      let s := l.foldl (fun s k => (s.setFw k fun f => { f with asgn := true, hold := true, pid := pid }).modSlice k fun x =>
        { x with map := m, keys := [], heads := [] }) s
      some ({ s with parts := tput s.parts pid p }.setRoutes l pid ifb))
/-- `PARTITION_ZEROING_COMPLETE`: HOLD clears on every slice together; hart 0 of the lead slice starts at the entry of the kind-4 image, which the
image holds: free. -/
def execPartitionZeroingComplete (pid : Nat) (s : State) : Host.Outcome State Fault Refusal :=
  event s (match tget s.parts pid with
    | none => none
    | some p =>
      if p.st != .forming || p.slices.any fun k => (s.slice k).inReset then none
      else
        let s := s.zeroLines fun l => p.slices.contains (l / 2 ^ 29)
        let s := p.slices.foldl (fun s k => s.setFw k fun f => { f with hold := false }) s
        let (pc, s) := s.freeVal
        let s := { s with harts := tput s.harts (s.leader pid * 8) { run := true, pc := pc.toNat } }
        some ((s.modPart pid fun p => { p with st := .booting }).reply p.cmd 0))
/-- `PART_DESTROY`: blocks are cancelled and harts stop. -/
def execPartDestroy (c : Cmd) (pid : Nat) (s : State) : Host.Outcome State Fault Refusal :=
  event s (s.portCmd c fun s =>
    if s.devBusy then some (s.reply c 2)
    else match tget s.parts pid with
      | none => some (s.reply c (if pid > 15 then 1 else 3))
      | some p =>
        if p.st != .running then some (s.reply c 3)
        else
          let ls := (s.launches.filter fun e => e.2.pid == pid).map Prod.fst
          let s := (s.stopHarts p.slices).modPart pid fun p => { p with st := .destroying, cmd := c, quiet := true }
          some (ls.foldl (fun s lk => p.slices.foldl (fun s k => s.cancelAt k lk) s) s))
/-- `PARTITION_DESTROY_COMPLETE`: every block has ended; the slices are reset, zeroed and free. -/
def execPartitionDestroyComplete (pid : Nat) (s : State) : Host.Outcome State Fault Refusal :=
  event s (match tget s.parts pid with
    | none => none
    | some p =>
      if p.st != .destroying || s.blocks.any fun e => e.2.pid == pid then none
      else some (((p.slices.foldl State.freeUp s).dropPart pid).reply p.cmd 0))

/-- What PART_STATUS tells of a partition: state, step of a resize, list, map, FW_CTL and INT_ROUTE of each slice. -/
def State.partStatus (s : State) (pid : Nat) : List Nat :=
  match tget s.parts pid with
  | none => [0]
  | some p => [p.st.code, (p.resize.map Resize.step).getD 0, maskOf p.slices] ++ p.map ++
      p.slices.flatMap fun k => [(s.fwOf k).word, (s.sreg k 0x88).getD 0]
/-- `PART_STATUS`: of any partition for the port, of its own for a partition kernel. -/
def execPartStatus (c : Cmd) (pid : Nat) (s : State) : Host.Outcome State Fault Refusal :=
  event s (match c.src with
    | none => s.portCmd c fun s => some (if pid > 15 then s.reply c 1 else s.reply c 0 (s.partStatus pid))
    | some me => s.partCmd c fun _ _ s => some (if pid != me then s.reply c 1 else s.reply c 0 (s.partStatus pid)))
/-- `PATTEST` (R371): the report of the partition. -/
def execPattest (c : Cmd) (nonce : List Byte) (s : State) : Host.Outcome State Fault Refusal :=
  event s (s.partCmd c fun pid p s =>
    some (if nonce.length != 32 then s.reply c 1 else s.reply c 0 [] (s.attestation nonce pid (partEntry pid p))))

/-- A command record with an OPC that R379 does not list returns STATUS 1; one that it lists is its own command. -/
def State.recordIn (s : State) (src : Option Nat) (code tag : Nat) : State :=
  let c : Cmd := { src := src, tag := tag }
  if opcList.contains code || src.any (fun p => (tget s.parts p).isNone) then s else s.reply c 1
/-- The tail counts of BAR0 and the record at a place of its rings of 64: the last that came there (R378). -/
def State.respTail (s : State) : Nat := (s.resps.filter fun r => r.cmd.src.isNone).length
def State.eventTail (s : State) : Nat := (s.events.filter fun e => e.pid.isNone).length
def State.respAt (s : State) (k : Nat) : Option Resp := (upto s.respTail).foldl (fun o i => if i % 64 == k then (s.resps.filter fun r => r.cmd.src.isNone)[i]? else o) none
def State.eventAt (s : State) (k : Nat) : Option Event := (upto s.eventTail).foldl (fun o i => if i % 64 == k then (s.events.filter fun e => e.pid.isNone)[i]? else o) none

/-! ### Registers and areas (R379, R380) -/

/-- `SREG_RD`. -/
def execSregRd (c : Cmd) (slice off : Nat) (s : State) : Host.Outcome State Fault Refusal :=
  event s (s.sregCmd c slice off fun s v => s.reply c 0 [v])
/-- `SREG_WR`. -/
def execSregWr (c : Cmd) (slice off val : Nat) (s : State) : Host.Outcome State Fault Refusal :=
  event s (s.sregCmd c slice off fun s _ => (s.setSreg slice off (val % 2 ^ 64)).reply c 0)
/-- A queue that is registered again keeps its place (R269); PIN pins or frees its slot (R272). -/
def Queue.after (k : Queue) (old : Option Queue) (done : Nat) : Queue :=
  match old with
  | none => { k with done := done }
  | some o =>
    let st := if o.slot.isSome then (if k.pin then QState.pinned else QState.mapped) else o.st
    { k with done := done, st := st, slot := o.slot, mappedAt := o.mappedAt, pendAt := o.pendAt }
/-- `QREG` (R269, R270): the header must be usable, HEAD equal DONE, and TAIL − HEAD at most the ring. A 45th pinned queue is refused (R273);
its STATUS, 3, is a DESIGN CHOICE (notes/assumptions/94.md). -/
def execQreg (c : Cmd) (q vd hdr : Nat) (a : QAttr) (s : State) : Host.Outcome State Fault Refusal :=
  event s (s.partCmd c fun pid _ s =>
    let lead := s.leader pid
    let k : Queue := { pid := pid, vd := vd, hdr := hdr, pin := a.pin, lcok := a.lcok, npok := a.npok, maint := a.maint, dev := a.dev, weight := a.weight }
    if q ≥ 65536 || vd ≥ 1024 || hdr % 64 != 0 || a.weight == 0 || a.weight > 255 then some (s.reply c 1)
    else if a.pin && 44 ≤ ((s.queuesOf pid).filter fun e => e.1 != queueKey pid q && e.2.pin).length then some (s.reply c 3)
    else match s.readHdr lead k with
      | (s, .ok (some h)) =>
        if h.head != h.done || h.tail < h.head || h.tail - h.head > 2 ^ h.lg then some (s.reply c 1)
        else
          let s := (s.sliceList pid).foldl (fun s i => s.setHead i (queueKey pid q) { n := h.head }) s
          some ({ s with queues := tput s.queues (queueKey pid q) (k.after (tget s.queues (queueKey pid q)) h.done) }.reply c 0)
      | (s, _) => some (s.reply c 1))
/-- `CTRBASE` (R289): a multiple of 4,096. -/
def execCtrbase (c : Cmd) (vd base : Nat) (s : State) : Host.Outcome State Fault Refusal :=
  event s (s.partCmd c fun pid _ s =>
    if vd ≥ 1024 || base % 4096 != 0 || base ≥ 2 ^ 64 then some (s.reply c 1)
    else some ((s.modPart pid fun p => { p with ctrBase := cset 0 p.ctrBase vd base }).reply c 0))
/-- `SAVEAREA`: the slice at position k of the list gets base + k · size. -/
def execSavearea (c : Cmd) (base size : Nat) (s : State) : Host.Outcome State Fault Refusal :=
  event s (s.partCmd c fun _ p s =>
    if !mibOk base || !mibOk size then some (s.reply c 1)
    else
      let put (s : State) (k : Nat) : State := s.modSlice k fun x =>
        { x with saveBase := (base + ((findIdx (· == k) p.slices).getD 0) * size) % 2 ^ 64, saveSize := size % 2 ^ 64 }
      some ((p.slices.foldl put s).reply c 0))
/-- `OWNERTAB` (R323). -/
def execOwnertab (c : Cmd) (base : Nat) (s : State) : Host.Outcome State Fault Refusal :=
  event s (s.partCmd c fun pid _ s => some ((s.modPart pid fun p => { p with ownerTab := some (base % 2 ^ 64) }).reply c 0))
/-- `SPILLAREA` (R147). -/
def execSpillarea (c : Cmd) (base size : Nat) (s : State) : Host.Outcome State Fault Refusal :=
  event s (s.partCmd c fun pid _ s => some ((s.modPart pid fun p => { p with spillBase := base % 2 ^ 64, spillSize := size % 2 ^ 64 }).reply c 0))

/-! ### Resets (R383) -/

/-- `SLICE_RESET`. -/
def execSliceReset (c : Cmd) (slice : Nat) (s : State) : Host.Outcome State Fault Refusal :=
  event s (s.portCmd c fun s => if !s.part.slices.contains slice || (s.fwOf slice).excl then some (s.reply c 1) else some ((s.resetEvent slice).reply c 0))
/-- `MGMT_CORE_TIMEOUT`: the management core has not answered within 10 ms. -/
def execMgmtCoreTimeout (slice : Nat) (s : State) : Host.Outcome State Fault Refusal :=
  event s (if s.bootStep < 4 || (tget s.slices slice).all Slice.inReset then none else some (s.resetEvent slice))
/-- A scrub part on the slice is not over (R338). -/
def State.scrubbing (s : State) (slice : Nat) : Bool := (upto 4).any fun j => (s.prog slice j).active
/-- The reports of a partition that wait for a home are answered with retry, and held packets are tried again (R127, R344). -/
def State.homesBack (s : State) (pid : Nat) : State :=
  ((s.reports.filter fun e => e.2.pid == pid && e.2.f.kind == .home).foldl (fun s e => s.answerReport e.1 e.2 .retry) s).retryHeld pid
/-- `SLICE_REJOIN`: the firmware and the keys are loaded again, the stack is zero, no scrub part is open; HOLD clears and the slice rejoins. A
slice that is free leaves reset and stays held. A slice that a resize removes is not rejoined. -/
def execSliceRejoin (slice : Nat) (s : State) : Host.Outcome State Fault Refusal :=
  event s (
    let x := s.slice slice
    if s.bootStep < 4 || !(tget s.slices slice).any Slice.inReset || s.scrubbing slice then none
    else match s.ownerPart slice with
      | none => some ((s.zeroLines fun l => l / 2 ^ 29 == slice).leaveReset slice)
      | some (pid, p) =>
        if (p.resize.any fun r => !r.add && r.slice == slice && decide (2 ≤ r.step)) || p.st == .destroying then none
        else
          let other := (p.slices.find? fun k => k != slice && !(s.slice k).inReset).map fun k => (s.slice k).keys
          let s := if x.zeroed then s else s.zeroLines fun l => l / 2 ^ 29 == slice
          let s := (s.modSlice slice fun x => { x with keys := other.getD x.keys, map := p.map }).leaveReset slice
          if (s.slice slice).inReset then some s else
          let s := if p.st == .forming then s else s.setFw slice fun f => { f with hold := false }
          some (s.homesBack pid))

end Sys2Proof.Machine
end

