-- ==== Sys2Proof/Machine/Resize.lean ====
section
/-!
DEFINITION. Resizing a running partition (R384 to R388): the checks, the steps, the migration of granules, and the blocks that a leaving slice
gives up (R281, R288, R387).
-/
namespace Sys2Proof.Machine

/-! ### The command (R384) -/

/-- The slice list after a change. -/
def newList (l : List Nat) (slice : Nat) (add : Bool) : List Nat :=
  (upto 16).filter fun k => if k == slice then add else l.contains k
/-- The STATUS with which RESIZE is refused; 0 accepts. -/
def State.resizeStatus (s : State) (pid slice : Nat) (add : Bool) (drain gused : Nat) (map : Option (List Nat)) : Nat :=
  if s.devBusy || !(s.jobsOf pid).isEmpty then 2
  else match tget s.parts pid with
    | none => 3
    | some p =>
      let l := newList p.slices slice add
      if p.st != .running then 3
      else if add && (s.fwOf slice).excl then 5
      else if !isRect l then 6
      else if (add && !s.freeSlice slice) || (!add && !p.slices.contains slice) || gused > l.length * vgran || map.any (fun m => !mapOk l m) || drain > 10000 then 1
      else 0
/-- `RESIZE`: accepted, it posts RESIZE_NOTICE; a removal waits for HARTS_DOWN, unless that has come. -/
def execResize (c : Cmd) (pid slice : Nat) (add : Bool) (drain gused : Nat) (map : Option (List Nat)) (s : State) : Host.Outcome State Fault Refusal :=
  event s (s.portCmd c fun s =>
    let st := s.resizeStatus pid slice add drain gused map
    if st != 0 then some (s.reply c st)
    else match tget s.parts pid with
      | none => none
      | some p =>
        let ready := add || p.down.contains slice
        let r : Resize := { add := add, slice := slice, drain := drain, gused := gused, map := map.getD (defaultMap (newList p.slices slice add)), cmd := c,
                            step := if ready then 1 else 0, since := s.now }
        some ((s.modPart pid fun p => { p with st := .resizing, resize := some r, quiet := ready }).postEvent pid .resizeNotice slice 0))
/-- The harts of a slice are down, and step 1 of its removal begins. -/
def State.hartsOff (s : State) (pid slice : Nat) : State :=
  (s.stopHarts [slice]).modPart pid fun p =>
    let go := p.resize.any fun r => r.step == 0 && r.slice == slice
    { p with down := slice :: p.down.filter (· != slice), quiet := p.quiet || go, resize := p.resize.map fun r => if go then { r with step := 1 } else r }
/-- `HARTS_DOWN`. -/
def execHartsDown (c : Cmd) (slice : Nat) (s : State) : Host.Outcome State Fault Refusal :=
  event s (s.partCmd c fun pid p s => some (if p.slices.contains slice then (s.hartsOff pid slice).reply c 0 else s.reply c 1))
/-- `HARTS_DOWN_TIMEOUT`: after 100 ms. -/
def execHartsDownTimeout (pid : Nat) (s : State) : Host.Outcome State Fault Refusal :=
  event s (match (tget s.parts pid).bind Part.resize with
    | none => none
    | some r => if r.step != 0 || s.now < r.since + 100000000 then none else some (s.hartsOff pid r.slice))

/-! ### Steps 1 and 2 -/

/-- A slice that stays is in reset: the resize pauses (R388). -/
def State.paused (s : State) (p : Part) (r : Resize) : Bool :=
  p.slices.any fun k => (s.slice k).inReset && !(!r.add && r.slice == k && decide (2 ≤ r.step))
/-- Every head has let its packet go, on every slice (step 1). With the lead leaving, what it holds the notices of is complete (R288). -/
def State.headsQuiet (s : State) (pid : Nat) (p : Part) (r : Resize) : Bool :=
  let lead := s.leader pid
  ((s.queuesOf pid).all fun e => p.slices.all fun k => (s.headOf k e.1).pkt.isNone && (s.headOf k e.1).n == (s.headOf lead e.1).n) &&
  (r.add || r.slice != lead || !(s.launches.any fun e => e.2.pid == pid && e.2.ordering))
/-- Whether a block's work is on a core. -/
def ResSt.onCore : ResSt → Bool
  | .resident => true
  | .stopping => true
  | .saving => true
  | .moving => true
  | .restoring => true
  | _ => false
/-- Step 2 is over: no remote operation of the leaving slice is in progress, no load of a saved block is due, and no block is on its cores. -/
def State.drained (s : State) (r : Resize) : Bool :=
  r.add || !(s.blocks.any fun e => e.2.slice == r.slice && (e.2.res.onCore || s.awaits e.1)) && !(s.rops.any fun e => e.2.slice == r.slice && s.ropBusy e.2)
/-- `DRAIN_EXPIRY`: after DRAIN µs the resident blocks of the leaving slice are swapped out in full, one at a time on each tile (R315), each once its
remote operations have completed or failed (R363). -/
def execDrainExpiry (pid : Nat) (s : State) : Host.Outcome State Fault Refusal :=
  event s (match (tget s.parts pid).bind Part.resize with
    | none => none
    | some r =>
      let here (s : State) (e : Nat × Block) : Bool :=
        e.2.slice == r.slice && e.2.res == .resident && !s.tileMoving e.2.slice e.2.core && !(s.rops.any fun o => o.2.b == e.1)
      if r.add || r.step != 2 || s.now < r.since + r.drain * 1000 || !(s.blocks.any (here s)) then none
      else some (s.blocks.foldl (fun t e => if here t e then t.modBlock e.1 fun b => { b with res := .stopping, swap := true } else t) s))

/-! ### Step 3: migration (R386) -/

/-- Home and SLA of a granule under a map. -/
def granAt (map : List Nat) (g : Nat) : Option (Nat × Nat) := homeOf map (g * 2 ^ 21)
/-- The granules in use whose place differs. -/
def migrants (old new : List Nat) (gused : Nat) : List Nat :=
  (upto gused).filter fun g => (granAt new g).isSome && (granAt old g).isSome && granAt new g != granAt old g
/-- Whether a granule's destination is free: none that is still to be copied stands there. -/
def Resize.free (r : Resize) (old : List Nat) (g : Nat) : Bool := !(r.moves.any fun m => m != g && granAt old m == granAt r.map g)
/-- The next copy: the highest of those whose destination is free, the staged granule among them; else the highest of the cycles goes to the
staging granule. -/
def Resize.pick (r : Resize) (old : List Nat) : Option (Nat × Bool) :=
  let ok := (r.moves ++ r.staged.toList).filter (r.free old)
  match ok with
  | [] => if r.moves.isEmpty then none else some (r.moves.foldl max 0, true)
  | _ => some (ok.foldl max 0, false)
/-- Copy 2 MiB from one stack address to another with codes, poison and keys; the lines of the old place leave the slice cache. -/
def State.moveGran (s : State) (src dst : Nat × Nat) : State :=
  let a := cell src.1 src.2 / 128
  let d := cell dst.1 dst.2 / 128
  let s := (upto 16384).foldl (fun s i => if cget 0 s.errs (a + i) == 0 then s else (s.checkLine (a + i)).1) s
  let from' (k : Nat) : Bool := decide (a ≤ k) && decide (k < a + 16384)
  let s0 := s.zeroLines fun l => decide (d ≤ l) && decide (l < d + 16384)
  { s0 with
    mem := (s.mem.filter fun e => from' (e.1 / 128)).foldl (fun m e => cset 0 m (e.1 - a * 128 + d * 128) e.2) s0.mem
    poison := (s.poison.filter fun e => from' e.1).foldl (fun m e => cset false m (e.1 - a + d) e.2) s0.poison
    lineKey := (s.lineKey.filter fun e => from' e.1).foldl (fun m e => cset 0 m (e.1 - a + d) e.2) s0.lineKey
    slices := tmod s0.slices src.1 fun x => { x with scache := x.scache.filter fun y => !(y.near.isNone && from' y.line) } }
/-- The lines of a place are poisoned. -/
def State.poisonGran (s : State) (p : Nat × Nat) : State :=
  { s with poison := (upto 16384).foldl (fun m i => cset false m (cell p.1 p.2 / 128 + i) true) s.poison }
/-- Where a granule stands before its copy: its old place, or the staging granule of its destination's slice. -/
def Resize.source (r : Resize) (old : List Nat) (g : Nat) : Nat × Nat :=
  let dst := (granAt r.map g).getD (0, 0)
  if r.staged == some g then (dst.1, vgran * 2 ^ 21) else (granAt old g).getD (0, 0)
/-- Begin the next copy: its granule is mid-migration. -/
def State.nextCopy (s : State) (pid : Nat) (old : List Nat) (r : Resize) : State :=
  let n := r.pick old
  let s := s.modPart pid fun p => { p with resize := some { r with copying := n } }
  match n with
  | some (g, _) => if s.migrating.contains (pid, g) then s else { s with migrating := (pid, g) :: s.migrating }
  | none => s
/-- `GRANULE_MIGRATION_COMPLETE`: the copy in progress ends and the next begins. A granule that a reset of the leaving slice has lost arrives
poisoned (R388). -/
def execGranuleMigrationComplete (pid : Nat) (s : State) : Host.Outcome State Fault Refusal :=
  event s (match tget s.parts pid with
    | none => none
    | some p => match p.resize with
      | none => none
      | some r => match r.copying with
        | none => none
        | some (g, stage) =>
          if r.step != 3 || s.paused p r then none
          else
            let src := r.source p.map g
            let dst := (granAt r.map g).getD (0, 0)
            let to' := if stage then (dst.1, vgran * 2 ^ 21) else dst
            let s := s.moveGran src to'
            let s := if r.lost && src.1 == r.slice then s.poisonGran to' else s
            let r' : Resize := { r with moves := r.moves.filter (· != g), staged := if stage then some g else if r.staged == some g then none else r.staged,
                                        copying := none }
            some (s.nextCopy pid p.map r'))

/-! ### Steps 4 to 6 -/

/-- An ordered entry follows its location to where the new map puts it (R146, R147, R386). -/
def OrdEnt.moved (old new : List Nat) (n : Nat) (e : OrdEnt) : OrdEnt :=
  match ((upto n).find? fun g => granAt old g == some (e.home, e.sla / 2 ^ 21 * 2 ^ 21)).bind (granAt new) with
  | some p => { e with home := p.1, sla := p.2 + e.sla % 2 ^ 21 }
  | none => e
/-- Step 4: the map and the list are in every slice, and the ordered queues hold the entries of the locations that have come to them. -/
def State.putMap (s : State) (pid : Nat) (p : Part) (r : Resize) : State :=
  let l := newList p.slices r.slice r.add
  let to' (e : OrdEnt) : OrdEnt := if e.pid == pid then e.moved p.map r.map (p.slices.length * vgran) else e
  -- a slice to which an entry of a launch comes has not applied it, whatever it has acknowledged (R287)
  let comes (l : Launch) (k : Nat) : Bool := s.ordq.any fun e => e.pid == pid && e.launch == l.lid && (to' e).home == k
  let s : State := { s with ordq := s.ordq.map to', launches := tmap (fun _ l => if l.pid == pid then { l with acks := l.acks.filter fun k => !comes l k } else l) s.launches }
  let s := s.modPart pid fun p => { p with slices := l, map := r.map }
  { s with slices := tmap (fun k x => if l.contains k || k == r.slice then { x with map := r.map } else x) s.slices }
/-- Step 5: every translation is dropped, and what waited for a home goes on. -/
def State.shootAll (s : State) (pid : Nat) : State :=
  let mine := s.sliceList pid
  let s : State := { s with
    cores := tmap (fun k c => if mine.contains (k / 4) then { c with tlb := [] } else c) s.cores
    slices := tmap (fun k x => if mine.contains k then { x with fcache := [], wcache := [] } else x) s.slices
    migrating := s.migrating.filter fun e => e.1 != pid }
  s.homesBack pid
/-- The blocks of a launch that a leaving slice had not started. -/
def Launch.unrun (l : Launch) (slice : Nat) : List Nat :=
  let own := if l.list.contains slice then (upto l.blocks).filter fun b => ownerOf l.list (pkGrain l.pkt) b == slice && decide (cget 0 l.next slice ≤ b) else []
  own ++ (l.extra.filter fun e => e.1 == slice).map Prod.snd
/-- A launch gives the blocks of a leaving slice to the new list (R281); a slice that receives one withdraws its done notice (R288). `carried` are
the indices of those carried in saved state. -/
def Launch.reassign (l : Launch) (slice : Nat) (list carried : List Nat) : Launch :=
  let to' (b : Nat) : Nat := ownerOf list (pkGrain l.pkt) b
  let new := (l.unrun slice).map fun b => (to' b, b)
  let got := new.map Prod.fst ++ carried.map to'
  { l with
    extra := (l.extra.filter fun e => e.1 != slice) ++ new, next := cset 0 l.next slice l.blocks
    sent := l.sent.filter fun k => k != slice && !got.contains k, held := l.held.filter fun k => !got.contains k }
/-- Carried blocks go to their new slices with their saved state (R387); where a line of the save area is poisoned, whether it is of a block's
state is not the spec's to say: free. -/
def State.carry (s : State) (slice : Nat) (list : List Nat) : State :=
  let x := s.slice slice
  let map := ((s.ownerPart slice).map fun p => p.2.map).getD []
  let bad := (upto (x.saveSize / 2 ^ 21 + 1)).any fun i => (homeOf map (x.saveBase + i * 2 ^ 21)).any fun h => s.poison.any fun e => e.2 && e.1 / 16384 == cell h.1 h.2 / 2 ^ 21
  (s.blocks.filter fun e => e.2.slice == slice).foldl (fun s e =>
    let (n, s) := if bad then s.choose 2 else (0, s)
    if n == 1 then s.loseBlock e.1 e.2
    else
      let grain := ((tget s.launches e.2.lk).map fun l => pkGrain l.pkt).getD 1
      let to' := ownerOf list grain e.2.idx
      let s := (s.rops.filter fun o => o.2.b == e.1).foldl (fun s o =>
        let m := s.nextMsg to' o.2.peer
        { m.2 with rops := tput m.2.rops o.1 { o.2 with slice := to', msg := m.1 } }) s
      s.modBlock e.1 fun b => { b with slice := to', res := .swapped, swap := true, carried := true }) s
/-- Cancels on their way to a slice take effect there. -/
def State.cancelNow (s : State) (slice : Nat) : State :=
  let cs := s.cancels.filter fun e => e.2.slices.contains slice
  let s := cs.foldl (fun s e => e.2.launches.foldl (fun s lk => s.cancelAt slice lk) s) s
  { s with cancels := tmap (fun _ c => { c with slices := c.slices.filter (· != slice) }) s.cancels }
/-- Step 6 of a removal: the blocks of the leaving slice are reassigned, and the slice is reset, zeroed and free. -/
def State.removeSlice (s : State) (pid slice : Nat) (list : List Nat) : State :=
  let s := s.cancelNow slice
  let mine := s.blocks.filter fun e => e.2.slice == slice
  let idx (k : Nat) : List Nat := (mine.filter fun (e : Nat × Block) => e.2.lk == k).map fun (e : Nat × Block) => e.2.idx
  let s : State := { s with launches := tmap (fun k l => if l.pid == pid then l.reassign slice list (idx k) else l) s.launches }
  ((s.carry slice list).freeUp slice).modPart pid fun p => { p with down := p.down.filter (· != slice) }
/-- Step 6 of an addition: FW_CTL, HOLD 0, the keys of the partition, and heads at the counts of the lead. Its harts are stopped. -/
def State.addSlice (s : State) (pid slice : Nat) : State :=
  let from' := s.slice (((s.sliceList pid).find? fun k => k != slice).getD slice)
  let s := s.setFw slice fun f => { f with asgn := true, hold := false, pid := pid }
  s.modSlice slice fun x => { x with keys := from'.keys, heads := from'.heads.map fun e => (e.1, { n := e.2.n }) }
/-- Step 6: INT_ROUTE is rewritten, the heads resume, and launches that now hold every notice go on. -/
def State.endResize (s : State) (pid : Nat) (r : Resize) : State :=
  let list := s.sliceList pid
  let ifb := (((list.find? fun k => k != r.slice).bind fun k => tget s.routes k).map IntRoute.ifbase).getD 0
  let s := if r.add then s.addSlice pid r.slice else s.removeSlice pid r.slice list
  let s := s.setRoutes list pid ifb
  let s := s.modPart pid fun p => { p with st := .running, resize := none, quiet := false }
  let s := { s with launches := tmap (fun k l => if l.pid == pid then { l with ordering := l.ordering || s.allDone k l } else l) s.launches }
  let s := ((s.launches.filter fun e => e.2.pid == pid).map Prod.fst).foldl (fun s lk => list.foldl (fun s k => s.sendDone lk k) s) s
  s.reply r.cmd 0
/-- A message of a slice that leaves is still in flight, or a request at its home is still to be answered; the firewall changes only after it (R21). -/
def State.inFlight (s : State) (r : Resize) : Bool :=
  !r.add && ((s.msgs.any fun e => e.2.src == r.slice || e.2.dst == r.slice) || s.reqs.any fun e => e.2.home == r.slice && e.2.st.homed)
/-- `RESIZE_STEP_COMPLETE`: the present step is over on every slice and the next begins. -/
def execResizeStepComplete (pid : Nat) (s : State) : Host.Outcome State Fault Refusal :=
  event s (match tget s.parts pid with
    | none => none
    | some p => match p.resize with
      | none => none
      | some r =>
        let up (s : State) : State := s.modPart pid fun p => { p with resize := p.resize.map fun r => { r with step := r.step + 1, since := s.now } }
        if s.paused p r then none
        else match r.step with
          | 1 =>
            if !s.headsQuiet pid p r then none
            else
              let s := if r.add then s else s.modSlice r.slice fun x => { x with drain := true }
              some (up s)
          | 2 => if !s.drained r then none else
            some ((up s).nextCopy pid p.map { r with step := 3, since := s.now, moves := migrants p.map r.map r.gused })
          | 3 => if !r.moves.isEmpty || r.staged.isSome || r.copying.isSome then none else some (up s)
          | 4 => some (up (s.putMap pid p r))
          | 5 => some ((up (s.shootAll pid)).runHeld pid)
          | 6 => if s.inFlight r then none else some (s.endResize pid r)
          | _ => none)

end Sys2Proof.Machine
end

