-- ==== Sys2Proof/Machine/HartOps.lean ====
section
/-!
DEFINITION. The privileged state of a host hart (R421 to R424): its CSRs as they read and are written, its IMSIC, the entry of a trap and the
return from one, interrupts. What R421 names and the spec does not describe is that of the RISC-V privileged architecture and the AIA: the numbers
and fields of the CSRs, the causes, delegation. PRESUMED (notes/assumptions/65.md).
-/
namespace Sys2Proof.Machine

/-! ### Modes and CSRs -/

/-- V = 1. -/
def modeV : HMode → Bool
  | .vs => true
  | .vu => true
  | _ => false
/-- The privilege of a mode: 0 user, 1 supervisor, 3 machine. -/
def modePrv : HMode → Nat
  | .m => 3
  | .s => 1
  | .vs => 1
  | .u => 0
  | .vu => 0
/-- The mode of a privilege under V. -/
def modeOf (prv : Nat) (v : Bool) : HMode := if prv == 3 then .m else if prv == 1 then (if v then .vs else .s) else if v then .vu else .u
/-- A CSR as it is stored. -/
def Hart.raw (h : Hart) (n : Nat) : Nat := cget 0 h.csr n
def Hart.setRaw (h : Hart) (n v : Nat) : Hart := { h with csr := cset 0 h.csr n (v % 2 ^ 64) }
def Hart.flag (h : Hart) (n i : Nat) : Bool := bit (h.raw n) i
/-- A field of a CSR, n bits from bit i on. -/
def setField (w i n v : Nat) : Nat := w - w / 2 ^ i % 2 ^ n * 2 ^ i + v % 2 ^ n * 2 ^ i
def Hart.setFieldOf (h : Hart) (c i n v : Nat) : Hart := h.setRaw c (setField (h.raw c) i n v)

/-- Of a file of the IMSIC: the least identity that is pending, enabled and below the threshold; 0 for none. -/
def Hart.topId (h : Hart) (file : Nat) : Nat :=
  let pe := cget 0 h.eip file &&& cget 0 h.eie file
  let id := (lanesOf 2048 pe).headD 0
  if cget 0 h.ethr file != 0 && cget 0 h.ethr file ≤ id then 0 else id
/-- Whether a file signals. -/
def Hart.signals (h : Hart) (file : Nat) : Bool := cget 0 h.edel file == 1 && h.topId file != 0
/-- hgeip: the guest files that signal (R424). -/
def Hart.geip (h : Hart) : Nat := maskOf (((upto 15).map fun i => i + 1).filter h.signals)
/-- The guest file that hstatus.VGEIN selects; none for 0 and above GEILEN (R421). -/
def Hart.vgein (h : Hart) : Option Nat := let n := bits (h.raw 0x600) 17 12; if n == 0 || n > 15 then none else some n
/-- mip: the software's bits, the external interrupts of the files, those of the guest files, and the timer of stimecmp. -/
def Hart.mip (h : Hart) (now : Nat) : Nat :=
  h.raw 0x344 ||| (if h.signals 16 then 2 ^ 11 else 0) ||| (if h.signals 0 then 2 ^ 9 else 0) |||
  (if h.vgein.any fun n => h.signals n then 2 ^ 10 else 0) ||| (if h.geip &&& h.raw 0x607 != 0 then 2 ^ 12 else 0) |||
  (if h.flag 0x30A 63 && decide (h.raw 0x14D ≤ now) then 2 ^ 5 else 0)

/-- The bits of mstatus that sstatus shows. -/
def sstatusMask : Nat := 0x80000003000DE762
/-- Whether an access of a CSR is barred: 2 illegal instruction, 22 virtual instruction. -/
def csrBars (md : HMode) (n : Nat) (write : Bool) : Option Nat :=
  let lvl := n / 256 % 4
  if n ≥ 4096 || (write && n / 1024 == 3) then some 2
  else match md with
    | .m => none
    | .s => if lvl == 3 then some 2 else none
    | .u => if lvl == 0 then none else some 2
    | .vs => if lvl == 3 then some 2 else if lvl == 2 then some 22 else none
    | .vu => if lvl == 3 then some 2 else if lvl == 0 then none else some 22
/-- With V = 1 a supervisor CSR is the VS one. -/
def csrAlias (md : HMode) (n : Nat) : Nat := if md == .vs && n / 256 % 4 == 1 && n / 1024 == 0 then n + 0x100 else n
/-- The file that an indirect register of the IMSIC reaches: of machine, supervisor and VS level. -/
def Hart.fileOf (h : Hart) (lvl : Nat) : Option Nat := if lvl == 3 then some 16 else if lvl == 1 then some 0 else h.vgein
/-- The indirect register of a file that iselect names. -/
def Hart.imsicRead (h : Hart) (file sel : Nat) : Nat :=
  if sel == 0x70 then cget 0 h.edel file else if sel == 0x72 then cget 0 h.ethr file
  else if 0x80 ≤ sel && sel < 0xC0 && sel % 2 == 0 then cget 0 h.eip file / 2 ^ (32 * (sel - 0x80)) % 2 ^ 64
  else if 0xC0 ≤ sel && sel < 0x100 && sel % 2 == 0 then cget 0 h.eie file / 2 ^ (32 * (sel - 0xC0)) % 2 ^ 64
  else 0
def Hart.imsicWrite (h : Hart) (file sel v : Nat) : Hart :=
  -- identity 0 does not exist
  let word (w base : Nat) : Nat := let x := setField w (32 * (sel - base)) 64 v; x / 2 * 2
  if sel == 0x70 then { h with edel := cset 0 h.edel file (v % 2) } else if sel == 0x72 then { h with ethr := cset 0 h.ethr file (v % 2048) }
  else if 0x80 ≤ sel && sel < 0xC0 && sel % 2 == 0 then { h with eip := cset 0 h.eip file (word (cget 0 h.eip file) 0x80) }
  else if 0xC0 ≤ sel && sel < 0x100 && sel % 2 == 0 then { h with eie := cset 0 h.eie file (word (cget 0 h.eie file) 0xC0) }
  else h
/-- The level of an indirect register or of an external-interrupt register. -/
def csrLvl (n : Nat) : Nat := n / 256 % 4
/-- A CSR as it reads: `time` is the reference timestamp (R16), plus htimedelta in a guest's modes. -/
def Hart.csrVal (h : Hart) (now n : Nat) : Nat :=
  let n := csrAlias h.mode n
  if n == 0xC01 then (now + if modeV h.mode then h.raw 0x605 else 0) % 2 ^ 64
  else if n == 0x100 then h.raw 0x300 &&& sstatusMask
  else if n == 0x344 then h.mip now
  else if n == 0x144 then h.mip now &&& h.raw 0x303
  else if n == 0x104 then h.raw 0x304 &&& h.raw 0x303
  else if n == 0x244 then (h.mip now &&& h.raw 0x603) / 2
  else if n == 0x204 then (h.raw 0x304 &&& h.raw 0x603) / 2
  else if n == 0x644 then h.mip now &&& 0x1444
  else if n == 0x604 then h.raw 0x304 &&& 0x1444
  else if n == 0xE12 then h.geip
  else if n == 0x351 || n == 0x151 || n == 0x251 then ((h.fileOf (csrLvl n)).map fun f => h.imsicRead f (h.raw (n - 1))).getD 0
  else if n == 0x35C || n == 0x15C || n == 0x25C then ((h.fileOf (csrLvl n)).map fun f => h.topId f * 65537).getD 0
  else h.raw n
/-- The translation modes that a hart has (R421); satp, vsatp and hgatp keep their value when another is written. -/
def atpMode (v : Nat) : Bool := List.contains [0, 8, 9, 10] (v / 2 ^ 60)
/-- Write the bits of a mask of a CSR. -/
def Hart.mergeRaw (h : Hart) (n mask v : Nat) : Hart := h.setRaw n ((h.raw n - (h.raw n &&& mask)) ||| (v &&& mask))
/-- A write of a CSR. -/
def Hart.csrPut (h : Hart) (n v : Nat) : Hart :=
  let n := csrAlias h.mode n
  if n == 0x180 || n == 0x280 then (if atpMode v then h.setRaw n v else h)
  else if n == 0x680 then (if atpMode v then h.setRaw n (v / 2 ^ 60 * 2 ^ 60 + v / 2 ^ 44 % 1024 * 2 ^ 44 + v % 2 ^ 44 / 4 * 4) else h)
  else if n == 0x100 then h.mergeRaw 0x300 sstatusMask v
  else if n == 0x144 then h.mergeRaw 0x344 (h.raw 0x303 &&& 2) v
  else if n == 0x104 then h.mergeRaw 0x304 (h.raw 0x303) v
  else if n == 0x244 then h.mergeRaw 0x344 (h.raw 0x603 &&& 4) (2 * v)
  else if n == 0x204 then h.mergeRaw 0x304 (h.raw 0x603) (2 * v)
  else if n == 0x644 then h.mergeRaw 0x344 4 v
  else if n == 0x604 then h.mergeRaw 0x304 0x1444 v
  else if n == 0x351 || n == 0x151 || n == 0x251 then ((h.fileOf (csrLvl n)).map fun f => h.imsicWrite f (h.raw (n - 1)) v).getD h
  else if n == 0x35C || n == 0x15C || n == 0x25C then
    ((h.fileOf (csrLvl n)).map fun f => { h with eip := cset 0 h.eip f (setBit (cget 0 h.eip f) (h.topId f) false) }).getD h
  else h.setRaw n v

/-! ### Traps -/

/-- The exceptions that carry a virtual address. -/
def addrCause (c : Nat) : Bool := List.contains [0, 1, 4, 5, 6, 7, 12, 13, 15, 20, 21, 23] c
/-- Where a trap goes: the base of a vector register, and for interrupts in vectored mode the cause's entry. -/
def trapPc (tvec code : Nat) (intr : Bool) : Nat := tvec / 4 * 4 + if intr && tvec % 4 == 1 then 4 * code else 0
/-- A trap is taken: in M-mode, in S-mode where medeleg or mideleg delegates it, in VS-mode where hedeleg or hideleg does too (R423). -/
def Hart.trap (h : Hart) (intr : Bool) (code tval gpa : Nat) : Hart :=
  let v := modeV h.mode
  let p := modePrv h.mode
  let h := { h with cause := some code, tval := tval }
  let toS := h.mode != .m && h.flag (if intr then 0x303 else 0x302) code
  let gva := if !intr && addrCause code && v then 1 else 0
  let cause (c : Nat) : Nat := (if intr then 2 ^ 63 else 0) + c
  if toS && v && h.flag (if intr then 0x603 else 0x602) code then
    let code := if intr then code - 1 else code
    let st := h.raw 0x200
    let h := h.setRaw 0x200 (setField (setField (setField st 8 1 p) 5 1 (st / 2)) 1 1 0)
    let h := ((h.setRaw 0x241 h.pc).setRaw 0x242 (cause code)).setRaw 0x243 tval
    { h with mode := .vs, pc := trapPc (h.raw 0x205) code intr }
  else if toS then
    let st := h.raw 0x300
    let h := h.setRaw 0x300 (setField (setField (setField st 8 1 p) 5 1 (st / 2)) 1 1 0)
    let hs := setField (setField (h.raw 0x600) 7 1 (if v then 1 else 0)) 6 1 gva
    let h := h.setRaw 0x600 (if v then setField hs 8 1 p else hs)
    let h := (((h.setRaw 0x141 h.pc).setRaw 0x142 (cause code)).setRaw 0x143 tval).setRaw 0x643 (gpa / 4)
    { h with mode := .s, pc := trapPc (h.raw 0x105) code intr }
  else
    let st := h.raw 0x300
    let st := setField (setField (setField st 11 2 p) 7 1 (st / 8)) 3 1 0
    let h := h.setRaw 0x300 (setField (setField st 39 1 (if v then 1 else 0)) 38 1 gva)
    let h := (((h.setRaw 0x341 h.pc).setRaw 0x342 (cause code)).setRaw 0x343 tval).setRaw 0x34B (gpa / 4)
    { h with mode := .m, pc := trapPc (h.raw 0x305) code intr }
/-- `mret`. -/
def Hart.mret (h : Hart) : Hart :=
  let st := h.raw 0x300
  let p := bits st 12 11
  let md := modeOf p (bit st 39 && p != 3)
  let st := setField (setField (setField (setField st 3 1 (st / 2 ^ 7)) 7 1 1) 11 2 0) 39 1 0
  { h.setRaw 0x300 (if p == 3 then st else setField st 17 1 0) with mode := md, pc := h.raw 0x341, cause := none }
/-- `sret`, of S-mode and of VS-mode. -/
def Hart.sret (h : Hart) : Hart :=
  let back (st : Nat) : Nat := setField (setField (setField st 1 1 (st / 2 ^ 5)) 5 1 1) 8 1 0
  if h.mode == .vs then
    { h.setRaw 0x200 (back (h.raw 0x200)) with mode := modeOf (bits (h.raw 0x200) 8 8) true, pc := h.raw 0x241, cause := none }
  else
    let md := modeOf (bits (h.raw 0x300) 8 8) (h.flag 0x600 7)
    { (h.setRaw 0x300 (back (h.raw 0x300))).setFieldOf 0x600 7 1 0 with mode := md, pc := h.raw 0x141, cause := none }
/-- The interrupts in the order of their priority. -/
def intrOrder : List Nat := [11, 3, 7, 9, 1, 5, 12, 10, 2, 6]
/-- The interrupt that a hart takes next: pending, enabled, and for a mode above the hart's own or enabled in it. -/
def Hart.nextIntr (h : Hart) (now : Nat) : Option Nat :=
  let on := h.mip now &&& h.raw 0x304
  let due (c : Nat) : Bool :=
    if !h.flag 0x303 c then h.mode != .m || h.flag 0x300 3
    else if h.mode == .m then false
    else if !h.flag 0x603 c then modeV h.mode || h.mode == .u || h.flag 0x300 1
    else h.mode == .vu || (h.mode == .vs && h.flag 0x200 1)
  intrOrder.find? fun c => bit on c && due c
/-- The cause of an environment call. -/
def callCause : HMode → Nat
  | .u => 8
  | .vu => 8
  | .s => 9
  | .vs => 10
  | .m => 11
/-- An instruction of a supervisor that a mode may not execute: 2 illegal, 22 virtual. -/
def supBars (md : HMode) (hyper : Bool) : Option Nat := match md with
  | .m => none
  | .s => none
  | .u => some 2
  | .vs => if hyper then some 22 else none
  | .vu => some 22

end Sys2Proof.Machine
end

