-- ==== Sys2Proof/Machine/HostCore.lean ====
section
/-!
DEFINITION. Host harts as agents of the memory and of their slice's devices, with their registers, translations and exceptions (R12, R16, R142, R340, R376, R421 to R425). The layout of satp, vsatp, hgatp and of page table entries, the widths
of Sv39, Sv48, Sv57 and their x4 forms, and the exception causes that R423 does not name are those of the RISC-V privileged architecture, which
R421 names: PRESUMED (notes/assumptions/13.md, notes/assumptions/65.md).
-/
namespace Sys2Proof.Machine

/-- What stops a hart's access; a fault of the second stage has the guest's address. -/
inductive HFault where
  | page | guest (gpa : Nat) | access | misaligned | wait
  deriving DecidableEq, Repr

/-- The access that an operation needs. -/
def hartNeeds : HartOp → Acc
  | .fetch => { x := true }
  | .load => { r := true }
  | .store => { w := true }
  | .amo _ => { r := true, w := true }
  | .lr => { r := true }
  | .sc => { w := true }
  | .hlv => { r := true }
  | .hlvx => { x := true }
  | .hsv => { w := true }
  | _ => {}
/-- The exception cause (R423 for an access fault). -/
def hartCause (op : HartOp) (f : HFault) : Nat :=
  let k := match op with
    | .fetch => 0
    | .load => 1
    | .lr => 1
    | .hlv => 1
    | .hlvx => 1
    | _ => 2
  match f with
  | .page => listGet 0 [12, 13, 15] k
  | .guest _ => listGet 0 [20, 21, 23] k
  | .access => listGet 0 [1, 5, 7] k
  | _ => listGet 0 [0, 4, 6] k

/-! ### Translation (R421 to R423) -/

/-- The top level of a translation mode; none for one that is not implemented (R421). -/
def svTop (mode : Nat) : Option Nat := if mode == 8 then some 2 else if mode == 9 then some 3 else if mode == 10 then some 4 else none
/-- How a walk treats its leaves: for user mode, with SUM, with MXR. -/
structure Priv where
  user : Bool
  sum : Bool
  mxr : Bool
  deriving DecidableEq, Repr
/-- Why a leaf forbids an access: the U bit as the mode wants it, the permissions, A and D (Svade). -/
def leafDenies (e : Pte) (p : Priv) (a : Acc) : Bool :=
  (if p.user then !e.u else e.u && (a.x || !p.sum)) || (a.r && !(e.r || p.mxr && e.x)) || (a.w && !e.w) || (a.x && !e.x) || !e.a || (a.w && !e.d)
/-- A state with the outcome of a hart's walk: its reads of table entries are reads at the homes. -/
abbrev HRes (α : Type) : Type := State × Except HFault α
/-- Why a read of a table entry fails: a home that does not answer makes the hart wait. -/
def tableFault (f : PFault) : HFault := if f.kind == .home then .wait else .access
/-- The second stage of a hart from a level down: the partition address and the key slot. -/
def State.hartG (s : State) (slice : Nat) (p : Priv) (top gpa : Nat) (acc : Acc) : Nat → Nat → HRes (Nat × Nat)
  | level, table =>
    let idx := if level == top then gpa / 2 ^ (12 + 9 * level) else gpa / 2 ^ (12 + 9 * level) % 512
    match s.readPa8 slice (s.slice slice).map (table + 8 * idx) 0 with
    | (s, .error f) => (s, .error (tableFault f))
    | (s, .ok w) =>
      let e := pteOf w
      if e.bad || e.malformed level then (s, .error (.guest gpa))
      else if e.leaf then (s, if leafDenies e { p with user := true } acc then .error (.guest gpa) else .ok (e.target level gpa, e.rsw))
      else match level with
        | 0 => (s, .error (.guest gpa))
        | l + 1 => State.hartG s slice p top gpa acc l (e.ppn * 4096)
/-- The second stage under hgatp. -/
def State.hartStage2 (s : State) (slice hgatp : Nat) (p : Priv) (gpa : Nat) (acc : Acc) : HRes (Nat × Nat) :=
  if hgatp / 2 ^ 60 == 0 then (s, .ok (gpa, 0))
  else match svTop (hgatp / 2 ^ 60) with
    | none => (s, .error (.guest gpa))
    | some top => if gpa ≥ 2 ^ (23 + 9 * top) then (s, .error (.guest gpa)) else s.hartG slice p top gpa acc top (hgatp % 2 ^ 44 / 4 * 4 * 4096)
/-- The first stage from a level down; its tables lie behind the second stage where there is one. -/
def State.hartV (s : State) (slice : Nat) (hgatp : Option Nat) (ctx : VdCtx) (va : Nat) (p : Priv) (acc : Acc) : Nat → Nat → HRes Nat
  | level, table =>
    let at' := table + 8 * (va / 2 ^ (12 + 9 * level) % 512)
    let pa : HRes (Nat × Nat) := match hgatp with
      | none => (s, .ok (at', 0))
      | some h => s.hartStage2 slice h p at' { r := true }
    match pa with
    | (s, .error f) => (s, .error f)
    | (s, .ok (pa, ksel)) => match s.readPa8 slice (s.slice slice).map pa (ctx.keySlot ksel) with
      | (s, .error f) => (s, .error (tableFault f))
      | (s, .ok w) =>
        let e := pteOf w
        if e.bad || e.malformed level then (s, .error .page)
        else if e.leaf then (s, if leafDenies e p acc then .error .page else .ok (e.target level va))
        else match level with
          | 0 => (s, .error .page)
          | l + 1 => State.hartV s slice hgatp ctx va p acc l (e.ppn * 4096)
/-- The bits above a mode's address all equal its top bit. -/
def svCanonical (top va : Nat) : Bool := let n := 20 + 9 * top; let t := va / 2 ^ n; t == 0 || t == 2 ^ (64 - n) - 1
/-- The first stage under satp or vsatp. -/
def State.hartStage1 (s : State) (slice atp : Nat) (hgatp : Option Nat) (ctx : VdCtx) (va : Nat) (p : Priv) (acc : Acc) : HRes Nat :=
  if atp / 2 ^ 60 == 0 then (s, .ok va)
  else match svTop (atp / 2 ^ 60) with
    | none => (s, .error .page)
    | some top => if svCanonical top va then s.hartV slice hgatp ctx va p acc top (atp % 2 ^ 44 * 4096) else (s, .error .page)

/-- How the home knows an access (R422): by a VD and virtual address, or by a partition address alone. -/
inductive HTag where
  | vd (n : Nat)
  | phys
  deriving DecidableEq, Repr
/-- A hart. -/
def hartKey (a : HartAcc) : Nat := a.slice * 8 + a.hart
def State.hart (s : State) (a : HartAcc) : Hart := (tget s.harts (hartKey a)).getD {}
def State.setHart (s : State) (a : HartAcc) (f : Hart → Hart) : State := { s with harts := tput s.harts (hartKey a) (f (s.hart a)) }
/-- The mode in which a hart accesses memory: its own; under MPRV that of MPP and MPV, for data; for HLV and HSV the guest's, of hstatus.SPVP. -/
def Hart.accMode (h : Hart) (op : HartOp) : HMode := match op with
  | .hlv => modeOf (bits (h.raw 0x600) 8 8) true
  | .hlvx => modeOf (bits (h.raw 0x600) 8 8) true
  | .hsv => modeOf (bits (h.raw 0x600) 8 8) true
  | .fetch => h.mode
  | _ => if h.mode == .m && h.flag 0x300 17 then let p := bits (h.raw 0x300) 12 11; modeOf p (h.flag 0x300 39 && p != 3) else h.mode
/-- SUM and MXR of a mode: those of vsstatus for a guest, whose MXR sstatus's also gives; U is what user mode needs. -/
def Hart.priv (h : Hart) (md : HMode) : Priv :=
  let st := if modeV md then h.raw 0x200 else h.raw 0x300
  { user := modePrv md == 0, sum := bit st 18, mxr := bit st 19 || h.flag 0x300 19 }
/-- The VMID and the register of the first stage of a mode. -/
def Hart.vmid (h : Hart) (md : HMode) : Nat := if modeV md then h.raw 0x680 / 2 ^ 44 % 1024 else 0
def Hart.atp (h : Hart) (md : HMode) : Nat := if modeV md then h.raw 0x280 else h.raw 0x180
/-- The hart's own walk of an address: the partition address and the tag. -/
def State.hartWalkFor (s : State) (pid slice : Nat) (h : Hart) (md : HMode) (acc : Acc) (va : Nat) : HRes (Nat × HTag) :=
  let ctx (vd : Nat) : VdCtx := ((tget s.parts pid).bind fun p => tget p.vds vd).getD {}
  let p := h.priv md
  let vm := h.vmid md
  if md == .m then (s, .ok (va, .phys))
  else if !modeV md then
    if h.atp md / 2 ^ 60 == 0 then (s, .ok (va, .phys))
    else let r := s.hartStage1 slice (h.atp md) none (ctx 0) va p acc; (r.1, r.2.map fun pa => (pa, .vd 0))
  else match s.hartStage1 slice (h.atp md) (some (h.raw 0x680)) (ctx vm) va p acc with
    | (s, .error f) => (s, .error f)
    | (s, .ok gpa) => let r := s.hartStage2 slice (h.raw 0x680) p gpa acc; (r.1, r.2.map fun x => (x.1, .vd vm))
/-- The entry of its TLB that serves an access: of the page, in the mode, under the present ASID and VMID, with the permission (R422). -/
def Hart.tlbHit (h : Hart) (md : HMode) (acc : Acc) (va : Nat) : Option HTlb :=
  h.tlb.find? fun e => e.mode == md && e.asid == h.atp md / 2 ^ 44 % 2 ^ 16 && e.vmid == h.vmid md && e.page == va / 4096 &&
    !((acc.r && !e.acc.r) || (acc.w && !e.acc.w) || (acc.x && !e.acc.x))
/-- The hart's translation of an address: by an entry of its TLB, whether it still holds one being free, or by its walk, which enters one. Bare
addresses are in no TLB. -/
def State.hartWalk (s : State) (pid : Nat) (a : HartAcc) (va : Nat) : HRes (Nat × HTag) :=
  let h := s.hart a
  let md := h.accMode a.op
  let acc := hartNeeds a.op
  let hit := h.tlbHit md acc va
  let (n, s) := if hit.isSome then s.choose 2 else (0, s)
  match (if n == 1 then hit else none) with
  | some e => (s, .ok (e.pa * 4096 + va % 4096, .vd e.vd))
  | none => match s.hartWalkFor pid a.slice h md acc va with
    | (s, .ok (pa, .vd vd)) =>
      let e : HTlb := { mode := md, asid := h.atp md / 2 ^ 44 % 2 ^ 16, vmid := h.vmid md, page := va / 4096, acc := acc, pa := pa / 4096, vd := vd }
      (s.setHart a fun h => { h with tlb := if h.tlb.contains e then h.tlb else e :: h.tlb }, .ok (pa, .vd vd))
    | r => r

/-- A place at a home: the home, the address there, the partition address, the key slot, the VD and the VD tag and granule of its line; or an
interrupt file of a hart of the partition. -/
structure HPlace where
  home : Nat
  sla : Nat
  pa : Nat := 0
  key : Nat
  vd : Nat
  tag : Nat
  gran : Nat
  file : Option (Nat × Nat) := none
  deriving DecidableEq, Repr
/-- The interrupt file at a partition address: the hart and the file (R376). -/
def State.fileAt (s : State) (slice pa : Nat) : Option (Nat × Nat) :=
  let rt := (tget s.routes slice).getD {}
  let base := rt.ifbase * 2 ^ 16
  if rt.pid == ((tget s.fw slice).getD {}).pid && base ≤ pa && pa < base + 65536 * rt.nharts then some ((pa - base) / 65536, (pa - base) / 4096 % 16) else none
/-- The home translates a request again by the VD context: another partition address is an access fault (R423). A home that cannot answer makes
it wait, one in reset before its firewall is asked (R21, R383). -/
def State.hartReach (s : State) (pid : Nat) (a : HartAcc) (va : Nat) : State × Except HFault HPlace :=
  let acc : Acc := { hartNeeds a.op with sup := modePrv ((s.hart a).accMode a.op) != 0 }
  let file (s : State) (pa : Nat) (k : Option (Nat × Nat) → State × Except HFault HPlace) : State × Except HFault HPlace := k (s.fileAt a.slice pa)
  match s.hartWalk pid a va with
  | (s, .error f) => (s, .error f)
  | (s, .ok (pa, .phys)) => file s pa fun
    | some x => (s, .ok { home := a.slice, sla := 0, pa := pa, key := 0, vd := 0, tag := 0, gran := 0, file := some x })
    | none => match homeOf (s.slice a.slice).map pa with
      | none => (s, .error .access)
      | some (home, sla) =>
        if s.homeDown home pid pa then (s, .error .wait)
        else if !s.admits home pid then (s.fwNotice home acc.code, .error .access)
        else (s, .ok { home := home, sla := sla, pa := pa, key := 0, vd := 0, tag := 0, gran := (21 * 2 ^ 59 + pa) / 128 })
  | (s, .ok (pa, .vd vd)) => file s pa fun
    | some x => (s, .ok { home := a.slice, sla := 0, pa := pa, key := 0, vd := vd, tag := 0, gran := 0, file := some x })
    | none => match s.reach a.slice pid vd va acc with
      | (s, .error f) => if f.kind == .home then (s, .error .wait) else (if f.kind == .firewall then s.fwNotice f.home acc.code else s, .error .access)
      | (s, .ok x) => if x.pa != pa then (s, .error .access)
          else (s, .ok { home := x.home, sla := x.sla, pa := pa, key := x.key, vd := vd, tag := vdTag vd va, gran := va / 128 })

/-! ### Accesses -/

/-- The pieces of an access: whole when it is aligned, else bytes. -/
def hartPieces (a : HartAcc) : List (Nat × Nat) := if a.va % a.size == 0 then [(a.va, a.size)] else (upto a.size).map fun i => (a.va + i, 1)
/-- What an operation leaves in its bytes, and the value it returns. -/
def hartNew (op : HartOp) (old data n : Nat) : Option Nat × Nat := match op with
  | .store => (some (data % 2 ^ (8 * n)), 0)
  | .hsv => (some (data % 2 ^ (8 * n)), 0)
  | .sc => (some (data % 2 ^ (8 * n)), 0)
  | .amo o => let r := atomNew o old (data % 2 ^ (8 * n)); (some r.1, old)
  | _ => (none, old)
/-- Perform the pieces in turn: the value read, or the fault and its address. A store of a word at the start of an interrupt file is an MSI; a store
to a fault doorbell page is an answer (R321). -/
def State.hartGo (pid : Nat) (a : HartAcc) : List (Nat × Nat) → Nat → State → State × Except (HFault × Nat) Nat
  | [], _, s => (s, .ok 0)
  | (va, n) :: t, i, s => match s.hartReach pid a va with
    | (s, .error f) => (s, .error (f, va))
    | (s, .ok p) =>
      match p.file with
      | some (h, f) =>
        let s := if (hartNeeds a.op).w && n == 4 && p.pa % 4096 == 0 then s.pendFile pid h f (a.data % 2 ^ 32) else s
        State.hartGo pid a t (i + n) s
      | none =>
      let s := s.touch p.home pid p.vd p.tag p.gran p.sla { op := if (hartNeeds a.op).w then (if (hartNeeds a.op).r then 2 else 1) else 0 }
      match s.homeRead p.home p.sla n p.key with
      | (s, none) => (s, .error (.access, va))
      | (s, some b) =>
        let r := hartNew a.op (ofBytes b) (a.data / 2 ^ (8 * i)) n
        let w : State × Bool := match r.1 with
          | none => (s, true)
          | some v => let w := s.homeWrite p.home p.sla p.key (toBytes n v); (if w.2 then w.1.door pid p.pa (toBytes n v) else w.1, w.2)
        if !w.2 then (w.1, .error (.access, va))
        else match State.hartGo pid a t (i + n) w.1 with
          | (s, .ok v) => (s, .ok (r.2 + v * 2 ^ (8 * n)))
          | r => r
/-- The home and line of an address as a hart reaches it, and the line's bytes. -/
def State.hartLine (s : State) (pid : Nat) (a : HartAcc) : Option (Nat × Nat × List Byte) :=
  match s.hartReach pid a a.va with
  | (s, .ok p) => let l := p.sla / 128 * 128; some (p.home, l, cgets 0 s.mem (cell p.home l) 128)
  | _ => none
/-- Whether a hart still holds the reservation that `SC` needs: on the line of its address. -/
def State.reserved (s : State) (pid : Nat) (a : HartAcc) : Bool :=
  (s.hart a).resv.any fun r => (s.hartLine pid a).any fun l => l.1 == r.1 && l.2.1 == r.2.1
/-- A reservation is lost once its line has changed (R142). A store that leaves the line as it was is not seen: DESIGN CHOICE
(notes/assumptions/65.md). -/
def State.settleResv (s : State) : State :=
  if s.harts.all fun e => e.2.resv.isNone then s
  else { s with harts := tmap (fun _ h => { h with resv := h.resv.filter fun r => cgets 0 s.mem (cell r.1 r.2.1) 128 == r.2.2 }) s.harts }

/-! ### The counter page (R401, R405) -/

/-- A hart's read of a VD's counter page: 8 bytes of CTRn, its 32-bit halves, SELn and FRZ. -/
def State.ctrPage (s : State) (slice vd off size : Nat) : Option (State × Nat) :=
  if off < 0x40 && size == 4 && off % 4 == 0 then some (s.pmcRead slice vd (if off % 8 == 0 then .lo else .hi) (off / 8))
  else if (off < 0x40 && size == 8) || (0x40 ≤ off && size == 4) then s.pageReg slice vd off
  else none

/-! ### What a hart does -/

/-- A result in the hart's registers. -/
def State.hartDone (s : State) (a : HartAcc) (f : Hart → Hart) : State := s.setHart a fun h => { f h with cause := none }
/-- An exception of the hart (R423). -/
def State.hartTrap (s : State) (a : HartAcc) (code tval gpa : Nat) : State := s.setHart a fun h => h.trap false code tval gpa
/-- A CSR access, or the exception that bars it. -/
def State.hartCsr (s : State) (a : HartAcc) (n : Nat) (write : Bool) (f : Hart → Hart) : State :=
  match csrBars (s.hart a).mode n write with
  | some c => s.hartTrap a c 0 0
  | none => s.hartDone a f
/-- An instruction of a supervisor, or the exception that bars it. -/
def State.hartSup (s : State) (a : HartAcc) (hyper : Bool) (f : Hart → Hart) : State :=
  match supBars (s.hart a).mode hyper with
  | some c => s.hartTrap a c 0 0
  | none => s.hartDone a f
/-- A hart in M-mode starts another of its partition that stands stopped (R381), at an address in S-mode, with its number and a datum in x10 and x11.
PRESUMED (notes/assumptions/65.md): the SBI's hart state management. -/
def State.hartStart (s : State) (pid : Nat) (a : HartAcc) (n : Nat) : Option State :=
  match s.hartKeyOf pid n with
  | none => none
  | some k =>
    let h := (tget s.harts k).getD {}
    if (s.hart a).mode != .m || h.run || (s.slice (k / 8)).inReset then none
    else some ({ s with harts := tput s.harts k { h with run := true, mode := .s, pc := a.va, x := cset 0 (cset 0 h.x 10 n) 11 (a.data % 2 ^ 64),
                                                         csr := cset 0 (cset 0 h.csr 0x180 0) 0x300 (setField (h.raw 0x300) 1 1 0) } }.hartDone a id)
/-- What a hart does to its own registers and CSRs, and to the devices of its slice; none for an access of memory, and for what is not due. A read
of the VIRTIO device's space below 0x100 is of a register. -/
def State.hartOwn (s : State) (pid : Nat) (a : HartAcc) : Option State :=
  let reg (f : Hart → Hart) : Option State := some (s.hartDone a f)
  let h := s.hart a
  let guest : Option Nat := if modeV h.mode then some (h.vmid h.mode) else none
  match a.op with
  | .fence => reg id
  | .setX n => reg fun h => { h with x := if n % 32 == 0 then h.x else cset 0 h.x (n % 32) (a.data % 2 ^ 64) }
  | .setF n => reg fun h => { h with f := cset 0 h.f (n % 32) (a.data % 2 ^ 64) }
  | .setV n => reg fun h => { h with v := cset 0 h.v (n % 32) (a.data % 2 ^ 256) }
  | .csrRead n => some (s.hartCsr a n false fun h => { h with val := h.csrVal s.now n })
  | .csrWrite n => some (s.hartCsr a n true fun h => { h.csrPut n (a.data % 2 ^ 64) with val := h.csrVal s.now n })
  | .vioRead => reg fun h => { h with val := (s.slice a.slice).vioReg a.va }
  | .vioWrite => some ((s.modSlice a.slice fun x => { x with vio := x.vio.write a.va (a.data % 2 ^ 32) }).hartDone a id)
  | .aplicRead => reg fun h => { h with val := (s.slice a.slice).aplic.read a.va }
  | .aplicWrite => some ((s.aplicWrite a.slice a.va (a.data % 2 ^ 32)).hartDone a id)
  | .ctrRead vd => if guest.any (· != vd) then none else
      (s.bound a.slice vd).bind fun s => (s.ctrPage a.slice vd a.va a.size).map fun r => r.1.hartDone a fun h => { h with val := r.2 }
  | .ctrWrite vd => if guest.any (· != vd) || a.size != (if a.va < 0x40 then 8 else 4) then none else
      (s.pagePut a.slice vd a.va a.data).map fun s => s.hartDone a id
  | .notify q => some ((s.notify (queueKey pid q)).hartDone a id)
  | .ecall => some (s.hartTrap a (callCause h.mode) 0 0)
  | .ebreak => some (s.hartTrap a 3 h.pc 0)
  | .illegal => some (s.hartTrap a 2 0 0)
  | .mret => some (if h.mode == .m then s.setHart a Hart.mret else s.hartTrap a 2 0 0)
  | .sret => some (match supBars h.mode false with
      | some c => s.hartTrap a c 0 0
      | none => s.setHart a Hart.sret)
  | .sfence => some (s.hartSup a false fun h => { h with tlb := h.tlb.filter fun e => modeV e.mode != modeV h.mode || e.vmid != h.vmid h.mode })
  | .hfence => some (s.hartSup a true fun h => { h with tlb := h.tlb.filter fun e => !modeV e.mode })
  | .take => (h.nextIntr s.now).map fun c => s.setHart a fun h => h.trap true c 0 0
  | .start n => s.hartStart pid a n
  | .halt => if h.mode == .m then some (s.hartDone a fun h => { h with run := false }) else none
  | _ => none
/-- The instructions that access a guest's memory from above are a supervisor's (R421). -/
def hartHyper : HartOp → Bool
  | .hlv => true
  | .hlvx => true
  | .hsv => true
  | _ => false
/-- The sizes of LR, SC and AMO are 4 and 8: RVA23 has no others that R421 keeps. -/
def hartAtomic : HartOp → Bool
  | .amo _ => true
  | .lr => true
  | .sc => true
  | _ => false
/-- An access of memory. -/
def hartMem : HartOp → Bool
  | .fetch => true
  | .load => true
  | .store => true
  | .amo _ => true
  | .lr => true
  | .sc => true
  | .hlv => true
  | .hlvx => true
  | .hsv => true
  | _ => false
/-- `HOST_HART_ACCESS`: a hart of a partition that runs writes its own registers, or performs a fetch, load, store, AMO, LR or SC at the home, or
takes an exception; its fences order nothing more, since each access is performed whole at its home. A fetch moves the pc. `SC` gives 0, or 1 where the
reservation is gone; it ends the reservation in either case. -/
def execHostHartAccess (a : HartAcc) (s : State) : Host.Outcome State Fault Refusal :=
  event s (match s.ownerPart a.slice with
    | none => none
    | some (pid, p) =>
      if a.hart ≥ 8 || !(s.hart a).run || (s.slice a.slice).inReset || p.st == .forming || p.st == .destroying || p.down.contains a.slice then none
      else match s.hartOwn pid a with
      | some s => some s
      | none =>
      if !hartMem a.op || !(List.contains [1, 2, 4, 8] a.size) || a.va ≥ 2 ^ 64 then none
      else
        let exc (s : State) (f : HFault) (va : Nat) : State := s.hartTrap a (hartCause a.op f) va (match f with
          | .guest g => g
          | _ => 0)
        let barred := if hartHyper a.op then (if (s.hart a).mode == .u && (s.hart a).flag 0x600 9 then none else supBars (s.hart a).mode true)
          else if hartAtomic a.op && a.size < 4 then some 2 else none
        match barred with
        | some c => some (s.hartTrap a c 0 0)
        | none =>
        if hartAtomic a.op && a.va % a.size != 0 then some (exc s .misaligned a.va)
        else if a.op == .sc && !s.reserved pid a then some (s.setHart a fun h => { h with val := 1, resv := none, cause := none })
        else match State.hartGo pid a (hartPieces a) 0 s with
          | (_, .error (.wait, _)) => none
          | (s, .error (f, va)) => some (exc s f va)
          | (s, .ok v) => some (s.setHart a fun h => { h with
              val := v, cause := none, pc := if a.op == .fetch then a.va else h.pc
              resv := if a.op == .lr then s.hartLine pid a else if a.op == .sc then none else h.resv }))

end Sys2Proof.Machine
end

