-- ==== Sys2Proof/Machine/Settle.lean ====
section
/-!
DEFINITION. What follows of itself after every step: waits whose condition holds end (R98, R139, R193, R239, R266, R296), active and pending groups
change places (R80), parked tillers and stopped sample counts take their times (R314, R391). The selection of a quarter (R78, R79) and the fetch of
an instruction (R41, R51). The internal events that the default policy tries.
-/
namespace Sys2Proof.Machine

/-! ### Waits -/

/-- Whether the condition of a wait holds. -/
def State.condHolds (s : State) (bid gi id : Nat) (b : Block) (g : Group) (p : Pend) : Cond → Bool
  | .pwait at' par => bit (readLE b.loc at' 8) 32 != par
  | .cwait isTo v => g.cwaitOk isTo v
  | .mwait sel v => decide (b.unretired sel ≤ v)
  | .qwait sel v => decide (b.unshaped sel ≤ v)
  | .ctrwait va v => match (s.vaRead b.slice b.pid b.vd va 8).2 with
    | .ok x => reached (ofBytes x) v
    | .error _ => false
  | .fence _ scope => earlierDone s bid gi g id p.mask scope
  | _ => false
/-- A `ctrwait` whose counter's page faults on a later read parks on the fault (R125, R296), unless the report must wait (R326). -/
def State.ctrPark (s : State) (bid gi id : Nat) (b : Block) (g : Group) (p : Pend) (va v : Nat) : State :=
  match (s.vaRead b.slice b.pid b.vd va 8).2 with
  | .ok _ => s
  | .error f =>
    if s.unreported b.slice b.pid b.vd f then s
    else
      let (token, s) := s.report { slice := b.slice, pid := b.pid, vd := b.vd, f := f, va := va, pc := g.lastPc, acc := { r := true },
                                   info := lowLane p.mask + 2 ^ 32 * b.idx, guest := false, waiter := .lane bid gi id va }
      s.modGroup bid gi fun g => { g with pend := tmod g.pend id fun p => { p with kind := .cond (.ctrfault va v { va := va, f := f, token := token }) } }
/-- A wait ends; an acquire follows where it is one. -/
def State.endCond (s : State) (bid gi id : Nat) (c : Cond) : State :=
  let s := s.modGroup bid gi fun g => g.complete id
  match tget s.blocks bid, c with
  | some b, .ctrwait _ _ => s.acquire b.slice b.core b.vd .prt
  | some b, .fence sem scope => fenceAcq s b sem scope
  | _, _ => s
/-- The waits of the resident blocks: block, group, pending entry and condition. -/
def State.condList (s : State) : List (Nat × Nat × Nat × Cond) :=
  s.blocks.flatMap fun e =>
    if e.2.res != .resident || e.2.fail.isSome then []
    else (upto e.2.groups.length).flatMap fun gi => (listGet ({} : Group) e.2.groups gi).pend.filterMap fun p => match p.2.kind with
      | .cond c => some (e.1, gi, p.1, c)
      | _ => none
/-- End every wait whose condition holds. -/
def State.settleConds (s : State) : State :=
  s.condList.foldl (fun s x => match tget s.blocks x.1 with
    | none => s
    | some b =>
      let g := listGet ({} : Group) b.groups x.2.1
      match tget g.pend x.2.2.1 with
      | none => s
      | some p =>
        if s.condHolds x.1 x.2.1 x.2.2.1 b g p x.2.2.2 then s.endCond x.1 x.2.1 x.2.2.1 x.2.2.2
        else match x.2.2.2 with
          | .ctrwait va v => s.ctrPark x.1 x.2.1 x.2.2.1 b g p va v
          | _ => s) s
/-- Perform the accepted instructions on tiles whose turn has come (R228). -/
def State.settleTiles (s : State) : State := { s with blocks := tmap (fun _ b => if b.tops.isEmpty then b else (Block.settleTops b.tops.length b).wake) s.blocks }
/-- Try the inbound packets that are held again (R344, R408). -/
def State.settleHeld (s : State) : State := s.parts.foldl (fun s p => s.retryHeld p.1) s
/-- Answers written to fault doorbell pages take effect (R328). -/
def State.settleDoors (s : State) : State :=
  s.doors.foldl (fun s d => match execFaultDoorbell d.1 d.2.1 d.2.2 s with
    | .next t => t
    | _ => s) { s with doors := [] }

/-! ### Selection (R78, R79) -/

/-- Whether a tiller is ready (R78). -/
def State.tilReady (s : State) (b : Block) (g : Group) (k : Nat) : Bool := (g.til k).st == .ready && (s.tilWaits b g k).isEmpty
/-- The tillers of the active groups of a quarter that pass a test, by position and slot. -/
def State.tilPool (s : State) (q : Nat) (p : State → Block → Group → Nat → Bool) : List (Nat × Cur) :=
  (upto 8).flatMap fun pos => match listGet none (s.quarter q).act pos with
    | none => []
    | some (bid, gi) => match tget s.blocks bid with
      | none => []
      | some b =>
        let g := listGet ({} : Group) b.groups gi
        if b.res != .resident || b.fail.isSome || b.cancelled || g.ended || !s.quarterOpen b g then []
        else ((upto 8).filter (p s b g)).map fun k => (pos, { b := bid, g := gi, t := k })
/-- The tiller of a number. -/
def State.tilAt (s : State) (c : Cur) : Tiller := (((tget s.blocks c.b).bind fun b => b.groups[c.g]?).map fun g => g.til c.t).getD {}
def State.setTilAt (s : State) (c : Cur) (f : Tiller → Tiller) : State := s.modGroup c.b c.g fun g => g.setTil c.t (f (g.til c.t))
/-- A Ready tiller whose windows or a marked register hold back its next instruction enters the state in which it waits (R83, R85, R86, R96). -/
def State.holdTil (s : State) (c : Cur) : State := match ({ s with cur := some c } : State).load with
  | none => s
  | some x =>
    if x.t.st != .ready || !x.able then s
    else match x.shut with
      | some id => { x.stall id (s.wordsAt x.b.slice x.b.core x.b.vd x.t.pc) with cur := s.cur }
      | none =>
        if (((s.nextOf x.b x.t).map fun i => (usesOf i x.g).all).getD []).any (marked x.g c.t) then
          { { x with t := { x.t with st := .waiting } }.close with cur := s.cur }
        else s
/-- The Ready tillers of resident blocks. -/
def State.readyTils (s : State) : List Cur :=
  s.blocks.flatMap fun e =>
    if e.2.res != .resident then []
    else (upto e.2.groups.length).flatMap fun gi =>
      let g := listGet ({} : Group) e.2.groups gi
      ((upto 8).filter fun k => (g.til k).st == .ready).map fun k => { b := e.1, g := gi, t := k }
/-- Every tiller that cannot issue its next instruction waits for it (R86). -/
def State.settleTils (s : State) : State := s.readyTils.foldl State.holdTil s
/-- Bring every quarter up to date (R78, R80). -/
def State.settleQuarters (s : State) : State :=
  let stamp (b : Block) (g : Group) : Group := g.stampIdle (s.clocks b.slice) ((upto 8).any (s.tilReady b g))
  let s : State := { s with blocks := tmap (fun _ b => { b with groups := b.groups.map (stamp b) }) s.blocks }
  { s with quarters := tmap (fun k q => settleQuarter q (s.quarterGroups k)) s.quarters }
/-- What follows after every step. -/
def State.settle (s : State) : State := s.settleScrubs.settleTlbs.settleLate.settleHeld.settleDoors.settleTiles.settleConds.settleVirtio.settleResv.settleTils.settleQuarters.stampParks.stampSamples
/-- Whether the selected tiller stands at an instruction start of its fetch block (R41). It does not when it came by a transfer whose
target could not be fetched, which R128 lets complete: then the misaligned-target trap is taken at the target. DEDUCED
(notes/assumptions/33.md). The same where it came there otherwise, as by a role's entry, TRAPH, a recipe's address, or code that has changed.
DESIGN CHOICE (notes/assumptions/102.md). -/
def State.onStart (s : State) (b : Block) (t : Tiller) : Bool := match s.icFind b.slice b.core b.vd t.pc with
  | none => true
  | some e => t.pc % 4 == 0 && (starts 8 0 e.words).contains (t.pc % 32 / 4)
/-- The misaligned-target trap of the selected tiller, if it is not at an instruction start. -/
def State.misaligned (s : State) : Option State := match s.load with
  | none => none
  | some x => if x.able && !s.onStart x.b x.t then some (x.trapped 4 x.t.pc (s.wordsAt x.b.slice x.b.core x.b.vd x.t.pc)) else none
/-- A tiller at a `pad` word, which the decoder steps over without an issue slot (R28, R78). -/
def State.tilPad (s : State) (b : Block) (g : Group) (k : Nat) : Bool :=
  let t := g.til k
  t.st == .ready && s.onStart b t && match s.icFind b.slice b.core b.vd t.pc with
    | none => false
    | some e => listGet 1 e.words (t.pc % 32 / 4) == 0
/-- Step the tillers of a quarter over `pad` words; fuel bounds the words. -/
def State.stepPads (q : Nat) : Nat → State → State
  | 0, s => s
  | n + 1, s => match s.tilPool q State.tilPad with
    | [] => s
    | x :: _ => match execPad { s with cur := some x.2 } with
      | .next t => State.stepPads q n t
      | _ => s
/-- Step every tiller of a quarter over the `pad` words at its PC that the core's cache holds: at most 64 tillers, each over each cached word once. -/
def State.passPads (s : State) (q : Nat) : State := State.stepPads q (512 * (s.core (q / 4)).ic.length) s
/-- The first of a pool in the rotation: positions after `last_pos`, slots after the group's `last_slot`. -/
def State.rotated (s : State) (q : Nat) (pool : List (Nat × Cur)) : Option (Nat × Cur) :=
  (upto 8).findSome? fun k =>
    let pos := ((s.quarter q).lastPos + 1 + k) % 8
    let last := (((listGet none (s.quarter q).act pos).bind fun e => (tget s.blocks e.1).bind fun b => b.groups[e.2]?).map Group.lastSlot).getD 7
    (upto 8).findSome? fun j => pool.find? fun x => x.1 == pos && x.2.t == (last + 1 + j) % 8
/-- The selection of a quarter: the state with the rotation moved on, and the tiller (R79). -/
def State.select (s : State) (q : Nat) : Option State :=
  let c := s.tilPool q State.tilReady
  let prio := c.filter fun x => decide (32 ≤ (s.tilAt x.2).skip)
  (s.rotated q (if prio.isEmpty then c else prio)).map fun x =>
    let s := c.foldl (fun s y => s.setTilAt y.2 fun t => { t with skip := if y == x then 0 else t.skip + 1 }) s
    let s := s.modGroup x.2.b x.2.g fun g => { g with lastSlot := x.2.t }
    { s.modQuarter q fun k => { k with lastPos := x.1 } with cur := some x.2 }
/-- The words at the selected tiller's PC, to the end of the fetch block. -/
def State.fetchWords (s : State) : List Nat :=
  match s.load with
  | none => []
  | some x => match s.icFind x.b.slice x.b.core x.b.vd x.t.pc with
    | none => []
    | some e => e.words.drop (x.t.pc % 32 / 4)
/-- An encoding that fails check n of R51 is the illegal-instruction trap. -/
def State.illegal (s : State) (n : Nat) : State :=
  match s.load with
  | none => s
  | some x => if x.able then x.trapped 1 n (s.wordsAt x.b.slice x.b.core x.b.vd x.t.pc) else s

/-! ### The default policy (DESIGN CHOICE: an order of the internal events; any other order is an agenda) -/

/-- An event as its meaning. -/
abbrev Act : Type := State → Host.Outcome State Fault Refusal
/-- Events of the blocks' groups. -/
def groupEvents (bid gi : Nat) (g : Group) : List Act :=
  (g.pend.flatMap fun p => [execPendingWritePerformed bid gi p.1, execSnoozeExpiry bid gi p.1, execAallocComplete bid gi p.1]) ++
  (upto 8).flatMap fun k => [execParkedReplay bid gi k, execInstructionCacheFill bid gi k, execInstructionFetchFault bid gi k, execRecordStreamRoom bid gi k]
/-- Waits of a tiller for a place in an engine. -/
def waitEvents (bid gi : Nat) : List Act :=
  (upto 8).flatMap fun k => [execRequestSlotWaitEnd bid gi k, execDescriptorWaitEnd bid gi k, execSealWindowWaitEnd bid gi k, execMatrixSlotWaitEnd bid gi k]
/-- Events of a block. -/
def blockEvents (e : Nat × Block) : List Act :=
  ((upto e.2.groups.length).flatMap fun gi => groupEvents e.1 gi (listGet ({} : Group) e.2.groups gi)) ++
  (e.2.mops.flatMap fun o => [execMmaRetire e.1 o.1, execMmaOperandsRead e.1 o.1, execMmaStart e.1 o.1]) ++
  (e.2.sops.flatMap fun o => [execShapeWriteComplete e.1 o.1, execShapeConversion e.1 o.1]) ++
  [execStoppingDrainComplete e.1, execSaveComplete e.1, execRestoreComplete e.1, execSwapOutTimeout e.1, execSwappedFaultServiced e.1, execBlockEnd e.1]
/-- Events of requests, walks and messages. -/
def State.memEvents (s : State) : List Act :=
  (s.walks.map fun e => execWalkComplete e.1) ++ (s.msgs.flatMap fun e => [execEdgeMessageArrival e.1, execFabricHop e.1]) ++
  s.reqs.flatMap fun e => [execHomeRequestArrival e.1, execStampedMessagePerform e.1, execFirewallStatusReceived e.1, execLoadDataReturn e.1, execWriteAcknowledge e.1,
    execAtomicResultReturn e.1]
/-- Events of copies and of the network. -/
def State.ioEvents (s : State) : List Act :=
  (s.copies.flatMap fun e => [execCopyDone e.1, execCopyFaultStop e.1, execCopyFaultServiced e.1, execCopyStart e.1]) ++
  (s.rops.map fun e => execRflagAfterSend e.1) ++ (s.rcvs.map fun e => execAckSend e.1) ++
  s.conns.flatMap fun e => [execPacedPacketSend (e.1 / 1024) (e.1 % 1024), execRateUpdate (e.1 / 1024) (e.1 % 1024)] ++
    e.2.sent.map fun k => execRetransmitTimeout (e.1 / 1024) (e.1 % 1024) k.pkt.psn
/-- Events of the launch engine. -/
def State.launchEvents (s : State) : List Act :=
  (s.parts.map fun e => execQueueSlotAssign e.1) ++
  (s.queues.flatMap fun e => execSlotReclaim e.2.pid (e.1 % 65536) ::
    (s.sliceList e.2.pid).flatMap fun k => [execPacketLeaveHead k e.1, execDependenceRecheck k e.1, execHeadPacketRead k e.1]) ++
  (s.launches.flatMap fun e => [execLaunchComplete e.1, execNopreHoldLapse e.1] ++
    (s.sliceList e.2.pid).flatMap fun k => [execStartNotice e.1 k, execDoneNotice e.1 k, execOrderedAtomicApply e.1 k]) ++
  s.cancels.flatMap fun e => e.2.slices.map fun k => execCancelArrival e.1 k
/-- Events of a slice. -/
def sliceEvents (k : Nat) : List Act :=
  [execBlockPlacement k, execPreemptionRequest k, execSpillSavedBlock k, execRotationInterval k, execDeferredRotationCompare k, execRotationSwapComplete k,
   execPowerWindowEnd k, execFrequencyChangeComplete k, execAlarmPersist1us k, execAlarmPersist10us k, execAlarmClear50us k, execSliceFirmwareReady k, execSliceRejoin k] ++
  ((upto 4).flatMap fun j => [execScrubResume k j, execVerifyPass k j]) ++ (upto 64).flatMap fun c => [execPowerDownEntry k c, execSelfRefreshEntry k c]
/-- Events of partitions, jobs, reports, quarters and rails. -/
def State.restEvents (s : State) : List Act :=
  (s.reports.map fun e => execHeldRecordWrite e.1) ++ (s.jobs.flatMap fun e => [execScrubJobDone (e.1 / 4) (e.1 % 4), execScrubZeroPhase (e.1 / 4) (e.1 % 4)]) ++
  (s.parts.flatMap fun e => [execPartitionZeroingComplete e.1, execPartitionDestroyComplete e.1, execHartsDownTimeout e.1, execDrainExpiry e.1,
    execGranuleMigrationComplete e.1, execResizeStepComplete e.1]) ++
  (s.quarters.flatMap fun e => [execPendingReadyTimeout e.1, execDumpWritten e.1, execSampleTaken e.1]) ++
  s.rails.flatMap fun e => [execRailVoltageReached e.1, execRailSettleExpiry e.1, execRailFallConfirm e.1]
/-- The internal events that the state could have, waits for places last. -/
def State.candidates (s : State) : List Act :=
  s.blocks.flatMap blockEvents ++ s.memEvents ++ s.ioEvents ++ s.launchEvents ++ s.slices.flatMap (fun e => sliceEvents e.1) ++ s.restEvents ++
  s.blocks.flatMap fun e => (upto e.2.groups.length).flatMap (waitEvents e.1)
/-- The quarters, beginning at one that moves on with time. -/
def State.turns (s : State) : List Nat :=
  let l := s.quarters.map Prod.fst
  let n := s.now % max l.length 1
  l.drop n ++ l.take n

/-- Whether a constructor is an event or a command, not an instruction of a tiller. -/
def isEvent (i : Instr) : Bool := i != .pad && i.raw.isNone

/-! ### Placing a program (for `withFetchWord`) -/

/-- Words 0 to 7 of a fetch block that begins with an instruction's bits. -/
def fetchBlock (w : Nat) : List Nat := (upto 8).map fun i => w / 2 ^ (32 * i) % 2 ^ 32
/-- A one-slice partition 0 with a block of one group at address 0 of VD 1, whose fetch block is in the cache of core 0, and the first move of the
quarter. The block has the largest register allocation and no trap handler. -/
def State.placed (s : State) (w : Nat) : State :=
  let t : Tiller := { mask := 2 ^ 32 - 1, st := .ready }
  let g : Group := { role := 1, producer := true, vregs := 1024, sregs := 128, tillers := t :: List.replicate 7 {} }
  let b : Block := { vd := 1, res := .resident, groups := [g], bars := List.replicate 16 {}, localSz := 1024, isTile := true, accMax := 4, wbSz := 4096 }
  let sl : Slice := { (s.slice 0) with inReset := false, map := List.replicate 256 128 }
  let p : Part := { st := .running, slices := [0], map := List.replicate 256 128 }
  let q : Quarter := { act := some (0, 0) :: List.replicate 7 none }
  let c : CoreSt := { tblk := [0], ic := [{ vd := 1, blk := 0, words := fetchBlock w }] }
  { s with
    bootStep := 4, slices := tput s.slices 0 sl, cores := tput s.cores 0 c, quarters := tput s.quarters 0 q, parts := tput s.parts 0 p
    fw := tput s.fw 0 { asgn := true, hold := false, pid := 0 }, blocks := tput s.blocks 0 b, agenda := (0, .issue 0) :: s.agenda, powered := true, nextId := max s.nextId 1 }

end Sys2Proof.Machine
end

