-- ==== Sys2Proof/Machine/Dispatch.lean ====
section
/-!
DEFINITION. Every instruction, event and command with its meaning.
-/
namespace Sys2Proof.Machine

/-- The meaning of a step. -/
def exec (i : Instr) (s : State) : Host.Outcome State Fault Refusal :=
  match i with
  | .pad => Sys2Proof.Machine.execPad s
  | .nop h => Sys2Proof.Machine.execNop h s
  | .bra h m off => Sys2Proof.Machine.execBra h m off s
  | .brx h m a => Sys2Proof.Machine.execBrx h m a s
  | .call h m d off => Sys2Proof.Machine.execCall h m d off s
  | .callx h m d a => Sys2Proof.Machine.execCallx h m d a s
  | .ret h m a => Sys2Proof.Machine.execRet h m a s
  | .join look => Sys2Proof.Machine.execJoin look s
  | .wide look => Sys2Proof.Machine.execWide look s
  | .endwide look => Sys2Proof.Machine.execEndwide look s
  | .exit h => Sys2Proof.Machine.execExit h s
  | .trap h n => Sys2Proof.Machine.execTrap h n s
  | .bkpt h => Sys2Proof.Machine.execBkpt h s
  | .bar look id pass n => Sys2Proof.Machine.execBar look id pass n s
  | .parrive h old a cnt off => Sys2Proof.Machine.execParrive h old a cnt off s
  | .pwait h par a off => Sys2Proof.Machine.execPwait h par a off s
  | .elect h d => Sys2Proof.Machine.execElect h d s
  | .setfmt h save src => Sys2Proof.Machine.execSetfmt h save src s
  | .setfmtImm h save v => Sys2Proof.Machine.execSetfmtImm h save v s
  | .setmode h save src => Sys2Proof.Machine.execSetmode h save src s
  | .setmodeStep h save o n => Sys2Proof.Machine.execSetmodeStep h save o n s
  | .srd h d r => Sys2Proof.Machine.execSrd h d r s
  | .swr h r a => Sys2Proof.Machine.execSwr h r a s
  | .sadd o => Sys2Proof.Machine.execSadd o s
  | .ssub o => Sys2Proof.Machine.execSsub o s
  | .smul o => Sys2Proof.Machine.execSmul o s
  | .smulh o => Sys2Proof.Machine.execSmulh o s
  | .sdiv o => Sys2Proof.Machine.execSdiv o s
  | .srem o => Sys2Proof.Machine.execSrem o s
  | .sand o => Sys2Proof.Machine.execSand o s
  | .sor o => Sys2Proof.Machine.execSor o s
  | .sxor o => Sys2Proof.Machine.execSxor o s
  | .sshl o => Sys2Proof.Machine.execSshl o s
  | .sshr o => Sys2Proof.Machine.execSshr o s
  | .ssra o => Sys2Proof.Machine.execSsra o s
  | .smin o => Sys2Proof.Machine.execSmin o s
  | .smax o => Sys2Proof.Machine.execSmax o s
  | .scmp cc o => Sys2Proof.Machine.execScmp cc o s
  | .ssel o => Sys2Proof.Machine.execSsel o s
  | .smov h ty d src => Sys2Proof.Machine.execSmov h ty d src s
  | .smovHi h d v => Sys2Proof.Machine.execSmovHi h d v s
  | .sbfx h ty d a pos len => Sys2Proof.Machine.execSbfx h ty d a pos len s
  | .sbit h ty op d a => Sys2Proof.Machine.execSbit h ty op d a s
  | .sget h ty d a lane => Sys2Proof.Machine.execSget h ty d a lane s
  | .plog h op d a b => Sys2Proof.Machine.execPlog h op d a b s
  | .pbits h f => Sys2Proof.Machine.execPbits h f s
  | .yield h => Sys2Proof.Machine.execYield h s
  | .snooze h a => Sys2Proof.Machine.execSnooze h a s
  | .snoozeImm h n => Sys2Proof.Machine.execSnoozeImm h n s
  | .rett look => Sys2Proof.Machine.execRett look s
  | .iadd o => Sys2Proof.Machine.execIadd o s
  | .isub o => Sys2Proof.Machine.execIsub o s
  | .imul o => Sys2Proof.Machine.execImul o s
  | .imulh o => Sys2Proof.Machine.execImulh o s
  | .imad o => Sys2Proof.Machine.execImad o s
  | .imin o => Sys2Proof.Machine.execImin o s
  | .imax o => Sys2Proof.Machine.execImax o s
  | .iabs h ty sat d a => Sys2Proof.Machine.execIabs h ty sat d a s
  | .and o => Sys2Proof.Machine.execAnd o s
  | .or o => Sys2Proof.Machine.execOr o s
  | .xor o => Sys2Proof.Machine.execXor o s
  | .shl o => Sys2Proof.Machine.execShl o s
  | .shr o => Sys2Proof.Machine.execShr o s
  | .sra o => Sys2Proof.Machine.execSra o s
  | .rshr rnd o => Sys2Proof.Machine.execRshr rnd o s
  | .icmp h ty cc d a b => Sys2Proof.Machine.execIcmp h ty cc d a b s
  | .sel n o => Sys2Proof.Machine.execSel n o s
  | .bfx h ty ins d a pos len => Sys2Proof.Machine.execBfx h ty ins d a pos len s
  | .bfxReg h ty ins d a b c => Sys2Proof.Machine.execBfxReg h ty ins d a b c s
  | .bit h ty op d a => Sys2Proof.Machine.execBit h ty op d a s
  | .mov h ty d src => Sys2Proof.Machine.execMov h ty d src s
  | .pdot2 o => Sys2Proof.Machine.execPdot2 o s
  | .padd o => Sys2Proof.Machine.execPadd o s
  | .psub o => Sys2Proof.Machine.execPsub o s
  | .pmul o => Sys2Proof.Machine.execPmul o s
  | .pack h sat d a b => Sys2Proof.Machine.execPack h sat d a b s
  | .unpk h hi d a => Sys2Proof.Machine.execUnpk h hi d a s
  | .fadd o => Sys2Proof.Machine.execFadd o s
  | .fsub o => Sys2Proof.Machine.execFsub o s
  | .fmul o => Sys2Proof.Machine.execFmul o s
  | .ffma o => Sys2Proof.Machine.execFfma o s
  | .fmin o => Sys2Proof.Machine.execFmin o s
  | .fmax o => Sys2Proof.Machine.execFmax o s
  | .fcmp h ty cc d a b => Sys2Proof.Machine.execFcmp h ty cc d a b s
  | .fdiv o => Sys2Proof.Machine.execFdiv o s
  | .frcp o => Sys2Proof.Machine.execFrcp o s
  | .frsq o => Sys2Proof.Machine.execFrsq o s
  | .fsqrt o => Sys2Proof.Machine.execFsqrt o s
  | .fexp2 o => Sys2Proof.Machine.execFexp2 o s
  | .flog2 o => Sys2Proof.Machine.execFlog2 o s
  | .fclass h ty d a => Sys2Proof.Machine.execFclass h ty d a s
  | .frnd o => Sys2Proof.Machine.execFrnd o s
  | .fscl o => Sys2Proof.Machine.execFscl o s
  | .cvt h dt st pk rnd sat d a => Sys2Proof.Machine.execCvt h dt st pk rnd sat d a s
  | .cvtfi h it ft rnd d a => Sys2Proof.Machine.execCvtfi h it ft rnd d a s
  | .cvtif h ft it rnd sat d a => Sys2Proof.Machine.execCvtif h ft it rnd sat d a s
  | .cvti h dt st sat d a => Sys2Proof.Machine.execCvti h dt st sat d a s
  | .xlane h ty m keep d a b => Sys2Proof.Machine.execXlane h ty m keep d a b s
  | .slide h ty dn d a b n => Sys2Proof.Machine.execSlide h ty dn d a b n s
  | .slideImm h ty dn d a fill n => Sys2Proof.Machine.execSlideImm h ty dn d a fill n s
  | .bcast h ty d a b => Sys2Proof.Machine.execBcast h ty d a b s
  | .vred h op d a => Sys2Proof.Machine.execVred h op d a s
  | .scan h excl op d a => Sys2Proof.Machine.execScan h excl op d a s
  | .poll h op d a => Sys2Proof.Machine.execPoll h op d a s
  | .vmatch h ty d a => Sys2Proof.Machine.execVmatch h ty d a s
  | .flgrd h clr d => Sys2Proof.Machine.execFlgrd h clr d s
  | .flgwr h op b => Sys2Proof.Machine.execFlgwr h op b s
  | .ld o => Sys2Proof.Machine.execLd o s
  | .st o => Sys2Proof.Machine.execSt o s
  | .ldl o => Sys2Proof.Machine.execLdl o s
  | .stl o => Sys2Proof.Machine.execStl o s
  | .sld o => Sys2Proof.Machine.execSld o s
  | .sst o => Sys2Proof.Machine.execSst o s
  | .gath o => Sys2Proof.Machine.execGath o s
  | .scat o => Sys2Proof.Machine.execScat o s
  | .lgath o => Sys2Proof.Machine.execLgath o s
  | .lscat o => Sys2Proof.Machine.execLscat o s
  | .ldb o => Sys2Proof.Machine.execLdb o s
  | .atom o b => Sys2Proof.Machine.execAtom o b s
  | .atomImm32 o v => Sys2Proof.Machine.execAtomImm32 o v s
  | .cas o => Sys2Proof.Machine.execCas o s
  | .atomOrd h a b off => Sys2Proof.Machine.execAtomOrd h a b off s
  | .atoml o b => Sys2Proof.Machine.execAtoml o b s
  | .atomlImm32 o v => Sys2Proof.Machine.execAtomlImm32 o v s
  | .casl o => Sys2Proof.Machine.execCasl o s
  | .fence h sem scope => Sys2Proof.Machine.execFence h sem scope s
  | .ifence h => Sys2Proof.Machine.execIfence h s
  | .cline h op a off => Sys2Proof.Machine.execCline h op a off s
  | .pref h lvl a off => Sys2Proof.Machine.execPref h lvl a off s
  | .ipref h a off => Sys2Proof.Machine.execIpref h a off s
  | .stz h a off => Sys2Proof.Machine.execStz h a off s
  | .cpy o c srclay dir hint lay => Sys2Proof.Machine.execCpy o c srclay dir hint lay s
  | .cpya o dir esz hint => Sys2Proof.Machine.execCpya o dir esz hint s
  | .cpyWb o half hint => Sys2Proof.Machine.execCpyWb o half hint s
  | .seal h arv save => Sys2Proof.Machine.execSeal h arv save s
  | .cwait h isTo v => Sys2Proof.Machine.execCwait h isTo v s
  | .cwaitImm22 h isTo v => Sys2Proof.Machine.execCwaitImm22 h isTo v s
  | .cstat h f => Sys2Proof.Machine.execCstat h f s
  | .cfill o c glob ty => Sys2Proof.Machine.execCfill o c glob ty s
  | .cgath o c glob hint lay => Sys2Proof.Machine.execCgath o c glob hint lay s
  | .rcpy o c srcl hint dpitch => Sys2Proof.Machine.execRcpy o c srcl hint dpitch s
  | .ratom h op sem ty d a b c off => Sys2Proof.Machine.execRatom h op sem ty d a b c off s
  | .rflag h after rel w64 d b c off => Sys2Proof.Machine.execRflag h after rel w64 d b c off s
  | .rnote h a c tag => Sys2Proof.Machine.execRnote h a c tag s
  | .rget o c hint dpitch => Sys2Proof.Machine.execRget o c hint dpitch s
  | .rstat h f => Sys2Proof.Machine.execRstat h f s
  | .mma o => Sys2Proof.Machine.execMma o s
  | .mwait h s' v => Sys2Proof.Machine.execMwait h s' v s
  | .aalloc h n => Sys2Proof.Machine.execAalloc h n s
  | .afree h n => Sys2Proof.Machine.execAfree h n s
  | .azero h d => Sys2Proof.Machine.execAzero h d s
  | .ardv h ty rnd sat d a b n => Sys2Proof.Machine.execArdv h ty rnd sat d a b n s
  | .awrv h ty d a b n => Sys2Proof.Machine.execAwrv h ty d a b n s
  | .mcfg h src => Sys2Proof.Machine.execMcfg h src s
  | .wbrel h s' a => Sys2Proof.Machine.execWbrel h s' a s
  | .mstat h d => Sys2Proof.Machine.execMstat h d s
  | .acpy h d a => Sys2Proof.Machine.execAcpy h d a s
  | .aldl h foll d a b off => Sys2Proof.Machine.execAldl h foll d a b off s
  | .astl h foll d a b off => Sys2Proof.Machine.execAstl h foll d a b off s
  | .qst o => Sys2Proof.Machine.execQst o s
  | .vqst o => Sys2Proof.Machine.execVqst o s
  | .qresLd h d a off => Sys2Proof.Machine.execQresLd h d a off s
  | .qresSt h d a off => Sys2Proof.Machine.execQresSt h d a off s
  | .qzero h d => Sys2Proof.Machine.execQzero h d s
  | .qcfg h rd ord2 d a b => Sys2Proof.Machine.execQcfg h rd ord2 d a b s
  | .qwait h s' v => Sys2Proof.Machine.execQwait h s' v s
  | .qrd h sel d a b => Sys2Proof.Machine.execQrd h sel d a b s
  | .launch h d a b off => Sys2Proof.Machine.execLaunch h d a b off s
  | .cancel h lvl clr a => Sys2Proof.Machine.execCancel h lvl clr a s
  | .ctrrd h d a => Sys2Proof.Machine.execCtrrd h d a s
  | .ctrwait h a v => Sys2Proof.Machine.execCtrwait h a v s
  | .fbpt look off => Sys2Proof.Machine.execFbpt look off s
  | .tmark h a tag => Sys2Proof.Machine.execTmark h a tag s
  | .pmcrd h half d n => Sys2Proof.Machine.execPmcrd h half d n s
  | .tctl h op => Sys2Proof.Machine.execTctl h op s
  | .pendingReadyTimeout q => Sys2Proof.Machine.execPendingReadyTimeout q s
  | .snoozeExpiry b g id => Sys2Proof.Machine.execSnoozeExpiry b g id s
  | .instructionFetchFault b g t => Sys2Proof.Machine.execInstructionFetchFault b g t s
  | .loadDataReturn r => Sys2Proof.Machine.execLoadDataReturn r s
  | .writeAcknowledge r => Sys2Proof.Machine.execWriteAcknowledge r s
  | .atomicResultReturn r => Sys2Proof.Machine.execAtomicResultReturn r s
  | .requestSlotWaitEnd b g t => Sys2Proof.Machine.execRequestSlotWaitEnd b g t s
  | .walkComplete w => Sys2Proof.Machine.execWalkComplete w s
  | .homeRequestArrival r => Sys2Proof.Machine.execHomeRequestArrival r s
  | .stampedMessagePerform r => Sys2Proof.Machine.execStampedMessagePerform r s
  | .parkedReplay b g t => Sys2Proof.Machine.execParkedReplay b g t s
  | .fabricHop m => Sys2Proof.Machine.execFabricHop m s
  | .edgeMessageArrival m => Sys2Proof.Machine.execEdgeMessageArrival m s
  | .firewallStatusReceived r => Sys2Proof.Machine.execFirewallStatusReceived r s
  | .copyStart c => Sys2Proof.Machine.execCopyStart c s
  | .copyDone c => Sys2Proof.Machine.execCopyDone c s
  | .copyFaultStop c => Sys2Proof.Machine.execCopyFaultStop c s
  | .copyFaultServiced c => Sys2Proof.Machine.execCopyFaultServiced c s
  | .descriptorWaitEnd b g t => Sys2Proof.Machine.execDescriptorWaitEnd b g t s
  | .sealWindowWaitEnd b g t => Sys2Proof.Machine.execSealWindowWaitEnd b g t s
  | .mmaStart b id => Sys2Proof.Machine.execMmaStart b id s
  | .mmaOperandsRead b id => Sys2Proof.Machine.execMmaOperandsRead b id s
  | .mmaRetire b id => Sys2Proof.Machine.execMmaRetire b id s
  | .aallocComplete b g id => Sys2Proof.Machine.execAallocComplete b g id s
  | .matrixSlotWaitEnd b g t => Sys2Proof.Machine.execMatrixSlotWaitEnd b g t s
  | .shapeConversion b id => Sys2Proof.Machine.execShapeConversion b id s
  | .shapeWriteComplete b id => Sys2Proof.Machine.execShapeWriteComplete b id s
  | .notifyWrite pid q => Sys2Proof.Machine.execNotifyWrite pid q s
  | .queueSlotAssign pid => Sys2Proof.Machine.execQueueSlotAssign pid s
  | .slotReclaim pid q => Sys2Proof.Machine.execSlotReclaim pid q s
  | .headPacketRead slice key => Sys2Proof.Machine.execHeadPacketRead slice key s
  | .dependenceRecheck slice key => Sys2Proof.Machine.execDependenceRecheck slice key s
  | .packetLeaveHead slice key => Sys2Proof.Machine.execPacketLeaveHead slice key s
  | .startNotice lk slice => Sys2Proof.Machine.execStartNotice lk slice s
  | .blockPlacement slice => Sys2Proof.Machine.execBlockPlacement slice s
  | .blockEnd b => Sys2Proof.Machine.execBlockEnd b s
  | .doneNotice lk slice => Sys2Proof.Machine.execDoneNotice lk slice s
  | .orderedAtomicApply lk slice => Sys2Proof.Machine.execOrderedAtomicApply lk slice s
  | .launchComplete lk => Sys2Proof.Machine.execLaunchComplete lk s
  | .cancelArrival c slice => Sys2Proof.Machine.execCancelArrival c slice s
  | .nopreHoldLapse lk => Sys2Proof.Machine.execNopreHoldLapse lk s
  | .preemptionRequest slice => Sys2Proof.Machine.execPreemptionRequest slice s
  | .stoppingDrainComplete b => Sys2Proof.Machine.execStoppingDrainComplete b s
  | .saveComplete b => Sys2Proof.Machine.execSaveComplete b s
  | .spillSavedBlock slice => Sys2Proof.Machine.execSpillSavedBlock slice s
  | .restoreComplete b => Sys2Proof.Machine.execRestoreComplete b s
  | .rotationInterval slice => Sys2Proof.Machine.execRotationInterval slice s
  | .deferredRotationCompare slice => Sys2Proof.Machine.execDeferredRotationCompare slice s
  | .rotationSwapComplete slice => Sys2Proof.Machine.execRotationSwapComplete slice s
  | .swapOutTimeout b => Sys2Proof.Machine.execSwapOutTimeout b s
  | .swappedFaultServiced b => Sys2Proof.Machine.execSwappedFaultServiced b s
  | .heldRecordWrite id => Sys2Proof.Machine.execHeldRecordWrite id s
  | .faultDoorbell pid vd word => Sys2Proof.Machine.execFaultDoorbell pid vd word s
  | .patrolRead slice => Sys2Proof.Machine.execPatrolRead slice s
  | .powerDownEntry slice pch => Sys2Proof.Machine.execPowerDownEntry slice pch s
  | .selfRefreshEntry slice pch => Sys2Proof.Machine.execSelfRefreshEntry slice pch s
  | .scrubZeroPhase pid job => Sys2Proof.Machine.execScrubZeroPhase pid job s
  | .scrubJobDone pid job => Sys2Proof.Machine.execScrubJobDone pid job s
  | .scrubResume slice job => Sys2Proof.Machine.execScrubResume slice job s
  | .verifyPass slice job => Sys2Proof.Machine.execVerifyPass slice job s
  | .golrisReceive slice src ce pkt => Sys2Proof.Machine.execGolrisReceive slice src ce pkt s
  | .ethernetFrameReceive slice frame => Sys2Proof.Machine.execEthernetFrameReceive slice frame s
  | .ackSend key => Sys2Proof.Machine.execAckSend key s
  | .ackReceive slice src ce pkt => Sys2Proof.Machine.execAckReceive slice src ce pkt s
  | .retransmitTimeout slice peer psn => Sys2Proof.Machine.execRetransmitTimeout slice peer psn s
  | .rateUpdate slice peer => Sys2Proof.Machine.execRateUpdate slice peer s
  | .rflagAfterSend op => Sys2Proof.Machine.execRflagAfterSend op s
  | .packagePowerOnReset => Sys2Proof.Machine.execPackagePowerOnReset s
  | .selfTestComplete slice pass => Sys2Proof.Machine.execSelfTestComplete slice pass s
  | .sliceFirmwareReady slice => Sys2Proof.Machine.execSliceFirmwareReady slice s
  | .inputUndervoltage => Sys2Proof.Machine.execInputUndervoltage s
  | .inputBrownout => Sys2Proof.Machine.execInputBrownout s
  | .inputOvervoltage => Sys2Proof.Machine.execInputOvervoltage s
  | .devinfo c => Sys2Proof.Machine.execDevinfo c s
  | .fwLoad c bytes => Sys2Proof.Machine.execFwLoad c bytes s
  | .fwDone c => Sys2Proof.Machine.execFwDone c s
  | .attest c nonce => Sys2Proof.Machine.execAttest c nonce s
  | .svnBurn c kind => Sys2Proof.Machine.execSvnBurn c kind s
  | .partCreate c pid c0 r0 c1 r1 map uri => Sys2Proof.Machine.execPartCreate c pid c0 r0 c1 r1 map uri s
  | .partitionZeroingComplete pid => Sys2Proof.Machine.execPartitionZeroingComplete pid s
  | .partDestroy c pid => Sys2Proof.Machine.execPartDestroy c pid s
  | .resize c pid slice add drain gused map => Sys2Proof.Machine.execResize c pid slice add drain gused map s
  | .hartsDownTimeout pid => Sys2Proof.Machine.execHartsDownTimeout pid s
  | .drainExpiry pid => Sys2Proof.Machine.execDrainExpiry pid s
  | .resizeStepComplete pid => Sys2Proof.Machine.execResizeStepComplete pid s
  | .granuleMigrationComplete pid => Sys2Proof.Machine.execGranuleMigrationComplete pid s
  | .sliceReset c slice => Sys2Proof.Machine.execSliceReset c slice s
  | .mgmtCoreTimeout slice => Sys2Proof.Machine.execMgmtCoreTimeout slice s
  | .sliceRejoin slice => Sys2Proof.Machine.execSliceRejoin slice s
  | .partStatus c pid => Sys2Proof.Machine.execPartStatus c pid s
  | .sregRd c slice off => Sys2Proof.Machine.execSregRd c slice off s
  | .sregWr c slice off val => Sys2Proof.Machine.execSregWr c slice off val s
  | .qreg c q vd hdr a => Sys2Proof.Machine.execQreg c q vd hdr a s
  | .ctrbase c vd base => Sys2Proof.Machine.execCtrbase c vd base s
  | .savearea c base size => Sys2Proof.Machine.execSavearea c base size s
  | .ownertab c base => Sys2Proof.Machine.execOwnertab c base s
  | .spillarea c base size => Sys2Proof.Machine.execSpillarea c base size s
  | .peer c idx entry addrs => Sys2Proof.Machine.execPeer c idx entry addrs s
  | .pattest c nonce => Sys2Proof.Machine.execPattest c nonce s
  | .hartsDown c slice => Sys2Proof.Machine.execHartsDown c slice s
  | .vdctx c vd img => Sys2Proof.Machine.execVdctx c vd img s
  | .wayprof c prof masks pols => Sys2Proof.Machine.execWayprof c prof masks pols s
  | .pageRetire c vd va size cw => Sys2Proof.Machine.execPageRetire c vd va size cw s
  | .shootdown c vd range cw => Sys2Proof.Machine.execShootdown c vd range cw s
  | .fresolve c handle ans => Sys2Proof.Machine.execFresolve c handle ans s
  | .keyGen c slot => Sys2Proof.Machine.execKeyGen c slot s
  | .keyZero c slot => Sys2Proof.Machine.execKeyZero c slot s
  | .scrubStart c job ranges slots cores vd => Sys2Proof.Machine.execScrubStart c job ranges slots cores vd s
  | .refresh slice vd => Sys2Proof.Machine.execRefresh slice vd s
  | .stop slice core quarter vd => Sys2Proof.Machine.execStop slice core quarter vd s
  | .resume slice core quarter => Sys2Proof.Machine.execResume slice core quarter s
  | .csave slice vd => Sys2Proof.Machine.execCsave slice vd s
  | .crestore slice vd => Sys2Proof.Machine.execCrestore slice vd s
  | .dumpWritten q => Sys2Proof.Machine.execDumpWritten q s
  | .sampleTaken q => Sys2Proof.Machine.execSampleTaken q s
  | .recordStreamRoom b g t => Sys2Proof.Machine.execRecordStreamRoom b g t s
  | .counterReadLo slice vd n => Sys2Proof.Machine.execCounterReadLo slice vd n s
  | .counterReadHi slice vd n => Sys2Proof.Machine.execCounterReadHi slice vd n s
  | .counterPageWrite slice vd off val => Sys2Proof.Machine.execCounterPageWrite slice vd off val s
  | .pwrCtlWrite slice v => Sys2Proof.Machine.execPwrCtlWrite slice v s
  | .resCtlWrite slice v => Sys2Proof.Machine.execResCtlWrite slice v s
  | .chErrWrite slice v => Sys2Proof.Machine.execChErrWrite slice v s
  | .powerWindowEnd slice => Sys2Proof.Machine.execPowerWindowEnd slice s
  | .railVoltageReached col => Sys2Proof.Machine.execRailVoltageReached col s
  | .railFallConfirm col => Sys2Proof.Machine.execRailFallConfirm col s
  | .railSettleExpiry col => Sys2Proof.Machine.execRailSettleExpiry col s
  | .currentLimitAlarm slice => Sys2Proof.Machine.execCurrentLimitAlarm slice s
  | .alarmPersist1us slice => Sys2Proof.Machine.execAlarmPersist1us slice s
  | .alarmPersist10us slice => Sys2Proof.Machine.execAlarmPersist10us slice s
  | .alarmClear50us slice => Sys2Proof.Machine.execAlarmClear50us slice s
  | .thermalSample slice t0 t1 => Sys2Proof.Machine.execThermalSample slice t0 t1 s
  | .instructionCacheFill b g t => Sys2Proof.Machine.execInstructionCacheFill b g t s
  | .pendingWritePerformed b g id => Sys2Proof.Machine.execPendingWritePerformed b g id s
  | .frequencyChangeComplete slice => Sys2Proof.Machine.execFrequencyChangeComplete slice s
  | .currentLimitAlarmClear slice => Sys2Proof.Machine.execCurrentLimitAlarmClear slice s
  | .partitionDestroyComplete pid => Sys2Proof.Machine.execPartitionDestroyComplete pid s
  | .hostHartAccess a => Sys2Proof.Machine.execHostHartAccess a s
  | .pacedPacketSend slice peer => Sys2Proof.Machine.execPacedPacketSend slice peer s
  | .virtioQueueNotify slice queue => Sys2Proof.Machine.execVirtioQueueNotify slice queue s
  | .portLinkChange slice up => Sys2Proof.Machine.execPortLinkChange slice up s

end Sys2Proof.Machine
end

