-- ==== Sys2Proof/Machine/Step.lean ====
section
/-!
DEFINITION. One step of the package: the agenda names the next move, and with an empty agenda a default policy does.
-/
namespace Sys2Proof.Machine

/-- A quarter's tillers step over `pad` words (R28), and it issues one instruction of the tiller it selects (R78, R79). A tiller that is at
no instruction start takes the misaligned-target trap (R41), and words that no check passes are the illegal-instruction trap (R51). -/
def issueStep (q : Nat) (s : State) : Host.Outcome State Fault Refusal :=
  let s := s.passPads q
  match s.select q with
  | none => .next s
  | some t => match t.misaligned with
    | some u => .next u
    | none => match decodeWords t.fetchWords with
      | .ok (i, _) => exec i t
      | .error n => .next (t.illegal n)

/-- A move of the agenda; an instruction is not an event. -/
def moveStep (m : Move) (s : State) : Host.Outcome State Fault Refusal :=
  match m with
  | .issue q => issueStep q s
  | .ev i => if isEvent i then exec i s else .next s
  | .upset line n => .next (s.upset line n)
  | .record src code tag => .next (s.recordIn src code tag)

/-- The state that an event gives, if it differs. -/
def changed (s : State) : Host.Outcome State Fault Refusal → Option State
  | .next t => if t = s then none else some t
  | _ => none

/-- The default policy: in turn an internal event first, or an instruction first. -/
def idleStep (s : State) : Host.Outcome State Fault Refusal :=
  let ev := s.candidates.findSome? fun a => changed s (a s)
  let q := s.turns.find? fun q => (s.select q).isSome
  match ev, q with
  | none, none => .next s
  | some t, none => .next t
  | none, some q => issueStep q s
  | some t, some q => if s.now % 2 == 0 then .next t else issueStep q s

/-- What follows after a step. -/
def settled : Host.Outcome State Fault Refusal → Host.Outcome State Fault Refusal
  | .next s => .next s.settle
  | r => r

/-- A part that is disconnected does nothing until it is powered on again (R428). -/
def offStep (m : Move) (s : State) : Host.Outcome State Fault Refusal :=
  match m with
  | .ev .packagePowerOnReset => exec .packagePowerOnReset s
  | _ => .next s

/-- One step: time moves on, the move is made, and what follows of itself happens. -/
def step (s : State) : Host.Outcome State Fault Refusal :=
  match s.agenda with
  | (dt, m) :: rest =>
    let s : State := { s with agenda := rest, now := s.now + dt }
    if s.powered then settled (moveStep m s) else offStep m s
  | [] =>
    let s : State := { s with now := s.now + 1 }
    if s.powered then settled (idleStep s) else .next s

/-- The state with an instruction where the next step fetches it. -/
def State.withFetchWord (s : State) (nbits w : Nat) : State := s.placed (w % 2 ^ nbits)

end Sys2Proof.Machine
end

