-- ==== Sys2Proof/Claims.lean ====
section
/-!
DEFINITION. The vocabulary of the statements: what an instruction that has issued leaves as it was, the results it posts, what a scalar or a lane
reads, and arithmetic modulo 2^w, saturated and wrapped, said with bit vectors.
-/
namespace Sys2Proof.Claims
open Sys2Proof.Machine

/-- The result of a step. -/
abbrev Out := Host.Outcome State Fault Refusal

/-! ### What is left as it was -/

/-- A slice but for the values of its counters (R401, R402). -/
def SliceKept (a b : Slice) : Prop := b = { a with csets := b.csets }

/-- Two groups alike but for the tillers, the marks of the last issue and the validity of the flashback point. -/
def GroupKept (g g' : Group) : Prop :=
  g' = { g with tillers := g'.tillers, lastIssue := g'.lastIssue, lastPc := g'.lastPc, lastSlot := g'.lastSlot
                flash := { g.flash with valid := g'.flash.valid } }

/-- The machine `t` is the machine of `y` with the tiller, group and block of `y` in their places. Every other field of the machine, so every byte of
memory, every other block, group and tiller are those of `y`, and so is every slice but for its counters, and the group but for the marks of its last
issue. -/
def Holds (t : State) (y : Ex) : Prop :=
  t = { y.s with slices := t.slices, blocks := t.blocks } ∧
  (∀ k, SliceKept (y.s.slice k) (t.slice k)) ∧
  (∀ k, k ≠ y.c.b → tget t.blocks k = tget y.s.blocks k) ∧
  ∃ gs g, tget t.blocks y.c.b = some { y.b with groups := gs } ∧ gs.length = y.b.groups.length ∧ gs[y.c.g]? = some g ∧
    (∀ j, j ≠ y.c.g → gs[j]? = y.b.groups[j]?) ∧
    GroupKept y.g g ∧ (∀ j, j ≠ y.c.t → g.tillers[j]? = y.g.tillers[j]?) ∧ g.tillers[y.c.t]? = some y.t

/-- The instruction completes: what it leaves is `y`, which a statement writes as the tiller `x` that executes it with what it changes. -/
def Ends (i : Instr) (s : State) (y : Ex) : Prop := ∃ t, exec i s = .next t ∧ Holds t y

/-- The tiller gone on to the next instruction: its windows have counted it (R83). -/
def nextT (i : Instr) (x : Ex) : Tiller :=
  { x.t with st := .ready, pc := (x.t.pc + ilen i) % 2 ^ 64, wins := x.t.wins.map fun w => { w with left := w.left - 1 } }

/-! ### Parts of the machine that become others -/

/-- A group of a block of the machine. -/
def GroupAt (s : State) (b g : Nat) (gr : Group) : Prop := ∃ bl, tget s.blocks b = some bl ∧ bl.groups[g]? = some gr
/-- Two machines that differ in one block at most, which is `bl` in the second. -/
def BlockBecomes (s t : State) (b : Nat) (bl : Block) : Prop :=
  t = { s with blocks := t.blocks } ∧ (∀ k, k ≠ b → tget t.blocks k = tget s.blocks k) ∧ tget t.blocks b = some bl
/-- Two machines that differ in one group at most, which is `gr` in the second. -/
def GroupBecomes (s t : State) (b g : Nat) (gr : Group) : Prop :=
  ∃ bl gs, tget s.blocks b = some bl ∧ BlockBecomes s t b { bl with groups := gs } ∧ gs[g]? = some gr ∧ ∀ j, j ≠ g → gs[j]? = bl.groups[j]?

/-! ### Results -/

/-- The pending entry of results that wait for their latency. -/
def resultOf (i : Instr) (x : Ex) (wr : List Wr) (fl : Nat) : Pend where
  slot := x.c.t
  mask := x.t.mask
  op := opcode i
  marks := (usesOf i x.g).wr ++ (if fl = 0 then [] else [.flags])
  wr := wr
  fl := fl
  kind := .alu

/-- The group with a new pending entry. -/
def withPend (g : Group) (p : Pend) : Group := { g with pend := tput g.pend g.nextPend p, nextPend := g.nextPend + 1 }
/-- The window that an opcode marked L opens (R83). -/
def opened (i : Instr) (x : Ex) : List Win := if isL (opcode i) then [{ id := x.g.nextPend, left := (fields i).look }] else []

/-- Whether an instruction, with a lane in its guard, writes a register of the live set of its group's flashback point (R301, R303). -/
def voids (i : Instr) (x : Ex) : Bool :=
  x.guard ⟨Fin.ofNat 16 (fields i).pred, (fields i).pneg == 1, 0⟩ != 0 && (usesOf i x.g).wr.any (liveReg x.g.flash.rcd)
/-- The executing group holds its flashback point afterwards unless the instruction has voided it (R301). -/
def PointAfter (i : Instr) (x : Ex) (t : State) : Prop :=
  ∃ g, GroupAt t x.c.b x.c.g g ∧ g.flash.valid = (x.g.flash.valid && !voids i x)

/-- The instruction completes: its results `wr` and flags `fl` wait for their latency as the group's newest pending entry, which marks the
registers that it writes (R82, R85), a write of a live register voids the flashback point (R301), and all else is kept. `mode` is the tiller's
mode after it. -/
def PostsM (i : Instr) (s : State) (x : Ex) (wr : List Wr) (fl : Nat) (mode : Word) : Prop :=
  ∃ t, exec i s = .next t ∧ PointAfter i x t ∧ Holds t { x with g := withPend x.g (resultOf i x wr fl), t := { nextT i x with mode := mode, wins := (nextT i x).wins ++ opened i x } }

/-- The same with the tiller's mode kept. -/
def Posts (i : Instr) (s : State) (x : Ex) (wr : List Wr) (fl : Nat) : Prop := PostsM i s x wr fl x.t.mode

/-- The instruction completes without a result: all is kept but that the tiller goes on. -/
def Passes (i : Instr) (s : State) (x : Ex) (mode : Word) : Prop := Ends i s { x with t := { nextT i x with mode := mode } }

/-- The pending entry of an instruction that waits for a condition. -/
def condOf (i : Instr) (x : Ex) (c : Cond) : Pend where
  slot := x.c.t
  mask := x.t.mask
  op := opcode i
  marks := []
  wr := []
  fl := 0
  kind := .cond c

/-- The instruction is under way and waits for a condition: with LOOK 0 its tiller is in Long-wait on it (R83, R86). -/
def Waits (i : Instr) (s : State) (x : Ex) (c : Cond) : Prop :=
  Ends i s { x with
    g := withPend x.g (condOf i x c)
    t := { nextT i x with
      wins := (nextT i x).wins ++ opened i x
      st := if isL (opcode i) && (fields i).look == 0 then .longWait (.on x.g.nextPend) else .ready } }

/-- The instruction is a trap of its tiller (R99, R100). -/
def Traps (i : Instr) (s : State) (x : Ex) (code info : Nat) : Prop := exec i s = .next (x.trapped code info (twoWords i))
/-- The instruction is a program fault: its block ends as failed (R118). -/
def Fails (i : Instr) (s : State) (x : Ex) (f : Fail) : Prop := exec i s = .next (x.close.failBlock x.c.b f)

/-! ### Numbers -/

/-- The low w bits of a number, read as the type reads them. -/
def readAs (t : IType) (n : Nat) : Int := if signedTy t then (BitVec.ofNat t.width n).toInt else ((BitVec.ofNat t.width n).toNat : Int)
/-- An exact result wrapped to the type's width, and read as the type reads it. -/
def wrapAs (t : IType) (r : Int) : Int := if signedTy t then (BitVec.ofInt t.width r).toInt else ((BitVec.ofInt t.width r).toNat : Int)
/-- The least and the greatest value of a type. -/
def loOf (t : IType) : Int := if signedTy t then -(2 ^ (t.width - 1)) else 0
def hiOf (t : IType) : Int := if signedTy t then 2 ^ (t.width - 1) - 1 else 2 ^ t.width - 1
/-- An exact result saturated to the type's range. -/
def clampAs (t : IType) (r : Int) : Int := max (loOf t) (min (hiOf t) r)
/-- A result, saturated or wrapped (R75, R112, R159). -/
def settle (t : IType) (sat : Bool) (r : Int) : Int := if sat then clampAs t r else wrapAs t r
/-- SATF of a result. -/
def satFlag (t : IType) (sat : Bool) (r : Int) : Nat := if sat && (r < loOf t || hiOf t < r) then fSATF else 0

/-- A condition of a comparison of integers (R113, R161). -/
def holdsCC (cc : CC) (a b : Int) : Bool :=
  match cc with
  | .eq => decide (a = b)
  | .ne => decide (a ≠ b)
  | .lt => decide (a < b)
  | .le => decide (a ≤ b)
  | .gt => decide (a > b)
  | .ge => decide (a ≥ b)

/-- Scalar operands A and B as the type reads them (R112). -/
def scA (g : Group) (t : IType) (r : SReg) : Int := readAs t (g.sget r.val).toNat
def scB (g : Group) (t : IType) : Src 128 → Int
  | .reg r => scA g t r
  | .imm v => readAs t (immBits t v)
/-- The write of a value to a scalar, extended to 64 bits. -/
def toS (d : SReg) (v : Int) : Wr := .s d.val (BitVec.ofInt 64 v)

/-- A lane of vector operands A and B as the type reads them (R156); 64-bit types read a pair. -/
def laneBits (g : Group) (t : IType) (r l : Nat) : Nat :=
  if t.width = 64 then (g.vget r l).toNat + 2 ^ 32 * (g.vget (r + 1) l).toNat else (g.vget r l).toNat
def vcA (g : Group) (t : IType) (a : VSrc) (l : Nat) : Int := readAs t (laneBits g t (vidx g a) l)
def vcB (g : Group) (t : IType) (b : Src 1024) (l : Nat) : Int := match b with
  | .reg r => readAs t (laneBits g t r.val l)
  | .imm v => readAs t (immBits t v)
/-- The writes of a lane's value: a register, or the pair of a 64-bit type, low word first. -/
def toV (t : IType) (d l : Nat) (v : Int) : List Wr :=
  if t.width = 64 then [.v d l (BitVec.ofInt 32 v), .v (d + 1) l (BitVec.ofInt 32 (v / 2 ^ 32))] else [.v d l (BitVec.ofInt 32 v)]

/-- The lanes on which an instruction acts (R34). -/
def acts (x : Ex) (h : Hd) : List Nat := lanes (x.guard h)

/-- A vector instruction completes with a value and flags for each of its lanes. -/
def PostsLanes (i : Instr) (s : State) (x : Ex) (h : Hd) (f : Nat → List Wr × Nat) (mode : Word) : Prop :=
  PostsM i s x ((acts x h).flatMap fun l => (f l).1) ((acts x h).foldl (fun n l => n ||| (f l).2) 0) mode

end Sys2Proof.Claims
end

