-- ==== Sys2Proof/Safety.lean ====
section
/-!
DEFINITION. What a safe step is.
-/
namespace Sys2Proof.Machine

/-- The step at a state is safe: it gives a next state, and neither stops with a fault nor is refused. -/
def SafeAt (s : State) : Prop := ∃ t, step s = .next t

/-- A state from which any number of steps is safe. -/
def SafeFor : Nat → State → Prop
  | 0, _ => True
  | n + 1, s => ∃ t, step s = .next t ∧ SafeFor n t

end Sys2Proof.Machine
end

