-- ==== Sys2Proof/Certificates/Slice0/Obligations.lean ====
section
/-!
DEFINITION. The statements for the provers.
-/
open Sys2Proof Sys2Proof.Machine Sys2Proof.Claims

/-! ### Scalars and predicates (R112 to R114) -/

namespace Sys2Proof.Claims

/-- A row of R112's table: the exact result of the operands, saturated where SAT or SATD asks for it and the row allows it, else wrapped, goes
to scalar D extended to 64 bits, and SATF tells a saturation; with a false guard nothing is written. -/
def ScalarRow (mk : SOp → Instr) (sat : Bool) (f : IType → Int → Int → Int) : Prop :=
  ∀ s x o, Issues (mk o) s x →
    (x.guard o.h = 0 → Passes (mk o) s x x.t.mode) ∧
    (x.guard o.h ≠ 0 →
      Posts (mk o) s x [toS o.d (settle o.ty (sat && (o.sat || satd x.t.mode)) (f o.ty (scA x.g o.ty o.a) (scB x.g o.ty o.b)))]
        (satFlag o.ty (sat && (o.sat || satd x.t.mode)) (f o.ty (scA x.g o.ty o.a) (scB x.g o.ty o.b))))

/-- The w bits of a value. -/
def wbits (t : IType) (a : Int) : BitVec t.width := BitVec.ofInt t.width a

/-- The single values of `sbit` and `bit` on w bits (R113, R163). -/
def bitValue (op : BitOp) (w n : Nat) : Nat :=
  match op with
  | .popc => ((List.range w).filter fun i => n.testBit i).length
  | .clz => ((List.range w).reverse.takeWhile fun i => !n.testBit i).length
  | .ctz => ((List.range w).takeWhile fun i => !n.testBit i).length
  | .brev => ((List.range w).map fun i => if n.testBit i then 2 ^ (w - 1 - i) else 0).sum
  | .bswap => ((List.range (w / 8)).map fun i => n / 256 ^ i % 256 * 256 ^ (w / 8 - 1 - i)).sum

/-- A row of a uniform instruction that writes one scalar. -/
def ToScalarRow (i : Instr) (h : Hd) (d : SReg) (f : Ex → DWord) : Prop :=
  ∀ s x, Issues i s x → (x.guard h = 0 → Passes i s x x.t.mode) ∧ (x.guard h ≠ 0 → Posts i s x [.s d.val (f x)] 0)

end Sys2Proof.Claims

/-- R112 to R114: the scalar instructions: arithmetic and logic, comparison and selection, moves and bit fields.
R112: the scalar arithmetic family.
R113: `scmp` gives 1 or 0, and `ssel` keeps to the old D.
R113, R114: `smov`, `smov.hi`, `sbfx`, `sbit`, `sget` and the scalar forms of `pbits`. -/
def Obligations.ScalarInstructions : Prop :=
  (
    ScalarRow .sadd true (fun _ a b => a + b) ∧ ScalarRow .ssub true (fun _ a b => a - b) ∧ ScalarRow .smul true (fun _ a b => a * b) ∧
    ScalarRow .smulh false (fun t a b => a * b / 2 ^ t.width) ∧
    ScalarRow .sdiv true (fun t a b => if b = 0 then (if signedTy t then -1 else 2 ^ t.width - 1) else a.tdiv b) ∧
    ScalarRow .srem false (fun _ a b => if b = 0 then a else a - b * a.tdiv b) ∧
    ScalarRow .sand false (fun t a b => ((wbits t a &&& wbits t b).toNat : Int)) ∧
    ScalarRow .sor false (fun t a b => ((wbits t a ||| wbits t b).toNat : Int)) ∧
    ScalarRow .sxor false (fun t a b => ((wbits t a ^^^ wbits t b).toNat : Int)) ∧
    ScalarRow .sshl false (fun t a b => a * 2 ^ (b % t.width).toNat) ∧
    ScalarRow .sshr false (fun t a b => ((wbits t a).toNat : Int) / 2 ^ (b % t.width).toNat) ∧
    ScalarRow .ssra false (fun t a b => a / 2 ^ (b % t.width).toNat) ∧
    ScalarRow .smin false (fun _ a b => min a b) ∧ ScalarRow .smax false (fun _ a b => max a b)) ∧
  (
    (∀ s x cc o, Issues (.scmp cc o) s x → x.guard o.h ≠ 0 →
      Posts (.scmp cc o) s x [toS o.d (if holdsCC cc (scA x.g o.ty o.a) (scB x.g o.ty o.b) then 1 else 0)] 0) ∧
    (∀ s x o, Issues (.ssel o) s x → x.guard o.h ≠ 0 →
      Posts (.ssel o) s x [toS o.d (if x.g.sget o.d.val = 0 then scB x.g o.ty o.b else scA x.g o.ty o.a)] 0) ∧
    (∀ s x cc o, Issues (.scmp cc o) s x → x.guard o.h = 0 → Passes (.scmp cc o) s x x.t.mode) ∧
    (∀ s x o, Issues (.ssel o) s x → x.guard o.h = 0 → Passes (.ssel o) s x x.t.mode)) ∧
  (
    (∀ h ty d a, ToScalarRow (.smov h ty d (.reg a)) h d fun x => BitVec.ofInt 64 (scA x.g ty a)) ∧
    (∀ h ty d v, ToScalarRow (.smov h ty d (.imm v)) h d fun _ => BitVec.ofInt 64 (readAs ty (immBits ty v))) ∧
    (∀ h d v, ToScalarRow (.smovHi h d v) h d fun x => v ++ (x.g.sget d.val).setWidth 32) ∧
    (∀ h ty d a pos len, 0 < len.val → ToScalarRow (.sbfx h ty d a pos len) h d fun x =>
      if signedTy ty then (((x.g.sget a.val) >>> pos.val).setWidth len.val).signExtend 64 else (((x.g.sget a.val) >>> pos.val).setWidth len.val).setWidth 64) ∧
    (∀ h ty op d a, ToScalarRow (.sbit h ty op d a) h d fun x => BitVec.ofNat 64 (bitValue op ty.width (x.g.sget a.val).toNat)) ∧
    (∀ h ty d a r, ToScalarRow (.sget h ty d a (.reg r)) h d fun x =>
      BitVec.ofInt 64 (readAs ty (x.g.vget (vidx x.g a) ((x.g.sget r.val).toNat % 32)).toNat)) ∧
    (∀ h ty d a v, ToScalarRow (.sget h ty d a (.imm v)) h d fun x => BitVec.ofInt 64 (readAs ty (x.g.vget (vidx x.g a) (v.toNat % 32)).toNat)) ∧
    (∀ h d a, ToScalarRow (.pbits h (.tos d a)) h d fun x => (x.g.pget a.val).setWidth 64) ∧
    (∀ h d a, ToScalarRow (.pbits h (.pop d a)) h d fun x =>
      BitVec.ofNat 64 ((lanes x.t.mask).filter fun l => (x.g.pget a.val).getLsbD l).length))

namespace Sys2Proof.Claims

/-- A row of an instruction that writes one predicate bit for each of its lanes. -/
def ToPredRow (i : Instr) (h : Hd) (d : PReg) (f : Ex → Nat → Bool) : Prop :=
  ∀ s x, Issues i s x →
    (x.guard h = 0 → Passes i s x x.t.mode) ∧ (x.guard h ≠ 0 → Posts i s x ((acts x h).map fun l => .p d.val l (f x l)) 0)

end Sys2Proof.Claims

/-- R109, with the encoding of `elect`; and of R114 and R178 what `plog`, `pbits.top` and `poll` write: their bit for the lanes of G and no other. -/
def Obligations.PredicateResults : Prop :=
  (∀ h op d a b, ToPredRow (.plog h op d a b) h d fun x l =>
    let p := (x.g.pget a.val).getLsbD l
    let q := (x.g.pget b.val).getLsbD l
    match op with
    | .and => p && q | .or => p || q | .xor => xor p q | .andn => p && !q | .orn => p || !q | .not => !p | .mov => p | .set => true) ∧
  (∀ h d a, ToPredRow (.pbits h (.top d a)) h d fun x l => (x.g.sget a.val).getLsbD l) ∧
  (∀ h d, ToPredRow (.elect h d) h d fun x l => decide (∀ j ∈ acts x h, l ≤ j)) ∧
  (∀ (h : Hd) (d : PReg), encode (.elect h d) =
    [1 + 4 * 0x0F + h.look.val * 2 ^ 10 + h.pred.val * 2 ^ 14 + (if h.neg then 2 ^ 18 else 0), d.val]) ∧
  (∀ h op d a, ToPredRow (.poll h op d a) h d fun x _ =>
    let n := ((acts x h).filter fun l => (x.g.pget a.val).getLsbD l).length
    match op with
    | .some => decide (n ≠ 0) | .every => decide (n = (acts x h).length) | .same => decide (n = 0 ∨ n = (acts x h).length)
    | .nil => decide (n = 0) | .odd => decide (n % 2 = 1))

/-! ### The vector unit: integers (R159 to R166) -/

namespace Sys2Proof.Claims

/-- A row of the vector unit: values and flags for the lanes of G, and the tiller's mode after it. -/
def LanesRow (i : Instr) (h : Hd) (f : Ex → Nat → List Wr × Nat) (mode : Ex → Word) : Prop :=
  ∀ s x, Issues i s x → (x.guard h = 0 → Passes i s x (mode x)) ∧ (x.guard h ≠ 0 → PostsLanes i s x h (f x) (mode x))

/-- The mode stays. -/
def same (x : Ex) : Word := x.t.mode

/-- SRSTEP goes up by 1 modulo 2^16 when the effective rounding is stochastic (R62). -/
def stepped (r : Rnd) (x : Ex) : Word := if effRnd x.t.mode r = .rs then x.t.mode + 0x10000 else x.t.mode

/-- A row of R159's table, saturated or wrapped. -/
def IntRow (mk : VOp → Instr) (sat : Bool) (f : IType → Int → Int → Int) : Prop :=
  ∀ o, LanesRow (mk o) o.h (fun x l =>
    let r := f o.ty (vcA x.g o.ty o.a l) (vcB x.g o.ty o.b l)
    let st := sat && (o.sat || satd x.t.mode)
    (toV o.ty o.d.val l (settle o.ty st r), satFlag o.ty st r)) same

/-- The shift amount: the low six bits of register B or of the immediate, modulo w (R160). -/
def shiftOf (x : Ex) (o : VOp) (l : Nat) : Nat :=
  (match o.b with
   | .reg r => (x.g.vget r.val l).toNat
   | .imm v => immBits .b32 v) % 64 % o.ty.width

/-- A row of R160: the result's bits from those of the operands. -/
def BitsRow (mk : VOp → Instr) (f : (x : Ex) → (o : VOp) → (l : Nat) → BitVec o.ty.width → BitVec o.ty.width → BitVec o.ty.width) : Prop :=
  ∀ o, LanesRow (mk o) o.h (fun x l =>
    (toV o.ty o.d.val l (readAs o.ty (f x o l (wbits o.ty (vcA x.g o.ty o.a l)) (wbits o.ty (vcB x.g o.ty o.b l))).toNat), 0)) same

end Sys2Proof.Claims

/-- R159 to R161: the vector integer instructions: arithmetic, logic, shifts, comparison and selection.
R159: the integer family.
R160, R161: logic, shifts, comparison and selection; `rshr` is a / 2^s rounded to an integer. -/
def Obligations.VectorIntegerAndLogic : Prop :=
  (
    IntRow .iadd true (fun _ a b => a + b) ∧ IntRow .isub true (fun _ a b => a - b) ∧ IntRow .imul true (fun _ a b => a * b) ∧
    IntRow .imulh false (fun t a b => a * b / 2 ^ t.width) ∧ IntRow .imin false (fun _ a b => min a b) ∧ IntRow .imax false (fun _ a b => max a b) ∧
    (∀ o, LanesRow (.imad o) o.h (fun x l =>
      let r := vcA x.g o.ty o.a l * vcB x.g o.ty o.b l + vcA x.g o.ty (.reg o.c) l
      (toV o.ty o.d.val l (settle o.ty (o.sat || satd x.t.mode) r), satFlag o.ty (o.sat || satd x.t.mode) r)) same) ∧
    (∀ h ty sat d a, signedTy ty → LanesRow (.iabs h ty sat d a) h (fun x l =>
      let r : Int := |vcA x.g ty a l|
      (toV ty d.val l (settle ty (sat || satd x.t.mode) r), satFlag ty (sat || satd x.t.mode) r)) same) ∧
    (∀ h dt st sat d a, LanesRow (.cvti h dt st sat d a) h (fun x l =>
      let r := vcA x.g st a l
      (toV dt d.val l (settle dt (sat || satd x.t.mode) r), satFlag dt (sat || satd x.t.mode) r)) same)) ∧
  (
    BitsRow .and (fun _ _ _ a b => a &&& b) ∧ BitsRow .or (fun _ _ _ a b => a ||| b) ∧ BitsRow .xor (fun _ _ _ a b => a ^^^ b) ∧
    BitsRow .shl (fun x o l a _ => a <<< shiftOf x o l) ∧ BitsRow .shr (fun x o l a _ => a >>> shiftOf x o l) ∧
    (∀ o, signedTy o.ty → LanesRow (.sra o) o.h (fun x l =>
      (toV o.ty o.d.val l (vcA x.g o.ty o.a l / 2 ^ shiftOf x o l), 0)) same) ∧
    (∀ rnd o, LanesRow (.rshr rnd o) o.h (fun x l =>
      let a := vcA x.g o.ty o.a l
      let r := roundInt (effRnd x.t.mode rnd) (decide (a < 0)) a.natAbs (-(shiftOf x o l : Int)) (x.draw l 0)
      (toV o.ty o.d.val l (wrapAs o.ty r.1), if r.2 then fINX else 0)) (stepped rnd)) ∧
    (∀ h ty cc d a b, LanesRow (.icmp h ty cc d a b) h (fun x l => ([.p d.val l (holdsCC cc (vcA x.g ty a l) (vcB x.g ty b l))], 0)) same) ∧
    (∀ n, BitsRow (.sel n) fun x _ l a b => if (x.g.pget n.val).getLsbD l then a else b))

namespace Sys2Proof.Claims

/-- The field instruction of R162 on w bits: a field of `len` bits at `pos`, cut to the register; none keeps D. -/
def fieldValue (ty : IType) (ins : Bool) (old a : BitVec ty.width) (pos len : Nat) : Option Int :=
  let k := min len (ty.width - pos)
  let mask : BitVec ty.width := BitVec.ofNat ty.width (2 ^ k - 1)
  if len = 0 ∨ ty.width ≤ pos then (if ins then none else some 0)
  else if ins then some (readAs ty ((old &&& ~~~(mask <<< pos)) ||| ((a &&& mask) <<< pos)).toNat)
  else if signedTy ty then some ((a >>> pos).setWidth k).toInt
  else some (((a >>> pos).setWidth k).toNat : Int)

/-- What a lane of `bfx` writes. -/
def fieldLane (x : Ex) (ty : IType) (ins : Bool) (d : VReg) (a : VSrc) (pos len l : Nat) : List Wr × Nat :=
  match fieldValue ty ins (BitVec.ofNat _ (laneBits x.g ty d.val l)) (BitVec.ofNat _ (laneBits x.g ty (vidx x.g a) l)) pos len with
  | some v => (toV ty d.val l v, 0)
  | none => ([], 0)

/-- Element e of a packed word, and operand B as a packed word (R156). -/
def halfOf (v : Word) (e : Nat) : Int := ((v >>> (16 * e)).setWidth 16).toInt
def packedB (x : Ex) (b : Src 1024) (l : Nat) : Word := match b with
  | .reg r => x.g.vget r.val l
  | .imm v => BitVec.ofNat 32 (immBits .i16x2 v)

/-- Two results of 16 bits as a packed word with their flags. -/
def packTwo (d l : Nat) (st : Bool) (r0 r1 : Int) : List Wr × Nat :=
  ([.v d l (BitVec.ofInt 16 (settle .i16 st r1) ++ BitVec.ofInt 16 (settle .i16 st r0))], satFlag .i16 st r0 ||| satFlag .i16 st r1)

/-- A row of R165. -/
def PackRow (mk : VOp → Instr) (f : Int → Int → Int) : Prop :=
  ∀ o, LanesRow (mk o) o.h (fun x l =>
    let a := x.g.vget (vidx x.g o.a) l
    packTwo o.d.val l (o.sat || satd x.t.mode) (f (halfOf a 0) (halfOf (packedB x o.b l) 0)) (f (halfOf a 1) (halfOf (packedB x o.b l) 1))) same

end Sys2Proof.Claims

/-- R162 to R166: vector bit fields, bit counts, moves, and the instructions on pairs of 16-bit halves.
R162 to R164: bit fields, bit counts and moves.
R165, R166: the packed instructions; the sum of `pdot2` outside INT32 sets SATF, or OVF where it wraps. -/
def Obligations.VectorFieldsAndPacked : Prop :=
  (
    (∀ h ty ins d a pos len, LanesRow (.bfx h ty ins d a pos len) h (fun x l => fieldLane x ty ins d a pos.val len.val l) same) ∧
    (∀ h ty ins d a b c, LanesRow (.bfxReg h ty ins d a b c) h
      (fun x l => fieldLane x ty ins d a ((x.g.vget b.val l).toNat % 64) ((x.g.vget c.val l).toNat % 128) l) same) ∧
    (∀ h ty op d a, tyB2.contains ty → LanesRow (.bit h ty op d a) h (fun x l =>
      let v := bitValue op ty.width (laneBits x.g ty (vidx x.g a) l)
      (if op = .brev ∨ op = .bswap then toV ty d.val l (readAs ty v) else [.v d.val l (BitVec.ofNat 32 v)], 0)) same) ∧
    (∀ h ty d a, ty ≠ .i16x2 → LanesRow (.mov h ty d (.vec a)) h (fun x l => (toV ty d.val l (vcA x.g ty a l), 0)) same) ∧
    (∀ h ty d v, ty ≠ .i16x2 → LanesRow (.mov h ty d (.imm v)) h (fun _ l => (toV ty d.val l (readAs ty (immBits ty v)), 0)) same) ∧
    (∀ h ty d a, ty ≠ .i16x2 → LanesRow (.mov h ty d (.scl a)) h (fun x l => (toV ty d.val l (readAs ty (x.g.sget a.val).toNat), 0)) same) ∧
    (∀ h d, LanesRow (.mov h .b32 d .lane) h (fun _ l => ([.v d.val l (BitVec.ofNat 32 l)], 0)) same) ∧
    (∀ h d a, LanesRow (.mov h .i16x2 d (.vec a)) h (fun x l => ([.v d.val l (x.g.vget (vidx x.g a) l)], 0)) same) ∧
    (∀ h d v, LanesRow (.mov h .i16x2 d (.imm v)) h (fun _ l => ([.v d.val l (BitVec.ofNat 32 (immBits .i16x2 v))], 0)) same) ∧
    (∀ h d a, LanesRow (.mov h .i16x2 d (.scl a)) h (fun x l => ([.v d.val l ((x.g.sget a.val).setWidth 32)], 0)) same)) ∧
  (
    PackRow .padd (fun a b => a + b) ∧ PackRow .psub (fun a b => a - b) ∧ PackRow .pmul (fun a b => a * b) ∧
    (∀ h sat d a b, LanesRow (.pack h sat d a (.reg b)) h (fun x l =>
      packTwo d.val l (sat || satd x.t.mode) (vcA x.g .i32 a l) (vcA x.g .i32 (.reg b) l)) same) ∧
    (∀ h sat d a v, LanesRow (.pack h sat d a (.imm v)) h (fun x l => packTwo d.val l (sat || satd x.t.mode) (vcA x.g .i32 a l) v.toInt) same) ∧
    (∀ h hi d a, LanesRow (.unpk h hi d a) h (fun x l =>
      ([.v d.val l (BitVec.ofInt 32 (halfOf (x.g.vget (vidx x.g a) l) (if hi then 1 else 0)))], 0)) same) ∧
    (∀ o, LanesRow (.pdot2 o) o.h (fun x l =>
      let a := x.g.vget (vidx x.g o.a) l
      let b := packedB x o.b l
      let r := vcA x.g .i32 (.reg o.c) l + halfOf a 0 * halfOf b 0 + halfOf a 1 * halfOf b 1
      let st := o.sat || satd x.t.mode
      ([.v o.d.val l (BitVec.ofInt 32 (settle .i32 st r))], if r < loOf .i32 ∨ hiOf .i32 < r then (if st then fSATF else fOVF) else 0)) same))

/-! ### Across lanes (R173 to R179) -/

namespace Sys2Proof.Claims

/-- The raw value of a lane of A. -/
def srcLane (x : Ex) (ty : IType) (a : VSrc) (l : Nat) : Int := (laneBits x.g ty (vidx x.g a) l : Int)

/-- The source lane of `xlane` (R174), which may lie outside 0 to 31. -/
def laneFrom (m : XMode) (i b : Nat) : Int :=
  match m with
  | .pick => ((b % 32 : Nat) : Int)
  | .lo => (i : Int) - b
  | .hi => (i : Int) + b
  | .mir => ((i ^^^ (b % 32) : Nat) : Int)

/-- Element e of a register (R175). -/
def elemOf (x : Ex) (ty : IType) (r e : Nat) : Nat :=
  if ty = .i16x2 then ((x.g.vget r (e / 2)).toNat / 2 ^ (16 * (e % 2))) % 2 ^ 16 else (x.g.vget r e).toNat

/-- Elements of a type in a register: halves or lanes. -/
def elems (ty : IType) : Nat := if ty = .i16x2 then 64 else 32

/-- Element e of a shifted register (R175): `up` with the fill before A, `dn` with the fill after it. -/
def shifted (E n : Nat) (dn : Bool) (av fv : Nat → Nat) (e : Nat) : Nat :=
  if dn then (if e + n < E then av (e + n) else fv (e + n - E)) else (if e ≥ n then av (e - n) else fv (E + e - n))

/-- The amount of `slide`: a scalar above E counts as E. -/
def amountOf (x : Ex) (ty : IType) : Amt → Nat
  | .imm n => n.val
  | .reg c => min (x.g.sget c.val).toNat (elems ty)

/-- What a lane of `slide` writes. -/
def slideLaneOf (x : Ex) (ty : IType) (dn : Bool) (d : VReg) (a : VSrc) (n : Amt) (fv : Nat → Nat) (l : Nat) : List Wr × Nat :=
  let f := shifted (elems ty) (amountOf x ty n) dn (elemOf x ty (vidx x.g a)) fv
  ([.v d.val l (BitVec.ofNat 32 (if ty = .i16x2 then f (2 * l) + 2 ^ 16 * f (2 * l + 1) else f l))], 0)

/-- The value of an operation over a list of values, the first as it stands, with the flags of every later step (R177). -/
def reduce (m : Word) (op : RedOp) : List Nat → Nat × Nat
  | [] => (0, 0)
  | v :: t => t.foldl (fun r v => ((redStep m op r.1 v).1, r.2 ||| (redStep m op r.1 v).2)) (v, 0)

/-- The lanes of G up to a lane, and the values they hold. -/
def valuesTo (x : Ex) (h : Hd) (op : RedOp) (a : VSrc) (p : Nat → Bool) : List Nat :=
  ((acts x h).filter p).map fun l => laneBits x.g (redTy op) (vidx x.g a) l

end Sys2Proof.Claims

/-! ### The vector unit: floating point (R59 to R61, R167 to R172) -/

namespace Sys2Proof.Claims

/-- A subnormal code of FP32, FP16 or BF16: exponent field zero, mantissa not. -/
def subnormal (ty : FType) (c : Nat) : Bool :=
  match ty with
  | .f32 => c / 2 ^ 23 % 2 ^ 8 = 0 && c % 2 ^ 23 ≠ 0
  | .f16 => c / 2 ^ 10 % 2 ^ 5 = 0 && c % 2 ^ 10 ≠ 0
  | .bf16 => c / 2 ^ 7 % 2 ^ 8 = 0 && c % 2 ^ 7 ≠ 0
  | _ => false

/-- The zero of a code's sign. -/
def zeroLike (ty : FType) (c : Nat) : Nat := c / 2 ^ (fmtBits ty - 1) % 2 * 2 ^ (fmtBits ty - 1)

/-- The code of an operand: the low bits of the lane, a subnormal read as zero under DAZ (R61, R156). -/
def codeOf (x : Ex) (ty : FType) (r l : Nat) : Nat :=
  let c := (x.g.vget r l).toNat % 2 ^ fmtBits ty
  if daz x.t.mode && subnormal ty c then zeroLike ty c else c

/-- The code of operand B. -/
def codeB (x : Ex) (ty : FType) (b : Src 1024) (l : Nat) : Nat := match b with
  | .reg r => codeOf x ty r.val l
  | .imm v => if daz x.t.mode && subnormal ty (immFloat ty v) then zeroLike ty (immFloat ty v) else immFloat ty v

/-- The value of operand A. -/
def valA (x : Ex) (ty : FType) (a : VSrc) (l : Nat) : Xv := fvalue ty .ieee (codeOf x ty (vidx x.g a) l)

/-- The value of operand B. -/
def valB (x : Ex) (ty : FType) (b : Src 1024) (l : Nat) : Xv := fvalue ty .ieee (codeB x ty b l)

/-- The code and flags of an exact value with its flags, rounded once, and flushed under FTZ where the type is wide (R59 to R61). -/
def roundedTo (x : Ex) (ty : FType) (rd : Reading) (rnd : Rnd) (sat : Bool) (lane e : Nat) (v : Xv × Nat) : Nat × Nat :=
  let r := roundF ty rd (effRnd x.t.mode rnd) (sat || satd x.t.mode) (x.draw lane e) v.1
  if ftz x.t.mode && subnormal ty r.1 then (zeroLike ty r.1, r.2 ||| v.2 ||| fINX) else (r.1, r.2 ||| v.2)

/-- What a lane of a float instruction writes. -/
def floatLane (x : Ex) (ty : FType) (rnd : Rnd) (sat : Bool) (d : VReg) (l : Nat) (v : Xv × Nat) : List Wr × Nat :=
  let r := roundedTo x ty .ieee rnd sat l 0 v
  ([.v d.val l (BitVec.ofNat 32 r.1)], r.2)

/-- A row of R168's table with two operands; the exact operation is told whether the rounding is toward −∞. -/
def FloatRow (mk : FOp → Instr) (f : Bool → Xv → Xv → Xv × Nat) : Prop :=
  ∀ o, LanesRow (mk o) o.h (fun x l =>
    floatLane x o.ty o.rnd o.sat o.d l (f (decide (effRnd x.t.mode o.rnd = .rmi)) (valA x o.ty o.a l) (valB x o.ty o.b l))) (stepped o.rnd)

/-- A row with one operand. -/
def FloatRow1 (mk : FUn → Instr) (f : Xv → Xv × Nat) : Prop :=
  ∀ o, LanesRow (mk o) o.h (fun x l => floatLane x o.ty o.rnd o.sat o.d l (f (valA x o.ty o.a l))) (stepped o.rnd)

/-- Whether either of two values is a NaN. -/
def anyNan (a b : Xv) : Bool := a.isNan || b.isNan

/-- Whether either of two values is a signalling NaN. -/
def anySig (a b : Xv) : Bool := a.isSig || b.isSig

/-- A selection of R145 between two codes: the lesser, or the greater. -/
def selected (ty : FType) (big : Bool) (a b : Nat) : Nat :=
  let u := fvalue ty .ieee a
  let v := fvalue ty .ieee b
  if u.isNan && v.isNan then nanCode ty .ieee
  else if u.isNan then b
  else if v.isNan then a
  else if (if big then xLess u v else xLess v u) then b else a

/-- A row of `fmin` and `fmax`. -/
def MinMaxRow (mk : FOp → Instr) (big : Bool) : Prop :=
  ∀ o, LanesRow (mk o) o.h (fun x l =>
    ([.v o.d.val l (BitVec.ofNat 32 (selected o.ty big (codeOf x o.ty (vidx x.g o.a) l) (codeB x o.ty o.b l)))],
      if anySig (valA x o.ty o.a l) (valB x o.ty o.b l) then fINV else 0)) same

end Sys2Proof.Claims

/-- R167 to R170: floating-point arithmetic, selection, comparison and class.
R167, R168: the exact result of each lane is rounded once to the type and written, with its flags.
R168 to R170: selection, comparison and class. -/
def Obligations.FloatInstructions : Prop :=
  (
    FloatRow .fadd xAdd ∧ FloatRow .fsub (fun m a b => xAdd m a b.neg) ∧ FloatRow .fmul (fun _ a b => xMul a b) ∧
    FloatRow .fdiv (fun _ a b => xDiv a b) ∧ FloatRow1 .frcp (fun a => xDiv (.num false 1 0) a) ∧ FloatRow1 .frsq xRsqrt ∧ FloatRow1 .fsqrt xSqrt ∧
    FloatRow1 .fexp2 xExp2 ∧ FloatRow1 .flog2 xLog2 ∧
    (∀ o, LanesRow (.ffma o) o.h (fun x l => floatLane x o.ty o.rnd o.sat o.d l
      (xFma (decide (effRnd x.t.mode o.rnd = .rmi)) (valA x o.ty o.a l) (valB x o.ty o.b l) (valA x o.ty (.reg o.c) l))) (stepped o.rnd)) ∧
    (∀ o, LanesRow (.frnd o) o.h (fun x l => floatLane x o.ty o.rnd false o.d l (match valA x o.ty o.a l with
      | .nan sg => (.nan false, if sg then fINV else 0)
      | .inf n => (.inf n, 0)
      | .num n m e =>
        let r := roundInt (effRnd x.t.mode o.rnd) n m e (x.draw l 0)
        (.num n r.1.natAbs 0, if r.2 then fINX else 0))) (stepped o.rnd)) ∧
    (∀ o, LanesRow (.fscl o) o.h (fun x l => floatLane x o.ty o.rnd o.sat o.d l (match valA x o.ty o.a l with
      | .nan sg => (.nan false, if sg then fINV else 0)
      | .inf n => (.inf n, 0)
      | .num n m e => (.num n m (e + vcB x.g .i32 o.b l), 0))) (stepped o.rnd))) ∧
  (
    MinMaxRow .fmin false ∧ MinMaxRow .fmax true ∧
    (∀ h ty cc d a b, LanesRow (.fcmp h ty cc d a b) h (fun x l =>
      let u := valA x ty a l
      let v := valB x ty b l
      let order : Bool := match cc with | .eq => false | .ne => false | .un => false | .ord => false | _ => true
      ([.p d.val l (match cc with
        | .eq => !anyNan u v && xEq u v | .ne => anyNan u v || !xEq u v
        | .lt => !anyNan u v && xLess u v && !xEq u v | .le => !anyNan u v && (xLess u v || xEq u v)
        | .gt => !anyNan u v && xLess v u && !xEq u v | .ge => !anyNan u v && (xLess v u || xEq u v)
        | .un => anyNan u v | .ord => !anyNan u v)], if anySig u v || (order && anyNan u v) then fINV else 0)) same) ∧
    (∀ h ty d a, tyF3.contains ty → LanesRow (.fclass h ty d a) h (fun x l =>
      let c := (x.g.vget (vidx x.g a) l).toNat % 2 ^ fmtBits ty
      let neg := decide (2 ^ (fmtBits ty - 1) ≤ c)
      let k : Nat := match fvalue ty .ieee c with
        | .nan sg => if sg then 8 else 9
        | .inf _ => if neg then 0 else 7
        | .num _ m _ => if m = 0 then (if neg then 3 else 4) else if subnormal ty c then (if neg then 2 else 5) else (if neg then 1 else 6)
      ([.v d.val l (BitVec.ofNat 32 (2 ^ k))], 0)) same))

namespace Sys2Proof.Claims

/-- The code of an operand of a reduction under DAZ (R61). -/
def flushed (m : Word) (c : Nat) : Nat := if daz m && subnormal .f32 c then zeroLike .f32 c else c

end Sys2Proof.Claims

/-- R173 to R177, R179: the instructions that move values across lanes, reductions and scans, and the step of each reduction.
R174, R175, R176, R179: `xlane`, `slide`, `bcast` and `vmatch`; a source lane is read whether or not it is active (R173).
R177: `vred` gives the reduction of the lanes of G, `scan` that of the lanes up to each one, or before it with the identity first; the last
value of the inclusive scan is that of `vred`, with the same flags.
R177: the step of each reduction with its flags, and the identity: the integer operations on w bits, and the sum of FP32 numbers rounded once, to
nearest even where DRND is stochastic, and flushed under FTZ; the lesser and the greater of two codes as `fmin` and `fmax`. -/
def Obligations.CrossLaneInstructions : Prop :=
  (
    (∀ h ty m keep d a b, tyB2.contains ty → LanesRow (.xlane h ty m keep d a b) h (fun x l =>
      let k := laneFrom m l (match b with
        | .reg r => (x.g.vget r.val l).toNat
        | .imm v => immBits .n32 v)
      (toV ty d.val l (if 0 ≤ k ∧ k ≤ 31 then srcLane x ty a k.toNat else if keep then srcLane x ty a l else 0), 0)) same) ∧
    (∀ h ty dn d a b n, LanesRow (.slide h ty dn d a b n) h (fun x l => slideLaneOf x ty dn d a n (elemOf x ty b.val) l) same) ∧
    (∀ h ty dn d a fill n, LanesRow (.slideImm h ty dn d a fill n) h (fun x l => slideLaneOf x ty dn d a n
      (fun e => if ty = .i16x2 then (fill.toNat / 2 ^ (16 * (e % 2))) % 2 ^ 16 else fill.toNat) l) same) ∧
    (∀ h ty d a b, tyB2.contains ty → LanesRow (.bcast h ty d a b) h (fun x l =>
      let k := (match b with
        | .reg r => (x.g.sget r.val).toNat
        | .imm v => immBits .b32 v) % 32
      (toV ty d.val l (srcLane x ty a k), 0)) same) ∧
    (∀ h ty d a, tyB2.contains ty → LanesRow (.vmatch h ty d a) h (fun x l =>
      ([.v d.val l (BitVec.ofNat 32 (((acts x h).filter fun j => srcLane x ty a j = srcLane x ty a l).map fun j => 2 ^ j).sum)], 0)) same)) ∧
  (
    (∀ h op d a s x, op.wf → Issues (.vred h op d a) s x → x.guard h ≠ 0 →
      let r := reduce x.t.mode op (valuesTo x h op a fun _ => true)
      Posts (.vred h op d a) s x [toS d (readAs (redTy op) r.1)] r.2) ∧
    (∀ h op d a s x, op.wf → Issues (.scan h false op d a) s x → x.guard h ≠ 0 →
      Posts (.scan h false op d a) s x ((acts x h).flatMap fun l => toV (redTy op) d.val l (readAs (redTy op) (reduce x.t.mode op (valuesTo x h op a (· ≤ l))).1))
        (reduce x.t.mode op (valuesTo x h op a fun _ => true)).2) ∧
    (∀ h op d a s x, op.wf → Issues (.scan h true op d a) s x → x.guard h ≠ 0 →
      Posts (.scan h true op d a) s x ((acts x h).flatMap fun l => toV (redTy op) d.val l (readAs (redTy op)
        (if valuesTo x h op a (· < l) = [] then redId op else (reduce x.t.mode op (valuesTo x h op a (· < l))).1)))
        (reduce x.t.mode op (valuesTo x h op a fun _ => true)).2) ∧
    (∀ h op d a s x, Issues (.vred h op d a) s x → x.guard h = 0 → Passes (.vred h op d a) s x x.t.mode) ∧
    (∀ h e op d a s x, Issues (.scan h e op d a) s x → x.guard h = 0 → Passes (.scan h e op d a) s x x.t.mode)) ∧
  (
    (∀ (m : Word) (t : IType) (r v : Nat), r < 2 ^ t.width → v < 2 ^ t.width →
      redStep m (.int .add t) r v = ((r + v) % 2 ^ t.width, 0) ∧
      redStep m (.int .min t) r v = ((BitVec.ofInt t.width (min (readAs t r) (readAs t v))).toNat, 0) ∧
      redStep m (.int .max t) r v = ((BitVec.ofInt t.width (max (readAs t r) (readAs t v))).toNat, 0) ∧
      redStep m (.int .and t) r v = ((BitVec.ofNat t.width r &&& BitVec.ofNat t.width v).toNat, 0) ∧
      redStep m (.int .or t) r v = ((BitVec.ofNat t.width r ||| BitVec.ofNat t.width v).toNat, 0) ∧
      redStep m (.int .xor t) r v = ((BitVec.ofNat t.width r ^^^ BitVec.ofNat t.width v).toNat, 0)) ∧
    (∀ t, tyW4.contains t → readAs t (redId (.int .add t)) = 0 ∧ readAs t (redId (.int .min t)) = hiOf t ∧ readAs t (redId (.int .max t)) = loOf t ∧
      redId (.int .and t) = 2 ^ t.width - 1 ∧ redId (.int .or t) = 0 ∧ redId (.int .xor t) = 0) ∧
    (∀ rnd, redId (.flt .fadd rnd) = 0x80000000 ∧ redId (.flt .fmin rnd) = 0x7F800000 ∧ redId (.flt .fmax rnd) = 0xFF800000) ∧
    (∀ (m : Word) (rnd : Rnd) (r v : Nat), r < 2 ^ 32 → v < 2 ^ 32 →
      let a := fvalue .f32 .ieee (flushed m r)
      let b := fvalue .f32 .ieee (flushed m v)
      let rn := if rnd = .dflt then (if drnd m = .rs then .rne else drnd m) else rnd
      let e := xAdd (decide (rn = .rmi)) a b
      let c := roundF .f32 .ieee rn false 0 e.1
      redStep m (.flt .fadd rnd) r v = (if ftz m && subnormal .f32 c.1 then (zeroLike .f32 c.1, c.2 ||| e.2 ||| fINX) else (c.1, c.2 ||| e.2)) ∧
      redStep m (.flt .fmin rnd) r v = (selected .f32 false (flushed m r) (flushed m v), if anySig a b then fINV else 0) ∧
      redStep m (.flt .fmax rnd) r v = (selected .f32 true (flushed m r) (flushed m v), if anySig a b then fINV else 0)))

namespace Sys2Proof.Claims

/-- The exact pairs of R171, by source and destination. -/
def exactCvt (rd : Reading) (st dt : FType) : Bool :=
  decide (st = dt) || [(FType.f16, FType.f32), (.bf16, .f32), (.e4m3, .f32), (.e5m2, .f32), (.e2m1, .f32), (.e4m3, .bf16), (.e5m2, .bf16), (.e2m1, .bf16),
    (.e4m3, .f16), (.e2m1, .f16), (.e2m1, .e4m3), (.e2m1, .e5m2)].contains (st, dt) || (decide (st = .e5m2) && decide (dt = .f16) && decide (rd = .ieee))

/-- A code converted (R171): an exact pair keeps the value of the operand and neither rounds nor flushes, another pair rounds once. A subnormal
operand of a wide type is read as zero under DAZ where the pair is not exact and the destination is wide: the model's reading of R61
(notes/assumptions/97.md). -/
def converted (x : Ex) (dt st : FType) (rnd : Rnd) (sat : Bool) (l e c : Nat) : Nat × Nat :=
  let rs := effRd x.t.fmt st
  let rd := effRd x.t.fmt dt
  if exactCvt rs st dt then
    (match fvalue st rs c with
      | .nan _ => nanCode dt rd
      | .inf n => (if n then 2 ^ (fmtBits dt - 1) else 0) + infCode dt
      | v => (roundF dt rd .rne false 0 v).1, if (fvalue st rs c).isSig then fINV else 0)
  else
    roundedTo x dt rd rnd sat l e (fvalue st rs (if daz x.t.mode && tyF3.contains dt && subnormal st c then zeroLike st c else c), 0)

/-- The flags of a list of codes. -/
def allFlags (l : List (Nat × Nat)) : Nat := l.foldl (fun n r => n ||| r.2) 0

end Sys2Proof.Claims

/-- R171, R172: the conversions; PK packs or unpacks four codes. -/
def Obligations.Conversions : Prop :=
  (∀ h dt st pk rnd sat d a s x, Instr.wf (.cvt h dt st pk rnd sat d a) → Issues (.cvt h dt st pk rnd sat d a) s x →
    let D := effF x.t.fmt dt
    let S := effF x.t.fmt st
    let mode := if exactCvt (effRd x.t.fmt S) S D then x.t.mode else stepped rnd x
    let src (k l : Nat) := (x.g.vget (vidx x.g a + k) l).toNat
    (x.guard h = 0 → Passes (.cvt h dt st pk rnd sat d a) s x mode) ∧
    (x.guard h ≠ 0 → PostsLanes (.cvt h dt st pk rnd sat d a) s x h (fun l =>
      if pk = false then
        let r := converted x D S rnd sat l 0 (src 0 l % 2 ^ fmtBits S)
        ([.v d.val l (BitVec.ofNat 32 r.1)], r.2)
      else if tyF3.contains D then
        let r := (List.range 4).map fun e => converted x D S rnd sat l e (src 0 l / 256 ^ e % 256)
        ((List.range 4).map fun e => .v (d.val + e) l (BitVec.ofNat 32 (r.getD e (0, 0)).1), allFlags r)
      else
        let r := (List.range 4).map fun e => converted x D S rnd sat l e (src e l % 2 ^ fmtBits S)
        ([.v d.val l (BitVec.ofNat 32 ((List.range 4).map fun e => (r.getD e (0, 0)).1 * 256 ^ e).sum)], allFlags r)) mode)) ∧
  (∀ h it ft rnd d a, LanesRow (.cvtfi h it ft rnd d a) h (fun x l =>
    let F := effF x.t.fmt ft
    match fvalue F (effRd x.t.fmt F) (codeOf x F (vidx x.g a) l) with
    | .nan _ => (toV it d.val l 0, fINV)
    | .inf n => (toV it d.val l (if n then loOf it else hiOf it), fSATF ||| fINX)
    | .num n m e =>
      let r := roundInt (effRnd x.t.mode rnd) n m e (x.draw l 0)
      (toV it d.val l (clampAs it r.1), if clampAs it r.1 ≠ r.1 then fSATF ||| fINX else if r.2 then fINX else 0)) (stepped rnd)) ∧
  (∀ h ft it rnd sat d a, LanesRow (.cvtif h ft it rnd sat d a) h (fun x l =>
    let F := effF x.t.fmt ft
    let v := vcA x.g it a l
    let r := roundedTo x F (effRd x.t.fmt F) rnd sat l 0 (.num (decide (v < 0)) v.natAbs 0, 0)
    ([.v d.val l (BitVec.ofNat 32 r.1)], r.2)) (stepped rnd))

/-! ### Numbers (R53 to R60, R167) -/

namespace Sys2Proof.Claims

/-- The rational that sign, m and e stand for. -/
def ratOf (neg : Bool) (m : Nat) (e : Int) : ℚ := (if neg then -1 else 1) * m * (2 : ℚ) ^ e

/-- The finite value of a code, if it has one. -/
def finite (f : FType) (rd : Reading) (c : Nat) : Option ℚ := match fvalue f rd c with
  | .num n m e => some (ratOf n m e)
  | _ => none

/-- The kind of a format in a reading, by R60's columns: finite-only, NaN-only, or IEEE-like as FP32, FP16 and BF16 always are. -/
def readsAs (f : FType) (rd : Reading) : Reading := if tyF3.contains f then .ieee else rd

/-- The code of the largest finite magnitude (R57). -/
def topCode (f : FType) (rd : Reading) : Nat :=
  match f with
  | .f32 => 0x7F7FFFFF | .f16 => 0x7BFF | .bf16 => 0x7F7F
  | .e4m3 => if rd = .ieee then 0x77 else 0x7F
  | .e5m2 => if rd = .ieee then 0x7B else 0x7F
  | .e2m1 => if rd = .ieee then 0x5 else 0x7
  | .ln6 => if rd = .ieee then 0x1E else 0x1F
  | .fmt => 0

/-- The code of +∞ where there is one, and the code of a NaN result, +0 where there is no NaN (R57, R60). -/
def infinityCode : FType → Nat
  | .f32 => 0x7F800000 | .f16 => 0x7C00 | .bf16 => 0x7F80 | .e4m3 => 0x78 | .e5m2 => 0x7C | .e2m1 => 0x6 | .ln6 => 0x1F | .fmt => 0
def nanResult (f : FType) (rd : Reading) : Nat :=
  match f with
  | .f32 => 0x7FC00000 | .f16 => 0x7E00 | .bf16 => 0x7FC0
  | .e4m3 => if rd = .finite then 0 else if rd = .nan then 0x80 else 0x7F
  | .e5m2 => if rd = .finite then 0 else if rd = .nan then 0x80 else 0x7F
  | .e2m1 => if rd = .finite then 0 else if rd = .nan then 0x8 else 0x7
  | .ln6 => if rd = .finite then 0 else 0x20
  | .fmt => 0

/-- A code with a sign. -/
def withSign (f : FType) (neg : Bool) (c : Nat) : Nat := c + if neg then 2 ^ (fmtBits f - 1) else 0

/-- R60's rows of a finite result above the largest finite, and of an infinity. -/
def aboveRow (f : FType) (rd : Reading) (rnd : Rnd) (sat neg : Bool) : Nat × Nat :=
  let top := withSign f neg (topCode f rd)
  match readsAs f rd with
  | .finite => (top, fSATF ||| fINX)
  | .nan => if sat then (top, fSATF ||| fINX) else (nanResult f rd, fOVF ||| fINX)
  | .ieee => if sat then (top, fSATF ||| fINX)
    else if rnd = .rtz ∨ (rnd = .rpi ∧ neg) ∨ (rnd = .rmi ∧ !neg) then (top, fOVF ||| fINX) else (withSign f neg (infinityCode f), fOVF ||| fINX)
def infRow (f : FType) (rd : Reading) (sat neg : Bool) : Nat × Nat :=
  let top := withSign f neg (topCode f rd)
  match readsAs f rd with
  | .finite => (top, fSATF ||| fINX)
  | .nan => if sat then (top, fSATF ||| fINX) else (nanResult f rd, fOVF ||| fINX)
  | .ieee => (withSign f neg (infinityCode f), 0)

end Sys2Proof.Claims

/-- R57, R59, R60: rounding to an integer and to a format, and the results and flags of exceptional inputs and results.
R59 with V the integers: what each rounding gives, and that the flag tells a difference; the stochastic one goes away from zero when the draw
is below the fraction in units of 2^-32.
R59: a value within a format's finite range is rounded to the neighbour that the rounding names, to the nearest under RNE and RNA, and INX is
set where the result differs from the value, and no other flag.
R60: the result and the flags where the input or the rounded result is exceptional. A value of twice the largest finite or more is above it under
every rounding; one that rounding toward zero or to nearest brings back to the largest finite is not: with FP32, FP16 and BF16 it is above from a step
beyond the largest finite on, and under rounding to nearest from half a step on. -/
def Obligations.Rounding : Prop :=
  (
    ∀ (neg : Bool) (m : Nat) (e : Int) (draw : Nat),
      let v := ratOf neg m e
      (∀ rnd, ((roundInt rnd neg m e draw).2 = true ↔ ((roundInt rnd neg m e draw).1 : ℚ) ≠ v)) ∧
      (roundInt .rmi neg m e draw).1 = ⌊v⌋ ∧ (roundInt .rpi neg m e draw).1 = ⌈v⌉ ∧
      (roundInt .rtz neg m e draw).1 = (if neg then ⌈v⌉ else ⌊v⌋) ∧
      |((roundInt .rne neg m e draw).1 : ℚ) - v| ≤ 1 / 2 ∧
      (|((roundInt .rne neg m e draw).1 : ℚ) - v| = 1 / 2 → Even (roundInt .rne neg m e draw).1) ∧
      |((roundInt .rna neg m e draw).1 : ℚ) - v| ≤ 1 / 2 ∧
      (|((roundInt .rna neg m e draw).1 : ℚ) - v| = 1 / 2 → |v| < |((roundInt .rna neg m e draw).1 : ℚ)|) ∧
      (roundInt .rs neg m e draw).1 =
        (if (draw : ℤ) < ⌊(|v| - ⌊|v|⌋) * 2 ^ 32⌋ then (if neg then -(⌊|v|⌋ + 1) else ⌊|v|⌋ + 1) else (if neg then ⌈v⌉ else ⌊v⌋))) ∧
  (
    ∀ (f : FType) (rd : Reading) (sat neg : Bool) (m : Nat) (e : Int) (draw : Nat) (rnd : Rnd), f ≠ .fmt → rnd ≠ .dflt →
      (∃ c b, c < 2 ^ fmtBits f ∧ finite f rd c = some b ∧ |ratOf neg m e| ≤ |b|) →
      ∃ w, finite f rd (roundF f rd rnd sat draw (.num neg m e)).1 = some w ∧
        (roundF f rd rnd sat draw (.num neg m e)).2 = (if w = ratOf neg m e then 0 else fINX) ∧
        ∀ c u, c < 2 ^ fmtBits f → finite f rd c = some u →
          ((rnd = .rne ∨ rnd = .rna) → |w - ratOf neg m e| ≤ |u - ratOf neg m e|) ∧
          (rnd = .rtz → |w| ≤ |ratOf neg m e| ∧ (|u| ≤ |ratOf neg m e| → |u| ≤ |w|)) ∧
          (rnd = .rmi → w ≤ ratOf neg m e ∧ (u ≤ ratOf neg m e → u ≤ w)) ∧
          (rnd = .rpi → ratOf neg m e ≤ w ∧ (ratOf neg m e ≤ u → w ≤ u))) ∧
  (
    (∀ (f : FType) (rd : Reading) (rnd : Rnd) (sat : Bool) (draw : Nat), f ≠ .fmt → rnd ≠ .dflt →
      (∀ sg, roundF f rd rnd sat draw (.nan sg) = (nanResult f rd, if sg ∨ readsAs f rd = .finite then fINV else 0)) ∧
      (∀ neg, roundF f rd rnd sat draw (.inf neg) = infRow f rd sat neg) ∧
      (∀ neg m e b, finite f rd (topCode f rd) = some b → 2 * b ≤ |ratOf neg m e| → roundF f rd rnd sat draw (.num neg m e) = aboveRow f rd rnd sat neg) ∧
      (∀ c u b, c < 2 ^ fmtBits f → finite f rd c = some u → finite f rd (topCode f rd) = some b → |u| ≤ b)) ∧
    (∀ (f : FType) (rd : Reading) (rnd : Rnd) (sat neg : Bool) (draw m : Nat) (e : Int) (b : ℚ), tyF3.contains f → finite f rd (topCode f rd) = some b →
      let v := |ratOf neg m e|
      let ulp := b / (2 ^ (if f = .f32 then 24 else if f = .f16 then 11 else 8) - 1)
      let half := b + ulp / 2
      (rnd ≠ .dflt → b + ulp ≤ v → roundF f rd rnd sat draw (.num neg m e) = aboveRow f rd rnd sat neg) ∧
      (b < v → v < b + ulp → rnd = .rtz → roundF f rd rnd sat draw (.num neg m e) = (withSign f neg (topCode f rd), fINX)) ∧
      (rnd = .rne ∨ rnd = .rna → half ≤ v → roundF f rd rnd sat draw (.num neg m e) = aboveRow f rd rnd sat neg) ∧
      (rnd = .rne ∨ rnd = .rna → b < v → v < half → roundF f rd rnd sat draw (.num neg m e) = (withSign f neg (topCode f rd), fINX))))

/-- R167, R168: the special cases of the float operations, exact sums, products and order, and quotients rounded to nearest.
R167, R168: the special cases of the operations, before rounding: NaN operands, invalid operations, infinities, and the signs of exact zeros.
R167, R168: sums, products and fused products of finite numbers are exact and set no flag, and comparison is that of the values, with −0 below
+0 for a selection and equal to it for `fcmp`.
R167: a quotient of finite numbers, rounded to nearest in a wide format, is the value of the format nearest to the exact quotient, where that
lies within the finite range. -/
def Obligations.ExactOperations : Prop :=
  (
    (∀ rmi a b c, a.isSig ∨ b.isSig → xAdd rmi a b = (.nan false, fINV) ∧ xMul a b = (.nan false, fINV) ∧ xDiv a b = (.nan false, fINV) ∧
      xFma rmi a b c = (.nan false, fINV) ∧ xFma rmi c a b = (.nan false, fINV)) ∧
    (∀ rmi a b c, ¬(a.isSig ∨ b.isSig ∨ c.isSig) → (a.isNan ∨ b.isNan) → xAdd rmi a b = (.nan false, 0) ∧ xMul a b = (.nan false, 0) ∧
      xDiv a b = (.nan false, 0) ∧ xFma rmi a b c = (.nan false, 0) ∧ xFma rmi c a b = (.nan false, 0)) ∧
    (∀ sg, let r := (Xv.nan false, if sg then fINV else 0)
      xSqrt (.nan sg) = r ∧ xRsqrt (.nan sg) = r ∧ xExp2 (.nan sg) = r ∧ xLog2 (.nan sg) = r) ∧
    (∀ rmi p q n m e, xAdd rmi (.inf p) (.inf q) = (if p = q then (.inf p, 0) else (.nan false, fINV)) ∧
      xAdd rmi (.inf p) (.num n m e) = (.inf p, 0) ∧ xAdd rmi (.num n m e) (.inf p) = (.inf p, 0)) ∧
    (∀ p q n m e, let z := if m = 0 then (Xv.nan false, fINV) else (.inf (xor p n), 0)
      xMul (.inf p) (.inf q) = (.inf (xor p q), 0) ∧ xMul (.inf p) (.num n m e) = z ∧ xMul (.num n m e) (.inf p) = z) ∧
    (∀ rmi p q n m e k, (k ≠ xor p n → xFma rmi (.inf p) (.num n m e) (.inf k) = (.nan false, fINV)) ∧
      (m ≠ 0 → xFma rmi (.inf p) (.num n m e) (.inf (xor p n)) = (.inf (xor p n), 0)) ∧
      (m = 0 → xFma rmi (.inf p) (.num n m e) (.inf k) = (.nan false, fINV) ∧ xFma rmi (.num n m e) (.inf p) (.inf k) = (.nan false, fINV)) ∧
      xFma rmi (.inf p) (.inf q) (.num n m e) = (.inf (xor p q), 0)) ∧
    (∀ p q n m e, xDiv (.inf p) (.inf q) = (.nan false, fINV) ∧ xDiv (.inf p) (.num n m e) = (.inf (xor p n), 0) ∧ xDiv (.num n m e) (.inf p) = (.num (xor n p) 0 0, 0)) ∧
    (∀ p q k m d e, xDiv (.num p m e) (.num q 0 d) = (if m = 0 then (.nan false, fINV) else (.inf (xor p q), 0)) ∧
      (k ≠ 0 → xDiv (.num p 0 e) (.num q k d) = (.num (xor p q) 0 0, 0))) ∧
    (∀ rmi p q d e, ∃ r, xAdd rmi (.num p 0 d) (.num q 0 e) = (.num (if p = q then p else rmi) 0 r, 0)) ∧
    (∀ rmi p m e, m ≠ 0 → ∃ r, xAdd rmi (.num p m e) (.num (!p) m e) = (.num rmi 0 r, 0)) ∧
    (∀ n m e, m ≠ 0 → xSqrt (.num true m e) = (.nan false, fINV) ∧ xRsqrt (.num true m e) = (.nan false, fINV) ∧ xLog2 (.num true m e) = (.nan false, fINV) ∧
      xSqrt (.num n 0 e) = (.num n 0 0, 0) ∧ xRsqrt (.num n 0 e) = (.inf n, 0) ∧ xLog2 (.num n 0 e) = (.inf true, 0) ∧
      xExp2 (.num n 0 e) = (.num false 1 0, 0)) ∧
    (∀ n, xSqrt (.inf n) = (if n then (.nan false, fINV) else (.inf false, 0)) ∧ xRsqrt (.inf n) = (if n then (.nan false, fINV) else (.num false 0 0, 0)) ∧
      xLog2 (.inf n) = (if n then (.nan false, fINV) else (.inf false, 0)) ∧ xExp2 (.inf n) = (if n then (.num false 0 0, 0) else (.inf false, 0))) ∧
    (∀ n (k : Nat), k < 2 ^ 20 → ∃ m e, xExp2 (.num n k 0) = (.num false m e, 0) ∧ ratOf false m e = (2 : ℚ) ^ (if n then -(k : Int) else k)) ∧
    (∀ (k : Int), ∃ n m e, xLog2 (.num false 1 k) = (.num n m e, 0) ∧ ratOf n m e = k)) ∧
  (
    ∀ (rmi n1 n2 n3 : Bool) (m1 m2 m3 : Nat) (e1 e2 e3 : Int),
      let a := ratOf n1 m1 e1
      let b := ratOf n2 m2 e2
      let c := ratOf n3 m3 e3
      (∃ n m e, xAdd rmi (.num n1 m1 e1) (.num n2 m2 e2) = (.num n m e, 0) ∧ ratOf n m e = a + b) ∧
      (∃ n m e, xMul (.num n1 m1 e1) (.num n2 m2 e2) = (.num n m e, 0) ∧ ratOf n m e = a * b ∧ n = xor n1 n2) ∧
      (∃ n m e, xFma rmi (.num n1 m1 e1) (.num n2 m2 e2) (.num n3 m3 e3) = (.num n m e, 0) ∧ ratOf n m e = a * b + c) ∧
      (xEq (.num n1 m1 e1) (.num n2 m2 e2) = true ↔ a = b) ∧
      (a < b → xLess (.num n1 m1 e1) (.num n2 m2 e2) = true) ∧ (xLess (.num n1 m1 e1) (.num n2 m2 e2) = true → a ≤ b) ∧
      (a = b → xLess (.num n1 m1 e1) (.num n2 m2 e2) = (n1 && !n2))) ∧
  (
    ∀ (f : FType) (n1 n2 : Bool) (m1 m2 : Nat) (e1 e2 : Int), tyF3.contains f → m2 ≠ 0 →
      (∃ c b, c < 2 ^ fmtBits f ∧ finite f .ieee c = some b ∧ |ratOf n1 m1 e1 / ratOf n2 m2 e2| ≤ |b|) →
      ∃ w, finite f .ieee (roundF f .ieee .rne false 0 (xDiv (.num n1 m1 e1) (.num n2 m2 e2)).1).1 = some w ∧
        ∀ c u, c < 2 ^ fmtBits f → finite f .ieee c = some u →
          |w - ratOf n1 m1 e1 / ratOf n2 m2 e2| ≤ |u - ratOf n1 m1 e1 / ratOf n2 m2 e2|)

/-! ### Issue, traps and pending results (R51, R82 to R86, R99 to R102) -/

namespace Sys2Proof.Claims

/-- Opcodes marked M (R205). -/
def maintOnly : Instr → Bool
  | .cpya _ _ _ _ => true
  | _ => false

end Sys2Proof.Claims

/-- R51, R78, R83, R85, R304: what comes before an instruction's own effect, in order; a tiller that may not issue is left as it is. -/
def Obligations.ChecksBeforeTheEffect : Prop :=
  ∀ (i : Instr) (s : State) (x : Ex), i.raw.isSome → s.load = some x →
    (x.able = false → exec i s = .next s) ∧
    (∀ id, x.able → x.shut = some id → exec i s = .next (x.stall id (twoWords i))) ∧
    (x.able → x.shut = none → (usesOf i x.g).all.any (marked x.g x.c.t) → exec i s = .next { x with t := { x.t with st := .waiting } }.close) ∧
    (x.able → x.shut = none → (usesOf i x.g).all.any (marked x.g x.c.t) = false →
      ((maintOnly i ∧ x.b.maint = false) ∨ (x.g.inRecipe ∧ ¬recipeOk (opcode i))) → Traps i s x 2 0) ∧
    (∀ n, x.able → x.shut = none → (usesOf i x.g).all.any (marked x.g x.c.t) = false → (maintOnly i → x.b.maint) →
      (x.g.inRecipe → recipeOk (opcode i)) → rangeFault x.g (usesOf i x.g) = some n → Traps i s x 3 n)

namespace Sys2Proof.Claims

/-- A block that has failed: of its groups the memory instructions with a known fault have ended, and of its shaping operations those with one. -/
def failed (b : Block) (f : Fail) : Block :=
  { b with
    fail := some f
    groups := b.groups.map fun g => { g with pend := g.pend.filter fun e => match e.2.kind with
      | .mem m => m.faults.isEmpty
      | _ => true }
    sops := b.sops.filter fun o => o.2.fault = none }

end Sys2Proof.Claims

/-- R99 to R101, R118: taking a trap with a handler and without one, and a block that ends as failed.
R99, R100: taking a trap with a handler. The other live tillers are Held, the top four scalars are saved and receive the record, the tiller goes on
at TRAPH with its mask, format and mode, and every other register, group, block and byte of memory is kept.
R101, R118: without a handler, or within one, a trap ends its block as failed with the trap's code and information; a program fault ends it with
the fault's own record. Memory instructions of the block that are parked end, and so do shaping operations that wait for their fault (R127). No
other block changes, nor memory where the VD has no fault ring to hold the record. -/
def Obligations.TrapsAndFailures : Prop :=
  (
    ∀ (s : State) (x : Ex) (code info words : Nat), s.load = some x → x.b.traph ≠ 0 → x.g.trap = none → (trapRegs x.g).any (marked x.g x.c.t) = false →
      4 ≤ x.g.sregs → cwf 0 x.g.s →
      ∃ g n, n = x.g.sregs - 4 ∧ GroupBecomes s (x.trapped code info words) x.c.b x.c.g g ∧
        g = { x.g with tillers := g.tillers, s := g.s, flash := { x.g.flash with valid := false },
                       trap := some { saved := [x.g.sget n, x.g.sget (n + 1), x.g.sget (n + 2), x.g.sget (n + 3)], slot := x.c.t, mask := x.t.mask, rcds := x.g.rcds.map Prod.fst } } ∧
        g.sget n = BitVec.ofNat 64 x.t.pc ∧
        g.sget (n + 1) = BitVec.ofNat 64 (x.t.mask * 2 ^ 32 + x.c.t * 2 ^ 16 + x.g.rcds.length * 2 ^ 8 + code) ∧
        g.sget (n + 2) = BitVec.ofNat 64 info ∧ g.sget (n + 3) = BitVec.ofNat 64 words ∧
        (∀ r, r < n ∨ n + 4 ≤ r → g.sget r = x.g.sget r) ∧
        g.tillers[x.c.t]? = some { x.t with pc := x.b.traph, st := .ready } ∧
        ∀ j u, j ≠ x.c.t → x.g.tillers[j]? = some u → g.tillers[j]? = some (if u.st.live then { u with st := .held u.st } else u)) ∧
  (
    (∀ (s : State) (x : Ex) (code info words : Nat), s.load = some x → x.b.fail = none → (x.b.traph = 0 ∨ x.g.trap.isSome) →
      ∃ t, x.trapped code info words = t ∧ ((s.ringOf x.b.pid x.b.vd).1 = 0 → t.mem = s.mem) ∧ (∀ k, k ≠ x.c.b → tget t.blocks k = tget s.blocks k) ∧
        tget t.blocks x.c.b = some (failed x.b { kind := 5, detail := code, pc := x.t.pc, lane := lowLane x.t.mask, info := info })) ∧
    (∀ (s : State) (x : Ex) (f : Fail), s.load = some x → x.b.fail = none →
      ∃ t, x.close.failBlock x.c.b f = t ∧ ((s.ringOf x.b.pid x.b.vd).1 = 0 → t.mem = s.mem) ∧ (∀ k, k ≠ x.c.b → tget t.blocks k = tget s.blocks k) ∧
        tget t.blocks x.c.b = some (failed x.b f)))

/-- R102: `rett` in a handler restores the four scalars, frees the Held tillers and goes to the address in scalar n - 4; R99, R101: where it traps. -/
def Obligations.ReturningFromATrap : Prop :=
  ∀ (look : Fin 16) (s : State) (x : Ex), Issues (.rett look) s x →
    (x.g.trap = none → Traps (.rett look) s x 1 0) ∧
    ∀ tr n, x.g.trap = some tr → n = x.g.sregs - 4 →
      ((∃ r, x.t.rcd = some r ∧ r ∉ tr.rcds) → Traps (.rett look) s x 6 (x.t.pc % 2 ^ 64)) ∧
      ((∀ r, x.t.rcd = some r → r ∈ tr.rcds) → x.s.startOk x.b (x.g.sget n).toNat = false → Traps (.rett look) s x 4 (x.g.sget n).toNat) ∧
      ((∀ r, x.t.rcd = some r → r ∈ tr.rcds) → x.s.startOk x.b (x.g.sget n).toNat → Ends (.rett look) s { x with
        g := { x.g with
          trap := none
          s := ((((x.g.sset n (tr.saved.getD 0 0)).sset (n + 1) (tr.saved.getD 1 0)).sset (n + 2) (tr.saved.getD 2 0)).sset (n + 3) (tr.saved.getD 3 0)).s
          tillers := x.g.tillers.map fun u => match u.st with
            | .held st => { u with st := st }
            | _ => u }
        t := { nextT (.rett look) x with pc := (x.g.sget n).toNat } })

namespace Sys2Proof.Claims

/-- The tiller of a group after a pending instruction has completed (R83, R86). -/
def windowClosed (id : Nat) (t : Tiller) : Tiller :=
  { t with
    wins := t.wins.filter fun w => w.id ≠ id
    st := if t.st = .longWait (.on id) ∨ t.st = .waiting then .ready
      else if t.st = .held (.longWait (.on id)) ∨ t.st = .held .waiting then .held .ready else t.st }

end Sys2Proof.Claims

/-- R82, R83, R85: when the latency of a result has passed, its writes are performed, its flags join the group's, its marks and windows go. -/
def Obligations.PendingResults : Prop :=
  (∀ s b g id gr p, GroupAt s b g gr → tget gr.pend id = some p → p.kind = .alu →
    ∃ t gr', exec (.pendingWritePerformed b g id) s = .next t ∧ GroupBecomes s t b g gr' ∧
      gr' = { gr with
        v := (p.wr.foldl Group.put gr).v, s := (p.wr.foldl Group.put gr).s, p := (p.wr.foldl Group.put gr).p
        flags := gr.flags ||| p.fl, pend := tdel gr.pend id, tillers := gr.tillers.map (windowClosed id) }) ∧
  (∀ s b g id gr p til, GroupAt s b g gr → tget gr.pend id = some p → p.kind = .cond (.snooze til) → p.wr = [] →
    (til ≤ s.now → ∃ t, exec (.snoozeExpiry b g id) s = .next t ∧ GroupBecomes s t b g { gr with
      flags := gr.flags ||| p.fl, pend := tdel gr.pend id, tillers := gr.tillers.map (windowClosed id) }) ∧
    (s.now < til → exec (.snoozeExpiry b g id) s = .next s)) ∧
  (∀ (g : Group) r l v, cwf 0 g.v → l < 32 → (g.put (.v r l v)).vget r l = v ∧
    ∀ r' l', l' < 32 → (r', l') ≠ (r, l) → (g.put (.v r l v)).vget r' l' = g.vget r' l') ∧
  (∀ (g : Group) r v, cwf 0 g.s → (g.put (.s r v)).sget r = v ∧ ∀ r', r' ≠ r → (g.put (.s r v)).sget r' = g.sget r') ∧
  (∀ (g : Group) r l v, cwf 0 g.p → l < 32 → ((g.put (.p r l v)).pget r).getLsbD l = v ∧
    (∀ l', l' ≠ l → ((g.put (.p r l v)).pget r).getLsbD l' = (g.pget r).getLsbD l') ∧ ∀ r', r' ≠ r → (g.put (.p r l v)).pget r' = g.pget r')

/-! ### The sequencer (R42, R67, R68, R87 to R111) -/

namespace Sys2Proof.Claims

/-- A scalar of the group, when one is named. -/
def savedTo (x : Ex) (sv : Option SReg) (v : Word) : Group := match sv with
  | some d => x.g.sset d.val (v.setWidth 64)
  | none => x.g

/-- A value of `%fmt` written: an invalid one leaves the old (R63). -/
def fmtWritten (old : Word) (v : BitVec 6) : Word :=
  if 3 ≤ v.toNat % 16 ∧ v.toNat % 16 ≤ 6 ∧ v.toNat / 16 ≠ 3 then v.setWidth 32 else old

/-- A value of `%mode` written: an invalid DRND leaves the old, reserved bits stay 0 (R64). -/
def modeWritten (old new : Word) : Word :=
  if new.extractLsb' 0 3 = 0 ∨ new.extractLsb' 0 3 = 7 then old else new &&& 0xFFFF003F

/-- A field operation of `setmode` on a bit. -/
def fieldBit (o : FieldOp) (b : Bool) : BitVec 1 := match o with
  | .keep => BitVec.ofBool b
  | .clear => 0
  | .set => 1

/-- `%mode` with the operations of `setmode` applied together (R68). -/
def modeEdited (m : Word) (o : ModeOps) (step : BitVec 16) : Word :=
  step ++ (0 : BitVec 10) ++ fieldBit o.satd (m.getLsbD 5) ++ fieldBit o.ftz (m.getLsbD 4) ++ fieldBit o.daz (m.getLsbD 3) ++
    (if o.drnd = .dflt then m.extractLsb' 0 3 else BitVec.ofNat 3 o.drnd.code)

/-- A uniform instruction that ends with `y`, and does nothing when its guard is false. -/
def UniformRow (i : Instr) (h : Hd) (y : Ex → Ex) : Prop :=
  ∀ s x, Issues i s x → (x.guard h = 0 → Passes i s x x.t.mode) ∧ (x.guard h ≠ 0 → Ends i s (y x))

/-- A tiller that yields: its `skip` is 0, its group comes last in the rotation and may change places (R111). -/
def yielded (i : Instr) (x : Ex) : Ex :=
  let q := (tget x.s.quarters (quarterKey x.b x.g)).getD {}
  let pos := (findIdx (fun e => e == some (x.c.b, x.c.g)) q.act).getD q.lastPos
  { x with s := { x.s with quarters := tput x.s.quarters (quarterKey x.b x.g) { q with lastPos := pos, giveUp := some pos } }, t := { nextT i x with skip := 0 } }

/-- The 16-bit number at a byte of a record. -/
def half16 (rcd : List Byte) (i : Nat) : Nat := (rcd.getD i 0).toNat + 256 * (rcd.getD (i + 1) 0).toNat

/-- The tiller after a recorded read outside record and replay mode: its group has counted the read (R407). -/
def readCounted (x : Ex) : Ex := { x with g := { x.g with recCnt := x.g.recCnt + 1 } }

/-- The trace entry of the block's VD is on the slice and neither records nor replays. -/
def notRecording (x : Ex) : Prop := ∃ e, tget (x.s.slice x.b.slice).trc x.b.vd = some e ∧ e.recm = false ∧ e.rpl = false

end Sys2Proof.Claims

/-- R28, R42, R43, R67, R68, R110, R111, R181, R301, R303: the state of a tiller that the sequencer instructions set, the special registers that are read, and the registers whose write voids a flashback point.
R28, R42, R67, R68, R110, R111, R181: filler, format and mode, writes of special registers and of the flags, `yield` and `snooze`.
R301, R303: the live set of a flashback record, and what a list of written registers makes of a group's point.
R43, R110, R181: reads of the special registers, and of the flags with those read cleared; of those that record mode covers, outside it. -/
def Obligations.SpecialRegisters : Prop :=
  (
    (∀ s x, s.load = some x → x.able → Ends .pad s { x with t := { x.t with pc := (x.t.pc + 4) % 2 ^ 64 } }) ∧
    (∀ h s x, Issues (.nop h) s x → Passes (.nop h) s x x.t.mode) ∧
    (∀ h sv f r, UniformRow (.setfmt h sv (.named f r)) h fun x => { x with
      g := savedTo x sv x.t.fmt, t := { nextT (.setfmt h sv (.named f r)) x with fmt := fmtWritten x.t.fmt (BitVec.ofNat 6 (r.code * 16 + f.code)) } }) ∧
    (∀ h sv a, UniformRow (.setfmt h sv (.reg a)) h fun x => { x with
      g := savedTo x sv x.t.fmt, t := { nextT (.setfmt h sv (.reg a)) x with fmt := fmtWritten x.t.fmt ((x.g.sget a.val).setWidth 6) } }) ∧
    (∀ h sv v, UniformRow (.setfmtImm h sv v) h fun x => { x with
      g := savedTo x sv x.t.fmt, t := { nextT (.setfmtImm h sv v) x with fmt := fmtWritten x.t.fmt v } }) ∧
    (∀ h sv o, UniformRow (.setmode h sv (.ops o)) h fun x => { x with
      g := savedTo x sv x.t.mode
      t := { nextT (.setmode h sv (.ops o)) x with mode := modeWritten x.t.mode (modeEdited x.t.mode o (x.t.mode.extractLsb' 16 16)) } }) ∧
    (∀ h sv a, UniformRow (.setmode h sv (.reg a)) h fun x => { x with
      g := savedTo x sv x.t.mode, t := { nextT (.setmode h sv (.reg a)) x with mode := modeWritten x.t.mode ((x.g.sget a.val).setWidth 32) } }) ∧
    (∀ h sv o n, UniformRow (.setmodeStep h sv o n) h fun x => { x with
      g := savedTo x sv x.t.mode, t := { nextT (.setmodeStep h sv o n) x with mode := modeWritten x.t.mode (modeEdited x.t.mode o n) } }) ∧
    (∀ h a, UniformRow (.swr h .fmt a) h fun x => { x with
      t := { nextT (.swr h .fmt a) x with fmt := fmtWritten x.t.fmt ((x.g.sget a.val).setWidth 6) } }) ∧
    (∀ h a, UniformRow (.swr h .mode a) h fun x => { x with
      t := { nextT (.swr h .mode a) x with mode := modeWritten x.t.mode ((x.g.sget a.val).setWidth 32) } }) ∧
    (∀ h a, UniformRow (.swr h .flags a) h fun x => { x with
      g := { x.g with flags := (x.g.sget a.val).toNat % 16 }, t := nextT (.swr h .flags a) x }) ∧
    (∀ h op b, UniformRow (.flgwr h op b) h fun x =>
      let v := (match b with
        | .reg r => (x.g.sget r.val).toNat
        | .imm v => immBits .b32 v) % 16
      { x with
        g := { x.g with flags := match op with
          | .or => x.g.flags ||| v | .andn => x.g.flags - (x.g.flags &&& v) | .mov => v }
        t := nextT (.flgwr h op b) x }) ∧
    (∀ h, UniformRow (.yield h) h fun x => yielded (.yield h) x) ∧
    (∀ h a s x, Issues (.snooze h a) s x →
      (x.guard h = 0 → Passes (.snooze h a) s x x.t.mode) ∧
      (x.guard h ≠ 0 → x.g.sget a.val = 0 → Ends (.snooze h a) s (yielded (.snooze h a) x)) ∧
      (x.guard h ≠ 0 → x.g.sget a.val ≠ 0 → Waits (.snooze h a) s x (.snooze (x.s.now + min (x.g.sget a.val).toNat 10000000)))) ∧
    (∀ h n s x, Issues (.snoozeImm h n) s x →
      (x.guard h = 0 → Passes (.snoozeImm h n) s x x.t.mode) ∧
      (x.guard h ≠ 0 → n = 0 → Ends (.snoozeImm h n) s (yielded (.snoozeImm h n) x)) ∧
      (x.guard h ≠ 0 → n ≠ 0 → Waits (.snoozeImm h n) s x (.snooze (x.s.now + n.toNat))))) ∧
  (
    (∀ (rcd : List Byte) n, rcd.length = 128 → (liveReg rcd (.v n) = true ↔ ∃ i < (rcd.getD 8 0).toNat, half16 rcd (64 + 2 * i) = n)) ∧
    (∀ (rcd : List Byte) n, rcd.length = 128 → n < 128 → liveReg rcd (.s n) = (rcd.getD (16 + n / 8) 0).getLsbD (n % 8)) ∧
    (∀ (rcd : List Byte) n, rcd.length = 128 → n < 16 → liveReg rcd (.p n) = (rcd.getD (32 + n / 8) 0).getLsbD (n % 8)) ∧
    (∀ (f : Flash) l, f.wrote l = { f with valid := f.valid && !l.any (liveReg f.rcd) })) ∧
  (
    (∀ h d r s x, Issues (.srd h d r) s x → x.guard h = 0 → Passes (.srd h d r) s x x.t.mode) ∧
    (∀ h d r s x v, Issues (.srd h d r) s x → x.guard h ≠ 0 →
      (r, v) ∈ [(SpReg.group, x.c.g), (.block, x.b.idx), (.launch, x.b.launch), (.slice, x.b.slice), (.vd, x.b.vd), (.sheaf, x.g.sheafNum),
        (.fmt, x.t.fmt.toNat), (.mode, x.t.mode.toNat), (.flags, x.g.flags)] →
      Posts (.srd h d r) s x [.s d.val (BitVec.ofNat 64 v)] 0) ∧
    (∀ h d r s x v, Issues (.srd h d r) s x → x.guard h ≠ 0 → notRecording x →
      (r, v) ∈ [(SpReg.time, x.s.now % 2 ^ 64), (.tile, x.b.core / 2), (.core, x.b.core)] →
      Posts (.srd h d r) s (readCounted x) [.s d.val (BitVec.ofNat 64 v)] 0) ∧
    (∀ h c d s x, Issues (.flgrd h c d) s x → x.guard h = 0 → Passes (.flgrd h c d) s x x.t.mode) ∧
    (∀ h d s x, Issues (.flgrd h false d) s x → x.guard h ≠ 0 → notRecording x →
      Posts (.flgrd h false d) s (readCounted x) [.s d.val (BitVec.ofNat 64 x.g.flags)] 0) ∧
    (∀ h d s x, Issues (.flgrd h true d) s x → x.guard h ≠ 0 → notRecording x →
      Posts (.flgrd h true d) s { readCounted x with g := { (readCounted x).g with flags := 0 } } [.s d.val (BitVec.ofNat 64 x.g.flags)] 0))

namespace Sys2Proof.Claims

/-- Word offsets at which decoding a fetch block from its first word arrives (R41): each instruction has LEN + 1 words. -/
inductive Start (w : List Nat) : Nat → Prop
  | first : w ≠ [] → Start w 0
  | next (k n : Nat) : Start w k → w[k]? = some n → k + n % 4 + 1 < w.length → Start w (k + n % 4 + 1)

end Sys2Proof.Claims

/-- R41: a target in a cached fetch block is an instruction start when it is a multiple of 4 and decoding the block arrives there. -/
def Obligations.InstructionStarts : Prop :=
  ∀ (s : State) (b : Block) (tgt : Nat) (e : IBlk), s.icFind b.slice b.core b.vd tgt = some e → e.words.length = 8 →
    (s.startOk b tgt = true ↔ tgt % 4 = 0 ∧ Start e.words (tgt % 32 / 4))

namespace Sys2Proof.Claims

/-- The group with the link register written, when there is one. -/
def linked (i : Instr) (x : Ex) (link : Option SReg) (g : Group) : Group := match link with
  | some d => g.sset d.val (BitVec.ofNat 64 (nextT i x).pc)
  | none => g

/-- The record of a split (R87): the tiller's own when it was opened at this address, else a new one. -/
def splitRcd (x : Ex) (r : Nat) (rc : Rcd) (fresh : Bool) : Prop :=
  if fresh then
    r = x.g.nextRcd ∧ rc = { addr := x.t.pc % 2 ^ 64, mask := x.t.mask, fmt := x.t.fmt, mode := x.t.mode, parent := x.t.rcd } ∧ x.g.rcds.length < 16 ∧
    ∀ q c, x.t.rcd = some q → tget x.g.rcds q = some c → c.addr ≠ x.t.pc % 2 ^ 64
  else x.t.rcd = some r ∧ tget x.g.rcds r = some rc ∧ rc.addr = x.t.pc % 2 ^ 64

/-- The lowest free slot of a group, if any; the executing tiller's own is not free. -/
def freeSlot (g : Group) (u : Option Nat) : Prop := (g.slotsOf fun t => t.st == .free).head? = u

/-- R41, R87, R91, R104: a transfer of control. No lane takes it, the tiller moves as a whole, the target is refused, or the tiller splits: the lanes
that transfer go to the lowest free slot or to the record's deferred path, and a split that has no room is a trap. A transfer that is taken leaves
the group `after`. -/
def TransferRow (i : Instr) (h : Hd) (m : BMode) (link : Option SReg) (tgt : Ex → Nat) (ok : Ex → Prop) (after : Ex → Group := fun x => x.g) : Prop :=
  ∀ s x, Issues i s x → ok x →
    let g := x.guard h
    let took := match m with | .all => g = x.t.mask | _ => g ≠ 0
    let moved (r : Nat) : Tiller := { mask := g, pc := tgt x, fmt := x.t.fmt, mode := x.t.mode, wins := (nextT i x).wins, st := .ready, rcd := some r }
    let rest (r : Nat) : Tiller := { nextT i x with mask := x.t.mask - g, rcd := some r }
    let put (fresh : Bool) (r : Nat) (rc : Rcd) : Group :=
      { linked i x link (after x) with rcds := tput x.g.rcds r rc, nextRcd := if fresh then r + 1 else x.g.nextRcd }
    (¬took → Passes i s x x.t.mode) ∧
    (took → x.s.startOk x.b (tgt x) = false → Traps i s x 4 (tgt x)) ∧
    (took → (m ≠ .div ∨ g = x.t.mask) → x.s.startOk x.b (tgt x) → Ends i s { x with g := linked i x link (after x), t := { nextT i x with pc := tgt x } }) ∧
    (m = .div → g ≠ 0 → g ≠ x.t.mask → x.s.startOk x.b (tgt x) → ∀ r rc fresh, splitRcd x r rc fresh →
      (∀ u, freeSlot x.g (some u) → Ends i s { x with
        g := { (if fresh then put true r rc else linked i x link (after x)) with tillers := listSet x.g.tillers u (moved r) }
        t := rest r }) ∧
      (freeSlot x.g none → rc.dfr = none → Ends i s { x with g := put fresh r { rc with dfr := some (g, tgt x) }, t := rest r }) ∧
      (∀ d, freeSlot x.g none → rc.dfr = some (d, tgt x) → Ends i s { x with g := put fresh r { rc with dfr := some (d ||| g, tgt x) }, t := rest r }) ∧
      (∀ d p, freeSlot x.g none → rc.dfr = some (d, p) → p ≠ tgt x → Traps i s x 7 (tgt x))) ∧
    (m = .div → g ≠ 0 → g ≠ x.t.mask → x.s.startOk x.b (tgt x) → 16 ≤ x.g.rcds.length →
      (∀ q c, x.t.rcd = some q → tget x.g.rcds q = some c → c.addr ≠ x.t.pc % 2 ^ 64) → Traps i s x 7 (tgt x))

/-- The target of a word offset from the instruction (R40). -/
def relTarget (off : BitVec 22) (x : Ex) : Nat := ((((x.t.pc % 2 ^ 64 : Nat) : Int) + 4 * off.toInt) % 2 ^ 64).toNat

end Sys2Proof.Claims

/-- R104: the branch family; the first `ret` of a recipe that is taken ends it at FBPC + 12 (R304). -/
def Obligations.Transfers : Prop :=
  (∀ h m off, TransferRow (.bra h m off) h m none (relTarget off) fun _ => True) ∧
  (∀ h m a, TransferRow (.brx h m a) h m none (fun x => (x.g.sget a.val).toNat) fun _ => True) ∧
  (∀ h m d off, TransferRow (.call h m d off) h m (some d) (relTarget off) fun _ => True) ∧
  (∀ h m d a, TransferRow (.callx h m d a) h m (some d) (fun x => (x.g.sget a.val).toNat) fun _ => True) ∧
  (∀ h m a, TransferRow (.ret h m a) h m none (fun x => (x.g.sget a.val).toNat) fun x => x.g.inRecipe = false) ∧
  (∀ h m a, TransferRow (.ret h m a) h m none (fun x => (x.g.flash.pc + 12) % 2 ^ 64) (fun x => x.g.inRecipe = true)
    fun x => { x.g with flash := { x.g.flash with recipe := false } })

/-! ### Joins, wide regions, exit, traps and barriers (R88 to R98, R105 to R108) -/

namespace Sys2Proof.Claims

/-- The executing group with its tiller parked at a `join` or a `wide`, where it stands. -/
def parkedAt (x : Ex) (i : Instr) (st : TState) : Group :=
  { x.g with parks := x.g.parks + 1
             tillers := listSet x.g.tillers x.c.t { nextT i x with st := st, parkAt := x.t.pc % 2 ^ 64, parkNo := x.g.parks + 1 } }

/-- The tillers of a record, by slot. -/
def ofRcd (g : Group) (r k : Nat) (t : Tiller) : Prop := g.tillers[k]? = some t ∧ t.rcd = some r ∧ t.st ≠ .free

/-- A record stays open: a tiller of its own moves, or a record was opened below it. -/
def staysOpen (g : Group) (r : Nat) : Prop :=
  (∃ k t, ofRcd g r k t ∧ t.st ≠ .atJoin ∧ t.st ≠ .ended) ∨ ∃ q c, tget g.rcds q = some c ∧ c.parent = some r

/-- A live tiller besides that of a slot is not parked. -/
def otherRuns (g : Group) (k : Nat) : Prop := ∃ (j : Nat) (t : Tiller), j ≠ k ∧ g.tillers[j]? = some t ∧ t.st.live = true ∧ t.st.parked = false

/-- Nothing more happens to the group: every record stays open, and some live tiller is not parked. -/
def moves (g : Group) : Prop :=
  (∀ e ∈ g.rcds, staysOpen g e.1) ∧ ∃ (k : Nat) (t : Tiller), g.tillers[k]? = some t ∧ t.st.live = true ∧ t.st.parked = false

/-- The tiller `x` with its group become `g`, the executing tiller being that of its slot. -/
def become (x : Ex) (g : Group) : Ex := { x with g := g, t := g.til x.c.t }

end Sys2Proof.Claims

/-- R88, R89, R94, R95, R105: joins, wide regions, split records that close and deferred paths that start.
R88, R94, R95, R105: `join` outside a record passes, else the tiller parks, or merges into the lower slot with a tiller of its record that waits
there (the model's choice, log entry 74: it keeps the `skip` of that slot); `wide` parks, and enters the region when every live tiller is At-wide
there; `endwide` restores the saved tillers (log entry 77: with the wide tiller's windows that are open); where each traps.
R94: what entering a wide region makes of a group whose live tillers all wait at one `wide`: the lowest of their slots goes on, and the split
table in the region starts empty (the model's choices, log entries 75 and 76).
R88, R89: a record whose tillers all wait at one `join` or have ended closes, or starts its deferred path; one that waits at two is a mismatch.
The model's choices: which windows the started path holds (log entry 72), the slot of a record that has none (73) and the `skip` count kept (74). -/
def Obligations.RecordsAndWideRegions : Prop :=
  (
    (∀ look s x, Issues (.join look) s x → x.t.rcd = none → ∃ t, exec (.join look) s = .next t ∧ Holds t { x with t := nextT (.join look) x }) ∧
    (∀ look s x r, Issues (.join look) s x → x.t.rcd = some r →
      let g := parkedAt x (.join look) .atJoin
      (∀ k t, k ≠ x.c.t → ofRcd x.g r k t → t.st = .atJoin → t.parkAt ≠ x.t.pc % 2 ^ 64) → moves g →
      ∃ t, exec (.join look) s = .next t ∧ Holds t (become x g)) ∧
    (∀ look s x r k u, Issues (.join look) s x → x.t.rcd = some r → k ≠ x.c.t → ofRcd x.g r k u → u.st = .atJoin → u.parkAt = x.t.pc % 2 ^ 64 →
      (∀ j t, j ≠ x.c.t → j ≠ k → ofRcd x.g r j t → t.st = .atJoin → t.parkAt ≠ x.t.pc % 2 ^ 64) →
      let lo := min k x.c.t
      let g : Group := { x.g with
        parks := x.g.parks + 1
        tillers := listSet (listSet x.g.tillers (max k x.c.t) {}) lo
          { u with mask := x.t.mask ||| u.mask, wins := mergeWins u.wins (nextT (.join look) x).wins, parkNo := x.g.parks + 1, skip := (x.g.til lo).skip } }
      moves g → ∃ t, exec (.join look) s = .next t ∧ Holds t (become x g)) ∧
    (∀ look s x, Issues (.wide look) s x → x.g.wide.isSome → Traps (.wide look) s x 5 (x.t.pc % 2 ^ 64)) ∧
    (∀ look s x, Issues (.wide look) s x → x.g.wide = none → otherRuns x.g x.c.t →
      ∃ t, exec (.wide look) s = .next t ∧ Holds t (become x (parkedAt x (.wide look) .atWide))) ∧
    (∀ look s x, Issues (.wide look) s x → x.g.wide = none →
      (∀ (k : Nat) (t : Tiller), k ≠ x.c.t → x.g.tillers[k]? = some t → t.st.live → t.st = .atWide ∧ t.parkAt = x.t.pc % 2 ^ 64) →
      ∃ g t, (parkedAt x (.wide look) .atWide).enterWide = some g ∧ exec (.wide look) s = .next t ∧ Holds t (become x g)) ∧
    (∀ look s x, Issues (.endwide look) s x → (x.g.wide = none ∨ x.t.rcd.isSome) → Traps (.endwide look) s x 5 (x.t.pc % 2 ^ 64)) ∧
    (∀ look s x w, Issues (.endwide look) s x → x.g.wide = some w → x.t.rcd = none → w.tillers.length = x.g.tillers.length →
      ∃ t, exec (.endwide look) s = .next t ∧ Holds t (become x { x.g with
        wide := none
        rcds := w.rcds
        tillers := w.tillers.map fun t => if t.st = .atWide then { t with
          st := .ready
          pc := (nextT (.endwide look) x).pc
          wins := mergeWins (t.wins.filter fun v => x.g.pend.any fun p => p.1 == v.id)
            ((nextT (.endwide look) x).wins.filter fun v => x.g.pend.any fun p => p.1 == v.id) } else t }))) ∧
  (
    ∀ (g : Group) (k a low : Nat) (u : Tiller), g.wide = none →
      (∀ (j : Nat) (t : Tiller), g.tillers[j]? = some t → t.st.live → t.st = .atWide ∧ t.parkAt = a ∧ k ≤ j) → (∃ t : Tiller, g.tillers[k]? = some t ∧ t.st.live) →
      g.tillers[low]? = some u → u.st = .atWide → (∃ i < 32, u.mask.testBit i ∧ ∀ (j : Nat) (t : Tiller) (l : Nat), g.tillers[j]? = some t → t.st.live → t.mask.testBit l → i ≤ l ∧ (l = i → j = low)) →
      ∃ g', g.enterWide = some g' ∧ g'.rcds = [] ∧ g'.wide = some { pc := a, tillers := g.tillers, rcds := g.rcds, slot := k } ∧
        (g'.s, g'.v, g'.p, g'.flags, g'.exited) = (g.s, g.v, g.p, g.flags, g.exited) ∧
        (∀ j, j ≠ k → j < g.tillers.length → g'.tillers[j]? = some {}) ∧
        ∃ wins, g'.tillers[k]? = some { mask := 2 ^ 32 - 1, pc := a + 8, fmt := u.fmt, mode := u.mode, wins := wins, st := .ready }) ∧
  (
    (∀ (g : Group) (r k a : Nat) (x : Rcd) (t : Tiller), (∀ j u, ofRcd g r j u → (u.st = .atJoin ∧ u.parkAt = a ∧ k ≤ j) ∨ u.st = .ended ∧ k ≤ j) → ofRcd g r k t →
      (∃ j u, ofRcd g r j u ∧ u.st = .atJoin) → x.lanes = 0 → (∀ e ∈ g.rcds, e.2.parent ≠ some r) → x.mask &&& g.exited ≠ x.mask →
      (x.dfr ≠ none → g.fate r x = .start) ∧
      (x.dfr = none → g.fate r x = .close ∧
        (g.close r x).rcds = tdel g.rcds r ∧
        (∀ j u, j ≠ k → ofRcd g r j u → (g.close r x).tillers[j]? = some {}) ∧
        (∀ (j : Nat) (u : Tiller), g.tillers[j]? = some u → u.rcd ≠ some r → (g.close r x).tillers[j]? = some u) ∧
        ∃ wins, (g.close r x).tillers[k]? = some { mask := x.mask - (x.mask &&& g.exited), pc := a + 8, fmt := x.fmt, mode := x.mode, wins := wins,
                                                   skip := t.skip, st := .ready, rcd := x.parent })) ∧
    (∀ (g : Group) (r j k : Nat) (x : Rcd) (t u : Tiller), (∀ i v, ofRcd g r i v → v.st = .atJoin ∨ v.st = .ended) → (∀ e ∈ g.rcds, e.2.parent ≠ some r) →
      ofRcd g r j t → ofRcd g r k u → t.st = .atJoin → u.st = .atJoin → t.parkAt ≠ u.parkAt → g.fate r x = .mismatch) ∧
    (∀ (g : Group) (r k m pc : Nat) (x : Rcd), x.dfr = some (m, pc) →
      (∃ t : Tiller, g.tillers[k]? = some t ∧ (t.st = .free ∨ (t.st = .ended ∧ t.rcd = some r)) ∧
        ∀ (j : Nat) (u : Tiller), j < k → g.tillers[j]? = some u → u.st ≠ .free ∧ (u.st = .ended → u.rcd ≠ some r)) →
      g.startDeferred r x = { g with
        rcds := tput g.rcds r { x with dfr := none }
        tillers := listSet g.tillers k { mask := m, pc := pc, fmt := x.fmt, mode := x.mode, st := .ready, rcd := some r } }) ∧
    (∀ (g : Group) (r k m pc : Nat) (x : Rcd) (u : Tiller), x.dfr = some (m, pc) →
      (∀ (j : Nat) (t : Tiller), g.tillers[j]? = some t → t.st ≠ .free ∧ (t.st = .ended → t.rcd ≠ some r)) →
      ofRcd g r k u → u.st = .atJoin → (∀ j t, ofRcd g r j t → t.st = .atJoin → k ≤ j) →
      g.startDeferred r x = { g with
        rcds := tput g.rcds r { x with dfr := none, lanes := x.lanes ||| u.mask, joinPc := u.parkAt }
        tillers := listSet g.tillers k { mask := m, pc := pc, fmt := x.fmt, mode := x.mode, wins := u.wins, st := .ready, rcd := some r } }) ∧
    (∀ (g : Group) (r k : Nat) (x : Rcd) (t : Tiller), (∀ j u, ¬ofRcd g r j u) → x.lanes ≠ 0 → x.dfr = none → (∀ e ∈ g.rcds, e.2.parent ≠ some r) →
      x.mask &&& g.exited ≠ x.mask → g.tillers[k]? = some t → t.st = .free → (∀ (j : Nat) (u : Tiller), j < k → g.tillers[j]? = some u → u.st ≠ .free) →
      g.fate r x = .close ∧ (g.close r x).rcds = tdel g.rcds r ∧
      (g.close r x).tillers[k]? = some { mask := x.mask - (x.mask &&& g.exited), pc := x.joinPc + 8, fmt := x.fmt, mode := x.mode, skip := t.skip,
                                         st := .ready, rcd := x.parent }))

/-- R90, R95, R96, R101, R106: lanes that exit, traps and breakpoints that an instruction asks for.
R90, R95, R101, R186: `exit` ends lanes: it waits for the tiller's windows, is refused in a wide region, leaves the tiller its other lanes, and with
the last lane of a group's only tiller the group ends and the copies of its open sheaf are sealed; in a handler it waits for pending writes of the
scalars that the handler's end restores, and with the handler's last lane restores them.
R101, R106: `trap` and `bkpt` with a true guard are traps 0x0A and 0x0B; with breakpoints armed `bkpt` is a precise stop of the quarter (R398). -/
def Obligations.LanesEndAndBreakpoints : Prop :=
  (
    ∀ h s x, Issues (.exit h) s x →
      let m := x.guard h
      let g : Group := { x.g with exited := x.g.exited ||| m }
      (x.g.wide.isSome → Traps (.exit h) s x 5 (x.t.pc % 2 ^ 64)) ∧
      (x.g.wide = none → m = 0 → Passes (.exit h) s x x.t.mode) ∧
      (∀ w ws, x.g.wide = none → m ≠ 0 → x.t.wins = w :: ws → exec (.exit h) s = .next { x with t := { x.t with st := .longWait (.on w.id) } }.close) ∧
      (x.g.wide = none → m ≠ 0 → x.t.wins = [] → x.g.trap.isSome → (trapRegs x.g).any (marked x.g x.c.t) →
        exec (.exit h) s = .next { x with t := { x.t with st := .waiting } }.close) ∧
      (x.g.wide = none → m ≠ 0 → m ≠ x.t.mask → x.t.wins = [] → x.g.trap = none → (∀ e ∈ x.g.rcds, staysOpen x.g e.1) →
        Ends (.exit h) s { x with g := g, t := { nextT (.exit h) x with mask := x.t.mask - m } }) ∧
      (x.g.wide = none → m ≠ 0 → m = x.t.mask → x.t.wins = [] → x.t.rcd = none → x.g.rcds = [] → x.g.trap = none → x.g.bars = [] →
        otherRuns x.g x.c.t →
        Ends (.exit h) s { x with g := g, t := {} }) ∧
      (x.g.wide = none → m ≠ 0 → m = x.t.mask → x.t.wins = [] → x.t.rcd = none → x.g.rcds = [] → x.g.trap = none → x.g.bars = [] →
        (∀ (k : Nat) (t : Tiller), k ≠ x.c.t → x.g.tillers[k]? = some t → t.st.live = false) → (∀ b ∈ x.b.bars, b.first ≠ some 0) →
        x.g.sheaves = [] → (∀ e ∈ x.s.copies, e.2.b = x.c.b → e.2.g = x.c.g → e.1 ∈ x.g.openSheaf ∧ e.2.st ≠ .done ∧ e.2.st ≠ .failed) →
        (x.g.openSheaf = [] → Ends (.exit h) s { x with g := { g with ended := true }, t := {} }) ∧
        (∀ c k, c ∈ x.g.openSheaf → tget x.s.copies c = some k → k.b = x.c.b → k.g = x.c.g →
          Ends (.exit h) s { x with t := {}, g := { g with
            ended := true, sealCnt := (x.g.sealCnt + 1) % 2 ^ 64, sheafNum := (x.g.sealCnt + 1) % 2 ^ 64 % 2 ^ 32, openSheaf := []
            sheaves := [{ num := (x.g.sealCnt + 1) % 2 ^ 64 % 2 ^ 32, copies := x.g.openSheaf, post := true }] } })) ∧
      (∀ tr n, x.g.wide = none → m ≠ 0 → m = x.t.mask → x.t.wins = [] → x.t.rcd = none → x.g.rcds = [] → x.g.trap = some tr → n = x.g.sregs - 4 →
        (trapRegs x.g).any (marked x.g x.c.t) = false → tr.mask &&& (x.g.exited ||| m) = tr.mask → x.g.bars = [] →
        (∃ (k : Nat) (t : Tiller) (st : TState), k ≠ x.c.t ∧ x.g.tillers[k]? = some t ∧ t.st = .held st ∧ st.live ∧ st.parked = false) →
        Ends (.exit h) s { x with t := {}, g := { g with
          trap := none
          s := ((((x.g.sset n (tr.saved.getD 0 0)).sset (n + 1) (tr.saved.getD 1 0)).sset (n + 2) (tr.saved.getD 2 0)).sset (n + 3) (tr.saved.getD 3 0)).s
          tillers := x.g.tillers.map fun u => match u.st with
            | .held st => { u with st := st }
            | _ => u } })) ∧
  (
    (∀ h n s x, Issues (.trap h n) s x → (x.guard h = 0 → Passes (.trap h n) s x x.t.mode) ∧ (x.guard h ≠ 0 → Traps (.trap h n) s x 0x0A n.val)) ∧
    (∀ h s x, Issues (.bkpt h) s x → x.guard h = 0 → Passes (.bkpt h) s x x.t.mode) ∧
    (∀ h s x e, Issues (.bkpt h) s x → x.guard h ≠ 0 → tget (x.s.slice x.b.slice).trc x.b.vd = some e → e.brken = false → Traps (.bkpt h) s x 0x0B 0) ∧
    (∀ h s x e q, Issues (.bkpt h) s x → x.guard h ≠ 0 → tget (x.s.slice x.b.slice).trc x.b.vd = some e → e.brken →
      tget x.s.quarters (quarterKey x.b x.g) = some q → q.stop = none → Ends (.bkpt h) s { x with
        s := { x.s with
          slices := tmod x.s.slices x.b.slice fun k => { k with trcStops := (k.trcStops + 1) % 2 ^ 16 }
          quarters := tput x.s.quarters (quarterKey x.b x.g) { q with stop := some x.b.vd, dumped := false, stopAt := x.s.now, stopCause := 1 } }
        t := nextT (.bkpt h) x }))

namespace Sys2Proof.Claims

/-- What a release at a scope waits for (R134, R139), of the operations that the tiller's lanes have issued: at `.grp` and `.blk` that each memory
instruction has been accepted, from `.slc` on that it has completed, its writes acknowledged by their homes; that no local write of `astl` is under
way; and at `.sys` that the peer has acknowledged each remote operation that a release covers. -/
def doneAt (sc : Scope) (x : Ex) : Prop :=
  (∀ id p, (id, p) ∈ x.g.pend → id < x.g.nextPend → p.mask &&& x.t.mask ≠ 0 →
    match p.kind with
    | .mem m => m.accepted = true ∧ (sc = .grp ∨ sc = .blk)
    | .cond (.matrix _) => p.op ≠ 0xCC
    | _ => True) ∧
  (sc = .sys → ∀ id o, (id, o) ∈ x.s.rops → o.b = x.c.b → o.g = x.c.g → o.mask &&& x.t.mask ≠ 0 → o.fenced = false)

/-- The memory operations that the tiller's lanes have issued are accepted, and no local write of theirs is under way. -/
def lanesOrdered (x : Ex) : Prop := doneAt .blk x

/-- A tiller whose bar.stay has the lookahead 0 parks (R86, R96). -/
def barStays (i : Instr) (x : Ex) (id look : Nat) : Tiller :=
  let t := { nextT i x with wins := (nextT i x).wins ++ [{ id := x.g.nextPend, left := look }] }
  if look = 0 then { t with st := .atBar id, parkAt := x.t.pc % 2 ^ 64, parkNo := x.g.parks + 1 } else t

/-- The group in which the executing tiller has executed `bar` in the phase, with its lanes and the address noted and the dirty bit set (R96, R300). -/
def barNoted (x : Ex) (id n : Nat) : Group :=
  let old := x.g.bars.find? fun e => e.id == id
  { x.g with
    bars := { id := id, lanes := (old.map BarArr.lanes).getD 0 ||| x.t.mask, cnt := n
              execs := (x.t.mask, x.t.pc % 2 ^ 64) :: (old.map BarArr.execs).getD [] } :: x.g.bars.filter fun e => e.id != id
    flash := { x.g.flash with dirty := true } }

/-- Every live tiller of the group has executed `bar` in the phase, the executing one now. -/
def allAt (x : Ex) (id : Nat) : Prop := ∀ (k : Nat) (t : Tiller), k ≠ x.c.t → x.g.tillers[k]? = some t → t.st.live →
  t.mask &&& ((((x.g.bars.find? fun e => e.id == id).map BarArr.lanes).getD 0) ||| x.t.mask) = t.mask

/-- The executing group's arrival, with the tiller taken out again. -/
def barArrived (x : Ex) (id n : Nat) (y : Ex) : Ex :=
  let b := y.blk.arrive x.c.g id n
  let g := listGet {} b.groups x.c.g
  { y with b := b, g := g, t := g.til x.c.t }

/-- What a group's arrival makes of the block: the phase's first arrival sets the target; with the target met every `bar.stay` completes. -/
def arrival (b : Block) (gi id n : Nat) : Block :=
  let bar := b.bars.getD id {}
  let target := if bar.first.isSome then bar.target else if n = 0 then (b.groups.filter fun g => !g.ended).length else n
  let b := { b with groups := listSet b.groups gi { listGet ({} : Group) b.groups gi with bars := (listGet ({} : Group) b.groups gi).bars.filter fun e => e.id != id } }
  if target ≤ bar.arrived.length + 1 then { b with groups := b.groups.map fun g => g.release id, bars := listSet b.bars id {} }
  else { b with bars := listSet b.bars id { bar with first := some (bar.first.getD n), target := target, arrived := bar.arrived ++ [gi] } }

/-- The group of a bar.stay under way, its tiller parked when the lookahead is 0. -/
def barWaits (i : Instr) (x : Ex) (id n look : Nat) : Group :=
  { withPend (barNoted x id n) (condOf i x (.bar id)) with parks := if look = 0 then x.g.parks + 1 else x.g.parks }

/-- The 8 bytes of a phase-bit barrier in the block's local memory, and the fields of R97. -/
def objOf (x : Ex) (a : Nat) : DWord := BitVec.ofNat 64 (readLE x.b.loc a 8)

/-- The local address of a scalar and an offset. -/
def localAt (x : Ex) (a : SReg) (off : BitVec 22) : Nat := (((x.g.sget a.val).toNat : Int) + off.toInt) % 2 ^ 64 |>.toNat

/-- What an arrival of n makes of an object (R98). -/
def arrived (o : DWord) (n : Nat) : DWord :=
  let target := o.extractLsb' 0 16
  let count := o.extractLsb' 16 16
  let gen := o.extractLsb' 32 32
  if n = 0 then o
  else if target.toNat ≤ count.toNat + n then (gen + 1) ++ (0 : BitVec 16) ++ target
  else gen ++ BitVec.ofNat 16 (count.toNat + n) ++ target

end Sys2Proof.Claims

/-- R96 to R98, R107, R108: named barriers and phase-bit barriers.
R96, R107: `bar` counts a tiller once its earlier memory operations are accepted (R134, R139); with the group's last live tiller the group arrives,
and a wrong count is the barrier-count trap. The model's choices: a second arrival counts (log entry 78), and of differing counts the last (79).
R97, R98, R108: arrivals on phase-bit barriers, each once the lanes' earlier memory operations are accepted (R134, R139), and the wait for their
parity, with the program faults of their addresses. -/
def Obligations.Barriers : Prop :=
  (
    (∀ look id n s x, Issues (.bar look id true n) s x → lanesOrdered x → val10 x.g n ≤ 32 → ¬allAt x id.val →
      ∃ t, exec (.bar look id true n) s = .next t ∧ Holds t { x with g := barNoted x id.val (val10 x.g n), t := nextT (.bar look id true n) x }) ∧
    (∀ look id n s x, Issues (.bar look id true n) s x → lanesOrdered x → val10 x.g n ≤ 32 → allAt x id.val → val10 x.g n ≤ x.b.groups.length →
      (∀ f, (x.b.bars.getD id.val {}).first = some f → f = val10 x.g n) →
      ∃ t, exec (.bar look id true n) s = .next t ∧ Holds t (barArrived x id.val (val10 x.g n) { x with
        g := barNoted x id.val (val10 x.g n), t := nextT (.bar look id true n) x })) ∧
    (∀ look id n s x, Issues (.bar look id false n) s x → lanesOrdered x → val10 x.g n ≤ 32 → ¬allAt x id.val →
      otherRuns x.g x.c.t →
      ∃ t, exec (.bar look id false n) s = .next t ∧ Holds t { x with
        g := barWaits (.bar look id false n) x id.val (val10 x.g n) look.val, t := barStays (.bar look id false n) x id.val look.val }) ∧
    (∀ look id n s x, Issues (.bar look id false n) s x → lanesOrdered x → val10 x.g n ≤ 32 → allAt x id.val → val10 x.g n ≤ x.b.groups.length →
      (∀ f, (x.b.bars.getD id.val {}).first = some f → f = val10 x.g n) →
      (∀ (k : Nat) (t : Tiller), k ≠ x.c.t → x.g.tillers[k]? = some t → t.st ≠ .atWide) →
      ∃ t, exec (.bar look id false n) s = .next t ∧ Holds t (barArrived x id.val (val10 x.g n) { x with
        g := barWaits (.bar look id false n) x id.val (val10 x.g n) look.val, t := barStays (.bar look id false n) x id.val look.val })) ∧
    (∀ look id pass n s x, Issues (.bar look id pass n) s x → ¬lanesOrdered x → val10 x.g n ≤ 32 → (allAt x id.val → val10 x.g n ≤ x.b.groups.length ∧
        ∀ f, (x.b.bars.getD id.val {}).first = some f → f = val10 x.g n) →
      exec (.bar look id pass n) s = .next { x with t := { x.t with st := .waiting } }.close) ∧
    (∀ look id pass n s x, Issues (.bar look id pass n) s x → (32 < val10 x.g n ∨ (allAt x id.val ∧ (x.b.groups.length < val10 x.g n ∨
        ∃ f, (x.b.bars.getD id.val {}).first = some f ∧ f ≠ val10 x.g n))) →
      Traps (.bar look id pass n) s x 8 (id.val + val10 x.g n % 256 * 2 ^ 8 + (x.b.bars.getD id.val {}).target % 256 * 2 ^ 16)) ∧
    (∀ (b : Block) gi id n, gi < b.groups.length → b.arrive gi id n = arrival b gi id n) ∧
    (∀ (g : Group) (id k : Nat) (t : Tiller), g.tillers[k]? = some t → t.st = .atBar id → (∀ e ∈ g.pend, e.2.kind ≠ .cond (.bar id)) →
      (g.release id).tillers[k]? = some { t with st := .ready })) ∧
  (
    (∀ h old a cnt off s x, Issues (.parrive h old a cnt off) s x → x.guard h = 0 → Passes (.parrive h old a cnt off) s x x.t.mode) ∧
    (∀ h old a cnt off s x, Issues (.parrive h old a cnt off) s x → x.guard h ≠ 0 →
      let at' := localAt x a off
      let o := objOf x at'
      let n := match cnt with
        | some r => (x.g.sget r.val).toNat % 2 ^ 16
        | none => 1
      let bad := o.extractLsb' 0 16 = 0 ∨ o.extractLsb' 0 16 ≤ o.extractLsb' 16 16
      (at' % 8 ≠ 0 → Fails (.parrive h old a cnt off) s x
        { kind := 4, detail := 0x10, va := at', pc := x.t.pc % 2 ^ 64, lane := lowLane (x.guard h), acc := 3 }) ∧
      (at' % 8 = 0 → x.b.localSz < at' + 8 → Fails (.parrive h old a cnt off) s x
        { kind := 4, detail := 0x20, va := at', pc := x.t.pc % 2 ^ 64, lane := lowLane (x.guard h), acc := 3 }) ∧
      (at' % 8 = 0 → at' + 8 ≤ x.b.localSz → ¬lanesOrdered x →
        exec (.parrive h old a cnt off) s = .next { x with t := { x.t with st := .waiting } }.close) ∧
      (at' % 8 = 0 → at' + 8 ≤ x.b.localSz → lanesOrdered x → bad → Traps (.parrive h old a cnt off) s x 9 at') ∧
      (at' % 8 = 0 → at' + 8 ≤ x.b.localSz → lanesOrdered x → ¬bad → ∃ t, exec (.parrive h old a cnt off) s = .next t ∧ Holds t { x with
        b := { x.b with loc := writeLE x.b.loc at' 8 (arrived o n).toNat }
        g := { (match old with
          | some d => x.g.sset d.val ((o.extractLsb' 32 32).setWidth 64)
          | none => x.g) with flash := { x.g.flash with dirty := true } }
        t := nextT (.parrive h old a cnt off) x })) ∧
    (∀ h par a off s x, Issues (.pwait h par a off) s x → x.guard h = 0 → Passes (.pwait h par a off) s x x.t.mode) ∧
    (∀ h par a off s x, Issues (.pwait h par a off) s x → x.guard h ≠ 0 →
      let at' := localAt x a off
      (at' % 8 ≠ 0 → Fails (.pwait h par a off) s x
        { kind := 4, detail := 0x10, va := at', pc := x.t.pc % 2 ^ 64, lane := lowLane (x.guard h), acc := 1 }) ∧
      (at' % 8 = 0 → x.b.localSz < at' + 8 → Fails (.pwait h par a off) s x
        { kind := 4, detail := 0x20, va := at', pc := x.t.pc % 2 ^ 64, lane := lowLane (x.guard h), acc := 1 }) ∧
      (at' % 8 = 0 → at' + 8 ≤ x.b.localSz → (objOf x at').getLsbD 32 ≠ par →
        ∃ t, exec (.pwait h par a off) s = .next t ∧ Holds t { x with t := nextT (.pwait h par a off) x }) ∧
      (at' % 8 = 0 → at' + 8 ≤ x.b.localSz → (objOf x at').getLsbD 32 = par → Waits (.pwait h par a off) s x (.pwait at' par))))

/-! ### Loads, stores and atomics (R115 to R155) -/

namespace Sys2Proof.Claims

/-- An address modulo 2^64, or 2^32 for a vector of local addresses (R149). -/
def at64 (n : Int) : Nat := (n % 2 ^ 64).toNat
def at32 (n : Int) : Nat := (n % 2 ^ 32).toNat

/-- A scalar as a number. -/
def scl (x : Ex) (a : SReg) : Int := ((x.g.sget a.val).toNat : Int)

/-- One access for each guard-true active lane, in ascending order, or one for the lowest of them. -/
def perLaneOps (x : Ex) (h : Hd) (size : Nat) (addr : Nat → Nat) (op : Nat → ElOp) : List LOp :=
  (acts x h).map fun l => { lane := l, va := addr l, size := size, op := op l }
def lowestOp (x : Ex) (h : Hd) (size va : Nat) (op : ElOp) : List LOp :=
  ((acts x h).take 1).map fun l => { lane := l, va := va, size := size, op := op }

/-- The value a lane stores. -/
def stored (x : Ex) (ty : IType) (r : VReg) (l : Nat) : ElOp := .write (laneBits x.g ty r.val l % 2 ^ ty.width)

/-- The registers that a memory instruction holds until it completes (R126): its destinations and sources, but for predicates. -/
def heldRegs (i : Instr) (x : Ex) : List RegId := (usesOf i x.g).all.filter fun r => match r with
  | .p _ => false
  | _ => true

/-- The pending entry of a memory instruction: it marks its data and address registers until it completes (R85, R126). -/
def memPend (i : Instr) (x : Ex) (m : MemFlight) : Pend where
  slot := x.c.t
  mask := x.t.mask
  op := opcode i
  marks := heldRegs i x
  wr := []
  fl := 0
  kind := .mem m

/-- A tiller in a short wait tries again (R86). -/
def woken (t : Tiller) : Tiller := match t.st with
  | .waiting => { t with st := .ready }
  | .held .waiting => { t with st := .held .ready }
  | _ => t

/-- The group of a memory instruction under way. The L1 may have accepted all that a plain store or a line operation sends: the instruction is then
complete for its own core, and marks no register (R126, R149). -/
def sentGroup (i : Instr) (x : Ex) (g : Group) (m : MemFlight) (accepted : Bool) : Group :=
  if accepted then { withPend g { memPend i x m with marks := [], kind := .mem { m with accepted := true } } with tillers := g.tillers.map woken }
  else withPend g (memPend i x m)

/-- The instruction is under way: its group is `g` with the new pending entry, its accesses are asked for with one request for each granule (R119),
and no byte of memory, no register and no other part of the machine has changed but the tables that requests pass through. Accepted are the stores
that release at no scope from `.slc` on, when none of their requests waits for a walk. -/
def Sends (i : Instr) (s : State) (x : Ex) (g : Group) (m : MemFlight) : Prop :=
  ∃ (t u : State) (acc : Bool), exec i s = .next t ∧
    (acc = true → m.posted) ∧
    (acc = false → m.posted → ∃ rid r w, x.s.nextId ≤ rid ∧ tget t.reqs rid = some r ∧ r.pend = x.g.nextPend ∧ r.st = .walk w) ∧
    Holds u { x with
      g := sentGroup i x g m acc
      t := { nextT i x with
        wins := (nextT i x).wins ++ opened i x
        st := if isL (opcode i) && (fields i).look == 0 then .longWait (.on x.g.nextPend) else .ready } } ∧
    t = { u with reqs := t.reqs, msgs := t.msgs, walks := t.walks, slices := t.slices, cores := t.cores, nextId := t.nextId, stSent := t.stSent, stKnown := t.stKnown } ∧
    (∀ k, SliceKept (u.slice k) (t.slice k)) ∧
    ∀ n ∈ m.lanes.map fun o => o.va / 128, ∃ rid r, x.s.nextId ≤ rid ∧ tget t.reqs rid = some r ∧ r.b = x.c.b ∧ r.g = x.c.g ∧ r.pend = x.g.nextPend ∧
      r.gran = n ∧ r.lanes = m.lanes.filter (fun o => o.va / 128 = n) ∧ r.acc = m.acc ∧ (r.pid, r.vd, r.slice, r.core) = (x.b.pid, x.b.vd, x.b.slice, x.b.core)

/-- What an access of R118's checks fails by, in their order, as DETAIL of R326: alignment, the local allocation, the canonical form. -/
def checkOf (glob : Bool) (localSz al : Nat) (o : LOp) : Option Nat :=
  if o.va % al ≠ 0 then some 0x10
  else if glob = false ∧ localSz < o.va + o.size then some 0x20
  else if glob = true ∧ ¬(o.va / 2 ^ 56 % 2 ^ 8 = 0 ∨ o.va / 2 ^ 56 % 2 ^ 8 = 255) then some 0x30
  else none

/-- ACC of R326. -/
def accOf (a : Acc) : Nat := (if a.r then 1 else 0) + (if a.w then 2 else 0) + (if a.x then 4 else 0)

/-- R118: the first access that fails a check ends the block; with none, the instruction goes on. -/
def ChecksAccesses (i : Instr) (s : State) (x : Ex) (q : MemAsk) (l : List LOp) (good : Prop) : Prop :=
  (∀ pre o post d, l = pre ++ o :: post → (∀ p ∈ pre, checkOf q.glob x.b.localSz q.al p = none) → checkOf q.glob x.b.localSz q.al o = some d →
    Fails i s x { kind := 4, detail := d, va := o.va, pc := x.t.pc % 2 ^ 64, lane := o.lane, acc := accOf q.acc }) ∧
  ((∀ p ∈ l, checkOf q.glob x.b.localSz q.al p = none) → good)

/-- A release waits for the earlier memory operations of the lanes, at `.sys` for the remote ones too (R139). -/
def released (x : Ex) (rel : Option Scope) : Prop :=
  ∀ sc, rel = some sc → doneAt sc x

/-- The VD and the core have request slots for the granules (R22, R123, R286). -/
def slotsFor (x : Ex) (l : List LOp) : Prop :=
  x.s.slotsUsed x.b.slice x.b.core x.b.vd + (granules l).length ≤ x.s.slotShare x.b.slice x.b.core x.b.pid x.b.vd ∧
  (x.s.reqs.filter fun e => e.2.slice == x.b.slice && e.2.core == x.b.core).length + (granules l).length ≤ 4096

/-- No local write of an earlier `astl` of the tiller's lanes is under way (R133, R236). -/
def localFree (x : Ex) : Prop := ∀ e ∈ x.g.pend, e.2.op = 0xCC → e.2.mask &&& x.t.mask = 0

/-- A global access: with no lane it passes, without a release's order or slots it waits, else it is under way. -/
def GlobalRow (i : Instr) (h : Hd) (q : Ex → MemAsk) (l : Ex → List LOp) (g : Ex → Group) : Prop :=
  ∀ s x, Issues i s x →
    (x.guard h = 0 → Passes i s x x.t.mode) ∧
    (x.guard h ≠ 0 → ChecksAccesses i s x (q x) (l x) (
      (released x (q x).rel → slotsFor x (l x) → Sends i s x (g x)
        { dst := (q x).dst, lanes := l x, acc := (q x).acc, hint := (q x).hint, acq := (q x).acq, rel := (q x).rel, pc := x.t.pc % 2 ^ 64 }) ∧
      (¬(released x (q x).rel ∧ slotsFor x (l x)) → exec i s = .next { x with t := { x.t with st := .waiting } }.close)))

/-- The group with its dirty bit set (R300). -/
def dirtied (x : Ex) : Group := { x.g with flash := { x.g.flash with dirty := true } }

/-- The address forms: a scalar base with an element for each lane, or as it stands, and a pair of vector registers (R149). -/
def elemAt (x : Ex) (a : SReg) (off : BitVec 22) (size l : Nat) : Nat := at64 (scl x a + off.toInt + l * size)
def baseAt (x : Ex) (a : SReg) (off : BitVec 22) : Nat := at64 (scl x a + off.toInt)
def pairAt (x : Ex) (a : VSrc) (off : BitVec 22) (l : Nat) : Nat := at64 (laneBits x.g .b64 (vidx x.g a) l + off.toInt)
def vecAt (x : Ex) (a : VSrc) (off : BitVec 22) (l : Nat) : Nat := at32 ((x.g.vget (vidx x.g a) l).toNat + off.toInt)

/-- Bytes of a type. -/
def bytesOf (t : IType) : Nat := t.width / 8

end Sys2Proof.Claims

/-- R118, R119, R123, R139, R149: global loads and stores ask for the granules of their lanes. -/
def Obligations.GlobalLoadsAndStores : Prop :=
  (∀ o, GlobalRow (.ld o) o.h (fun _ => { glob := true, al := bytesOf o.ty, acc := { r := true }, dst := .vec o.r.val o.ty, hint := o.hint, acq := o.ord })
    (fun x => perLaneOps x o.h (bytesOf o.ty) (elemAt x o.a o.off (bytesOf o.ty)) fun _ => .read) (·.g)) ∧
  (∀ o, GlobalRow (.st o) o.h (fun _ => { glob := true, al := bytesOf o.ty, acc := { w := true }, hint := o.hint, rel := o.ord })
    (fun x => perLaneOps x o.h (bytesOf o.ty) (elemAt x o.a o.off (bytesOf o.ty)) (stored x o.ty o.r)) (·.g)) ∧
  (∀ o, GlobalRow (.sld o) o.h (fun _ => { glob := true, al := bytesOf o.ty, acc := { r := true }, dst := .scl o.r.val o.ty, hint := o.hint, acq := o.ord })
    (fun x => lowestOp x o.h (bytesOf o.ty) (baseAt x o.a o.off) .read) (·.g)) ∧
  (∀ o, GlobalRow (.sst o) o.h (fun _ => { glob := true, al := bytesOf o.ty, acc := { w := true }, hint := o.hint, rel := o.ord })
    (fun x => lowestOp x o.h (bytesOf o.ty) (baseAt x o.a o.off) (.write ((x.g.sget o.r.val).toNat % 2 ^ o.ty.width))) (·.g)) ∧
  (∀ o, GlobalRow (.gath o) o.h (fun _ => { glob := true, al := bytesOf o.ty, acc := { r := true }, dst := .vec o.r.val o.ty, hint := o.hint, acq := o.ord })
    (fun x => perLaneOps x o.h (bytesOf o.ty) (pairAt x o.a o.off) fun _ => .read) (·.g)) ∧
  (∀ o, GlobalRow (.scat o) o.h (fun _ => { glob := true, al := bytesOf o.ty, acc := { w := true }, hint := o.hint, rel := o.ord })
    (fun x => perLaneOps x o.h (bytesOf o.ty) (pairAt x o.a o.off) (stored x o.ty o.r)) (·.g)) ∧
  (∀ o, GlobalRow (.ldb o) o.h
    (fun x => { glob := true, al := bytesOf o.ty, acc := { r := true }, dst := .bcast o.r.val o.ty (x.guard o.h), hint := o.hint, acq := o.ord })
    (fun x => lowestOp x o.h (bytesOf o.ty) (baseAt x o.a o.off) .read) (·.g)) ∧
  (∀ h a off, GlobalRow (.stz h a off) h (fun _ => { glob := true, al := 128, acc := { w := true } })
    (fun x => lowestOp x h 128 (baseAt x a off) (.write 0)) (·.g)) ∧
  (∀ h op a off, GlobalRow (.cline h op a off) h (fun _ => { glob := true, al := 1, acc := { r := true } })
    (fun x => lowestOp x h 1 (baseAt x a off) (.line op)) (·.g))

namespace Sys2Proof.Claims

/-- The scopes at which an atomic acquires and releases (R137, R150). -/
def acqOf (sem : Option (Sem × Scope)) : Option Scope := match sem with
  | some (.acq, sc) => some sc | some (.ar, sc) => some sc | _ => none
def relOf (sem : Option (Sem × Scope)) : Option Scope := match sem with
  | some (.rel, sc) => some sc | some (.ar, sc) => some sc | _ => none

/-- What an atomic asks: it reads and writes its location, and writes the old value to D. -/
def atomicAsk (ty : IType) (sem : Option (Sem × Scope)) (glob : Bool) (d : VReg) : MemAsk :=
  { glob := glob, al := bytesOf ty, acc := { r := true, w := true }, dst := .vec d.val ty, acq := acqOf sem, rel := relOf sem }

/-- The type of an atomic's operation, and its operand B in a lane. -/
def opTy : AOp → IType
  | .int _ t => t
  | .flt _ => .b32
def opImm (op : AOp) (v : BitVec 32) : Nat := (match op with
  | .int _ t => immBits t (.i32 v)
  | .flt _ => immFloat .f32 (.i32 v)) % 2 ^ (opTy op).width

/-- The accesses of atomics and of compare-and-swap at the addresses of their lanes. -/
def atomicOps (x : Ex) (o : AtomOp) (addr : Nat → Nat) (b : Nat → Nat) : List LOp :=
  perLaneOps x o.h (bytesOf (opTy o.op)) addr fun l => .atom o.op (b l)
def casOps (x : Ex) (o : CasOp) (addr : Nat → Nat) : List LOp :=
  perLaneOps x o.h (bytesOf o.ty) addr fun l => .cas (laneBits x.g o.ty o.b.val l % 2 ^ o.ty.width) (laneBits x.g o.ty o.c.val l % 2 ^ o.ty.width)

end Sys2Proof.Claims

/-- R144, R146, R150 to R152: global atomics ask for their granules and set the dirty bit; each lane of an ordered atomic has its own sequence. -/
def Obligations.GlobalAtomics : Prop :=
  (∀ o b, GlobalRow (.atom o b) o.h (fun _ => atomicAsk (opTy o.op) o.sem true o.d)
    (fun x => atomicOps x o (pairAt x o.a o.off) fun l => laneBits x.g (opTy o.op) b.val l % 2 ^ (opTy o.op).width) dirtied) ∧
  (∀ o v, GlobalRow (.atomImm32 o v) o.h (fun _ => atomicAsk (opTy o.op) o.sem true o.d)
    (fun x => atomicOps x o (pairAt x o.a o.off) fun _ => opImm o.op v) dirtied) ∧
  (∀ o, GlobalRow (.cas o) o.h (fun _ => atomicAsk o.ty o.sem true o.d) (fun x => casOps x o (pairAt x o.a o.off)) dirtied) ∧
  (∀ h a b off, GlobalRow (.atomOrd h a b off) h (fun _ => { glob := true, al := 4, acc := { r := true, w := true } })
    (fun x => perLaneOps x h 4 (pairAt x a off) fun l => .ord (x.g.vget b.val l).toNat (x.c.g * 32 + l) (cget 0 x.g.ordCnt l))
    (fun x => { dirtied x with ordCnt := (acts x h).foldl (fun c l => cset 0 c l (cget 0 c l + 1)) x.g.ordCnt }))

namespace Sys2Proof.Claims

/-- The old and the new value of an access, and the flags it sets (R144, R145). -/
def newOf (op : ElOp) (o : Nat) : Nat × Nat :=
  match op with
  | .write v => (v, 0)
  | .atom a v => atomNew a o v
  | .cas c n => (if o = c then n else o, 0)
  | _ => (o, 0)

/-- Whether an access stores, given the old value. -/
def storesTo (op : ElOp) (o : Nat) : Bool :=
  match op with
  | .write _ => true
  | .atom _ _ => true
  | .cas c _ => o == c
  | _ => false

/-- Accesses to local memory one lane after another (R132, R133): the memory, the old value of each lane, the flags. -/
def localSeq (m : Memory) (l : List LOp) : Memory × List (Nat × Nat) × Nat :=
  l.foldl (fun r o =>
    let old := readLE r.1 o.va o.size
    let n := newOf o.op old
    (if storesTo o.op old then writeLE r.1 o.va o.size n.1 else r.1, r.2.1 ++ [(o.lane, old)], r.2.2 ||| n.2)) (m, [], 0)

/-- The pending entry of a local access with a destination: it holds its registers until the values are written (R126). -/
def localPend (i : Instr) (x : Ex) (wr : List Wr) (fl : Nat) : Pend :=
  { resultOf i x wr fl with marks := heldRegs i x ++ if fl = 0 then [] else [.flags] }

/-- A local access takes effect at once on the block's local memory, once a release's order and earlier local writes allow it; results wait for
their latency. -/
def LocalRow (i : Instr) (h : Hd) (q : MemAsk) (l : Ex → List LOp) (dst : Option (VReg × IType)) (g : Ex → Group) : Prop :=
  ∀ s x, Issues i s x →
    (x.guard h = 0 → Passes i s x x.t.mode) ∧
    (x.guard h ≠ 0 → ChecksAccesses i s x q (l x) (
      let r := localSeq x.b.loc (l x)
      let b : Block := { x.b with loc := r.1 }
      (released x q.rel → localFree x → match dst with
        | none => ∃ t, exec i s = .next t ∧ Holds t { x with b := b, g := g x, t := nextT i x }
        | some (d, ty) =>
          let y : Ex := { x with b := b, g := g x }
          ∃ t, exec i s = .next t ∧ Holds t { y with
            g := withPend y.g (localPend i y (r.2.1.flatMap fun e => toV ty d.val e.1 (readAs ty e.2)) r.2.2)
            t := { nextT i y with wins := (nextT i y).wins ++ opened i y } }) ∧
      (¬(released x q.rel ∧ localFree x) → exec i s = .next { x with t := { x.t with st := .waiting } }.close)))

end Sys2Proof.Claims

/-- R133, R144, R145, R149 to R151: accesses of local memory, and the values that atomic operations leave.
R133, R149 to R151: loads, stores and atomics of local memory, lane after lane.
R144, R145: the new values of the atomics on w bits; those on FP32 read their operands as they stand: the sum is rounded to nearest even and sets
its flags, the lesser and the greater are the selections of `fmin` and `fmax`. -/
def Obligations.LocalMemoryAndAtomicValues : Prop :=
  (
    (∀ o, LocalRow (.ldl o) o.h { glob := false, al := bytesOf o.ty, acc := { r := true } }
      (fun x => perLaneOps x o.h (bytesOf o.ty) (elemAt x o.a o.off (bytesOf o.ty)) fun _ => .read) (some (o.r, o.ty)) (·.g)) ∧
    (∀ o, LocalRow (.stl o) o.h { glob := false, al := bytesOf o.ty, acc := { w := true }, rel := o.ord }
      (fun x => perLaneOps x o.h (bytesOf o.ty) (elemAt x o.a o.off (bytesOf o.ty)) (stored x o.ty o.r)) none (·.g)) ∧
    (∀ o, LocalRow (.lgath o) o.h { glob := false, al := bytesOf o.ty, acc := { r := true } }
      (fun x => perLaneOps x o.h (bytesOf o.ty) (vecAt x o.a o.off) fun _ => .read) (some (o.r, o.ty)) (·.g)) ∧
    (∀ o, LocalRow (.lscat o) o.h { glob := false, al := bytesOf o.ty, acc := { w := true }, rel := o.ord }
      (fun x => perLaneOps x o.h (bytesOf o.ty) (vecAt x o.a o.off) (stored x o.ty o.r)) none (·.g)) ∧
    (∀ o b, LocalRow (.atoml o b) o.h (atomicAsk (opTy o.op) o.sem false o.d)
      (fun x => atomicOps x o (vecAt x o.a o.off) fun l => laneBits x.g (opTy o.op) b.val l % 2 ^ (opTy o.op).width) (some (o.d, opTy o.op)) dirtied) ∧
    (∀ o v, LocalRow (.atomlImm32 o v) o.h (atomicAsk (opTy o.op) o.sem false o.d)
      (fun x => atomicOps x o (vecAt x o.a o.off) fun _ => opImm o.op v) (some (o.d, opTy o.op)) dirtied) ∧
    (∀ o, LocalRow (.casl o) o.h (atomicAsk o.ty o.sem false o.d) (fun x => casOps x o (vecAt x o.a o.off)) (some (o.d, o.ty)) dirtied)) ∧
  (
    ∀ (t : IType) (o b : Nat), o < 2 ^ t.width → b < 2 ^ t.width →
      let O : BitVec t.width := BitVec.ofNat t.width o
      let B : BitVec t.width := BitVec.ofNat t.width b
      atomNew (.int .add t) o b = ((O + B).toNat, 0) ∧ atomNew (.int .and t) o b = ((O &&& B).toNat, 0) ∧ atomNew (.int .or t) o b = ((O ||| B).toNat, 0) ∧
      atomNew (.int .xor t) o b = ((O ^^^ B).toNat, 0) ∧ atomNew (.int .exch t) o b = (b, 0) ∧
      atomNew (.int .min t) o b = ((BitVec.ofInt t.width (min (readAs t o) (readAs t b))).toNat, 0) ∧
      atomNew (.int .max t) o b = ((BitVec.ofInt t.width (max (readAs t o) (readAs t b))).toNat, 0) ∧
      atomNew (.int .inc t) o b = (if b ≤ o then 0 else o + 1, 0) ∧
      atomNew (.int .dec t) o b = (if o = 0 ∨ b < o then b else o - 1, 0) ∧
      (t.width = 32 →
        let u := fvalue .f32 .ieee o
        let v := fvalue .f32 .ieee b
        let e := xAdd false u v
        let c := roundF .f32 .ieee .rne false 0 e.1
        atomNew (.flt .fadd) o b = (c.1, c.2 ||| e.2) ∧
        atomNew (.flt .fmin) o b = (selected .f32 false o b, if anySig u v then fINV else 0) ∧
        atomNew (.flt .fmax) o b = (selected .f32 true o b, if anySig u v then fINV else 0)))

/-- R136, R139, R153 to R155: `fence` completes when the operations before it have, and then drops what its scope acquires, and answers on their way fill
nothing, near lines of tag 0 going too (DEDUCED, log entry 112); `ifence` drops the VD's code on the slice; a prefetch changes no register and no block:
`pref` asks for its granule, if a slot is free and CACHE does not bar the level, and `ipref` enters the fetch blocks that its core has not got, shown
for the last of them. -/
def Obligations.FencesAndPrefetches : Prop :=
  (∀ h sem sc s x, Issues (.fence h sem sc) s x →
    let done := doneAt sc x
    (x.guard h = 0 → Passes (.fence h sem sc) s x x.t.mode) ∧
    (x.guard h ≠ 0 → ¬done → Waits (.fence h sem sc) s x (.fence sem sc)) ∧
    (x.guard h ≠ 0 → done → Ends (.fence h sem sc) s { x with
      s := if sem = .rel then x.s else x.s.acquire x.b.slice x.b.core x.b.vd sc, t := nextT (.fence h sem sc) x })) ∧
  (∀ (s : State) slice core vd sc, ∃ t, s.acquire slice core vd sc = t ∧ t = { s with cores := t.cores, slices := t.slices, reqs := t.reqs } ∧
    (∀ k q, tget s.reqs k = some q → ∃ fill, tget t.reqs k = some { q with fill := fill } ∧
      (fill = true ↔ q.fill = true ∧ ¬(q.slice = slice ∧
        (q.vd = vd ∨ vdTag q.vd (q.gran * 128) = 0) ∧ ((sc = .slc ∧ q.core = core) ∨ sc = .prt ∨ sc = .sys)))) ∧
    (∀ k, k ≠ coreKey slice core ∨ sc = .grp ∨ sc = .blk → tget t.cores k = tget s.cores k) ∧
    (∀ k, k ≠ slice ∨ sc = .grp ∨ sc = .blk ∨ sc = .slc → tget t.slices k = tget s.slices k) ∧
    (sc = .slc ∨ sc = .prt ∨ sc = .sys → ∀ c, tget s.cores (coreKey slice core) = some c →
      tget t.cores (coreKey slice core) = some { c with l1 := c.l1.filter fun y => !(y.vd = vd || y.vd = 0) }) ∧
    (sc = .prt ∨ sc = .sys → ∀ k, tget s.slices slice = some k →
      tget t.slices slice = some { k with scache := k.scache.filter fun y => !(y.near.isSome && (y.vd = vd || y.vd = 0)) })) ∧
  (∀ h s x, Issues (.ifence h) s x → x.guard h = 0 → Passes (.ifence h) s x x.t.mode) ∧
  (∀ h s x, Issues (.ifence h) s x → x.guard h ≠ 0 → ∃ cs, Ends (.ifence h) s { x with s := { x.s with cores := cs }, t := nextT (.ifence h) x } ∧
    ∀ k c, tget x.s.cores k = some c →
      tget cs k = some (if k / 4 = x.b.slice then { c with ic := c.ic.filter fun e => !(e.vd = x.b.vd || e.vd = 0) } else c)) ∧
  (∀ h lvl a off s x, Issues (.pref h lvl a off) s x → x.guard h = 0 ∨ canonical (baseAt x a off) = false ∨ x.s.slotsFor x.b 1 = false →
    Passes (.pref h lvl a off) s x x.t.mode) ∧
  (∀ h lvl a off s x, Issues (.pref h lvl a off) s x → x.guard h ≠ 0 → canonical (baseAt x a off) → x.s.slotsFor x.b 1 →
    tget x.g.pend x.g.nextPend = none → ∃ t u, exec (.pref h lvl a off) s = .next t ∧
      Holds u { x with g := { x.g with nextPend := x.g.nextPend + 1 }, t := nextT (.pref h lvl a off) x } ∧
      t = { u with reqs := t.reqs, msgs := t.msgs, walks := t.walks, slices := t.slices, cores := t.cores, nextId := t.nextId } ∧
      (∀ k, SliceKept (u.slice k) (t.slice k)) ∧
      let mine (rid : Nat) (r : Req) : Prop := x.s.nextId ≤ rid ∧ r.pref = some lvl ∧ r.gran = baseAt x a off / 128 ∧ r.acc = { r := true } ∧ (∀ o ∈ r.lanes, o.op = .read) ∧
        (r.pid, r.vd, r.slice, r.core) = (x.b.pid, x.b.vd, x.b.slice, x.b.core)
      (∀ rid r, tget t.reqs rid = some r → tget x.s.reqs rid = some r ∨ mine rid r) ∧
      ((∀ e, x.s.tlbFind x.b.slice x.b.core x.c.b x.b.vd (baseAt x a off / 128 * 128) = some e → e.acc.r →
          (lvl = .l1 → e.cache ≠ 0) ∧ (lvl = .near → e.cache = 2 ∧ e.home ≠ x.b.slice)) →
        ∃ rid r, tget t.reqs rid = some r ∧ mine rid r)) ∧
  (∀ h a off s x, Issues (.ipref h a off) s x → x.guard h = 0 ∨ canonical (baseAt x a off) = false →
    Passes (.ipref h a off) s x x.t.mode) ∧
  (∀ h a off s x, Issues (.ipref h a off) s x → x.guard h ≠ 0 → canonical (baseAt x a off) → ∃ t u, exec (.ipref h a off) s = .next t ∧
    Holds u { x with t := nextT (.ipref h a off) x } ∧ t.blocks = u.blocks ∧ t.reqs = u.reqs ∧
    ((∀ i < 4, (x.s.icFind x.b.slice x.b.core x.b.vd (baseAt x a off / 128 * 128 + 32 * i)).isSome) → t = u) ∧
    (∀ s' w, (∀ i < 4, i ≠ 3 → (x.s.icFind x.b.slice x.b.core x.b.vd (baseAt x a off / 128 * 128 + 32 * i)).isSome) →
      (x.s.icFind x.b.slice x.b.core x.b.vd (baseAt x a off / 128 * 128 + 96)) = none → (tget s'.cores (coreKey x.b.slice x.b.core)).isSome →
      u.codeBlock x.b.slice x.b.pid x.b.vd (baseAt x a off / 128 * 128 + 96) (some ⟨x.b.core, x.c.b⟩) = (s', .ok w) →
      { vd := vdTag x.b.vd (baseAt x a off / 128 * 128 + 96), blk := baseAt x a off / 128 * 4 + 3, words := w } ∈ (t.core (coreKey x.b.slice x.b.core)).ic))

/-! ### Translation, the homes and the fabric (R18 to R21, R119 to R140, R318 to R330) -/

/-- R19, R20, R319: no two partition addresses have one place in the stacks, a place lies in the address's own granule, and a hop brings a message one
step nearer, first along the row. -/
def Obligations.HomesAndRoutes : Prop :=
  (∀ (map : List Nat) (a b : Nat) (h : Nat × Nat), homeOf map a = some h → homeOf map b = some h → a = b) ∧
  (∀ (map : List Nat) (a home sla : Nat), homeOf map a = some (home, sla) →
    home < 16 ∧ sla % 2 ^ 21 = a % 2 ^ 21 ∧ sla / 2 ^ 21 < 21456 ∧ ∃ w, map[a / 2 ^ 21 % 256]? = some w ∧ w.testBit 7 ∧ home = w % 16) ∧
  (∀ a b : Nat, a < 16 → b < 16 → a ≠ b →
    let n := nextHop a b
    n < 16 ∧ ((n / 8 = a / 8 ∧ ((n % 8 : Nat) : Int) = a % 8 + (if a % 8 < b % 8 then 1 else -1) ∧ a % 8 ≠ b % 8) ∨
      (n % 8 = a % 8 ∧ a % 8 = b % 8 ∧ n / 8 = b / 8)))

namespace Sys2Proof.Claims

/-- Accesses to a granule one lane after another (R132): its bytes, the old value of each lane, the flags. -/
def granSeq (base : Nat) (l : List LOp) (b : List Byte) : List Byte × List (Nat × Nat) × Nat :=
  l.foldl (fun r o =>
    let old := ofBytes ((r.1.drop (o.va - base)).take o.size)
    let n := newOf o.op old
    (if storesTo o.op old then splice r.1 (o.va - base) (toBytes o.size n.1) else r.1, r.2.1 ++ [(o.lane, old)], r.2.2 ||| n.2)) (b, [], 0)

/-- A request for data, within its granule. -/
def plain (q : Req) : Prop := q.lanes ≠ [] ∧ ∀ o ∈ q.lanes, (∀ x w n, o.op ≠ .ord x w n) ∧ (∀ c, o.op ≠ .line c) ∧ o.va / 128 = q.gran ∧ o.va % 128 + o.size ≤ 128

/-- Where a request's granule lies at its home. -/
def slaOf (q : Req) (fr : FrameE) : Nat := fr.sla + q.gran * 128 % (if fr.big then 2 ^ 21 else 4096)

/-- A frame and a request's route entry are of one translation: the home, CACHE and the permissions agree (R143). -/
def agree (q : Req) (fr : FrameE) : Prop :=
  fr.home = q.home ∧ fr.cache = q.cache ∧ (q.acc.r → fr.acc.r) ∧ (q.acc.w → fr.acc.w) ∧ (q.acc.x → fr.acc.x)

/-- The home of a request's granule does not answer: it is in reset, or the granule is mid-migration (R127). -/
def silent (s : State) (q : Req) (fr : FrameE) : Bool := s.homeDown q.home q.pid (fr.pa + q.gran * 128 % (if fr.big then 2 ^ 21 else 4096))

/-- The request is translated to the home it has come to, which answers, and its line is neither poisoned nor in error, under the key through which it is accessed. -/
def readyLine (s : State) (q : Req) (fr : FrameE) : Prop :=
  agree q fr ∧ fr.sla % 128 = 0 ∧ silent s q fr = false ∧
  s.keyOf q.home fr.key = some (cget 0 s.lineKey (lineAt q.home (slaOf q fr))) ∧
  cget false s.poison (lineAt q.home (slaOf q fr)) = false ∧ cget 0 s.errs (lineAt q.home (slaOf q fr)) = 0

/-- The request's answer is on its way: at its own core, or as a response from another slice. -/
def answered (q : Req) (t : State) (r : Req) : Prop := if q.home = q.slice then r.st = .done else ∃ m x, r.st = .back m ∧ tget t.msgs m = some x ∧ x.dst = q.slice

/-- The event performs the request: it reads and writes the bytes of its granule, lane after lane, and no other byte. -/
def Performs (i : Instr) (s : State) (rid : Nat) (q : Req) (fr : FrameE) : Prop :=
  let at' := cell q.home (slaOf q fr)
  let r := granSeq (q.gran * 128) q.lanes (cgets 0 s.mem at' 128)
  ∃ t q', exec i s = .next t ∧ tget t.reqs rid = some q' ∧ answered q t q' ∧ (q'.lanes, q'.b, q'.g, q'.pend) = (q.lanes, q.b, q.g, q.pend) ∧
    (q.fullLine = false → (q'.vals, q'.fl) = r.2) ∧ t.blocks = s.blocks ∧
    (∀ a, ¬(at' ≤ a ∧ a < at' + 128) → cget 0 t.mem a = cget 0 s.mem a) ∧
    ∀ k, k < 128 → cget 0 t.mem (at' + k) = if q.writes then r.1.getD k 0 else cget 0 s.mem (at' + k)

/-- It is a request's turn: requests of a core to one granule come in order, numbered writes in the order of their numbers (R131, R140). -/
def itsTurn (s : State) (rid : Nat) (q : Req) : Prop :=
  s.first rid q Req.before = true ∧ ∀ n, q.num = some n → n = (cget 0 s.stApplied (stKey 0 q.slice q.home) + 1) % 2 ^ 32

/-- The request is the first of its core to its granule, its frame and stamp are met, and the frame is of its translation. -/
def atItsHome (s : State) (rid : Nat) (q : Req) (fr : FrameE) : Prop :=
  tget s.reqs rid = some q ∧ q.st = .atHome ∧ itsTurn s rid q ∧ s.frameFind q.home (vdTag q.vd (q.gran * 128)) (q.gran * 128) = some fr ∧
  s.stampMet q.home q.stamp ∧ agree q fr

/-- The answer on its way, of the request as it came. -/
def answersWith (s t : State) (rid : Nat) (q : Req) : Prop :=
  t.mem = s.mem ∧ ∃ q', tget t.reqs rid = some q' ∧ answered q t q' ∧ (q'.lanes, q'.b, q'.g, q'.pend) = (q.lanes, q.b, q.g, q.pend)

/-- What `cline` does (R155): `.inv` drops the granule from the issuing core's L1 and the issuing slice's near ways; `.wb` leaves the home's line with no
older data below it in DRAM; `.evict` drops it from the home bank, and from the L1s and near ways of the issuing slice. -/
def lineDone (op : ClineOp) (q : Req) (s t : State) : Prop :=
  let tag := vdTag q.vd (q.gran * 128)
  let line (y : SLine) : Bool := y.vd == tag && y.gran == q.gran
  (∀ k, (t.core k).l1 = if (op = .inv ∧ k = coreKey q.slice q.core) ∨ (op = .evict ∧ k / 4 = q.slice) then
      (s.core k).l1.filter fun x => !(x.vd == tag && x.gran == q.gran) else (s.core k).l1) ∧
  ∀ k, (t.slice k).scache =
    let l := (s.slice k).scache
    let l := if op = .wb ∧ k = q.home then l.map fun y => if line y && y.near.isNone then { y with old := none } else y else l
    let l := if op = .evict ∧ k = q.home then l.filter fun y => !(line y && y.near.isNone) else l
    if op ≠ .wb ∧ k = q.slice then l.filter fun y => !(y.near.isSome && line y) else l

end Sys2Proof.Claims

/-- R131, R132, R140, R143, R146, R147, R155, R322, R330: a request at its home: without a frame it asks for a walk, with an unmet stamp it waits, with a
frame of another translation it asks for the route again (DEDUCED, log entry 83), else it is performed; a line operation and the entries of an ordered
atomic, which spill beyond 2,048 of a bank and stay out where the spill area has no room for all, take effect there; a home that does not answer, and a
line in error, end it with their status. -/
def Obligations.RequestsAtTheHome : Prop :=
  (∀ s rid q, tget s.reqs rid = some q → q.st = .atHome → itsTurn s rid q → s.frameFind q.home (vdTag q.vd (q.gran * 128)) (q.gran * 128) = none →
    (s.walks.map Prod.fst).Nodup →
    ∃ t w x, exec (.homeRequestArrival rid) s = .next t ∧ t.mem = s.mem ∧ t.blocks = s.blocks ∧ tget t.reqs rid = some { q with st := .frame w } ∧
      tget t.walks w = some x ∧ x.what = .frame rid ∧ (x.slice, x.vd, x.va / 4096) = (q.home, q.vd, q.gran * 128 / 4096)) ∧
  (∀ s rid q fr, tget s.reqs rid = some q → q.st = .atHome → itsTurn s rid q → s.frameFind q.home (vdTag q.vd (q.gran * 128)) (q.gran * 128) = some fr →
    s.stampMet q.home q.stamp = false → exec (.homeRequestArrival rid) s = .next { s with reqs := tput s.reqs rid { q with st := .stamped } }) ∧
  (∀ s rid q fr, s.mem.wf → tget s.reqs rid = some q → q.st = .atHome → itsTurn s rid q →
    s.frameFind q.home (vdTag q.vd (q.gran * 128)) (q.gran * 128) = some fr → s.stampMet q.home q.stamp → plain q → readyLine s q fr →
    Performs (.homeRequestArrival rid) s rid q fr) ∧
  (∀ s rid q fr, s.mem.wf → tget s.reqs rid = some q → q.st = .stamped → s.frameFind q.home (vdTag q.vd (q.gran * 128)) (q.gran * 128) = some fr →
    s.stampMet q.home q.stamp → plain q → readyLine s q fr → Performs (.stampedMessagePerform rid) s rid q fr) ∧
  (∀ s rid q fr, tget s.reqs rid = some q → q.st = .atHome → itsTurn s rid q → s.frameFind q.home (vdTag q.vd (q.gran * 128)) (q.gran * 128) = some fr →
    s.stampMet q.home q.stamp → plain q → q.fullLine = false → agree q fr → s.heldFull q.home = false → cget false s.poison (lineAt q.home (slaOf q fr)) = true → q.home ≠ q.slice →
    silent s q fr = false →
    ∃ t q' m, exec (.homeRequestArrival rid) s = .next t ∧ t.mem = s.mem ∧ tget t.reqs rid = some q' ∧ q'.st = .failBack m { kind := .poison }) ∧
  (∀ s rid q fr, atItsHome s rid q fr → silent s q fr → q.home ≠ q.slice →
    ∃ t q' m, exec (.homeRequestArrival rid) s = .next t ∧ t.mem = s.mem ∧ tget t.reqs rid = some q' ∧ q'.st = .failBack m { kind := .home }) ∧
  (∀ s rid q fr o op, atItsHome s rid q fr → silent s q fr = false → q.lanes = [o] → o.op = .line op → q.num = none →
    ∃ t, exec (.homeRequestArrival rid) s = .next t ∧ answersWith s t rid q ∧ lineDone op q s t) ∧
  (∀ s rid q fr b, atItsHome s rid q fr → silent s q fr = false → q.lanes ≠ [] → (∀ o ∈ q.lanes, ∃ x who n, o.op = .ord x who n) → q.num = none → tget s.blocks q.b = some b →
    let mine (e : OrdEnt) : Bool := e.home == q.home && e.bank == bankOf (q.gran * 128) && !e.spilled
    let held := (s.ordq.filter mine).length
    let place (i : Nat) (o : LOp) (e : OrdEnt) : Prop := ∃ x who n, o.op = .ord x who n ∧
      (e.home, e.sla, e.key, e.bank, e.pid, e.vd) = (q.home, slaOf q fr + o.va % 128, fr.key, bankOf (q.gran * 128), q.pid, q.vd) ∧
      (e.launch, e.va, e.x, e.blk, e.who, e.n, e.spilled) = (b.launch, o.va, x, b.idx, who, n, decide (2048 ≤ held + i))
    let room := ((tget s.parts q.pid).map Part.spillSize).getD 0 / 32
    let more := held + q.lanes.length - 2048
    let fits := more = 0 ∨ (s.ordq.filter fun e => e.pid == q.pid && e.spilled).length + more ≤ room
    (fits → ∃ t q' es, exec (.homeRequestArrival rid) s = .next t ∧ tget t.reqs rid = some q' ∧ answered q t q' ∧ (more = 0 → t.mem = s.mem) ∧
      t.ordq = s.ordq ++ es ∧ es.length = q.lanes.length ∧ ∀ (i : Nat) o, q.lanes[i]? = some o → ∃ e, es[i]? = some e ∧ place i o e) ∧
    (¬fits → q.home ≠ q.slice → ∃ t q' m, exec (.homeRequestArrival rid) s = .next t ∧ t.mem = s.mem ∧ t.ordq = s.ordq ∧ tget t.reqs rid = some q' ∧
      q'.st = .failBack m { kind := .home, ordq := true })) ∧
  (∀ s rid q fr, tget s.reqs rid = some q → q.st = .atHome → itsTurn s rid q → s.frameFind q.home (vdTag q.vd (q.gran * 128)) (q.gran * 128) = some fr →
    s.stampMet q.home q.stamp → ¬agree q fr → (s.walks.map Prod.fst).Nodup →
    ∃ t w x, exec (.homeRequestArrival rid) s = .next t ∧ t.mem = s.mem ∧ t.blocks = s.blocks ∧
      tget t.reqs rid = some { q with st := .walk w, num := none, stamp := [] } ∧ tget t.walks w = some x ∧ x.what = .tlb q.b q.core ∧
      (x.slice, x.vd, x.va / 4096) = (q.slice, q.vd, q.gran * 128 / 4096))

namespace Sys2Proof.Claims

/-- The register writes of a load's or an atomic's values (R149 to R151). -/
def regWrites (d : Dst) (vals : List (Nat × Nat)) : List Wr :=
  vals.flatMap fun e => match d with
    | .none => []
    | .vec r ty => toV ty r e.1 (readAs ty e.2)
    | .scl r ty => [.s r (BitVec.ofInt 64 (readAs ty e.2))]
    | .bcast r ty mask => (lanes mask).flatMap fun l => toV ty r l (readAs ty e.2)

/-- A request's answer is taken at its core: its values are written, and with its last lane the instruction completes. -/
def Retires (i : Instr) (s : State) (rid : Nat) (r : Req) : Prop :=
  ∀ gr p m, r.st = .done → s.first rid r (fun _ => true) → GroupAt s r.b r.g gr → tget gr.pend r.pend = some p → p.kind = .mem m → p.wr = [] → p.fl = 0 →
    let w := (regWrites m.dst r.vals).foldl Group.put gr
    ∃ t gr', exec i s = .next t ∧ t.mem = s.mem ∧ tget t.reqs rid = none ∧
      (∀ k, k ≠ rid → (tget t.reqs k).map (fun q => { q with fill := true }) = (tget s.reqs k).map fun q => { q with fill := true }) ∧
      GroupAt t r.b r.g gr' ∧ (∀ k, k ≠ r.b → tget t.blocks k = tget s.blocks k) ∧
      (gr'.v, gr'.s, gr'.p, gr'.flags) = (w.v, w.s, w.p, gr.flags ||| r.fl) ∧
      ((∀ e ∈ s.reqs, e.1 ≠ rid → ¬(e.2.b = r.b ∧ e.2.g = r.g ∧ e.2.pend = r.pend)) → (∀ o ∈ m.lanes, o.va / 128 = r.gran ∧ o ∈ r.lanes) →
        gr'.pend = tdel gr.pend r.pend ∧ gr'.tillers = gr.tillers.map (windowClosed r.pend)) ∧
      ((∃ e ∈ s.reqs, e.1 ≠ rid ∧ e.2.b = r.b ∧ e.2.g = r.g ∧ e.2.pend = r.pend) → gr'.tillers = gr.tillers ∧
        ∃ left, gr'.pend = tput gr.pend r.pend { p with kind := .mem { m with lanes := left } } ∧
          ∀ o, o ∈ left ↔ o ∈ m.lanes ∧ ¬(o.va / 128 = r.gran ∧ ∃ q ∈ r.lanes, q.lane = o.lane))

end Sys2Proof.Claims

/-- R83, R86, R123, R149, R150, R155: the answers of loads, stores, atomics and prefetches, and the end of a wait for request slots. -/
def Obligations.AnswersToTheCore : Prop :=
  (∀ s rid r, tget s.reqs rid = some r → r.reads → Retires (.loadDataReturn rid) s rid r) ∧
  (∀ s rid r, tget s.reqs rid = some r → r.reads = false → r.atoms = false → Retires (.writeAcknowledge rid) s rid r) ∧
  (∀ s rid r, tget s.reqs rid = some r → r.atoms → Retires (.atomicResultReturn rid) s rid r) ∧
  (∀ s rid r, tget s.reqs rid = some r → r.st = .done → r.reads → r.pref.isSome → s.first rid r (fun _ => true) → s.flight r.b r.g r.pend = none →
    ∃ t, exec (.loadDataReturn rid) s = .next t ∧ tget t.reqs rid = none ∧ t.mem = s.mem ∧ t.blocks = s.blocks) ∧
  (∀ s b g k gr (u : Tiller), GroupAt s b g gr → gr.tillers[k]? = some u → u.st = .waiting →
    ∃ t, exec (.requestSlotWaitEnd b g k) s = .next t ∧ GroupBecomes s t b g { gr with tillers := listSet gr.tillers k { u with st := .ready } })

namespace Sys2Proof.Claims

/-- The walk is among the 16 that its slice has in flight. -/
def inFlight (s : State) (w : Nat) (x : Walk) : Prop := (s.walks.filter fun e => e.2.slice == x.slice && decide (e.1 < w)).length < 16

end Sys2Proof.Claims

/-- R115, R120 to R122, R318, R320, R322: translation of an address, its checks, and the end of a walk of the tables.
R115, R318, R320, R423: translation: an address that is not canonical is cause 1 of the first stage; the second stage of VD 0 is the identity; a first-stage root that is not Sv57 is cause 1, the partition-global range
without leave cause 4; a leaf denies what it does not permit (cause 2) before its A and D bits (cause 3).
R120 to R122, R320, R322: a walk ends: its translation enters the set of the route TLB that the block's range and the page give, with G for the
partition-global range, and the requests that waited go on, or the home's frame cache; one that fails parks the tiller of the request that waited
(FAULT_PARK, R125) and is reported, or answers the request at the home with the fault. -/
def Obligations.TranslationAndWalks : Prop :=
  (
    (∀ (s : State) slice map ctx gpa acc, s.walk2 slice map 0 ctx gpa acc = (s, .ok { pa := gpa, level := 4, acc := { r := true, w := true, x := true }, pbmt := 0, ksel := 0 })) ∧
    (∀ (s : State) slice map vd (ctx : VdCtx) gpa acc, vd ≠ 0 → ctx.s2root / 2 ^ 60 ≠ 10 →
      s.walk2 slice map vd ctx gpa acc = (s, .error { kind := .stage2, cause := 1, gpa := gpa, level := 4 })) ∧
    (∀ (s : State) slice pid vd va acc p (c : VdCtx), tget s.parts pid = some p → va.testBit 56 = false → tget p.vds vd = some c → c.s1root / 2 ^ 60 ≠ 10 →
      s.walkVa slice pid vd va acc = (s, .error { kind := .stage1, cause := 1 })) ∧
    (∀ (s : State) slice pid vd va acc p (c : VdCtx), tget s.parts pid = some p → va.testBit 56 = true → tget p.vds vd = some c → c.glob = false → canonical va →
      s.walkVa slice pid vd va acc = (s, .error { kind := .stage1, cause := 4 })) ∧
    (∀ (s : State) slice pid vd va acc, canonical va = false → s.walkVa slice pid vd va acc = (s, .error { kind := .stage1, cause := 1 })) ∧
    (∀ (e : Pte) (a : Acc),
      (e.deny a = some 2 ↔ (e.u = false ∧ a.sup = false) ∨ (a.r ∧ e.r = false) ∨ (a.w ∧ e.w = false) ∨ (a.x ∧ e.x = false)) ∧
      (e.deny a = some 3 ↔ e.deny a ≠ some 2 ∧ (e.a = false ∨ (a.w ∧ e.d = false))) ∧
      (e.deny a = none ↔ (e.u ∨ a.sup) ∧ (a.r → e.r) ∧ (a.w → e.w ∧ e.d) ∧ (a.x → e.x) ∧ e.a)) ∧
    (∀ va : Nat, canonical va = true ↔ va / 2 ^ 56 % 2 ^ 8 = 0 ∨ va / 2 ^ 56 % 2 ^ 8 = 255)) ∧
  (
    (∀ s w x blk core s' xl base k, tget s.walks w = some x → inFlight s w x → x.what = .tlb blk core → s.fullWalk x.slice x.pid x.vd x.va x.acc = (s', .ok xl) →
      tlbRange (s'.core (coreKey x.slice core)).tblk blk = some (base, k) →
      ∃ t e, exec (.walkComplete w) s = .next t ∧ t.mem = s'.mem ∧ tget t.walks w = none ∧ e ∈ (t.core (coreKey x.slice core)).tlb ∧
        e = { blk := blk, set := base + tlbSet k x.va xl.big, vd := x.vd, vpn := if xl.big then x.va / 2 ^ 21 else x.va / 4096, big := xl.big, home := xl.home, acc := xl.acc,
              cache := xl.cache, key := xl.key, glob := x.va.testBit 56 } ∧
        ∀ rid r, tget s.reqs rid = some r → r.st = .walk w → (∀ e ∈ s.reqs, e.1 = rid → e.2.pref = none) → ∃ r', tget t.reqs rid = some r' ∧ r'.home = xl.home ∧ ∀ k, r'.st ≠ .walk k) ∧
    (∀ s w x rid q s' xl, tget s.walks w = some x → inFlight s w x → x.what = .frame rid → tget s.reqs rid = some q →
      s.fullWalk x.slice x.pid x.vd x.va x.acc = (s', .ok xl) → (tget s'.slices x.slice).isSome →
      ∃ t e, exec (.walkComplete w) s = .next t ∧ t.mem = s'.mem ∧ tget t.walks w = none ∧ tget t.reqs rid = some { q with st := .atHome } ∧
        e ∈ (t.slice x.slice).fcache ∧ e.vd = vdTag x.vd x.va ∧ e.vpn = (if xl.big then x.va / 2 ^ 21 else x.va / 4096) ∧ e.key = xl.key ∧
        (e.home, e.big, e.acc, e.cache) = (xl.home, xl.big, xl.acc, xl.cache) ∧
        e.sla + x.va % (if xl.big then 2 ^ 21 else 4096) = max xl.sla (x.va % (if xl.big then 2 ^ 21 else 4096))) ∧
    (∀ s w x blk core s' f rid r b gr p m u, tget s.walks w = some x → inFlight s w x → x.what = .tlb blk core → s.fullWalk x.slice x.pid x.vd x.va x.acc = (s', .error f) →
      s'.unreported x.slice x.pid x.vd f = false → (s.reqs.filter fun e => e.2.st == .walk w) = [(rid, r)] → tget s.reqs rid = some r →
      (∀ e ∈ s.reqs, e.2.b = r.b → e.2.g = r.g → e.2.pend = r.pend → e.1 = rid) → tget s.blocks r.b = some b → b.fail = none → b.cancelled = false →
      b.groups[r.g]? = some gr → tget gr.pend r.pend = some p → p.kind = .mem m → m.faults = [] → m.lanes ≠ [] → gr.tillers[p.slot]? = some u →
      u.st = .longWait (.on r.pend) →
      ∃ t token gr', exec (.walkComplete w) s = .next t ∧ tget t.walks w = none ∧ tget t.reqs rid = none ∧ GroupAt t r.b r.g gr' ∧
        gr'.tillers[p.slot]? = some { u with st := .longWait (.parked r.pend) } ∧
        tget gr'.pend r.pend = some { p with kind := .mem { m with faults := [{ va := (r.lanes.map LOp.va).headD (r.gran * 128), f := f, token := token }] } } ∧
        ∃ q, tget t.reports (token - 1) = some q ∧ (q.slice, q.pid, q.vd, q.va, q.acc) = (x.slice, r.pid, r.vd, (r.lanes.map LOp.va).headD (r.gran * 128), r.acc)) ∧
    (∀ s w x rid q s' f, tget s.walks w = some x → inFlight s w x → x.what = .frame rid → tget s.reqs rid = some q →
      s.fullWalk x.slice x.pid x.vd x.va x.acc = (s', .error f) → s.unreported x.slice x.pid x.vd f = false → q.home ≠ q.slice →
      ∃ t q' m, exec (.walkComplete w) s = .next t ∧ tget t.walks w = none ∧ tget t.reqs rid = some q' ∧ q'.st = .failBack m f))

namespace Sys2Proof.Claims

/-- No older message of a message's class from its source to its destination is on its way (R18). -/
def noneAhead (s : State) (m : Nat) (x : Msg) : Prop := ∀ e ∈ s.msgs, e.1 < m → ¬(e.2.cls = x.cls ∧ e.2.src = x.src ∧ e.2.dst = x.dst)

/-- The tiller that is to fetch: Ready, its block resident and not failed, its next instruction not in the cache. -/
def toFetch (s : State) (b g k : Nat) (bl : Block) (gr : Group) (u : Tiller) : Prop :=
  tget s.blocks b = some bl ∧ bl.groups[g]? = some gr ∧ gr.tillers[k]? = some u ∧ u.st = .ready ∧ bl.res = .resident ∧ bl.fail = none ∧
  s.icFind bl.slice bl.core bl.vd u.pc = none

end Sys2Proof.Claims

/-- R18 to R21, R41, R52, R80, R125, R127, R128: messages between slices, instruction fetch, replay of parked accesses, exchange of groups.
R18 to R21, R127: messages move to the next slice of their route when none of their class, source and destination is ahead, into its shared pool
or else their class's escape buffer, where there is room, and arrive: responses end their requests, requests are refused by a slice in reset or
its firewall, or reach their home; a refused core drops its route entries and the access fails.
R41, R52, R80, R125, R128: a fetch block enters the cache, or its fault parks the tiller and is reported; parked accesses whose faults are answered
are repeated; a group ready for 1,024 clocks takes the place of the one that issued least recently. -/
def Obligations.MessagesFetchAndReplay : Prop :=
  (
    (∀ s m x, tget s.msgs m = some x → x.pos ≠ x.dst → noneAhead s m x →
      x.cls = .rsp → nextHop x.pos x.dst = x.dst →
      exec (.fabricHop m) s = .next { s with msgs := tput s.msgs m { x with pos := x.dst, port := x.pos, esc := false } }) ∧
    (∀ s m x, tget s.msgs m = some x → x.pos ≠ x.dst → noneAhead s m x →
      (s.msgs.filter fun e => e.2.pos == nextHop x.pos x.dst && e.2.port == x.pos && e.1 != m && !e.2.esc).length < Config.hopPool →
      exec (.fabricHop m) s = .next { s with msgs := tput s.msgs m { x with pos := nextHop x.pos x.dst, port := x.pos, esc := false } }) ∧
    (∀ s m x, tget s.msgs m = some x → x.pos ≠ x.dst → ¬noneAhead s m x → exec (.fabricHop m) s = .next s) ∧
    (∀ s m x, tget s.msgs m = some x → ¬noneAhead s m x → exec (.edgeMessageArrival m) s = .next s) ∧
    (∀ s m x, tget s.msgs m = some x → x.pos ≠ x.dst → noneAhead s m x → ¬(x.cls = .rsp ∧ nextHop x.pos x.dst = x.dst) →
      Config.hopPool ≤ (s.msgs.filter fun e => e.2.pos == nextHop x.pos x.dst && e.2.port == x.pos && e.1 != m && !e.2.esc).length →
      let taken := ∃ e ∈ s.msgs, e.1 ≠ m ∧ e.2.pos = nextHop x.pos x.dst ∧ e.2.port = x.pos ∧ e.2.esc = true ∧ e.2.cls = x.cls
      (taken → exec (.fabricHop m) s = .next s) ∧
      (¬taken → exec (.fabricHop m) s = .next { s with msgs := tput s.msgs m { x with pos := nextHop x.pos x.dst, port := x.pos, esc := true } })) ∧
    (∀ s m x r k, tget s.msgs m = some x → x.pos = x.dst → noneAhead s m x → x.cls = .rsp → tget s.reqs x.req = some r → r.st = .back k →
      ∃ t, exec (.edgeMessageArrival m) s = .next t ∧ tget t.msgs m = none ∧ t.mem = s.mem ∧ tget t.reqs x.req = some { r with st := .done }) ∧
    (∀ s m x r, tget s.msgs m = some x → x.pos = x.dst → noneAhead s m x → x.cls ≠ .rsp → tget s.reqs x.req = some r → (s.slice x.dst).inReset = false → s.admits x.dst x.pid →
      ∃ t, exec (.edgeMessageArrival m) s = .next t ∧ tget t.msgs m = none ∧ t.mem = s.mem ∧ tget t.reqs x.req = some { r with st := .atHome }) ∧
    (∀ s m x r, tget s.msgs m = some x → x.pos = x.dst → noneAhead s m x → x.cls ≠ .rsp → tget s.reqs x.req = some r → (s.slice x.dst).inReset →
      ∃ t k, exec (.edgeMessageArrival m) s = .next t ∧ t.mem = s.mem ∧ tget t.reqs x.req = some { r with st := .failBack k { kind := .home } }) ∧
    (∀ s m x r, tget s.msgs m = some x → x.pos = x.dst → noneAhead s m x → x.cls ≠ .rsp → tget s.reqs x.req = some r → (s.slice x.dst).inReset = false → ¬s.admits x.dst x.pid →
      ∃ t k, exec (.edgeMessageArrival m) s = .next t ∧ tget t.reqs x.req = some { r with st := .failBack k { kind := .firewall, home := x.dst } }) ∧
    (∀ s rid r f c, tget s.reqs rid = some r → r.st = .refused f → (∀ b g p m, s.flight r.b r.g r.pend = some (b, g, p, m) → m.lanes ≠ []) →
      tget s.cores (coreKey r.slice r.core) = some c →
      ∃ t, exec (.firewallStatusReceived rid) s = .next t ∧ tget t.reqs rid = none ∧
        tget t.cores (coreKey r.slice r.core) =
          some { c with tlb := c.tlb.filter fun e => !(e.blk = r.b ∧ e.vpn = if e.big then r.gran * 128 / 2 ^ 21 else r.gran * 128 / 4096) })) ∧
  (
    (∀ s b g k bl gr u s' w, toFetch s b g k bl gr u → canonical u.pc → s.codeBlock bl.slice bl.pid bl.vd u.pc (some ⟨bl.core, b⟩) = (s', .ok w) →
      (tget s'.cores (coreKey bl.slice bl.core)).isSome →
      ∃ t, exec (.instructionCacheFill b g k) s = .next t ∧ t.mem = s'.mem ∧ t.blocks = s'.blocks ∧
        { vd := vdTag bl.vd u.pc, blk := u.pc / 32, words := w } ∈ (t.core (coreKey bl.slice bl.core)).ic) ∧
    (∀ s b g k bl gr u s' f, toFetch s b g k bl gr u → canonical u.pc → s.codeBlock bl.slice bl.pid bl.vd u.pc (some ⟨bl.core, b⟩) = (s', .error f) →
      s'.unreported bl.slice bl.pid bl.vd f = false →
      ∃ t token gr', exec (.instructionFetchFault b g k) s = .next t ∧ GroupAt t b g gr' ∧
        gr'.tillers[k]? = some { u with st := .longWait (.fetch [{ va := u.pc / 32 * 32, f := f, token := token }]) } ∧ ∃ r, tget t.reports (token - 1) = some r) ∧
    (∀ s b g k bl gr u, toFetch s b g k bl gr u → canonical u.pc = false →
      exec (.instructionFetchFault b g k) s = .next (s.failBlock b { kind := 4, detail := 0x30, va := u.pc, pc := u.pc, lane := lowLane u.mask, acc := 4 })) ∧
    (∀ s b g k bl gr u fs, tget s.blocks b = some bl → bl.groups[g]? = some gr → gr.tillers[k]? = some u → bl.res = .resident → bl.fail = none →
      u.st = .longWait (.fetch fs) → (∀ f ∈ fs, f.resolved) →
      ∃ t, exec (.parkedReplay b g k) s = .next t ∧ GroupBecomes s t b g { gr with tillers := listSet gr.tillers k { u with st := .ready } }) ∧
    (∀ s b g k bl gr u id p m, tget s.blocks b = some bl → bl.groups[g]? = some gr → gr.tillers[k]? = some u → bl.res = .resident → bl.fail = none →
      gr.pend = [(id, p)] → p.kind = .mem m → p.slot = k → u.st = .longWait (.parked id) → m.faults ≠ [] → (∀ f ∈ m.faults, f.resolved) →
      (∀ q ∈ s.reqs, ¬(q.2.b = b ∧ q.2.g = g ∧ q.2.pend = id)) → s.slotsFor bl (granules m.lanes).length →
      ∃ (t : State) (gr' : Group) (acc : Bool), exec (.parkedReplay b g k) s = .next t ∧ t.mem = s.mem ∧ GroupAt t b g gr' ∧ (acc = true → m.posted ∧ m.accepted = false) ∧
        gr'.pend = [(id, if acc then { p with marks := [], kind := .mem { m with faults := [], accepted := true } } else { p with kind := .mem { m with faults := [] } })] ∧
        gr'.tillers = (let l := listSet gr.tillers k { u with st := .longWait (.on id) }; if acc then l.map woken else l) ∧
        ∀ n ∈ m.lanes.map fun o => o.va / 128, ∃ rid r, s.nextId ≤ rid ∧ tget t.reqs rid = some r ∧ r.pend = id ∧ r.gran = n ∧
          r.lanes = m.lanes.filter fun o => o.va / 128 = n) ∧
    (∀ s q k inn out, tget s.quarters q = some k → inn ∈ s.quarterGroups q → out ∈ s.quarterGroups q → k.act.contains (some (out.1, out.2.1)) →
      pendingReady k.act (s.quarterGroups q) = [inn] → (∃ at', inn.2.2.readySince = some at' ∧ 
        1024 * 1000 ≤ (s.slice (q / 16)).clk + (s.now - (s.slice (q / 16)).clkAt) * s.mhz (q / 16) - at') →
      (∀ x ∈ s.quarterGroups q, k.act.contains (some (x.1, x.2.1)) → x ≠ out → out.2.2.lastIssue < x.2.2.lastIssue) →
      exec (.pendingReadyTimeout q) s = .next { s with quarters := tput s.quarters q { k with
        act := k.act.map fun e => if e = some (out.1, out.2.1) then some (inn.1, inn.2.1) else e } }))

/-! ### The copy engine (R183 to R208) -/

/-- R190: where a layout places the byte of row r and column c; a tiled layout, whose tiles must divide the region, places the bytes of the region one
to one onto as many bytes from its base on; a pitched one at base + r * pitch + c. -/
def Obligations.LayoutsAreOneToOne : Prop :=
  (∀ (base r c rows rb pitch : Nat) (l : Layout), layAddr base r c rows rb pitch l =
    (let th := 2 ^ l.thl.val
     let tw := 16 * 2 ^ l.twl.val
     if l.outer.val = 2 then base + r * pitch + c
     else base + (if l.outer.val = 0 then r / th * (rb / tw) + c / tw else c / tw * (rows / th) + r / th) * (th * tw) + r % th * tw +
       16 * ((c % tw / 16 + (if l.swz.val = 0 then 0 else if l.swz.val = 1 then r % th else r % th / 2)) % (tw / 16)) + c % 16)) ∧
  (∀ (rows rb : Nat) (l : Layout), layFits rows rb l ↔ l.outer.val = 2 ∨ (16 * 2 ^ l.twl.val ∣ rb ∧ 2 ^ l.thl.val ∣ rows)) ∧
  ∀ (base rows rb pitch : Nat) (l : Layout), layFits rows rb l → l.outer.val ≠ 2 →
    (∀ r c, r < rows → c < rb → base ≤ layAddr base r c rows rb pitch l ∧ layAddr base r c rows rb pitch l < base + rows * rb) ∧
    ∀ n, n < rows * rb → ∃! p : Nat × Nat, p.1 < rows ∧ p.2 < rb ∧ layAddr base p.1 p.2 rows rb pitch l = base + n

namespace Sys2Proof.Claims

/-- The copy that an instruction issues: its scalars are read once (R184). -/
def issuedCopy (x : Ex) (o : CpyOp) (c : Option SReg) (kind : CpKind) (hint : Hint) : Copy :=
  { b := x.c.b, g := x.c.g, kind := kind, d := (x.g.sget o.d.val).toNat, a := (x.g.sget o.a.val).toNat, e := (x.g.sget o.b.val).toNat
    c := match c with
      | some r => (x.g.sget r.val).toNat
      | none => 0
    arv := o.arv.map BitVec.toNat, hint := hint, lane := lowLane (x.guard o.h), after := x.g.nextPend }

/-- The copy joins the open sheaf; one that fails its checks at issue is Failed with its cause, place and first byte (R184, R197, R199). -/
def copyJoined (i : Instr) (x : Ex) (k : Copy) : Ex :=
  let k := match k.issueCheck x.b with
    | some (cause, whr, addr) => { k with st := .failed, cause := cause, whr := whr, addr := addr }
    | none => k
  { x with
    s := { x.s with nextId := x.s.nextId + 1, copies := tput x.s.copies x.s.nextId k }
    g := { x.g with openSheaf := x.g.openSheaf ++ [x.s.nextId], flash := { x.g.flash with dirty := x.g.flash.dirty || k.arv.isSome } }
    t := nextT i x }

/-- R183 to R185: a copy instruction: the copy-rights traps, the wait for a descriptor, and the copy. -/
def CopyRow (i : Instr) (o : CpyOp) (k : Ex → Copy) (ok : Ex → Prop) : Prop :=
  ∀ s x, Issues i s x → ok x →
    (x.g.producer = false → Traps i s x 0x10 1) ∧
    (x.g.producer → x.guard o.h = 0 → Passes i s x x.t.mode) ∧
    (x.g.producer → x.guard o.h ≠ 0 → 256 ≤ x.g.openSheaf.length → Traps i s x 0x10 2) ∧
    (x.g.producer → x.guard o.h ≠ 0 → x.g.openSheaf.length < 256 → x.s.descFree x.c.b = false →
      exec i s = .next { x with t := { x.t with st := .waiting } }.close) ∧
    (x.g.producer → x.guard o.h ≠ 0 → x.g.openSheaf.length < 256 → x.s.descFree x.c.b → ∃ t, exec i s = .next t ∧ Holds t (copyJoined i x (k x)))

/-- The geometry that every copy needs (R191), and what else its kind does: a layout that divides the region, whole values of a fill, halves. -/
def goodGeometry (k : Copy) : Prop :=
  k.rows ≠ 0 ∧ k.rb ≠ 0 ∧
  match k.kind with
  | .cpy _ _ lay => layFits k.rows k.rb lay
  | .cgath _ lay => layFits k.rows k.rb lay
  | .cfill _ t => k.rb % fillBytes t = 0 ∧ k.d % fillBytes t = 0 ∧ k.c % fillBytes t = 0
  | .wb .split => k.rb % 2 = 0
  | .rcpy _ _ dp => k.rows = 1 ∨ k.rb ≤ dp
  | _ => True

/-- A place of a copy lies within the block's local memory or weight buffers. -/
def inside (b : Block) : Loc → Prop
  | .glob _ => True
  | .loc o => o < b.localSz
  | .wbL o => b.isTile ∧ o < b.wbSz
  | .wbF o => b.isTile ∧ o < b.wbSz

/-- The arrival object of a `seal`, if any, lies within local memory at a multiple of 8. -/
def goodObject (x : Ex) (arv : Option SReg) : Prop := ∀ a, arv = some a → (x.g.sget a.val).toNat % 2 ^ 32 % 8 = 0 ∧ (x.g.sget a.val).toNat % 2 ^ 32 + 8 ≤ x.b.localSz

end Sys2Proof.Claims

/-- R183 to R186, R190, R191, R197, R199, R201 to R208: issuing copies, sealing sheaves and waiting for them.
R183 to R185, R190, R191, R197, R199, R201 to R205: the copy instructions and their checks at issue; that a bad geometry is recorded before what else
fails is the model's choice (log entry 86).
R186, R206: `seal` numbers the open sheaf and opens an empty one; the sheaf is outstanding while a copy of it is unfinished. R207, R208: `cwait` and
`cstat`, whose reads are of a group outside record and replay mode. -/
def Obligations.CopiesIssueAndSheaves : Prop :=
  (
    (∀ o c srclay dir hint lay, CopyRow (.cpy o c srclay dir hint lay) o (fun x => issuedCopy x o (some c) (.cpy srclay dir lay) hint) fun _ => True) ∧
    (∀ o half hint, CopyRow (.cpyWb o half hint) o (fun x => issuedCopy x o none (.wb half) hint) fun _ => True) ∧
    (∀ o c glob ty, CopyRow (.cfill o c glob ty) o (fun x => issuedCopy x o (some c) (.cfill glob ty) .none) fun _ => True) ∧
    (∀ o c glob hint lay, CopyRow (.cgath o c glob hint lay) o (fun x => issuedCopy x o (some c) (.cgath glob lay) hint) fun _ => True) ∧
    (∀ o dir esz hint, CopyRow (.cpya o dir esz hint) o (fun x => issuedCopy x o none (.cpya dir esz) hint) fun x => x.b.maint = true) ∧
    (∀ o dir esz hint s x, Issues (.cpya o dir esz hint) s x → x.b.maint = false → Traps (.cpya o dir esz hint) s x 2 0) ∧
    (∀ (k : Copy) (b : Block), (∀ d z, k.kind ≠ .cpya d z) →
      (¬goodGeometry k → ∃ w a, k.issueCheck b = some (5, w, a)) ∧
      (goodGeometry k → (∀ d l, k.kind ≠ .cgath d l) → k.arv = none →
        (k.issueCheck b = none ↔ ∀ x, x < k.rows * k.rb → inside b (k.dstAt x) ∧ ∀ l, k.srcAt x = some l → inside b l)) ∧
      (∀ o, goodGeometry k → (∀ x, x < k.rows * k.rb → inside b (k.dstAt x) ∧ ∀ l, k.srcAt x = some l → inside b l) → (∀ d l, k.kind ≠ .cgath d l) → k.arv = some o →
        k.issueCheck b = if b.localSz < o + 8 then some (4, 6, o) else if o % 8 ≠ 0 then some (9, 6, o) else none))) ∧
  (
    (∀ h arv sv s x, Issues (.seal h arv sv) s x → x.g.producer = false → Traps (.seal h arv sv) s x 0x10 1) ∧
    (∀ h arv sv s x, Issues (.seal h arv sv) s x → x.g.producer → x.guard h = 0 → Passes (.seal h arv sv) s x x.t.mode) ∧
    (∀ h a sv s x, Issues (.seal h (some a) sv) s x → x.g.producer → x.guard h ≠ 0 →
      let o := (x.g.sget a.val).toNat % 2 ^ 32
      (o % 8 ≠ 0 → Fails (.seal h (some a) sv) s x { kind := 4, detail := 0x10, va := o, pc := x.t.pc % 2 ^ 64, lane := lowLane (x.guard h), acc := 3 }) ∧
      (o % 8 = 0 → x.b.localSz < o + 8 →
        Fails (.seal h (some a) sv) s x { kind := 4, detail := 0x20, va := o, pc := x.t.pc % 2 ^ 64, lane := lowLane (x.guard h), acc := 3 })) ∧
    (∀ h arv sv s x, Issues (.seal h arv sv) s x → x.g.producer → x.guard h ≠ 0 → goodObject x arv →
      (∃ e ∈ x.g.sheaves, e.out ∧ e.num = (x.g.sealCnt + 1 + 2 ^ 64 - 64) % 2 ^ 32) →
      exec (.seal h arv sv) s = .next { x with t := { x.t with st := .longWait .sealWin } }.close) ∧
    (∀ h arv sv s x, Issues (.seal h arv sv) s x → x.g.producer → x.guard h ≠ 0 → goodObject x arv →
      (∀ e ∈ x.g.sheaves, e.out → e.num ≠ (x.g.sealCnt + 1 + 2 ^ 64 - 64) % 2 ^ 32) →
      let n := (x.g.sealCnt + 1) % 2 ^ 64
      ∃ t g e, exec (.seal h arv sv) s = .next t ∧ t.mem = s.mem ∧ GroupAt t x.c.b x.c.g g ∧
        g.sealCnt = n ∧ g.sheafNum = n % 2 ^ 32 ∧ g.openSheaf = [] ∧ g.sheaves.getLast? = some e ∧ e.num = n % 2 ^ 32 ∧ e.copies = x.g.openSheaf ∧
        (e.out = true ↔ ∃ id ∈ x.g.openSheaf, ∃ c, tget x.s.copies id = some c ∧ c.st ≠ .done ∧ c.st ≠ .failed) ∧
        (arv = none → (e.failed = true ↔ e.out = false ∧ ∃ id ∈ x.g.openSheaf, ∃ c, tget x.s.copies id = some c ∧ c.st = .failed)) ∧
        (g.v, g.p, g.flags, g.pend) = (x.g.v, x.g.p, x.g.flags, x.g.pend) ∧ g.tillers[x.c.t]? = some (nextT (.seal h arv sv) x) ∧
        g.s = (match sv with
          | some d => (x.g.sset d.val (BitVec.ofNat 64 (n % 2 ^ 32))).s
          | none => x.g.s)) ∧
    (∀ h isTo v s x, Issues (.cwait h isTo v) s x →
      let n := val10 x.g v % 2 ^ 32
      (x.guard h = 0 ∨ x.g.cwaitOk isTo n → ∃ t, exec (.cwait h isTo v) s = .next t ∧ Holds t { x with t := nextT (.cwait h isTo v) x }) ∧
      (x.guard h ≠ 0 → x.g.cwaitOk isTo n = false → Waits (.cwait h isTo v) s x (.cwait isTo n))) ∧
    (∀ h isTo v s x, Issues (.cwaitImm22 h isTo v) s x →
      (x.guard h = 0 ∨ x.g.cwaitOk isTo v.toNat → ∃ t, exec (.cwaitImm22 h isTo v) s = .next t ∧ Holds t { x with t := nextT (.cwaitImm22 h isTo v) x }) ∧
      (x.guard h ≠ 0 → x.g.cwaitOk isTo v.toNat = false → Waits (.cwaitImm22 h isTo v) s x (.cwait isTo v.toNat))) ∧
    (∀ (g : Group) v, (g.cwaitOk false v ↔ g.sealCnt = 0 ∨ (g.sheaves.filter fun e => e.out).length ≤ v) ∧
      (v < 2 ^ 32 → g.sheafNum < 2 ^ 32 → (∀ e ∈ g.sheaves, e.num < 2 ^ 32) → (g.cwaitOk true v ↔ g.sealCnt = 0 ∨
        let d := (((g.sheafNum : Int) - v) % 2 ^ 32).toNat
        if 2 ^ 31 ≤ d then ∀ e ∈ g.sheaves, e.out = false
        else 64 ≤ d ∨ ∀ j : Nat, j < 64 - d → ∀ e ∈ g.sheaves, e.out → ((e.num : Int) - ((v : Int) - (j : Int))) % 2 ^ 32 ≠ 0))) ∧
    (∀ h f s x, Issues (.cstat h f) s x → x.guard h = 0 → Passes (.cstat h f) s x x.t.mode) ∧
    (∀ h d a s x, Issues (.cstat h (.st d a)) s x → x.guard h ≠ 0 → notRecording x → ∃ t, exec (.cstat h (.st d a)) s = .next t ∧ Holds t { x with
      g := (readCounted x).g.sset d.val (BitVec.ofNat 64 (x.statWord ((x.g.sget a.val).toNat % 2 ^ 32))), t := nextT (.cstat h (.st d a)) x }) ∧
    (∀ h d a s x, Issues (.cstat h (.addr d a)) s x → x.guard h ≠ 0 → notRecording x → ∃ t, exec (.cstat h (.addr d a)) s = .next t ∧ Holds t { x with
      g := (readCounted x).g.sset d.val (BitVec.ofNat 64 (x.statAddr ((x.g.sget a.val).toNat % 2 ^ 32))), t := nextT (.cstat h (.addr d a)) x }) ∧
    (∀ h d s x, Issues (.cstat h (.clr d)) s x → x.guard h ≠ 0 → notRecording x → ∃ t, exec (.cstat h (.clr d)) s = .next t ∧ Holds t { x with
      g := { (readCounted x).g.sset d.val (if x.g.anyFail then 1 else 0) with anyFail := false }, t := nextT (.cstat h (.clr d)) x }) ∧
    (∀ (x : Ex) n e, x.g.sealCnt ≠ 0 → x.g.sheaves = [e] → e.num = n → e.num = x.g.sheafNum → n < 2 ^ 32 → e.out = false →
      x.statWord n = (if x.g.anyFail then 2 ^ 63 else 0) +
        (if e.failed then (if e.sarv then 2 ^ 40 else 0) + e.copy * 2 ^ 32 + e.cause * 2 ^ 16 + e.whr * 2 ^ 8 + 4 else 3)))

namespace Sys2Proof.Claims

/-- Every access that an earlier instruction of a lane has yet to finish has been performed at its home, and no local write of an `astl` of the lane is
under way (R192, R251); a parked access has not been performed. -/
def laneFree (s : State) (b g lane after : Nat) : Prop := ∀ gr, GroupAt s b g gr → ∀ e ∈ gr.pend, e.1 < after →
  match e.2.kind with
  | .mem m => ∀ o ∈ m.lanes, o.lane = lane →
    ∃ q ∈ s.reqs, q.2.b = b ∧ q.2.g = g ∧ q.2.pend = e.1 ∧ q.2.gran = o.va / 128 ∧ (q.2.st = .done ∨ ∃ n, q.2.st = .back n)
  | .cond (.matrix _) => e.2.op = 0xCC → e.2.mask.testBit lane = false
  | _ => True

/-- A copy that its own block's engine may start (R187, R192). -/
def startable (s : State) (id : Nat) (k : Copy) (b : Block) : Prop :=
  tget s.copies id = some k ∧ tget s.blocks k.b = some b ∧ k.st = .queued ∧ b.res = .resident ∧ laneFree s k.b k.g k.lane k.after

/-- A running copy that has a request slot (R286) and moves all its bytes, from its next index on, and the machine then (R192, R195). -/
def movesAll (s : State) (id : Nat) (k : Copy) (b : Block) (u : State) : Prop :=
  tget s.copies id = some k ∧ tget s.blocks k.b = some b ∧ k.st = .running ∧ b.res = .resident ∧ s.slotsFor b 1 ∧ k.kind.isRem = false ∧ k.next ≤ k.total ∧
  State.moveGo k.b k (k.total - k.next) s k.next = (u, k.total, none)

/-- A place by the side's space: a global address modulo 2^64, a local offset modulo 2^32 (R201). -/
def placeOf (glob : Bool) (n : Int) : Loc := if glob then .glob (at64 n) else .loc (at32 n)

/-- The sum over six counters, the first innermost, of the counter times its stride, at element x (R205). -/
def sixOff (d : List Byte) (stride : Nat → Int) (x : Nat) : Int :=
  let count (j : Nat) : Nat := ofBytes ((d.drop (4 * j)).take 4)
  ((List.range 6).map fun j => ((x / ((List.range j).map count).prod % count j : Nat) : Int) * stride j).sum

/-- A stride of an affine descriptor. -/
def strideAt (d : List Byte) (from' j : Nat) : Int := (BitVec.ofNat 64 (ofBytes ((d.drop (from' + 8 * j)).take 8))).toInt

/-- A line in its stack that is neither poisoned nor in error, accessed through the key under which it was written. -/
def goodLine (s : State) (home sla key : Nat) : Prop :=
  s.keyOf home key = some (cget 0 s.lineKey (lineAt home sla)) ∧ cget false s.poison (lineAt home sla) = false ∧ cget 0 s.errs (lineAt home sla) = 0

end Sys2Proof.Claims

/-- R192, R195, R196, R201 to R205, R330, R353, R354: where a copy reads and writes at each index, and how its bytes move.
R201 to R205: where a copy reads and writes at each traversal index.
R192, R195, R196, R204, R330: how bytes of a copy move: each index's bytes are read and then written, before the next index; a run stops at the first
index whose bytes cannot be read or written, with what was moved before it in place. Global bytes go by translation to their home. -/
def Obligations.CopiesMove : Prop :=
  (
    ∀ (k : Copy) (x : Nat),
      let r := x / k.rb
      let c := x % k.rb
      let srcGlob (d : Dir) : Bool := d = .g2l || d = .g2g
      let dstGlob (d : Dir) : Bool := d = .l2g || d = .g2g
      (∀ d lay, k.kind = .cpy false d lay → k.srcAt x = some (placeOf (srcGlob d) (k.a + r * k.spitch + c)) ∧
        k.dstAt x = placeOf (dstGlob d) (layAddr k.d r c k.rows k.rb k.c lay)) ∧
      (∀ d lay, k.kind = .cpy true d lay → k.srcAt x = some (placeOf (srcGlob d) (layAddr k.a r c k.rows k.rb k.spitch lay)) ∧
        k.dstAt x = placeOf (dstGlob d) (k.d + r * k.c + c)) ∧
      (∀ g lay, k.kind = .cgath g lay → k.srcAt x =
          some (placeOf true (k.c + (BitVec.ofNat 32 (ofBytes ((k.aux.drop (4 * r)).take 4))).toInt * k.spitch + c)) ∧
        k.dstAt x = placeOf g (layAddr k.d r c k.rows k.rb k.rb lay)) ∧
      (∀ g ty, k.kind = .cfill g ty → k.srcAt x = none ∧ k.dstAt x = placeOf g (k.d + r * k.c + c) ∧
        k.fillAt x = BitVec.ofNat 8 (k.a / 256 ^ (c % fillBytes ty))) ∧
      (∀ h, k.kind = .wb h → k.srcAt x = some (placeOf true (k.a + r * k.spitch + c)) ∧ k.dstAt x = (match h with
        | .lead => .wbL (k.d + r * k.rb + c)
        | .foll => .wbF (k.d + r * k.rb + c)
        | .split => if c < k.rb / 2 then .wbL (k.d + r * (k.rb / 2) + c) else .wbF (k.d + r * (k.rb / 2) + c % (k.rb / 2)))) ∧
      (∀ d z, k.kind = .cpya d z → k.srcAt x = some (placeOf (srcGlob d) (k.a + sixOff k.aux (strideAt k.aux 32) x)) ∧
        k.dstAt x = placeOf (dstGlob d) (k.d + sixOff k.aux (strideAt k.aux 80) x)) ∧
      (∀ p l dp, k.kind = .rcpy p l dp → k.srcAt x = some (placeOf (!l) (k.a + r * k.spitch + c)) ∧ k.dstAt x = placeOf true (k.d + r * dp + c)) ∧
      (∀ p dp, k.kind = .rget p dp → k.srcAt x = none ∧ k.dstAt x = placeOf true (k.d + r * dp + c))) ∧
  (
    (∀ bi (k : Copy) (s : State) x, State.moveGo bi k 0 s x = (s, x, none)) ∧
    (∀ bi (k : Copy) n (s : State) x, (∀ b s1 e, tget s.blocks bi = some b → s.cpSrc bi b k x = (s1, .error e) → State.moveGo bi k (n + 1) s x = (s1, x, some e)) ∧
      (∀ b s1 d, tget s.blocks bi = some b → s.cpSrc bi b k x = (s1, .ok d) →
        (∀ s2 e, s1.cpWrite bi b k x (k.dstAt x) d = (s2, some e) → State.moveGo bi k (n + 1) s x = (s2, x, some e)) ∧
        (∀ s2, s1.cpWrite bi b k x (k.dstAt x) d = (s2, none) → State.moveGo bi k (n + 1) s x = State.moveGo bi k n s2 (x + 1)))) ∧
    (∀ (s : State) bi b (k : Copy) x, (k.srcAt x = none → s.cpSrc bi b k x = (s, .ok [k.fillAt x])) ∧
      ∀ o, (k.srcAt x = some (.loc o) → s.cpSrc bi b k x = (s, .ok (cgets 0 b.loc o k.unit))) ∧
        (k.srcAt x = some (.glob o) → s.cpSrc bi b k x = s.cpRead bi b k.unit k.kind.readCls k.hint (.glob o))) ∧
    (∀ (s : State) bi (b : Block) (k : Copy) x o d,
      s.cpWrite bi b k x (.loc o) d = (s.modBlock bi fun b => { b with loc := csets 0 b.loc o d }, none) ∧
      s.cpWrite bi b k x (.wbL o) d = (s.modBlock bi fun b => { b with wbL := csets 0 b.wbL o d }, none) ∧
      s.cpWrite bi b k x (.wbF o) d = (s.modBlock bi fun b => { b with wbF := csets 0 b.wbF o d }, none)) ∧
    (∀ (s : State) bi (b : Block) (k : Copy) x n cls hint va d, canonical va = false →
      s.cpRead bi b n cls hint (.glob va) = (s, .error (.fail 3 0 va)) ∧ s.cpWrite bi b k x (.glob va) d = (s, some (.fail 3 2 va))) ∧
    (∀ (s s0 : State) bi (b : Block) n cls hint va xl, canonical va → s.reach b.slice b.pid b.vd va { r := true } (some ⟨b.core, bi⟩) = (s0, .ok xl) →
      goodLine s0 xl.home xl.sla xl.key →
      ∃ s1, s.cpRead bi b n cls hint (.glob va) = (s1, .ok (cgets 0 s0.mem (cell xl.home xl.sla) n)) ∧ s1.mem = s0.mem ∧ s1.blocks = s0.blocks) ∧
    (∀ (s s0 : State) bi (b : Block) (k : Copy) x va d xl, canonical va → s.reach b.slice b.pid b.vd va { w := true } (some ⟨b.core, bi⟩) = (s0, .ok xl) →
      goodLine s0 xl.home xl.sla xl.key → s0.mem.wf → xl.sla % 128 + d.length ≤ 128 →
      ∃ s1, s.cpWrite bi b k x (.glob va) d = (s1, none) ∧ s1.blocks = s0.blocks ∧
        (∀ i, i < d.length → cget 0 s1.mem (cell xl.home xl.sla + i) = d.getD i 0) ∧
        ∀ a, ¬(cell xl.home xl.sla ≤ a ∧ a < cell xl.home xl.sla + d.length) → cget 0 s1.mem a = cget 0 s0.mem a) ∧
    (∀ (s s0 : State) bi (b : Block) (k : Copy) x n cls hint va d f, canonical va → f.kind ≠ .firewall → f.kind ≠ .poison →
      (s.reach b.slice b.pid b.vd va { r := true } (some ⟨b.core, bi⟩) = (s0, .error f) →
        s.cpRead bi b n cls hint (.glob va) = (s0, .error (.fault f 0 va { r := true }))) ∧
      (s.reach b.slice b.pid b.vd va { w := true } (some ⟨b.core, bi⟩) = (s0, .error f) →
        s.cpWrite bi b k x (.glob va) d = (s0, some (.fault f 2 va { w := true })))) ∧
    (∀ (s s0 : State) bi (b : Block) n cls hint va f, canonical va → s.reach b.slice b.pid b.vd va { r := true } (some ⟨b.core, bi⟩) = (s0, .error f) →
      (f.kind = .firewall → ∃ s1, s.cpRead bi b n cls hint (.glob va) = (s1, .error (.fail 1 0 va))) ∧
      (f.kind = .poison → ∃ s1, s.cpRead bi b n cls hint (.glob va) = (s1, .error (.fail 2 0 va)))) ∧
    (∀ bi (k : Copy) n m (s u : State) x, State.moveGo bi k n s x = (u, x + n, none) → State.moveGo bi k (n + m) s x = State.moveGo bi k m u (x + n)) ∧
    (∀ bi (k : Copy) n m (s u : State) x y e, State.moveGo bi k n s x = (u, y, some e) → State.moveGo bi k (n + m) s x = (u, y, some e) ∧ x ≤ y ∧ y < x + n ∧
      ∃ v, State.moveGo bi k (y - x) s x = (v, y, none) ∧ State.moveGo bi k 1 v y = (u, y, some e)))

/-- R185 to R187, R192 to R197, R202: copies start, reading an index table; move their bytes in order; stop before the first byte that fails; go on when the
fault is serviced. -/
def Obligations.CopiesRun : Prop :=
  (∀ s id k b, startable s id k b → k.kind.isRem = false → (∀ g l, k.kind ≠ .cgath g l) → (∀ d z, k.kind ≠ .cpya d z) →
    exec (.copyStart id) s = .next { s with copies := tput s.copies id { k with st := .running } }) ∧
  (∀ s id k b g l, startable s id k b → k.kind = .cgath g l →
    exec (.copyStart id) s = .next { s with copies := tput s.copies id { k with st := .running, aux := cgets 0 b.loc (k.a % 2 ^ 32) (4 * k.rows) } }) ∧
  (∀ s id k b u gr, movesAll s id k b u → k.arv = none → GroupAt u k.b k.g gr → id ∈ gr.openSheaf →
    ∃ t, exec (.copyDone id) s = .next t ∧ t.mem = u.mem ∧ tget t.copies id = some { k with next := k.total, st := .done }) ∧
  (∀ s id k b u sh gr, movesAll s id k b u → k.arv = none → GroupAt u k.b k.g gr → gr.sheaves = [sh] → sh.out → sh.copies = [id] → sh.arv = none →
    gr.openSheaf = [] → (gr.sheafNum + 2 ^ 32 - sh.num) % 2 ^ 32 < 64 →
    ∃ t gr', exec (.copyDone id) s = .next t ∧ t.mem = u.mem ∧ GroupAt t k.b k.g gr' ∧ gr'.sheaves = [{ sh with out := false }] ∧
      tget t.copies id = if sh.post then some { k with next := k.total, st := .done } else none) ∧
  (∀ (s : State) bi (b : Block) (k : Copy) ty n, tget s.blocks bi = some b → k.kind = .cfill false ty → cwf 0 b.loc →
    ∃ loc, State.moveGo bi k n s 0 = (s.modBlock bi fun b => { b with loc := loc }, n, none) ∧ cwf 0 loc ∧
      (∀ x o, x < n → k.dstAt x = .loc o → (∀ y, x < y → y < n → k.dstAt y ≠ .loc o) →
        cget 0 loc o = BitVec.ofNat 8 (k.a / 256 ^ (x % k.rb % fillBytes ty))) ∧
      ∀ o, (∀ x, x < n → k.dstAt x ≠ .loc o) → cget 0 loc o = cget 0 b.loc o) ∧
  (∀ (s : State) bi (b : Block) (k : Copy) (n o : Nat), tget s.blocks bi = some b → k.kind.isRem = false → k.unit = 1 → k.srcAt n = some (.loc o) →
    ∀ p, k.dstAt n = .loc p → State.moveGo bi k 1 s n = (s.modBlock bi fun b => { b with loc := cset 0 b.loc p (cget 0 b.loc o) }, n + 1, none)) ∧
  (∀ s id k b u x cause whr addr gr, tget s.copies id = some k → tget s.blocks k.b = some b → k.st = .running → b.res = .resident → s.slotsFor b 1 → k.kind.isRem = false →
    State.moveGo k.b k (k.total - k.next) s k.next = (u, x, some (.fail cause whr addr)) → GroupAt u k.b k.g gr → id ∈ gr.openSheaf →
    ∃ t, exec (.copyFaultStop id) s = .next t ∧ t.mem = u.mem ∧
      tget t.copies id = some { k with next := x, st := .failed, cause := cause, whr := whr, addr := addr, fault := none }) ∧
  (∀ s id k b u x f whr va acc, tget s.copies id = some k → tget s.blocks k.b = some b → k.st = .running → b.res = .resident → s.slotsFor b 1 → k.kind.isRem = false →
    State.moveGo k.b k (k.total - k.next) s k.next = (u, x, some (.fault f whr va acc)) → u.unreported b.slice b.pid b.vd f = false →
    ∃ t token r, exec (.copyFaultStop id) s = .next t ∧
      tget t.copies id = some { k with next := x, st := .stopped, whr := whr, addr := va, fault := some { va := va, f := f, token := token } } ∧
      tget t.reports (token - 1) = some r ∧ (r.f, r.va, r.waiter) = (f, va, .copy id)) ∧
  (∀ s id k f, tget s.copies id = some k → k.st = .stopped → k.fault = some f → f.resolved → (∀ d z, k.kind ≠ .cpya d z) → k.kind.isRem = false →
    exec (.copyFaultServiced id) s = .next { s with copies := tput s.copies id { k with st := .running, fault := none, whr := 0, addr := 0 } }) ∧
  (∀ s b g k gr (u : Tiller), GroupAt s b g gr → gr.tillers[k]? = some u → u.st = .waiting → s.descFree b →
    ∃ t, exec (.descriptorWaitEnd b g k) s = .next t ∧ GroupBecomes s t b g { gr with tillers := listSet gr.tillers k { u with st := .ready } }) ∧
  (∀ s b g k gr (u : Tiller), GroupAt s b g gr → gr.tillers[k]? = some u → u.st = .longWait .sealWin →
    (∀ e ∈ gr.sheaves, e.out → e.num ≠ (gr.sealCnt + 1 + 2 ^ 64 - 64) % 2 ^ 32) →
    ∃ t, exec (.sealWindowWaitEnd b g k) s = .next t ∧ GroupBecomes s t b g { gr with tillers := listSet gr.tillers k { u with st := .ready } })

/-! ### The matrix engine (R213 to R241) -/

namespace Sys2Proof.Claims

/-- R213, R214: an instruction of the matrix engine that may not issue is the accumulator-allocation trap; else, with no lane, it passes. -/
def MatrixRights (i : Instr) (h : Hd) (matrixOnly : Bool) (tiles : List AReg) (mode : Ex → Word) : Prop :=
  ∀ s x, Issues i s x →
    (x.b.isTile = false → Traps i s x 0x11 3) ∧
    (x.b.isTile → matrixOnly → x.g.role ≠ 2 → Traps i s x 0x11 4) ∧
    (x.b.isTile → (matrixOnly → x.g.role = 2) → (∃ a ∈ tiles, x.b.live ≤ a.val) → Traps i s x 0x11 1) ∧
    (x.b.isTile → (matrixOnly → x.g.role = 2) → (∀ a ∈ tiles, a.val < x.b.live) → x.guard h = 0 → Passes i s x (mode x))

/-- An instruction that has the rights of R213, names live tiles (R214) and has a guard-true active lane. -/
def MayUse (i : Instr) (h : Hd) (matrixOnly : Bool) (tiles : List AReg) (s : State) (x : Ex) : Prop :=
  Issues i s x ∧ x.b.isTile = true ∧ (matrixOnly → x.g.role = 2) ∧ (∀ a ∈ tiles, a.val < x.b.live) ∧ x.guard h ≠ 0

/-- The tiller of an instruction that cannot go on yet waits in Waiting; nothing else has changed. -/
def StaysWaiting (i : Instr) (s : State) (x : Ex) : Prop := exec i s = .next { x with t := { x.t with st := .waiting } }.close

/-- The block with a tile's content replaced. -/
def withTile (b : Block) (n : Nat) (c : Cells Word) : Block := { b with acc := listSet b.acc n c }

/-- An element of a tile. -/
def elt (c : Cells Word) (r k : Nat) : Word := cget 0 c (r * 256 + k)

/-- The turn of an instruction that is accepted now has come on the tiles it names: no operation and no instruction accepted before it is on one of
them, and none of the shaping operations is yet to read the tile it writes (R228, R254). -/
def inTurn (x : Ex) (tiles : List Nat) (writes : Option Nat) : Prop :=
  (∀ e ∈ x.b.mops, e.1 < x.s.nextId → e.2.tile ∉ tiles) ∧ (∀ e ∈ x.b.tops, e.1 < x.s.nextId → ∀ n ∈ e.2.act.tiles, n ∉ tiles) ∧
  ∀ d, writes = some d → ∀ e ∈ x.b.sops, e.1 < x.s.nextId → e.2.needs d = false

/-- The machine once a number has been given. -/
def numbered (x : Ex) : State := { x.s with nextId := x.s.nextId + 1 }

/-- The instruction is accepted and complete: what it does to its tile follows those accepted before it. -/
def acceptedOn (i : Instr) (x : Ex) (act : TileAct) (fl : Nat) : Ex :=
  { x with
    s := numbered x
    b := { x.b with tops := x.b.tops ++ [(x.s.nextId, { g := x.c.g, act := act })] }
    g := { x.g with flags := x.g.flags ||| fl }
    t := nextT i x }

/-- The instruction is accepted, and completes when it has been performed in its turn. -/
def heldOn (i : Instr) (x : Ex) (act : TileAct) (mode : Word) : Ex :=
  { x with
    s := numbered x
    b := { x.b with tops := x.b.tops ++ [(x.s.nextId, { g := x.c.g, pend := some x.g.nextPend, act := act })] }
    g := withPend x.g { condOf i x (.matrix x.s.nextId) with marks := (usesOf i x.g).wr ++ if (usesOf i x.g).wr = [] then [] else [.flags] }
    t := { nextT i x with
      mode := mode
      wins := (nextT i x).wins ++ opened i x
      st := if isL (opcode i) && (fields i).look == 0 then .longWait (.on x.g.nextPend) else .ready } }

/-- The operation that an `mma` is: formats and readings from MCFG or `%fmt`, offsets, pitch and K from its two scalars (R220, R237). -/
def asked (x : Ex) (o : MmaOp) : MOp :=
  let side (f : MFmt) (rd : Reading) : Option FType × Reading := match f with
    | .fmt => (some (fmtOf x.t.fmt), readOf x.t.fmt)
    | .bf16 => (some .bf16, .ieee)
    | .e4m3 => (some .e4m3, rd)
    | .e5m2 => (some .e5m2, rd)
    | .e2m1 => (some .e2m1, rd)
    | .ln6 => (some .ln6, rd)
    | .i8 => (none, rd)
  let a := (x.g.sget o.a.val).toNat
  let b := (x.g.sget o.b.val).toNat
  { g := x.c.g, tile := o.d.val, stream := o.stream.val, zacc := o.zacc, spb := o.spb, lay := x.b.alay
    fa := (side o.fa x.b.aread).1, ra := (side o.fa x.b.aread).2, fb := (side o.fb x.b.bread).1, rb := (side o.fb x.b.bread).2
    aoff := a % 2 ^ 32, apitch := a / 2 ^ 32, boff := b % 2 ^ 32, k := b / 2 ^ 32, asc := o.asc.map BitVec.toNat, bsc := o.bsc.map BitVec.toNat
    pc := x.t.pc % 2 ^ 64, lane := lowLane (x.guard o.h) }

/-- The record of a program fault MATRIX (R223). -/
def matrixFail (x : Ex) (h : Hd) (d : Nat) : Fail := { kind := 4, detail := 0x40 + d, pc := x.t.pc % 2 ^ 64, lane := lowLane (x.guard h) }

/-- The tiller when a wait has begun (R83, R86). -/
def longWaiter (i : Instr) (x : Ex) : Tiller :=
  { nextT i x with
    wins := (nextT i x).wins ++ opened i x
    st := if (fields i).look == 0 then .longWait (.on x.g.nextPend) else .ready }

/-- row0 and col0 of a patch (R234). -/
def row0 (x : Ex) (a : SReg) : Nat := (x.g.sget a.val).toNat % 2 ^ 7
def col0 (x : Ex) (a : SReg) : Nat := (x.g.sget a.val).toNat / 2 ^ 16 % 2 ^ 8

/-- The row count and the faults of a move of rows (R236). -/
def rowCnt (x : Ex) (b : SReg) : Nat := (x.g.sget b.val).toNat / 2 ^ 8 % 2 ^ 8
def RowsFail (i : Instr) (h : Hd) (acc : Nat) (tile : AReg) (a b : SReg) (off : BitVec 22) : Prop :=
  ∀ s x, MayUse i h false [tile] s x →
    let L := localAt x a off
    let rec0 : Fail := { kind := 4, detail := 0, va := L, pc := x.t.pc % 2 ^ 64, lane := lowLane (x.guard h), acc := acc }
    (L % 4 ≠ 0 → Fails i s x { rec0 with detail := 0x10 }) ∧
    (L % 4 = 0 → x.b.localSz < L + 512 * rowCnt x b → Fails i s x { rec0 with detail := 0x20 }) ∧
    (L % 4 = 0 → L + 512 * rowCnt x b ≤ x.b.localSz → (rowCnt x b = 0 ∨ 128 < row0 x b + rowCnt x b) → Fails i s x (matrixFail x h 7))

/-- The rows are within the tile and the local memory. -/
def rowsFit (x : Ex) (a b : SReg) (off : BitVec 22) : Prop :=
  localAt x a off % 4 = 0 ∧ localAt x a off + 512 * rowCnt x b ≤ x.b.localSz ∧ rowCnt x b ≠ 0 ∧ row0 x b + rowCnt x b ≤ 128

/-- The first column of a core's half. -/
def halfAt (foll : Bool) : Nat := if foll then 128 else 0

end Sys2Proof.Claims

/-- R60, R213 to R216, R223, R226, R228, R233 to R241: the instructions of the matrix engine: rights, the live count, acceptance of operations, moves
between tiles, registers and local memory in the order in which they are accepted, waits and status. -/
def Obligations.MatrixInstructions : Prop :=
  ((∀ o, MatrixRights (.mma o) o.h true [o.d] same) ∧ (∀ h n, MatrixRights (.aalloc h n) h false [] same) ∧ (∀ h n, MatrixRights (.afree h n) h false [] same) ∧
    (∀ h d, MatrixRights (.azero h d) h false [d] same) ∧ (∀ h d a, MatrixRights (.acpy h d a) h false [d, a] same) ∧
    (∀ h ty rnd sat d a b n, MatrixRights (.ardv h ty rnd sat d a b n) h false [a] (fun x => if ty = .f32 then x.t.mode else stepped rnd x)) ∧ (∀ h ty d a b n, MatrixRights (.awrv h ty d a b n) h false [d] same) ∧
    (∀ h f d a b off, MatrixRights (.aldl h f d a b off) h false [d] same) ∧ (∀ h f d a b off, MatrixRights (.astl h f d a b off) h false [d] same) ∧
    (∀ h c, MatrixRights (.mcfg h c) h true [] same) ∧ (∀ h sel a, MatrixRights (.wbrel h sel a) h true [] same) ∧
    (∀ h sel v, MatrixRights (.mwait h sel v) h false [] same) ∧ ∀ h d, MatrixRights (.mstat h d) h false [] same) ∧
  (∀ o s x, MayUse (.mma o) o.h true [o.d] s x →
    (32 ≤ x.b.mops.length → StaysWaiting (.mma o) s x) ∧
    (∀ d, x.b.mops.length < 32 → (asked x o).check x.b = some d → Fails (.mma o) s x (matrixFail x o.h d)) ∧
    (x.b.mops.length < 32 → (asked x o).check x.b = none → Ends (.mma o) s { x with
      s := { x.s with nextId := x.s.nextId + 1 }
      b := { x.b with mops := x.b.mops ++ [(x.s.nextId, asked x o)] }
      g := if o.zacc then x.g else dirtied x
      t := nextT (.mma o) x })) ∧
  (∀ h n s x, MayUse (.aalloc h n) h false [] s x →
    let v := val10 x.g n
    (x.b.accMax < v → Traps (.aalloc h n) s x 0x11 2) ∧
    (v ≤ x.b.accMax → v ≤ x.b.live → Ends (.aalloc h n) s { x with g := dirtied x, t := nextT (.aalloc h n) x }) ∧
    (v ≤ x.b.accMax → x.b.live < v → Ends (.aalloc h n) s { x with
      b := { x.b with live := v, acc := (List.range 4).map fun t => if x.b.live ≤ t ∧ t < v then [] else listGet [] x.b.acc t }
      g := withPend (dirtied x) (condOf (.aalloc h n) x (.aalloc v))
      t := longWaiter (.aalloc h n) x })) ∧
  (∀ h n s x, MayUse (.afree h n) h false [] s x →
    let v := val10 x.g n
    (4 ≤ v ∨ x.b.live ≤ v → Ends (.afree h n) s { x with g := dirtied x, t := nextT (.afree h n) x }) ∧
    (v < 4 → v < x.b.live → Ends (.afree h n) s { x with
      b := { x.b with live := v, mops := x.b.mops.map fun e => (e.1, if v ≤ e.2.tile then { e.2 with drop := true } else e.2),
                        tops := x.b.tops.map fun e => (e.1, match e.2.act.writes with
                          | some d => if v ≤ d then { e.2 with act := .put d [] } else e.2
                          | none => e.2) }
      g := dirtied x
      t := nextT (.afree h n) x })) ∧
  (∀ h d s x, MayUse (.azero h d) h false [d] s x →
    (inTurn x [d.val] (some d.val) → Ends (.azero h d) s { x with s := numbered x, b := withTile x.b d.val [], t := nextT (.azero h d) x }) ∧
    (¬inTurn x [d.val] (some d.val) → Ends (.azero h d) s (acceptedOn (.azero h d) x (.zero d.val) 0))) ∧
  (∀ h d a s x, MayUse (.acpy h d a) h false [d, a] s x →
    (inTurn x [d.val, a.val] (some d.val) →
      Ends (.acpy h d a) s { x with s := numbered x, b := withTile x.b d.val (listGet [] x.b.acc a.val), t := nextT (.acpy h d a) x }) ∧
    (¬inTurn x [d.val, a.val] (some d.val) → Ends (.acpy h d a) s (acceptedOn (.acpy h d a) x (.copy d.val a.val) 0))) ∧
  (∀ h ty rnd sat d a b n s x, MayUse (.ardv h ty rnd sat d a b n) h false [a] s x →
    let i : Instr := .ardv h ty rnd sat d a b n
    let el (l e : Nat) : Word := elt (listGet [] x.b.acc a.val) (row0 x b + l) (col0 x b + e)
    (96 < row0 x b ∨ 256 < col0 x b + n.val → Fails i s x (matrixFail x h 6)) ∧
    (row0 x b ≤ 96 → col0 x b + n.val ≤ 256 → ¬inTurn x [a.val] none →
      Ends i s (heldOn i x (.get a.val d.val (x.g.sget b.val).toNat n.val (x.guard h) ty (effRnd x.t.mode rnd) (sat || satd x.t.mode) (ftz x.t.mode)
        (if effRnd x.t.mode rnd = .rs ∧ ty ≠ .f32 then (List.range 1024).map fun k => x.draw (k / 32) (k % 32) else []))
        (if ty = .f32 then x.t.mode else stepped rnd x))) ∧
    (row0 x b ≤ 96 → col0 x b + n.val ≤ 256 → inTurn x [a.val] none → ty = .f32 → PostsLanes i s x h (fun l =>
      ((List.range n.val).map fun e => .v (d.val + e) l (el l e), 0)) x.t.mode) ∧
    (row0 x b ≤ 96 → col0 x b + n.val ≤ 256 → inTurn x [a.val] none → ty ≠ .f32 → PostsLanes i s x h (fun l =>
      let r := (List.range n.val).map fun e => roundedTo x ty .ieee rnd sat l e (fvalue .f32 .ieee (el l e).toNat, 0)
      ((List.range n.val).map fun e => .v (d.val + e) l (BitVec.ofNat 32 (r.getD e (0, 0)).1), allFlags r)) (stepped rnd x))) ∧
  (∀ h ty d a b n s x, MayUse (.awrv h ty d a b n) h false [d] s x → cwf 0 (listGet [] x.b.acc d.val) →
    let i : Instr := .awrv h ty d a b n
    let word (l e : Nat) : Word := x.g.vget (b.val + e) l
    let new (l e : Nat) : Word := if ty = .f32 then word l e else BitVec.ofNat 32 (exactCode .f32 .ieee (fvalue ty .ieee ((word l e).toNat % 2 ^ 16)))
    let fl := if ty ≠ .f32 ∧ ∃ l ∈ acts x h, ∃ e < n.val, (fvalue ty .ieee ((word l e).toNat % 2 ^ 16)).isSig then fINV else 0
    (96 < row0 x a ∨ 256 < col0 x a + n.val → Fails i s x (matrixFail x h 6)) ∧
    (row0 x a ≤ 96 → col0 x a + n.val ≤ 256 → ¬inTurn x [d.val] (some d.val) →
      Ends i s (acceptedOn i x (.put d.val ((acts x h).flatMap fun l => (List.range n.val).map fun e =>
        ((row0 x a + l) * 256 + (col0 x a + e), new l e))) fl)) ∧
    (row0 x a ≤ 96 → col0 x a + n.val ≤ 256 → inTurn x [d.val] (some d.val) →
      ∃ c, Ends i s { x with s := numbered x, b := withTile x.b d.val c, g := { x.g with flags := x.g.flags ||| fl }, t := nextT i x } ∧
      ∀ r k, r < 128 → k < 256 → elt c r k =
        if row0 x a ≤ r ∧ r - row0 x a ∈ acts x h ∧ col0 x a ≤ k ∧ k < col0 x a + n.val then
          new (r - row0 x a) (k - col0 x a)
        else elt (listGet [] x.b.acc d.val) r k)) ∧
  (∀ h foll d a b off, RowsFail (.aldl h foll d a b off) h 1 d a b off) ∧
  (∀ h foll d a b off s x, MayUse (.aldl h foll d a b off) h false [d] s x → rowsFit x a b off → cwf 0 (listGet [] x.b.acc d.val) →
    let i : Instr := .aldl h foll d a b off
    (¬localFree x → StaysWaiting i s x) ∧
    (localFree x → ¬inTurn x [d.val] (some d.val) → Ends i s (heldOn i x (.put d.val ((List.range (128 * rowCnt x b)).map fun w =>
      ((row0 x b + w / 128) * 256 + halfAt foll + w % 128, BitVec.ofNat 32 (readLE x.b.loc (localAt x a off + 4 * w) 4)))) x.t.mode)) ∧
    (localFree x → inTurn x [d.val] (some d.val) → ∃ c, Ends i s { x with s := numbered x, b := withTile x.b d.val c, t := nextT i x } ∧
      ∀ r k, r < 128 → k < 256 → elt c r k =
        if row0 x b ≤ r ∧ r < row0 x b + rowCnt x b ∧ halfAt foll ≤ k ∧ k < halfAt foll + 128 then
          BitVec.ofNat 32 (readLE x.b.loc (localAt x a off + 512 * (r - row0 x b) + 4 * (k - halfAt foll)) 4)
        else elt (listGet [] x.b.acc d.val) r k)) ∧
  (∀ h foll d a b off, RowsFail (.astl h foll d a b off) h 2 d a b off) ∧
  (∀ h foll d a b off s x, MayUse (.astl h foll d a b off) h false [d] s x → rowsFit x a b off → cwf 0 x.b.loc →
    let i : Instr := .astl h foll d a b off
    let L := localAt x a off
    (¬localFree x → StaysWaiting i s x) ∧
    (localFree x → ¬inTurn x [d.val] none → Ends i s (heldOn i x (.store d.val L ((List.range (128 * rowCnt x b)).map fun w =>
      (row0 x b + w / 128) * 256 + halfAt foll + w % 128)) x.t.mode)) ∧
    (localFree x → inTurn x [d.val] none → ∃ m, Ends i s { x with s := numbered x, b := { x.b with loc := m }, t := nextT i x } ∧
      (∀ u k, u < rowCnt x b → k < 128 →
        readLE m (L + 512 * u + 4 * k) 4 = (elt (listGet [] x.b.acc d.val) (row0 x b + u) (halfAt foll + k)).toNat) ∧
      ∀ p, p < L ∨ L + 512 * rowCnt x b ≤ p → cget 0 m p = cget 0 x.b.loc p)) ∧
  (∀ h l ra rb s x, MayUse (.mcfg h (.named l ra rb)) h true [] s x → Ends (.mcfg h (.named l ra rb)) s { x with
    b := { x.b with alay := l, aread := ra, bread := rb }, t := nextT (.mcfg h (.named l ra rb)) x }) ∧
  (∀ h l s x, MayUse (.mcfg h (.fmt l)) h true [] s x → Ends (.mcfg h (.fmt l)) s { x with
    b := { x.b with alay := l, aread := readOf x.t.fmt, bread := readOf x.t.fmt }, t := nextT (.mcfg h (.fmt l)) x }) ∧
  (∀ h sel a s x, MayUse (.wbrel h sel a) h true [] s x →
    let i : Instr := .wbrel h sel a
    let o := (x.g.sget a.val).toNat % 2 ^ 32
    let mine := x.b.mops.filter fun e => match sel with
      | .one n => e.2.stream = n.val
      | .all _ => true
    (o % 8 ≠ 0 → Fails i s x { kind := 4, detail := 0x10, va := o, pc := x.t.pc % 2 ^ 64, lane := lowLane (x.guard h), acc := 3 }) ∧
    (o % 8 = 0 → x.b.localSz < o + 8 → Fails i s x { kind := 4, detail := 0x20, va := o, pc := x.t.pc % 2 ^ 64, lane := lowLane (x.guard h), acc := 3 }) ∧
    (o % 8 = 0 → o + 8 ≤ x.b.localSz → x.b.rels = [] → (∃ e ∈ mine, e.2.st ≠ .draining) → (∀ e ∈ mine, tget x.b.mops e.1 = some e.2) →
      Ends i s { x with b := { x.b with rels := [{ ops := mine.map Prod.fst, obj := o }] }, g := dirtied x, t := nextT i x }) ∧
    (o % 8 = 0 → o + 8 ≤ x.b.localSz → x.b.rels = [] → (∀ e ∈ mine, e.2.st = .draining ∧ tget x.b.mops e.1 = some e.2) →
      Ends i s { x with b := (x.b.arriveAt o 1).1, g := dirtied x, t := nextT i x })) ∧
  (∀ h sel v s x, MayUse (.mwait h sel v) h false [] s x →
    let i : Instr := .mwait h sel v
    let left := (x.b.mops.filter fun e => match sel with
      | .one n => e.2.stream = n.val
      | .all _ => true).length
    (left ≤ val10 x.g v → Passes i s x x.t.mode) ∧
    (val10 x.g v < left → Waits i s x (.mwait sel (val10 x.g v)))) ∧
  (∀ h d s x, MayUse (.mstat h d) h false [] s x → notRecording x → ∃ v,
    Ends (.mstat h d) s { x with g := (readCounted x).g.sset d.val (BitVec.ofNat 64 v), t := nextT (.mstat h d) x } ∧
    v = (((List.range 8).filter fun k => x.b.mops.any fun e => e.2.stream == k).map fun k => 2 ^ (56 + k)).sum +
      x.b.mops.length * 2 ^ 16 + x.b.live * 2 ^ 8 + x.b.accMax * 2 ^ 4)

namespace Sys2Proof.Claims

/-- An operation may start as far as its own block goes (R227, R228). -/
def mayBegin (b : Block) (id : Nat) (o : MOp) : Prop :=
  o.st = .queued ∧
  (∀ e ∈ b.mops, e.1 ≠ id → (e.2.tile = o.tile → e.2.st ≠ .running ∧ e.2.st ≠ .draining) ∧
    (e.1 < id → e.2.stream = o.stream → e.2.st ≠ .queued ∧ e.2.st ≠ .held)) ∧
  (∀ e ∈ b.sops, e.1 < id → e.2.needs o.tile = false) ∧
  ∀ e ∈ b.tops, e.1 < id → o.tile ∉ e.2.act.tiles ∧ ¬(e.2.g = o.g ∧ e.2.act.stores)

/-- An operation of a resident block. -/
def opAt (s : State) (b id : Nat) (bl : Block) (o : MOp) : Prop := tget s.blocks b = some bl ∧ bl.res = .resident ∧ tget bl.mops id = some o

/-- Bytes of a row of A, by its format (R221). -/
def rowLen (o : MOp) : Nat := match o.fa with
  | some .bf16 => 2 * o.k
  | some .e2m1 => o.k / 2
  | some .ln6 => 3 * o.k / 4
  | _ => o.k

/-- Bits of an element of B (R222). -/
def widthB (o : MOp) : Nat := match o.fb with
  | some .bf16 => 16
  | some .e2m1 => 4
  | some .ln6 => 6
  | _ => 8

/-- A format that `mma` takes (R218). -/
def takes (f : Option FType) : Prop := f ∈ [none, some .bf16, some .e4m3, some .e5m2, some .e2m1, some .ln6]

/-- The operands of an operation as R221 to R223 ask for them. -/
def operandsFit (o : MOp) (b : Block) : Prop :=
  let chunk := if o.spb then 512 * widthB o + 1024 else 1024 * widthB o
  (o.k ≠ 0 ∧ o.k % 64 = 0 ∧ o.k ≤ 65536) ∧
  ((if o.lay.outer.val = 2 then o.aoff + 127 * o.apitch else o.aoff + 127 * rowLen o) + rowLen o ≤ b.localSz ∧
    (∀ a, o.asc = some a → a * 16 + 128 * (o.k / 32) ≤ b.localSz) ∧ o.apitch % 16 = 0 ∧ (o.lay.outer.val = 2 → rowLen o ≤ o.apitch) ∧
    layFits 128 (rowLen o) o.lay) ∧
  (o.boff + o.k / 64 * chunk ≤ b.wbSz ∧ ∀ a, o.bsc = some a → a * 16 + o.k / 32 * 128 ≤ b.wbSz) ∧
  (o.asc.isSome → o.fa ≠ none ∧ o.fa ≠ some .bf16) ∧ (o.bsc.isSome → o.fb ≠ none ∧ o.fb ≠ some .bf16)

/-- The turn of an instruction accepted as number id has come on its tiles (R228, R254). -/
def turnCome (b : Block) (id : Nat) (a : TileAct) : Prop :=
  (∀ e ∈ b.mops, e.1 < id → e.2.tile ∉ a.tiles) ∧ (∀ e ∈ b.tops, e.1 < id → ∀ n ∈ e.2.act.tiles, n ∉ a.tiles) ∧
  ∀ d, a.writes = some d → ∀ e ∈ b.sops, e.1 < id → e.2.needs d = false

/-- The element of number k of a dense row of codes (R53). -/
def codeAt (f : Option FType) (byte : Nat → Nat) (k : Nat) : Nat := match f with
  | some .bf16 => byte (2 * k) + 256 * byte (2 * k + 1)
  | some .e2m1 => byte (k / 2) / 16 ^ (k % 2) % 16
  | some .ln6 => (byte (3 * (k / 4)) + 256 * byte (3 * (k / 4) + 1) + 65536 * byte (3 * (k / 4) + 2)) / 64 ^ (k % 4) % 64
  | _ => byte k

/-- A code as a value: INT8 is the integer that it denotes (R218). -/
def opValue (f : Option FType) (rd : Reading) (c : Nat) : Xv := match f with
  | none => .num (decide ((BitVec.ofNat 8 c).toInt < 0)) (BitVec.ofNat 8 c).toInt.natAbs 0
  | some f => fvalue f rd c

/-- A finite value as a rational. -/
def ratOfXv : Xv → ℚ
  | .num n m e => ratOf n m e
  | _ => 0

/-- The finite product of two codes: two LN6 codes multiply by the table (R56). -/
def productOf (o : MOp) (a b : Nat) : ℚ :=
  if o.fa = some .ln6 ∧ o.fb = some .ln6 then
    let p := a % 32 + b % 32
    if a % 32 = 0 ∨ b % 32 = 0 then 0
    else (if a / 32 % 2 = b / 32 % 2 then 1 else -1) * ([0x1000000, 0x1306FE1, 0x16A09E6, 0x1AE89FA].getD (p % 4) 0 : Nat) * (2 : ℚ) ^ ((p / 4 : Nat) - 32 : Int)
  else ratOfXv (opValue o.fa o.ra a) * ratOfXv (opValue o.fb o.rb b)

/-- A product of an infinity and a zero, and an infinite product of a sign. -/
def zeroTimesInf (a b : Xv) : Prop := ∃ u v e, (a = .inf u ∧ b = .num v 0 e) ∨ (b = .inf u ∧ a = .num v 0 e)
def infProduct (a b : Xv) (neg : Bool) : Prop := ∃ u v, neg = xor u v ∧
  ((a = .inf u ∧ b = .inf v) ∨ ∃ m e, m ≠ 0 ∧ ((a = .inf u ∧ b = .num v m e) ∨ (b = .inf u ∧ a = .num v m e)))

/-- The sum of a group of products with the two scales of its K-block (R69, R70). -/
def scaledSum (o : MOp) (ps : List (Nat × Nat)) (sa sb : Nat) : Xv × Nat :=
  scaleX (scaleExp sb) (scaleX (scaleExp sa) (groupSum (ps.map fun p => mMul o p.1 p.2)))

/-- Codes of an operand's width. -/
def narrowEnough (f : Option FType) (c : Nat) : Prop := c < 2 ^ (match f with
  | some f => fmtBits f
  | none => 8)

end Sys2Proof.Claims

/-- R53, R56, R58, R69 to R71, R217, R218, R221 to R225: what a matrix operation reads and computes.
R53, R56, R58, R69 to R71, R217, R218, R221, R222: the dot product of an element: the codes and scales that it reads, the groups in ascending order with one rounding
to nearest even each, and the sum of a group with its special values.
R217, R221 to R225: what an operation checks, where its operands lie, the rebuilt codes of a 2:4 operand, and the sums of two INT8 operands; every
element of the tile is computed, and the array's result is the tile of its elements. -/
def Obligations.MatrixOperands : Prop :=
  (
    (∀ (o : MOp) loc i k, takes o.fa → o.codeA loc i k = codeAt o.fa (fun c => (cget 0 loc (layAddr o.aoff i c 128 (rowLen o) o.apitch o.lay)).toNat) k) ∧
    (∀ (o : MOp) wb k j, takes o.fb → o.spb = false →
      o.codeB wb k j = codeAt o.fb (fun c => (cget 0 wb (o.boff + k / 64 * (1024 * widthB o) + j * (8 * widthB o) + c)).toNat) (k % 64)) ∧
    (∀ (o : MOp) wb q j g, takes o.fb → o.spb = true → g < 16 →
      let at' := o.boff + q * (512 * widthB o + 1024)
      let m := (cget 0 wb (at' + 512 * widthB o + 8 * j + g / 2)).toNat / 16 ^ (g % 2) % 16
      let kept (n : Nat) := codeAt o.fb (fun c => (cget 0 wb (at' + j * (4 * widthB o) + c)).toNat) n
      m % 4 < m / 4 → o.codeB wb (64 * q + 4 * g + m % 4) j = kept (2 * g) ∧ o.codeB wb (64 * q + 4 * g + m / 4) j = kept (2 * g + 1) ∧
        ∀ r, r < 4 → r ≠ m % 4 → r ≠ m / 4 → o.codeB wb (64 * q + 4 * g + r) j = 0) ∧
    (∀ (o : MOp) m i p j, (o.asc = none → o.scaleA m i p = 127) ∧ (o.bsc = none → o.scaleB m p j = 127) ∧
      (∀ a, o.asc = some a → o.scaleA m i p = (cget 0 m (a * 16 + i * (o.k / 32) + p)).toNat) ∧
      ∀ a, o.bsc = some a → o.scaleB m p j = (cget 0 m (a * 16 + p * 128 + j)).toNat) ∧
    (∀ (o : MOp) b i j,
      let wb := if j < 128 then b.wbL else b.wbF
      let start : Nat := if o.zacc then 0 else (elt (listGet [] b.acc o.tile) i j).toNat
      let six (f : Option FType) : Prop := f = some .ln6 ∨ f = some .e2m1
      let pairs (g q : Nat) := (List.range g).map fun e => (o.codeA b.loc i (q * g + e), o.codeB wb (q * g + e) (j % 128))
      let float (g : Nat) : Nat × Nat := (List.range (o.k / g)).foldl (fun r q =>
        let S := scaledSum o (pairs g q) (o.scaleA b.loc i (q * g / 32)) (o.scaleB wb (q * g / 32) (j % 128))
        let t := xAdd false (fvalue .f32 .ieee r.1) S.1
        let y := roundF .f32 .ieee .rne false 0 t.1
        (y.1, r.2 ||| S.2 ||| t.2 ||| y.2)) (start, 0)
      (six o.fa ∧ six o.fb → o.elem b i j = float 16) ∧
      (¬(six o.fa ∧ six o.fb) → (o.fa ≠ none ∨ o.fb ≠ none) → o.elem b i j = float 8) ∧
      (o.fa = none → o.fb = none → o.elem b i j = (List.range (o.k / 8)).foldl (fun r q =>
        let t := (BitVec.ofNat 32 r.1).toInt + ((pairs 8 q).map fun p => (BitVec.ofNat 8 p.1).toInt * (BitVec.ofNat 8 p.2).toInt).sum
        ((BitVec.ofInt 32 t).toNat, r.2 ||| if t < -(2 ^ 31) ∨ 2 ^ 31 ≤ t then fOVF else 0)) (start, 0))) ∧
    (∀ (o : MOp) ps sa sb, takes o.fa → takes o.fb → ps ≠ [] → (∀ p ∈ ps, narrowEnough o.fa p.1 ∧ narrowEnough o.fb p.2) →
      let A (p : Nat × Nat) := opValue o.fa o.ra p.1
      let B (p : Nat × Nat) := opValue o.fb o.rb p.2
      let bad : Prop := sa = 255 ∨ sb = 255 ∨ ∃ p ∈ ps, zeroTimesInf (A p) (B p)
      let someNan : Prop := ∃ p ∈ ps, (A p).isNan ∨ (B p).isNan
      let someInf (neg : Bool) : Prop := ∃ p ∈ ps, infProduct (A p) (B p) neg
      (bad → scaledSum o ps sa sb = (.nan false, fINV)) ∧
      (¬bad → someNan → scaledSum o ps sa sb = (.nan false, 0)) ∧
      (¬bad → ¬someNan → someInf false → someInf true → scaledSum o ps sa sb = (.nan false, fINV)) ∧
      (∀ neg, ¬bad → ¬someNan → someInf neg → ¬someInf (!neg) → scaledSum o ps sa sb = (.inf neg, 0)) ∧
      (¬bad → ¬someNan → ¬someInf false → ¬someInf true → ∃ neg m e, scaledSum o ps sa sb = (.num neg m e, 0) ∧
        ratOf neg m e = (ps.map fun p => productOf o p.1 p.2).sum * (2 : ℚ) ^ ((sa : Int) - 127) * (2 : ℚ) ^ ((sb : Int) - 127) ∧
        (m = 0 → (neg = true ↔ ∀ p ∈ ps, productOf o p.1 p.2 = 0 ∧ (A p).sign ≠ (B p).sign))))) ∧
  (
    (∀ (o : MOp) b, takes o.fa → takes o.fb → (o.check b = none ↔ operandsFit o b)) ∧
    (∀ (o : MOp) b, takes o.fa → takes o.fb → (o.check b = some 1 ↔ o.k = 0 ∨ o.k % 64 ≠ 0 ∨ 65536 < o.k)) ∧
    (∀ (o : MOp) loc i k, o.fa = none → o.codeA loc i k = (cget 0 loc (layAddr o.aoff i k 128 o.k o.apitch o.lay)).toNat) ∧
    (∀ (o : MOp) wb k j, o.fb = none → o.spb = false → o.codeB wb k j = (cget 0 wb (o.boff + k / 64 * 8192 + j * 64 + k % 64)).toNat) ∧
    (∀ (o : MOp) wb q j g, o.fb = none → o.spb = true → g < 16 →
      let at' := o.boff + q * 5120
      let m := (cget 0 wb (at' + 4096 + 8 * j + g / 2)).toNat / 16 ^ (g % 2) % 16
      let kept (n : Nat) := (cget 0 wb (at' + j * 32 + n)).toNat
      m % 4 < m / 4 → o.codeB wb (64 * q + 4 * g + m % 4) j = kept (2 * g) ∧ o.codeB wb (64 * q + 4 * g + m / 4) j = kept (2 * g + 1) ∧
        ∀ r, r < 4 → r ≠ m % 4 → r ≠ m / 4 → o.codeB wb (64 * q + 4 * g + r) j = 0) ∧
    (∀ (o : MOp) b i j, o.fa = none → o.fb = none → o.k % 64 = 0 →
      let wb := if j < 128 then b.wbL else b.wbF
      let start := if o.zacc then 0 else elt (listGet [] b.acc o.tile) i j
      BitVec.ofNat 32 (o.elem b i j).1 = start + BitVec.ofInt 32
        ((List.range o.k).map fun k => (BitVec.ofNat 8 (o.codeA b.loc i k)).toInt * (BitVec.ofNat 8 (o.codeB wb k (j % 128))).toInt).sum) ∧
    (∀ (o : MOp) b, (∀ i j, i < 128 → j < 256 → (o.elem b i j).1 < 2 ^ 32) →
      cwf 0 (o.run b).1 ∧ ∀ i j, i < 128 → j < 256 → elt (o.run b).1 i j = BitVec.ofNat 32 (o.elem b i j).1))

/-- R225 to R228, R230, R231, R234 to R236, R238: the matrix engine between issue and retirement.
R228, R234 to R236: an accepted instruction on tiles is performed when its turn has come, and not before: what it does to the tiles and to local
memory, what an `ardv` then reads, and the pending instruction that completes.
R225 to R228, R230, R231, R238: an operation starts when R228 lets it, or is abandoned at wrong metadata; reads its last operand; retires, when its
shadow becomes the tile, its flags reach the group that issued it, and an instruction that waited for it on the tile is performed. A freed slot ends a wait, and cleared tiles end `aalloc`. -/
def Obligations.MatrixOperationsRun : Prop :=
  (
    (∀ (b : Block) id o n, b.tops = [(id, o)] →
      (turnCome b id o.act → (Block.settleTops (n + 1) b) = { (b.onTile o.act).endTop o with tops := [] }) ∧
      (¬turnCome b id o.act → Block.settleTops (n + 1) b = b)) ∧
    (∀ (b : Block) n t, t ∈ (Block.settleTops n b).tops → t ∈ b.tops) ∧
    (∀ (b : Block) d, b.onTile (.zero d) = withTile b d []) ∧
    (∀ (b : Block) d a, b.onTile (.copy d a) = withTile b d (listGet [] b.acc a)) ∧
    (∀ (b : Block) d cells, cwf 0 (listGet [] b.acc d) → (cells.map Prod.fst).Nodup → ∃ c, b.onTile (.put d cells) = withTile b d c ∧
      (∀ e ∈ cells, cget 0 c e.1 = e.2) ∧ ∀ k, k ∉ cells.map Prod.fst → cget 0 c k = cget 0 (listGet [] b.acc d) k) ∧
    (∀ (b : Block) a at' keys, cwf 0 b.loc → ∃ m, b.onTile (.store a at' keys) = { b with loc := m } ∧
      (∀ w k, keys[w]? = some k → readLE m (at' + 4 * w) 4 = (cget 0 (listGet [] b.acc a) k).toNat) ∧
      ∀ p, p < at' ∨ at' + 4 * keys.length ≤ p → cget 0 m p = cget 0 b.loc p) ∧
    (∀ (b : Block) a base v n mask ty rnd sat fl draws, b.onTile (.get a base v n mask ty rnd sat fl draws) = b) ∧
    (∀ (b : Block) (o : TileOp), o.pend = none → b.endTop o = b) ∧
    (∀ (b : Block) (o : TileOp) id gr p, o.pend = some id → b.groups[o.g]? = some gr → tget gr.pend id = some p →
      ∃ wr fl, b.endTop o = { b with groups := listSet b.groups o.g ({ gr with pend := tput gr.pend id { p with wr := wr, fl := fl } }.complete id) } ∧
        (∀ a base v n mask ty rnd sat ftz' draws, o.act = .get a base v n mask ty rnd sat ftz' draws →
          let code (l e : Nat) : Nat := (elt (listGet [] b.acc a) (v % 2 ^ 7 + l) (v / 2 ^ 16 % 2 ^ 8 + e)).toNat
          let one (l e : Nat) : Nat × Nat := if ty = .f32 then (code l e, 0) else
            let r := roundF ty .ieee rnd sat (draws.getD (l * 32 + e) 0) (fvalue .f32 .ieee (code l e))
            if ftz' && subnormal ty r.1 then (zeroLike ty r.1, r.2 ||| fINX) else r
          wr = ((lanes mask).flatMap fun l => (List.range n).map fun e => .v (base + e) l (BitVec.ofNat 32 (one l e).1)) ∧
          fl = (lanes mask).foldl (fun f l => f ||| allFlags ((List.range n).map (one l))) 0) ∧
        ((∀ a base v n mask ty rnd sat ftz' draws, o.act ≠ .get a base v n mask ty rnd sat ftz' draws) → wr = [] ∧ fl = 0))) ∧
  (
    (∀ s b id bl o, opAt s b id bl o → mayBegin bl id o → (∀ e ∈ s.tileOps bl.slice bl.core, e.2.2.st ≠ .running) →
      (∀ e ∈ s.tileOps bl.slice bl.core, e.2.1 < id → ∀ y, tget s.blocks e.1 = some y → ¬mayBegin y e.2.1 e.2.2) →
      (o.metaBad bl.wbL = false → o.metaBad bl.wbF = false → ∃ t, exec (.mmaStart b id) s = .next t ∧
        BlockBecomes s t b { bl with mops := tput bl.mops id { o with st := .running, shadow := (o.run bl).1, fl := (o.run bl).2 } }) ∧
      ((o.metaBad bl.wbL ∨ o.metaBad bl.wbF) → bl.fail = none → ∃ t, exec (.mmaStart b id) s = .next t ∧
        tget t.blocks b = some (failed { bl with mops := tdel bl.mops id } { kind := 4, detail := 0x45, pc := o.pc, lane := o.lane }) ∧
        ∀ k, k ≠ b → tget t.blocks k = tget s.blocks k)) ∧
    (∀ s b id bl o, opAt s b id bl o → ¬mayBegin bl id o → exec (.mmaStart b id) s = .next s) ∧
    (∀ s b id bl o, opAt s b id bl o → o.st = .running → bl.rels = [] → ∃ t, exec (.mmaOperandsRead b id) s = .next t ∧
      BlockBecomes s t b { bl with mops := tput bl.mops id { o with st := .draining } }) ∧
    (∀ s b id bl o r, opAt s b id bl o → o.st = .running → bl.rels = [r] → r.ops = [id] → ∃ t, exec (.mmaOperandsRead b id) s = .next t ∧
      BlockBecomes s t b ({ bl with rels := [], mops := tput bl.mops id { o with st := .draining } }.arriveAt r.obj 1).1) ∧
    (∀ s b id bl o gr, opAt s b id bl o → o.st = .draining → (∀ e ∈ bl.mops, e.1 < id → e.2.stream ≠ o.stream) → GroupAt s b o.g gr →
      ∃ t bl' gr', exec (.mmaRetire b id) s = .next t ∧ tget t.blocks b = some bl' ∧ bl'.groups[o.g]? = some gr' ∧
        t = { s with blocks := t.blocks, slices := (s.count bl.slice bl.vd 0x002 1).slices } ∧
        (∀ k, k ≠ b → tget t.blocks k = tget s.blocks k) ∧
        (bl.tops = [] → bl' = { bl with mops := tdel bl.mops id, acc := bl'.acc, groups := bl'.groups } ∧
          bl'.acc = (if o.drop then bl.acc else listSet bl.acc o.tile o.shadow) ∧ gr' = { gr with flags := gr.flags ||| o.fl, tillers := gr'.tillers }) ∧
        (∀ k g d, bl.tops = [(k, { g := g, act := .zero d })] → bl.sops = [] → (∀ e ∈ tdel bl.mops id, e.2.tile ≠ d) →
          bl'.tops = [] ∧ bl'.acc = listSet (if o.drop then bl.acc else listSet bl.acc o.tile o.shadow) d [])) ∧
    (∀ s b id bl o, opAt s b id bl o → (o.st ≠ .draining ∨ ∃ e ∈ bl.mops, e.1 < id ∧ e.2.stream = o.stream) → exec (.mmaRetire b id) s = .next s) ∧
    (∀ s b g id gr p n, GroupAt s b g gr → tget gr.pend id = some p → p.kind = .cond (.aalloc n) → p.wr = [] →
      ∃ t, exec (.aallocComplete b g id) s = .next t ∧ GroupBecomes s t b g { gr with
        flags := gr.flags ||| p.fl, pend := tdel gr.pend id, tillers := gr.tillers.map (windowClosed id) }) ∧
    (∀ s b g k bl gr (u : Tiller), tget s.blocks b = some bl → bl.mops.length < 32 → bl.groups[g]? = some gr → gr.tillers[k]? = some u → u.st = .waiting →
      ∃ t, exec (.matrixSlotWaitEnd b g k) s = .next t ∧ GroupBecomes s t b g { gr with tillers := listSet gr.tillers k { u with st := .ready } }))

/-! ### The shaping engine (R242 to R267) -/

namespace Sys2Proof.Claims

/-- What precedes every shaping instruction's own effect: the block is a tile block (R246), a tile named is live (R214), the guard acts, and, for one
that takes a slot, one of the 16 is free (R260). -/
def ShapeRow (i : Instr) (h : Hd) (slot : Bool) (tile : Option AReg) (mode : Ex → Word) (eff : State → Ex → Prop) : Prop :=
  ∀ s x, Issues i s x →
    (x.b.isTile = false → Traps i s x 0x11 3) ∧
    (x.b.isTile → (∃ a, tile = some a ∧ x.b.live ≤ a.val) → Traps i s x 0x11 1) ∧
    (x.b.isTile → (∀ a, tile = some a → a.val < x.b.live) →
      (x.guard h = 0 → Passes i s x (mode x)) ∧
      (x.guard h ≠ 0 → slot → 16 ≤ x.b.sops.length → StaysWaiting i s x) ∧
      (x.guard h ≠ 0 → (slot → x.b.sops.length < 16) → eff s x))

/-- The block and the machine with a shaping operation accepted. -/
def accepted (u : State) (x : Ex) (h : Hd) (kind : ShKind) (set : Nat) (pend : Option Nat) : Ex :=
  { x with
    s := { u with nextId := u.nextId + 1 }
    b := { x.b with sops := x.b.sops ++ [(u.nextId, { g := x.c.g, kind := kind, set := set, pend := pend, pc := x.t.pc % 2 ^ 64, lane := lowLane (x.guard h),
                                                        after := x.g.nextPend })] } }

/-- A field of ATTR (R72). -/
def attrOf (e : TEnt) (hi lo : Nat) : Nat := e.attr / 2 ^ lo % 2 ^ (hi + 1 - lo)

/-- Whether an index along AXIS is a reset point (R245). -/
def resetAt (e : TEnt) (a : Nat) : Bool := if attrOf e 10 10 = 1 ∨ attrOf e 63 32 = 0 then a == 0 else a % attrOf e 63 32 == 0

/-- The checks of R74, and those of R255 against TYPE, `%fmt` and RD. -/
def entryOk (e : TEnt) (ty : FType) (fmt : Word) (rd : Nat) : Prop :=
  let code := attrOf e 3 0
  let size := if code = 0 then 4 else if code ≤ 2 then 2 else 1
  attrOf e 31 13 = 0 ∧ canonical e.base ∧ attrOf e 4 4 = 0 ∧ code ≤ 6 ∧ (3 ≤ code → attrOf e 6 5 ≠ 3) ∧ attrOf e 12 11 ≠ 3 ∧
  (attrOf e 7 7 = 1 → 3 ≤ code ∧ e.dims.getD (attrOf e 9 8) 1 % 32 = 0) ∧ (∀ n ∈ e.strides, n % size = 0) ∧ 0 ∉ e.dims ∧
  (if ty = .fmt then fmt.toNat % 16 = code else FType.ofCode code = some ty) ∧ rd ≠ attrOf e 9 8 ∧
  (attrOf e 12 11 ≠ 0 → attrOf e 63 32 ≠ 0 → attrOf e 10 10 = 0)

/-- The program fault of an address (R118). -/
def addrFail (x : Ex) (h : Hd) (acc va d : Nat) : Fail := { kind := 4, detail := d, va := va, pc := x.t.pc % 2 ^ 64, lane := lowLane (x.guard h), acc := acc }

/-- A store through an entry (R251, R255, R259, R261, R262): the address, the entry read at issue once the lowest lane's earlier accesses are over, its
checks, and the operation accepted. -/
def StoreRow (i : Instr) (h : Hd) (ty : FType) (rnd : Rnd) (tile : Option AReg) (a : SReg) (rd set : Nat) (st : Ex → TEnt → ShStore) : Prop :=
  let mode (x : Ex) : Word := if ty = .f32 then x.t.mode else stepped rnd x
  ShapeRow i h true tile mode fun s x =>
    let va := (x.g.sget a.val).toNat
    let turn := laneFree x.s x.c.b x.c.g (lowLane (x.guard h)) x.g.nextPend
    (va % 64 ≠ 0 → Fails i s x (addrFail x h 1 va 0x10)) ∧
    (va % 64 = 0 → canonical va = false → Fails i s x (addrFail x h 1 va 0x30)) ∧
    (va % 64 = 0 → canonical va → ¬turn → StaysWaiting i s x) ∧
    (∀ u d, va % 64 = 0 → canonical va → turn → x.s.engRead x.b.slice x.b.pid x.b.vd va 64 (some ⟨x.b.core, x.c.b⟩) = (u, .ok d) →
      let e := tentOf d
      (¬entryOk e ty x.t.fmt rd → Traps i s x 0x12 va) ∧
      (entryOk e ty x.t.fmt rd → Ends i s { accepted u x h (.store (st x e)) set none with
        g := if attrOf e 12 11 ≠ 0 ∧ (attrOf e 10 10 = 1 ∨ ¬resetAt e (st x e).a0) then dirtied x else x.g
        t := { nextT i x with mode := mode x } })) ∧
    (∀ u f, va % 64 = 0 → canonical va → turn → x.s.engRead x.b.slice x.b.pid x.b.vd va 64 (some ⟨x.b.core, x.c.b⟩) = (u, .error f) →
      u.unreported x.b.slice x.b.pid x.b.vd f = false →
      ∃ v n r, exec i s = .next { x with s := v, t := { x.t with st := .longWait (.fetch [{ va := va, f := f, token := n + 1 }]) } }.close ∧
        tget v.reports n = some r ∧ (r.f, r.va, r.waiter) = (f, va, .fetch x.c.b x.c.g x.c.t))

end Sys2Proof.Claims

/-- R246, R250 to R267: the instructions of the shaping engine. -/
def Obligations.ShapingInstructions : Prop :=
  (∀ o, StoreRow (.qst o) o.h o.ty o.rnd (some o.d) o.a o.rd.val o.c.val fun x e =>
    { ent := e, at' := (x.g.sget o.a.val).toNat, rd := o.rd.val, a0 := (x.g.sget o.b.val).toNat % 2 ^ 32, r0 := (x.g.sget o.b.val).toNat / 2 ^ 32
      rnd := effRnd x.t.mode o.rnd, sat := o.sat || satd x.t.mode, src := .tile o.d.val o.aint o.col0.val (o.ncol1.val + 1) o.alpha.toNat }) ∧
  (∀ o, StoreRow (.vqst o) o.h o.ty o.rnd none o.a o.rd.val o.d.val fun x e =>
    { ent := e, at' := (x.g.sget o.a.val).toNat, rd := o.rd.val, a0 := (x.g.sget o.c.val).toNat % 2 ^ 32, r0 := (x.g.sget o.c.val).toNat / 2 ^ 32
      rnd := effRnd x.t.mode o.rnd, sat := o.sat || satd x.t.mode
      src := .lanes o.row.val (x.guard o.h) o.sint ((List.range 32).map fun l => x.g.vget o.b.val l) }) ∧
  (∀ h d a off, ShapeRow (.qresLd h d a off) h true none same fun s x =>
    let va := baseAt x a off
    (va % 64 ≠ 0 → Fails (.qresLd h d a off) s x (addrFail x h 1 va 0x10)) ∧
    (va % 64 = 0 → canonical va = false → Fails (.qresLd h d a off) s x (addrFail x h 1 va 0x30)) ∧
    (va % 64 = 0 → canonical va → Ends (.qresLd h d a off) s { accepted x.s x h (.resLd va) d.val (some x.g.nextPend) with
      g := withPend x.g (condOf (.qresLd h d a off) x (.shape x.s.nextId)), t := longWaiter (.qresLd h d a off) x })) ∧
  (∀ h d a off, ShapeRow (.qresSt h d a off) h true none same fun s x =>
    let va := baseAt x a off
    (va % 64 ≠ 0 → Fails (.qresSt h d a off) s x (addrFail x h 2 va 0x10)) ∧
    (va % 64 = 0 → canonical va = false → Fails (.qresSt h d a off) s x (addrFail x h 2 va 0x30)) ∧
    (va % 64 = 0 → canonical va → Ends (.qresSt h d a off) s { accepted x.s x h (.resSt va) d.val none with t := nextT (.qresSt h d a off) x })) ∧
  (∀ h d, ShapeRow (.qzero h d) h true none same fun s x =>
    Ends (.qzero h d) s { accepted x.s x h .zero d.val none with t := nextT (.qzero h d) x }) ∧
  (∀ h rd ord2 d a b, ShapeRow (.qcfg h rd ord2 d a b) h true none same fun s x =>
    let w := (x.g.sget b.val).toNat
    Ends (.qcfg h rd ord2 d a b) s { accepted x.s x h (.cfg (x.g.sget a.val).toNat (w / 2 ^ 32) (w % 2 ^ 32) (if ord2 then 2 else 1) rd.val) d.val none with
      t := nextT (.qcfg h rd ord2 d a b) x }) ∧
  (∀ h sel v, ShapeRow (.qwait h sel v) h false none same fun s x =>
    let left := (x.b.sops.filter fun e => match sel with
      | .one n => e.2.set = n.val
      | .all _ => true).length
    (left ≤ val10 x.g v → Passes (.qwait h sel v) s x x.t.mode) ∧
    (val10 x.g v < left → Waits (.qwait h sel v) s x (.qwait sel (val10 x.g v)))) ∧
  (∀ h sel d a b, ShapeRow (.qrd h sel d a b) h true none same fun s x =>
    let i : Instr := .qrd h sel d a b
    Ends i s { accepted x.s x h (.read sel ((x.g.sget b.val).toNat % 128) (x.guard h) d.val) a.val (some x.g.nextPend) with
      g := withPend x.g { condOf i x (.shape x.s.nextId) with marks := [.v d.val] }
      t := { nextT i x with wins := (nextT i x).wins ++ opened i x } })

namespace Sys2Proof.Claims

/-- A shaping operation of a resident block that may be converted: none earlier of its set has yet to be, it has no unanswered fault, the earlier accesses
of its lane are over, and every `mma` and every write of its tile accepted before it is over (R250, R251, R254). -/
def convertible (s : State) (b id : Nat) (bl : Block) (o : ShOp) : Prop :=
  tget s.blocks b = some bl ∧ bl.res = .resident ∧ tget bl.sops id = some o ∧ o.out = none ∧ (∀ f, o.fault = some f → f.resolved) ∧
  (∀ e ∈ bl.sops, e.1 < id → e.2.set = o.set → e.2.out ≠ none) ∧ (∀ e ∈ bl.mops, e.1 < id → o.needs e.2.tile = false) ∧
  (∀ e ∈ bl.tops, e.1 < id → ∀ d, e.2.act.writes = some d → o.needs d = false) ∧ laneFree s b o.g o.lane o.after

/-- The operation is complete (R252): it has left the block, whose set `o.set` is `q`; its flags have reached its group, and a pending instruction has
its results; tillers that wait have tried again. -/
def Completed (i : Instr) (s : State) (b id : Nat) (bl : Block) (o : ShOp) (q : ResSet) (wr : List Wr) : Prop :=
  ∀ gr, bl.groups[o.g]? = some gr → o.set < bl.qsets.length →
    ∃ t bl' gr', exec i s = .next t ∧ t = { s with blocks := t.blocks } ∧ (∀ k, k ≠ b → tget t.blocks k = tget s.blocks k) ∧
      tget t.blocks b = some bl' ∧ bl' = { bl with sops := tdel bl.sops id, qsets := bl'.qsets, groups := bl'.groups } ∧
      bl'.qsets[o.set]? = some q ∧ (∀ k, k ≠ o.set → bl'.qsets[k]? = bl.qsets[k]?) ∧ bl'.groups[o.g]? = some gr' ∧
      (∀ p, o.pend = some p → (tget gr.pend p).isSome → (∀ e, tget gr.pend p = some e → e.fl = 0) → gr'.flags = gr.flags ||| o.fl) ∧
      (o.pend = none → gr' = { gr with flags := gr.flags ||| o.fl, tillers := gr'.tillers }) ∧
      ∀ p e, o.pend = some p → tget gr.pend p = some e →
        gr'.pend = tdel gr.pend p ∧ (gr'.v, gr'.s, gr'.p) = ((wr.foldl Group.put gr).v, (wr.foldl Group.put gr).s, (wr.foldl Group.put gr).p)

/-- The residues after an element (R244). -/
def residues (ok : Bool) (e old : Nat) : Nat × Nat := if ok then (e, old) else (0, 0)

/-- The index along dimension n of the element with index a along AXIS and r along RD; other indices are 0 (R242). -/
def indexOf (x : ShStore) (a r n : Nat) : Nat := if n = attrOf x.ent 9 8 then a else if n = x.rd then r else 0

/-- The place of an index in an array whose dimension 0 is innermost. -/
def linearOf (i d : Nat → Nat) : Nat := i 0 + d 0 * (i 1 + d 1 * (i 2 + d 2 * i 3))

/-- Where a row of elements begins (R73). -/
def rowAddr (x : ShStore) (a r : Nat) : Nat :=
  x.ent.base + ((List.range 3).map fun j => indexOf x a r (j + 1) * x.ent.strides.getD j 0).sum

/-- An FP32 result to nearest even. -/
def f32 (v : Xv) : Nat := (roundF .f32 .ieee .rne false 0 v).1

/-- What bytes of an operation make of one place: later bits stand over earlier ones (R73). -/
def gathered (l : List ShByte) (va : Nat) : Nat × Nat :=
  (l.filter fun w => w.va = va).foldl (fun o w => (o.1 ||| w.mask, o.2 - (o.2 &&& w.mask) + (w.val &&& w.mask))) (0, 0)

end Sys2Proof.Claims

/-- R53, R62, R72, R73, R242 to R248, R250 to R254, R256, R257, R263 to R267: the shaping engine between acceptance and completion, and its elements.
R242 to R248, R250 to R254, R263 to R267: elements and their residues, reset points, the hand-over check, the image of a set, and the events by which
the operations are converted and written.
R53, R62, R72, R73, R242 to R244, R248, R253, R256, R257: the lines of a store, the conversion of their elements in order with first and second order carry, where an
element's bits and its scale lie, the residue row after a line, and how bytes that share a place with others are merged. -/
def Obligations.ShapingOperations : Prop :=
  (
    (∀ f rd rnd sat draw sc reset x e, sc ≠ some 255 → (shapeElem 0 f rd rnd sat draw sc reset x e).1 =
      (roundF f rd rnd sat draw (scaleX (some (match sc with
        | some c => 127 - (c : Int)
        | none => 0)) (v32 (r32 (xAdd false (v32 x) (v32 0)).1), 0)).1).1) ∧
    (∀ order f rd rnd sat draw x e, shapeElem order f rd rnd sat draw none true x e = shapeElem order f rd rnd sat draw none false x (0, 0)) ∧
    (∀ order f rd rnd sat draw reset x e, (shapeElem order f rd rnd sat draw (some 255) reset x e).2.2 = (0, 0) ∧
      (shapeElem order f rd rnd sat draw (some 255) reset x e).2.1 &&& fINV = fINV) ∧
    (∀ f rd rnd sat draw x (e : Nat × Nat),
      let u := v32 (r32 (xAdd false (v32 x) (v32 e.1)).1)
      let r := shapeElem 1 f rd rnd sat draw none false x e
      let q := roundF f rd rnd sat draw (scaleX (some 0) (u, 0)).1
      r.1 = q.1 ∧ r.2.1 = q.2 ∧ r.2.2 = residues (u.finite && (fvalue f rd q.1).finite && q.2 &&& fSATF == 0)
        (r32 (xAdd false u (v32 (r32 (scaleX (some 0) (fvalue f rd q.1, 0)).1)).neg).1) e.1) ∧
    (∀ (e : TEnt) a, e.resets a = true ↔ resetAt e a) ∧
    (∀ (x : ShStore) l ls q, attrOf x.ent 12 11 ≠ 0 → x.ent.resets x.a0 = false →
      ((x.check (l :: ls) q).isSome ↔ q.valid ∧ q.entry = x.at' ∧ q.order = attrOf x.ent 12 11 ∧ q.rd = x.rd ∧ q.roworg = x.roworg ∧
        ∀ m ∈ l :: ls, (cget {} q.rows m.row).valid ∧ (cget {} q.rows m.row).next.toNat = x.a0)) ∧
    (∀ (x : ShStore) l ls (q : ResSet), attrOf x.ent 12 11 ≠ 0 → x.ent.resets x.a0 → cwf {} q.rows →
      let same := q.valid ∧ q.entry = x.at' ∧ q.order = attrOf x.ent 12 11 ∧ q.rd = x.rd ∧ q.roworg = x.roworg
      (same → x.check (l :: ls) q = some q) ∧
      (¬same → ∃ rows, x.check (l :: ls) q =
          some { entry := x.at', roworg := x.roworg, valid := true, order := attrOf x.ent 12 11, rd := x.rd, rows := rows } ∧
        (∀ k, k < 128 → (cget {} rows k).valid = false) ∧ ∀ m ∈ l :: ls, ((cget {} rows m.row).e1, (cget {} rows m.row).e2) = (0, 0))) ∧
    (∀ (q : ResSet), cwf {} q.rows → (∀ e ∈ q.rows, e.1 < 128) → q.entry < 2 ^ 64 → q.roworg < 2 ^ 32 → q.order < 4 → q.rd < 4 → (q.valid → q.order = 1 ∨ q.order = 2) →
      q.image.length = 2112 ∧ setOfImage q.image = some q) ∧
    (∀ s b id bl o, convertible s b id bl o → o.kind = .zero → Completed (.shapeConversion b id) s b id bl o {} []) ∧
    (∀ s b id bl o en ro nx od rd, convertible s b id bl o → o.kind = .cfg en ro nx od rd → cwf {} (listGet {} bl.qsets o.set).rows →
      ∃ rows, Completed (.shapeConversion b id) s b id bl o { entry := en, roworg := ro, valid := true, order := od, rd := rd, rows := rows } [] ∧
        ∀ k, k < 128 → cget {} rows k = { cget {} (listGet {} bl.qsets o.set).rows k with next := BitVec.ofNat 32 nx, valid := true }) ∧
    (∀ s b id bl o sel w mask d, convertible s b id bl o → o.kind = .read sel w mask d →
      let q : ResSet := listGet {} bl.qsets o.set
      let row (l : Nat) : ResRow := if 127 < w + l then {} else cget {} q.rows (w + l)
      Completed (.shapeConversion b id) s b id bl o q ((lanes mask).map fun l => .v d l (match sel with
        | .e1 => (row l).e1
        | .e2 => (row l).e2
        | .next => if 127 < w + l then 0 else BitVec.ofNat 32 ((row l).next.toNat % 2 ^ 31 + if (row l).valid then 2 ^ 31 else 0)
        | .hdr => BitVec.ofNat 32 ([q.entry, q.entry / 2 ^ 32, q.roworg, (if q.valid then 2 ^ 31 else 0) + q.order * 4 + q.rd].getD l 0)))) ∧
    (∀ s b id bl o va u l q, convertible s b id bl o → o.kind = .resLd va → State.shRead b bl 64 ((upto 33).map fun k => (va + 64 * k) % 2 ^ 64) s = (u, .ok l) →
      setOfImage (l.flatMap Prod.snd) = some q → tget u.blocks b = some bl →
      ∃ t bl', exec (.shapeConversion b id) s = .next t ∧ t.mem = u.mem ∧ tget t.blocks b = some bl' ∧ bl'.sops = tdel bl.sops id ∧
        (o.set < bl.qsets.length → bl'.qsets[o.set]? = some q)) ∧
    (∀ s b id bl o va, convertible s b id bl o → o.kind = .resSt va → ∃ t, exec (.shapeConversion b id) s = .next t ∧
      BlockBecomes s t b { bl with sops := tput bl.sops id { o with out := some ((List.range 2112).map fun k =>
        { va := (va + k) % 2 ^ 64, mask := 255, val := ((listGet {} bl.qsets o.set).image.getD k 0).toNat }) } }) ∧
    (∀ s b id bl o (x : ShStore), convertible s b id bl o → o.kind = .store x → x.check (x.lines bl) (listGet {} bl.qsets o.set) = none → bl.fail = none →
      ∃ t, exec (.shapeConversion b id) s = .next t ∧
        tget t.blocks b = some (failed { bl with sops := tdel bl.sops id } { kind := 4, detail := 0x51, pc := o.pc, lane := o.lane })) ∧
    (∀ s b id bl o (x : ShStore) q u sc, convertible s b id bl o → o.kind = .store x → attrOf x.ent 7 7 = 1 → x.check (x.lines bl) (listGet {} bl.qsets o.set) = some q →
      State.shRead b bl 1 ((x.lines bl).flatMap fun l => l.els.map fun e => x.scaleVa e.1 l.r).eraseDups s = (u, .ok sc) → tget u.blocks b = some bl →
      let r := x.convert bl (sc.map fun e => (e.1, ofBytes e.2)) (x.lines bl) q
      ∃ t bl', exec (.shapeConversion b id) s = .next t ∧ t = { u with blocks := t.blocks } ∧ tget t.blocks b = some bl' ∧
        bl' = { bl with sops := bl'.sops, qsets := listSet bl.qsets o.set r.2.2, groups := bl'.groups } ∧
        tget bl'.sops id = some { o with out := some ((x.inOrder r.1).flatMap fun c => x.bytes c.1 c.2.1 c.2.2), fl := o.fl ||| r.2.1, fault := none }) ∧
    (∀ s b id bl o (x : ShStore) q u d va acc, convertible s b id bl o → o.kind = .store x → attrOf x.ent 7 7 = 1 →
      x.check (x.lines bl) (listGet {} bl.qsets o.set) = some q → bl.fail = none →
      State.shRead b bl 1 ((x.lines bl).flatMap fun l => l.els.map fun e => x.scaleVa e.1 l.r).eraseDups s = (u, .error (.prog d va acc)) →
      tget u.blocks b = some bl → ∃ t, exec (.shapeConversion b id) s = .next t ∧
        tget t.blocks b = some (failed { bl with sops := tdel bl.sops id } { kind := 4, detail := d, va := va, pc := o.pc, lane := o.lane, acc := acc.code })) ∧
    (∀ s b id bl o (x : ShStore) q, convertible s b id bl o → o.kind = .store x → attrOf x.ent 7 7 = 0 → x.check (x.lines bl) (listGet {} bl.qsets o.set) = some q →
      ∃ t bl', exec (.shapeConversion b id) s = .next t ∧ t = { s with blocks := t.blocks } ∧ tget t.blocks b = some bl' ∧
        bl' = { bl with sops := bl'.sops, qsets := listSet bl.qsets o.set (x.convert bl [] (x.lines bl) q).2.2, groups := bl'.groups } ∧
        tget bl'.sops id = some { o with
          out := some ((x.inOrder (x.convert bl [] (x.lines bl) q).1).flatMap fun c => x.bytes c.1 c.2.1 c.2.2)
          fl := o.fl ||| (x.convert bl [] (x.lines bl) q).2.1, fault := none }) ∧
    (∀ s b id bl o out u, tget s.blocks b = some bl → bl.res = .resident → tget bl.sops id = some o → o.out = some out → (∀ f, o.fault = some f → f.resolved) →
      (∀ e ∈ bl.sops, e.1 < id → e.2.set ≠ o.set) → State.shWrite b bl out s = (u, [], none) → tget u.blocks b = some bl → o.pend = none →
      ∃ t bl', exec (.shapeWriteComplete b id) s = .next t ∧ t = { u with blocks := t.blocks } ∧ tget t.blocks b = some bl' ∧
        bl' = { bl with sops := tdel bl.sops id, groups := bl'.groups } ∧
        ∀ gr, bl.groups[o.g]? = some gr → ∃ gr', bl'.groups[o.g]? = some gr' ∧ gr' = { gr with flags := gr.flags ||| o.fl, tillers := gr'.tillers }) ∧
    (∀ s b id bl o out u w rest f va acc, tget s.blocks b = some bl → bl.res = .resident → tget bl.sops id = some o → o.out = some out →
      (∀ f, o.fault = some f → f.resolved) → (∀ e ∈ bl.sops, e.1 < id → e.2.set ≠ o.set) → State.shWrite b bl out s = (u, w :: rest, some (.fault f va acc)) →
      u.unreported bl.slice bl.pid bl.vd f = false → tget u.blocks b = some bl →
      ∃ t n r, exec (.shapeWriteComplete b id) s = .next t ∧ tget t.reports n = some r ∧ (r.f, r.va, r.waiter) = (f, va, .shape id) ∧
        ∃ bl', tget t.blocks b = some bl' ∧ tget bl'.sops id = some { o with out := some (w :: rest), fault := some { va := va, f := f, token := n + 1 } }) ∧
    (∀ s b id bl o out u left d va acc, tget s.blocks b = some bl → bl.res = .resident → bl.fail = none → tget bl.sops id = some o → o.out = some out →
      (∀ f, o.fault = some f → f.resolved) → (∀ e ∈ bl.sops, e.1 < id → e.2.set ≠ o.set) → State.shWrite b bl out s = (u, left, some (.prog d va acc)) →
      tget u.blocks b = some bl → ∃ t, exec (.shapeWriteComplete b id) s = .next t ∧
        tget t.blocks b = some (failed { bl with sops := tdel bl.sops id } { kind := 4, detail := d, va := va, pc := o.pc, lane := o.lane, acc := acc.code }))) ∧
  (
    (∀ (x : ShStore) (b : Block) d aint col0 ncol alpha, x.src = .tile d aint col0 ncol alpha →
      x.lines b = ((List.range 128).filter fun i => decide (x.r0 + i < x.ent.dims.getD x.rd 1)).map fun i =>
        { row := i, r := x.r0 + i
          els := ((List.range ncol).filter fun k => decide (x.a0 + k < x.ent.dims.getD (attrOf x.ent 9 8) 1)).map fun k =>
            let w := elt (listGet [] b.acc d) i (col0 + k)
            (x.a0 + k, f32 (xMul (if aint then .num (decide (w.toInt < 0)) w.toInt.natAbs 0 else fvalue .f32 .ieee w.toNat) (fvalue .f32 .ieee alpha)).1) }) ∧
    (∀ (x : ShStore) (b : Block) row mask sint vals, x.src = .lanes row mask sint vals →
      x.lines b = if x.ent.dims.getD x.rd 1 ≤ x.r0 then [] else
        [{ row := row, r := x.r0
           els := ((lanes mask).filter fun l => decide (x.a0 + l < x.ent.dims.getD (attrOf x.ent 9 8) 1)).map fun l =>
            let w : Word := vals.getD l 0
            (x.a0 + l, if sint then f32 (.num (decide (w.toInt < 0)) w.toInt.natAbs 0) else w.toNat) }]) ∧
    (∀ (x : ShStore), x.roworg = match x.src with
      | .tile _ _ _ _ _ => x.r0
      | .lanes row _ _ _ => (x.r0 + 2 ^ 32 - row) % 2 ^ 32) ∧
    (∀ (x : ShStore) a r, x.lin a r = linearOf (indexOf x a r) fun n => x.ent.dims.getD n 1) ∧
    (∀ (x : ShStore) a r, x.scaleVa a r = (x.ent.base + x.ent.soff + linearOf
      (fun n => if n = attrOf x.ent 9 8 then indexOf x a r n / 32 else indexOf x a r n)
      (fun n => if n = attrOf x.ent 9 8 then x.ent.dims.getD n 1 / 32 else x.ent.dims.getD n 1)) % 2 ^ 64) ∧
    (∀ (x : ShStore) a r code, let w := fmtBits x.ent.fmt
      let i0 := indexOf x a r 0
      let put (k m v : Nat) : ShByte := { va := (rowAddr x a r + k) % 2 ^ 64, mask := m, val := v }
      code < 2 ^ w →
      (8 ≤ w → x.bytes a r code = (List.range (w / 8)).map fun k => put (i0 * (w / 8) + k) 255 (code / 256 ^ k % 256)) ∧
      (x.ent.fmt = .e2m1 → x.bytes a r code = [put (i0 / 2) (15 * 16 ^ (i0 % 2)) (code * 16 ^ (i0 % 2))]) ∧
      (x.ent.fmt = .ln6 → let g := 3 * (i0 / 4)
        (i0 % 4 = 0 → x.bytes a r code = [put g 0x3F code]) ∧
        (i0 % 4 = 1 → x.bytes a r code = [put g 0xC0 (code % 4 * 64), put (g + 1) 0x0F (code / 4)]) ∧
        (i0 % 4 = 2 → x.bytes a r code = [put (g + 1) 0xF0 (code % 16 * 16), put (g + 2) 0x03 (code / 16)]) ∧
        (i0 % 4 = 3 → x.bytes a r code = [put (g + 2) 0xFC (code * 4)]))) ∧
    (∀ order f rd rnd sat draw (sc : Option Nat) x (e : Nat × Nat), sc ≠ some 255 →
      let c := if order = 0 then 0 else if order = 1 then e.1 else f32 (xAdd false (scaleX (some 1) (fvalue .f32 .ieee e.1, 0)).1 (fvalue .f32 .ieee e.2).neg).1
      let k : Int := match sc with
        | some c => (c : Int) - 127
        | none => 0
      let u := fvalue .f32 .ieee (f32 (xAdd false (fvalue .f32 .ieee x) (fvalue .f32 .ieee c)).1)
      let q := roundF f rd rnd sat draw (scaleX (some (-k)) (u, 0)).1
      let y := fvalue .f32 .ieee (f32 (scaleX (some k) (fvalue f rd q.1, 0)).1)
      shapeElem order f rd rnd sat draw sc false x e =
        (q.1, q.2, residues (u.finite && (fvalue f rd q.1).finite && q.2 &&& fSATF == 0) (f32 (xAdd false u y.neg).1) e.1)) ∧
    (∀ (k : Int) fl n m e, scaleX (some k) (.num n m e, fl) = (.num n m (e + k), fl) ∧ scaleX (some k) (.inf n, fl) = (.inf n, fl)) ∧
    (∀ (x : ShStore) b scales r e, x.convLine b scales r [] e = ([], 0, e)) ∧
    (∀ (x : ShStore) b scales r a c t e,
      let sc := if attrOf x.ent 7 7 = 1 then some ((tget scales (x.scaleVa a r)).getD 127) else none
      let rd := if tyF3.contains x.ent.fmt then .ieee else x.ent.read
      let y := shapeElem (attrOf x.ent 12 11) x.ent.fmt rd x.rnd x.sat
        (srgen b.seed b.idx (2 ^ 31 + x.at' / 2 ^ 6 % 2 ^ 25) (x.lin a r % 2 ^ 32)) sc (x.ent.resets a) c e
      let z := x.convLine b scales r t y.2.2
      x.convLine b scales r ((a, c) :: t) e = ((a, r, y.1) :: z.1, y.2.1 ||| z.2.1, z.2.2)) ∧
    (∀ (x : ShStore) b scales q, x.convert b scales [] q = ([], 0, q)) ∧
    (∀ (x : ShStore) b scales (l : Line) ls q,
      let row : ResRow := cget {} q.rows l.row
      let y := x.convLine b scales l.r l.els (row.e1.toNat, row.e2.toNat)
      let width := match x.src with
        | .tile _ _ _ n _ => n
        | .lanes _ _ _ _ => 32
      let new : ResRow := { e1 := BitVec.ofNat 32 y.2.2.1, e2 := BitVec.ofNat 32 y.2.2.2, next := BitVec.ofNat 32 (x.a0 + width), valid := true }
      let q' : ResSet := if attrOf x.ent 12 11 = 0 then q else { q with rows := cset {} q.rows l.row new }
      let z := x.convert b scales ls q'
      x.convert b scales (l :: ls) q = (y.1 :: z.1, y.2.1 ||| z.2.1, z.2.2)) ∧
    (∀ (x : ShStore) codes, (attrOf x.ent 9 8 < x.rd → x.inOrder codes = codes.flatten) ∧
      (∀ l, codes = [l] → x.rd < attrOf x.ent 9 8 → l.length ≤ x.width → x.inOrder codes = l) ∧
      ∀ c, c ∈ x.inOrder codes → ∃ l ∈ codes, c ∈ l) ∧
    (∀ (l : List ShByte) gran k, k < 128 → (tget ((tget (shGrans l) gran).getD []) k).getD (0, 0) = gathered l (gran * 128 + k)) ∧
    (∀ g : ShGran, (g.runs.flatMap fun r => (List.range r.2.length).map fun i => (r.1 + i, r.2.getD i 0)) = g.map fun e => (e.1, BitVec.ofNat 8 e.2.2)) ∧
    (∀ (s s1 s2 : State) bi b (w : ShByte) d, canonical w.va → w.mask < 255 → 0 < w.mask →
      s.engRead b.slice b.pid b.vd (w.va / 128 * 128) 128 (some ⟨b.core, bi⟩) = (s1, .ok d) →
      let old := (d.getD (w.va % 128) 0).toNat
      s1.engWrite b.slice b.pid b.vd w.va [BitVec.ofNat 8 (old - (old &&& w.mask) + (w.val &&& w.mask))] { op := 1 } (some ⟨b.core, bi⟩) = (s2, none) →
      ∃ u, State.shWrite bi b [w] s = (u, [], none) ∧ u.mem = s2.mem ∧ u.blocks = s2.blocks) ∧
    (∀ (s s2 : State) bi b (w : ShByte), canonical w.va → w.mask = 255 →
      s.engWrite b.slice b.pid b.vd w.va [BitVec.ofNat 8 (w.val &&& 255)] { op := 1 } (some ⟨b.core, bi⟩) = (s2, none) →
      ∃ u, State.shWrite bi b [w] s = (u, [], none) ∧ u.mem = s2.mem ∧ u.blocks = s2.blocks) ∧
    (∀ (s : State) bi b (w : ShByte), canonical w.va = false → State.shWrite bi b [w] s = (s, [w], some (.prog 0x30 w.va { w := true }))) ∧
    (∀ (s : State) bi b n va t, canonical va = false → State.shRead bi b n (va :: t) s = (s, .error (.prog 0x30 va { r := true }))) ∧
    (∀ (s u : State) bi b n va t f, canonical va → s.engRead b.slice b.pid b.vd va n (some ⟨b.core, bi⟩) = (u, .error f) →
      (f.kind = .firewall → State.shRead bi b n (va :: t) s = (u, .error (.prog 0x53 va { r := true }))) ∧
      (f.kind = .poison → State.shRead bi b n (va :: t) s = (u, .error (.prog 0x54 va { r := true }))) ∧
      (f.kind ≠ .firewall → f.kind ≠ .poison → State.shRead bi b n (va :: t) s = (u, .error (.fault f va { r := true })))) ∧
    (∀ (s u v : State) bi b n va t d l, canonical va → s.engRead b.slice b.pid b.vd va n (some ⟨b.core, bi⟩) = (u, .ok d) →
      State.shRead bi b n t u = (v, .ok l) → State.shRead bi b n (va :: t) s = (v, .ok ((va, d) :: l))))

/-! ### The launch engine (R269 to R296) and the marks of the residency and trace engines (R300 to R303, R411 to R413) -/

namespace Sys2Proof.Claims

/-- The address of an access at issue is aligned and canonical, or the program fault of R118. -/
def AddrOk (i : Instr) (h : Hd) (s : State) (x : Ex) (va al : Nat) : Prop :=
  (va % al ≠ 0 → Fails i s x (addrFail x h 1 va 0x10)) ∧ (va % al = 0 → canonical va = false → Fails i s x (addrFail x h 1 va 0x30))

/-- The scalar `d` receives a value at issue, and the group is dirty (R294, R300). -/
def LaunchGives (i : Instr) (s : State) (x : Ex) (d : SReg) (u : State) (v : Nat) : Prop :=
  Ends i s { x with
    s := u
    g := { (readCounted x).g.sset d.val (BitVec.ofNat 64 v) with flash := { x.g.flash with dirty := true } }
    t := nextT i x }

/-- The queue that a scalar names for `launch` (R294): a DEV queue of the executing VD. -/
def devQueue (x : Ex) (b : SReg) (k : Queue) : Prop :=
  (x.g.sget b.val).toNat < 2 ^ 16 ∧ tget x.s.queues (queueKey x.b.pid (x.g.sget b.val).toNat) = some k ∧ k.vd = x.b.vd ∧ k.dev = true

/-- A counter named by a handle (R296): its address. -/
def counterAt (x : Ex) (v va : Nat) : Prop :=
  v < 2 ^ 19 ∧
  ((v / 2 ^ 16 = 1 ∧ ∃ q, tget x.s.queues (queueKey x.b.pid (v % 2 ^ 16)) = some q ∧ q.vd = x.b.vd ∧ va = q.hdr + 32) ∨
    (2 ≤ v / 2 ^ 16 ∧ v / 2 ^ 16 ≤ 4 ∧ ∀ p, tget x.s.parts x.b.pid = some p → va = (cget 0 p.ctrBase x.b.vd + 8 * (65536 * (v / 2 ^ 16 - 2) + v % 2 ^ 16)) % 2 ^ 64))

/-- The instruction completes, and the group's flashback point is then valid or not (R301). -/
def EndsPoint (i : Instr) (s : State) (y : Ex) (v : Bool) : Prop :=
  ∃ t g, exec i s = .next t ∧ Holds t y ∧ GroupAt t y.c.b y.c.g g ∧ g.flash.valid = v

/-- A flashback record that keeps R303, of its 128 bytes. -/
def recordOk (g : Group) (r : List Byte) : Prop :=
  let nv := (r.getD 8 0).toNat
  let v (k : Nat) : Nat := (r.getD (64 + 2 * k) 0).toNat + 256 * (r.getD (65 + 2 * k) 0).toNat
  (∀ k, (9 ≤ k ∧ k < 16) ∨ (34 ≤ k ∧ k < 64) → r.getD k 0 = 0) ∧ nv ≤ 32 ∧ (∀ k, k < nv → v k < g.vregs) ∧ (∀ k, nv ≤ k → k < 32 → v k = 0) ∧
  (∀ j k, j < k → k < nv → v j ≠ v k) ∧ ∀ k, k < 128 → g.sregs ≤ k → (r.getD (16 + k / 8) 0).getLsbD (k % 8) = false

/-- A table with the marks of one group's entries cleared (R199, R233, R259). -/
def unmarked {α : Type} (l : List (Nat × α)) (mine : α → Bool) (clear : α → α) : List (Nat × α) := l.map fun e => (e.1, if mine e.2 then clear e.2 else e.2)

/-- The executing VD's trace entry is loaded on its slice. -/
def traceEnt (x : Ex) (e : TrcEnt) : Prop := tget (x.s.slice x.b.slice).trc x.b.vd = some e

/-- An event that is implemented (R402). -/
abbrev knownEvent (ev : Nat) : Prop := ev ≤ 0xD ∨ (0x100 ≤ ev ∧ ev ≤ 0x116) ∨ ev = 0x200

/-- What a read of a counter gives (R402, R406). -/
def counterVal (c : CtrSet) (n : Nat) : Nat :=
  let ev := listGet 0 c.sel n % 2 ^ 16
  if c.off.testBit n ∨ ¬knownEvent ev then 2 ^ 64 - 1 else listGet 0 c.ctr n

end Sys2Proof.Claims

/-- R294 to R296, R300 to R303, R411 to R413: `launch`, `cancel`, `ctrrd`, `ctrwait`, `fbpt`, `tmark`, `pmcrd` and `tctl`, outside record and replay. That
`cancel.launch` takes the identifier 0 while no graph, phase or job has it is the model's reading (notes/assumptions/91.md). -/
def Obligations.LaunchAndTraceInstructions : Prop :=
  (∀ h d a b off s x, Issues (.launch h d a b off) s x →
    let i : Instr := .launch h d a b off
    let va := baseAt x a off
    (x.guard h = 0 → Passes i s x x.t.mode) ∧
    (x.guard h ≠ 0 → notRecording x →
      ((∀ k, ¬devQueue x b k) → LaunchGives i s x d x.s 0xFFFFFFFFFFFFFFFE) ∧
      (∀ k u, devQueue x b k → x.s.readHdr x.b.slice k = (u, .ok none) → notRecording { x with s := u } → LaunchGives i s x d u 0xFFFFFFFFFFFFFFFE) ∧
      (∀ k u q, devQueue x b k → x.s.readHdr x.b.slice k = (u, .ok (some q)) → notRecording { x with s := u } → q.done + 2 ^ q.lg ≤ q.tail →
        LaunchGives i s x d u 0xFFFFFFFFFFFFFFFF) ∧
      (∀ k u q, devQueue x b k → x.s.readHdr x.b.slice k = (u, .ok (some q)) → q.tail < q.done + 2 ^ q.lg →
        AddrOk i h s x va 128 ∧ (va % 128 = 0 → canonical va →
        (¬doneAt .prt x → StaysWaiting i s x) ∧
        (∀ w p w1 w2, doneAt .prt x →
          u.engRead x.b.slice x.b.pid x.b.vd va 128 (some ⟨x.b.core, x.c.b⟩) = (w, .ok p) → notRecording { x with s := w } →
          tget w.queues (queueKey x.b.pid (x.g.sget b.val).toNat) = some k → k.pid = x.b.pid →
          w.vaWrite x.b.slice x.b.pid x.b.vd ((q.ring + 128 * (q.tail % 2 ^ q.lg)) % 2 ^ 64) (p.take 112 ++ List.replicate 16 0) = (w1, none) →
          w1.vaWrite x.b.slice x.b.pid x.b.vd (k.hdr + 16) (toBytes 8 (q.tail + 1)) = (w2, none) →
          LaunchGives i s x d (w2.notify (queueKey x.b.pid (x.g.sget b.val).toNat)) (((x.g.sget b.val).toNat * 2 ^ 48 + q.tail) % 2 ^ 64)))))) ∧
  (∀ h lvl clr a s x p, Issues (.cancel h lvl clr a) s x → tget x.s.parts x.b.pid = some p →
    let i : Instr := .cancel h lvl clr a
    let id := (x.g.sget a.val).toNat
    let lv := match lvl with | .launch => 0 | .graph => 1 | .phase => 2 | .job => 3
    let old := (tget p.cancels (x.b.vd * 4 + lv)).getD []
    let now (l : List Nat) : List (Nat × Part) := tput x.s.parts x.b.pid { p with cancels := tput p.cancels (x.b.vd * 4 + lv) l }
    (x.guard h = 0 ∨ (lv ≠ 0 ∧ (id = 0 ∨ 2 ^ 16 ≤ id)) → Passes i s x x.t.mode) ∧
    (x.guard h ≠ 0 → (lv = 0 ∨ (id ≠ 0 ∧ id < 2 ^ 16)) →
      (clr → Ends i s { x with s := { x.s with parts := now (old.filter fun n => n ≠ id) }, t := nextT i x }) ∧
      (clr = false → ∃ k : Cancel, Ends i s { x with
          s := { x.s with
            parts := if lv = 0 then x.s.parts else now ((id :: old.filter fun n => n ≠ id).take 16)
            nextId := x.s.nextId + 1, cancels := tput x.s.cancels x.s.nextId k }
          t := nextT i x } ∧
        k.slices = p.slices ∧ ∀ lk, lk ∈ k.launches ↔ ∃ l, (lk, l) ∈ x.s.launches ∧ l.pid = x.b.pid ∧ l.vd = x.b.vd ∧
          (if lv = 0 then l.lid = id else pkId l.pkt lv = id)))) ∧
  (∀ h d a s x, Issues (.ctrrd h d a) s x →
    let i : Instr := .ctrrd h d a
    let v := (x.g.sget a.val).toNat
    (x.guard h = 0 → Passes i s x x.t.mode) ∧
    (x.guard h ≠ 0 → (∀ va, ¬counterAt x v va) → Fails i s x (addrFail x h 1 v 0x30)) ∧
    (∀ va u b, x.guard h ≠ 0 → counterAt x v va → (tget x.s.parts x.b.pid).isSome → x.s.vaRead x.b.slice x.b.pid x.b.vd va 8 = (u, .ok b) →
      notRecording { x with s := u } →
      Posts i s { readCounted x with s := u.acquire x.b.slice x.b.core x.b.vd .prt } [.s d.val (BitVec.ofNat 64 (ofBytes b))] 0)) ∧
  (∀ h a n s x, Issues (.ctrwait h a n) s x →
    let i : Instr := .ctrwait h a n
    let v := (x.g.sget a.val).toNat
    let goal : Nat := match n with
      | .reg r => (x.g.sget r.val).toNat
      | .imm k => k.toNat
    (x.guard h = 0 → Passes i s x x.t.mode) ∧
    (x.guard h ≠ 0 → (∀ va, ¬counterAt x v va) → Fails i s x (addrFail x h 1 v 0x30)) ∧
    (∀ va u b, x.guard h ≠ 0 → counterAt x v va → (tget x.s.parts x.b.pid).isSome → x.s.vaRead x.b.slice x.b.pid x.b.vd va 8 = (u, .ok b) → b.length = 8 →
      (((ofBytes b : Int) - goal) % 2 ^ 64 < 2 ^ 63 → Ends i s { x with s := u.acquire x.b.slice x.b.core x.b.vd .prt, t := nextT i x }) ∧
      (2 ^ 63 ≤ ((ofBytes b : Int) - goal) % 2 ^ 64 → Waits i s { x with s := u } (.ctrwait va goal)))) ∧
  (∀ look off s x, Issues (.fbpt look off) s x →
    let i : Instr := .fbpt look off
    let ra := relTarget off x
    let whole := (x.g.tillers.filter fun t => t.st.live).length ≤ 1 ∧ x.g.rcds = [] ∧ x.g.wide = none
    ((∃ e ∈ x.g.pend, e.2.op < 0xB0) → StaysWaiting i s x) ∧
    ((∀ e ∈ x.g.pend, 0xB0 ≤ e.2.op) → (ra % 128 ≠ 0 ∨ ¬whole) → EndsPoint i s { x with t := nextT i x } false) ∧
    ((∀ e ∈ x.g.pend, 0xB0 ≤ e.2.op) → ra % 128 = 0 → whole → canonical ra = false →
      Fails i s x { kind := 4, detail := 0x30, va := ra, pc := x.t.pc % 2 ^ 64, lane := lowLane x.t.mask, acc := 4 }) ∧
    (∀ u w l r, (∀ e ∈ x.g.pend, 0xB0 ≤ e.2.op) → ra % 128 = 0 → whole → canonical ra →
      x.s.reach x.b.slice x.b.pid x.b.vd ra { x := true } (some ⟨x.b.core, x.c.b⟩) = (u, .ok l) →
      (u.touch l.home x.b.pid x.b.vd (vdTag x.b.vd ra) (ra / 128) l.sla {}).homeRead l.home l.sla 128 l.key = (w, some r) → r.length = 128 →
      (¬recordOk x.g r → EndsPoint i s { x with s := w, t := nextT i x } false) ∧
      (recordOk x.g r → EndsPoint i s { x with
        s := { w with copies := unmarked w.copies (fun c => c.b == x.c.b && c.g == x.c.g) fun c => { c with post := false } }
        b := { x.b with
          mops := unmarked x.b.mops (fun o => o.g == x.c.g) fun o => { o with post := false }
          tops := unmarked x.b.tops (fun o => o.g == x.c.g) fun o => { o with post := false }
          sops := unmarked x.b.sops (fun o => o.g == x.c.g) fun o => { o with post := false } }
        g := { x.g with
          sheaves := x.g.sheaves.map fun e => { e with post := false }
          flash := { x.g.flash with valid := true, dirty := false, pc := x.t.pc % 2 ^ 64, rcd := r, mask := x.t.mask, fmt := x.t.fmt, mode := x.t.mode, copyMark := x.g.sealCnt } }
        t := nextT i x } true))) ∧
  (∀ h a tag s x e, Issues (.tmark h a tag) s x → traceEnt x e →
    let i : Instr := .tmark h a tag
    (x.guard h = 0 ∨ e.marken = false ∨ e.ring = 0 → Passes i s x x.t.mode) ∧
    (∀ u hd w, x.guard h ≠ 0 → e.marken → e.ring ≠ 0 → x.s.vaRead x.b.slice x.b.pid x.b.vd e.ring 64 = (u, .ok hd) →
      let lg := fieldAt hd 0 4
      let tail := fieldAt hd 16 8
      4 ≤ lg → lg ≤ 16 → (∀ k, 24 ≤ k → k < hd.length → hd.getD k 0 = 0) →
      u.translates x.b.slice x.b.pid x.b.vd e.ring (64 + 16 * 2 ^ lg) { r := true, w := true } →
      (fieldAt hd 8 8 + 2 ^ lg ≤ tail → Ends i s { x with
        s := (u.vaWrite x.b.slice x.b.pid x.b.vd (e.ring + 4) (toBytes 4 (fieldAt hd 4 4 + 1))).1, t := nextT i x }) ∧
      (tail < fieldAt hd 8 8 + 2 ^ lg → u.vaWrite x.b.slice x.b.pid x.b.vd (e.ring + 64 + 16 * (tail % 2 ^ lg)) (toBytes 8 (x.g.sget a.val).toNat ++
          toBytes 8 (2 ^ 62 + s.now % 2 ^ 30 * 2 ^ 32 + tag.toNat / 16 * 2 ^ 14 + tag.toNat % 16 * 2 ^ 10 + x.b.vd)) = (w, none) →
        Ends i s { x with s := (w.vaWrite x.b.slice x.b.pid x.b.vd (e.ring + 16) (toBytes 8 (tail + 1))).1, t := nextT i x }))) ∧
  (∀ h half d n s x, Issues (.pmcrd h half d n) s x →
    let i : Instr := .pmcrd h half d n
    let k : Nat := match n with
      | .reg r => (x.g.sget r.val).toNat
      | .imm v => if v.msb then 8 else v.toNat
    let gives (v : Nat) : Prop := Posts i s (readCounted x) [.s d.val (BitVec.ofNat 64 v)] 0
    (x.guard h = 0 → Passes i s x x.t.mode) ∧
    (x.guard h ≠ 0 → notRecording x → (8 ≤ k ∨ ∀ e ∈ (x.s.slice x.b.slice).csets, e.2.vd ≠ some x.b.vd) →
      gives (if half = .full then 2 ^ 64 - 1 else 2 ^ 32 - 1)) ∧
    (∀ j c, x.guard h ≠ 0 → notRecording x → k < 8 → (x.s.slice x.b.slice).csets = [(j, c)] → c.vd = some x.b.vd → (∀ m, m < 8 → c.clocks m = false) →
      gives (match half with
        | .full => counterVal c k
        | .lo => counterVal c k % 2 ^ 32
        | .hi => if c.svalid.testBit k ∧ ¬c.off.testBit k ∧ knownEvent (listGet 0 c.sel k % 2 ^ 16) then listGet 0 c.shd k else counterVal c k / 2 ^ 32))) ∧
  (∀ h op s x e, Issues (.tctl h op) s x → traceEnt x e →
    let i : Instr := .tctl h op
    (x.guard h = 0 ∨ e.uctl = false → Passes i s x x.t.mode) ∧
    (∀ p, x.guard h ≠ 0 → e.uctl → (op = .son ∨ op = .soff) → tget x.s.parts x.b.pid = some p → p.slices.Nodup →
      (∀ k ∈ p.slices, (tget (x.s.slice k).trc x.b.vd).isSome) →
      ∃ v, Ends i s { x with s := v, t := nextT i x } ∧ v = { x.s with slices := v.slices } ∧ ∀ k, v.slice k = if k ∈ p.slices then
        { x.s.slice k with trc := tmod (x.s.slice k).trc x.b.vd fun y => { y with sen := decide (op = .son) } } else x.s.slice k) ∧
    (∀ j c, x.guard h ≠ 0 → e.uctl → (op = .cfrz ∨ op = .crun) → (x.s.slice x.b.slice).csets = [(j, c)] → c.vd = some x.b.vd →
      (∀ m, m < 8 → c.clocks m = false) →
      ∃ t c', exec i s = .next t ∧ Holds t { x with t := nextT i x } ∧ (t.slice x.b.slice).csets = [(j, c')] ∧ c'.frz = decide (op = .cfrz)) ∧
    (x.guard h ≠ 0 → e.uctl → op = .stop → e.brken = false → Passes i s x x.t.mode) ∧
    (∀ q, x.guard h ≠ 0 → e.uctl → op = .stop → e.brken → tget x.s.quarters (quarterKey x.b x.g) = some q → q.stop = none →
      ∃ v, Ends i s { x with s := v, t := nextT i x } ∧ v = { x.s with slices := v.slices, quarters := v.quarters } ∧
        v.quarters = tput x.s.quarters (quarterKey x.b x.g) { q with stop := some x.b.vd, dumped := false, stopAt := s.now, stopCause := 3 } ∧
        ∀ k, v.slice k = if k = x.b.slice then { x.s.slice k with trcStops := ((x.s.slice k).trcStops + 1) % 2 ^ 16 } else x.s.slice k))

namespace Sys2Proof.Claims

/-- A queue of a partition that a slice serves (R272). -/
def serves (s : State) (slice key : Nat) (q : Queue) : Prop :=
  tget s.queues key = some q ∧ (q.st = .mapped ∨ q.st = .pinned) ∧ slice ∈ s.sliceList q.pid ∧ (s.slice slice).inReset = false

/-- The head of a queue on a slice, present there, with no unanswered fault. -/
def headAt (s : State) (slice key : Nat) (h : Head) : Prop :=
  tget (s.slice slice).heads key = some h ∧ h.stopped = false ∧ ∀ f, h.fault = some f → f.resolved

/-- Two machines that differ at most in the head of a queue on a slice, which is `h` in the second. -/
def HeadBecomes (s t : State) (slice key : Nat) (h : Head) : Prop :=
  t = { s with slices := t.slices } ∧ (∀ k, k ≠ slice → t.slice k = s.slice k) ∧ ∃ l, t.slice slice = { s.slice slice with heads := l } ∧
    tget l key = some h ∧ ∀ k, k ≠ key → tget l k = tget (s.slice slice).heads k

/-- The counter that AFTER names (R275, R289). -/
def afterAt (s : State) (q : Queue) (p : List Byte) (va : Nat) : Prop :=
  let kind := pkAfter p / 2 ^ 48 % 8
  (kind = 1 ∧ va = q.hdr + 32) ∨ (2 ≤ kind ∧ kind ≤ 4 ∧ va = s.levelCtr q.pid q.vd (kind - 1) (pkAfter p / 2 ^ 32 % 2 ^ 16))

/-- The dependence is met by a counter's value (R277). -/
def depMet (p : List Byte) (c : Nat) : Bool := decide (((c : Int) - (pkAfter p % 2 ^ 32 : Nat)) % 2 ^ 32 < 2 ^ 31)

/-- The packet at the head has no dependence, or the counter that it names has been read (R277). -/
def Evaluates (i : Instr) (s u : State) (slice key : Nat) (q : Queue) (h : Head) (p : List Byte) : Prop :=
  (pkAfter p / 2 ^ 48 % 8 = 0 → ∃ t, exec i s = .next t ∧ HeadBecomes u t slice key { h with pkt := some p, met := true, fault := none }) ∧
  ∀ va v b, afterAt u q p va → u.vaRead slice q.pid q.vd va 8 = (v, .ok b) →
    ∃ t, exec i s = .next t ∧ HeadBecomes v t slice key { h with pkt := some p, met := depMet p (ofBytes b), fault := none }

/-- A launch's record is changed, and nothing else. -/
def LaunchBecomes (s t : State) (lk : Nat) (l : Launch) : Prop :=
  t = { s with launches := t.launches } ∧ tget t.launches lk = some l ∧ ∀ k, k ≠ lk → tget t.launches k = tget s.launches k

/-- The order of keys of ordered atomics: block, then group and lane, then n (R146). -/
def keyBefore (a b : OrdEnt) : Prop := a.blk < b.blk ∨ (a.blk = b.blk ∧ (a.who < b.who ∨ (a.who = b.who ∧ a.n < b.n)))

/-- A kernel descriptor as R274 asks for it. -/
def descriptorOk (d : List Byte) : Prop :=
  let n := fieldAt d 13 1
  let role (r o k : Nat) : Nat := fieldAt d (16 + 16 * r + o) k
  (fieldAt d 8 4 % 1024 = 0 ∧ fieldAt d 8 4 ≤ 524288 ∧ fieldAt d 12 1 ≤ 4 ∧ 1 ≤ n ∧ n ≤ 4 ∧ fieldAt d 14 2 ≤ 64) ∧
  (∀ r, r < n → (1 ≤ role r 8 1 ∧ role r 8 1 ≤ 4) ∧ (1 ≤ role r 9 1 ∧ role r 9 1 ≤ 32) ∧ (1 ≤ role r 10 1 ∧ role r 10 1 ≤ 32) ∧
    (1 ≤ role r 11 1 ∧ role r 11 1 ≤ 8) ∧ role r 12 4 = 0 ∧ (role r 8 1 ≤ 2 → role r 9 1 = 1) ∧ ∀ q, q < r → role q 8 1 ≠ role r 8 1) ∧
  ((List.range n).map fun r => role r 9 1).sum ≤ 32 ∧ ((List.range n).map fun r => role r 9 1 * role r 10 1 * 32).sum ≤ 8192 ∧
  (fieldAt d 14 2 ≠ 0 → fieldAt d 12 1 ≠ 0) ∧ ∀ k, 16 + 16 * n ≤ k → k < 128 → d.getD k 0 = 0

/-- The order in which waiting blocks are placed (R283): latency-critical launches, higher PRIO, and the packet that left the head first. -/
def placedBefore (slice : Nat) (a b : Cand) : Prop :=
  (a.l.lc ∧ b.l.lc = false) ∨ (a.l.lc = b.l.lc ∧ (pkPrio b.l.pkt < pkPrio a.l.pkt ∨ (pkPrio a.l.pkt = pkPrio b.l.pkt ∧ a.l.ticket slice < b.l.ticket slice)))

/-- A block of a launch whose state is saved and that waits on a slice. -/
def savedWaits (s : State) (slice lk id : Nat) (b : Block) : Prop :=
  (id, b) ∈ s.blocks ∧ b.lk = lk ∧ b.slice = slice ∧ (b.res = .waiting ∨ b.res = .saved ∨ b.res = .spilled) ∧ b.cancelled = false ∧ b.fail = none

/-- The groups of blocks that stand in a quarter. -/
def groupsIn (bs : List Block) (q : Nat) : Nat := (bs.map fun b => (b.groups.filter fun g => g.quarter = q).length).sum

/-- A core with resident blocks bs, on a tile with the tile blocks ts, admits a block of a kernel (R210, R297). -/
def admitsKernel (bs ts : List Block) (d : List Byte) : Prop :=
  bs.length < 16 ∧ (∀ q, q < 4 → ((List.range (kdGroups d).length).filter fun g => g % 4 = q).length ≤ 24 - groupsIn bs q) ∧
  (bs.map fun b => (b.groups.map fun g => g.vregs / 32).sum).sum + ((kdRoles d).map fun r => r.count * (r.vregs / 32)).sum ≤ 256 ∧
  (∃ a, a % 1024 = 0 ∧ a + fieldAt d 8 4 ≤ 524288 ∧ ∀ b ∈ bs, a + fieldAt d 8 4 ≤ b.lbase ∨ b.lbase + b.localSz ≤ a) ∧
  (1 ≤ fieldAt d 12 1 → (ts.map Block.accMax).sum + fieldAt d 12 1 ≤ 4 ∧ (ts.map Block.wbSz).sum + 4096 * fieldAt d 14 2 ≤ 262144)

/-- Every region of local memory begins and ends at a multiple of 1,024. -/
def evenRegions (bs : List Block) (d : List Byte) : Prop := fieldAt d 8 4 % 1024 = 0 ∧ ∀ b ∈ bs, b.lbase % 1024 = 0 ∧ b.localSz % 1024 = 0

/-- The cores on which a kernel's blocks can stand: any core, or the leaders of the tiles. -/
def coresOf (d : List Byte) : List Nat := if fieldAt d 12 1 = 0 then [0, 1, 2, 3] else [0, 2]

/-- Everything that a block has issued has ended (R287, R291, R364). -/
def overFor (s : State) (id : Nat) (b : Block) : Prop :=
  let stopped : Prop := b.fail ≠ none ∨ b.cancelled
  (∀ e ∈ s.rops, e.2.b ≠ id) ∧
  ((b.res = .resident ∧ (stopped ∨ ∀ g ∈ b.groups, g.ended) ∧ (∀ e ∈ s.reqs, e.2.b ≠ id) ∧ (∀ e ∈ s.copies, e.2.b = id → e.2.st.over) ∧
      b.mops = [] ∧ b.tops = [] ∧ b.sops = []) ∨
    ((b.res = .saved ∨ b.res = .spilled ∨ b.res = .swapped ∨ b.res = .waiting) ∧ stopped))

/-- The packet is rejected with a CAUSE (R278, R289, R290): HEAD advances, the final STATUS is written, its counters advance, and no launch begins. -/
def RejectedWith (i : Instr) (s u : State) (slice key : Nat) (q : Queue) (h : Head) (p : List Byte) (j : Nat) : Prop :=
  let s1 := (u.setHead slice key { n := h.n + 1 }).lateWrite slice q.pid q.vd (q.hdr + 24) (toBytes 8 (h.n + 1))
  let s2 := match h.slot with
    | some va => s1.lateWrite slice q.pid q.vd (va + 112) (toBytes 1 5 ++ toBytes 1 j ++ toBytes 2 0 ++ toBytes 4 0 ++ toBytes 4 (2 ^ 32 - 1) ++ toBytes 4 0)
    | none => s1
  let s3 := [1, 2, 3].foldl (fun s lv => if pkId p lv = 0 then s else s.lateAdd slice q.pid q.vd (s.levelCtr q.pid q.vd lv (pkId p lv)) 1) s2
  tget s3.queues key = some q → q.done = h.n → q.comp = [] → ∃ t q', exec i s = .next t ∧ tget (t.slice slice).heads key = some { n := h.n + 1 } ∧ t.launches = s.launches ∧
    t = ({ s3 with queues := t.queues }).lateAdd slice q.pid q.vd (q.hdr + 32) 1 ∧ tget t.queues key = some q' ∧ q'.done = h.n + 1 ∧ q'.comp = [] ∧
    ∀ k, k ≠ key → tget t.queues k = tget s3.queues k

end Sys2Proof.Claims

/-- R146, R210, R269 to R293, R297, R298, R315: the launch engine.
R274, R275, R278, R293: what makes a descriptor valid, and the first failing check of a packet, in order.
R210, R283, R297, R298, R315: which block a slice places next and where.
R146, R269 to R293: queues and their slots, heads, packets that become launches or are rejected, the placing and the end of blocks, ordered atomics,
completion and cancels. -/
def Obligations.LaunchEngineEvents : Prop :=
  (
    (∀ d : List Byte, d.length = 128 → (kdValid d = true ↔ descriptorOk d)) ∧
    (∀ (q : Queue) p (kd : Option (List Byte)) (count : Option Nat) cause listed,
      let ctl := fieldAt p 46 2
      let after := fieldAt p 32 8
      let c1 : Prop := ∃ d, kd = some d ∧ kdValid d = false
      let c2 : Prop := (ctl.testBit 2 ∧ q.lcok = false) ∨ (ctl.testBit 3 ∧ q.npok = false) ∨ (ctl.testBit 2 ∧ ctl.testBit 3)
      let c3 : Prop := ∃ c, count = some c ∧ 0x7FFFFFFF < c
      let c4 : Prop := fieldAt p 12 4 = 0 ∨ 16777216 < fieldAt p 12 4 ∨ (fieldAt p 8 4 ≠ 0 ∧ fieldAt p 24 8 ≠ 0) ∨ 0x7FFFFFFF < fieldAt p 8 4 ∨
        16 ≤ ctl ∨ 2 ^ 51 ≤ after ∨ 4 < after / 2 ^ 48 % 8 ∨ (after / 2 ^ 48 % 8 ≤ 1 ∧ after / 2 ^ 32 % 2 ^ 16 ≠ 0) ∨ fieldAt p 24 8 % 4 ≠ 0
      let r := rejectCause q p kd count cause listed
      (c1 → r = some 1) ∧ (¬c1 → c2 → r = some 2) ∧ (¬c1 → ¬c2 → c3 → r = some 3) ∧ (¬c1 → ¬c2 → ¬c3 → c4 → r = some 4) ∧
      (¬c1 → ¬c2 → ¬c3 → ¬c4 → r = if cause ≠ 0 then some cause else if listed then some 6 else none)) ∧
    (∀ (s : State) (q : Queue) p pt, tget s.parts q.pid = some pt →
      (s.listed q p = true ↔ ∃ lv ids, 1 ≤ lv ∧ lv ≤ 3 ∧ pkId p lv ≠ 0 ∧ tget pt.cancels (q.vd * 4 + lv) = some ids ∧ pkId p lv ∈ ids))) ∧
  (
    (∀ (s : State) slice, (s.waiting slice).Perm (s.cands slice) ∧ (s.waiting slice).Pairwise fun a b => ¬placedBefore slice b a) ∧
    (∀ (s : State) slice c, (s.launches.map Prod.fst).Nodup → c ∈ s.cands slice → tget s.launches c.lk = some c.l ∧
      ((c.saved = none ∧ c.l.unstarted slice = some c.idx) ∨ ∃ id b, c.saved = some id ∧ savedWaits s slice c.lk id b ∧ b.idx = c.idx) ∧
      (∀ id b, savedWaits s slice c.lk id b → c.idx ≤ b.idx) ∧ ∀ n, c.l.unstarted slice = some n → c.idx ≤ n) ∧
    (∀ (s : State) slice lk l, tget s.launches lk = some l → ((∃ id b, savedWaits s slice lk id b) ∨ (l.unstarted slice).isSome) → ∃ c ∈ s.cands slice, c.lk = lk) ∧
    (∀ (s : State) slice, ((s.slice slice).inReset ∨ (s.slice slice).drain ∨ ∃ e ∈ s.blocks, e.2.slice = slice ∧ e.2.res = .moving) → s.nextPlace slice = none) ∧
    (∀ (s : State) slice, (s.slice slice).inReset = false → (s.slice slice).drain = false → (∀ e ∈ s.blocks, e.2.slice = slice → e.2.res ≠ .moving) →
      ((∀ c ∈ s.waiting slice, s.placeFor slice c.l.kd = none) → s.nextPlace slice = none) ∧
      ∀ front c back core base, s.waiting slice = front ++ c :: back → (∀ e ∈ front, s.placeFor slice e.l.kd = none) → s.placeFor slice c.l.kd = some (core, base) →
        s.nextPlace slice = if c.saved.isSome ∧ ∃ e ∈ s.blocks, e.2.slice = slice ∧ e.2.core / 2 = core / 2 ∧ (e.2.res = .stopping ∨ e.2.res = .saving ∨ e.2.res = .restoring)
          then none else some (c, core, base)) ∧
    (∀ (s : State) slice d core base, s.placeFor slice d = some (core, base) ↔ core ∈ coresOf d ∧
      fitAddr (s.standing slice core) (s.tileBlocks slice core) d = some base ∧
      ∀ k ∈ coresOf d, k < core → fitAddr (s.standing slice k) (s.tileBlocks slice k) d = none) ∧
    (∀ bs ts d, evenRegions bs d → ((fitAddr bs ts d).isSome ↔ admitsKernel bs ts d)) ∧
    (∀ bs ts d a, evenRegions bs d → fitAddr bs ts d = some a → 0 < fieldAt d 8 4 →
      a % 1024 = 0 ∧ a + fieldAt d 8 4 ≤ 524288 ∧ ∀ b ∈ bs, 0 < b.localSz → a + fieldAt d 8 4 ≤ b.lbase ∨ b.lbase + b.localSz ≤ a)) ∧
  (
    (∀ s pid n q, tget s.queues (queueKey pid n) = some q → q.st = .unmapped → ∃ t, exec (.notifyWrite pid n) s = .next t ∧
      t = { s with queues := t.queues, nextId := s.nextId + 1 } ∧ tget t.queues (queueKey pid n) = some { q with st := .pending, pendAt := s.nextId } ∧
      ∀ k, k ≠ queueKey pid n → tget t.queues k = tget s.queues k) ∧
    (∀ s pid n, (∀ q, tget s.queues (queueKey pid n) = some q → q.st = .pending) → exec (.notifyWrite pid n) s = .next s) ∧
    (∀ s pid n q, tget s.queues (queueKey pid n) = some q → (q.st = .mapped ∨ q.st = .pinned) → ∃ t, exec (.notifyWrite pid n) s = .next t ∧
      t = { s with slices := t.slices } ∧ ∀ k h, tget (t.slice k).heads (queueKey pid n) = some h → h.stopped = false) ∧
    (∀ s pid key q k, (s.queues.map Prod.fst).Nodup → tget s.queues key = some q → q.pid = pid → q.st = .pending →
      (∀ e ∈ s.queues, e.2.pid = pid → e.2.st = .pending → e.1 ≠ key → q.pendAt < e.2.pendAt) →
      k < 48 → (∀ e ∈ s.queues, e.2.pid = pid → e.2.slot ≠ some k) → (∀ j, j < k → ∃ e ∈ s.queues, e.2.pid = pid ∧ e.2.slot = some j) →
      ∃ t, exec (.queueSlotAssign pid) s = .next t ∧ t = { s with queues := t.queues } ∧
        tget t.queues key = some { q with st := if q.pin then .pinned else .mapped, slot := some k, mappedAt := s.now } ∧
        ∀ j, j ≠ key → tget t.queues j = tget s.queues j) ∧
    (∀ s pid n q u h, tget s.queues (queueKey pid n) = some q → q.st = .mapped → s.readHdr (s.leader pid) q = (u, .ok (some h)) → u.queues = s.queues →
      (∀ k ∈ s.sliceList pid, (s.headOf k (queueKey pid n)).n = (s.headOf (s.leader pid) (queueKey pid n)).n) →
      (∀ e ∈ s.launches, e.2.pid = pid → e.2.queue = n → e.2.holds = false) → (∃ e ∈ s.queues, e.2.pid = pid ∧ e.2.st = .pending) →
      (h.tail = h.head ∨ q.mappedAt + 200000 ≤ s.now → ∃ t, exec (.slotReclaim pid n) s = .next t ∧ t.mem = u.mem ∧
        tget t.queues (queueKey pid n) = some { q with slot := none, st := if h.tail = h.head then .unmapped else .pending, pendAt := u.nextId }) ∧
      (h.tail ≠ h.head → s.now < q.mappedAt + 200000 → exec (.slotReclaim pid n) s = .next s)) ∧
    (∀ (s : State) slice q u b h, s.vaRead slice q.pid q.vd q.hdr 64 = (u, .ok b) → qhdrOf b = some h →
      s.readHdr slice q = (u, .ok (if u.translates slice q.pid q.vd h.ring (128 * 2 ^ h.lg) { r := true, w := true } then some h else none))) ∧
    (∀ s slice key q h e, serves s slice key q → headAt s slice key h → h.pkt = none → (∀ p, tget s.parts q.pid = some p → p.quiet = false) →
      tget (s.slice slice).trc q.vd = some e → e.rpl = false →
      (∀ u d w p, s.readHdr slice q = (u, .ok (some d)) → h.n < d.tail → u.vaRead slice q.pid q.vd (d.slot h.n) 128 = (w, .ok p) →
        Evaluates (.headPacketRead slice key) s w slice key q { h with slot := some (d.slot h.n) } p) ∧
      (∀ u d, s.readHdr slice q = (u, .ok (some d)) → d.tail ≤ h.n → exec (.headPacketRead slice key) s = .next s) ∧
      (∀ u, s.readHdr slice q = (u, .ok none) → (tget u.slices slice).isSome →
        ∃ t, exec (.headPacketRead slice key) s = .next t ∧ tget (t.slice slice).heads key = some { h with stopped := true })) ∧
    (∀ s slice key q h p, serves s slice key q → headAt s slice key h → h.pkt = some p → h.met = false →
      Evaluates (.dependenceRecheck slice key) s s slice key q h p) ∧
    (∀ s slice key q h p e u kd c k, serves s slice key q → headAt s slice key h → h.pkt = some p → p ≠ [] → h.met → h.cause = 0 → slice = s.leader q.pid →
      tget (s.slice slice).trc q.vd = some e → e.recm = false → s.leadReads slice q p = (u, .ok (kd, c, k)) → (tget u.slices slice).isSome → u.launches = s.launches →
      u.queues = s.queues → u.sliceList q.pid = s.sliceList q.pid →
      let s1 := (u.setHead slice key { n := h.n + 1 }).lateWrite slice q.pid q.vd (q.hdr + 24) (toBytes 8 (h.n + 1))
      (rejectCause q p (some kd) c k (s1.listed q p) = none → ∃ t lk l, exec (.packetLeaveHead slice key) s = .next t ∧
        tget (t.slice slice).heads key = some { n := h.n + 1 } ∧ tget t.launches lk = some l ∧
        (l.pid, l.vd, l.queue, l.n, l.pkt, l.kd) = (q.pid, q.vd, key % 2 ^ 16, h.n, p, kd) ∧ (∀ va, h.slot = some va → l.pktVa = va) ∧ l.lid = key % 2 ^ 16 * 2 ^ 48 + h.n ∧
        t = { ({ s1 with nextId := s1.nextId + 1 }.lateWrite slice q.pid q.vd (h.slot.getD 0 + 112) (toBytes 1 1 ++ toBytes 15 0)) with launches := t.launches } ∧
        l.blocks = (if pkCount p = 0 then pkBlocks p else c.getD 0) ∧ l.list = s.sliceList q.pid ∧ l.maint = q.maint ∧ l.leftAt = u.now ∧ l.nfail = 0 ∧
        ∀ j, j ≠ lk → tget t.launches j = tget s.launches j) ∧
      (∀ j, rejectCause q p (some kd) c k (s1.listed q p) = some j → RejectedWith (.packetLeaveHead slice key) s u slice key q h p j)) ∧
    (∀ s slice key q h p e, serves s slice key q → headAt s slice key h → h.pkt = some p → h.cause ≠ 0 → slice = s.leader q.pid →
      tget (s.slice slice).trc q.vd = some e → e.recm = false → (tget s.slices slice).isSome →
      let s1 := (s.setHead slice key { n := h.n + 1 }).lateWrite slice q.pid q.vd (q.hdr + 24) (toBytes 8 (h.n + 1))
      ∀ j, (if p = [] then some h.cause else rejectCause q p h.kd none h.cause (s1.listed q p)) = some j →
        RejectedWith (.packetLeaveHead slice key) s s slice key q h p j) ∧
    (∀ s slice key q h p hl, serves s slice key q → headAt s slice key h → h.pkt = some p → h.met → slice ≠ s.leader q.pid →
      tget (s.slice (s.leader q.pid)).heads key = some hl → h.n < hl.n →
      (∀ u lk l, (if h.cause = 0 then ∃ kd, s.vaRead slice q.pid q.vd (pkKdesc p) 128 = (u, .ok kd) else u = s) → (tget u.slices slice).isSome →
        u.launches = [(lk, l)] → l.pid = q.pid → l.queue = key % 2 ^ 16 → l.n = h.n →
        ∃ t l', exec (.packetLeaveHead slice key) s = .next t ∧ t.mem = u.mem ∧ t.blocks = u.blocks ∧ tget (t.slice slice).heads key = some { n := h.n + 1 } ∧
          t.launches = [(lk, l')] ∧ l'.left = l.left ++ [(slice, u.nextId)] ∧ (l'.lid, l'.list, l'.next, l'.held) = (l.lid, l.list, l.next, l.held)) ∧
      (∀ u f, h.cause = 0 → s.vaRead slice q.pid q.vd (pkKdesc p) 128 = (u, .error f) → f.kind ≠ .poison → u.unreported slice q.pid q.vd f = false →
        (tget u.slices slice).isSome → ∃ t r, exec (.packetLeaveHead slice key) s = .next t ∧
          tget (t.slice slice).heads key = some { h with fault := some r } ∧ r.va = pkKdesc p ∧ r.f = f ∧ r.resolved = false ∧ t.launches = u.launches)) ∧
    (∀ s lk slice l, tget s.launches lk = some l → pkCount l.pkt ≠ 0 → slice ∉ l.noticed → (∃ e ∈ l.left, e.1 = slice) →
      ∃ t l', exec (.startNotice lk slice) s = .next t ∧ LaunchBecomes s t lk l' ∧ l' = { l with noticed := slice :: l.noticed, sent := l'.sent }) ∧
    (∀ s slice c core base, s.nextPlace slice = some (c, core, base) → c.saved = none → tget s.blocks s.nextId = none →
      ∃ (t : State) (b : Block), exec (.blockPlacement slice) s = .next t ∧ (b.fail = none → t.mem = s.mem) ∧ tget t.blocks s.nextId = some b ∧ (∀ k, k ≠ s.nextId → tget t.blocks k = tget s.blocks k) ∧
        (b.launch, b.lk, b.idx, b.vd, b.pid) = (c.l.lid, c.lk, c.idx, c.l.vd, c.l.pid) ∧ b.slice = slice ∧ b.core = core ∧ b.res = .resident ∧
        (b.localSz, b.loc, b.lbase, b.live, b.traph, b.seed) = (kdLocal c.l.kd, [], base, 0, kdTraph c.l.kd, pkSeed c.l.pkt) ∧
        b.groups.length = (kdGroups c.l.kd).length ∧ ∀ (n : Nat) (g : Group) r, b.groups[n]? = some g → (kdGroups c.l.kd)[n]? = some r →
          (g.vregs, g.sregs, g.role, g.flags, g.v, g.p, g.quarter) = (r.vregs, r.sregs, r.kind, 0, [], [], n % 4) ∧
          (g.trap = none → (∀ k, k < 8 → g.sget k = BitVec.ofNat 64 (pkArg c.l.pkt k)) ∧ (∀ k, 8 ≤ k → g.sget k = 0) ∧
          ∃ u : Tiller, g.tillers.head? = some u ∧ u.pc = r.entry ∧ u.mask = 2 ^ 32 - 1 ∧ u.fmt = 0x13 ∧ u.mode = 1 ∧ u.st = .ready)) ∧
    (∀ s slice c core base id b, s.nextPlace slice = some (c, core, base) → c.saved = some id → tget s.blocks id = some b →
      ∃ (t : State) (gs : List Group), exec (.blockPlacement slice) s = .next t ∧ BlockBecomes s t id { b with res := .restoring, core := core, lbase := base, groups := gs } ∧
        gs.length = b.groups.length ∧ ∀ (n : Nat) (g : Group), b.groups[n]? = some g → ∃ k, gs[n]? = some { g with slot := k }) ∧
    (∀ s id b l, tget s.blocks id = some b → s.blockOver id b → tget s.launches b.lk = some l →
      ∃ t l', exec (.blockEnd id) s = .next t ∧ t.mem = s.mem ∧ tget t.blocks id = none ∧ (∀ k, k ≠ id → tget t.blocks k = tget s.blocks k) ∧
        (∀ e ∈ t.copies, e.2.b ≠ id) ∧ tget t.launches b.lk = some l' ∧
        (b.fail = none → (l'.nfail, l'.first, l'.fcode) = (l.nfail, l.first, l.fcode)) ∧
        (∀ f, b.fail = some f → l'.nfail = l.nfail + 1 ∧ l'.first = min l.first b.idx ∧
          l'.fcode = if b.idx < l.first then (if f.kind = 5 then f.detail else if f.kind = 0 then 2 ^ 9 else 2 ^ 8) else l.fcode)) ∧
    (∀ s lk slice l, tget s.launches lk = some l → slice ∈ l.sent → ∃ t l', exec (.doneNotice lk slice) s = .next t ∧ LaunchBecomes s t lk l' ∧
      l' = { l with sent := l.sent.filter fun k => k ≠ slice, held := slice :: l.held, ordering := l'.ordering } ∧
      ((∀ k ∈ s.sliceList l.pid, k = slice ∨ k ∈ l.held) → (∀ k ∈ l.list, k ∈ s.sliceList l.pid ∨ l.ownNext k = none) →
        (∀ e ∈ l.extra, e.1 ∈ s.sliceList l.pid) → (∀ e ∈ s.blocks, e.2.lk = lk → e.2.slice ∈ s.sliceList l.pid) → l'.ordering = true) ∧
      ((∃ k ∈ s.sliceList l.pid, k ≠ slice ∧ k ∉ l.held ∧ k ∈ l.list) ∨ (∃ k ∈ l.list, k ∉ s.sliceList l.pid ∧ (l.ownNext k).isSome) ∨
        (∃ e ∈ l.extra, e.1 ∉ s.sliceList l.pid) ∨ (∃ e ∈ s.blocks, e.2.lk = lk ∧ e.2.slice ∉ s.sliceList l.pid) → l'.ordering = false)) ∧
    (∀ s lk slice l, tget s.launches lk = some l → l.ordering → slice ∉ l.acks → slice ∈ s.sliceList l.pid →
      (∀ e ∈ s.ordq, e.pid = l.pid → e.launch = l.lid → e.home = slice → s.homeDown slice e.pid (paOf (s.slice slice).map slice e.sla) = false) →
      ∃ (t : State) (sorted : List OrdEnt), exec (.orderedAtomicApply lk slice) s = .next t ∧ t.blocks = s.blocks ∧ t.mem = (sorted.foldl State.applyOrd s).mem ∧
        sorted.Perm (s.ordq.filter fun e => e.pid == l.pid && e.launch == l.lid && e.home == slice) ∧ sorted.Pairwise (fun a b => ¬keyBefore b a) ∧
        t.ordq = s.ordq.filter (fun e => !(e.pid == l.pid && e.launch == l.lid && e.home == slice)) ∧
        tget t.launches lk = some { l with acks := slice :: l.acks }) ∧
    (∀ s lk slice l e, tget s.launches lk = some l → e ∈ s.ordq → e.pid = l.pid → e.launch = l.lid → e.home = slice →
      s.homeDown slice e.pid (paOf (s.slice slice).map slice e.sla) → exec (.orderedAtomicApply lk slice) s = .next s) ∧
    (∀ (s : State) e t b, (s.touch e.home e.pid e.vd (vdTag e.vd e.va) (e.va / 128) e.sla { cls := 3, op := 2 }).homeRead e.home e.sla 4 e.key = (t, some b) →
      s.applyOrd e = (t.homeWrite e.home e.sla e.key (toBytes 4 (roundF32 .rne (xAdd false (v32 (ofBytes b)) (v32 e.x)).1).1)).1) ∧
    (∀ s lk l, tget s.launches lk = some l → l.ordering → (∀ k ∈ s.sliceList l.pid, k ∈ l.acks) →
      let lead := s.leader l.pid
      let state : Nat := if l.cancelled then 4 else if l.nfail ≠ 0 then 3 else 2
      let status := { s with launches := tdel s.launches lk }.lateWrite lead l.pid l.vd (l.pktVa + 112) (toBytes 1 state ++ toBytes 1 0 ++ toBytes 2 0 ++ toBytes 4 l.nfail ++ toBytes 4 l.first ++ toBytes 4 l.fcode)
      ∃ t, exec (.launchComplete lk) s = .next t ∧ tget t.launches lk = none ∧ (∀ k, k ≠ lk → tget t.launches k = tget s.launches k) ∧ t.blocks = s.blocks ∧
        (pkId l.pkt 1 = 0 → pkId l.pkt 2 = 0 → pkId l.pkt 3 = 0 → tget s.queues (queueKey l.pid l.queue) = none → t.mem = status.mem)) ∧
    (∀ s lk l, tget s.launches lk = some l → (l.ordering = false ∨ ∃ k ∈ s.sliceList l.pid, k ∉ l.acks) → exec (.launchComplete lk) s = .next s) ∧
    (∀ (s : State) slice pid vd va b, (∀ x ∈ s.late, ¬(x.slice = slice ∧ x.pid = pid ∧ x.vd = vd)) →
      (∀ u, s.engWrite slice pid vd va b = (u, none) → s.lateWrite slice pid vd va b = u) ∧
      (∀ u f, s.engWrite slice pid vd va b = (u, some f) → s.lateWrite slice pid vd va b =
        if f.kind = .home then { u with late := u.late ++ [{ slice := slice, pid := pid, vd := vd, op := .put va b }] } else u)) ∧
    (∀ (s : State) slice pid vd va b n, (∃ x ∈ s.late, x.slice = slice ∧ x.pid = pid ∧ x.vd = vd) →
      s.lateWrite slice pid vd va b = { s with late := s.late ++ [{ slice := slice, pid := pid, vd := vd, op := .put va b }] } ∧
      s.lateAdd slice pid vd va n = { s with late := s.late ++ [{ slice := slice, pid := pid, vd := vd, op := .add va n }] }) ∧
    (∀ (s u : State) slice pid vd va n b, (∀ x ∈ s.late, ¬(x.slice = slice ∧ x.pid = pid ∧ x.vd = vd)) → s.engRead slice pid vd va 8 = (u, .ok b) →
      ∀ v, u.engWrite slice pid vd va (toBytes 8 ((ofBytes b + n) % 2 ^ 64)) = (v, none) → s.lateAdd slice pid vd va n = v) ∧
    (∀ (s u : State) slice pid vd va n f, (∀ x ∈ s.late, ¬(x.slice = slice ∧ x.pid = pid ∧ x.vd = vd)) → s.engRead slice pid vd va 8 = (u, .error f) → f.kind = .home →
      s.lateAdd slice pid vd va n = { u with late := u.late ++ [{ slice := slice, pid := pid, vd := vd, op := .add va n }] }) ∧
    (∀ (s : State) id b, s.blockOver id b = true ↔ overFor s id b) ∧
    (∀ s lk l, tget s.launches lk = some l → pkNopre l.pkt → l.lapsed = false →
      (l.leftAt + 100000 ≤ s.now → ∃ t, exec (.nopreHoldLapse lk) s = .next t ∧ LaunchBecomes s t lk { l with lapsed := true }) ∧
      (s.now < l.leftAt + 100000 → exec (.nopreHoldLapse lk) s = .next s)) ∧
    (∀ s c slice k lk l id b, tget s.cancels c = some k → slice ∈ k.slices → k.launches = [lk] → tget s.launches lk = some l → s.blocks = [(id, b)] → b.lk = lk →
      b.slice = slice → s.blockOver id b = false → cwf 0 l.next → 0 < pkGrain l.pkt → ∃ t b' l', exec (.cancelArrival c slice) s = .next t ∧ t.mem = s.mem ∧ tget t.blocks id = some b' ∧ b'.cancelled = true ∧
        (∀ e ∈ t.copies, e.2.b = id → e.2.st.over) ∧ tget t.launches lk = some l' ∧ l'.cancelled = true ∧ slice ∈ l'.killed ∧ l'.unstarted slice = none) ∧
    (∀ s c slice k lk l, tget s.cancels c = some k → slice ∈ k.slices → k.launches = [lk] → tget s.launches lk = some l →
      (∀ e ∈ s.blocks, e.2.lk = lk → e.2.slice = slice → s.blockOver e.1 e.2) → l.ownNext slice = none → (∀ e ∈ l.extra, e.1 ≠ slice) →
      ∃ t l', exec (.cancelArrival c slice) s = .next t ∧ t.mem = s.mem ∧ t.blocks = s.blocks ∧ tget t.launches lk = some l' ∧ l'.cancelled = l.cancelled) ∧
    (∀ (list : List Nat) grain b, list ≠ [] → 0 < grain → ownerOf list grain b = list.getD (b / grain % list.length) 0) ∧
    (∀ (l : Launch) slice b, l.ownNext slice = some b → l.list.Nodup → 0 < pkGrain l.pkt → b < l.blocks ∧ ownerOf l.list (pkGrain l.pkt) b = slice ∧
      cget 0 l.next slice ≤ b ∧ ∀ j, cget 0 l.next slice ≤ j → j < b → ownerOf l.list (pkGrain l.pkt) j ≠ slice))

/-! ### The residency engine (R298 to R317) -/

namespace Sys2Proof.Claims

/-- Two machines that differ at most in one slice, which is `x` in the second. -/
def SliceBecomes (s t : State) (k : Nat) (x : Slice) : Prop := t = { s with slices := t.slices } ∧ t.slice k = x ∧ ∀ j, j ≠ k → t.slice j = s.slice j

/-- A group that has not ended, holds a point, is clean, and stands in a block none of whose groups is in a handler (R101, R307). That a group that
has ended is not rewound is the model's reading (notes/assumptions/92.md). -/
def cleanIn (b : Block) (g : Group) : Prop := g.ended = false ∧ g.flash.valid = true ∧ g.flash.dirty = false ∧ ∀ x ∈ b.groups, x.trap = none

/-- A group whose register tables have their form. -/
def settled (g : Group) : Prop := cwf 0 g.v ∧ cwf 0 g.s ∧ cwf 0 g.p

/-- The group as it resumes at its point (R304): its live registers hold their values and the others 0, one tiller stands at RECIPE. -/
def AtPoint (g g' : Group) : Prop :=
  (∀ r l, l < 32 → g'.vget r l = if liveReg g.flash.rcd (.v r) then g.vget r l else 0) ∧
  (∀ r, g'.sget r = if liveReg g.flash.rcd (.s r) then g.sget r else 0) ∧ (∀ r, g'.pget r = if liveReg g.flash.rcd (.p r) then g.pget r else 0) ∧
  (∃ u, g'.tillers.head? = some u ∧ u = { mask := g.flash.mask, pc := fieldAt g.flash.rcd 0 8, fmt := g.flash.fmt, mode := g.flash.mode, st := .ready } ∧
    ∀ v ∈ g'.tillers.tail, v.st = .free) ∧
  (g'.flags, g'.rcds, g'.wide, g'.flash) = (g.flags, [], none, { g.flash with recipe := true })

/-- A block that is on a core of the slice. -/
def stands (s : State) (slice : Nat) (b : Block) : Prop := b.slice = slice ∧ b.res = .resident ∧ ∀ l, tget s.launches b.lk = some l → l.holds = false

/-- A block in a state that occupies its tile's residency engine (R315). -/
def busyRes (r : ResSt) : Prop := r = .stopping ∨ r = .saving ∨ r = .restoring

/-- What a comparison of the tiles' temperatures does, on a slice that is not drained and has no block in its hold (R311). -/
def Compared (s t : State) (slice : Nat) (x : Slice) : Prop :=
  (x.roten = false ∨ max (listGet 0 x.temps 0) (listGet 0 x.temps 1) - min (listGet 0 x.temps 0) (listGet 0 x.temps 1) < x.thresh → SliceBecomes s t slice x) ∧
  (x.roten → x.thresh ≤ max (listGet 0 x.temps 0) (listGet 0 x.temps 1) - min (listGet 0 x.temps 0) (listGet 0 x.temps 1) →
    t.slice slice = x ∧ t.mem = s.mem ∧ ∀ id b, tget s.blocks id = some b → ∃ b', tget t.blocks id = some b' ∧ b'.res = if b.slice = slice ∧ b.res = .resident then .moving else b.res)

/-- The order in which victims are taken (R306): lowest PRIO, the packet that left the head latest, the highest block index. -/
def victimFirst (s : State) (x y : Block) : Prop :=
  let prio (b : Block) : Nat := match tget s.launches b.lk with
    | some l => pkPrio l.pkt
    | none => 0
  let left (b : Block) : Nat := match tget s.launches b.lk with
    | some l => l.ticket b.slice
    | none => 0
  prio x < prio y ∨ (prio x = prio y ∧ (left y < left x ∨ (left x = left y ∧ y.idx < x.idx)))

/-- A block that may be a victim on a core, or on its tile for a tile block (R306). -/
def yieldsOn (s : State) (slice core : Nat) (d : List Byte) (b : Block) : Prop :=
  b.slice = slice ∧ (if fieldAt d 12 1 = 0 then b.core = core else b.core / 2 = core / 2) ∧ b.res = .resident ∧
  ∀ l, tget s.launches b.lk = some l → l.lc = false ∧ l.holds = false

/-- Whether a core admits a block of a kernel once some blocks are gone. -/
def fitsWithout (s : State) (slice core : Nat) (d : List Byte) (gone : List (Nat × Block)) : Prop :=
  let left := s.blocks.filter fun e => e.2.res.held && e.2.slice == slice && !(gone.map Prod.fst).contains e.1
  (fitAddr ((left.filter fun e => e.2.core == core).map Prod.snd) ((left.filter fun e => e.2.isTile && e.2.core / 2 == core / 2).map Prod.snd) d).isSome

/-- The shortest run of a core's victims, in their order, after whose removal it admits the block (R306). -/
def shortestRun (s : State) (slice core : Nat) (d : List Byte) (vs : List (Nat × Block)) : Prop :=
  ∃ all : List (Nat × Block), all.Nodup ∧ (∀ e, e ∈ all ↔ e ∈ s.blocks ∧ yieldsOn s slice core d e.2) ∧ all.Pairwise (fun x y => ¬victimFirst s y.2 x.2) ∧
    (∃ n, n ≤ all.length ∧ vs = all.take n) ∧ fitsWithout s slice core d vs ∧ ∀ n, n < vs.length → ¬fitsWithout s slice core d (all.take n)

/-- The highest PRIO among blocks. -/
def topPrio (s : State) (vs : List (Nat × Block)) : Nat := vs.foldl (fun m e => max m (match tget s.launches e.2.lk with
  | some l => pkPrio l.pkt
  | none => 0)) 0

/-- A tiller is parked on a fault that has not been answered (R125, R196, R256, R314): its own access or fetch, a copy or a shaping operation that it
waits for, or a counter that it waits on. -/
def parkedOn (s : State) (b : Block) (g : Group) (u : Tiller) : Prop :=
  ∃ w, (u.st = .longWait w ∨ u.st = .held (.longWait w)) ∧ match w with
    | .parked id => ∃ p m, tget g.pend id = some p ∧ p.kind = .mem m ∧ ∃ f ∈ m.faults, f.resolved = false
    | .fetch l => ∃ f ∈ l, f.resolved = false
    | .on id => ∃ p, tget g.pend id = some p ∧
        ((∃ isTo v, p.kind = .cond (.cwait isTo v) ∧ ∃ h ∈ g.waitsFor isTo v, ∃ n ∈ h.copies, ∃ c f, tget s.copies n = some c ∧ c.fault = some f ∧ f.resolved = false) ∨
          (∃ va v f, p.kind = .cond (.ctrfault va v f) ∧ f.resolved = false) ∨
          ∃ sel v, p.kind = .cond (.qwait sel v) ∧ ∃ o ∈ b.sops, selHas sel o.2.set ∧ ∃ f, o.2.fault = some f ∧ f.resolved = false)
    | _ => False

end Sys2Proof.Claims

/-- R300 to R317: the residency engine.
R306: the victims of a pre-emption: the shortest run on the core whose run has the lowest highest PRIO, the lower core of two.
R300 to R317: victims, saving with the rewind of clean groups, spilling, restoring, rotation, swap-out, RES_CTL. -/
def Obligations.ResidencyEvents : Prop :=
  (
    (∀ (s : State) slice d vs core, (s.blocks.map Prod.fst).Nodup → s.victims slice d = some (vs, core) → core ∈ coresOf d ∧ shortestRun s slice core d vs ∧
      ∀ k us, k ∈ coresOf d → shortestRun s slice k d us →
        (∀ x ∈ s.blocks, ∀ y ∈ s.blocks, yieldsOn s slice k d x.2 → yieldsOn s slice k d y.2 → x ≠ y → victimFirst s x.2 y.2 ∨ victimFirst s y.2 x.2) →
        topPrio s vs < topPrio s us ∨ (topPrio s vs = topPrio s us ∧ core ≤ k)) ∧
    (∀ (s : State) slice d, s.victims slice d = none → ∀ k ∈ coresOf d,
      ¬fitsWithout s slice k d (s.blocks.filter fun e => e.2.slice == slice && (if fieldAt d 12 1 == 0 then e.2.core == k else e.2.core / 2 == k / 2) && s.mayYield e.2))) ∧
  (
    (∀ s slice c vs core, (s.slice slice).inReset = false → (s.slice slice).drain = false →
      (s.waiting slice).find? (fun c => c.l.lc && (s.placeFor slice c.l.kd).isNone && !s.preempting slice c &&
        (s.victims slice c.l.kd).any fun v => !v.1.isEmpty && !s.tileMoving slice v.2) = some c →
      s.victims slice c.l.kd = some (vs, core) →
      (∀ e ∈ vs, e ∈ s.blocks ∧ e.2.res = .resident ∧ ∀ l, tget s.launches e.2.lk = some l → l.lc = false ∧ l.holds = false) ∧
      ∃ t, exec (.preemptionRequest slice) s = .next t ∧ t = { s with blocks := t.blocks, slices := t.slices } ∧ (∀ k, k ≠ slice → t.slice k = s.slice k) ∧
        ((tget s.slices slice).isSome → t.slice slice = { s.slice slice with pre := (c.lk, c.idx, core) :: (s.slice slice).pre.filter fun e => !(e.1 == c.lk && e.2.1 == c.idx) }) ∧
        ∀ id b, tget s.blocks id = some b →
          tget t.blocks id = some (if id ∈ vs.map Prod.fst then { b with res := .stopping, swap := false } else b)) ∧
    (∀ s slice, (s.slice slice).inReset ∨ (s.slice slice).drain ∨ (∀ c ∈ s.waiting slice, c.l.lc → (s.placeFor slice c.l.kd).isSome ∨ s.preempting slice c ∨
      ∀ vs core, s.victims slice c.l.kd = some (vs, core) → vs = [] ∨ s.tileMoving slice core) → exec (.preemptionRequest slice) s = .next s) ∧
    (∀ s id b, tget s.blocks id = some b → b.res = .stopping → (∀ e ∈ s.reqs, e.2.b = id → e.2.reads) →
      ∃ t b', exec (.stoppingDrainComplete id) s = .next t ∧ t.mem = s.mem ∧ tget t.blocks id = some b' ∧ (∀ k, k ≠ id → tget t.blocks k = tget s.blocks k) ∧
        b'.res = .saving ∧ (b'.loc, b'.acc, b'.qsets, b'.wbL, b'.wbF, b'.bars) = (b.loc, b.acc, b.qsets, b.wbL, b.wbF, b.bars) ∧
        (∀ e ∈ b'.mops, e.2.st = .held ∧ e.2.shadow = []) ∧ b'.groups.length = b.groups.length ∧
        (∀ e ∈ t.copies, e.2.b = id → e.2.st.over ∨ e.2.kind.fetches ∨ ∃ w, e.2.st = .suspended w) ∧
        ∀ (n : Nat) (g : Group), b.groups[n]? = some g → settled g → (∀ e ∈ g.pend, e.1 < g.flash.pendMark → e.2.kind ≠ .alu) → ∃ g', b'.groups[n]? = some g' ∧
          (g.pend = [] → (b.swap ∨ ¬cleanIn b g) → g' = g) ∧ (b.swap = false → cleanIn b g → AtPoint g g' ∧ g'.pend = g.pend.filter fun e => decide (e.1 < g.flash.pendMark))) ∧
    (∀ s id b, tget s.blocks id = some b → b.res = .stopping → (∃ e ∈ s.reqs, e.2.b = id ∧ e.2.reads = false) → exec (.stoppingDrainComplete id) s = .next s) ∧
    (∀ s id b, tget s.blocks id = some b → b.res = .saving → (tget s.slices b.slice).isSome →
      (b.swap → b.savedBytes ≤ s.saveFree b.slice → ∃ t, exec (.saveComplete id) s = .next t ∧ t = { s with blocks := t.blocks, cores := t.cores, slices := t.slices } ∧
        tget t.blocks id = some { b with res := .swapped } ∧ (∀ k, k ≠ id → tget t.blocks k = tget s.blocks k) ∧
        SliceKept { s.slice b.slice with swapouts := ((s.slice b.slice).swapouts + 1) % 2 ^ 16 } (t.slice b.slice) ∧
        (t.slice b.slice).csets = ((s.count b.slice b.vd 0x00D 1).slice b.slice).csets ∧ ∀ k, ∀ e ∈ (t.core k).tlb, e.blk ≠ id) ∧
      (b.swap = false → b.savedBytes ≤ s.lockFree b.slice → ∃ t, exec (.saveComplete id) s = .next t ∧ t.mem = s.mem ∧
        tget t.blocks id = some { b with res := .saved, savedAt := s.nextId } ∧ (∀ k, k ≠ id → tget t.blocks k = tget s.blocks k) ∧
        SliceKept { s.slice b.slice with preempts := ((s.slice b.slice).preempts + 1) % 2 ^ 16 } (t.slice b.slice) ∧
        (t.slice b.slice).csets = ((s.count b.slice b.vd 0x00D 1).slice b.slice).csets ∧ ∀ k, ∀ e ∈ (t.core k).tlb, e.blk ≠ id) ∧
      ((if b.swap then s.saveFree b.slice else s.lockFree b.slice) < b.savedBytes → exec (.saveComplete id) s = .next s)) ∧
    (∀ s slice id b, (s.blocks.map Prod.fst).Nodup → tget s.blocks id = some b → b.slice = slice → b.res = .saved →
      (∀ e ∈ s.blocks, e.2.slice = slice → e.2.res = .saved → e.1 ≠ id → b.savedAt < e.2.savedAt) →
      (s.lockFree slice < 4718592 → b.savedBytes ≤ s.saveFree slice → ∃ t, exec (.spillSavedBlock slice) s = .next t ∧ BlockBecomes s t id { b with res := .spilled }) ∧
      (4718592 ≤ s.lockFree slice ∨ s.saveFree slice < b.savedBytes → exec (.spillSavedBlock slice) s = .next s)) ∧
    (∀ s id b, tget s.blocks id = some b → b.res = .restoring → (∀ g ∈ b.groups, g.inRecipe = false) →
      ∃ t b', exec (.restoreComplete id) s = .next t ∧ t.mem = s.mem ∧ tget t.blocks id = some b' ∧ (∀ k, k ≠ id → tget t.blocks k = tget s.blocks k) ∧
        b'.res = .resident ∧ (b'.loc, b'.acc, b'.qsets, b'.mops.map Prod.fst) = (b.loc, b.acc, b.qsets, b.mops.map Prod.fst) ∧ (∀ e ∈ b'.mops, e.2.st ≠ .held) ∧
        b'.groups = b.groups.map (fun g => { g with lastSlot := 7, readySince := none, idleSince := none }) ∧
        (∀ e ∈ t.copies, e.2.b = id → ∀ w, e.2.st ≠ .suspended w ∨ ∃ e' ∈ s.copies, e'.2.st = .suspended (.suspended w)) ∧
        (∀ e ∈ (t.core (coreKey b.slice b.core)).l1, e.vd ≠ b.vd ∧ e.vd ≠ 0) ∧
        (b.isTile → ∀ e ∈ (t.core (coreKey b.slice (b.core + 1))).l1, e.vd ≠ b.vd ∧ e.vd ≠ 0) ∧
        (b.carried → ∀ k, k < 4 → ∀ e ∈ (t.core (coreKey b.slice k)).l1, e.vd ≠ b.vd ∧ e.vd ≠ 0) ∧
        (b.carried → ∀ k, k < 4 → ∀ e ∈ (t.core (coreKey b.slice k)).ic, e.vd ≠ b.vd)) ∧
    (∀ s slice, (s.blocks.map Prod.fst).Nodup → (tget s.slices slice).isSome → (s.slice slice).inReset = false → (s.slice slice).rotNext ≤ s.now →
      let x := { s.slice slice with rotNext := (s.slice slice).rotNext + 500000 }
      ((∃ e ∈ s.blocks, e.2.slice = slice ∧ busyRes e.2.res) → ∃ t, exec (.rotationInterval slice) s = .next t ∧ SliceBecomes s t slice { x with rotDefer := true }) ∧
      ((s.slice slice).rotDefer → ∃ t, exec (.rotationInterval slice) s = .next t ∧ SliceBecomes s t slice x) ∧
      ((s.slice slice).rotDefer = false → (∀ e ∈ s.blocks, e.2.slice = slice → ¬busyRes e.2.res) → ∃ t, exec (.rotationInterval slice) s = .next t ∧
        (x.roten → (x.drain ∨ ∃ e ∈ s.blocks, e.2.slice = slice ∧ e.2.res = .resident ∧ ¬stands s slice e.2) → SliceBecomes s t slice { x with skips := (x.skips + 1) % 2 ^ 16 }) ∧
        (x.drain = false → (∀ e ∈ s.blocks, e.2.slice = slice → e.2.res = .resident → stands s slice e.2) → Compared s t slice x))) ∧
    (∀ s slice, (s.slice slice).inReset ∨ s.now < (s.slice slice).rotNext → exec (.rotationInterval slice) s = .next s) ∧
    (∀ s slice, (s.blocks.map Prod.fst).Nodup → (tget s.slices slice).isSome → (s.slice slice).rotDefer → (∀ e ∈ s.blocks, e.2.slice = slice → ¬busyRes e.2.res) →
      let x := { s.slice slice with rotDefer := false }
      ∃ t, exec (.deferredRotationCompare slice) s = .next t ∧
        (x.roten → (x.drain ∨ ∃ e ∈ s.blocks, e.2.slice = slice ∧ e.2.res = .resident ∧ ¬stands s slice e.2) → SliceBecomes s t slice { x with skips := (x.skips + 1) % 2 ^ 16 }) ∧
        (x.drain = false → (∀ e ∈ s.blocks, e.2.slice = slice → e.2.res = .resident → stands s slice e.2) → Compared s t slice x)) ∧
    (∀ s slice id b, s.blocks = [(id, b)] → b.slice = slice → b.res = .moving → (tget s.slices slice).isSome →
      ∃ t b', exec (.rotationSwapComplete slice) s = .next t ∧ t.mem = s.mem ∧ t.blocks = [(id, b')] ∧ b'.core = b.core ^^^ 2 ∧ b'.res = .resident ∧
        (b'.loc, b'.acc, b'.qsets, b'.wbL, b'.wbF) = (b.loc, b.acc, b.qsets, b.wbL, b.wbF) ∧
        b'.groups = b.groups.map (fun g => { g with lastSlot := 7, readySince := none, idleSince := none }) ∧
        SliceKept { s.slice slice with rots := ((s.slice slice).rots + 1) % 2 ^ 16 } (t.slice slice) ∧
        (t.slice slice).csets = ((s.count slice b.vd 0x00D 1).slice slice).csets) ∧
    (∀ s id b g u p, tget s.blocks id = some b → b.res = .resident → g ∈ b.groups → u ∈ g.tillers → u.parkSince = some p →
      (p + 20000 < s.now → (∀ l, tget s.launches b.lk = some l → l.holds = false) → s.tileMoving b.slice b.core = false → b.savedBytes ≤ s.saveFree b.slice →
        ∃ t, exec (.swapOutTimeout id) s = .next t ∧ BlockBecomes s t id { b with res := .stopping, swap := true }) ∧
      ((∃ l, tget s.launches b.lk = some l ∧ l.holds) ∨ s.saveFree b.slice < b.savedBytes → exec (.swapOutTimeout id) s = .next s)) ∧
    (∀ s id b, tget s.blocks id = some b → b.res = .swapped →
      ((∀ g ∈ b.groups, ∀ u ∈ g.tillers, ¬parkedOn s b g u) → ∃ t, exec (.swappedFaultServiced id) s = .next t ∧ BlockBecomes s t id { b with res := .waiting, swap := false }) ∧
      ((∃ g ∈ b.groups, ∃ u ∈ g.tillers, parkedOn s b g u) → exec (.swappedFaultServiced id) s = .next s)) ∧
    (∀ (s : State) id b, tget s.blocks id = some b → ∃ b', tget s.stampParks.blocks id = some b' ∧ b' = { b with groups := b'.groups } ∧
      ∀ (n : Nat) (g : Group), b.groups[n]? = some g → ∃ g', b'.groups[n]? = some g' ∧ g' = { g with tillers := g'.tillers } ∧
        ∀ (k : Nat) (u : Tiller), g.tillers[k]? = some u → ∃ v, g'.tillers[k]? = some { u with parkSince := v } ∧
          (parkedOn s b g u → v = some (u.parkSince.getD s.now)) ∧ (¬parkedOn s b g u → v = none)) ∧
    (∀ s slice v, (tget s.slices slice).isSome → ∃ t, exec (.resCtlWrite slice v) s = .next t ∧ SliceBecomes s t slice { s.slice slice with
      roten := v.testBit 31, lockmb := (if 8 ≤ v / 2 ^ 16 % 2 ^ 8 ∧ v / 2 ^ 16 % 2 ^ 8 ≤ 24 then v / 2 ^ 16 % 2 ^ 8 else (s.slice slice).lockmb), thresh := v / 2 ^ 8 % 2 ^ 8 }))

/-! ### The channel (R326 to R338) and commands (R373, R379) -/

namespace Sys2Proof.Claims

/-- The machine after a response; on the management port its vector 0 follows (R378). -/
def replied (s : State) (r : Resp) : State := { s with resps := s.resps ++ [r], msix := if r.cmd.src = none then s.msix ++ [0] else s.msix }

/-- The response to a command, and nothing else. -/
def Replies (i : Instr) (s : State) (c : Cmd) (status : Nat) : Prop := exec i s = .next (replied s { cmd := c, status := status })

/-- A command is held until step 5 of a resize has completed (R388). -/
def HeldOver (i : Instr) (s : State) (pid : Nat) (p : Part) (h : HeldCmd) : Prop :=
  ∃ t, exec i s = .next t ∧ t = { s with parts := t.parts } ∧ tget t.parts pid = some { p with held := p.held ++ [h] } ∧
    ∀ k, k ≠ pid → tget t.parts k = tget s.parts k

/-- A kernel gives a command on the page of its partition, which is Running or being resized (R373). -/
def gives (s : State) (c : Cmd) (pid : Nat) (p : Part) : Prop := c.src = some pid ∧ tget s.parts pid = some p ∧ (p.st = .running ∨ p.st = .resizing)

/-- The commands of a partition kernel (R336, R379), each with what it carries. -/
def IsKernelCmd (c : Cmd) (i : Instr) : Prop :=
  (∃ vd img, i = .vdctx c vd img) ∨ (∃ p m l, i = .wayprof c p m l) ∨ (∃ vd va n w, i = .pageRetire c vd va n w) ∨ (∃ vd r w, i = .shootdown c vd r w) ∨
  (∃ h a, i = .fresolve c h a) ∨ (∃ k, i = .keyGen c k) ∨ (∃ k, i = .keyZero c k) ∨ (∃ j r k m vd, i = .scrubStart c j r k m vd) ∨
  (∃ q vd h a, i = .qreg c q vd h a) ∨ (∃ vd b, i = .ctrbase c vd b) ∨ (∃ b n, i = .savearea c b n) ∨ (∃ b, i = .ownertab c b) ∨
  (∃ b n, i = .spillarea c b n) ∨ (∃ k e l, i = .peer c k e l) ∨ (∃ n, i = .pattest c n) ∨ ∃ k, i = .hartsDown c k

/-- The response is that of the command, and its partition differs from `p` as `q` says; nothing else changes. -/
def PartSet (i : Instr) (s : State) (c : Cmd) (pid : Nat) (q : Part) : Prop :=
  ∃ t, exec i s = .next t ∧ t = { s with parts := t.parts, resps := s.resps ++ [{ cmd := c, status := 0 }] } ∧ tget t.parts pid = some q ∧
    ∀ k, k ≠ pid → tget t.parts k = tget s.parts k

/-- The answer of a fault reaches its reference. -/
def refAnswered (tok : Nat) (f : FaultRef) : FaultRef := { f with resolved := f.resolved || f.token == tok }

/-- After an answer of retry (R125, R328): the report is gone and its waiter's fault is answered. -/
def Retried (s t : State) (id : Nat) (r : Report) : Prop :=
  let u : State := { s with reports := tdel s.reports id }
  match r.waiter with
  | .none => t = u
  | .lane b g pend _ => ∀ gr p, GroupAt s b g gr → tget gr.pend pend = some p →
    (∀ m, p.kind = .mem m → GroupBecomes u t b g { gr with pend := tput gr.pend pend { p with kind := .mem { m with faults := m.faults.map (refAnswered (id + 1)) } } }) ∧
    ∀ va v f, p.kind = .cond (.ctrfault va v f) → f.token = id + 1 →
      GroupBecomes u t b g { gr with pend := tput gr.pend pend { p with kind := .cond (.ctrwait va v) } }
  | .fetch b g n => ∀ gr v l, GroupAt s b g gr → gr.tillers[n]? = some v → v.st = .longWait (.fetch l) → ∃ gr', GroupBecomes u t b g gr' ∧
    gr' = { gr with tillers := gr'.tillers } ∧ gr'.tillers[n]? = some { v with st := .longWait (.fetch (l.map (refAnswered (id + 1)))) }
  | .copy k => ∀ c, tget s.copies k = some c → t = { u with copies := t.copies } ∧ tget t.copies k = some { c with fault := c.fault.map (refAnswered (id + 1)) } ∧
    ∀ j, j ≠ k → tget t.copies j = tget s.copies j
  | .queue slice q => ∀ h, (tget s.slices slice).isSome → tget (s.slice slice).heads q = some h →
    HeadBecomes u t slice q { h with fault := h.fault.map (refAnswered (id + 1)) }
  | .shape _ => t = { u with blocks := t.blocks } ∧ ∀ b bl, tget s.blocks b = some bl → ∃ bl', tget t.blocks b = some bl' ∧ bl' = { bl with sops := bl'.sops } ∧
    ∀ k o, tget bl.sops k = some o → tget bl'.sops k = some { o with fault := o.fault.map (refAnswered (id + 1)) }

/-- After an answer of abort (R277, R328): the waiter's block fails with detail ABORT, or HOME for the queue of an ordered atomic whose spill area is
refused (R147), its copy fails with ABORT, or its queue's packet is rejected with CAUSE 7. -/
def Aborted (s t : State) (id : Nat) (r : Report) : Prop :=
  let u : State := { s with reports := tdel s.reports id }
  let f : Fail := { kind := 4, detail := if r.f.ordq then 0x60 else 0x70, va := r.va, pc := r.pc, lane := r.info % 32, acc := r.acc.code }
  match r.waiter with
  | .none => t = u
  | .lane b _ _ _ => t = u.failBlock b f
  | .fetch b _ _ => t = u.failBlock b f
  | .copy k => ∀ c gr, tget s.copies k = some c → GroupAt s c.b c.g gr → k ∈ gr.openSheaf →
    t.mem = s.mem ∧ t.reports = u.reports ∧ tget t.copies k = some { c with st := .failed, cause := 10, fault := none }
  | .queue slice q => ∀ h, (tget s.slices slice).isSome → tget (s.slice slice).heads q = some h →
    HeadBecomes u t slice q { h with fault := none, cause := 7, met := true, pkt := some (h.pkt.getD []) }
  | .shape j => ∀ b bl k o f', s.blocks = [(b, bl)] → tget bl.sops k = some o → o.fault = some f' → f'.token = id + 1 →
    t = { u with blocks := [(b, { bl with sops := tdel bl.sops j })] }.failBlock b f

/-- A header of a fault ring that can be used, as read at its address, and its slots translate (R326, R327). -/
def ringAt (s u : State) (r : Report) (base : Nat) (h : List Byte) : Prop :=
  base ≠ 0 ∧ s.vmRead r.slice r.pid r.vd base 64 = (u, .ok h) ∧ 4 ≤ fieldAt h 0 4 ∧ fieldAt h 0 4 ≤ 16 ∧ (∀ x ∈ h.drop 24, x = 0) ∧
  u.translates r.slice r.pid r.vd base (64 + 32 * 2 ^ fieldAt h 0 4) { r := true, w := true }

/-- Two ranges of addresses meet. -/
def inPage (va size a n : Nat) : Prop := a < va + size ∧ va < a + n

/-- No translation of a VD for addresses of a range is held in a partition (R334). -/
def NoXlate (s t : State) (p : Part) (vd va size : Nat) : Prop :=
  (∀ k, k / 4 ∈ p.slices → ∀ e, e ∈ (t.core k).tlb ↔ e ∈ (s.core k).tlb ∧ ¬(vdTag e.vd (pageVa e.vpn e.big) = vd ∧ inPage va size (pageVa e.vpn e.big) (pageSize e.big))) ∧
  ∀ k, k ∈ p.slices → (∀ e, e ∈ (t.slice k).fcache ↔ e ∈ (s.slice k).fcache ∧ ¬(e.vd = vd ∧ inPage va size (pageVa e.vpn e.big) (pageSize e.big))) ∧
    ∀ e, e ∈ (t.slice k).wcache ↔ e ∈ (s.slice k).wcache ∧
      ¬(e.vd = vd ∧ (e.stage = 2 ∨ inPage va size (e.upper * 2 ^ (12 + 9 * e.level)) (2 ^ (12 + 9 * e.level))))

/-- A job of a partition lists a key slot (R337). -/
def slotListed (s : State) (pid slot : Nat) : Prop := ∃ e ∈ s.jobs, e.1 / 4 = pid ∧ slot ∈ e.2.slots

/-- A key slot is set on every slice of a partition, and nothing else there (R335). -/
def KeySet (s t : State) (pid slot : Nat) (v : KeySt → Prop) : Prop :=
  (∀ k, k ∈ s.sliceList pid → (tget s.slices k).isSome → ∃ l, t.slice k = { s.slice k with keys := l } ∧ (∃ y, tget l slot = some y ∧ v y) ∧
    ∀ j, j ≠ slot → tget l j = tget (s.slice k).keys j) ∧ ∀ k, k ∉ s.sliceList pid → t.slice k = s.slice k

/-- A line of a stack reads as zero with fresh codes (R330, R337). -/
def zeroLine (t : State) (l : Nat) : Prop :=
  (∀ i, i < 128 → cget 0 t.mem (l * 128 + i) = 0) ∧ cget false t.poison l = false ∧ cget 0 t.errs l = 0 ∧ cget 0 t.lineKey l = 0

/-- A line of a stack is as it was. -/
def sameLine (s t : State) (l : Nat) : Prop :=
  (∀ i, i < 128 → cget 0 t.mem (l * 128 + i) = cget 0 s.mem (l * 128 + i)) ∧ cget false t.poison l = cget false s.poison l ∧
  cget 0 t.errs l = cget 0 s.errs l ∧ cget 0 t.lineKey l = cget 0 s.lineKey l

/-- The stack is in its canonical form. -/
def stackWf (s : State) : Prop := cwf 0 s.mem ∧ cwf false s.poison ∧ cwf 0 s.errs ∧ cwf 0 s.lineKey

/-- The line lies in a range of the job and its home is the slice (R319, R337). -/
def jobLine (s : State) (pid slice : Nat) (j : ScrubJob) (l : Nat) : Prop :=
  ∃ r ∈ j.ranges, ∃ i, i < r.2 / 2 ^ 21 ∧ ∃ sla, homeOf (((tget s.parts pid).map fun q => q.map).getD []) (r.1 + i * 2 ^ 21) = some (slice, sla) ∧
    l / 2 ^ 14 = cell slice sla / 2 ^ 21

/-- The n-th line of a job on a slice, in ascending SLA (R337). -/
def jobPlace (s : State) (pid slice : Nat) (j : ScrubJob) (l n : Nat) : Prop :=
  ∃ i, (s.jobOn pid slice j)[i]? = some (l / 2 ^ 14) ∧ n = i * 16384 + l % 16384

/-- The lines of a job on a slice whose places lie in a range are zero, and every other line of the stacks is as it was. -/
def ZeroedPart (s t : State) (pid slice : Nat) (j : ScrubJob) (a b : Nat) : Prop :=
  (∀ l n, jobPlace s pid slice j l n → a ≤ n → n < b → zeroLine t l) ∧ ∀ l, (∀ n, jobPlace s pid slice j l n → n < a ∨ b ≤ n) → sameLine s t l

end Sys2Proof.Claims

/-- R326 to R333: records of a fault ring and their answers, the patrol pass, CH_ERR, the power states of a pseudo-channel. -/
def Obligations.ReportsAndStack : Prop :=
  (∀ s id r h u v w, tget s.reports id = some r → r.held → r.inject = false → ringAt s u r (s.ringOf r.pid r.vd).1 h →
    let base := (s.ringOf r.pid r.vd).1
    let n := fieldAt h 16 8
    n - fieldAt h 8 8 < 2 ^ fieldAt h 0 4 →
    u.vmWrite r.slice r.pid r.vd (base + 64 + 32 * (n % 2 ^ fieldAt h 0 4))
      (frRecord r.va r.pc (id + 1) (guestKind r.f).1 (guestKind r.f).2 r.acc.code r.info) = (v, none) →
    v.vmWrite r.slice r.pid r.vd (base + 16) (toBytes 8 (n + 1)) = (w, none) →
    ∃ t, exec (.heldRecordWrite id) s = .next t ∧ t.mem = w.mem ∧ tget t.reports id = some { r with held := false }) ∧
  (∀ s id r h u, tget s.reports id = some r → r.held → ringAt s u r (s.ringOf r.pid r.vd).1 h → 2 ^ fieldAt h 0 4 ≤ fieldAt h 16 8 - fieldAt h 8 8 →
    exec (.heldRecordWrite id) s = .next s) ∧
  (∀ s id r, tget s.reports id = some r → r.held → (s.ringOf r.pid r.vd).1 = 0 →
    ∃ t, exec (.heldRecordWrite id) s = .next t ∧ t.mem = s.mem ∧ tget t.reports id = some { r with guest := false, held := false }) ∧
  (∀ s pid vd word id r, word % 2 ^ 32 = id + 1 → tget s.reports id = some r → r.pid = pid → r.vd = vd → r.guest → r.held = false →
    (word / 2 ^ 32 % 4 = 0 → ∃ t, exec (.faultDoorbell pid vd word) s = .next t ∧ Retried s t id r) ∧
    (word / 2 ^ 32 % 4 = 1 → ∃ t, exec (.faultDoorbell pid vd word) s = .next t ∧ Aborted s t id r) ∧
    (2 ≤ word / 2 ^ 32 % 4 → exec (.faultDoorbell pid vd word) s = .next s)) ∧
  (∀ s pid vd word, word % 2 ^ 32 = 0 ∨ tget s.reports (word % 2 ^ 32 - 1) = none → exec (.faultDoorbell pid vd word) s = .next s) ∧
  (∀ s pid vd word id r, word % 2 ^ 32 = id + 1 → tget s.reports id = some r → r.pid ≠ pid ∨ r.vd ≠ vd → exec (.faultDoorbell pid vd word) s = .next s) ∧
  (∀ s c pid p id r, gives s c pid p → tget s.reports id = some r → r.guest = false → r.pid = pid →
    let gvn (t : State) (k : State → Prop) : Prop := t.resps = s.resps ++ [{ cmd := c, status := 0 }] ∧ k { t with resps := s.resps }
    (∃ t, exec (.fresolve c (id + 1) .retry) s = .next t ∧ gvn t fun v => Retried s v id r) ∧
    (∃ t, exec (.fresolve c (id + 1) .abort) s = .next t ∧ gvn t fun v => Aborted s v id r) ∧
    (∀ h u v w, ringAt s u r (s.ringOf pid r.vd).1 h → fieldAt h 16 8 - fieldAt h 8 8 < 2 ^ fieldAt h 0 4 →
      u.vmWrite r.slice pid r.vd ((s.ringOf pid r.vd).1 + 64 + 32 * (fieldAt h 16 8 % 2 ^ fieldAt h 0 4)) (frRecord r.va 0 (id + 1) 3 0 0 0) = (v, none) →
      v.vmWrite r.slice pid r.vd ((s.ringOf pid r.vd).1 + 16) (toBytes 8 (fieldAt h 16 8 + 1)) = (w, none) →
      ∃ t, exec (.fresolve c (id + 1) .inject) s = .next t ∧ t.mem = w.mem ∧ tget t.reports id = some { r with guest := true, inject := true, held := false })) ∧
  (∀ s slice l, (tget s.slices slice).isSome → (s.slice slice).patrol → (s.slice slice).inReset = false → l = cell slice ((s.slice slice).patrolPos * 128) / 128 → l / 2 ^ 29 = slice →
    let x := { s.slice slice with patrolPos := ((s.slice slice).patrolPos + 1) % 351535104 }
    let e := cget 0 s.errs l
    ∃ t, exec (.patrolRead slice) s = .next t ∧ t.mem = s.mem ∧ (∀ k, k ≠ slice → t.slice k = s.slice k) ∧ (∀ k, k ≠ l → cget 0 t.errs k = cget 0 s.errs k ∧ cget false t.poison k = cget false s.poison k) ∧
      (cget false s.poison l ∨ e = 0 → SliceBecomes s t slice x) ∧
      (cget false s.poison l = false → e ≠ 0 → cwf 0 s.errs → cget 0 t.errs l = 0 ∧
        (e ≤ 4 → t.poison = s.poison ∧ t.slice slice = { x with chErrCE := (x.chErrCE + 1) % 2 ^ 32 }) ∧
        (4 < e → cwf false s.poison → cget false t.poison l = true ∧ t.slice slice = { x with chErrUE := (x.chErrUE + 1) % 2 ^ 24 }))) ∧
  (∀ s slice, (s.slice slice).patrol = false ∨ (s.slice slice).inReset → exec (.patrolRead slice) s = .next s) ∧
  (∀ s slice v, (tget s.slices slice).isSome → ∃ t, exec (.chErrWrite slice v) s = .next t ∧ SliceBecomes s t slice { s.slice slice with
    chErrCE := (if v.testBit 32 then 0 else (s.slice slice).chErrCE), chErrUE := (if v.testBit 8 then 0 else (s.slice slice).chErrUE), patrol := v.testBit 0 }) ∧
  (∀ s slice k, (tget s.slices slice).isSome → (s.slice slice).inReset = false → k < 64 → cwf 0 (s.slice slice).pch → cwf 0 (s.slice slice).pchAt →
    let x := s.slice slice
    let wk (i : Instr) (n : Nat) (z : Nat → Prop) : Prop := ∃ (t : State) (y : Slice), exec i s = .next t ∧ SliceBecomes s t slice { x with pch := y.pch, pchAt := y.pchAt } ∧
      cget 0 y.pch k = n ∧ z (cget 0 y.pchAt k) ∧ ∀ j, j ≠ k → cget 0 y.pch j = cget 0 x.pch j ∧ cget 0 y.pchAt j = cget 0 x.pchAt j
    (x.pdIdle ≠ 0 → cget 0 x.pch k = 0 → x.pdIdle ≤ 2 * (s.now - cget 0 x.pchAt k) → wk (.powerDownEntry slice k) 1 (· = s.now)) ∧
    (x.pdIdle = 0 ∨ cget 0 x.pch k ≠ 0 ∨ 2 * (s.now - cget 0 x.pchAt k) < x.pdIdle → exec (.powerDownEntry slice k) s = .next s) ∧
    (x.srIdle ≠ 0 → cget 0 x.pch k = 1 → 1000 * x.srIdle ≤ s.now - cget 0 x.pchAt k → wk (.selfRefreshEntry slice k) 2 (· = cget 0 x.pchAt k)) ∧
    (x.srIdle = 0 ∨ cget 0 x.pch k ≠ 1 ∨ s.now - cget 0 x.pchAt k < 1000 * x.srIdle → exec (.selfRefreshEntry slice k) s = .next s))

/-- R321 to R325, R334 to R338, R373: the commands of a partition kernel, contexts, profiles, page retire and shootdown, key slots, scrub jobs. -/
def Obligations.KernelCommands : Prop :=
  (∀ s c i pid p, IsKernelCmd c i → c.src = some pid → tget s.parts pid = some p → (p.st = .forming ∨ p.st = .destroying → Replies i s c 3) ∧
    (p.st = .booting → p.resize = none → (∀ h, i = .fresolve c h .inject → ∀ k, s.heldFull k = false) → exec i s = exec i { s with parts := tput s.parts pid { p with st := .running } })) ∧
  (∀ s c i, IsKernelCmd c i → c.src = none → Replies i s c 1) ∧
  (∀ s c pid p vd x, gives s c pid p → vd < 1024 → x.s1root < 2 ^ 64 → x.s2root < 2 ^ 64 → x.frbase < 2 ^ 64 → x.frdoor < 2 ^ 64 → x.friid < 2 ^ 32 → x.ks1 < 64 → x.ks2 < 64 →
    x.ks3 < 64 → x.wprof < 256 →
    PartSet (.vdctx c vd (toBytes 8 x.s1root ++ toBytes 8 x.s2root ++ toBytes 8 x.frbase ++ toBytes 8 x.frdoor ++ toBytes 4 x.friid ++
      [BitVec.ofNat 8 x.ks1, BitVec.ofNat 8 x.ks2, BitVec.ofNat 8 x.ks3, BitVec.ofNat 8 ((if x.near then 1 else 0) + if x.glob then 2 else 0), BitVec.ofNat 8 x.wprof] ++
      List.replicate 23 0)) s c pid { p with vds := tput p.vds vd x }) ∧
  (∀ s c pid p vd img, gives s c pid p → 1024 ≤ vd ∨ img.length ≠ 64 ∨ (∃ b ∈ img.drop 41, b ≠ 0) ∨ 4 ≤ fieldAt img 39 1 ∨ (∃ k ∈ [36, 37, 38], 64 ≤ fieldAt img k 1) →
    Replies (.vdctx c vd img) s c 1) ∧
  (∀ s c pid p k m l, gives s c pid p →
    (k < 64 → m.length = 4 → l.length = 12 → (∀ x ∈ m, x < 2 ^ 24) → (∀ x ∈ l, x < 4) → PartSet (.wayprof c k m l) s c pid { p with wprofs := tput p.wprofs k { masks := m, pol := l } }) ∧
    (64 ≤ k ∨ m.length ≠ 4 ∨ l.length ≠ 12 ∨ (∃ x ∈ m, 2 ^ 24 ≤ x) ∨ (∃ x ∈ l, 4 ≤ x) → Replies (.wayprof c k m l) s c 1)) ∧
  (∀ s c pid p vd va n cw, gives s c pid p → (∀ r, p.resize = some r → r.step < 3 ∨ 5 < r.step) → vd < 1024 → 4096 ≤ n → n = 2 ^ Nat.log2 n → va % n = 0 →
    ((s.jobsOf pid) = [] → p.ownerTab = none → ∃ t, exec (.pageRetire c vd va n cw) s = .next t ∧ t.resps = s.resps ++ [{ cmd := c, status := 0 }] ∧
      NoXlate s t p (vdTag vd va) va n ∧
      (∀ k, k / 4 ∈ p.slices → ∀ e, e ∈ (t.core k).l1 ↔ e ∈ (s.core k).l1 ∧ ¬(e.vd = vdTag vd va ∧ inPage va n (e.gran * 128) 128)) ∧
      (∀ k, k ∈ p.slices → ∀ e, e ∈ (t.slice k).scache ↔ e ∈ (s.slice k).scache ∧ ¬(e.vd = vdTag vd va ∧ inPage va n (e.gran * 128) 128)) ∧
      (∃ q, tget t.parts pid = some { p with owned := q } ∧ ∀ e, e ∈ q ↔ e ∈ p.owned ∧ ¬(e.2.1 = vdTag vd va ∧ inPage va n (e.2.2 * 4096) 4096))) ∧
    (∀ i u f, s.jobsOf pid ≠ [] → i < n / 4096 → s.walkVa (s.leader pid) pid vd (va + 4096 * i) { sup := true } = (u, .error f) → f.kind = .stage2 → f.cause = 5 →
      Replies (.pageRetire c vd va n cw) s c 3)) ∧
  (∀ s c pid p r, gives s c pid p → p.resize = some r → 3 ≤ r.step → r.step ≤ 5 →
    (∀ vd va n cw, HeldOver (.pageRetire c vd va n cw) s pid p (.pageRetire c vd va n cw)) ∧ ∀ slot, HeldOver (.keyGen c slot) s pid p (.keyGen c slot)) ∧
  (∀ (s : State) pid p, tget s.parts pid = some p → s.runHeld pid =
    p.held.foldl (fun s h => match exec (match h with
      | .pageRetire c vd va n cw => .pageRetire c vd va n cw
      | .keyGen c slot => .keyGen c slot) s with
      | .next t => t
      | _ => s) (s.modPart pid fun p => { p with held := [] })) ∧
  (∀ s c pid p vd va n cw, gives s c pid p → vd < 1024 → ∃ t, exec (.shootdown c vd (some (va, n)) cw) s = .next t ∧ t.resps = s.resps ++ [{ cmd := c, status := 0 }] ∧
    NoXlate s t p (vdTag vd va) va n ∧ (∀ k, (t.core k).l1 = (s.core k).l1) ∧ (∀ k, (t.slice k).scache = (s.slice k).scache)) ∧
  (∀ s c pid p vd cw, gives s c pid p → vd < 1024 → ∃ t, exec (.shootdown c vd none cw) s = .next t ∧ t.resps = s.resps ++ [{ cmd := c, status := 0 }] ∧
    (∀ k, k / 4 ∈ p.slices → ∀ e, e ∈ (t.core k).tlb ↔ e ∈ (s.core k).tlb ∧ vdTag e.vd (pageVa e.vpn e.big) ≠ vd) ∧
    (∀ k, k ∈ p.slices → (∀ e, e ∈ (t.slice k).fcache ↔ e ∈ (s.slice k).fcache ∧ e.vd ≠ vd) ∧ ∀ e, e ∈ (t.slice k).wcache ↔ e ∈ (s.slice k).wcache ∧ e.vd ≠ vd)) ∧
  (∀ s c pid p slot, gives s c pid p → (∀ r, p.resize = some r → r.step < 3 ∨ 5 < r.step) →
    (1 ≤ slot → slot < 64 → (s.slice (s.leader pid)).keySt slot = .empty → ¬slotListed s pid slot → ∃ t, exec (.keyGen c slot) s = .next t ∧
      t = { s with slices := t.slices, nextId := s.nextId + 1, resps := s.resps ++ [{ cmd := c, status := 0 }] } ∧ KeySet s t pid slot fun y => ∃ k, y = .active k ∧ k ≠ 0) ∧
    (1 ≤ slot → slot < 64 → (s.slice (s.leader pid)).keySt slot ≠ .empty ∨ slotListed s pid slot → Replies (.keyGen c slot) s c 3) ∧
    (slot = 0 ∨ 64 ≤ slot → Replies (.keyGen c slot) s c 1)) ∧
  (∀ s c pid p slot, gives s c pid p →
    (1 ≤ slot → slot < 64 → (∃ k, (s.slice (s.leader pid)).keySt slot = .active k) → ∃ t, exec (.keyZero c slot) s = .next t ∧
      t = { s with slices := t.slices, resps := s.resps ++ [{ cmd := c, status := 0 }] } ∧ KeySet s t pid slot (· = .zeroed)) ∧
    (1 ≤ slot → slot < 64 → (∀ k, (s.slice (s.leader pid)).keySt slot ≠ .active k) → Replies (.keyZero c slot) s c 3)) ∧
  (∀ s c pid p job rs ks ms vd, gives s c pid p → job < 4 → rs.length ≤ 16 → (∀ r ∈ rs, r.1 % 2 ^ 21 = 0 ∧ r.2 % 2 ^ 21 = 0 ∧ r.2 ≠ 0) → (∀ k ∈ ks, 1 ≤ k ∧ k < 64) →
    (∀ m ∈ ms, m.1 ∈ p.slices ∧ m.2 < 16) → vd < 1024 →
    let j : ScrubJob := { ranges := rs, slots := ks, cores := ms, vd := vd, cmd := c }
    (p.resize ≠ none → Replies (.scrubStart c job rs ks ms vd) s c 2) ∧
    (p.resize = none → tget s.jobs (pid * 4 + job) = none → p.slices.Nodup → (∀ k ∈ p.slices, k < 16) → ∃ t, exec (.scrubStart c job rs ks ms vd) s = .next t ∧ t.resps = s.resps ∧ tget t.jobs (pid * 4 + job) = some j ∧
      (∀ k ∈ p.slices, t.prog k job = { active := decide (s.jobTotal pid k j ≠ 0), done := decide (s.jobTotal pid k j = 0), total := s.jobTotal pid k j }) ∧
      (∀ k, k / 4 ∈ p.slices → (t.core k).l1 = []) ∧
      (∀ k ∈ p.slices, ∀ e ∈ (t.slice k).scache, e.near = none ∧ e.vd ≠ vd ∧ (¬jobLine s pid k j e.line ∨ e.line / 2 ^ 29 ≠ k)) ∧
      (∀ m ∈ ms, ∀ n, n < 4 → m.2.testBit n → (t.core (m.1 * 4 + n)).ic = [] ∧ ∀ k b, tget s.blocks k = some b → b.slice = m.1 → b.res.held → ∃ b', tget t.blocks k = some b' ∧
        (b.core = n → b'.loc = [] ∧ b'.wbL = [] ∧ (∀ x ∈ b'.acc, ∀ e ∈ x, 128 ≤ e.1 % 256) ∧ (∀ o ∈ b'.mops, ∀ e ∈ o.2.shadow, 128 ≤ e.1 % 256) ∧
          ∀ g ∈ b'.groups, g.v = [] ∧ g.s = [] ∧ g.p = []) ∧
        (b.core + 1 = n → b.isTile → b'.wbF = [] ∧ (∀ x ∈ b'.acc, ∀ e ∈ x, e.1 % 256 < 128) ∧ ∀ o ∈ b'.mops, ∀ e ∈ o.2.shadow, e.1 % 256 < 128)) ∧
      (∀ k b, tget s.blocks k = some b → b.res = .saved → b.pid = pid → b.vd = vd → ∃ b', tget t.blocks k = some b' ∧ b'.loc = [] ∧ b'.wbL = [] ∧ b'.wbF = [] ∧
        (∀ x ∈ b'.acc, x = []) ∧ (∀ e ∈ b'.mops, e.2.shadow = []) ∧ ∀ g ∈ b'.groups, g.v = [] ∧ g.s = [] ∧ g.p = [])) ∧
    ((tget s.jobs (pid * 4 + job)).isSome → Replies (.scrubStart c job rs ks ms vd) s c 2)) ∧
  (∀ s c pid p job rs ks ms vd, gives s c pid p → 4 ≤ job ∨ 16 < rs.length ∨ (∃ r ∈ rs, r.1 % 2 ^ 21 ≠ 0 ∨ r.2 % 2 ^ 21 ≠ 0) → Replies (.scrubStart c job rs ks ms vd) s c 1) ∧
  (∀ s pid p job j, tget s.parts pid = some p → tget s.jobs (pid * 4 + job) = some j → job < 4 →
    (j.zeroing = false → p.slices.Nodup → ∃ t, exec (.scrubZeroPhase pid job) s = .next t ∧
      t = { s with jobs := tput s.jobs (pid * 4 + job) { j with zeroing := true }, sprog := t.sprog } ∧
      ∀ k i, i < 4 → t.prog k i = if k ∈ p.slices ∧ i = job ∧ (s.slice k).inReset = false then { s.prog k i with writing := true, at' := 2 * s.now } else s.prog k i) ∧
    (j.zeroing → p.slices.Nodup → (∀ k ∈ p.slices, (s.settleScrubs.prog k job).done ∧ (tget s.slices k).isSome) → ∃ t, exec (.scrubJobDone pid job) s = .next t ∧
      t.resps = s.resps ++ [{ cmd := j.cmd, status := 0 }] ∧ tget t.jobs (pid * 4 + job) = none ∧ (∀ k i, t.prog k i = s.settleScrubs.prog k i) ∧
      (t.mem, t.poison, t.errs, t.lineKey) = (s.settleScrubs.mem, s.settleScrubs.poison, s.settleScrubs.errs, s.settleScrubs.lineKey) ∧
      (∀ k ∈ j.slots, (∀ e ∈ s.jobs, e.1 ≠ pid * 4 + job → e.1 / 4 = pid → k ∉ e.2.slots) → ∀ i ∈ p.slices, (t.slice i).keySt k = .empty)) ∧
    (j.zeroing = false ∨ (∃ k ∈ p.slices, (s.settleScrubs.prog k job).done = false) → exec (.scrubJobDone pid job) s = .next s)) ∧
  (∀ (s : State) pid slice j, (s.jobOn pid slice j).Pairwise (· < ·) ∧ ∀ l, l / 2 ^ 14 ∈ s.jobOn pid slice j ↔ jobLine s pid slice j l) ∧
  (∀ s slice job f j x, s.sprog = [(slice * 4 + job, x)] → job < 4 → tget s.fw slice = some f → tget s.jobs (f.pid * 4 + job) = some j → stackWf s →
    let n := min x.total (x.prog + (2 * s.now - x.at'))
    (x.active = false ∨ x.writing = false → s.settleScrubs = s) ∧
    (x.active → x.writing → x.prog ≤ x.total → s.settleScrubs.slices = s.slices ∧ s.settleScrubs.jobs = s.jobs ∧
      s.settleScrubs.prog slice job = { x with prog := n, at' := x.at' + (n - x.prog), verify := decide (n = x.total) && x.resumed,
                                               active := decide (n ≠ x.total) || x.resumed, done := decide (n = x.total) && !x.resumed } ∧
      ZeroedPart s s.settleScrubs f.pid slice j x.prog n)) ∧
  (∀ s slice job f j, (tget s.slices slice).isSome → (s.slice slice).inReset → (s.prog slice job).active → (s.prog slice job).writing = false → stackWf s →
    tget s.fw slice = some f → tget s.jobs (f.pid * 4 + job) = some j →
    (j.zeroing → ∃ t, exec (.scrubResume slice job) s = .next t ∧ t.prog slice job = { s.prog slice job with writing := true, at' := 2 * s.now, resumed := true } ∧
      (∀ l, l / 2 ^ 29 = slice → zeroLine t l) ∧ (∀ l, l / 2 ^ 29 ≠ slice → sameLine s t l) ∧ t.slice slice = { s.slice slice with zeroed := true } ∧ t.jobs = s.jobs) ∧
    (j.zeroing = false → exec (.scrubResume slice job) s = .next s)) ∧
  (∀ s slice job f j, tget s.fw slice = some f → tget s.jobs (f.pid * 4 + job) = some j → stackWf s →
    let u := s.settleScrubs
    let x := u.prog slice job
    (x.active → x.verify → x.at' + x.heldProg ≤ 2 * s.now → ∃ t, exec (.verifyPass slice job) s = .next t ∧
      t.prog slice job = { x with active := false, verify := false, writing := false, done := true } ∧ ZeroedPart u t f.pid slice j 0 x.heldProg ∧
      t.slices = u.slices ∧ t.jobs = u.jobs) ∧
    (x.active = false ∨ x.verify = false ∨ 2 * s.now < x.at' + x.heldProg → exec (.verifyPass slice job) s = .next s)) ∧
  (∀ c vd img prof m l va n r w hd a slot job rs ks ms,
    ([opc (.vdctx c vd img), opc (.wayprof c prof m l), opc (.pageRetire c vd va n w), opc (.shootdown c vd r w), opc (.fresolve c hd a), opc (.keyGen c slot),
      opc (.keyZero c slot), opc (.scrubStart c job rs ks ms vd)] = ([0x30, 0x31, 0x32, 0x33, 0x34, 0x35, 0x36, 0x37].map some)))

/-! ### The network engine (R339 to R366) -/

namespace Sys2Proof.Claims

/-- A handle whose operation can go out (R341, R350): its peer's entry. -/
def peerFor (x : Ex) (h : Nat) (e : Peer) : Prop :=
  h < 1024 ∧ x.s.peerAt x.b.pid h = some e ∧ e.lvd = x.b.vd ∧ e.perm.testBit 0 ∧ e.st ≠ 2 ∧ (x.s.slice x.b.slice).gen

/-- A handle that fails with a cause: 1 HANDLE, 2 DOWN (R341, R350). -/
def peerFails (x : Ex) (h rc : Nat) : Prop :=
  (rc = 1 ∧ (1024 ≤ h ∨ x.s.peerAt x.b.pid h = none ∨ ∃ e, x.s.peerAt x.b.pid h = some e ∧ (e.lvd ≠ x.b.vd ∨ e.perm.testBit 0 = false))) ∨
  (rc = 2 ∧ h < 1024 ∧ ∃ e, x.s.peerAt x.b.pid h = some e ∧ e.lvd = x.b.vd ∧ e.perm.testBit 0 ∧ (e.st = 2 ∨ (x.s.slice x.b.slice).gen = false))

/-- Each slice's engine holds 4,096 remote operations (R351). -/
def engineRoom (x : Ex) : Prop := (x.s.rops.filter fun e => e.2.slice == x.b.slice).length < 4096

/-- The group's remote status after a failure (R358): the first since the last clear stays; the group is dirty (R351). -/
def statusFailed (g : Group) (rc peer : Nat) : Group :=
  { g with
    rsAny := true
    rsCause := if g.rsAny then g.rsCause else rc
    rsPeer := if g.rsAny then g.rsPeer else peer
    flash := { g.flash with dirty := true } }

/-- The machine after a control operation has been issued: it has the connection's next number, and its packet waits for the port, or for its sheaves
(R351, R361). -/
def controlled (x : Ex) (h : Nat) (e : Peer) (kind : RemKind) (acq : Bool) (after : Option Nat) (p : GPkt) : State :=
  let c := x.s.conn x.b.slice h
  let q : GPkt := { p with ctl := 1, dpeer := e.rpeer, msg := c.msg }
  let o : RemOp := { b := x.c.b, g := x.c.g, mask := x.t.mask, slice := x.b.slice, pid := x.b.pid, vd := x.b.vd, peer := h, kind := kind, msg := c.msg, fenced := true, acq := acq }
  let c' : Conn := { c with msg := (c.msg + 1) % 2 ^ 32 }
  { x.s with
    nextId := x.s.nextId + 1
    rops := tput x.s.rops x.s.nextId (match after with
      | none => o
      | some k => { o with wait := .after k, pkt := some q })
    conns := tput x.s.conns (x.b.slice * 1024 + h) (match after with
      | none => { c' with queue := c.queue ++ [(some x.s.nextId, { q with sslice := x.b.slice })] }
      | some _ => c') }

/-- Nothing of the group waits for the peer behind an `.after`. -/
def clearWay (x : Ex) (h : Nat) : Prop :=
  tget x.s.rops x.s.nextId = none ∧ ∀ e ∈ x.s.rops, e.2.b = x.c.b → e.2.g = x.c.g → e.2.peer = h → e.2.wait = .none

/-- R350, R351, R358: a control instruction: it passes with no lane, waits for room or for a release's order, fails at its handle, with GEOM where it is
`bad`, or goes out and leaves `y`. -/
def ControlRow (i : Instr) (hd : Hd) (h : Ex → Nat) (rel : Bool) (bad : Ex → Prop) (y : Ex → Peer → Ex) : Prop :=
  ∀ s x, Issues i s x →
    let before := doneAt .sys x
    (x.guard hd = 0 → Passes i s x x.t.mode) ∧
    (x.guard hd ≠ 0 → ¬engineRoom x ∨ (rel ∧ ¬before) → exec i s = .next { x with t := { x.t with st := .waiting } }.close) ∧
    (∀ rc, x.guard hd ≠ 0 → engineRoom x → (rel → before) → peerFails x (h x) rc →
      Ends i s { x with g := statusFailed x.g rc (h x % 1024), t := nextT i x }) ∧
    (∀ e, x.guard hd ≠ 0 → engineRoom x → (rel → before) → peerFor x (h x) e → bad x → Ends i s { x with g := statusFailed x.g 8 (h x), t := nextT i x }) ∧
    (∀ e, x.guard hd ≠ 0 → engineRoom x → (rel → before) → peerFor x (h x) e → ¬bad x → clearWay x (h x) → Ends i s (y x e))

/-- A scalar operand of a remote instruction. -/
def sv (x : Ex) (r : SReg) : Nat := (x.g.sget r.val).toNat

/-- Operand B of a remote instruction at a type (R39). -/
def opB (x : Ex) (t : IType) : Src32 → Nat
  | .reg r => sv x r % 2 ^ t.width
  | .imm v => immBits t (.i32 v)

/-- The group made dirty (R351). -/
def madeDirty (g : Group) : Group := { g with flash := { g.flash with dirty := true } }

/-- R351, R353, R354: a remote copy joins the open sheaf, Failed by its handle or by a check at issue, or with an operation in the engine. -/
def RemCopyRow (i : Instr) (o : CpyOp) (c : SReg) (k : Ex → Nat → Copy) : Prop :=
  ∀ s x, Issues i s x →
    let h := sv x c
    (x.g.producer = false → Traps i s x 0x10 1) ∧
    (x.g.producer → x.guard o.h = 0 → Passes i s x x.t.mode) ∧
    (x.g.producer → x.guard o.h ≠ 0 → 256 ≤ x.g.openSheaf.length → Traps i s x 0x10 2) ∧
    (x.g.producer → x.guard o.h ≠ 0 → x.g.openSheaf.length < 256 → ¬engineRoom x → exec i s = .next { x with t := { x.t with st := .waiting } }.close) ∧
    (x.g.producer → x.guard o.h ≠ 0 → x.g.openSheaf.length < 256 → engineRoom x →
      let k' : Copy := k x (h % 1024)
      (∀ rc, peerFails x h rc → Ends i s { x with
        s := { x.s with nextId := x.s.nextId + 1, copies := tput x.s.copies x.s.nextId { k' with st := .failed, cause := 10, whr := 2, addr := (k'.dstAt 0).addr, rcause := rc } }
        g := { madeDirty x.g with openSheaf := x.g.openSheaf ++ [x.s.nextId] }
        t := nextT i x }) ∧
      (∀ e f, peerFor x h e → k'.issueCheck x.b = some f → Ends i s { copyJoined i x k' with g := madeDirty (copyJoined i x k').g }) ∧
      (∀ e, peerFor x h e → k'.issueCheck x.b = none → k'.st = .queued →
        let cn := x.s.conn x.b.slice h
        Ends i s { x with
          s := { x.s with
            nextId := x.s.nextId + 2
            copies := tput x.s.copies x.s.nextId k'
            conns := tput x.s.conns (x.b.slice * 1024 + h) { cn with msg := (cn.msg + 1) % 2 ^ 32 }
            rops := tput x.s.rops (x.s.nextId + 1) { b := x.c.b, g := x.c.g, mask := x.t.mask, slice := x.b.slice, pid := x.b.pid, vd := x.b.vd, peer := h, msg := cn.msg
                                                     kind := if k'.kind.fetches then .get x.s.nextId else .cpy x.s.nextId
                                                     left := if k'.kind.fetches then k'.rows * k'.rb else 0 } }
          g := { madeDirty x.g with openSheaf := x.g.openSheaf ++ [x.s.nextId] }
          t := nextT i x }))

/-- The remote status word (R358). -/
def statusOf (x : Ex) : Nat :=
  (if x.g.rsAny then 2 ^ 63 else 0) + (x.s.rops.filter fun e => e.2.b == x.c.b && e.2.g == x.c.g && e.2.fenced).length * 2 ^ 32 + x.g.rsCause * 2 ^ 16 + x.g.rsPeer

end Sys2Proof.Claims

/-- R350 to R361: the remote instructions at issue. -/
def Obligations.RemoteInstructions : Prop :=
  (∀ o c l hint dp, RemCopyRow (.rcpy o c l hint dp) o c fun x p => issuedCopy x o none (.rcpy p l dp.toNat) hint) ∧
  (∀ o c hint dp, RemCopyRow (.rget o c hint dp) o c fun x p => issuedCopy x o none (.rget p dp.toNat) hint) ∧
  (∀ h op sem ty d a b c off,
    let i : Instr := .ratom h op sem ty d a b c off
    let n := ty.width / 8
    ControlRow i h (sv · c) (sem == some .rel || sem == some .ar) (fun x => addr64 (sv x a) off % n ≠ 0) fun x e =>
      let x' : Ex := { x with s := controlled x (sv x c) e (.atom x.g.nextPend d.val ty) (sem == some .acq || sem == some .ar) none
                                     { typ := 4, va := addr64 (sv x a) off, len := n, payload := toBytes n (opB x ty b)
                                       aux := (match op with
                                         | .add => 0
                                         | .exch => 1
                                         | .fset => 2) + if n = 8 then 256 else 0 } }
      { x' with
        g := withPend (madeDirty x.g) { condOf i x (.remote x.s.nextId) with marks := [.s d.val] }
        t := { nextT i x with wins := (nextT i x).wins ++ opened i x, st := if (fields i).look == 0 then .longWait (.on x.g.nextPend) else .ready } }) ∧
  (∀ h after rel w d b c off,
    let i : Instr := .rflag h after rel w d b c off
    let n := if w then 8 else 4
    ControlRow i h (sv · c) rel (fun x => addr64 (sv x d) off % n ≠ 0) fun x e => { x with
      s := controlled x (sv x c) e .flag false (if x.g.sealCnt = 0 then none else after.map fun r => sv x r % 2 ^ 32)
        { typ := 6, va := addr64 (sv x d) off, len := n, payload := toBytes n (opB x (if w then .b64 else .b32) b) }
      g := madeDirty x.g
      t := nextT i x }) ∧
  (∀ h a c tag,
    let i : Instr := .rnote h a c tag
    ControlRow i h (sv · c) true (fun _ => False) fun x e => { x with
      s := controlled x (sv x c) e .note false none { typ := 7, aux := tag.toNat, len := 8, payload := toBytes 8 (sv x a) }
      g := madeDirty x.g
      t := nextT i x }) ∧
  (∀ h f s x, Issues (.rstat h f) s x → x.guard h = 0 → Passes (.rstat h f) s x x.t.mode) ∧
  (∀ h d s x, Issues (.rstat h (.grp d)) s x → x.guard h ≠ 0 → notRecording x →
    Ends (.rstat h (.grp d)) s { x with g := (readCounted x).g.sset d.val (BitVec.ofNat 64 (statusOf x)), t := nextT (.rstat h (.grp d)) x }) ∧
  (∀ h d s x, Issues (.rstat h (.clr d)) s x → x.guard h ≠ 0 → notRecording x →
    Ends (.rstat h (.clr d)) s { x with
      g := { (readCounted x).g.sset d.val (BitVec.ofNat 64 (statusOf x)) with rsAny := false, rsCause := 0, rsPeer := 0 }, t := nextT (.rstat h (.clr d)) x }) ∧
  (∀ h d a s x, Issues (.rstat h (.sh d a)) s x → x.guard h ≠ 0 → notRecording x →
    ∃ v, Ends (.rstat h (.sh d a)) s { x with g := (readCounted x).g.sset d.val (BitVec.ofNat 64 v), t := nextT (.rstat h (.sh d a)) x } ∧
      (∀ r, x.g.sheafRec (sv x a % 2 ^ 32) = .ok r → v = if r.out then 0 else r.rcause) ∧ (∀ k, x.g.sheafRec (sv x a % 2 ^ 32) = .error k → v = 0))

namespace Sys2Proof.Claims

/-- A packet of R343 whose fields are in range. -/
def goodPacket (p : GPkt) : Prop :=
  1 ≤ p.typ ∧ p.typ ≤ 8 ∧ p.sslice < 2 ^ 8 ∧ p.ctl < 2 ^ 8 ∧ p.dpeer < 2 ^ 16 ∧ p.psn < 2 ^ 32 ∧ p.msg < 2 ^ 32 ∧ p.va < 2 ^ 64 ∧ p.len ≤ 4096 ∧ p.aux < 2 ^ 32 ∧
  (p.typ ≠ 2 → p.payload.length = p.len)

/-- A packet from an address reaches a port that listens (R341, R344). -/
def reaches (s : State) (slice pid : Nat) (pkt : List Byte) (p : GPkt) (tag : List Byte) : Prop :=
  (∃ q, s.ownerPart slice = some (pid, q)) ∧ (s.slice slice).gen ∧ (s.slice slice).inReset = false ∧ gpktOf pkt = some (p, tag)

/-- The first check of R344 holds for a peer's entry. -/
def trusted (s : State) (pid src : Nat) (p : GPkt) (tag : List Byte) (e : Peer) : Prop :=
  s.peerAt pid p.dpeer = some e ∧ (∃ k, k < e.naddr ∧ s.addrAt pid (e.addr0 + k) = src) ∧ tag = tagOf e.key p

/-- A connection once a packet has come: its newest PSN, and of the refusals those of the 1,024 PSNs that the sender may still hold (R345). -/
def seen (r : Rcv) (psn : Nat) : Rcv :=
  let top := if (psn + 2 ^ 32 - r.top) % 2 ^ 32 < 2 ^ 31 then psn else r.top
  { r with top := top, refused := r.refused.filter fun f => decide ((top + 2 ^ 32 - f.1) % 2 ^ 32 < 1024) }

/-- The machine with the packet received, and held until it has been applied; it is the next of its connection and nothing else is held (R345). -/
def received (s : State) (slice pid : Nat) (ce : Bool) (p : GPkt) (r : Rcv) : State :=
  { s with rcvs := tput s.rcvs (rcvKey pid p.dpeer p.sslice) { seen r p.psn with slice := slice, ce := r.ce + (if ce then 1 else 0), held := [(p, slice)] } }

/-- Whether a PSN comes before another of a connection whose cumulative PSN is given (R345). -/
def comesBefore (cum k psn : Nat) : Prop := (k + 2 ^ 32 - cum) % 2 ^ 32 < (psn + 2 ^ 32 - cum) % 2 ^ 32

/-- The connection of a packet, as the table has it or new. -/
def rcvOf (s : State) (slice pid : Nat) (p : GPkt) : Rcv :=
  (tget s.rcvs (rcvKey pid p.dpeer p.sslice)).getD { pid := pid, peer := p.dpeer, sslice := p.sslice, slice := slice }

/-- The receiving side of a connection at packet `p`, which comes in order. -/
def inSequence (s : State) (slice pid : Nat) (p : GPkt) (r : Rcv) : Prop :=
  r = rcvOf s slice pid p ∧ r.cum = p.psn ∧ p.psn < 2 ^ 32 ∧ r.ahead = [] ∧ r.held = []

/-- A receive that ends with `m` as the memory: the packet's PSN counts as taken, with a refusal's cause or 0. -/
def Took (i : Instr) (s : State) (slice pid : Nat) (ce : Bool) (p : GPkt) (r : Rcv) (rc : Nat) (m : State → Prop) : Prop :=
  ∃ t r', exec i s = .next t ∧ tget t.rcvs (rcvKey pid p.dpeer p.sslice) = some r' ∧ r'.cum = (p.psn + 1) % 2 ^ 32 ∧ r'.held = [] ∧ r'.unack = r.unack + 1 ∧
    r'.refused = (seen r p.psn).refused ++ (if rc = 0 then [] else [(p.psn, rc)]) ∧ r'.slice = slice ∧ r'.ce = r.ce + (if ce then 1 else 0) ∧ m t

/-- The VD's trace entry on the slice neither records nor replays. -/
def quietTrace (s : State) (slice vd : Nat) : Prop := ∃ k, tget (s.slice slice).trc vd = some k ∧ k.recm = false ∧ k.rpl = false

/-- The packet's request as an access of the peer's VD (R344). -/
def responded (s : State) (slice peer : Nat) (p : GPkt) (e : Peer) (typ : Nat) (d : List Byte) : Conn :=
  let c := s.conn slice peer
  { c with queue := c.queue ++ [(none, { typ := typ, sslice := slice, dpeer := e.rpeer, msg := p.msg, va := p.va, len := d.length, aux := p.sslice, payload := d })] }

end Sys2Proof.Claims

/-- R343 to R345, R355 to R357: packets that arrive. -/
def Obligations.PacketsReceived : Prop :=
  (∀ p tag, goodPacket p → tag.length = 16 → gpktOf (p.bytes ++ tag) = some (p, tag)) ∧
  (∀ s slice pid src ce pkt p tag, reaches s slice pid pkt p tag → p.typ ≠ 8 → (∀ e, ¬trusted s pid src p tag e) → (tget s.slices slice).isSome →
    ∃ t, exec (.golrisReceive slice src ce pkt) s = .next t ∧ SliceBecomes s t slice { s.slice slice with badtag := ((s.slice slice).badtag + 1) % 2 ^ 16 }) ∧
  (∀ s slice src ce pkt, (s.ownerPart slice).isSome → (s.slice slice).gen → (s.slice slice).inReset = false → gpktOf pkt = none → (tget s.slices slice).isSome →
    ∃ t, exec (.golrisReceive slice src ce pkt) s = .next t ∧ SliceBecomes s t slice { s.slice slice with badtag := ((s.slice slice).badtag + 1) % 2 ^ 16 }) ∧
  (∀ s slice pid src ce pkt p tag e r, reaches s slice pid pkt p tag → p.typ ≠ 8 → trusted s pid src p tag e → (tget s.slices slice).isSome → inSequence s slice pid p r →
    let i : Instr := .golrisReceive slice src ce pkt
    let u := received s slice pid ce p r
    let denied := e.st ≠ 1 ∨ (p.typ = 1 ∧ e.perm.testBit 1 = false) ∨ (p.typ = 6 ∧ e.perm.testBit 1 = false) ∨ (p.typ = 2 ∧ e.perm.testBit 2 = false) ∨
      (p.typ = 4 ∧ e.perm.testBit 3 = false) ∨ (p.typ = 7 ∧ e.perm.testBit 4 = false)
    (denied → Took i s slice pid ce p r 3 fun t => t.mem = s.mem ∧ SliceBecomes s { t with rcvs := s.rcvs } slice { s.slice slice with refused := ((s.slice slice).refused + 1) % 2 ^ 16 }) ∧
    (¬denied → quietTrace s slice e.lvd →
      (∀ x v w, p.typ = 1 ∨ p.typ = 6 → canonical p.va → u.reach slice pid e.lvd p.va { w := true } = (v, .ok x) → 
          v.engWrite slice pid e.lvd p.va p.payload { cls := if p.typ = 1 then 1 else 0, op := 1 } = (w, none) →
        Took i s slice pid ce p r 0 fun t => t.mem = w.mem ∧ t.conns = s.conns) ∧
      (∀ v f, p.typ = 1 ∨ p.typ = 6 → canonical p.va → u.reach slice pid e.lvd p.va { w := true } = (v, .error f) → f.kind = .stage2 →
        Took i s slice pid ce p r 4 fun t => t.mem = v.mem ∧ t.reports = s.reports) ∧
      (∀ v, p.typ = 1 ∨ p.typ = 6 → canonical p.va → u.reach slice pid e.lvd p.va { w := true } = (v, .error { kind := .home }) →
        ∃ t, exec i s = .next t ∧ t.mem = v.mem ∧ ∃ r', tget t.rcvs (rcvKey pid p.dpeer p.sslice) = some r' ∧ r'.held = [(p, slice)] ∧ r'.unack = r.unack) ∧
      (∀ v d, p.typ = 2 → u.vaRead slice pid e.lvd p.va p.len = (v, .ok d) →
        Took i s slice pid ce p r 0 fun t => t.mem = v.mem ∧ t.conn slice p.dpeer = responded s slice p.dpeer p e 3 d) ∧
      (∀ v x z w d, p.typ = 4 → canonical p.va →
        let n := if p.aux.testBit 8 then 8 else 4
        let b := ofBytes (p.payload.take n)
        u.vaRead slice pid e.lvd p.va n = (v, .ok d) → v.reach slice pid e.lvd p.va { r := true, w := true } = (z, .ok x) →
        z.engWrite slice pid e.lvd p.va (toBytes n (if p.aux % 4 = 0 then (ofBytes d + b) % 2 ^ (8 * n) else if p.aux % 4 = 1 then b else ofBytes d ||| b)) = (w, none) →
        Took i s slice pid ce p r 0 fun t => t.mem = w.mem ∧ t.conn slice p.dpeer = responded s slice p.dpeer p e 5 d) ∧
      (∀ v h w z, p.typ = 7 → e.nring ≠ 0 → u.vaRead slice pid e.lvd e.nring 64 = (v, .ok h) → 4 ≤ fieldAt h 0 4 → fieldAt h 0 4 ≤ 16 → (∀ x ∈ h.drop 24, x = 0) →
        v.translates slice pid e.lvd e.nring (64 + 16 * 2 ^ fieldAt h 0 4) { r := true, w := true } →
        fieldAt h 16 8 - fieldAt h 8 8 < 2 ^ fieldAt h 0 4 →
        v.vaWrite slice pid e.lvd (e.nring + 64 + 16 * (fieldAt h 16 8 % 2 ^ fieldAt h 0 4)) (p.payload.take 8 ++ toBytes 4 (p.aux % 2 ^ 22) ++ toBytes 2 p.dpeer ++ [0, 0]) = (w, none) →
        w.vaWrite slice pid e.lvd (e.nring + 16) (toBytes 8 (fieldAt h 16 8 + 1)) = (z, none) → Took i s slice pid ce p r 0 fun t => t.mem = z.mem) ∧
      (p.typ = 7 → e.nring = 0 → Took i s slice pid ce p r 3 fun t => t.mem = s.mem))) ∧
  (∀ s slice pid src ce pkt p tag e r, reaches s slice pid pkt p tag → p.typ = 4 ∨ p.typ = 6 ∨ p.typ = 7 → trusted s pid src p tag e → e.st = 1 → permits e p.typ = true →
    r = rcvOf s slice pid p → r.held = [] → r.cum < 2 ^ 32 → p.psn < 2 ^ 32 → p.psn ∉ r.ahead → (p.psn + 2 ^ 32 - r.cum) % 2 ^ 32 < 2 ^ 31 →
    (∃ k, k < 2 ^ 32 ∧ comesBefore r.cum k p.psn ∧ k ∉ r.ahead) →
    exec (.golrisReceive slice src ce pkt) s = .next (received s slice pid ce p r)) ∧
  (∀ (r : Rcv) psn, r.cum < 2 ^ 32 → psn < 2 ^ 32 →
    (r.ctlTurn psn = true ↔ ∀ k, k < 2 ^ 32 → comesBefore r.cum k psn → k ∈ r.ahead ∨ ∃ h ∈ r.held, h.1.psn = k ∧ h.1.typ ≠ 4 ∧ h.1.typ ≠ 6 ∧ h.1.typ ≠ 7)) ∧
  (∀ (s t : State) key slice pid peer e p r, tget s.rcvs key = some r → e.st = 1 → permits e p.typ = true → p.typ = 4 ∨ p.typ = 6 ∨ p.typ = 7 → quietTrace s slice e.lvd → quietTrace t slice e.lvd →
    (r.ctlTurn p.psn = false → s.tryPkt key slice pid peer e p = (s, false)) ∧
    (r.ctlTurn p.psn = true → s.applyPkt slice pid peer e p = (t, .done) → s.tryPkt key slice pid peer e p = ({ t with rcvs := tmod t.rcvs key fun r => r.took t.now p.psn 0 }, true)) ∧
    (r.ctlTurn p.psn = true → s.applyPkt slice pid peer e p = (t, .hold) → s.tryPkt key slice pid peer e p = (t, false))) ∧
  (∀ s slice pid src ce pkt p tag e r, reaches s slice pid pkt p tag → p.typ ≠ 8 → trusted s pid src p tag e → tget s.rcvs (rcvKey pid p.dpeer p.sslice) = some r →
    (p.psn + 2 ^ 32 - r.cum) % 2 ^ 32 ≥ 2 ^ 31 ∨ p.psn ∈ r.ahead → ∃ t r', exec (.golrisReceive slice src ce pkt) s = .next t ∧ t = { s with rcvs := t.rcvs } ∧
      tget t.rcvs (rcvKey pid p.dpeer p.sslice) = some r' ∧ r'.unack = r.unack + 1 ∧ (r'.cum, r'.ahead, r'.held, r'.refused) = (r.cum, r.ahead, r.held, (seen r p.psn).refused)) ∧
  (∀ s slice src ce pkt, (s.slice slice).gen = false → exec (.golrisReceive slice src ce pkt) s = .next s ∧ exec (.ackReceive slice src ce pkt) s = .next s)

namespace Sys2Proof.Claims

/-- The bytes of an acknowledgement (R343): the cumulative PSN, the bitmap of those after it, the CE marks, the refusals. -/
def ackOf (cum map ce : Nat) (refused : List (Nat × Nat)) : List Byte :=
  toBytes 4 cum ++ toBytes 8 map ++ toBytes 4 ce ++ toBytes 4 refused.length ++ refused.flatMap fun f => toBytes 4 f.1 ++ toBytes 4 f.2

/-- An operation on a peer is over with a cause, 0 for none, where it is a flag or a note (R352). -/
def ctlOver (s t : State) (id : Nat) (o : RemOp) (rc : Nat) : Prop :=
  tget t.rops id = none ∧ t.mem = s.mem ∧ ∀ g, GroupAt s o.b o.g g → GroupAt t o.b o.g (if rc = 0 ∨ g.rsAny then g else { g with rsAny := true, rsCause := rc, rsPeer := o.peer })

/-- What leaves a port for a packet (R339, R341, R346): from the slice's Golris address, with the path in the source port and the UDP checksum. -/
def sentFrom (s : State) (slice pid : Nat) (e : Peer) (path : Nat) (q : GPkt) : WireOut :=
  let x := s.slice slice
  let dst := s.addrAt pid (e.addr0 + path % e.naddr)
  { slice := slice, src := s.addrAt pid slice, dst := dst, sport := 49152 + path, dport := x.gport, ect := x.ect, vid := x.vid, bytes := q.bytes ++ tagOf e.key q
    sum := udpSum (s.addrAt pid slice) dst (49152 + path) x.gport (q.bytes ++ tagOf e.key q) }

end Sys2Proof.Claims

/-- R339 to R342, R345 to R349, R352, R361: packets that leave, acknowledgements, retransmission, rates, peers that go down, Golris switched off, frames, the
VIRTIO device's transmit queues and the link. What the packed layout's descriptors hold is that of VIRTIO 1.2, and that a packet without an
acknowledgement stays to be sent again after Golris has been off is the model's reading (notes/assumptions/62.md and 96.md). -/
def Obligations.PacketsSentAndPorts : Prop :=
  (∀ s slice peer op p l pid e, (s.conn slice peer).queue = (op, p) :: l → s.peerOn slice peer = some (pid, e) → (s.conn slice peer).sent.length < 1024 → e.st = 1 →
    (s.slice slice).gen → (s.slice slice).link → (s.slice slice).inReset = false → (s.conn slice peer).paceAt ≤ s.now → 1 ≤ e.npath → 1 ≤ e.naddr →
    let c := s.conn slice peer
    let q : GPkt := { p with psn := c.psn }
    let path := c.psn % e.npath
    ∃ t n, exec (.pacedPacketSend slice peer) s = .next t ∧ t = { s with conns := t.conns, wire := t.wire, slices := (s.count slice e.lvd 0x00B 1).slices } ∧
      t.conn slice peer = { c with
        queue := l, psn := (c.psn + 1) % 2 ^ 32, paceAt := n
        sent := c.sent ++ [{ pkt := q, op := op, sends := 1, path := path, rto := e.rto0 * 1000, due := s.now + e.rto0 * 1000 }] } ∧
      t.wire = s.wire ++ [sentFrom s slice pid e path q]) ∧
  (∀ src dst sport dport (data : List Byte),
    let n := sum16 (toBytes 16 src).reverse + sum16 (toBytes 16 dst).reverse + 17 + (8 + data.length) + sport + dport + (8 + data.length) + sum16 data
    n < 2 ^ 32 → (n + udpSum src dst sport dport data) % 65535 = 0 ∧ 1 ≤ udpSum src dst sport dport data ∧ udpSum src dst sport dport data < 2 ^ 16) ∧
  (∀ s slice peer, (s.conn slice peer).queue = [] ∨ 1024 ≤ (s.conn slice peer).sent.length ∨ (s.slice slice).gen = false ∨ (s.slice slice).link = false ∨
    s.now < (s.conn slice peer).paceAt → exec (.pacedPacketSend slice peer) s = .next s) ∧
  (∀ s slice peer psn k pid e, (s.conn slice peer).sent.find? (fun k => k.pkt.psn == psn) = some k → s.peerOn slice peer = some (pid, e) → (s.conn slice peer).paceAt ≤ s.now →
    (k.due ≤ s.now → (s.slice slice).gen → k.sends < 13 → 1 ≤ e.npath → ((s.conn slice peer).sent.map fun k => k.pkt.psn).Nodup →
      ∃ t k', exec (.retransmitTimeout slice peer psn) s = .next t ∧ t.mem = s.mem ∧ k' ∈ (t.conn slice peer).sent ∧ k'.pkt = k.pkt ∧ k'.sends = k.sends + 1 ∧
        k'.path = (k.path + 1) % e.npath ∧ k'.rto = min (2 * k.rto) (64 * e.rto0 * 1000) ∧ k'.due = s.now + k'.rto ∧ s.now ≤ (t.conn slice peer).paceAt ∧
        t.wire = s.wire ++ [sentFrom s slice pid e k'.path { k.pkt with ctl := k.pkt.ctl ||| 2 }] ∧
        ∃ u, SliceBecomes s u slice { s.slice slice with retx := ((s.slice slice).retx + 1) % 2 ^ 16 } ∧ t.slices = ((u.count slice e.lvd 0x00B 1).count slice e.lvd 0x00C 1).slices) ∧
    (k.due ≤ s.now → (s.slice slice).gen → 13 ≤ k.sends → ∃ t, exec (.retransmitTimeout slice peer psn) s = .next t ∧ (∀ o ∈ t.rops, ¬(o.2.pid = pid ∧ o.2.peer = peer)) ∧
      ∃ p q, tget s.parts pid = some p ∧ tget t.parts pid = some q ∧ ∀ e, tget p.peers peer = some e → tget q.peers peer = some { e with st := 2 }) ∧
    (s.now < k.due ∨ (s.slice slice).gen = false → exec (.retransmitTimeout slice peer psn) s = .next s)) ∧
  (∀ s slice peer psn, s.now < (s.conn slice peer).paceAt → exec (.retransmitTimeout slice peer psn) s = .next s) ∧
  (∀ (s : State) slice peer, tget s.conns (slice * 1024 + peer) = none → (s.conn slice peer).rateAt = s.now + 1000 * max 1 ((s.slice slice).netCC / 2 ^ 16 % 2 ^ 16)) ∧
  (∀ s slice peer c, tget s.conns (slice * 1024 + peer) = some c → c.rateAt ≤ s.now →
    let v := (s.slice slice).netCC
    let f : Rat := if c.acked = 0 then 0 else (c.marked : Rat) / (c.acked : Rat)
    let alpha := c.alpha + (f - c.alpha) / ((max 1 (v / 2 ^ 40 % 2 ^ 8) : Nat) : Rat)
    ∃ t, exec (.rateUpdate slice peer) s = .next t ∧ t = { s with conns := t.conns } ∧ t.conn slice peer = { c with
      alpha := alpha, acked := 0, marked := 0, rateAt := s.now + 1000 * max 1 (v / 2 ^ 16 % 2 ^ 16)
      rate := if f > 0 then max ((v % 2 ^ 16 : Nat) : Rat) (c.rate * (1 - alpha / 2)) else min 1600000 (c.rate + ((v / 2 ^ 48 % 2 ^ 16 : Nat) : Rat)) }) ∧
  (∀ s key r e, tget s.rcvs key = some r → s.peerAt r.pid r.peer = some e → 1 ≤ r.unack → 8 ≤ r.unack ∨ r.firstAt + 2000 ≤ s.now → 1 ≤ e.naddr →
    ∃ t m p, exec (.ackSend key) s = .next t ∧ t = { s with rcvs := t.rcvs, wire := t.wire, slices := (s.count r.slice e.lvd 0x00B 1).slices } ∧
      tget t.rcvs key = some { r with unack := 0, ce := 0 } ∧
      (∀ i, i < 64 → (m.testBit i = true ↔ (r.cum + 1 + i) % 2 ^ 32 ∈ r.ahead)) ∧ m < 2 ^ 64 ∧ (p : GPkt).typ = 8 ∧ p.dpeer = e.rpeer ∧ p.payload = ackOf r.cum m r.ce r.refused ∧
      p.aux = (r.refused.head?.map Prod.snd).getD 0 ∧ t.wire = s.wire ++ [sentFrom s r.slice r.pid e 0 p]) ∧
  (∀ s key r, tget s.rcvs key = some r → r.unack = 0 ∨ (r.unack < 8 ∧ s.now < r.firstAt + 2000) → exec (.ackSend key) s = .next s) ∧
  (∀ s slice pid src ce pkt p tag e k o id rc cum, reaches s slice pid pkt p tag → p.typ = 8 → trusted s pid src p tag e → e.st = 1 →
    p.payload = ackOf cum 0 0 (if rc = 0 then [] else [(k.pkt.psn, rc)]) → cum < 2 ^ 32 → rc < 2 ^ 32 → k.pkt.psn < cum → cum ≤ k.pkt.psn + 2 ^ 31 →
    (s.conn p.msg p.dpeer).sent = [k] → k.op = some id → tget s.rops id = some o → (o.kind = .flag ∨ o.kind = .note) → (s.rops.map Prod.fst).Nodup →
    ∃ t, exec (.ackReceive slice src ce pkt) s = .next t ∧ (t.conn p.msg p.dpeer).sent = [] ∧ (t.conn p.msg p.dpeer).acked = (s.conn p.msg p.dpeer).acked + 1 ∧ ctlOver s t id o rc) ∧
  (∀ s slice pid src ce pkt p tag e cum map, reaches s slice pid pkt p tag → p.typ = 8 → trusted s pid src p tag e → e.st = 1 → p.payload = ackOf cum map 0 [] → cum < 2 ^ 31 → map < 2 ^ 64 →
    (∀ k ∈ (s.conn p.msg p.dpeer).sent, k.op = none ∧ cum ≤ k.pkt.psn ∧ k.pkt.psn < 2 ^ 31 ∧ (k.pkt.psn = cum ∨ map.testBit (k.pkt.psn - cum - 1) = false)) →
    ∃ t, exec (.ackReceive slice src ce pkt) s = .next t ∧ t = { s with conns := t.conns } ∧ (t.conn p.msg p.dpeer).sent = (s.conn p.msg p.dpeer).sent.map fun k =>
      if 3 ≤ ((List.range 64).filter fun i => map.testBit i && decide (k.pkt.psn ≤ cum + 1 + i)).length ∧ s.now < k.due then { k with due := s.now } else k) ∧
  (∀ s op o k b g, tget s.rops op = some o → o.wait = .after k → tget s.blocks o.b = some b → b.groups[o.g]? = some g → (s.rops.map Prod.fst).Nodup →
    (g.cwaitOk true k = false → exec (.rflagAfterSend op) s = .next s) ∧
    (g.cwaitOk true k → (∀ e ∈ g.sheaves, e.failed = false) → (∀ e ∈ s.rops, e.2.b = o.b → e.2.g = o.g → e.2.peer = o.peer → e.1 = op) → ∀ q, o.pkt = some q →
      ∃ t, exec (.rflagAfterSend op) s = .next t ∧ t.blocks = s.blocks ∧ t.mem = s.mem ∧ tget t.rops op = some { o with wait := .none, pkt := none } ∧
        (t.conn o.slice o.peer).queue = (s.conn o.slice o.peer).queue ++ [(some op, { q with sslice := o.slice })]) ∧
    (g.cwaitOk true k → (∃ e ∈ g.sheaves, e.failed ∧ (k + 2 ^ 32 - e.num) % 2 ^ 32 < 64) → o.kind = .flag →
      (∀ e ∈ s.rops, e.2.b = o.b → e.2.g = o.g → e.2.peer = o.peer → e.1 = op) → ∃ t, exec (.rflagAfterSend op) s = .next t ∧ t.conns = s.conns ∧ ctlOver s t op o 6)) ∧
  (∀ (s : State) b g bl (gr : Group) sh id o k, tget s.blocks b = some bl → bl.groups[g]? = some gr → sh ∈ gr.sheaves → (id, o) ∈ s.rops → o.b = b → o.g = g → o.wait = .after k →
    (k + 2 ^ 32 - sh.num) % 2 ^ 32 < 64 → ∃ bl' gr' sh', tget (s.settleSheaves b g).blocks b = some bl' ∧ bl'.groups[g]? = some gr' ∧ sh' ∈ gr'.sheaves ∧
      sh'.num = sh.num ∧ (sh.failed → sh'.failed)) ∧
  (∀ (s : State) bid cause e, e ∈ (s.failCopies bid cause).rops ↔ e ∈ s.rops ∧ ¬(e.2.b = bid ∧ ((∃ c, e.2.kind = .cpy c ∧ e.2.left = 0) ∨
    ∃ c k, e.2.kind = .get c ∧ tget s.copies c = some k ∧ (k.st = .queued ∨ k.st = .suspended .queued)))) ∧
  (∀ (s t : State) id b c n m a, s.cpStop id b c (.fail n m a) = some t → (∀ o ∈ s.rops, o.2.kind = .cpy id → o.2.left = 0) → ∀ o ∈ t.rops, o.2.kind ≠ .cpy id) ∧
  (∀ s slice up, (tget s.slices slice).isSome → ∃ t, exec (.portLinkChange slice up) s = .next t ∧ SliceBecomes s t slice { s.slice slice with link := up }) ∧
  (∀ s slice qi q a n w id u b, (s.slice slice).inReset = false → (s.slice slice).link → qi % 2 = 1 → s.vioQueue slice qi = some q →
    s.chain slice q = some ([(a, n, w)], id) → s.paGet slice a n = (u, b) →
    let v := u.useChain slice qi q 1 id 0
    let f := vioFrame b
    (∀ q', v.vioQueue slice qi = some q' → v.chain slice q' = none) →
    (f.length ≤ 9216 → (∀ d, udpOf f = some d → ¬(49152 ≤ d.sport ∧ d.sport < 49216)) → exec (.virtioQueueNotify slice qi) s = .next { v with frames := v.frames ++ [(slice, f)] }) ∧
    (9216 < f.length ∨ (∃ d, udpOf f = some d ∧ 49152 ≤ d.sport ∧ d.sport < 49216) → exec (.virtioQueueNotify slice qi) s = .next v)) ∧
  (∀ (s : State) slice q d, 0 < q.size → (s.paGet slice (q.desc + 16 * q.pos) 16).2 = d → (fieldAt d 14 2).testBit 7 = q.wrap → (fieldAt d 14 2).testBit 15 = !q.wrap →
    (fieldAt d 14 2).testBit 0 = false → s.chain slice q = some ([(fieldAt d 0 8, fieldAt d 8 4, (fieldAt d 14 2).testBit 1)], fieldAt d 12 2)) ∧
  (∀ s slice qi, (s.slice slice).inReset ∨ (s.slice slice).link = false ∨ qi % 2 = 0 ∨ (∀ q, s.vioQueue slice qi = some q → s.chain slice q = none) →
    exec (.virtioQueueNotify slice qi) s = .next s) ∧
  (∀ (s : State) slice, (∀ o ∈ (s.golrisOff slice).rops, o.2.slice ≠ slice) ∧ (s.golrisOff slice).mem = s.mem ∧
    ∀ peer, peer < 1024 → ((s.golrisOff slice).conn slice peer).queue = [] ∧ ((s.golrisOff slice).conn slice peer).sent = (s.conn slice peer).sent) ∧
  (∀ s slice f, (tget s.slices slice).isSome → (s.slice slice).inReset = false → 14 ≤ f.length → f.length ≤ 9216 →
    let paused := beAt f 12 2 = 0x8808 ∧ (beAt f 14 2 = 0x0001 ∨ beAt f 14 2 = 0x0101)
    (paused → ∃ t, exec (.ethernetFrameReceive slice f) s = .next t ∧ SliceBecomes s t slice { s.slice slice with pause := ((s.slice slice).pause + 1) % 2 ^ 16 }) ∧
    (¬paused → ∀ pid q, s.ownerPart slice = some (pid, q) →
      (udpOf f = none → beAt f 0 6 = (s.slice slice).mac ∨ (beAt f 0 1).testBit 0 →
        ∃ t, exec (.ethernetFrameReceive slice f) s = .next t ∧ SliceBecomes s t slice { s.slice slice with rxFrames := (s.slice slice).rxFrames ++ [f] }) ∧
      (∀ u, udpOf f = some u → u.dst = s.addrAt pid slice → u.dport = (s.slice slice).gport → u.good = false → exec (.ethernetFrameReceive slice f) s = .next s) ∧
      (∀ u p tag, udpOf f = some u → u.dst = s.addrAt pid slice → u.dport = (s.slice slice).gport → u.good → gpktOf u.data = some (p, tag) → p.typ ≠ 8 →
        exec (.ethernetFrameReceive slice f) s = exec (.golrisReceive slice u.src (u.ecn == 3) u.data) s))) ∧
  (∀ s c pid p k b l e, gives s c pid p → k < 1024 → (∀ a ∈ l, a.1 < 256 ∧ a.2 < 2 ^ 128) → peerOf b = some e →
    (∀ o, tget p.peers k = some o → o.st = 0) →
    ∃ t, exec (.peer c k b l) s = .next t ∧ t.resps = s.resps ++ [{ cmd := c, status := 0 }] ∧ t.mem = s.mem ∧
      tget t.parts pid = some { p with peers := tput p.peers k e, addrs := l.foldl (fun m a => cset 0 m a.1 a.2) p.addrs } ∧
      (∀ i ∈ p.slices, tget t.conns (i * 1024 + k) = none) ∧ ∀ r ∈ t.rcvs, ¬(r.2.pid = pid ∧ r.2.peer = k)) ∧
  (∀ s c pid p k b l, gives s c pid p → 1024 ≤ k ∨ peerOf b = none ∨ (∃ a ∈ l, 256 ≤ a.1 ∨ 2 ^ 128 ≤ a.2) ∨
    (∃ e o, peerOf b = some e ∧ tget p.peers k = some o ∧ o.st ≠ 0 ∧ o.key = e.key) → Replies (.peer c k b l) s c 1)

/-! ### Boot, partitions and resets (R367 to R388), host harts (R421 to R425) -/

namespace Sys2Proof.Claims

/-- A field of bytes, little-endian (R3). -/
def byteField (b : List Byte) (i n : Nat) : Nat := ofBytes ((b.drop i).take n)

/-- The format of an image's header and body (R370). -/
def wellFormedImage (h body : List Byte) : Prop :=
  byteField h 0 4 = 0x4C4F4453 ∧ 1 ≤ byteField h 4 1 ∧ byteField h 4 1 ≤ 5 ∧ byteField h 5 1 ≤ 3 ∧ byteField h 6 2 ≤ 64 ∧ 1 ≤ byteField h 8 4 ∧ byteField h 8 4 ≤ 67108864 ∧
  body.length = byteField h 8 4 ∧ ∀ b ∈ h.drop 112, b = 0

/-- Number of the fused security version's bits (R368). -/
def fusedSvn (s : State) (kind : Nat) : Nat := ((List.range 64).filter fun i => (s.fuses.svn.getD (kind - 1) 0).getLsbD i).length

/-- The checks of an image in their order (R370): `n` holds of the first that fails, and 5 that none does. -/
def imageOutcome (s : State) (h body : List Byte) (n : Nat) : Prop :=
  let key := s.fuses.pubkeys.getD (byteField h 5 1) 0
  (n = 0 ∧ ¬wellFormedImage h body) ∨
  (wellFormedImage h body ∧ ((n = 1 ∧ s.fuses.revoke.testBit (byteField h 5 1)) ∨
    (s.fuses.revoke.testBit (byteField h 5 1) = false ∧ ((n = 2 ∧ sm3Bytes body ≠ (h.drop 16).take 32) ∨
      (sm3Bytes body = (h.drop 16).take 32 ∧ ((n = 3 ∧ Config.sm2Ok key (h.take 48) ((h.drop 48).take 64) = false) ∨
        (Config.sm2Ok key (h.take 48) ((h.drop 48).take 64) ∧ ((n = 4 ∧ byteField h 6 2 < fusedSvn s (byteField h 4 1)) ∨
          (n = 5 ∧ fusedSvn s (byteField h 4 1) ≤ byteField h 6 2)))))))))

/-- Every slice that passed its self-test is out of reset, `k` counted as out (R369). -/
def allReady (s : State) (k : Nat) : Prop := ∀ e ∈ s.tested, e.2 → e.1 = k ∨ ∃ x, tget s.slices e.1 = some x ∧ x.inReset = false

/-- A current-limit alarm is up in a slice (R418). -/
def alarmed (now : Nat) (x : Slice) : Slice :=
  { x with alarms := (x.alarms + 1) % 256, alarm := true, alarmAt := now, winAlarm := true, passc := if x.passc = 1 then 2 else 4 }

/-- The partition that an event record of the management port names for a slice (R382). -/
def heldBy (s : State) (k : Nat) : Option Nat := if (s.fwOf k).asgn then some (s.fwOf k).pid else none

/-- A slice has been reset again as it left reset: its first sample is at 115 °C or above (R383, R419). -/
def tooHot (t : State) (k : Nat) : Prop := (t.slice k).inReset ∧ (t.fwOf k).hold ∧ ∃ e ∈ t.events, e.pid = none ∧ e.kind = .sliceReset ∧ e.slice = k

end Sys2Proof.Claims

/-- R367 to R372, R419, R428, R429: power-on, the package's input, self-test, firmware, the first sample, reports. -/
def Obligations.BootAndTrust : Prop :=
  (∀ s, exec .packagePowerOnReset s = .next { State.reset with part := s.part, fuses := s.fuses, free := s.free, agenda := s.agenda }) ∧
  (∀ s, (s.powered → exec .inputBrownout s = exec .packagePowerOnReset s) ∧ (s.powered = false → exec .inputBrownout s = .next s)) ∧
  (∀ s, exec .inputOvervoltage s = .next { State.reset with part := s.part, fuses := s.fuses, free := s.free, agenda := s.agenda, powered := false, bootStep := 0 }) ∧
  (∀ s dt more, s.powered = false → s.agenda = (dt, .ev .packagePowerOnReset) :: more →
    step s = .next { State.reset with part := s.part, fuses := s.fuses, free := s.free, agenda := more }) ∧
  (∀ s, s.powered → ∃ t, exec .inputUndervoltage s = .next t ∧ t = { s with slices := t.slices } ∧
    ∀ k x, tget s.slices k = some x → tget t.slices k = some (if x.inReset then x else alarmed s.now x)) ∧
  (∀ s k pass, s.bootStep = 1 → k ∈ s.part.slices → tget s.tested k = none → ∃ t, exec (.selfTestComplete k pass) s = .next t ∧
    t = { s with tested := t.tested, fw := t.fw, events := t.events, bootStep := t.bootStep, msix := t.msix } ∧ t.msix = s.msix ++ (if pass then [] else [1]) ∧ tget t.tested k = some pass ∧ (∀ j, j ≠ k → tget t.tested j = tget s.tested j) ∧
    tget t.fw k = some { s.fwOf k with excl := !pass } ∧ t.events = s.events ++ (if pass then [] else [{ pid := none, kind := .selfTestFail, part := heldBy s k, slice := k, arg := 0 }]) ∧
    ((∀ j ∈ s.part.slices, j = k ∨ (tget s.tested j).isSome) → t.bootStep = 2) ∧ ((∃ j ∈ s.part.slices, j ≠ k ∧ tget s.tested j = none) → t.bootStep = 1)) ∧
  (∀ s k pass, s.bootStep ≠ 1 ∨ k ∉ s.part.slices ∨ (tget s.tested k).isSome → exec (.selfTestComplete k pass) s = .next s) ∧
  (∀ s k, s.bootStep = 3 → tget s.tested k = some true → (∀ x, tget s.slices k = some x → x.inReset) → ∃ t a b, exec (.sliceFirmwareReady k) s = .next t ∧ 1 ≤ a ∧ a < 1024 ∧ 1 ≤ b ∧ b < 1024 ∧
    (max a b < 620 → t.mem = s.mem ∧
      tget t.slices k = some { inReset := false, temps := [a, b], hot := decide (580 ≤ max a b), rotNext := s.now + 500000, winEnd := s.now + 1000000, thermAt := s.now + 10000 } ∧
      (∀ c, c < 4 → t.core (k * 4 + c) = {}) ∧ (allReady s k → t.bootStep = 4) ∧ (¬allReady s k → t.bootStep = 3)) ∧
    (620 ≤ max a b → tooHot t k)) ∧
  (∀ s k, s.bootStep ≠ 3 ∨ tget s.tested k ≠ some true → exec (.sliceFirmwareReady k) s = .next s) ∧
  (∀ s c, c.src = none → 2 ≤ s.bootStep → ∃ t r m, exec (.devinfo c) s = .next t ∧ t = replied s r ∧ r.cmd = c ∧ r.status = 0 ∧
    r.data = [s.fuses.rdev.toNat, s.fuses.idpub.toNat, s.part.code, m, fusedSvn s 1, fusedSvn s 2, fusedSvn s 3, fusedSvn s 4, fusedSvn s 5] ∧
    ∀ k, k < 16 → (m.testBit k = true ↔ ∃ e ∈ s.tested, e.1 = k ∧ e.2)) ∧
  (∀ s c i, i = .devinfo c ∨ (∃ b, i = .fwLoad c b) ∨ i = .fwDone c → (c.src ≠ none → Replies i s c 1) ∧
    (c.src = none → s.bootStep = 1 ∨ (i ≠ .devinfo c ∧ s.bootStep ≠ 2) → (i = .devinfo c → s.bootStep < 2) → Replies i s c 3)) ∧
  (∀ s c b, c.src = none → s.bootStep = 2 → exec (.fwLoad c b) s = .next (replied { s with fwSet := s.fwSet ++ b } { cmd := c, status := 0 })) ∧
  (∀ s c h body n, c.src = none → s.bootStep = 2 → s.fwSet = h ++ body → h.length = 128 → body.length = byteField h 8 4 → imageOutcome s h body n →
    (n < 5 → exec (.fwDone c) s = .next (replied { s with fwSet := [] } { cmd := c, status := 4, data := [Config.rejectCode n] })) ∧
    (n = 5 → ∃ t, exec (.fwDone c) s = .next t ∧ t = replied { s with fwSet := [], images := t.images, bootStep := t.bootStep } { cmd := c, status := 0 } ∧
      tget t.images (byteField h 4 1) = some (h ++ body) ∧ (∀ k, k ≠ byteField h 4 1 → tget t.images k = tget s.images k) ∧
      ((∃ k, 1 ≤ k ∧ k ≤ 5 ∧ k ≠ byteField h 4 1 ∧ tget s.images k = none) → t.bootStep = 2) ∧
      ((∀ k, 1 ≤ k → k ≤ 5 → k = byteField h 4 1 ∨ (tget s.images k).isSome) → 3 ≤ t.bootStep))) ∧
  (∀ s c nonce scope i, (i = .attest c nonce ∧ c.src = none ∧ 4 ≤ s.bootStep ∧ scope = 0xFF) ∨ (i = .pattest c nonce ∧ ∃ p, gives s c scope p ∧ scope < 256) →
    (nonce.length ≠ 32 → Replies i s c 1) ∧
    (nonce.length = 32 → ∃ t r, exec i s = .next t ∧ t = replied s r ∧ r.cmd = c ∧ r.status = 0 ∧ r.bytes.take 32 = nonce ∧
      byteField r.bytes 32 8 = s.fuses.rdev.toNat ∧ byteField r.bytes 40 1 = (match s.part with
        | .ts16 => 1
        | .ts4 => 2) ∧ byteField r.bytes 41 1 = scope ∧ byteField r.bytes 44 4 = 0 ∧ (∀ k, 1 ≤ k → k ≤ 5 → byteField r.bytes 48 8 / 2 ^ (7 * (k - 1)) % 2 ^ 7 = fusedSvn s k) ∧
      ((∀ k, 1 ≤ k → k ≤ 5 → ∃ b, tget s.images k = some b ∧ 48 ≤ b.length) →
        ∀ k b, 1 ≤ k → k ≤ 5 → tget s.images k = some b → (r.bytes.drop (56 + 32 * (k - 1))).take 32 = (b.drop 16).take 32))) ∧
  (∀ s c kind, c.src = none → 4 ≤ s.bootStep → 1 ≤ kind → kind ≤ 5 → s.fuses.svn.length = 5 →
    let v := byteField ((tget s.images kind).getD []) 6 2
    ∃ t, exec (.svnBurn c kind) s = .next t ∧ t = replied { s with fuses := { s.fuses with svn := t.fuses.svn } } { cmd := c, status := 0 } ∧
      (∀ i, i < 64 → (t.fuses.svn.getD (kind - 1) 0).getLsbD i = ((s.fuses.svn.getD (kind - 1) 0).getLsbD i || decide (i < v))) ∧
      ∀ k, k ≠ kind - 1 → t.fuses.svn.getD k 0 = s.fuses.svn.getD k 0)

namespace Sys2Proof.Claims

/-- A command of the management port in step 4 or 5 (R369, R379). -/
def fromPort (s : State) (c : Cmd) : Prop := c.src = none ∧ 4 ≤ s.bootStep

/-- No partition is being formed, resized or destroyed (R379). -/
def calm (s : State) : Prop := ∀ e ∈ s.parts, e.2.st = .booting ∨ e.2.st = .running

/-- A slice that a partition can take (R372, R373): of the part, of no partition, not excluded. -/
def canTake (s : State) (k : Nat) : Prop := k ∈ s.part.slices ∧ (s.fwOf k).asgn = false ∧ (s.fwOf k).excl = false

/-- The slices of a rectangle of columns and rows. -/
def inRect (c0 r0 c1 r1 k : Nat) : Prop := k < 16 ∧ c0 ≤ k % 8 ∧ k % 8 ≤ c1 ∧ r0 ≤ k / 8 ∧ k / 8 ≤ r1

/-- A map that a command may supply for slices (R375). -/
def goodMap (l m : List Nat) : Prop :=
  m.length = 256 ∧ (∀ e ∈ m, e.testBit 7 → e % 16 ∈ l ∧ e < 256) ∧ ∀ k ∈ l, ∃ e ∈ m, e.testBit 7 ∧ e % 16 = k

/-- INT_ROUTE of the slices of a list (R376): the base of the region is free. -/
def routed (t : State) (l : List Nat) (pid : Nat) : Prop := ∃ base, ∀ k ∈ l, tget t.routes k = some { ifbase := base, nharts := 8 * l.length, pid := pid }

/-- A slice that is free after its reset (R374, R375): zeroed, held, without keys, map and route. -/
def freed (t : State) (k : Nat) : Prop :=
  (t.fwOf k).asgn = false ∧ (t.fwOf k).hold ∧ (t.fwOf k).pid = 0 ∧ (∀ l, l / 2 ^ 29 = k → zeroLine t l) ∧ tget t.routes k = some {} ∧
  (t.slice k).keys = [] ∧ (t.slice k).heads = [] ∧ (t.slice k).map = List.replicate 256 0 ∧ ((t.slice k).inReset = false ∨ tooHot t k) ∧ ∀ b ∈ t.blocks, b.2.slice ≠ k

end Sys2Proof.Claims

/-- R373 to R381 with R378's rings: the commands that create and destroy partitions and those on registers, areas and queues, with their codes. That a 45th pinned
queue has STATUS 3 is the model's choice (notes/assumptions/94.md). -/
def Obligations.PartitionCommands : Prop :=
  (∀ s c i, (∃ n, i = .attest c n) ∨ (∃ k, i = .svnBurn c k) ∨ (∃ p a b d e m u, i = .partCreate c p a b d e m u) ∨ (∃ p, i = .partDestroy c p) ∨
    (∃ p k a d g m, i = .resize c p k a d g m) ∨ (∃ k, i = .sliceReset c k) → (c.src ≠ none → Replies i s c 1) ∧ (c.src = none → s.bootStep < 4 → Replies i s c 3)) ∧
  (∀ s c pid c0 r0 c1 r1 map uri l, fromPort s c → calm s → tget s.parts pid = none → pid < 16 → c0 ≤ c1 → r0 ≤ r1 → c1 ≤ 7 → r1 ≤ 1 → l.Pairwise (· < ·) → (∀ k, k ∈ l ↔ inRect c0 r0 c1 r1 k) →
    (∀ k ∈ l, canTake s k ∧ (tget s.slices k).isSome) → (∀ m, map = some m → goodMap l m) → ∃ t p, exec (.partCreate c pid c0 r0 c1 r1 map uri) s = .next t ∧ t.mem = s.mem ∧ t.resps = s.resps ∧
      tget t.parts pid = some p ∧ p.st = .forming ∧ p.slices = l ∧ p.uri = uri ∧ p.cmd = c ∧ p.resize = none ∧ p.vds = [] ∧ p.peers = [] ∧
      (∀ m, map = some m → p.map = m) ∧ (map = none → p.map.length = 256 ∧ ∀ e, e < 256 → p.map.getD e 0 = 128 + l.getD (e % l.length) 0) ∧
      (∀ k ∈ l, t.fwOf k = { s.fwOf k with asgn := true, hold := true, pid := pid } ∧ t.slice k = { s.slice k with map := p.map, keys := [], heads := [] }) ∧
      routed t l pid ∧ ∀ k, k ∉ l → t.fwOf k = s.fwOf k ∧ t.slice k = s.slice k) ∧
  (∀ s c pid c0 r0 c1 r1 map uri, fromPort s c →
    let i : Instr := .partCreate c pid c0 r0 c1 r1 map uri
    (¬calm s → Replies i s c 2) ∧
    (calm s → (tget s.parts pid).isSome → Replies i s c 3) ∧
    (calm s → tget s.parts pid = none → (∃ k, inRect c0 r0 c1 r1 k ∧ (s.fwOf k).excl) → Replies i s c 5) ∧
    (calm s → tget s.parts pid = none → (∀ k, inRect c0 r0 c1 r1 k → (s.fwOf k).excl = false) → c1 < c0 ∨ r1 < r0 ∨ 7 < c1 ∨ 1 < r1 → Replies i s c 6)) ∧
  (∀ s pid p, tget s.parts pid = some p → p.st = .forming → p.slices ≠ [] → (∀ k ∈ p.slices, (s.slice k).inReset = false) → stackWf s → p.resize = none → ∃ t h, exec (.partitionZeroingComplete pid) s = .next t ∧
    (∀ k l, k ∈ p.slices → l / 2 ^ 29 = k → zeroLine t l) ∧ (∀ l, l / 2 ^ 29 ∉ p.slices → sameLine s t l) ∧ (∀ k ∈ p.slices, t.fwOf k = { s.fwOf k with hold := false }) ∧
    tget t.parts pid = some { p with st := .booting } ∧ tget t.harts (p.slices.headD 0 * 8) = some h ∧ h.run ∧ h.mode = .m ∧ t.resps = s.resps ++ [{ cmd := p.cmd, status := 0 }]) ∧
  (∀ s c pid p, fromPort s c → calm s → tget s.parts pid = some p → p.st = .running → (∀ l ∈ s.launches, l.2.pid ≠ pid) → ∃ t, exec (.partDestroy c pid) s = .next t ∧ t.mem = s.mem ∧ t.resps = s.resps ∧
    tget t.parts pid = some { p with st := .destroying, cmd := c, quiet := true } ∧ ∀ h ∈ t.harts, h.1 / 8 ∉ p.slices) ∧
  (∀ s c pid, fromPort s c → (¬calm s → Replies (.partDestroy c pid) s c 2) ∧ (calm s → (∀ p, tget s.parts pid = some p → p.st ≠ .running) → pid < 16 → Replies (.partDestroy c pid) s c 3)) ∧
  (∀ s pid p, (s.parts.map Prod.fst).Nodup → tget s.parts pid = some p → p.st = .destroying → (∀ b ∈ s.blocks, b.2.pid ≠ pid) → (∀ b ∈ s.blocks, b.2.slice ∉ p.slices) → s.reqs = [] → s.reports = [] → s.launches = [] → s.jobs = [] →
    (∀ k ∈ p.slices, (s.slice k).inReset = false ∧ (tget s.slices k).isSome) → stackWf s → p.slices.Nodup → ∃ t, exec (.partitionDestroyComplete pid) s = .next t ∧
      tget t.parts pid = none ∧ (∀ k ∈ p.slices, freed t k) ∧ t.resps = s.resps ++ [{ cmd := p.cmd, status := 0 }] ∧ (∀ q ∈ t.queues, q.2.pid ≠ pid) ∧ ∀ l, l / 2 ^ 29 ∉ p.slices → sameLine s t l) ∧
  (∀ s pid p, tget s.parts pid = some p → p.st ≠ .destroying ∨ (∃ b ∈ s.blocks, b.2.pid = pid) → exec (.partitionDestroyComplete pid) s = .next s) ∧
  (∀ s c pid p, tget s.parts pid = some p → fromPort s c ∧ pid < 16 ∨ gives s c pid p → ∃ t r, exec (.partStatus c pid) s = .next t ∧ t = replied s r ∧ r.cmd = c ∧ r.status = 0 ∧
    ∃ m, r.data = [p.st.code, (p.resize.map Resize.step).getD 0, m] ++ p.map ++ p.slices.flatMap (fun k => [(s.fwOf k).word, (s.sreg k 0x88).getD 0]) ∧ ∀ k, k < 16 → (m.testBit k = true ↔ k ∈ p.slices)) ∧
  (∀ s c pid p j, gives s c pid p → j ≠ pid → Replies (.partStatus c j) s c 1) ∧
  (∀ s c k off, (fromPort s c ∧ k ∈ s.part.slices) ∨ (∃ pid p, gives s c pid p ∧ k ∈ p.slices) →
    (∀ v, s.sreg k off = some v → exec (.sregRd c k off) s = .next (replied s { cmd := c, status := 0, data := [v] })) ∧
    (∀ v, (s.sreg k off).isSome → ∃ t, exec (.sregWr c k off v) s = .next t ∧ t.resps = s.resps ++ [{ cmd := c, status := 0 }] ∧ t.mem = (s.setSreg k off (v % 2 ^ 64)).mem) ∧
    (s.sreg k off = none → Replies (.sregRd c k off) s c 1 ∧ ∀ v, Replies (.sregWr c k off v) s c 1)) ∧
  (∀ s c k off v, (fromPort s c ∧ k ∉ s.part.slices) ∨ (∃ pid p, gives s c pid p ∧ k ∉ p.slices) → Replies (.sregRd c k off) s c 1 ∧ Replies (.sregWr c k off v) s c 1) ∧
  (∀ s c k off v, (fromPort s c ∧ k ∈ s.part.slices) ∨ (∃ pid p, gives s c pid p ∧ k ∈ p.slices) → off ∈ [0x18, 0x30, 0x58, 0x68, 0x80, 0x88, 0xC0, 0xC8, 0xD0, 0xD8] → Replies (.sregWr c k off v) s c 0) ∧
  (∀ s c k, (fromPort s c ∧ k ∈ s.part.slices) ∨ (∃ pid p, gives s c pid p ∧ k ∈ p.slices) → (tget s.slices k).isSome →
    let set (off v w : Nat) : Prop := ∃ t, exec (.sregWr c k off v) s = .next t ∧ t.mem = s.mem ∧ t.sreg k off = some w
    (∀ v, v < 2 ^ 64 → v % 2 ^ 20 = 0 → set 0x08 v v ∧ set 0x10 v v) ∧ (∀ v, v < 2 ^ 64 → canonical v → set 0x50 v v) ∧ (∀ v, v < 2 ^ 64 → set 0x70 v (v % 2 ^ 32)) ∧
    (∀ v, v < 2 ^ 64 → set 0x28 v (v / 2 ^ 40 * 2 ^ 40 + v % 2 ^ 32) ∧ set 0x20 v (v / 2 ^ 36 * 2 ^ 36 + v / 2 % 4 * 2 + if (s.slice k).link then 1 else 0)) ∧
    (∀ v, v.testBit 1 = false → ∃ t, exec (.sregWr c k 0x20 v) s = .next t ∧ (t.slice k).gen = false ∧ ∀ o ∈ t.rops, o.2.slice ≠ k) ∧
    ∀ v j, v < 2 ^ 64 → j < 1024 → cwf 0 (s.slice k).gft → set (0x1000 + 8 * j) v (v / 2 ^ 31 % 2 * 2 ^ 31 + v % 2 ^ 11)) ∧
  (∀ (s : State) k off, (s.sreg k off).isSome ↔ (off % 8 = 0 ∧ off ≤ 0x88) ∨ (off % 8 = 0 ∧ 0xC0 ≤ off ∧ off < 0xE0) ∨ (off % 8 = 0 ∧ 0x1000 ≤ off ∧ off < 0x3000)) ∧
  (∀ s c pid p vd base, gives s c pid p → (vd < 1024 → base % 4096 = 0 → base < 2 ^ 64 → PartSet (.ctrbase c vd base) s c pid { p with ctrBase := cset 0 p.ctrBase vd base }) ∧
    (1024 ≤ vd ∨ base % 4096 ≠ 0 → Replies (.ctrbase c vd base) s c 1)) ∧
  (∀ s c pid p base, gives s c pid p → base < 2 ^ 64 → PartSet (.ownertab c base) s c pid { p with ownerTab := some base }) ∧
  (∀ s c pid p base n, gives s c pid p → base < 2 ^ 64 → n < 2 ^ 64 → PartSet (.spillarea c base n) s c pid { p with spillBase := base, spillSize := n }) ∧
  (∀ s c pid p base n, gives s c pid p →
    (base % 2 ^ 20 = 0 → n % 2 ^ 20 = 0 → p.slices.Nodup → (∀ k ∈ p.slices, (tget s.slices k).isSome) → ∃ t, exec (.savearea c base n) s = .next t ∧
      t = { s with slices := t.slices, resps := s.resps ++ [{ cmd := c, status := 0 }] } ∧ (∀ k, k ∉ p.slices → t.slice k = s.slice k) ∧
      ∀ (j k : Nat), p.slices[j]? = some k → t.slice k = { s.slice k with saveBase := (base + j * n) % 2 ^ 64, saveSize := n % 2 ^ 64 }) ∧
    (base % 2 ^ 20 ≠ 0 ∨ n % 2 ^ 20 ≠ 0 → Replies (.savearea c base n) s c 1)) ∧
  (∀ s c pid p q vd hdr (a : QAttr), gives s c pid p →
    let k : Queue := { pid := pid, vd := vd, hdr := hdr, pin := a.pin, lcok := a.lcok, npok := a.npok, maint := a.maint, dev := a.dev, weight := a.weight }
    (∀ u h, q < 65536 → vd < 1024 → hdr % 64 = 0 → 1 ≤ a.weight → a.weight ≤ 255 → s.readHdr (s.leader pid) k = (u, .ok (some h)) → h.head = h.done → h.head ≤ h.tail → h.tail - h.head ≤ 2 ^ h.lg →
      (a.pin = false ∨ (s.queues.filter fun e => e.2.pid == pid && e.1 != queueKey pid q && e.2.pin).length < 44) → tget s.queues (queueKey pid q) = none → u.queues = s.queues → (∀ j ∈ u.sliceList pid, (tget u.slices j).isSome) → ∃ t, exec (.qreg c q vd hdr a) s = .next t ∧ t.mem = u.mem ∧
        t.resps = u.resps ++ [{ cmd := c, status := 0 }] ∧ tget t.queues (queueKey pid q) = some { k with done := h.done } ∧
        ∀ j ∈ u.sliceList pid, tget (t.slice j).heads (queueKey pid q) = some { n := h.head }) ∧
    (65536 ≤ q ∨ 1024 ≤ vd ∨ hdr % 64 ≠ 0 ∨ a.weight = 0 ∨ 255 < a.weight → Replies (.qreg c q vd hdr a) s c 1) ∧
    (q < 65536 → vd < 1024 → hdr % 64 = 0 → 1 ≤ a.weight → a.weight ≤ 255 → a.pin → 44 ≤ (s.queues.filter fun e => e.2.pid == pid && e.1 != queueKey pid q && e.2.pin).length →
      Replies (.qreg c q vd hdr a) s c 3)) ∧
  (∀ c bytes nonce kind pid c0 r0 c1 r1 map uri slice add drain gused off v q vd hdr a base n k e l,
    [opc (.devinfo c), opc (.fwLoad c bytes), opc (.fwDone c), opc (.attest c nonce), opc (.svnBurn c kind), opc (.partCreate c pid c0 r0 c1 r1 map uri), opc (.partDestroy c pid),
      opc (.resize c pid slice add drain gused map), opc (.sliceReset c slice), opc (.partStatus c pid), opc (.sregRd c slice off), opc (.sregWr c slice off v),
      opc (.qreg c q vd hdr a), opc (.ctrbase c vd base), opc (.savearea c base n), opc (.ownertab c base), opc (.spillarea c base n), opc (.peer c k e l),
      opc (.pattest c nonce), opc (.hartsDown c slice)] =
    ([0x01, 0x02, 0x03, 0x04, 0x05, 0x10, 0x11, 0x12, 0x13, 0x14, 0x15, 0x16, 0x20, 0x21, 0x22, 0x23, 0x24, 0x25, 0x26, 0x27] : List Nat).map some) ∧
  (∀ (s : State) src code tag, (∀ p, src = some p → (tget s.parts p).isSome) →
    let listed := code ∈ [0x01, 0x02, 0x03, 0x04, 0x05, 0x10, 0x11, 0x12, 0x13, 0x14, 0x15, 0x16] ∨ (0x20 ≤ code ∧ code ≤ 0x27) ∨ (0x30 ≤ code ∧ code ≤ 0x37)
    (¬listed → s.recordIn src code tag = replied s { cmd := { src := src, tag := tag }, status := 1 }) ∧ (listed → s.recordIn src code tag = s)) ∧
  (∀ (s : State) n r, (s.resps.filter fun r => r.cmd.src.isNone)[n]? = some r → s.respTail = (s.resps.filter fun r => r.cmd.src.isNone).length ∧ (s.respTail ≤ n + 64 → s.respAt (n % 64) = some r)) ∧
  (∀ (s : State) n e, (s.events.filter fun e => e.pid.isNone)[n]? = some e → s.eventTail = (s.events.filter fun e => e.pid.isNone).length ∧ (s.eventTail ≤ n + 64 → s.eventAt (n % 64) = some e))

namespace Sys2Proof.Claims

/-- The granule's place under a map (R319). -/
def homePlace (map : List Nat) (g : Nat) : Option (Nat × Nat) := homeOf map (g * 2 ^ 21)

/-- A resize that runs at a step, of whose staying slices none is in reset (R388). -/
def atStep (s : State) (pid : Nat) (p : Part) (r : Resize) (n : Nat) : Prop :=
  tget s.parts pid = some p ∧ p.resize = some r ∧ r.step = n ∧ ∀ k ∈ p.slices, (s.slice k).inReset = false

/-- The step is over and the next begins, with nothing else changed but what `m` says. -/
def stepsUp (i : Instr) (s : State) (pid : Nat) (p : Part) (r : Resize) (m : State → Prop) : Prop :=
  ∃ t, exec i s = .next t ∧ m t ∧ tget t.parts pid = some { p with resize := some { r with step := r.step + 1, since := s.now } }

/-- The slice list after a change. -/
def listAfter (p : Part) (r : Resize) (k : Nat) : Prop := k < 16 ∧ ((k = r.slice ∧ r.add) ∨ (k ≠ r.slice ∧ k ∈ p.slices))

end Sys2Proof.Claims

/-- R382 to R388: resizing, and the reset and rejoining of a slice. That the queue heads of a reset slice keep their positions is the model's reading
(notes/assumptions/95.md). -/
def Obligations.ResizesAndResets : Prop :=
  (∀ s c pid slice add drain gused map, fromPort s c → s.resizeStatus pid slice add drain gused map ≠ 0 →
    Replies (.resize c pid slice add drain gused map) s c (s.resizeStatus pid slice add drain gused map)) ∧
  (∀ s pid slice add drain gused map p, tget s.parts pid = some p →
    (¬calm s ∨ (∃ j ∈ s.jobs, j.1 / 4 = pid) → s.resizeStatus pid slice add drain gused map = 2) ∧
    (calm s → (∀ j ∈ s.jobs, j.1 / 4 ≠ pid) → p.st ≠ .running → s.resizeStatus pid slice add drain gused map = 3) ∧
    (calm s → (∀ j ∈ s.jobs, j.1 / 4 ≠ pid) → p.st = .running → add → (s.fwOf slice).excl → s.resizeStatus pid slice add drain gused map = 5) ∧
    (calm s → (∀ j ∈ s.jobs, j.1 / 4 ≠ pid) → p.st = .running → add = false → p.slices = [slice] → slice < 16 → s.resizeStatus pid slice add drain gused map = 6)) ∧
  (∀ s c pid slice add drain gused map p, fromPort s c → s.resizeStatus pid slice add drain gused map = 0 → tget s.parts pid = some p →
    let ready := add = true ∨ slice ∈ p.down
    ∃ t r, exec (.resize c pid slice add drain gused map) s = .next t ∧ t = { s with parts := t.parts, events := t.events, msiLost := t.msiLost } ∧ (∃ e, t.events = s.events ++ [e] ∧ e.pid = some pid ∧ e.kind = .resizeNotice ∧ e.slice = slice) ∧
      tget t.parts pid = some { p with st := .resizing, resize := some r, quiet := decide ready } ∧ (r.add, r.slice, r.drain, r.gused, r.cmd, r.since) = (add, slice, drain, gused, c, s.now) ∧
      (∀ m, map = some m → r.map = m) ∧ (ready → r.step = 1) ∧ (¬ready → r.step = 0)) ∧
  (∀ s c pid p r slice, gives s c pid p → slice ∈ p.slices → p.resize = some r → r.slice = slice → r.step = 0 → ∃ t d, exec (.hartsDown c slice) s = .next t ∧ t.resps = s.resps ++ [{ cmd := c, status := 0 }] ∧
    tget t.parts pid = some { p with down := d, quiet := true, resize := some { r with step := 1 } } ∧ slice ∈ d ∧ ∀ h ∈ t.harts, h.1 / 8 ≠ slice) ∧
  (∀ s c pid p slice, gives s c pid p → slice ∉ p.slices → Replies (.hartsDown c slice) s c 1) ∧
  (∀ s pid p r, tget s.parts pid = some p → p.resize = some r → r.step = 0 →
    (r.since + 100000000 ≤ s.now → ∃ t d, exec (.hartsDownTimeout pid) s = .next t ∧ tget t.parts pid = some { p with down := d, quiet := true, resize := some { r with step := 1 } } ∧ r.slice ∈ d ∧ ∀ h ∈ t.harts, h.1 / 8 ≠ r.slice) ∧
    (s.now < r.since + 100000000 → exec (.hartsDownTimeout pid) s = .next s)) ∧
  (∀ s pid p r, atStep s pid p r 1 → (∀ e ∈ s.queues, e.2.pid ≠ pid) → s.launches = [] → stepsUp (.resizeStepComplete pid) s pid p r fun t =>
    t.mem = s.mem ∧ (r.add = false → (tget s.slices r.slice).isSome → t.slice r.slice = { s.slice r.slice with drain := true })) ∧
  (∀ s pid p r, tget s.parts pid = some p → p.resize = some r → r.add = false → r.step = 2 → r.since + r.drain * 1000 ≤ s.now → (s.blocks.map Prod.fst).Nodup →
    let due (k : Nat) (b : Block) : Prop := tget s.blocks k = some b ∧ b.slice = r.slice ∧ b.res = .resident ∧ s.tileMoving r.slice b.core = false ∧ ∀ o ∈ s.rops, o.2.b ≠ k
    let starts (t : State) (k : Nat) (b : Block) : Prop := due k b ∧ tget t.blocks k = some { b with res := .stopping, swap := true }
    ((∃ k b, due k b) → ∃ t, exec (.drainExpiry pid) s = .next t ∧ t = { s with blocks := t.blocks } ∧ (∀ k b, tget s.blocks k = some b → starts t k b ∨ tget t.blocks k = some b) ∧
      (∀ k b j c, starts t k b → starts t j c → b.core / 2 = c.core / 2 → k = j) ∧ ∀ k b, due k b → ∃ j c, starts t j c ∧ c.core / 2 = b.core / 2) ∧
    ((∀ k b, ¬due k b) → exec (.drainExpiry pid) s = .next s)) ∧
  (∀ s pid p r, atStep s pid p r 2 → r.add = false → (∃ e ∈ s.blocks, e.2.slice = r.slice ∧ (e.2.res = .resident ∨ ∃ q ∈ s.reqs, q.2.b = e.1)) ∨ (∃ o ∈ s.rops, o.2.slice = r.slice ∧ (o.2.kind = .flag ∨ o.2.kind = .note)) →
    exec (.resizeStepComplete pid) s = .next s) ∧
  (∀ s pid p r, atStep s pid p r 2 → (∀ e ∈ s.rops, e.2.slice ≠ r.slice) →
    (∀ e ∈ s.blocks, e.2.slice = r.slice → e.2.res = .swapped ∧ (∀ q ∈ s.reqs, q.2.b ≠ e.1) ∧ ∀ o ∈ s.rops, o.2.b ≠ e.1) → ∃ t r', exec (.resizeStepComplete pid) s = .next t ∧ t.mem = s.mem ∧ t.blocks = s.blocks ∧
    tget t.parts pid = some { p with resize := some r' } ∧ r'.step = 3 ∧ (r'.add, r'.slice, r'.gused, r'.map, r'.cmd, r'.staged) = (r.add, r.slice, r.gused, r.map, r.cmd, r.staged) ∧
    ∀ g, g ∈ r'.moves ↔ g < r.gused ∧ (homePlace p.map g).isSome ∧ (homePlace r.map g).isSome ∧ homePlace p.map g ≠ homePlace r.map g) ∧
  (∀ (r : Resize) (old : List Nat) g st, r.pick old = some (g, st) →
    let free (h : Nat) : Prop := ∀ m ∈ r.moves, m ≠ h → homePlace old m ≠ homePlace r.map h
    let due (h : Nat) : Prop := h ∈ r.moves ∨ r.staged = some h
    (st = false → due g ∧ free g ∧ ∀ h, due h → free h → h ≤ g) ∧ (st = true → g ∈ r.moves ∧ (∀ h, due h → ¬free h) ∧ ∀ h ∈ r.moves, h ≤ g)) ∧
  (∀ s pid p r g a d, atStep s pid p r 3 → r.copying = some (g, false) → r.staged = none → r.lost = false → homePlace p.map g = some a → homePlace r.map g = some d → cell a.1 a.2 ≠ cell d.1 d.2 → s.errs = [] → stackWf s →
    ∃ t r', exec (.granuleMigrationComplete pid) s = .next t ∧ tget t.parts pid = some { p with resize := some r' } ∧ r'.staged = none ∧ (∀ h, h ∈ r'.moves ↔ h ∈ r.moves ∧ h ≠ g) ∧
      (∀ i, i < 2 ^ 21 → cget 0 t.mem (cell d.1 d.2 + i) = cget 0 s.mem (cell a.1 a.2 + i)) ∧ (∀ i, i < 16384 → cget false t.poison (cell d.1 d.2 / 128 + i) = cget false s.poison (cell a.1 a.2 / 128 + i)) ∧
      ∀ l, ¬(cell d.1 d.2 / 128 ≤ l ∧ l < cell d.1 d.2 / 128 + 16384) → sameLine s t l) ∧
  (∀ s pid p r, atStep s pid p r 3 → r.moves = [] → r.staged = none → r.copying = none → stepsUp (.resizeStepComplete pid) s pid p r fun t => t.mem = s.mem ∧ t.slices = s.slices) ∧
  (∀ s pid p r, atStep s pid p r 4 → ∃ t l, exec (.resizeStepComplete pid) s = .next t ∧ t.mem = s.mem ∧ tget t.parts pid = some { p with slices := l, map := r.map, resize := some { r with step := 5, since := s.now } } ∧
    l.Pairwise (· < ·) ∧ (∀ k, k ∈ l ↔ listAfter p r k) ∧ ∀ k x, tget s.slices k = some x → tget t.slices k = some (if k ∈ l ∨ k = r.slice then { x with map := r.map } else x)) ∧
  (∀ s pid p r e g d, atStep s pid p r 4 → e ∈ s.ordq → e.pid = pid → g < p.slices.length * 21456 → homePlace p.map g = some (e.home, e.sla / 2 ^ 21 * 2 ^ 21) →
    (∀ h, h < g → homePlace p.map h ≠ some (e.home, e.sla / 2 ^ 21 * 2 ^ 21)) → homePlace r.map g = some d → ∃ t, exec (.resizeStepComplete pid) s = .next t ∧
      { e with home := d.1, sla := d.2 + e.sla % 2 ^ 21 } ∈ t.ordq ∧ t.ordq.length = s.ordq.length ∧
      ∀ k l, tget s.launches k = some l → l.pid = pid → l.lid = e.launch → ∃ l', tget t.launches k = some l' ∧ d.1 ∉ l'.acks ∧ ∀ j ∈ l'.acks, j ∈ l.acks) ∧
  (∀ s pid p r, atStep s pid p r 5 → (∀ e ∈ s.reports, e.2.pid ≠ pid) → (∀ e ∈ s.rcvs, e.2.pid ≠ pid) → ∃ t : State, exec (.resizeStepComplete pid) s = .next (t.runHeld pid) ∧
    tget t.parts pid = some { p with resize := some { r with step := 6, since := s.now } } ∧
    t.mem = s.mem ∧ (∀ e ∈ t.migrating, e.1 ≠ pid) ∧ (∀ k, k / 4 ∈ p.slices → (t.core k).tlb = []) ∧ ∀ k ∈ p.slices, (t.slice k).fcache = [] ∧ (t.slice k).wcache = []) ∧
  (∀ s pid p r, atStep s pid p r 6 → (s.parts.map Prod.fst).Nodup → r.add → r.slice ∈ p.slices → p.slices.Nodup → s.launches = [] → (tget s.slices r.slice).isSome → ∃ t, exec (.resizeStepComplete pid) s = .next t ∧ t.mem = s.mem ∧
    tget t.parts pid = some { p with st := .running, resize := none, quiet := false } ∧ t.fwOf r.slice = { s.fwOf r.slice with asgn := true, hold := false, pid := pid } ∧
    routed t p.slices pid ∧ t.resps = s.resps ++ [{ cmd := r.cmd, status := 0 }] ∧ ∀ j, p.slices.find? (· != r.slice) = some j → (t.slice r.slice).keys = (s.slice j).keys) ∧
  (∀ s pid p r, atStep s pid p r 6 → (s.parts.map Prod.fst).Nodup → r.add = false → r.slice ∉ p.slices → s.launches = [] → s.blocks = [] → s.cancels = [] → s.reqs = [] → s.reports = [] → s.jobs = [] → stackWf s → (tget s.slices r.slice).isSome →
    (∀ m ∈ s.msgs, m.2.src ≠ r.slice ∧ m.2.dst ≠ r.slice) → ∃ t, exec (.resizeStepComplete pid) s = .next t ∧ freed t r.slice ∧ (∀ l, l / 2 ^ 29 ≠ r.slice → sameLine s t l) ∧ routed t p.slices pid ∧ t.resps = s.resps ++ [{ cmd := r.cmd, status := 0 }] ∧
      ∃ q, tget t.parts pid = some q ∧ (q.st, q.resize, q.quiet, q.slices, q.map) = (.running, none, false, p.slices, p.map)) ∧
  (∀ s pid p r, atStep s pid p r 6 → r.add = false → (∃ m ∈ s.msgs, m.2.src = r.slice ∨ m.2.dst = r.slice) ∨ (∃ q ∈ s.reqs, q.2.home = r.slice ∧ q.2.st = .atHome) → exec (.resizeStepComplete pid) s = .next s) ∧
  (∀ (s : State) slice list id b l, s.blocks = [(id, b)] → b.slice = slice → s.poison = [] → s.rops = [] → tget s.launches b.lk = some l →
    s.carry slice list = { s with blocks := [(id, { b with slice := ownerOf list (fieldAt l.pkt 12 4) b.idx, res := .swapped, swap := true, carried := true })] }) ∧
  (∀ (s : State) slice vd, (∀ k, k < 4 → ∀ e ∈ ((s.arriveOn slice vd).core (slice * 4 + k)).l1, e.vd ≠ vd ∧ e.vd ≠ 0) ∧ (s.arriveOn slice vd).mem = s.mem ∧
    ∀ e ∈ ((s.arriveOn slice vd).slice slice).scache, e.near.isSome → e.vd ≠ vd ∧ e.vd ≠ 0) ∧
  (∀ s c k, fromPort s c → k ∈ s.part.slices → (s.fwOf k).excl = false → exec (.sliceReset c k) s = .next ((s.resetEvent k).reply c 0)) ∧
  (∀ s k x, 4 ≤ s.bootStep → tget s.slices k = some x → x.inReset = false → exec (.mgmtCoreTimeout k) s = .next (s.resetEvent k)) ∧
  (∀ s k, s.bootStep < 4 ∨ (∀ x, tget s.slices k = some x → x.inReset) → exec (.mgmtCoreTimeout k) s = .next s) ∧
  (∀ (s : State) k, (∀ p, s.ownerPart k = some p → p.2.resize = none) → s.reqs = [] → s.reports = [] → s.jobs = [] → s.sprog = [] → (s.blocks.map Prod.fst).Nodup → (s.launches.map Prod.fst).Nodup →
    let t := s.resetEvent k
    t.mem = s.mem ∧ t.fwOf k = { s.fwOf k with hold := true } ∧ (∀ b ∈ t.blocks, b.2.slice ≠ k) ∧ (∀ j b, tget s.blocks j = some b → b.slice ≠ k → tget t.blocks j = some b) ∧
    (t.slice k).inReset ∧ (t.slice k).map = (s.slice k).map ∧ (∀ n, (t.slice k).keySt n = if (s.slice k).keySt n = .empty then .empty else .zeroed) ∧
    (∀ n h, tget (s.slice k).heads n = some h → tget (t.slice k).heads n = some { n := h.n }) ∧ (∀ h ∈ t.harts, h.1 / 8 ≠ k) ∧ (∀ e ∈ t.rops, e.2.slice = k → (tget t.blocks e.2.b).isSome) ∧
    (∀ j b l, s.blocks = [(j, b)] → b.slice = k → tget s.launches b.lk = some l → ∃ l', tget t.launches b.lk = some l' ∧ l'.nfail = l.nfail + 1 ∧ l'.first = min l.first b.idx ∧ l'.fcode = if b.idx < l.first then 2 ^ 9 else l.fcode) ∧
    (∃ e ∈ t.events, e.pid = none ∧ e.kind = .sliceReset ∧ e.slice = k ∧ e.part = heldBy s k) ∧ t.msix = s.msix ++ [1] ∧ ∀ pid p, s.ownerPart k = some (pid, p) → ∃ e ∈ t.events, e.pid = some pid ∧ e.kind = .sliceReset ∧ e.slice = k) ∧
  (∀ (s : State) k j, j < 4 → s.blocks = [] → s.reqs = [] → s.reports = [] →
    let x := s.settleScrubs.prog k j
    (s.resetEvent k).prog k j = if x.active then { x with writing := false, heldProg := x.prog } else x) ∧
  (∀ s k pid p x, 4 ≤ s.bootStep → tget s.slices k = some x → x.inReset → (∀ j, j < 4 → (s.prog k j).active = false) → s.ownerPart k = some (pid, p) → p.st = .running → p.resize = none → s.reports = [] →
    (∀ e ∈ s.rcvs, e.2.pid ≠ pid) → stackWf s → s.jobs = [] → ∃ t, exec (.sliceRejoin k) s = .next t ∧ (x.zeroed = false → ∀ l, l / 2 ^ 29 = k → zeroLine t l) ∧ (∀ l, l / 2 ^ 29 ≠ k → sameLine s t l) ∧
      (tooHot t k ∨ (t.fwOf k = { s.fwOf k with hold := false } ∧ (t.slice k).inReset = false ∧ (t.slice k).map = p.map ∧
        ∀ j, p.slices.find? (fun j => j != k && !(s.slice j).inReset) = some j → (t.slice k).keys = (s.slice j).keys))) ∧
  (∀ s k pid p x, 4 ≤ s.bootStep → tget s.slices k = some x → x.inReset → (∀ j, j < 4 → (s.prog k j).active = false) → s.ownerPart k = some (pid, p) → p.st = .running → p.resize = none → s.reports = [] →
    (∀ e ∈ s.rcvs, e.2.pid ≠ pid) → (∀ j ∈ p.slices, j = k ∨ (s.slice j).inReset) → ∃ t, exec (.sliceRejoin k) s = .next t ∧ (tooHot t k ∨ (t.slice k).keys = x.keys)) ∧
  (∀ s k, s.bootStep < 4 ∨ (∃ j, j < 4 ∧ (s.prog k j).active) → exec (.sliceRejoin k) s = .next s)

namespace Sys2Proof.Claims

/-- A hart that runs, and its access (R381, R421, R422). -/
def hartRuns (s : State) (a : HartAcc) (pid : Nat) (p : Part) : Prop :=
  s.ownerPart a.slice = some (pid, p) ∧ a.hart < 8 ∧ (s.hart a).run ∧ (s.slice a.slice).inReset = false ∧ (p.st = .booting ∨ p.st = .running ∨ p.st = .resizing) ∧ a.slice ∉ p.down

/-- The hart's registers that its access leaves, and all else is as in `u`. -/
def HartGets (a : HartAcc) (s u : State) (k : Hart → Prop) : Prop :=
  ∃ t h, exec (.hostHartAccess a) s = .next t ∧ t = { u with harts := t.harts } ∧ tget t.harts (a.slice * 8 + a.hart) = some h ∧ h.run ∧ k h ∧
    ∀ j, j ≠ a.slice * 8 + a.hart → tget t.harts j = tget u.harts j

/-- A CSR as a hart holds it. -/
def csrOf (h : Hart) (n : Nat) : Nat := cget 0 h.csr n

/-- A mode of a guest. -/
abbrev guestMode (m : HMode) : Prop := m = .vs ∨ m = .vu

/-- The privilege of a mode. -/
def prvOf (m : HMode) : Nat := if m = .m then 3 else if m = .s ∨ m = .vs then 1 else 0

/-- Two CSR values that agree but at some bits. -/
def bitsKept (a b : Nat) (l : List Nat) : Prop := ∀ i, i < 64 → i ∉ l → b.testBit i = a.testBit i

/-- A hart `o` has taken a trap and is `h` (R423): in M-mode, in S-mode where it is delegated, in VS-mode where it is delegated again. The status
registers keep the mode and the interrupt enable that it comes from. -/
def TrapTaken (o h : Hart) (intr : Bool) (code tval gpa : Nat) : Prop :=
  let v := guestMode o.mode
  let toS := o.mode ≠ .m ∧ (csrOf o (if intr then 0x303 else 0x302)).testBit code
  let toVs := toS ∧ v ∧ (csrOf o (if intr then 0x603 else 0x602)).testBit code
  let gva := intr = false ∧ v ∧ code ∈ [0, 1, 4, 5, 6, 7, 12, 13, 15, 20, 21, 23]
  let goes (tvec epc cause tv n : Nat) : Prop := h.pc = csrOf o tvec / 4 * 4 + (if intr = true ∧ csrOf o tvec % 4 = 1 then 4 * n else 0) ∧
    csrOf h epc = o.pc % 2 ^ 64 ∧ csrOf h cause = n + (if intr then 2 ^ 63 else 0) ∧ csrOf h tv = tval % 2 ^ 64
  let kept (l : List Nat) : Prop := ∀ n, n ∉ l → csrOf h n = csrOf o n
  let saved (r : Nat) : Prop := ((csrOf h r).testBit 8 ↔ prvOf o.mode = 1) ∧ (csrOf h r).testBit 5 = (csrOf o r).testBit 1 ∧ (csrOf h r).testBit 1 = false ∧
    bitsKept (csrOf o r) (csrOf h r) [1, 5, 8]
  h = { o with mode := h.mode, pc := h.pc, csr := h.csr, cause := some code, tval := tval } ∧
  (toVs → h.mode = .vs ∧ goes 0x205 0x241 0x242 0x243 (if intr then code - 1 else code) ∧ saved 0x200 ∧ kept [0x200, 0x241, 0x242, 0x243]) ∧
  (toS → ¬toVs → h.mode = .s ∧ goes 0x105 0x141 0x142 0x143 code ∧ csrOf h 0x643 = gpa / 4 % 2 ^ 64 ∧ saved 0x300 ∧ ((csrOf h 0x600).testBit 7 ↔ v) ∧
    ((csrOf h 0x600).testBit 6 ↔ gva) ∧ (v → ((csrOf h 0x600).testBit 8 ↔ prvOf o.mode = 1)) ∧ (¬v → (csrOf h 0x600).testBit 8 = (csrOf o 0x600).testBit 8) ∧
    bitsKept (csrOf o 0x600) (csrOf h 0x600) [6, 7, 8] ∧ kept [0x300, 0x600, 0x141, 0x142, 0x143, 0x643]) ∧
  (¬toS → h.mode = .m ∧ goes 0x305 0x341 0x342 0x343 code ∧ csrOf h 0x34B = gpa / 4 % 2 ^ 64 ∧ csrOf h 0x300 / 2 ^ 11 % 4 = prvOf o.mode ∧
    (csrOf h 0x300).testBit 7 = (csrOf o 0x300).testBit 3 ∧ (csrOf h 0x300).testBit 3 = false ∧ ((csrOf h 0x300).testBit 39 ↔ v) ∧ ((csrOf h 0x300).testBit 38 ↔ gva) ∧
    bitsKept (csrOf o 0x300) (csrOf h 0x300) [3, 7, 11, 12, 38, 39] ∧ kept [0x300, 0x341, 0x342, 0x343, 0x34B])

/-- An access ends in a trap of the hart that `u` holds. -/
def HartTraps (a : HartAcc) (s u : State) (code tval gpa : Nat) : Prop :=
  cwf 0 (u.hart a).csr → HartGets a s u fun h => TrapTaken (u.hart a) h false code tval gpa

/-- The operations that access memory. -/
def onMemory (o : HartOp) : Prop := o = .fetch ∨ o = .load ∨ o = .store ∨ o = .lr ∨ o = .sc ∨ o = .hlv ∨ o = .hlvx ∨ o = .hsv ∨ ∃ f, o = .amo f

/-- Those that only read. -/
abbrev onlyReads (o : HartOp) : Prop := o = .fetch ∨ o = .load ∨ o = .lr ∨ o = .hlv ∨ o = .hlvx

/-- The atomic ones. -/
def isAtomic (o : HartOp) : Prop := (∃ f, o = .amo f) ∨ o = .lr ∨ o = .sc

/-- The instructions that access a guest's memory from above. -/
def isHyper (o : HartOp) : Prop := o = .hlv ∨ o = .hlvx ∨ o = .hsv

/-- The instruction may be executed in the hart's mode: HLV and HSV in S-mode and above, or in U-mode where hstatus.HU says so; no atomic is of a byte or a
halfword (R421). -/
def mayAccess (s : State) (a : HartAcc) : Prop :=
  (isHyper a.op → (s.hart a).mode = .m ∨ (s.hart a).mode = .s ∨ ((s.hart a).mode = .u ∧ (csrOf (s.hart a) 0x600).testBit 9)) ∧ (isAtomic a.op → 4 ≤ a.size)

/-- An exception cause by the kind of access: a fetch, a read, or a write. -/
def hartCode (o : HartOp) (f l w : Nat) : Nat := match o with
  | .fetch => f
  | .load => l
  | .lr => l
  | .hlv => l
  | .hlvx => l
  | _ => w

/-- Where a fetch that succeeds leaves the pc. -/
def pcAfter (s : State) (a : HartAcc) : Nat := if a.op = .fetch then a.va else (s.hart a).pc

/-- The access of CSR n is allowed in a mode. -/
def csrOpen (m : HMode) (n : Nat) (write : Bool) : Prop :=
  n < 4096 ∧ (write = true → n / 1024 ≠ 3) ∧ (m = .m ∨ (m = .s ∧ n / 256 % 4 ≠ 3) ∨ (m = .vs ∧ n / 256 % 4 ≤ 1) ∨ n / 256 % 4 = 0)

/-- The CSRs whose value is not what was last written to them. -/
def csrSpecial : List Nat := [0x100, 0x104, 0x144, 0x151, 0x15C, 0x180, 0x204, 0x244, 0x251, 0x25C, 0x280, 0x344, 0x351, 0x35C, 0x604, 0x644, 0x680, 0xC01, 0xE12]

/-- A leaf permits an access in a mode with its status bits: U as the mode needs it, the permissions, A and D (R421). -/
def leafAllows (e : Pte) (p : Priv) (a : Acc) : Prop :=
  (p.user → e.u) ∧ (p.user = false → e.u → p.sum ∧ a.x = false) ∧ (a.r → e.r ∨ (p.mxr ∧ e.x)) ∧ (a.w → e.w ∧ e.d) ∧ (a.x → e.x) ∧ e.a

/-- An identity is signalled by an interrupt file: it is the least that is pending and enabled, and below the threshold where there is one (R421). -/
def fileSignals (h : Hart) (f i : Nat) : Prop :=
  let on (k : Nat) : Prop := k < 2048 ∧ (cget 0 h.eip f).testBit k ∧ (cget 0 h.eie f).testBit k
  cget 0 h.edel f = 1 ∧ i ≠ 0 ∧ on i ∧ (∀ k, on k → i ≤ k) ∧ (cget 0 h.ethr f = 0 ∨ i < cget 0 h.ethr f)

end Sys2Proof.Claims

/-- R12, R16, R142, R340, R376, R381, R401, R421 to R425: what a host hart does: its registers and CSRs, `time` among them; its slice's VIRTIO and
interrupt-controller registers, a VD's counter page and a queue's notify page; LR and SC; an access of memory, in pieces where it is not aligned, at the
place that its translation gives, which its home performs whole; its TLB and its fences; traps, returns and interrupts; the files of its IMSIC. The
layouts and numbers of the VIRTIO registers, the interrupt controller, the CSRs, the table entries and the causes but those of R423 are taken from
the standards that the spec names (notes/assumptions/62.md, 13.md and 65.md); that a reservation ends when its line's bytes change, that a fence of
translations takes all entries of its VMID, and the order of the interrupt files are the model's choice (65.md). -/
def Obligations.HostHartAccesses : Prop :=
  (∀ s a pid p, hartRuns s a pid p → a.op = .fence → HartGets a s s fun h => h.cause = none) ∧
  (∀ s a pid p, hartRuns s a pid p → isAtomic a.op → a.size ∈ [4, 8] → a.va < 2 ^ 64 → a.va % a.size ≠ 0 → HartTraps a s s (if a.op = .lr then 4 else 6) a.va 0) ∧
  (∀ s a pid p, hartRuns s a pid p → isAtomic a.op → a.size ∈ [1, 2] → a.va < 2 ^ 64 → HartTraps a s s 2 0 0) ∧
  (∀ s a pid p, hartRuns s a pid p → isHyper a.op → a.size ∈ [1, 2, 4, 8] → a.va < 2 ^ 64 → ¬mayAccess s a → HartTraps a s s (if guestMode (s.hart a).mode then 22 else 2) 0 0) ∧
  (∀ s a pid p, hartRuns s a pid p → a.op = .sc → a.size ∈ [4, 8] → a.va < 2 ^ 64 → a.va % a.size = 0 → s.reserved pid a = false →
    HartGets a s s fun h => h.val = 1 ∧ h.resv = none ∧ h.cause = none) ∧
  (∀ s a pid p u x, hartRuns s a pid p → onMemory a.op → mayAccess s a → (a.op = .sc → s.reserved pid a) → a.size ∈ [1, 2, 4, 8] → a.va < 2 ^ 64 → a.va % a.size = 0 → s.hartReach pid a a.va = (u, .ok x) →
    x.file = none → (u.hart a).run →
    let v := u.touch x.home pid x.vd x.tag x.gran x.sla { op := match a.op with
      | .store => 1
      | .hsv => 1
      | .sc => 1
      | .amo _ => 2
      | _ => 0 }
    let new := toBytes a.size (a.data % 2 ^ (8 * a.size))
    (∀ w b, onlyReads a.op → a.op ≠ .lr → v.homeRead x.home x.sla a.size x.key = (w, some b) → HartGets a s w fun h => h.val = ofBytes b ∧ h.cause = none ∧ h.resv = (w.hart a).resv ∧ h.pc = if a.op = .fetch then a.va else (w.hart a).pc) ∧
    (∀ w b, a.op = .lr → v.homeRead x.home x.sla a.size x.key = (w, some b) → HartGets a s w fun h => h.val = ofBytes b ∧ h.cause = none ∧ h.resv = w.hartLine pid a) ∧
    (∀ w b z, a.op = .sc → v.homeRead x.home x.sla a.size x.key = (w, some b) → w.homeWrite x.home x.sla x.key new = (z, true) →
      HartGets a s (z.door pid x.pa new) fun h => h.val = 0 ∧ h.resv = none ∧ h.cause = none) ∧
    (∀ w b z, a.op = .store ∨ a.op = .hsv → v.homeRead x.home x.sla a.size x.key = (w, some b) → w.homeWrite x.home x.sla x.key new = (z, true) →
      HartGets a s (z.door pid x.pa new) fun h => h.cause = none ∧ h.resv = (w.hart a).resv) ∧
    (∀ w b z o, a.op = .amo o → v.homeRead x.home x.sla a.size x.key = (w, some b) →
      let c := toBytes a.size (atomNew o (ofBytes b) (a.data % 2 ^ (8 * a.size))).1
      w.homeWrite x.home x.sla x.key c = (z, true) → HartGets a s (z.door pid x.pa c) fun h => h.val = ofBytes b ∧ h.cause = none) ∧
    (∀ w, v.homeRead x.home x.sla a.size x.key = (w, none) → HartTraps a s w (hartCode a.op 1 5 7) a.va 0)) ∧
  (∀ s a pid p u x h f, hartRuns s a pid p → onMemory a.op → mayAccess s a → a.op ≠ .sc → a.op ≠ .lr → a.size ∈ [1, 2, 4, 8] → a.va < 2 ^ 64 → a.va % a.size = 0 → s.hartReach pid a a.va = (u, .ok x) → x.file = some (h, f) → (u.hart a).run →
    (¬(a.size = 4 ∧ x.pa % 4096 = 0 ∧ ¬onlyReads a.op) → HartGets a s u fun h => h.val = 0 ∧ h.cause = none) ∧
    (a.size = 4 → x.pa % 4096 = 0 → ¬onlyReads a.op → HartGets a s (u.pendFile pid h f (a.data % 2 ^ 32)) fun h => h.cause = none)) ∧
  (∀ s a pid p u, hartRuns s a pid p → onMemory a.op → mayAccess s a → ¬isAtomic a.op → a.size ∈ [2, 4, 8] → a.va < 2 ^ 64 → a.va % a.size ≠ 0 →
    let l := (List.range a.size).map fun i => (a.va + i, 1)
    (∀ v, s.hartGo pid a l 0 = (u, .ok v) → (u.hart a).run → HartGets a s u fun h => h.val = v ∧ h.cause = none ∧ h.pc = if a.op = .fetch then a.va else (u.hart a).pc) ∧
    (∀ va, s.hartGo pid a l 0 = (u, .error (.access, va)) → (u.hart a).run → HartTraps a s u (hartCode a.op 1 5 7) va 0) ∧
    (∀ va, s.hartGo pid a l 0 = (u, .error (.page, va)) → (u.hart a).run → HartTraps a s u (hartCode a.op 12 13 15) va 0)) ∧
  (∀ (s u : State) pid a va n l i x w b, s.hartReach pid a va = (u, .ok x) → x.file = none →
    (u.touch x.home pid x.vd x.tag x.gran x.sla { op := if onlyReads a.op then 0 else 1 }).homeRead x.home x.sla n x.key = (w, some b) →
    (∀ z r, onlyReads a.op → w.hartGo pid a l (i + n) = (z, .ok r) → s.hartGo pid a ((va, n) :: l) i = (z, .ok (ofBytes b + r * 2 ^ (8 * n)))) ∧
    (∀ y z r, a.op = .store → w.homeWrite x.home x.sla x.key (toBytes n (a.data / 2 ^ (8 * i) % 2 ^ (8 * n))) = (y, true) →
      (y.door pid x.pa (toBytes n (a.data / 2 ^ (8 * i) % 2 ^ (8 * n)))).hartGo pid a l (i + n) = (z, r) → (s.hartGo pid a ((va, n) :: l) i).1 = z)) ∧
  (∀ (s u : State) pid a va n l i f, s.hartReach pid a va = (u, .error f) → s.hartGo pid a ((va, n) :: l) i = (u, .error (f, va))) ∧
  (∀ s a pid p u f, hartRuns s a pid p → onMemory a.op → mayAccess s a → a.op ≠ .sc → a.size ∈ [1, 2, 4, 8] → a.va < 2 ^ 64 → a.va % a.size = 0 → s.hartReach pid a a.va = (u, .error f) → (u.hart a).run →
    (f = .access → HartTraps a s u (hartCode a.op 1 5 7) a.va 0) ∧
    (f = .page → HartTraps a s u (hartCode a.op 12 13 15) a.va 0) ∧
    (∀ g, f = .guest g → HartTraps a s u (hartCode a.op 20 21 23) a.va g) ∧ (f = .wait → exec (.hostHartAccess a) s = .next s)) ∧
  (∀ (h : Hart) o,
    let p := csrOf h 0x300 / 2 ^ 11 % 4
    let other := o ≠ .fetch ∧ h.mode = .m ∧ (csrOf h 0x300).testBit 17
    (isHyper o → guestMode (h.accMode o) ∧ (prvOf (h.accMode o) = 1 ↔ (csrOf h 0x600).testBit 8)) ∧
    (¬isHyper o → ¬other → h.accMode o = h.mode) ∧
    (¬isHyper o → other → prvOf (h.accMode o) = (if p = 3 then 3 else if p = 1 then 1 else 0) ∧ (guestMode (h.accMode o) ↔ p ≠ 3 ∧ (csrOf h 0x300).testBit 39))) ∧
  (∀ (s : State) (pid : Nat) (a : HartAcc) va, (s.hart a).tlb = [] →
    let h := s.hart a
    let m := h.accMode a.op
    (m = .m → s.hartWalk pid a va = (s, .ok (va, .phys))) ∧
    (m = .s ∨ m = .u → csrOf h 0x180 < 2 ^ 60 → s.hartWalk pid a va = (s, .ok (va, .phys))) ∧
    (∀ u w k, m = .s ∨ m = .u → csrOf h 0x180 / 2 ^ 60 = 8 → va < 2 ^ 38 → k = ((((tget s.parts pid).bind fun p => tget p.vds 0).getD {}).keySlot 0) →
      s.readPa8 a.slice (s.slice a.slice).map (csrOf h 0x180 % 2 ^ 44 * 4096 + 8 * (va / 2 ^ 30)) k = (u, .ok w) →
      let e := pteOf w
      let pv : Priv := { user := decide (m = .u), sum := (csrOf h 0x300).testBit 18, mxr := (csrOf h 0x300).testBit 19 }
      (e.bad ∨ e.malformed 2 → s.hartWalk pid a va = (u, .error .page)) ∧
      (e.bad = false → e.malformed 2 = false → e.leaf → leafAllows e pv (hartNeeds a.op) →
        s.hartWalk pid a va = (u.setHart a fun o => { o with tlb := [{ mode := m, asid := csrOf h 0x180 / 2 ^ 44 % 2 ^ 16, vmid := 0, page := va / 4096, acc := hartNeeds a.op, pa := (e.ppn * 4096 + va % 2 ^ 30) / 4096, vd := 0 }] },
          .ok (e.ppn * 4096 + va % 2 ^ 30, .vd 0))) ∧
      (e.bad = false → e.malformed 2 = false → e.leaf → ¬leafAllows e pv (hartNeeds a.op) → s.hartWalk pid a va = (u, .error .page))) ∧
    (∀ u pa gpa, guestMode m → csrOf h 0x280 < 2 ^ 60 → csrOf h 0x680 / 2 ^ 60 ≠ 0 → s.hartStage2 a.slice (csrOf h 0x680) (h.priv m) va (hartNeeds a.op) = (u, .ok (pa, gpa)) →
      (s.hartWalk pid a va).2 = .ok (pa, .vd (csrOf h 0x680 / 2 ^ 44 % 1024)))) ∧
  (∀ (s : State) pid a va e, (s.hart a).tlb = [e] → e.mode = (s.hart a).accMode a.op → e.asid = (s.hart a).atp e.mode / 2 ^ 44 % 2 ^ 16 → e.vmid = (s.hart a).vmid e.mode → e.page = va / 4096 →
    (∀ r : Acc, r = hartNeeds a.op → (r.r → e.acc.r) ∧ (r.w → e.acc.w) ∧ (r.x → e.acc.x)) →
    ∃ u, u = { s with free := u.free } ∧ (s.hartWalk pid a va = (u, .ok (e.pa * 4096 + va % 4096, .vd e.vd)) ∨
      (s.hartWalk pid a va).2 = (u.hartWalkFor pid a.slice (s.hart a) e.mode (hartNeeds a.op) va).2)) ∧
  (∀ s a pid p, hartRuns s a pid p →
    let o := s.hart a
    let same (h : Hart) : Prop := h = { o with tlb := h.tlb, cause := none }
    (a.op = .sfence → o.mode = .m ∨ o.mode = .s ∨ o.mode = .vs → HartGets a s s fun h => same h ∧ ∀ e, e ∈ h.tlb ↔ e ∈ o.tlb ∧ ((guestMode e.mode ↔ ¬guestMode o.mode) ∨ e.vmid ≠ o.vmid o.mode)) ∧
    (a.op = .sfence → o.mode = .u → HartTraps a s s 2 0 0) ∧ (a.op = .sfence → o.mode = .vu → HartTraps a s s 22 0 0) ∧
    (a.op = .hfence → o.mode = .m ∨ o.mode = .s → HartGets a s s fun h => same h ∧ ∀ e, e ∈ h.tlb ↔ e ∈ o.tlb ∧ ¬guestMode e.mode) ∧
    (a.op = .hfence → o.mode = .u → HartTraps a s s 2 0 0) ∧ (a.op = .hfence → guestMode o.mode → HartTraps a s s 22 0 0)) ∧
  (∀ s a pid p n, hartRuns s a pid p → cwf 0 (s.hart a).x → cwf 0 (s.hart a).f → cwf 0 (s.hart a).v →
    let o := s.hart a
    (a.op = .setX n → HartGets a s s fun h => ∀ k, k < 32 → cget 0 h.x k = if k = n % 32 ∧ k ≠ 0 then a.data % 2 ^ 64 else cget 0 o.x k) ∧
    (a.op = .setF n → HartGets a s s fun h => ∀ k, k < 32 → cget 0 h.f k = if k = n % 32 then a.data % 2 ^ 64 else cget 0 o.f k) ∧
    (a.op = .setV n → HartGets a s s fun h => ∀ k, k < 32 → cget 0 h.v k = if k = n % 32 then a.data % 2 ^ 256 else cget 0 o.v k)) ∧
  (∀ s a pid p n, hartRuns s a pid p → cwf 0 (s.hart a).csr → cwf 0 (s.hart a).eip → cwf 0 (s.hart a).eie →
    let o := s.hart a
    let opens (w : Bool) : Prop := csrOpen o.mode n w
    let plain := n ∉ csrSpecial ∧ (o.mode = .vs → n / 1024 = 0 → n / 256 % 4 ≠ 1)
    let kept (h : Hart) (k : Nat) : Prop := ∀ j, j ≠ k → csrOf h j = csrOf o j
    (a.op = .csrRead n → ¬opens false → HartTraps a s s (if guestMode o.mode ∧ n < 4096 ∧ n / 256 % 4 ≠ 3 then 22 else 2) 0 0) ∧
    (a.op = .csrWrite n → ¬opens true → HartTraps a s s (if guestMode o.mode ∧ n < 4096 ∧ n / 1024 ≠ 3 ∧ n / 256 % 4 ≠ 3 then 22 else 2) 0 0) ∧
    (a.op = .csrRead n → opens false → plain → HartGets a s s fun h => h.val = csrOf o n ∧ h.csr = o.csr) ∧
    (a.op = .csrWrite n → opens true → plain → HartGets a s s fun h => h.val = csrOf o n ∧ csrOf h n = a.data % 2 ^ 64 ∧ kept h n) ∧
    (a.op = .csrRead n → opens false → n = 0xC01 → HartGets a s s fun h => h.val = (s.now + if guestMode o.mode then csrOf o 0x605 else 0) % 2 ^ 64) ∧
    (a.op = .csrRead n → opens false → o.mode = .vs → n ∉ csrSpecial → n / 1024 = 0 → n / 256 % 4 = 1 → n + 0x100 ∉ csrSpecial → HartGets a s s fun h => h.val = csrOf o (n + 0x100)) ∧
    (a.op = .csrWrite n → opens true → o.mode = .vs → n ∉ csrSpecial → n / 1024 = 0 → n / 256 % 4 = 1 → n + 0x100 ∉ csrSpecial →
      HartGets a s s fun h => csrOf h (n + 0x100) = a.data % 2 ^ 64 ∧ kept h (n + 0x100)) ∧
    (a.op = .csrWrite n → opens true → (n = 0x180 ∧ o.mode ≠ .vs) ∨ n = 0x280 ∨ (n = 0x180 ∧ o.mode = .vs) → HartGets a s s fun h =>
      let k := if n = 0x180 ∧ o.mode = .vs then 0x280 else n
      csrOf h k = (if a.data % 2 ^ 64 / 2 ^ 60 ∈ [0, 8, 9, 10] then a.data % 2 ^ 64 else csrOf o k) ∧ kept h k) ∧
    (a.op = .csrWrite n → opens true → n = 0x680 → HartGets a s s fun h => kept h n ∧ (a.data % 2 ^ 64 / 2 ^ 60 ∉ [0, 8, 9, 10] → h.csr = o.csr) ∧
      (a.data % 2 ^ 64 / 2 ^ 60 ∈ [0, 8, 9, 10] → csrOf h n / 2 ^ 60 = a.data % 2 ^ 64 / 2 ^ 60 ∧ csrOf h n / 2 ^ 44 % 2 ^ 16 = a.data / 2 ^ 44 % 2 ^ 10 ∧ csrOf h n % 2 ^ 44 = a.data % 2 ^ 44 / 4 * 4)) ∧
    (a.op = .csrRead n → opens false → n = 0x100 → o.mode ≠ .vs → HartGets a s s fun h => ∀ i, i < 64 →
      (h.val.testBit i = true ↔ (csrOf o 0x300).testBit i = true ∧ i ∈ [1, 5, 6, 8, 9, 10, 13, 14, 15, 16, 18, 19, 32, 33, 63])) ∧
    (a.op = .csrRead n → opens false → n = 0xE12 → HartGets a s s fun h => ∀ i, h.val.testBit i = true ↔ 1 ≤ i ∧ i ≤ 15 ∧ ∃ d, fileSignals o i d) ∧
    (a.op = .csrRead n → opens false → n = 0x144 ∨ n = 0x344 → o.mode ≠ .vs → HartGets a s s fun h =>
      (h.val.testBit 9 ↔ (n = 0x144 → (csrOf o 0x303).testBit 9) ∧ ((csrOf o 0x344).testBit 9 ∨ ∃ d, fileSignals o 0 d)) ∧
      (h.val.testBit 12 ↔ (n = 0x144 → (csrOf o 0x303).testBit 12) ∧ ((csrOf o 0x344).testBit 12 ∨ ∃ i d, 1 ≤ i ∧ i ≤ 15 ∧ (csrOf o 0x607).testBit i ∧ fileSignals o i d)) ∧
      (n = 0x344 → (h.val.testBit 11 ↔ ((csrOf o 0x344).testBit 11 ∨ ∃ d, fileSignals o 16 d)))) ∧
    (a.op = .csrRead n → opens false → n = 0x15C → o.mode = .s → HartGets a s s fun h => (∀ d, fileSignals o 0 d → h.val = d * 65537)) ∧
    (a.op = .csrWrite n → opens true → n = 0x15C → o.mode = .s → ∀ d, fileSignals o 0 d → HartGets a s s fun h => ∀ i, (cget 0 h.eip 0).testBit i = ((cget 0 o.eip 0).testBit i && i != d)) ∧
    (a.op = .csrWrite n → opens true → n = 0x151 → o.mode = .s → csrOf o 0x150 = 0xC0 → HartGets a s s fun h => ∀ i, i < 64 →
      (cget 0 h.eie 0).testBit i = (a.data.testBit i && i != 0))) ∧
  (∀ s a pid p, hartRuns s a pid p →
    let o := s.hart a
    (a.op = .ecall → HartTraps a s s (if prvOf o.mode = 0 then 8 else if o.mode = .s then 9 else if o.mode = .vs then 10 else 11) 0 0) ∧
    (a.op = .ebreak → HartTraps a s s 3 o.pc 0) ∧ (a.op = .illegal → HartTraps a s s 2 0 0) ∧
    (a.op = .mret → o.mode ≠ .m → HartTraps a s s 2 0 0) ∧ (a.op = .sret → o.mode = .u → HartTraps a s s 2 0 0) ∧ (a.op = .sret → o.mode = .vu → HartTraps a s s 22 0 0) ∧
    (cwf 0 o.csr → csrOf o 0x300 < 2 ^ 64 → csrOf o 0x200 < 2 ^ 64 → csrOf o 0x600 < 2 ^ 64 →
      let back (h : Hart) (r : Nat) (l : List Nat) : Prop := (csrOf h r).testBit 1 = (csrOf o r).testBit 5 ∧ (csrOf h r).testBit 5 ∧ (csrOf h r).testBit 8 = false ∧ bitsKept (csrOf o r) (csrOf h r) l
      (a.op = .mret → o.mode = .m →
        let p := csrOf o 0x300 / 2 ^ 11 % 4
        HartGets a s s fun h => h = { o with mode := h.mode, pc := csrOf o 0x341, csr := h.csr, cause := none } ∧ (p = 3 → h.mode = .m) ∧
          (p ≠ 3 → prvOf h.mode = (if p = 1 then 1 else 0) ∧ h.mode ≠ .m ∧ (guestMode h.mode ↔ (csrOf o 0x300).testBit 39) ∧ (csrOf h 0x300).testBit 17 = false) ∧
          (csrOf h 0x300).testBit 3 = (csrOf o 0x300).testBit 7 ∧ (csrOf h 0x300).testBit 7 ∧ csrOf h 0x300 / 2 ^ 11 % 4 = 0 ∧ (csrOf h 0x300).testBit 39 = false ∧
          bitsKept (csrOf o 0x300) (csrOf h 0x300) [3, 7, 11, 12, 17, 39] ∧ ∀ n, n ≠ 0x300 → csrOf h n = csrOf o n) ∧
      (a.op = .sret → o.mode = .m ∨ o.mode = .s → HartGets a s s fun h => h = { o with mode := h.mode, pc := csrOf o 0x141, csr := h.csr, cause := none } ∧ h.mode ≠ .m ∧
        (prvOf h.mode = 1 ↔ (csrOf o 0x300).testBit 8) ∧ (guestMode h.mode ↔ (csrOf o 0x600).testBit 7) ∧ back h 0x300 [1, 5, 8] ∧ (csrOf h 0x600).testBit 7 = false ∧
        bitsKept (csrOf o 0x600) (csrOf h 0x600) [7] ∧ ∀ n, n ≠ 0x300 → n ≠ 0x600 → csrOf h n = csrOf o n) ∧
      (a.op = .sret → o.mode = .vs → HartGets a s s fun h => h = { o with mode := h.mode, pc := csrOf o 0x241, csr := h.csr, cause := none } ∧ h.mode = (if (csrOf o 0x200).testBit 8 then .vs else .vu) ∧
        back h 0x200 [1, 5, 8] ∧ ∀ n, n ≠ 0x200 → csrOf h n = csrOf o n)) ∧
    (a.op = .take → o.nextIntr s.now = none → exec (.hostHartAccess a) s = .next s) ∧
    (∀ c, a.op = .take → o.nextIntr s.now = some c → cwf 0 o.csr → HartGets a s s fun h => TrapTaken o h true c 0 0)) ∧
  (∀ (h : Hart) now c, h.nextIntr now = some c → (h.mip now).testBit c ∧ (csrOf h 0x304).testBit c ∧
    ((csrOf h 0x303).testBit c = false → h.mode ≠ .m ∨ (csrOf h 0x300).testBit 3) ∧ ((csrOf h 0x303).testBit c → h.mode ≠ .m ∧
      ((csrOf h 0x603).testBit c = false → h.mode = .s → (csrOf h 0x300).testBit 1) ∧ ((csrOf h 0x603).testBit c → guestMode h.mode ∧ (h.mode = .vs → (csrOf h 0x200).testBit 1)))) ∧
  (∀ (h : Hart) now c, h.nextIntr now = none → c ∈ [1, 2, 3, 5, 6, 7, 9, 10, 11, 12] → (h.mip now).testBit c → (csrOf h 0x304).testBit c →
    ((csrOf h 0x303).testBit c = false → h.mode = .m ∧ (csrOf h 0x300).testBit 3 = false) ∧
    ((csrOf h 0x303).testBit c → (csrOf h 0x603).testBit c = false → h.mode = .m ∨ (h.mode = .s ∧ (csrOf h 0x300).testBit 1 = false))) ∧
  (∀ s a pid p n k h, hartRuns s a pid p → a.op = .start n → (s.hart a).mode = .m → p.slices[n / 8]? = some k → h = (tget s.harts (k * 8 + n % 8)).getD {} → h.run = false → (s.slice k).inReset = false →
    cwf 0 h.x → cwf 0 h.csr → ∃ t h', exec (.hostHartAccess a) s = .next t ∧ tget t.harts (k * 8 + n % 8) = some h' ∧ h'.run ∧ h'.mode = .s ∧ h'.pc = a.va ∧
      cget 0 h'.x 10 = n ∧ cget 0 h'.x 11 = a.data % 2 ^ 64 ∧ csrOf h' 0x180 = 0 ∧ (csrOf h' 0x300).testBit 1 = false ∧ t = { s with harts := t.harts }) ∧
  (∀ s a pid p, hartRuns s a pid p → a.op = .halt → (s.hart a).mode = .m → ∃ t, exec (.hostHartAccess a) s = .next t ∧ t = { s with harts := t.harts } ∧ (t.hart a).run = false ∧
    ∀ j, j ≠ a.slice * 8 + a.hart → tget t.harts j = tget s.harts j) ∧
  (∀ s a pid p, hartRuns s a pid p →
    (a.op = .vioRead → HartGets a s s fun h => h.val = (s.slice a.slice).vioReg a.va) ∧
    (a.op = .vioWrite → (tget s.slices a.slice).isSome → ∃ t, exec (.hostHartAccess a) s = .next t ∧ t = { s with harts := t.harts, slices := t.slices } ∧
      (∀ k, k ≠ a.slice → t.slice k = s.slice k) ∧ t.slice a.slice = { s.slice a.slice with vio := (s.slice a.slice).vio.write a.va (a.data % 2 ^ 32) }) ∧
    (a.op = .aplicRead → HartGets a s s fun h => h.val = (s.slice a.slice).aplic.read a.va) ∧
    (∀ n x, a.op = .aplicWrite → x = (s.slice a.slice).aplic → (tget s.slices a.slice).isSome → 1 ≤ n → n < 32 →
      let sets (y : Aplic → Prop) : Prop := ∃ t, exec (.hostHartAccess a) s = .next t ∧ t = { s with harts := t.harts, slices := t.slices } ∧ ∃ z, y z ∧ t.slice a.slice = { s.slice a.slice with aplic := z }
      (a.va = 4 * n → a.data % 2 ^ 32 % 8 ≠ 0 → x.ie = false → cwf 0 x.cfg → sets fun z => z = { x with cfg := z.cfg } ∧ ∀ k, cget 0 z.cfg k = if k = n then a.data % 8 else cget 0 x.cfg k) ∧
      (a.va = 0x3000 + 4 * n → x.ie = false → cwf 0 x.tgt → sets fun z => z = { x with tgt := z.tgt } ∧ ∀ k, cget 0 z.tgt k = if k = n then a.data % 2 ^ 32 else cget 0 x.tgt k) ∧
      (a.va = 0x1EDC → a.data % 2 ^ 32 % 32 = n → x.ie = false → sets fun z => z = { x with en := z.en } ∧ ∀ k, z.en.testBit k = (x.en.testBit k || (decide (k = n) && decide (cget 0 x.cfg n % 8 ≠ 0)))) ∧
      (a.va = 0 → a.data.testBit 8 → x.pend = 0 → sets fun z => z = { x with ie := true })) ∧
    (∀ q, a.op = .notify q → HartGets a s (s.notify (pid * 2 ^ 16 + q)) fun h => h.cause = none)) ∧
  (∀ s a pid p vd u, hartRuns s a pid p → ¬guestMode (s.hart a).mode ∨ csrOf (s.hart a) 0x680 / 2 ^ 44 % 1024 = vd → s.bound a.slice vd = some u → (u.hart a).run →
    (∀ v n, a.op = .ctrRead vd → a.va < 0x40 → a.va % 8 = 0 → a.size = 8 → u.pmcRead a.slice vd .full (a.va / 8) = (v, n) → (v.hart a).run → HartGets a s v fun h => h.val = n) ∧
    (∀ v n, a.op = .ctrRead vd → a.va < 0x40 → a.va % 8 = 0 → a.size = 4 → u.pmcRead a.slice vd .lo (a.va / 8) = (v, n) → (v.hart a).run → HartGets a s v fun h => h.val = n) ∧
    (∀ v n, a.op = .ctrRead vd → a.va < 0x40 → a.va % 8 = 4 → a.size = 4 → u.pmcRead a.slice vd .hi (a.va / 8) = (v, n) → (v.hart a).run → HartGets a s v fun h => h.val = n) ∧
    (∀ k c, a.op = .ctrRead vd → u.setOf a.slice vd = some (k, c) → c.sel.length = 8 →
      (∀ n, n < 8 → a.va = 0x40 + 4 * n → a.size = 4 → HartGets a s u fun h => h.val = c.sel.getD n 0) ∧ (a.va = 0x60 → a.size = 4 → HartGets a s u fun h => h.val = if c.frz then 1 else 0)) ∧
    (∀ v, a.op = .ctrWrite vd → a.size = (if a.va < 0x40 then 8 else 4) → s.pagePut a.slice vd a.va a.data = some v → (v.hart a).run → HartGets a s v fun h => h.cause = none)) ∧
  (∀ s a pid p vd, hartRuns s a pid p → guestMode (s.hart a).mode → csrOf (s.hart a) 0x680 / 2 ^ 44 % 1024 ≠ vd → a.op = .ctrRead vd ∨ a.op = .ctrWrite vd → exec (.hostHartAccess a) s = .next s) ∧
  (∀ x : Slice, [x.vioReg 0x000, x.vioReg 0x004, x.vioReg 0x008] = [0x74726976, 2, 1] ∧ x.vioReg 0x070 = x.vio.status ∧ (x.vio.write 0x070 0) = {}) ∧
  (∀ (s : State) (k : Nat) (h : Hart) (r : Nat × Nat × List Byte), tget s.harts k = some h → h.resv = some r → ∃ h', tget s.settleResv.harts k = some h' ∧
    (cgets 0 s.mem (cell r.1 r.2.1) 128 = r.2.2 → h'.resv = some r) ∧ (cgets 0 s.mem (cell r.1 r.2.1) 128 ≠ r.2.2 → h'.resv = none)) ∧
  (∀ (s : State) slice pid vd iid p rt k h,
    let e := cget 0 (s.slice slice).gft vd
    let n := e / 2 ^ 4 % 2 ^ 7
    tget s.routes slice = some rt → rt.pid = (s.fwOf slice).pid →
    (e.testBit 31 = false ∨ e % 16 = 0 ∨ rt.nharts ≤ n → s.msi slice pid vd iid = { s with msiLost := cset 0 s.msiLost pid (cget 0 s.msiLost pid + 1) }) ∧
    (e.testBit 31 → e % 16 ≠ 0 → n < rt.nharts → tget s.parts pid = some p → p.slices[n / 8]? = some k → tget s.harts (k * 8 + n % 8) = some h → 1 ≤ iid → iid < 2048 → cwf 0 h.eip →
      ∃ h', s.msi slice pid vd iid = { s with irqs := s.irqs ++ [(pid, rt.ifbase * 2 ^ 16 + 65536 * n + 4096 * (e % 16), iid)], harts := tput s.harts (k * 8 + n % 8) h' } ∧ h' = { h with eip := h'.eip } ∧
        ∀ f i, (cget 0 h'.eip f).testBit i = ((cget 0 h.eip f).testBit i || (decide (f = e % 16) && decide (i = iid))))) ∧
  (∀ (s : State) slice pid vd iid, ((tget s.routes slice).getD {}).pid ≠ (s.fwOf slice).pid → s.msi slice pid vd iid = s) ∧
  (∀ s a, s.ownerPart a.slice = none ∨ 8 ≤ a.hart ∨ (s.hart a).run = false → exec (.hostHartAccess a) s = .next s)

/-! ### The trace engine's events (R389 to R408) -/

namespace Sys2Proof.Claims

/-- The engine holds a VD's trace entry on a slice that is in a partition and not in reset (R390). -/
def traced (s : State) (slice vd : Nat) : Prop :=
  vd < 1024 ∧ (tget s.slices slice).isSome ∧ (s.slice slice).inReset = false ∧ (s.pidOf slice).isSome ∧ (tget (s.slice slice).trc vd).isSome

/-- A counter set bound to a VD on a slice, none of whose counters counts clocks (R401, R402). -/
def boundSet (s : State) (slice vd k : Nat) (c : CtrSet) : Prop :=
  traced s slice vd ∧ s.setOf slice vd = some (k, c) ∧ tget (s.slice slice).csets k = some c ∧ ∀ n, n < 8 → c.clocks n = false

/-- Only the counter set changes, and what the engine last returned to a hart. -/
def SetBecomes (s t : State) (slice k : Nat) (c : CtrSet) (out : Option Nat) : Prop :=
  SliceBecomes s t slice { s.slice slice with csets := tput (s.slice slice).csets k c, ctrOut := out.getD (s.slice slice).ctrOut }

/-- A counter is available: its event is implemented, and no restore has said otherwise (R402, R406). -/
abbrev available (c : CtrSet) (n : Nat) : Prop :=
  let ev := c.sel.getD n 0 % 2 ^ 16
  (ev ≤ 0xD ∨ (0x100 ≤ ev ∧ ev ≤ 0x116) ∨ ev = 0x200) ∧ c.off.testBit n = false

/-- A counter as it reads (R402, R406). -/
def reading (c : CtrSet) (n : Nat) : Nat := if available c n then c.ctr.getD n 0 else 2 ^ 64 - 1

/-- A bit of a small mask set or cleared. -/
def withBit (m n : Nat) (b : Bool) (m' : Nat) : Prop := ∀ i, m'.testBit i = if i = n then b else m.testBit i

/-- The group is in a quarter, not ended, in a block that holds its place. -/
def inQuarter (s : State) (q : Nat) (b : Block) (g : Group) : Prop :=
  (∃ e ∈ s.blocks, e.2 = b) ∧ b.res.held ∧ b.slice * 4 + b.core = q / 4 ∧ g ∈ b.groups ∧ g.quarter = q % 4 ∧ g.ended = false

/-- Two machines that differ at most in one quarter, which is `x` in the second. -/
def QuarterBecomes (s t : State) (q : Nat) (x : Quarter) : Prop := t = { s with quarters := t.quarters } ∧ tget t.quarters q = some x ∧ ∀ j, j ≠ q → tget t.quarters j = tget s.quarters j

/-- A sample ring with room, at a header that is usable (R327, R395). -/
def ringRoom (s u : State) (slice pid vd ring : Nat) (h : List Byte) : Prop :=
  s.vaRead slice pid vd ring 64 = (u, .ok h) ∧ 4 ≤ fieldAt h 0 4 ∧ fieldAt h 0 4 ≤ 16 ∧ (∀ x ∈ h.drop 24, x = 0) ∧
  u.translates slice pid vd ring (64 + 16 * 2 ^ fieldAt h 0 4) { r := true, w := true } ∧ fieldAt h 16 8 - fieldAt h 8 8 < 2 ^ fieldAt h 0 4

/-- The thousandths of arithmetic clocks that a slice has counted (R17). -/
def clocksOf (s : State) (k : Nat) : Nat := (s.slice k).clk + (s.now - (s.slice k).clkAt) * (700 + 25 * (s.slice k).k)

/-- The number of a tiller's state in the order of R86. -/
def stateCode : TState → Nat
  | .free => 0
  | .ready => 1
  | .waiting => 2
  | .longWait _ => 3
  | .atBar _ => 4
  | .atJoin => 5
  | .atWide => 6
  | .held _ => 7
  | .ended => 8

/-- A pending write whose writer stands outside the core: an access of memory, an engine, the launch engine's and the trace engine's reads (R400). -/
abbrev outsideCore (p : Pend) : Prop := p.kind ≠ .alu ∨ p.op = 0xDA ∨ p.op = 0xDE

/-- CLASS and REG of a pending write in their places (R400). -/
def dumpReg : RegId → Nat
  | .v n => n * 2 ^ 52
  | .s n => 2 ^ 62 + n * 2 ^ 52
  | .p n => 2 * 2 ^ 62 + n * 2 ^ 52
  | .flags => 3 * 2 ^ 62

/-- What a dump holds of its one group (R399, R400), `g'` being the group with every finite pending write performed. The places of the fields of its
record, and of slot, state code, `%fmt` and DRND in a tiller's, are the model's choice (notes/assumptions/60.md). -/
def DumpsGroup (b : Block) (g g' : Group) (d : List Byte) : Prop :=
  let tils := (List.range 8).filter fun k => decide ((g.til k).st ≠ .free)
  let words : List (Pend × RegId) := g.pend.flatMap fun e => e.2.marks.map fun r => (e.2, r)
  let w := 128 + 16 * tils.length
  let v := w + 8 * words.length
  let sc := v + 128 * g'.vregs
  let p := sc + 8 * g'.sregs
  d.length = p + 64 ∧ fieldAt d 64 8 = b.launch % 2 ^ 64 ∧ fieldAt d 72 4 = b.idx % 2 ^ 32 ∧ fieldAt d 76 1 = 0 ∧ fieldAt d 77 1 = g.slot % 2 ^ 8 ∧
  fieldAt d 78 1 = tils.length ∧ fieldAt d 80 4 = words.length % 2 ^ 32 ∧ fieldAt d 84 4 = g'.flags % 2 ^ 32 ∧ (∀ i, i = 79 ∨ (88 ≤ i ∧ i < 128) → d.getD i 1 = 0) ∧
  (∀ j k, tils[j]? = some k → let a := 128 + 16 * j; let t := g.til k
    fieldAt d a 8 = t.pc % 2 ^ 64 ∧ fieldAt d (a + 8) 4 = t.mask % 2 ^ 32 ∧ fieldAt d (a + 12) 1 = k ∧ fieldAt d (a + 13) 1 = stateCode t.st ∧
      fieldAt d (a + 14) 1 = t.fmt.toNat % 2 ^ 8 ∧ fieldAt d (a + 15) 1 = t.mode.toNat % 8) ∧
  (∀ j e r, words[j]? = some (e, r) → ∃ n, fieldAt d (w + 8 * j) 8 = (dumpReg r + e.op * 2 ^ 44 + e.slot * 2 ^ 41 + n) % 2 ^ 64 ∧
    (outsideCore e → n = 2 ^ 32 - 1) ∧ (¬outsideCore e → n < 2 ^ 32 - 1)) ∧
  (∀ r l, r < g'.vregs → l < 32 → fieldAt d (v + 128 * r + 4 * l) 4 = (g'.vget r l).toNat) ∧ (∀ r, r < g'.sregs → fieldAt d (sc + 8 * r) 8 = (g'.sget r).toNat) ∧
  ∀ r, r < 16 → fieldAt d (p + 4 * r) 4 = (g'.pget r).toNat

/-- The wait of a pending instruction as a reason: an engine's has its own code (R393). -/
def waitCode (p : Pend) : Nat := match p.kind with
  | .cond (.bar _) => 9
  | .cond (.pwait _ _) => 10
  | .cond (.cwait _ _) => 11
  | .cond (.mwait _ _) => 12
  | .cond (.qwait _ _) => 13
  | .cond (.ctrwait _ _) => 14
  | .cond (.snooze _) => 17
  | .cond (.ctrfault _ _ _) => 18
  | _ => 5

/-- A marked register holds back the next instruction of a tiller: 3 for a write by the sequencer or the vector unit, 4 for any other (R393). -/
def waitsReg (s : State) (b : Block) (g : Group) (k r : Nat) : Prop :=
  let t := g.til k
  ∃ e i n x, s.icFind b.slice b.core b.vd t.pc = some e ∧ decodeWords (e.words.drop (t.pc % 32 / 4)) = .ok (i, n) ∧ x ∈ (usesOf i g).all ∧ marked g k x = true ∧
    ∃ p ∈ g.pend, (x ∈ p.2.marks ∨ x = .flags) ∧ r = if p.2.kind = .alu ∧ p.2.op < 0x90 then 3 else 4

/-- An exhausted window holds back a tiller. -/
def waitsWin (g : Group) (k r : Nat) : Prop := ∃ w p, w ∈ (g.til k).wins ∧ w.left = 0 ∧ tget g.pend w.id = some p ∧ r = waitCode p

/-- A tiller waits for reason `r` (R393). -/
def waitsFor (s : State) (b : Block) (g : Group) (k r : Nat) : Prop :=
  let t := g.til k
  waitsReg s b g k r ∨ waitsWin g k r ∨ match t.st with
    | .ready => s.icFind b.slice b.core b.vd t.pc = none ∧ r = 8
    | .waiting => (∀ j, ¬waitsReg s b g k j ∧ ¬waitsWin g k j) ∧
        ((∃ e h n, s.icFind b.slice b.core b.vd t.pc = some e ∧ decodeWords (e.words.drop (t.pc % 32 / 4)) = .ok (h, n) ∧ opcode h = 0xDC ∧ r = 19) ∨
          (r = 6 ∧ ∀ e h n, s.icFind b.slice b.core b.vd t.pc = some e → decodeWords (e.words.drop (t.pc % 32 / 4)) = .ok (h, n) → opcode h ≠ 0xDC))
    | .longWait (.on id) => ∃ p, tget g.pend id = some p ∧ r = waitCode p
    | .longWait (.parked _) => r = 18
    | .longWait (.fetch _) => r = 18
    | .longWait .recRoom => r = 22
    | .longWait .sealWin => r = 11
    | .atBar _ => r = 9
    | .atJoin => r = 15
    | .atWide => r = 15
    | .held _ => r = 16
    | _ => False

/-- The next instruction of a tiller is cached, and of the vector unit. -/
def isVector (s : State) (b : Block) (t : Tiller) : Bool := match s.icFind b.slice b.core b.vd t.pc with
  | none => false
  | some e => match decodeWords (e.words.drop (t.pc % 32 / 4)) with
    | .ok (i, _) => decide (0x40 ≤ opcode i ∧ opcode i < 0x90)
    | .error _ => false

/-- The tiller, PC and reason of a sample of the first group of block `id`, in the order of R392; `busy` says that the vector datapath may be, which only
`PASSC` above 1 allows. -/
def sampled (s : State) (q id : Nat) (b : Block) (g : Group) (busy : Bool) (til pc reason : Nat) : Prop :=
  let low := ((List.range 8).find? fun k => (g.til k).st.live).getD 0
  let idle := (List.range 8).filter fun k => s.tilReady b g k
  let runs := s.quarterOpen b g ∧ b.res = .resident
  let act := runs ∧ some (id, 0) ∈ (s.quarter q).act
  let issued := s.now ≠ 0 ∧ g.lastIssue = s.now
  let vec := idle.filter fun k => isVector s b (g.til k)
  (¬runs ∧ (til, pc, reason) = (low, (g.til low).pc, 21)) ∨ (runs ∧ ¬act ∧ (til, pc, reason) = (low, (g.til low).pc, 20)) ∨
  (act ∧ issued ∧ (til, pc, reason) = (g.lastSlot, g.lastPc, 0)) ∨
  (act ∧ ¬issued ∧ (busy = false ∨ vec = []) ∧ idle.head? = some til ∧ pc = (g.til til).pc ∧ reason = 1) ∨
  (act ∧ ¬issued ∧ busy ∧ vec.head? = some til ∧ pc = (g.til til).pc ∧ reason = 2) ∨
  (act ∧ ¬issued ∧ idle = [] ∧ til = low ∧ pc = (g.til low).pc ∧ reason ∈ s.tilWaits b g low ∧ ∀ r ∈ s.tilWaits b g low, reason ≤ r)

/-- The bytes of a sample (R394). -/
def sampleBytes (now pc reason quarter core slot til vd : Nat) (qiss : Bool) : List Byte :=
  toBytes 8 pc ++ toBytes 8 (now % 2 ^ 30 * 2 ^ 32 + reason * 2 ^ 27 + (if qiss then 2 ^ 26 else 0) + quarter * 2 ^ 24 + core * 2 ^ 22 + slot * 2 ^ 17 + til * 2 ^ 14 + vd)

end Sys2Proof.Claims

/-- R389 to R408: trace entries, precise stops and dumps, samples, counter sets, their page and their image, waits for a record stream. -/
def Obligations.TraceEvents : Prop :=
  (∀ s slice vd pid u b, s.pidOf slice = some pid → vd < 1024 → (s.slice slice).trcTab ≠ 0 → s.paRead slice ((s.slice slice).trcTab + 32 * vd) 32 = (u, some b) →
    (tget u.slices slice).isSome → (∀ e ∈ (u.slice slice).csets, e.2.vd ≠ some vd) → b.length = 32 → fieldAt b 8 1 < 64 → ¬((fieldAt b 8 1).testBit 4 ∧ (fieldAt b 8 1).testBit 5) → fieldAt b 10 6 = 0 →
    let m := fieldAt b 8 1
    let e : TrcEnt := { ring := fieldAt b 0 8, sen := m.testBit 0, uctl := m.testBit 1, brken := m.testBit 2, marken := m.testBit 3, recm := m.testBit 4, rpl := m.testBit 5
                        cset := fieldAt b 9 1, dump := fieldAt b 16 8, rstream := fieldAt b 24 8 }
    (e.cset = 255 → ∃ t, exec (.refresh slice vd) s = .next t ∧ SliceBecomes u t slice { u.slice slice with trc := tput (u.slice slice).trc vd e }) ∧
    (e.cset < 64 → (∀ c, tget (u.slice slice).csets e.cset = some c → c.vd = none) → ∃ t, exec (.refresh slice vd) s = .next t ∧
      SliceBecomes u t slice { u.slice slice with trc := tput (u.slice slice).trc vd e, csets := tput (u.slice slice).csets e.cset { (tget (u.slice slice).csets e.cset).getD {} with vd := some vd } }) ∧
    (64 ≤ e.cset → e.cset < 255 → ∃ t, exec (.refresh slice vd) s = .next t ∧ tget (t.slice slice).trc vd = some { e with cset := 255 } ∧ (t.slice slice).csets = (u.slice slice).csets ∧
      ∃ v, v ∈ t.events ∧ v.pid = some pid ∧ v.kind = .counterSet ∧ v.slice = slice ∧ v.arg = vd)) ∧
  (∀ s slice vd pid, s.pidOf slice = some pid → vd < 1024 → (tget s.slices slice).isSome → (s.slice slice).trcTab = 0 → (∀ e ∈ (s.slice slice).csets, e.2.vd ≠ some vd) →
    ∃ t, exec (.refresh slice vd) s = .next t ∧ SliceBecomes s t slice { s.slice slice with trc := tput (s.slice slice).trc vd { cset := 255 } }) ∧
  (∀ s slice core quarter vd b g, core < 4 → quarter < 4 → inQuarter s (slice * 16 + core * 4 + quarter) b g → b.vd = vd → (tget s.slices slice).isSome →
    let q := slice * 16 + core * 4 + quarter
    ((s.quarter q).stop = none → ∃ t, exec (.stop slice core quarter vd) s = .next t ∧ t.mem = s.mem ∧ t.blocks = s.blocks ∧
      t.quarters = tput s.quarters q { s.quarter q with stop := some vd, dumped := false, stopAt := s.now, stopCause := 2 } ∧
      t.slice slice = { s.slice slice with trcStops := ((s.slice slice).trcStops + 1) % 2 ^ 16 }) ∧
    ((s.quarter q).stop.isSome → exec (.stop slice core quarter vd) s = .next s)) ∧
  (∀ s slice core quarter vd, (∀ b g, ¬(inQuarter s (slice * 16 + core * 4 + quarter) b g ∧ b.vd = vd)) → exec (.stop slice core quarter vd) s = .next s) ∧
  (∀ s slice core quarter vd q, tget s.quarters (slice * 16 + core * 4 + quarter) = some q → q.stop = some vd → ∃ t, exec (.resume slice core quarter) s = .next t ∧
    t = { s with quarters := t.quarters, blocks := t.blocks } ∧ tget t.quarters (slice * 16 + core * 4 + quarter) = some { q with stop := none, dumped := false } ∧
    ∀ j b, tget s.blocks j = some b → ∃ b', tget t.blocks j = some b' ∧ b' = { b with groups := b'.groups } ∧ b'.groups.length = b.groups.length ∧
      ∀ (n : Nat) (g : Group), b.groups[n]? = some g → b'.groups[n]? = some g ∨ b'.groups[n]? = some { g with lastSlot := 7 }) ∧
  (∀ s slice core quarter, (s.quarter (slice * 16 + core * 4 + quarter)).stop = none → exec (.resume slice core quarter) s = .next s) ∧
  (∀ s q x vd pid e, tget s.quarters q = some x → x.stop = some vd → x.dumped = false → s.pidOf (q / 16) = some pid → tget (s.slice (q / 16)).trc vd = some e →
    ∃ (t u : State) (d : List Byte), exec (.dumpWritten q) s = .next t ∧ tget t.quarters q = some { x with dumped := true } ∧ u.mem = s.mem ∧
      (e.dump = 0 → t.mem = s.mem) ∧ (∀ v, u.vaWrite (q / 16) pid vd e.dump d = (v, none) → e.dump ≠ 0 → t.mem = v.mem) ∧
      (∀ v f, u.vaWrite (q / 16) pid vd e.dump d = (v, some f) → t.mem = s.mem) ∧
      (∀ id b g, s.blocks = [(id, b)] → b.groups = [g] → inQuarter s q b g → b.vd = vd → fieldAt d 10 1 = 1 ∧
        DumpsGroup b g ((g.pend.filter fun e => decide ¬outsideCore e.2).foldl (fun g e => g.complete e.1) g) d ∧
        GroupAt t id 0 ((g.pend.filter fun e => decide ¬outsideCore e.2).foldl (fun g e => g.complete e.1) g)) ∧
      fieldAt d 0 8 = x.stopAt % 2 ^ 64 ∧ fieldAt d 8 1 = q / 4 % 4 ∧ fieldAt d 9 1 = q % 4 ∧ fieldAt d 11 1 = x.stopCause % 2 ^ 8 ∧ (∀ i, 12 ≤ i → i < 64 → d.getD i 1 = 0) ∧
      ((∀ b g, ¬(inQuarter s q b g ∧ b.vd = vd)) → d.length = 64 ∧ fieldAt d 10 1 = 0)) ∧
  (∀ s q x, tget s.quarters q = some x → x.stop = none ∨ x.dumped → exec (.dumpWritten q) s = .next s) ∧
  (∀ s q, (s.slice (q / 16)).inReset ∨ (s.slice (q / 16)).trcCtl % 2 = 0 ∨ (s.slice (q / 16)).trcCtl / 2 ^ 48 < 16 ∨
    clocksOf s (q / 16) - (s.quarter q).sampAt < (s.slice (q / 16)).trcCtl / 2 ^ 48 * 1000 → exec (.sampleTaken q) s = .next s) ∧
  (∀ (s : State) (b : Block) (g : Group), let x := s.quarter (b.slice * 16 + b.core * 4 + g.quarter)
    (s.quarterOpen b g = true ↔ b.vd ∉ (s.slice b.slice).vdStop ∧ ∀ v, x.stop = some v → v ≠ b.vd ∧ x.dumped = true)) ∧
  (∀ (s : State) q v, (s.quarter q).stop = some v → (s.quarter q).dumped = false →
    (∀ bid gi b g, some (bid, gi) ∈ (s.quarter q).act → tget s.blocks bid = some b → b.groups[gi]? = some g → b.slice * 4 + b.core = q / 4 ∧ g.quarter = q % 4) → s.select q = none) ∧
  (∀ (s : State) b g k r, k < 8 → (r ∈ s.tilWaits b g k ↔ waitsFor s b g k r)) ∧
  (∀ (s : State) q x, tget s.quarters q = some x →
    let on := (s.slice (q / 16)).trcCtl.testBit 0 ∧ 16 ≤ (s.slice (q / 16)).trcCtl / 2 ^ 48 ∧ ∃ e, some e ∈ x.act
    ∃ y, tget s.stampSamples.quarters q = some y ∧ y = { x with sampAt := y.sampAt, counting := y.counting } ∧ (y.counting = true ↔ on) ∧
      y.sampAt = if y.counting ∧ x.counting then x.sampAt else clocksOf s (q / 16)) ∧
  (∀ (s : State) q x, tget s.settle.quarters q = some x → x.counting = false → x.sampAt = clocksOf s.settle (q / 16)) ∧
  (∀ s q x pid id (b : Block) (g : Group) e, tget s.quarters q = some x → (s.slice (q / 16)).inReset = false → (s.slice (q / 16)).trcCtl % 2 = 1 → 16 ≤ (s.slice (q / 16)).trcCtl / 2 ^ 48 →
    (s.slice (q / 16)).trcCtl / 2 ^ 48 * 1000 ≤ clocksOf s (q / 16) - x.sampAt → s.pidOf (q / 16) = some pid → s.blocks = [(id, b)] → b.groups = [g] → inQuarter s q b g → g.slot < 24 →
    tget (s.slice (q / 16)).trc b.vd = some e →
    let x' : Quarter := { x with sampAt := clocksOf s (q / 16), sptr := g.slot }
    (e.sen = false ∨ e.ring = 0 → ∃ t, exec (.sampleTaken q) s = .next t ∧ QuarterBecomes s t q x') ∧
    (e.sen → e.ring ≠ 0 → (∃ busy til pc reason, (busy = true → (s.slice b.slice).passc ≠ 1) ∧ sampled s q id b g busy til pc reason) →
      ∃ busy til pc reason, (busy = true → (s.slice b.slice).passc ≠ 1) ∧ sampled s q id b g busy til pc reason ∧ ∀ h u v w v' w',
      let y := { s with quarters := tput s.quarters q x' }
      let asks := s.quarterOpen b g ∧ b.res = .resident ∧ some (id, 0) ∈ x.act ∧ ¬(s.now ≠ 0 ∧ g.lastIssue = s.now) ∧ (s.slice b.slice).passc ≠ 1 ∧
        ∃ k, k < 8 ∧ s.tilReady b g k ∧ isVector s b (g.til k)
      (asks ∧ u = (y.choose 2).2) ∨ (¬asks ∧ u = y) → ringRoom u v (q / 16) pid b.vd e.ring h →
      v.vaWrite (q / 16) pid b.vd (e.ring + 64 + 16 * (fieldAt h 16 8 % 2 ^ fieldAt h 0 4))
        (sampleBytes s.now pc reason (q % 4) b.core g.slot til b.vd (decide (s.now ≠ 0 ∧ g.lastIssue = s.now))) = (w, v') →
      w.vaWrite (q / 16) pid b.vd (e.ring + 16) (toBytes 8 (fieldAt h 16 8 + 1)) = (w', none) → v' = none →
      ∃ t, exec (.sampleTaken q) s = .next t ∧ t.mem = w'.mem ∧ tget t.quarters q = some x')) ∧
  (∀ s b g t gr bl e u lg head tail, tget s.blocks b = some bl → bl.groups[g]? = some gr → t < gr.tillers.length → (gr.til t).st = .longWait .recRoom →
    tget (s.slice bl.slice).trc bl.vd = some e → s.rsHeader bl.slice bl.pid bl.vd e.rstream = (u, some (lg, head, tail)) → u.blocks = s.blocks →
    (2 ^ lg < tail + 2 - head → exec (.recordStreamRoom b g t) s = .next s) ∧
    (tail + 2 - head ≤ 2 ^ lg → ∃ v gr', exec (.recordStreamRoom b g t) s = .next v ∧ GroupBecomes u v b g gr' ∧ gr' = { gr with tillers := gr'.tillers } ∧
      gr'.tillers[t]? = some { gr.til t with st := .ready } ∧ ∀ j, j ≠ t → gr'.tillers[j]? = gr.tillers[j]?)) ∧
  (∀ s b g t gr bl, tget s.blocks b = some bl → bl.groups[g]? = some gr → (gr.til t).st ≠ .longWait .recRoom → exec (.recordStreamRoom b g t) s = .next s) ∧
  (∀ s slice vd n k c, n < 8 → boundSet s slice vd k c → c.ctr.length = 8 → c.shd.length = 8 →
    (∃ t m, exec (.counterReadLo slice vd n) s = .next t ∧ withBit c.svalid n true m ∧
      SetBecomes s t slice k { c with shd := c.shd.set n (reading c n / 2 ^ 32), svalid := m } (some (reading c n % 2 ^ 32))) ∧
    (c.svalid.testBit n → ∃ t m, exec (.counterReadHi slice vd n) s = .next t ∧ withBit c.svalid n false m ∧ SetBecomes s t slice k { c with svalid := m } (some (if available c n then c.shd.getD n 0 else 2 ^ 32 - 1))) ∧
    (c.svalid.testBit n = false → ∃ t, exec (.counterReadHi slice vd n) s = .next t ∧ SetBecomes s t slice k c (some (reading c n / 2 ^ 32)))) ∧
  (∀ s slice vd n k c, n < 8 → boundSet s slice vd k c →
    (∃ t, s.pageReg slice vd (8 * n) = some (t, reading c n) ∧ SetBecomes s t slice k c none) ∧
    s.pageReg slice vd (0x40 + 4 * n) = some (s, c.sel.getD n 0) ∧ s.pageReg slice vd 0x60 = some (s, if c.frz then 1 else 0)) ∧
  (∀ s slice vd pid u n, vd < 1024 → (tget s.slices slice).isSome → (s.slice slice).inReset = false → s.pidOf slice = some pid → tget (s.slice slice).trc vd = none →
    exec (.refresh slice vd) s = .next u → ∀ i, (n < 8 ∧ (i = .counterReadLo slice vd n ∨ i = .counterReadHi slice vd n)) ∨ (∃ off v, i = .counterPageWrite slice vd off v) ∨
      i = .csave slice vd ∨ i = .crestore slice vd → exec i s = exec i u) ∧
  (∀ s slice vd n, n < 8 → traced s slice vd → s.setOf slice vd = none → ∀ i, i = .counterReadLo slice vd n ∨ i = .counterReadHi slice vd n →
    ∃ t, exec i s = .next t ∧ SliceBecomes s t slice { s.slice slice with ctrOut := 2 ^ 32 - 1 }) ∧
  (∀ s slice vd n v k c, n < 8 → boundSet s slice vd k c → c.ctr.length = 8 → c.sel.length = 8 →
    (∃ t, exec (.counterPageWrite slice vd (8 * n) v) s = .next t ∧ SetBecomes s t slice k { c with ctr := c.ctr.set n (v % 2 ^ 64) } none) ∧
    (∃ t m, exec (.counterPageWrite slice vd (0x40 + 4 * n) v) s = .next t ∧ withBit c.off n false m ∧ SetBecomes s t slice k { c with sel := c.sel.set n (v % 2 ^ 17), off := m } none) ∧
    ∃ t, exec (.counterPageWrite slice vd 0x60 v) s = .next t ∧ SetBecomes s t slice k { c with frz := v.testBit 0 } none) ∧
  (∀ s slice vd v off, traced s slice vd → s.setOf slice vd = none → exec (.counterPageWrite slice vd off v) s = .next s) ∧
  (∀ s slice vd pid k c, s.pidOf slice = some pid → boundSet s slice vd k c → c.sel.length = 8 → c.shd.length = 8 →
    ∃ t d, exec (.csave slice vd) s = .next t ∧ t.mem = (s.vaWrite slice pid vd ((s.slice slice).trcAddr / 32 * 32) d).1.mem ∧ d.length = 160 ∧
      (∀ n, n < 8 → fieldAt d (8 * n) 8 = reading c n % 2 ^ 64 ∧ fieldAt d (64 + 4 * n) 4 = c.sel.getD n 0 % 2 ^ 32 ∧ fieldAt d (96 + 4 * n) 4 = c.shd.getD n 0 % 2 ^ 32) ∧
      fieldAt d 128 1 = c.svalid % 2 ^ 8 ∧ fieldAt d 129 1 = (if c.frz then 1 else 0) ∧ ∀ i, 130 ≤ i → i < 160 → d.getD i 1 = 0) ∧
  (∀ s slice vd pid k c k' c' u d, s.pidOf slice = some pid → (tget (s.slice slice).trc vd).isSome → s.setOf slice vd = some (k', c') → s.vaRead slice pid vd ((s.slice slice).trcAddr / 32 * 32) 160 = (u, .ok d) → u.setOf slice vd = some (k, c) → (tget u.slices slice).isSome →
    ∃ t c', exec (.crestore slice vd) s = .next t ∧ t.mem = u.mem ∧ tget (t.slice slice).csets k = some c' ∧ c'.vd = c.vd ∧ c'.svalid = fieldAt d 128 1 ∧ c'.frz = (fieldAt d 129 1).testBit 0 ∧
      ∀ n, n < 8 → c'.ctr.getD n 0 = fieldAt d (8 * n) 8 ∧ c'.sel.getD n 0 = fieldAt d (64 + 4 * n) 4 % 2 ^ 17 ∧ c'.shd.getD n 0 = fieldAt d (96 + 4 * n) 4 ∧
        (c'.off.testBit n = true ↔ fieldAt d (8 * n) 8 = 2 ^ 64 - 1)) ∧
  (∀ s slice vd, s.pidOf slice = none → exec (.csave slice vd) s = .next s ∧ exec (.crestore slice vd) s = .next s ∧ exec (.refresh slice vd) s = .next s)

/-! ### The power controller (R414 to R420) -/

namespace Sys2Proof.Claims

/-- A slice whose clocks have been counted up to now, at the frequency they ran at (R17). -/
def ticked (now : Nat) (x : Slice) : Slice := { x with clk := x.clk + (now - x.clkAt) * (700 + 25 * x.k), clkAt := now }

/-- A slice's K moved to a new value (R17, R415, R420): down at once, its vote after the clock has fallen; up as a vote, never below what a clock that
still falls needs, which cancels a settle of its rail, unless the slice is free; a move to the present K ends a raise that waits. -/
def kMoved (s t : State) (k : Nat) (x : Slice) (n : Nat) : Prop :=
  (n < x.k → SliceBecomes s t k { ticked s.now x with k := n, falling := true, rising := false }) ∧
  (n = x.k → SliceBecomes s t k (if x.rising then { x with rising := false, falling := true } else x)) ∧
  (x.k < n → (s.fwOf k).asgn = false → SliceBecomes s t k x) ∧
  (x.k < n → (s.fwOf k).asgn → t = { s with slices := t.slices, rails := t.rails } ∧ t.slice k = { x with vote := if x.falling then max x.vote n else n, want := n, rising := true } ∧
    (∀ j, j ≠ k → t.slice j = s.slice j) ∧ tget t.rails (k % 8) = some { s.rail (k % 8) with settle := none } ∧ ∀ j, j ≠ k % 8 → tget t.rails j = tget s.rails j)

/-- The operating point that a slice runs at, or waits to be raised to (R417). -/
def bound (x : Slice) : Nat := if x.rising then x.want else x.k

/-- Two machines that differ at most in one rail, which is `r` in the second. -/
def RailBecomes (s t : State) (col : Nat) (r : Rail) : Prop := t = { s with rails := t.rails } ∧ tget t.rails col = some r ∧ ∀ j, j ≠ col → tget t.rails j = tget s.rails j

/-- The highest vote of a column's slices, those that belong to no partition voting 0 (R377, R420). -/
def highestVote (s : State) (col m : Nat) : Prop :=
  (∀ k ∈ s.part.slices, k % 8 = col → (if (s.fwOf k).asgn then (s.slice k).vote else 0) ≤ m) ∧ (m = 0 ∨ ∃ k ∈ s.part.slices, k % 8 = col ∧ (s.fwOf k).asgn ∧ (s.slice k).vote = m)

end Sys2Proof.Claims

/-- R415 to R420: PWR_CTL, windows, rails, current-limit alarms, heat. That K stays at 0 where an alarm or heat would lower it further is the model's
reading (notes/assumptions/50.md), and the counts ISS and MST of a window are free values (48.md). -/
def Obligations.PowerEvents : Prop :=
  (∀ s k v, (tget s.slices k).isSome → v / 2 ^ 8 % 2 ^ 6 ≤ 40 → v % 2 ^ 6 ≤ v / 2 ^ 8 % 2 ^ 6 →
    let x := { s.slice k with shi := v / 2 ^ 24 % 2 ^ 8, slo := v / 2 ^ 16 % 2 ^ 8, kmax := v / 2 ^ 8 % 2 ^ 6, kmin := v % 2 ^ 6 }
    ∃ t, exec (.pwrCtlWrite k v) s = .next t ∧ (x.kmax < bound x → kMoved s t k x x.kmax) ∧ (bound x < x.kmin → kMoved s t k x x.kmin) ∧
      (x.kmin ≤ bound x → bound x ≤ x.kmax → SliceBecomes s t k x)) ∧
  (∀ s k v, v / 2 ^ 8 % 2 ^ 6 < v % 2 ^ 6 ∨ 40 < v / 2 ^ 8 % 2 ^ 6 → exec (.pwrCtlWrite k v) s = .next s) ∧
  (∀ s k, (tget s.slices k).isSome → (s.slice k).inReset = false → (s.slice k).winEnd ≤ s.now →
    ∃ t sv, exec (.powerWindowEnd k) s = .next t ∧ t.mem = s.mem ∧ sv ≤ 256 ∧
      let x := { s.slice k with sval := min sv 255, winEnd := (s.slice k).winEnd + 1000000, winAlarm := (s.slice k).alarm }
      let n := if sv < x.slo ∧ x.slo < x.shi then max x.kmin (x.k - 1) else if x.shi < sv then min x.kmax (x.k + 1) else x.k
      kMoved { s with free := t.free } t k x (if n < x.k then n else if x.rising then max x.want n else if (s.slice k).winAlarm ∨ x.alarm ∨ x.hot then x.k else n)) ∧
  (∀ iss mst, 0 < iss + mst → sensitivity iss mst * (iss + mst) ≤ 256 * iss ∧ 256 * iss < (sensitivity iss mst + 1) * (iss + mst)) ∧ sensitivity 0 0 = 256 ∧
  (∀ s k, (s.slice k).inReset ∨ s.now < (s.slice k).winEnd → exec (.powerWindowEnd k) s = .next s) ∧
  (∀ s col m, highestVote s col m → (s.rail col).level < m ∨ (∃ e ∈ s.slices, e.1 % 8 = col ∧ e.2.rising) → ∃ t, exec (.railVoltageReached col) s = .next t ∧ t = { s with slices := t.slices, rails := t.rails } ∧
    tget t.rails col = some { level := max (s.rail col).level m, settle := none } ∧
    ∀ k x, tget s.slices k = some x → tget t.slices k = some (if k % 8 = col ∧ x.rising ∧ x.want ≤ max (s.rail col).level m then { ticked s.now x with k := x.want, rising := false } else x)) ∧
  (∀ s col m, highestVote s col m → m ≤ (s.rail col).level → (∀ e ∈ s.slices, e.1 % 8 = col → e.2.rising = false) → exec (.railVoltageReached col) s = .next s) ∧
  (∀ s k, ((s.slice k).falling → ∃ t, exec (.frequencyChangeComplete k) s = .next t ∧ SliceBecomes s t k { s.slice k with vote := bound (s.slice k), falling := false }) ∧
    ((s.slice k).falling = false → exec (.frequencyChangeComplete k) s = .next s)) ∧
  (∀ s col m, highestVote s col m →
    let within := ∀ e ∈ s.slices, e.1 % 8 = col → e.2.inReset = false → e.2.k ≤ if (s.fwOf e.1).asgn then (s.slice e.1).vote else 0
    (m < (s.rail col).level → (s.rail col).settle = none → within → ∃ t, exec (.railFallConfirm col) s = .next t ∧ RailBecomes s t col { s.rail col with settle := some (s.now + 20000), target := m }) ∧
    ((s.rail col).level ≤ m ∨ (s.rail col).settle.isSome ∨ ¬within → exec (.railFallConfirm col) s = .next s) ∧
    (∀ n, (s.rail col).settle = some n → (n ≤ s.now → ∃ t, exec (.railSettleExpiry col) s = .next t ∧ RailBecomes s t col { level := max (s.rail col).target m }) ∧ (s.now < n → exec (.railSettleExpiry col) s = .next s)) ∧
    ((s.rail col).settle = none → exec (.railSettleExpiry col) s = .next s)) ∧
  (∀ s k, (tget s.slices k).isSome → (s.slice k).inReset = false → ∃ t, exec (.currentLimitAlarm k) s = .next t ∧ SliceBecomes s t k (alarmed s.now (s.slice k))) ∧
  (∀ s k, (tget s.slices k).isSome →
    let x := s.slice k
    (x.alarm → x.passc = 2 → x.alarmAt + 1000 ≤ s.now → ∃ t, exec (.alarmPersist1us k) s = .next t ∧ SliceBecomes s t k { x with passc := 4, alarmAt := s.now }) ∧
    (x.alarm = false ∨ x.passc ≠ 2 ∨ s.now < x.alarmAt + 1000 → exec (.alarmPersist1us k) s = .next s) ∧
    (x.alarm → x.passc = 4 → x.alarmAt + 10000 ≤ s.now → ∃ t, exec (.alarmPersist10us k) s = .next t ∧ kMoved s t k { x with alarmAt := s.now } (x.k - 1)) ∧
    (x.alarm = false ∨ x.passc ≠ 4 ∨ s.now < x.alarmAt + 10000 → exec (.alarmPersist10us k) s = .next s) ∧
    (x.alarm → ∃ t, exec (.currentLimitAlarmClear k) s = .next t ∧ SliceBecomes s t k { x with alarm := false, calmAt := s.now }) ∧
    (x.alarm = false → exec (.currentLimitAlarmClear k) s = .next s) ∧
    (x.alarm = false → x.passc ≠ 1 → x.calmAt + 50000 ≤ s.now → ∃ t, exec (.alarmClear50us k) s = .next t ∧ SliceBecomes s t k { x with passc := x.passc / 2, calmAt := s.now }) ∧
    (x.alarm ∨ x.passc = 1 ∨ s.now < x.calmAt + 50000 → exec (.alarmClear50us k) s = .next s)) ∧
  (∀ s k a b, (tget s.slices k).isSome → (s.slice k).inReset = false → (s.slice k).thermAt ≤ s.now → a < 1024 → b < 1024 →
    let hot := 580 ≤ max a b ∨ ((s.slice k).hot = true ∧ 560 ≤ max a b)
    let x := { s.slice k with temps := [a, b], thermAt := (s.slice k).thermAt + 10000, hot := decide hot }
    ∃ t, exec (.thermalSample k a b) s = .next t ∧ (¬hot → SliceBecomes s t k x) ∧ (hot → max a b < 620 → kMoved s t k x (x.k - 1)) ∧
      (620 ≤ max a b → (t.slice k).inReset ∧ (t.fwOf k).hold ∧ ∃ e ∈ t.events, e.pid = none ∧ e.kind = .sliceReset ∧ e.slice = k)) ∧
  (∀ s k a b, (s.slice k).inReset ∨ s.now < (s.slice k).thermAt → exec (.thermalSample k a b) s = .next s)

/-! ### Encoding, the step, and the machine as a whole -/

namespace Sys2Proof.Claims

/-- The header of an unpredicated instruction with LOOK 0 and of a predicated one (R30, R34). -/
def hd0 : Hd := { pred := 15, neg := false, look := 0 }
def hdP (p : Fin 16) (neg : Bool) : Hd := { pred := p, neg := neg, look := 0 }

end Sys2Proof.Claims

/-- R27 to R39, R51: words written out from the spec's encodings decode to the instructions they stand for, and one word for each check refuses. -/
def Obligations.DecodeSampleWords : Prop :=
  decodeWords [0, 7] = .ok (.pad, 1) ∧
  decodeWords [0x0003C001, 0] = .ok (.nop hd0, 2) ∧
  decodeWords [0x08008006, 0, 0xFFFFD000] = .ok (.bra (hdP 2 false) .any (BitVec.ofInt 22 (-12)), 3) ∧
  decodeWords [0x001BC051, 0x80101405] = .ok (.sadd { h := hd0, ty := .i64, sat := false, d := 5, a := 5, b := .imm (.i10 1) }, 2) ∧
  decodeWords [0x0414C101, 0xFF9A0C0A] =
    .ok (.iadd { h := hdP 3 true, ty := .i32, sat := true, d := 10, a := .ind 3 5, b := .imm (.i10 (BitVec.ofInt 10 (-7))) }, 2) ∧
  decodeWords [0x0083C176, 0x00601404, 7] = .ok (.ffma { h := hd0, ty := .f32, rnd := .rne, sat := false, d := 4, a := .reg 5, b := .reg 6, c := 7 }, 3) ∧
  decodeWords [0x004BC242, 0x00002004, 0x00010000] = .ok (.ld { h := hd0, ty := .b32, hint := .none, ord := none, r := 4, a := 8, off := 0x40 }, 3) ∧
  decodeWords [0x0E03C281, 0] = .ok (.fence hd0 .sc .sys, 2) ∧
  decodeWords [0x0003CAD1, 0x80100000] = .ok (.cwait { hd0 with look := 2 } false (.imm 1), 2) ∧
  decodeWords [0x191BC303, 0x01505001, 0xC00, 0] =
    .ok (.mma { h := hd0, fa := .e4m3, fb := .e4m3, zacc := true, spb := false, d := 1, a := 20, b := 21, stream := 3, asc := none, bsc := none }, 4) ∧
  decodeWords [0x4003C359, 0x80000000] = .ok (.qwait hd0 (.all 0) (.imm 0), 2) ∧
  decodeWords [0x0003C36E, 0x80001800, 0xC00] = .ok (.ctrwait hd0 6 (.imm 3), 3) ∧
  decodeWords [4, 0] = .error 1 ∧ decodeWords [0x0003C001] = .error 2 ∧ decodeWords [0x0003C3FD, 0] = .error 3 ∧ decodeWords [0x0003C005, 0] = .error 4 ∧
  decodeWords [0x03A3C176, 0x00601404, 7] = .error 5 ∧ decodeWords [0x0007C001, 0] = .error 6 ∧ decodeWords [0x0003C001, 1] = .error 7

/-- Decoding the words of a well-formed instruction, whatever follows them, gives the instruction and its length. -/
def Obligations.DecodeEncodeRoundTrip : Prop :=
  ∀ (i : Instr) (more : List Nat), isEvent i = false → i.wf = true →
    decodeWords (encode i ++ more) = .ok (i, (encode i).length) ∧ ∀ w ∈ encode i, w < 2 ^ 32

/-- What the decoder accepts is a well-formed instruction, not an event, and its words are the only ones that give it: no bit of an encoding is
dropped. -/
def Obligations.EncodingIsUnique : Prop :=
  ∀ (i : Instr) (ws : List Nat) (n : Nat), (∀ w ∈ ws, w < 2 ^ 32) → decodeWords ws = .ok (i, n) → i.wf = true ∧ isEvent i = false ∧ encode i = ws.take n

namespace Sys2Proof.Claims

/-- The position and slot of a tiller of a quarter's active groups come k groups and j slots after the last ones served (R79). -/
def turnOf (s : State) (q : Nat) (x : Nat × Cur) (k j : Nat) : Prop :=
  k < 8 ∧ j < 8 ∧ x.1 = ((s.quarter q).lastPos + 1 + k) % 8 ∧ ∃ b g, tget s.blocks x.2.b = some b ∧ b.groups[x.2.g]? = some g ∧ x.2.t = (g.lastSlot + 1 + j) % 8

/-- The tiller `c` of a machine is loaded as `x`, Ready, and may issue (R86, R101). -/
def readyAs (s : State) (c : Cur) (x : Ex) : Prop := ({ s with cur := some c } : State).load = some x ∧ x.t.st = .ready ∧ x.able = true

/-- Only one tiller changes, and it becomes `u`. -/
def TillerBecomes (s t : State) (c : Cur) (u : Tiller) : Prop :=
  t = { s with blocks := t.blocks } ∧ ∀ (b : Block) (g : Group), tget s.blocks c.b = some b → b.groups[c.g]? = some g →
    ∃ b', tget t.blocks c.b = some b' ∧ b' = { b with groups := b'.groups } ∧ b'.groups.length = b.groups.length ∧ (∀ j, j ≠ c.g → b'.groups[j]? = b.groups[j]?) ∧
      (∀ j, j ≠ c.b → tget t.blocks j = tget s.blocks j) ∧ ∃ g', b'.groups[c.g]? = some g' ∧ g' = { g with tillers := g'.tillers } ∧ g'.tillers.length = g.tillers.length ∧
        g'.tillers[c.t]? = some u ∧ ∀ j, j ≠ c.t → g'.tillers[j]? = g.tillers[j]?

end Sys2Proof.Claims

/-- R78, R79, R83, R85, R86, R96: a tiller that is ready is Ready, its instruction is cached, no register of it is marked and no window of it is exhausted;
a quarter with ready tillers selects, among those passed over 32 times or else among all, the first in rotation, and counts the others passed over. A Ready
tiller that a window holds back enters the state in which it waits, and so does one with a marked register. -/
def Obligations.SelectionInRotation : Prop :=
  (∀ (s : State) (q : Nat) (x : Nat × Cur), x ∈ s.tilPool q State.tilReady →
    ∃ (b : Block) (g : Group) (tl : Tiller) (e : IBlk), x.1 < 8 ∧ (s.quarter q).act[x.1]? = some (some (x.2.b, x.2.g)) ∧ tget s.blocks x.2.b = some b ∧ b.groups[x.2.g]? = some g ∧
      g.tillers[x.2.t]? = some tl ∧ tl.st = .ready ∧ b.res = .resident ∧ s.icFind b.slice b.core b.vd tl.pc = some e ∧
      (∀ w ∈ tl.wins, w.left = 0 → tget g.pend w.id = none) ∧
      ∀ i n, decodeWords (e.words.drop (tl.pc % 32 / 4)) = .ok (i, n) → ∀ r ∈ (usesOf i g).all, marked g x.2.t r = false) ∧
  (∀ (s : State) (q : Nat), s.tilPool q State.tilReady ≠ [] → ((s.quarter q).act.filterMap id).Nodup →
    let c := s.tilPool q State.tilReady
    let first (x : Nat × Cur) := 32 ≤ (s.tilAt x.2).skip ∨ ∀ y ∈ c, (s.tilAt y.2).skip < 32
    ∃ (x : Nat × Cur) (t : State), x ∈ c ∧ s.select q = some t ∧ first x ∧
      (∃ k j, turnOf s q x k j ∧ ∀ y ∈ c, first y → ∀ k' j', turnOf s q y k' j' → k < k' ∨ (k = k' ∧ j ≤ j')) ∧
      t.cur = some x.2 ∧ (t.quarter q).lastPos = x.1 ∧ (∀ b g, tget t.blocks x.2.b = some b → b.groups[x.2.g]? = some g → g.lastSlot = x.2.t) ∧ (t.tilAt x.2).skip = 0 ∧ (∀ y ∈ c, y ≠ x → (t.tilAt y.2).skip = (s.tilAt y.2).skip + 1) ∧
      t.mem = s.mem ∧ ∀ y, t.tilAt y = { s.tilAt y with skip := (t.tilAt y).skip }) ∧
  (∀ (s : State) (q : Nat), s.tilPool q State.tilReady = [] → s.select q = none) ∧
  (∀ (s : State) (c : Cur) (x : Ex), readyAs s c x → (∀ w ∈ x.t.wins, w.left ≠ 0) →
    let held := ∃ e i n, s.icFind x.b.slice x.b.core x.b.vd x.t.pc = some e ∧ decodeWords (e.words.drop (x.t.pc % 32 / 4)) = .ok (i, n) ∧ ∃ r ∈ (usesOf i x.g).all, marked x.g c.t r = true
    (held → TillerBecomes s (s.holdTil c) c { x.t with st := .waiting }) ∧ (¬held → s.holdTil c = s)) ∧
  (∀ (s : State) (c : Cur) (x : Ex) (w : Win), readyAs s c x → x.t.wins.find? (fun w => w.left == 0) = some w →
    let k := (tget x.g.pend w.id).map Pend.kind
    (k = some .alu → TillerBecomes s (s.holdTil c) c { x.t with st := .waiting }) ∧
    ((∀ b, k ≠ some (.cond (.bar b))) → k ≠ some .alu → TillerBecomes s (s.holdTil c) c { x.t with st := .longWait (.on w.id) }) ∧
    (∀ b, k = some (.cond (.bar b)) → (∃ j u, j ≠ c.t ∧ x.g.tillers[j]? = some u ∧ (u.st = .ready ∨ u.st = .waiting ∨ ∃ l, u.st = .longWait l)) →
      ∀ b' g', tget (s.holdTil c).blocks c.b = some b' → b'.groups[c.g]? = some g' → ∃ u, g'.tillers[c.t]? = some u ∧ u.st = .atBar b ∧ u.parkAt = x.t.pc)) ∧
  (∀ (s : State) (c : Cur) (x : Ex), ({ s with cur := some c } : State).load = some x → x.t.st ≠ .ready ∨ x.able = false → s.holdTil c = s)

namespace Sys2Proof.Claims

/-- The machine at a move of its agenda, and with the pads at its quarter's tillers passed (R28). -/
def movedOn (s : State) (dt : Nat) (more : List (Nat × Move)) : State := { s with agenda := more, now := s.now + dt }

/-- The selected tiller stands at the words of a cached fetch block (R41, R78). -/
def standsAt (t : State) (x : Ex) (e : IBlk) : Prop := t.load = some x ∧ t.icFind x.b.slice x.b.core x.b.vd x.t.pc = some e

end Sys2Proof.Claims

/-- R27, R28, R41, R51, R78: a step at which a quarter issues passes over pads, takes the tiller that the quarter selects, decodes the words at its PC to
the end of the fetch block, and executes the instruction they hold; words that fail a check are the illegal-instruction trap, and a PC at no instruction
start the misaligned-target trap. Pads take no issue slot: they move PCs, and no rotation or skip count. Then what follows of itself happens. -/
def Obligations.StepRunsDecodedInstruction : Prop :=
  (∀ (s t : State) (dt q : Nat) (more : List (Nat × Move)) (x : Ex) (e : IBlk) (i : Instr) (n : Nat), s.powered = true → s.agenda = (dt, .issue q) :: more →
    ((movedOn s dt more).passPads q).select q = some t → standsAt t x e → x.t.pc % 4 = 0 → x.t.pc % 32 / 4 ∈ starts 8 0 e.words →
    decodeWords (e.words.drop (x.t.pc % 32 / 4)) = .ok (i, n) → step s = (match exec i t with | .next u => .next u.settle | r => r)) ∧
  (∀ (s t : State) (dt q : Nat) (more : List (Nat × Move)) (x : Ex) (e : IBlk) (n : Nat), s.powered = true → s.agenda = (dt, .issue q) :: more →
    ((movedOn s dt more).passPads q).select q = some t → x.able = true → standsAt t x e → x.t.pc % 4 = 0 → x.t.pc % 32 / 4 ∈ starts 8 0 e.words →
    decodeWords (e.words.drop (x.t.pc % 32 / 4)) = .error n → step s = .next (x.trapped 1 n (t.wordsAt x.b.slice x.b.core x.b.vd x.t.pc)).settle) ∧
  (∀ (s t : State) (dt q : Nat) (more : List (Nat × Move)) (x : Ex) (e : IBlk), s.powered = true → s.agenda = (dt, .issue q) :: more →
    ((movedOn s dt more).passPads q).select q = some t → x.able = true → standsAt t x e → x.t.pc % 4 ≠ 0 ∨ x.t.pc % 32 / 4 ∉ starts 8 0 e.words →
    step s = .next (x.trapped 4 x.t.pc (t.wordsAt x.b.slice x.b.core x.b.vd x.t.pc)).settle) ∧
  (∀ (s : State) (dt : Nat) (i : Instr) (more : List (Nat × Move)), s.powered = true → s.agenda = (dt, .ev i) :: more → isEvent i = true →
    step s = (match exec i (movedOn s dt more) with | .next u => .next u.settle | r => r)) ∧
  (∀ (s : State) (dt q : Nat) (more : List (Nat × Move)), s.powered = true → s.agenda = (dt, .issue q) :: more → ((movedOn s dt more).passPads q).select q = none →
    step s = .next ((movedOn s dt more).passPads q).settle) ∧
  (∀ (s : State) (dt line n : Nat) (more : List (Nat × Move)), s.powered = true → s.agenda = (dt, .upset line n) :: more → step s = .next ((movedOn s dt more).upset line n).settle) ∧
  (∀ (s : State) (dt code tag : Nat) (src : Option Nat) (more : List (Nat × Move)), s.powered = true → s.agenda = (dt, .record src code tag) :: more →
    step s = .next ((movedOn s dt more).recordIn src code tag).settle) ∧
  (∀ (s : State) (q : Nat), (s.tilPool q State.tilPad = [] → s.passPads q = s) ∧ (s.passPads q).mem = s.mem ∧ (s.passPads q).quarters = s.quarters ∧
    ∀ y, (s.passPads q).tilAt y = s.tilAt y ∨ ∃ k, (s.passPads q).tilAt y = { s.tilAt y with pc := ((s.tilAt y).pc + 4 * k) % 2 ^ 64 })

/-- Every step gives a next state: no instruction, no operand and no event stops the machine. -/
def Obligations.StepNeverStops : Prop := ∀ s : State, SafeAt s

/-- Memory keeps its canonical form, whatever the step does. -/
def Obligations.MemoryKeepsForm : Prop := ∀ s t : State, s.mem.wf = true → step s = .next t → t.mem.wf = true

/-- R79, R316, R332, R349, R369, R374, R417: the machine after reset. Memory lists nothing and keeps its form; no block, launch or partition is there; step 1 of
the power-on sequence is under way; the registers of every slice, and the rotation of every quarter, hold the values that the rules give for reset. -/
def Obligations.ResetState : Prop :=
  State.reset.mem.wf = true ∧ State.reset.mem = [] ∧ State.reset.blocks = [] ∧ State.reset.launches = [] ∧ State.reset.parts = [] ∧ State.reset.bootStep = 1 ∧
  ∀ k, (State.reset.quarter k).lastPos = 7 ∧ (State.reset.fwOf k).word = 2 ^ 29 ∧
    let x := State.reset.slice k
    x.roten = true ∧ x.lockmb = 12 ∧ x.thresh = 16 ∧ x.saveBase = 0 ∧ x.saveSize = 0 ∧ x.srIdle = 1000 ∧ x.pdIdle = 256 ∧
      x.netCC = 400 * 2 ^ 48 + 16 * 2 ^ 40 + 10 * 2 ^ 16 + 1000 ∧ x.shi = 200 ∧ x.slo = 96 ∧ x.kmax = 40 ∧ x.kmin = 0

/-! ### What is counted and what is recorded (R401 to R403, R407 to R410) -/

namespace Sys2Proof.Claims

/-- The counter sets of every slice are those of another machine. -/
def countersAs (t u : State) : Prop := ∀ k, (t.slice k).csets = (u.slice k).csets

/-- A request's granule is already asked for by an earlier request of its core or block (R131). -/
def askedAhead (s : State) (id : Nat) (r : Req) : Prop := ∃ q ∈ s.reqs, q.1 < id ∧ q.2.slice = r.slice ∧ (q.2.core = r.core ∨ q.2.b = r.b) ∧ q.2.gran = r.gran

/-- The tiller's block is in record or in replay mode, by the entry that the engine holds (R390). -/
def recording (x : Ex) (stream : Nat) : Prop := ∃ e, tget (x.s.slice x.b.slice).trc x.b.vd = some e ∧ e.recm = true ∧ e.rstream = stream
def replaying (x : Ex) (stream : Nat) : Prop := ∃ e, tget (x.s.slice x.b.slice).trc x.b.vd = some e ∧ e.recm = false ∧ e.rpl = true ∧ e.rstream = stream

/-- An entry of a record stream up to its payload (R407). -/
def entryHead (typ slice len key : Nat) : List Byte := toBytes 1 typ ++ toBytes 1 slice ++ toBytes 2 len ++ [0, 0, 0, 0] ++ toBytes 8 key

/-- The key of a recorded read (R407): block, group and the group's count of recorded reads. -/
def readKey (x : Ex) : List Byte := toBytes 4 x.b.idx ++ toBytes 1 x.c.g ++ toBytes 3 x.g.recCnt

/-- What a read that record mode covers does with the value `v` that it would give (R407 to R410): `done u w` says how the instruction completes with the
value `w` in the machine `u`. Under REC an entry of TYPE 2 is appended, or the tiller waits for room, or the VD stops; under RPL the first entry with its key gives
the value, and none is a divergence. -/
def RecordedRead (i : Instr) (s : State) (x : Ex) (v : Nat) (done : State → Nat → Prop) : Prop :=
  let sl := x.b.slice
  let pid := x.b.pid
  let vd := x.b.vd
  let ends (u : State) (st : TState) : Prop := exec i s = .next { x with s := u, t := { x.t with st := st } }.close
  (∀ st u, recording x st → x.s.rsHeader sl pid vd st = (u, none) → ends (u.stopVd sl pid vd .recordStream) .ready) ∧
  (∀ st u lg head tail, recording x st → x.s.rsHeader sl pid vd st = (u, some (lg, head, tail)) →
    (2 ^ lg < tail + 2 - head → ends u (.longWait .recRoom)) ∧
    (∀ y w z, tail + 2 - head ≤ 2 ^ lg → u.vmWrite sl pid vd (st + 64 + 16 * (tail % 2 ^ lg)) (entryHead 2 sl 16 x.b.launch) = (y, none) →
      y.vmWrite sl pid vd (st + 64 + 16 * ((tail + 1) % 2 ^ lg)) (readKey x ++ toBytes 8 v) = (w, none) →
      w.vmWrite sl pid vd (st + 16) (toBytes 8 (tail + 2)) = (z, none) → done z v) ∧
    (∀ y f, tail + 2 - head ≤ 2 ^ lg → u.vmWrite sl pid vd (st + 64 + 16 * (tail % 2 ^ lg)) (entryHead 2 sl 16 x.b.launch) = (y, some f) →
      ends (y.stopVd sl pid vd .recordStream) .ready)) ∧
  (∀ st u, replaying x st → x.s.rsHeader sl pid vd st = (u, none) → ends (u.stopVd sl pid vd .recordStream) .ready) ∧
  (∀ st u lg head tail, replaying x st → x.s.rsHeader sl pid vd st = (u, some (lg, head, tail)) →
    (tail ≤ head → ends (u.diverge sl pid vd) .ready) ∧
    (∀ h p, head < tail → (u.vmRead sl pid vd (st + 64 + 16 * (head % 2 ^ lg)) 16).2 = .ok h → fieldAt h 0 1 = 2 → fieldAt h 2 2 = 16 → fieldAt h 8 8 = x.b.launch →
      (u.vmRead sl pid vd (st + 64 + 16 * ((head + 1) % 2 ^ lg)) 16).2 = .ok p → p.take 8 = readKey x → done u (fieldAt p 8 8)) ∧
    (∀ h, tail = head + 1 → (u.vmRead sl pid vd (st + 64 + 16 * (head % 2 ^ lg)) 16).2 = .ok h → fieldAt h 0 1 ≠ 2 ∨ fieldAt h 8 8 ≠ x.b.launch → ends (u.diverge sl pid vd) .ready))

end Sys2Proof.Claims

/-- R401 to R403, R407 to R410: how a counter advances and what each event is charged to; packets, copies, matrix operations, pre-emptions, swap-outs and rotations
are counted as the statements about them say. The reads that record mode covers, under REC and RPL, and the order of inbound packets. That a read is matched by its key
wherever its entry stands, and what of the inbound writes is recorded and when a packet diverges, is the model's reading (notes/assumptions/113.md). -/
def Obligations.CountersAndRecords : Prop :=
  (∀ (s : State) slice vd ev n, (tget s.slices slice).isSome →
    ∃ x, SliceBecomes s (s.count slice vd ev n) slice x ∧ x = { s.slice slice with csets := x.csets } ∧
      ∀ k c, tget (s.slice slice).csets k = some c → ∃ c', tget x.csets k = some c' ∧ c' = { c with ctr := c'.ctr } ∧
        (c.vd ≠ some vd ∨ c.frz → c' = c) ∧
        (c.vd = some vd → c.frz = false → ∀ i, i < 8 → c'.ctr.getD i 0 =
          if (c.sel.getD i 0).testBit 16 ∧ c.sel.getD i 0 % 2 ^ 16 = ev ∧ c.off.testBit i = false then (c.ctr.getD i 0 + n) % 2 ^ 64 else c.ctr.getD i 0)) ∧
  (∀ i s x, (∃ h, i = .nop h) ∨ (∃ o, i = .sadd o) ∨ (∃ o, i = .iadd o) ∨ (∃ o, i = .ffma o) → Issues i s x →
    ∃ t, exec i s = .next t ∧ t.slices = (s.count x.b.slice x.b.vd 0x001 1).slices) ∧
  (∀ s t, exec .pad s = .next t → t.slices = s.slices) ∧
  (∀ (s : State) home pid vd tag gran sla (k : Traf),
    let t := s.touch home pid vd tag gran sla k
    let hit := ∃ y ∈ (s.slice home).scache, y.vd = tag ∧ y.gran = gran ∧ y.near = none
    let miss := if k.full then s.count home vd 0x006 1 else (s.count home vd 0x006 1).count home vd 0x008 1
    let full := ∃ ways first, s.allocWays home pid vd k = some (ways, first) ∧ ∀ w ∈ ways, ∃ y ∈ (s.slice home).scache, y.bank = bankSet (gran * 128) ∧ y.way = w
    t.mem = s.mem ∧ (hit → countersAs t (s.count home vd 0x005 1)) ∧ (¬hit → full → countersAs t (miss.count home vd 0x007 1)) ∧ (¬hit → ¬full → countersAs t miss)) ∧
  (∀ s id r fr, tget s.reqs id = some r → r.st = .atHome → r.num = none → s.first id r Req.before → s.frameFind r.home (vdTag r.vd (r.gran * 128)) (r.gran * 128) = some fr →
    fr.agrees r.home r.cache r.acc → s.stampMet r.home r.stamp → s.homeDown r.home r.pid (fr.pa + r.gran * 128 % (if fr.big then 2 ^ 21 else 4096)) = false →
    (∀ o ∈ r.lanes, o.op = .read) → r.lanes ≠ [] →
    let sla := fr.sla + r.gran * 128 % (if fr.big then 2 ^ 21 else 4096)
    ∃ t, exec (.homeRequestArrival id) s = .next t ∧ countersAs t (s.touch r.home r.pid r.vd (vdTag r.vd (r.gran * 128)) r.gran sla r.traf)) ∧
  (∀ (s : State) id (r : Req) (e : TlbE), r.pref = none →
    let asks := r.reads ∧ e.cache ≠ 0
    let held := r.ordered = false ∧ ¬askedAhead s id r ∧ (s.l1Find r.slice r.core (vdTag r.vd (r.gran * 128)) r.gran).isSome
    (asks → ¬held → (s.routeGo id r e).slices = (s.count r.slice r.vd 0x004 1).slices) ∧ (¬asks ∨ held → (s.routeGo id r e).slices = s.slices)) ∧
  (∀ (s : State) id (r : Req) first, s.tlbFind r.slice r.core r.b r.vd (r.gran * 128) = none →
    let w : Walk := { slice := r.slice, pid := r.pid, vd := r.vd, va := r.gran * 128, acc := r.acc, what := .tlb r.b r.core }
    let u := if first then s.count r.slice r.vd 0x009 1 else s
    let walked := ∃ e ∈ s.walks, e.2.slice = w.slice ∧ e.2.pid = w.pid ∧ e.2.vd = w.vd ∧ e.2.va / 4096 = w.va / 4096 ∧ e.2.acc = w.acc ∧ e.2.what = w.what
    (walked → (s.startReq id r first).slices = u.slices) ∧ (¬walked → (s.startReq id r first).slices = (u.count r.slice r.vd 0x00A 1).slices)) ∧
  (∀ s id k b u, movesAll s id k b u → k.arv = none →
    ∃ t, exec (.copyDone id) s = .next t ∧ countersAs t (u.count b.slice b.vd 0x003 ((k.total * k.unit + 127) / 128 - (k.next * k.unit + 127) / 128))) ∧
  (∀ h d a s x, Issues (.cstat h (.st d a)) s x → x.guard h ≠ 0 →
    RecordedRead (.cstat h (.st d a)) s x (x.statWord ((x.g.sget a.val).toNat % 2 ^ 32)) fun u w => Ends (.cstat h (.st d a)) s { readCounted x with
      s := u, g := (readCounted x).g.sset d.val (BitVec.ofNat 64 w), t := nextT (.cstat h (.st d a)) x }) ∧
  (∀ h d s x, Issues (.flgrd h false d) s x → x.guard h ≠ 0 →
    RecordedRead (.flgrd h false d) s x x.g.flags fun u w => Posts (.flgrd h false d) s { readCounted x with s := u } [.s d.val (BitVec.ofNat 64 w)] 0) ∧
  (∀ h d r s x v, Issues (.srd h d r) s x → x.guard h ≠ 0 → (r, v) ∈ [(SpReg.time, x.s.now % 2 ^ 64), (.tile, x.b.core / 2), (.core, x.b.core)] →
    RecordedRead (.srd h d r) s x v fun u w => Posts (.srd h d r) s { readCounted x with s := u } [.s d.val (BitVec.ofNat 64 w)] 0) ∧
  (∀ h d s x, Issues (.mstat h d) s x → x.b.isTile → x.guard h ≠ 0 →
    RecordedRead (.mstat h d) s x x.b.mstat fun u w => Ends (.mstat h d) s { readCounted x with
      s := u, g := (readCounted x).g.sset d.val (BitVec.ofNat 64 w), t := nextT (.mstat h d) x }) ∧
  (∀ h d a b off s x e, Issues (.launch h d a b off) s x → x.guard h ≠ 0 → tget (x.s.slice x.b.slice).trc x.b.vd = some e → e.rpl = true →
    RecordedRead (.launch h d a b off) s x 0 fun u w => Ends (.launch h d a b off) s { readCounted x with
      s := u, g := { (readCounted x).g.sset d.val (BitVec.ofNat 64 w) with flash := { x.g.flash with dirty := true } }, t := nextT (.launch h d a b off) x }) ∧
  (∀ (s : State) slice pid vd ev, (vd ∈ (s.slice slice).vdStop → s.stopVd slice pid vd ev = s ∧ s.diverge slice pid vd = s) ∧
    (vd ∉ (s.slice slice).vdStop → (tget s.slices slice).isSome →
      (∃ t, s.stopVd slice pid vd ev = t ∧ (t.slice slice).vdStop = vd :: (s.slice slice).vdStop ∧ t.mem = s.mem ∧ t.blocks = s.blocks ∧
        ∃ v ∈ t.events, v.pid = some pid ∧ v.kind = ev ∧ v.slice = slice ∧ v.arg = vd) ∧
      ∃ t, s.diverge slice pid vd = t ∧ (t.slice slice).vdStop = vd :: (s.slice slice).vdStop ∧ (t.slice slice).trcDiv = ((s.slice slice).trcDiv + 1) % 2 ^ 16 ∧
        ∃ v ∈ t.events, v.pid = some pid ∧ v.kind = .divergence ∧ v.slice = slice ∧ v.arg = vd)) ∧
  (∀ (s : State) slice pid peer (e : Peer) (p : GPkt) k, tget (s.slice slice).trc e.lvd = some k → (p.typ ≠ 1 ∧ p.typ ≠ 4 ∧ p.typ ≠ 6 ∧ p.typ ≠ 7) ∨ (k.recm = false ∧ k.rpl = false) →
    s.inOrder slice pid peer e p = (s, true)) ∧
  (∀ (s : State) slice pid peer (e : Peer) (p : GPkt) k u lg head tail, tget (s.slice slice).trc e.lvd = some k → k.recm = true → p.typ = 4 ∨ p.typ = 6 ∨ p.typ = 7 →
    s.rsHeader slice pid e.lvd k.rstream = (u, some (lg, head, tail)) →
    (2 ^ lg < tail + 2 - head → s.inOrder slice pid peer e p = (u, false)) ∧
    (∀ y w z, tail + 2 - head ≤ 2 ^ lg → u.vmWrite slice pid e.lvd (k.rstream + 64 + 16 * (tail % 2 ^ lg)) (entryHead 3 slice 16 (peer + p.sslice * 1024)) = (y, none) →
      y.vmWrite slice pid e.lvd (k.rstream + 64 + 16 * ((tail + 1) % 2 ^ lg)) (toBytes 4 p.psn ++ toBytes 4 p.msg ++ toBytes 8 0) = (w, none) →
      w.vmWrite slice pid e.lvd (k.rstream + 16) (toBytes 8 (tail + 2)) = (z, none) → s.inOrder slice pid peer e p = (z, true))) ∧
  (∀ (s : State) slice pid peer (e : Peer) (p : GPkt) k, tget (s.slice slice).trc e.lvd = some k → k.recm = true → p.typ = 1 →
    (∀ w ∈ (s.slice slice).wrSeen, w.vd = e.lvd → w.va + w.len ≤ p.va ∨ p.va + p.len ≤ w.va) → (tget s.slices slice).isSome →
    ∃ t, s.inOrder slice pid peer e p = (t, true) ∧ t.mem = s.mem) ∧
  ∀ (s : State) slice pid peer (e : Peer) (p : GPkt) k u lg head tail h b, tget (s.slice slice).trc e.lvd = some k → k.recm = false → k.rpl = true →
    p.typ = 4 ∨ p.typ = 6 ∨ p.typ = 7 → (tget s.slices slice).isSome →
    s.rsHeader slice pid e.lvd k.rstream = (u, some (lg, head, tail)) → tail = head + 2 → cwf 0 (u.slice slice).rplPos → cget 0 (u.slice slice).rplPos e.lvd = 0 →
    (u.vmRead slice pid e.lvd (k.rstream + 64 + 16 * (head % 2 ^ lg)) 16).2 = .ok h → (u.vmRead slice pid e.lvd (k.rstream + 64 + 16 * ((head + 1) % 2 ^ lg)) 16).2 = .ok b →
    fieldAt h 0 1 = 3 → fieldAt h 2 2 = 16 →
    let mine := fieldAt h 8 8 = peer + p.sslice * 1024 ∧ b = toBytes 4 p.psn ++ toBytes 4 p.msg ++ toBytes 8 0
    (mine → ∃ t, s.inOrder slice pid peer e p = (t, true) ∧ t.mem = u.mem ∧ cget 0 (t.slice slice).rplPos e.lvd = 1) ∧ (¬mine → s.inOrder slice pid peer e p = (u.diverge slice pid e.lvd, false))
end

