-- ==== Sys2Proof/Laws/Cells.lean ====
section
/-!
SUPPORT. Sparse storage: every operation keeps the canonical form, a read after a write gives the value written, and a write leaves every
other key alone.
-/
namespace Sys2Proof.Machine

variable {α : Type}

/-! ### The canonical form is kept -/

theorem cwfFrom_mono [DecidableEq α] {d : α} {lo lo' : Nat} {l : Cells α} (h : lo' ≤ lo) (w : cwfFrom d lo l = true) :
    cwfFrom d lo' l = true := by
  cases l with
  | nil => rfl
  | cons e t =>
    obtain ⟨a, v⟩ := e
    simp only [cwfFrom, Bool.and_eq_true, decide_eq_true_eq] at w ⊢
    exact ⟨⟨by omega, w.1.2⟩, w.2⟩

theorem cput_wf [DecidableEq α] {d : α} {v : α} (hv : v ≠ d) :
    ∀ {lo : Nat} {l : Cells α} {k : Nat}, lo ≤ k → cwfFrom d lo l = true → cwfFrom d lo (cput l k v) = true
  | lo, [], k, hk, _ => by simp [cput, cwfFrom, hk, hv]
  | lo, (a, w) :: t, k, hk, h => by
    simp only [cwfFrom, Bool.and_eq_true, decide_eq_true_eq] at h
    unfold cput
    split
    · simp [cwfFrom, hk, hv, h.1.2, h.2]; omega
    · split
      · subst k; simp [cwfFrom, hk, hv, h.2]
      · simp only [cwfFrom, Bool.and_eq_true, decide_eq_true_eq]
        exact ⟨h.1, cput_wf hv (by omega) h.2⟩

theorem cdel_wf [DecidableEq α] {d : α} :
    ∀ {lo : Nat} {l : Cells α} (k : Nat), cwfFrom d lo l = true → cwfFrom d lo (cdel l k) = true
  | _, [], _, _ => rfl
  | lo, (a, w) :: t, k, h => by
    have h' := h
    simp only [cwfFrom, Bool.and_eq_true, decide_eq_true_eq] at h'
    unfold cdel
    split
    · exact h
    · split
      · exact cwfFrom_mono (by omega) h'.2
      · simp only [cwfFrom, Bool.and_eq_true, decide_eq_true_eq]
        exact ⟨h'.1, cdel_wf k h'.2⟩

theorem cset_wf [DecidableEq α] {d : α} {l : Cells α} (k : Nat) (v : α) (h : cwf d l = true) : cwf d (cset d l k v) = true := by
  unfold cset
  split
  · exact cdel_wf k h
  · exact cput_wf ‹_› (Nat.zero_le _) h

theorem csets_wf [DecidableEq α] {d : α} :
    ∀ {l : Cells α} (k : Nat) (vs : List α), cwf d l = true → cwf d (csets d l k vs) = true
  | _, _, [], h => h
  | _, k, v :: t, h => csets_wf (k + 1) t (cset_wf k v h)

theorem cfilter_wf [DecidableEq α] {d : α} (p : Nat → Bool) :
    ∀ {lo : Nat} {l : Cells α}, cwfFrom d lo l = true → cwfFrom d lo (cfilter p l) = true
  | _, [], _ => rfl
  | lo, (a, w) :: t, h => by
    simp only [cwfFrom, Bool.and_eq_true, decide_eq_true_eq] at h
    have ih := cfilter_wf p h.2
    by_cases hp : p a = true
    · have : cfilter p ((a, w) :: t) = (a, w) :: cfilter p t := by simp [cfilter, hp]
      rw [this]; simp only [cwfFrom, Bool.and_eq_true, decide_eq_true_eq]; exact ⟨h.1, ih⟩
    · have : cfilter p ((a, w) :: t) = cfilter p t := by simp [cfilter, hp]
      rw [this]; exact cwfFrom_mono (by omega) ih

/-- A fold of writes keeps the form. -/
theorem foldl_wf [DecidableEq α] {β : Type} {d : α} (f : Cells α → β → Cells α) (hf : ∀ l b, cwf d l = true → cwf d (f l b) = true) :
    ∀ (bs : List β) {l : Cells α}, cwf d l = true → cwf d (bs.foldl f l) = true
  | [], _, h => h
  | b :: t, l, h => foldl_wf f hf t (hf l b h)

/-! ### Reads -/

/-- A key below every key reads as the default. -/
theorem cget_below [DecidableEq α] {d : α} {lo : Nat} {l : Cells α} (h : cwfFrom d lo l = true) {k : Nat} (hk : k < lo) : cget d l k = d := by
  cases l with
  | nil => rfl
  | cons e t =>
    obtain ⟨a, v⟩ := e
    simp only [cwfFrom, Bool.and_eq_true, decide_eq_true_eq] at h
    have h1 : k ≠ a := by omega
    have h2 : k < a := by omega
    simp [cget, h1, h2]

theorem cget_cput_same {d : α} : ∀ (l : Cells α) (k : Nat) (v : α), cget d (cput l k v) k = v
  | [], k, v => by simp [cput, cget]
  | (a, w) :: t, k, v => by
    unfold cput
    split
    · simp [cget]
    · split
      · simp [cget]
      · simp [cget, *, cget_cput_same t k v]

theorem cget_cput_other {d : α} : ∀ (l : Cells α) {k j : Nat} (v : α), j ≠ k → cget d (cput l k v) j = cget d l j
  | [], k, j, v, h => by simp [cput, cget, h]
  | (a, w) :: t, k, j, v, h => by
    unfold cput
    split
    · simp only [cget]; split_ifs <;> first | rfl | omega
    · split
      · subst k; simp only [cget]; split_ifs <;> first | rfl | contradiction
      · simp only [cget]; rw [cget_cput_other t v h]

theorem cget_cdel_same [DecidableEq α] {d : α} :
    ∀ {lo : Nat} {l : Cells α} (k : Nat), cwfFrom d lo l = true → cget d (cdel l k) k = d
  | _, [], _, _ => rfl
  | _, (a, w) :: t, k, h => by
    simp only [cwfFrom, Bool.and_eq_true, decide_eq_true_eq] at h
    unfold cdel
    split
    · have h1 : k ≠ a := by omega
      simp_all [cget]
    · split
      · exact cget_below h.2 (by omega)
      · simp [cget, *, cget_cdel_same k h.2]

theorem cget_cdel_other [DecidableEq α] {d : α} :
    ∀ {lo : Nat} {l : Cells α} {k j : Nat}, cwfFrom d lo l = true → j ≠ k → cget d (cdel l k) j = cget d l j
  | _, [], _, _, _, _ => rfl
  | _, (a, w) :: t, k, j, h, hj => by
    simp only [cwfFrom, Bool.and_eq_true, decide_eq_true_eq] at h
    unfold cdel
    split
    · rfl
    · split
      · subst k
        simp only [cget, hj, if_false]
        split
        · exact cget_below h.2 (by omega)
        · rfl
      · simp only [cget]; rw [cget_cdel_other h.2 hj]

/-- A read after a write to the same key gives the value written. -/
theorem cget_cset_same [DecidableEq α] {d : α} {l : Cells α} (k : Nat) (v : α) (h : cwf d l = true) : cget d (cset d l k v) k = v := by
  unfold cset
  split
  · subst v; exact cget_cdel_same k h
  · exact cget_cput_same l k v

/-- A write leaves every other key alone. -/
theorem cget_cset_other [DecidableEq α] {d : α} {l : Cells α} {k j : Nat} (v : α) (h : cwf d l = true) (hj : j ≠ k) :
    cget d (cset d l k v) j = cget d l j := by
  unfold cset
  split
  · exact cget_cdel_other h hj
  · exact cget_cput_other l v hj

/-- Consecutive writes leave the keys outside them alone. -/
theorem cget_csets_other [DecidableEq α] {d : α} : ∀ {l : Cells α} {k j : Nat} (vs : List α), cwf d l = true →
    j < k ∨ k + vs.length ≤ j → cget d (csets d l k vs) j = cget d l j
  | _, _, _, [], _, _ => rfl
  | l, k, j, v :: t, h, hj => by
    simp only [List.length_cons] at hj
    rw [csets, cget_csets_other t (cset_wf k v h) (by omega), cget_cset_other v h (by omega)]

/-- Consecutive writes are what is read. -/
theorem cget_csets_in [DecidableEq α] {d : α} : ∀ {l : Cells α} {k : Nat} (vs : List α) (i : Nat) (hi : i < vs.length), cwf d l = true →
    cget d (csets d l k vs) (k + i) = vs[i]
  | l, k, v :: t, 0, _, h => by
    rw [csets, cget_csets_other t (cset_wf k v h) (by omega)]
    exact cget_cset_same k v h
  | l, k, v :: t, i + 1, hi, h => by
    have := cget_csets_in (k := k + 1) t i (by simpa using hi) (cset_wf k v h)
    rw [csets, show k + (i + 1) = k + 1 + i by omega, this]
    rfl

/-- A filter keeps what is read at the keys that it keeps. -/
theorem cget_cfilter [DecidableEq α] {d : α} (p : Nat → Bool) : ∀ {lo : Nat} {l : Cells α} (k : Nat), cwfFrom d lo l = true →
    cget d (cfilter p l) k = if p k then cget d l k else d
  | _, [], k, _ => by simp [cfilter, cget]
  | lo, (a, w) :: t, k, h => by
    simp only [cwfFrom, Bool.and_eq_true, decide_eq_true_eq] at h
    have ih := cget_cfilter p k h.2
    by_cases hp : p a = true
    · have e : cfilter p ((a, w) :: t) = (a, w) :: cfilter p t := by simp [cfilter, hp]
      rw [e]; simp only [cget, ih]
      split_ifs <;> simp_all
    · have e : cfilter p ((a, w) :: t) = cfilter p t := by simp [cfilter, hp]
      rw [e, ih]; simp only [cget]
      by_cases hk : k = a
      · subst k; simp [hp]
      · by_cases hlt : k < a
        · simp [hk, hlt, cget_below h.2 (show k < a + 1 by omega)]
        · simp [hk, hlt]

/-- Two storages in canonical form that read alike are equal. -/
theorem cells_ext [DecidableEq α] {d : α} : ∀ {lo lo' : Nat} {l m : Cells α}, cwfFrom d lo l = true → cwfFrom d lo' m = true →
    (∀ k, cget d l k = cget d m k) → l = m
  | _, _, [], [], _, _, _ => rfl
  | _, _, [], (a, v) :: t, _, h, e => by
    simp only [cwfFrom, Bool.and_eq_true, decide_eq_true_eq] at h
    have := e a; simp [cget] at this; exact absurd this.symm h.1.2
  | _, _, (a, v) :: t, [], h, _, e => by
    simp only [cwfFrom, Bool.and_eq_true, decide_eq_true_eq] at h
    have := e a; simp [cget] at this; exact absurd this h.1.2
  | lo, lo', (a, v) :: t, (b, w) :: u, h, g, e => by
    have hl := h; have hg := g
    simp only [cwfFrom, Bool.and_eq_true, decide_eq_true_eq] at hl hg
    have hab : a = b := by
      by_contra hne
      rcases Nat.lt_or_gt_of_ne hne with hlt | hlt
      · have := e a; simp only [cget, if_true, hne, if_false, hlt] at this; exact hl.1.2 this
      · have := e b; simp only [cget, if_true, Ne.symm hne, if_false, hlt] at this; exact hg.1.2 this.symm
    subst hab
    have hv : v = w := by have := e a; simpa [cget] using this
    subst hv
    congr 1
    refine cells_ext hl.2 hg.2 fun k => ?_
    rcases Nat.lt_or_ge a k with hk | hk
    · have := e k; simpa [cget, show k ≠ a by omega, show ¬ k < a by omega] using this
    · rw [cget_below hl.2 (by omega), cget_below hg.2 (by omega)]

end Sys2Proof.Machine
end

