-- ==== Sys2Proof/Laws/State.lean ====
section
/-!
SUPPORT. What each update of the state does to each field: one lemma per field and update, true by definition. Then the fields of a group under
a register write, and of the executing tiller under `close`.
-/
namespace Sys2Proof.Machine

/-! ### State.modSlice -/

@[simp] theorem State.modSlice_part (s : State) (k : Nat) (f : Slice → Slice) : (s.modSlice k f).part = s.part := rfl
@[simp] theorem State.modSlice_powered (s : State) (k : Nat) (f : Slice → Slice) : (s.modSlice k f).powered = s.powered := rfl
@[simp] theorem State.modSlice_now (s : State) (k : Nat) (f : Slice → Slice) : (s.modSlice k f).now = s.now := rfl
@[simp] theorem State.modSlice_free (s : State) (k : Nat) (f : Slice → Slice) : (s.modSlice k f).free = s.free := rfl
@[simp] theorem State.modSlice_bootStep (s : State) (k : Nat) (f : Slice → Slice) : (s.modSlice k f).bootStep = s.bootStep := rfl
@[simp] theorem State.modSlice_fuses (s : State) (k : Nat) (f : Slice → Slice) : (s.modSlice k f).fuses = s.fuses := rfl
@[simp] theorem State.modSlice_tested (s : State) (k : Nat) (f : Slice → Slice) : (s.modSlice k f).tested = s.tested := rfl
@[simp] theorem State.modSlice_fwSet (s : State) (k : Nat) (f : Slice → Slice) : (s.modSlice k f).fwSet = s.fwSet := rfl
@[simp] theorem State.modSlice_images (s : State) (k : Nat) (f : Slice → Slice) : (s.modSlice k f).images = s.images := rfl
@[simp] theorem State.modSlice_resps (s : State) (k : Nat) (f : Slice → Slice) : (s.modSlice k f).resps = s.resps := rfl
@[simp] theorem State.modSlice_rails (s : State) (k : Nat) (f : Slice → Slice) : (s.modSlice k f).rails = s.rails := rfl
@[simp] theorem State.modSlice_harts (s : State) (k : Nat) (f : Slice → Slice) : (s.modSlice k f).harts = s.harts := rfl
@[simp] theorem State.modSlice_conns (s : State) (k : Nat) (f : Slice → Slice) : (s.modSlice k f).conns = s.conns := rfl
@[simp] theorem State.modSlice_rcvs (s : State) (k : Nat) (f : Slice → Slice) : (s.modSlice k f).rcvs = s.rcvs := rfl
@[simp] theorem State.modSlice_wire (s : State) (k : Nat) (f : Slice → Slice) : (s.modSlice k f).wire = s.wire := rfl
@[simp] theorem State.modSlice_frames (s : State) (k : Nat) (f : Slice → Slice) : (s.modSlice k f).frames = s.frames := rfl
@[simp] theorem State.modSlice_agenda (s : State) (k : Nat) (f : Slice → Slice) : (s.modSlice k f).agenda = s.agenda := rfl
@[simp] theorem State.modSlice_cur (s : State) (k : Nat) (f : Slice → Slice) : (s.modSlice k f).cur = s.cur := rfl
@[simp] theorem State.modSlice_nextId (s : State) (k : Nat) (f : Slice → Slice) : (s.modSlice k f).nextId = s.nextId := rfl
@[simp] theorem State.modSlice_slices (s : State) (k : Nat) (f : Slice → Slice) : (s.modSlice k f).slices = tmod s.slices k f := rfl
@[simp] theorem State.modSlice_cores (s : State) (k : Nat) (f : Slice → Slice) : (s.modSlice k f).cores = s.cores := rfl
@[simp] theorem State.modSlice_quarters (s : State) (k : Nat) (f : Slice → Slice) : (s.modSlice k f).quarters = s.quarters := rfl
@[simp] theorem State.modSlice_parts (s : State) (k : Nat) (f : Slice → Slice) : (s.modSlice k f).parts = s.parts := rfl
@[simp] theorem State.modSlice_blocks (s : State) (k : Nat) (f : Slice → Slice) : (s.modSlice k f).blocks = s.blocks := rfl
@[simp] theorem State.modSlice_mem (s : State) (k : Nat) (f : Slice → Slice) : (s.modSlice k f).mem = s.mem := rfl
@[simp] theorem State.modSlice_errs (s : State) (k : Nat) (f : Slice → Slice) : (s.modSlice k f).errs = s.errs := rfl
@[simp] theorem State.modSlice_poison (s : State) (k : Nat) (f : Slice → Slice) : (s.modSlice k f).poison = s.poison := rfl
@[simp] theorem State.modSlice_lineKey (s : State) (k : Nat) (f : Slice → Slice) : (s.modSlice k f).lineKey = s.lineKey := rfl
@[simp] theorem State.modSlice_reqs (s : State) (k : Nat) (f : Slice → Slice) : (s.modSlice k f).reqs = s.reqs := rfl
@[simp] theorem State.modSlice_walks (s : State) (k : Nat) (f : Slice → Slice) : (s.modSlice k f).walks = s.walks := rfl
@[simp] theorem State.modSlice_ordq (s : State) (k : Nat) (f : Slice → Slice) : (s.modSlice k f).ordq = s.ordq := rfl
@[simp] theorem State.modSlice_copies (s : State) (k : Nat) (f : Slice → Slice) : (s.modSlice k f).copies = s.copies := rfl
@[simp] theorem State.modSlice_queues (s : State) (k : Nat) (f : Slice → Slice) : (s.modSlice k f).queues = s.queues := rfl
@[simp] theorem State.modSlice_launches (s : State) (k : Nat) (f : Slice → Slice) : (s.modSlice k f).launches = s.launches := rfl
@[simp] theorem State.modSlice_cancels (s : State) (k : Nat) (f : Slice → Slice) : (s.modSlice k f).cancels = s.cancels := rfl
@[simp] theorem State.modSlice_rops (s : State) (k : Nat) (f : Slice → Slice) : (s.modSlice k f).rops = s.rops := rfl
@[simp] theorem State.modSlice_msgs (s : State) (k : Nat) (f : Slice → Slice) : (s.modSlice k f).msgs = s.msgs := rfl
@[simp] theorem State.modSlice_reports (s : State) (k : Nat) (f : Slice → Slice) : (s.modSlice k f).reports = s.reports := rfl
@[simp] theorem State.modSlice_perfs (s : State) (k : Nat) (f : Slice → Slice) : (s.modSlice k f).perfs = s.perfs := rfl
@[simp] theorem State.modSlice_stSent (s : State) (k : Nat) (f : Slice → Slice) : (s.modSlice k f).stSent = s.stSent := rfl
@[simp] theorem State.modSlice_stApplied (s : State) (k : Nat) (f : Slice → Slice) : (s.modSlice k f).stApplied = s.stApplied := rfl
@[simp] theorem State.modSlice_stKnown (s : State) (k : Nat) (f : Slice → Slice) : (s.modSlice k f).stKnown = s.stKnown := rfl
@[simp] theorem State.modSlice_stSkip (s : State) (k : Nat) (f : Slice → Slice) : (s.modSlice k f).stSkip = s.stSkip := rfl
@[simp] theorem State.modSlice_late (s : State) (k : Nat) (f : Slice → Slice) : (s.modSlice k f).late = s.late := rfl
@[simp] theorem State.modSlice_fw (s : State) (k : Nat) (f : Slice → Slice) : (s.modSlice k f).fw = s.fw := rfl
@[simp] theorem State.modSlice_routes (s : State) (k : Nat) (f : Slice → Slice) : (s.modSlice k f).routes = s.routes := rfl
@[simp] theorem State.modSlice_irqs (s : State) (k : Nat) (f : Slice → Slice) : (s.modSlice k f).irqs = s.irqs := rfl
@[simp] theorem State.modSlice_msix (s : State) (k : Nat) (f : Slice → Slice) : (s.modSlice k f).msix = s.msix := rfl
@[simp] theorem State.modSlice_msiLost (s : State) (k : Nat) (f : Slice → Slice) : (s.modSlice k f).msiLost = s.msiLost := rfl
@[simp] theorem State.modSlice_events (s : State) (k : Nat) (f : Slice → Slice) : (s.modSlice k f).events = s.events := rfl
@[simp] theorem State.modSlice_notices (s : State) (k : Nat) (f : Slice → Slice) : (s.modSlice k f).notices = s.notices := rfl
@[simp] theorem State.modSlice_doors (s : State) (k : Nat) (f : Slice → Slice) : (s.modSlice k f).doors = s.doors := rfl
@[simp] theorem State.modSlice_jobs (s : State) (k : Nat) (f : Slice → Slice) : (s.modSlice k f).jobs = s.jobs := rfl
@[simp] theorem State.modSlice_sprog (s : State) (k : Nat) (f : Slice → Slice) : (s.modSlice k f).sprog = s.sprog := rfl
@[simp] theorem State.modSlice_migrating (s : State) (k : Nat) (f : Slice → Slice) : (s.modSlice k f).migrating = s.migrating := rfl

/-! ### State.modCore -/

@[simp] theorem State.modCore_part (s : State) (k : Nat) (f : CoreSt → CoreSt) : (s.modCore k f).part = s.part := rfl
@[simp] theorem State.modCore_powered (s : State) (k : Nat) (f : CoreSt → CoreSt) : (s.modCore k f).powered = s.powered := rfl
@[simp] theorem State.modCore_now (s : State) (k : Nat) (f : CoreSt → CoreSt) : (s.modCore k f).now = s.now := rfl
@[simp] theorem State.modCore_free (s : State) (k : Nat) (f : CoreSt → CoreSt) : (s.modCore k f).free = s.free := rfl
@[simp] theorem State.modCore_bootStep (s : State) (k : Nat) (f : CoreSt → CoreSt) : (s.modCore k f).bootStep = s.bootStep := rfl
@[simp] theorem State.modCore_fuses (s : State) (k : Nat) (f : CoreSt → CoreSt) : (s.modCore k f).fuses = s.fuses := rfl
@[simp] theorem State.modCore_tested (s : State) (k : Nat) (f : CoreSt → CoreSt) : (s.modCore k f).tested = s.tested := rfl
@[simp] theorem State.modCore_fwSet (s : State) (k : Nat) (f : CoreSt → CoreSt) : (s.modCore k f).fwSet = s.fwSet := rfl
@[simp] theorem State.modCore_images (s : State) (k : Nat) (f : CoreSt → CoreSt) : (s.modCore k f).images = s.images := rfl
@[simp] theorem State.modCore_resps (s : State) (k : Nat) (f : CoreSt → CoreSt) : (s.modCore k f).resps = s.resps := rfl
@[simp] theorem State.modCore_rails (s : State) (k : Nat) (f : CoreSt → CoreSt) : (s.modCore k f).rails = s.rails := rfl
@[simp] theorem State.modCore_harts (s : State) (k : Nat) (f : CoreSt → CoreSt) : (s.modCore k f).harts = s.harts := rfl
@[simp] theorem State.modCore_conns (s : State) (k : Nat) (f : CoreSt → CoreSt) : (s.modCore k f).conns = s.conns := rfl
@[simp] theorem State.modCore_rcvs (s : State) (k : Nat) (f : CoreSt → CoreSt) : (s.modCore k f).rcvs = s.rcvs := rfl
@[simp] theorem State.modCore_wire (s : State) (k : Nat) (f : CoreSt → CoreSt) : (s.modCore k f).wire = s.wire := rfl
@[simp] theorem State.modCore_frames (s : State) (k : Nat) (f : CoreSt → CoreSt) : (s.modCore k f).frames = s.frames := rfl
@[simp] theorem State.modCore_agenda (s : State) (k : Nat) (f : CoreSt → CoreSt) : (s.modCore k f).agenda = s.agenda := rfl
@[simp] theorem State.modCore_cur (s : State) (k : Nat) (f : CoreSt → CoreSt) : (s.modCore k f).cur = s.cur := rfl
@[simp] theorem State.modCore_nextId (s : State) (k : Nat) (f : CoreSt → CoreSt) : (s.modCore k f).nextId = s.nextId := rfl
@[simp] theorem State.modCore_slices (s : State) (k : Nat) (f : CoreSt → CoreSt) : (s.modCore k f).slices = s.slices := rfl
@[simp] theorem State.modCore_cores (s : State) (k : Nat) (f : CoreSt → CoreSt) : (s.modCore k f).cores = tmod s.cores k f := rfl
@[simp] theorem State.modCore_quarters (s : State) (k : Nat) (f : CoreSt → CoreSt) : (s.modCore k f).quarters = s.quarters := rfl
@[simp] theorem State.modCore_parts (s : State) (k : Nat) (f : CoreSt → CoreSt) : (s.modCore k f).parts = s.parts := rfl
@[simp] theorem State.modCore_blocks (s : State) (k : Nat) (f : CoreSt → CoreSt) : (s.modCore k f).blocks = s.blocks := rfl
@[simp] theorem State.modCore_mem (s : State) (k : Nat) (f : CoreSt → CoreSt) : (s.modCore k f).mem = s.mem := rfl
@[simp] theorem State.modCore_errs (s : State) (k : Nat) (f : CoreSt → CoreSt) : (s.modCore k f).errs = s.errs := rfl
@[simp] theorem State.modCore_poison (s : State) (k : Nat) (f : CoreSt → CoreSt) : (s.modCore k f).poison = s.poison := rfl
@[simp] theorem State.modCore_lineKey (s : State) (k : Nat) (f : CoreSt → CoreSt) : (s.modCore k f).lineKey = s.lineKey := rfl
@[simp] theorem State.modCore_reqs (s : State) (k : Nat) (f : CoreSt → CoreSt) : (s.modCore k f).reqs = s.reqs := rfl
@[simp] theorem State.modCore_walks (s : State) (k : Nat) (f : CoreSt → CoreSt) : (s.modCore k f).walks = s.walks := rfl
@[simp] theorem State.modCore_ordq (s : State) (k : Nat) (f : CoreSt → CoreSt) : (s.modCore k f).ordq = s.ordq := rfl
@[simp] theorem State.modCore_copies (s : State) (k : Nat) (f : CoreSt → CoreSt) : (s.modCore k f).copies = s.copies := rfl
@[simp] theorem State.modCore_queues (s : State) (k : Nat) (f : CoreSt → CoreSt) : (s.modCore k f).queues = s.queues := rfl
@[simp] theorem State.modCore_launches (s : State) (k : Nat) (f : CoreSt → CoreSt) : (s.modCore k f).launches = s.launches := rfl
@[simp] theorem State.modCore_cancels (s : State) (k : Nat) (f : CoreSt → CoreSt) : (s.modCore k f).cancels = s.cancels := rfl
@[simp] theorem State.modCore_rops (s : State) (k : Nat) (f : CoreSt → CoreSt) : (s.modCore k f).rops = s.rops := rfl
@[simp] theorem State.modCore_msgs (s : State) (k : Nat) (f : CoreSt → CoreSt) : (s.modCore k f).msgs = s.msgs := rfl
@[simp] theorem State.modCore_reports (s : State) (k : Nat) (f : CoreSt → CoreSt) : (s.modCore k f).reports = s.reports := rfl
@[simp] theorem State.modCore_perfs (s : State) (k : Nat) (f : CoreSt → CoreSt) : (s.modCore k f).perfs = s.perfs := rfl
@[simp] theorem State.modCore_stSent (s : State) (k : Nat) (f : CoreSt → CoreSt) : (s.modCore k f).stSent = s.stSent := rfl
@[simp] theorem State.modCore_stApplied (s : State) (k : Nat) (f : CoreSt → CoreSt) : (s.modCore k f).stApplied = s.stApplied := rfl
@[simp] theorem State.modCore_stKnown (s : State) (k : Nat) (f : CoreSt → CoreSt) : (s.modCore k f).stKnown = s.stKnown := rfl
@[simp] theorem State.modCore_stSkip (s : State) (k : Nat) (f : CoreSt → CoreSt) : (s.modCore k f).stSkip = s.stSkip := rfl
@[simp] theorem State.modCore_late (s : State) (k : Nat) (f : CoreSt → CoreSt) : (s.modCore k f).late = s.late := rfl
@[simp] theorem State.modCore_fw (s : State) (k : Nat) (f : CoreSt → CoreSt) : (s.modCore k f).fw = s.fw := rfl
@[simp] theorem State.modCore_routes (s : State) (k : Nat) (f : CoreSt → CoreSt) : (s.modCore k f).routes = s.routes := rfl
@[simp] theorem State.modCore_irqs (s : State) (k : Nat) (f : CoreSt → CoreSt) : (s.modCore k f).irqs = s.irqs := rfl
@[simp] theorem State.modCore_msix (s : State) (k : Nat) (f : CoreSt → CoreSt) : (s.modCore k f).msix = s.msix := rfl
@[simp] theorem State.modCore_msiLost (s : State) (k : Nat) (f : CoreSt → CoreSt) : (s.modCore k f).msiLost = s.msiLost := rfl
@[simp] theorem State.modCore_events (s : State) (k : Nat) (f : CoreSt → CoreSt) : (s.modCore k f).events = s.events := rfl
@[simp] theorem State.modCore_notices (s : State) (k : Nat) (f : CoreSt → CoreSt) : (s.modCore k f).notices = s.notices := rfl
@[simp] theorem State.modCore_doors (s : State) (k : Nat) (f : CoreSt → CoreSt) : (s.modCore k f).doors = s.doors := rfl
@[simp] theorem State.modCore_jobs (s : State) (k : Nat) (f : CoreSt → CoreSt) : (s.modCore k f).jobs = s.jobs := rfl
@[simp] theorem State.modCore_sprog (s : State) (k : Nat) (f : CoreSt → CoreSt) : (s.modCore k f).sprog = s.sprog := rfl
@[simp] theorem State.modCore_migrating (s : State) (k : Nat) (f : CoreSt → CoreSt) : (s.modCore k f).migrating = s.migrating := rfl

/-! ### State.modQuarter -/

@[simp] theorem State.modQuarter_part (s : State) (k : Nat) (f : Quarter → Quarter) : (s.modQuarter k f).part = s.part := rfl
@[simp] theorem State.modQuarter_powered (s : State) (k : Nat) (f : Quarter → Quarter) : (s.modQuarter k f).powered = s.powered := rfl
@[simp] theorem State.modQuarter_now (s : State) (k : Nat) (f : Quarter → Quarter) : (s.modQuarter k f).now = s.now := rfl
@[simp] theorem State.modQuarter_free (s : State) (k : Nat) (f : Quarter → Quarter) : (s.modQuarter k f).free = s.free := rfl
@[simp] theorem State.modQuarter_bootStep (s : State) (k : Nat) (f : Quarter → Quarter) : (s.modQuarter k f).bootStep = s.bootStep := rfl
@[simp] theorem State.modQuarter_fuses (s : State) (k : Nat) (f : Quarter → Quarter) : (s.modQuarter k f).fuses = s.fuses := rfl
@[simp] theorem State.modQuarter_tested (s : State) (k : Nat) (f : Quarter → Quarter) : (s.modQuarter k f).tested = s.tested := rfl
@[simp] theorem State.modQuarter_fwSet (s : State) (k : Nat) (f : Quarter → Quarter) : (s.modQuarter k f).fwSet = s.fwSet := rfl
@[simp] theorem State.modQuarter_images (s : State) (k : Nat) (f : Quarter → Quarter) : (s.modQuarter k f).images = s.images := rfl
@[simp] theorem State.modQuarter_resps (s : State) (k : Nat) (f : Quarter → Quarter) : (s.modQuarter k f).resps = s.resps := rfl
@[simp] theorem State.modQuarter_rails (s : State) (k : Nat) (f : Quarter → Quarter) : (s.modQuarter k f).rails = s.rails := rfl
@[simp] theorem State.modQuarter_harts (s : State) (k : Nat) (f : Quarter → Quarter) : (s.modQuarter k f).harts = s.harts := rfl
@[simp] theorem State.modQuarter_conns (s : State) (k : Nat) (f : Quarter → Quarter) : (s.modQuarter k f).conns = s.conns := rfl
@[simp] theorem State.modQuarter_rcvs (s : State) (k : Nat) (f : Quarter → Quarter) : (s.modQuarter k f).rcvs = s.rcvs := rfl
@[simp] theorem State.modQuarter_wire (s : State) (k : Nat) (f : Quarter → Quarter) : (s.modQuarter k f).wire = s.wire := rfl
@[simp] theorem State.modQuarter_frames (s : State) (k : Nat) (f : Quarter → Quarter) : (s.modQuarter k f).frames = s.frames := rfl
@[simp] theorem State.modQuarter_agenda (s : State) (k : Nat) (f : Quarter → Quarter) : (s.modQuarter k f).agenda = s.agenda := rfl
@[simp] theorem State.modQuarter_cur (s : State) (k : Nat) (f : Quarter → Quarter) : (s.modQuarter k f).cur = s.cur := rfl
@[simp] theorem State.modQuarter_nextId (s : State) (k : Nat) (f : Quarter → Quarter) : (s.modQuarter k f).nextId = s.nextId := rfl
@[simp] theorem State.modQuarter_slices (s : State) (k : Nat) (f : Quarter → Quarter) : (s.modQuarter k f).slices = s.slices := rfl
@[simp] theorem State.modQuarter_cores (s : State) (k : Nat) (f : Quarter → Quarter) : (s.modQuarter k f).cores = s.cores := rfl
@[simp] theorem State.modQuarter_quarters (s : State) (k : Nat) (f : Quarter → Quarter) : (s.modQuarter k f).quarters = tmod s.quarters k f := rfl
@[simp] theorem State.modQuarter_parts (s : State) (k : Nat) (f : Quarter → Quarter) : (s.modQuarter k f).parts = s.parts := rfl
@[simp] theorem State.modQuarter_blocks (s : State) (k : Nat) (f : Quarter → Quarter) : (s.modQuarter k f).blocks = s.blocks := rfl
@[simp] theorem State.modQuarter_mem (s : State) (k : Nat) (f : Quarter → Quarter) : (s.modQuarter k f).mem = s.mem := rfl
@[simp] theorem State.modQuarter_errs (s : State) (k : Nat) (f : Quarter → Quarter) : (s.modQuarter k f).errs = s.errs := rfl
@[simp] theorem State.modQuarter_poison (s : State) (k : Nat) (f : Quarter → Quarter) : (s.modQuarter k f).poison = s.poison := rfl
@[simp] theorem State.modQuarter_lineKey (s : State) (k : Nat) (f : Quarter → Quarter) : (s.modQuarter k f).lineKey = s.lineKey := rfl
@[simp] theorem State.modQuarter_reqs (s : State) (k : Nat) (f : Quarter → Quarter) : (s.modQuarter k f).reqs = s.reqs := rfl
@[simp] theorem State.modQuarter_walks (s : State) (k : Nat) (f : Quarter → Quarter) : (s.modQuarter k f).walks = s.walks := rfl
@[simp] theorem State.modQuarter_ordq (s : State) (k : Nat) (f : Quarter → Quarter) : (s.modQuarter k f).ordq = s.ordq := rfl
@[simp] theorem State.modQuarter_copies (s : State) (k : Nat) (f : Quarter → Quarter) : (s.modQuarter k f).copies = s.copies := rfl
@[simp] theorem State.modQuarter_queues (s : State) (k : Nat) (f : Quarter → Quarter) : (s.modQuarter k f).queues = s.queues := rfl
@[simp] theorem State.modQuarter_launches (s : State) (k : Nat) (f : Quarter → Quarter) : (s.modQuarter k f).launches = s.launches := rfl
@[simp] theorem State.modQuarter_cancels (s : State) (k : Nat) (f : Quarter → Quarter) : (s.modQuarter k f).cancels = s.cancels := rfl
@[simp] theorem State.modQuarter_rops (s : State) (k : Nat) (f : Quarter → Quarter) : (s.modQuarter k f).rops = s.rops := rfl
@[simp] theorem State.modQuarter_msgs (s : State) (k : Nat) (f : Quarter → Quarter) : (s.modQuarter k f).msgs = s.msgs := rfl
@[simp] theorem State.modQuarter_reports (s : State) (k : Nat) (f : Quarter → Quarter) : (s.modQuarter k f).reports = s.reports := rfl
@[simp] theorem State.modQuarter_perfs (s : State) (k : Nat) (f : Quarter → Quarter) : (s.modQuarter k f).perfs = s.perfs := rfl
@[simp] theorem State.modQuarter_stSent (s : State) (k : Nat) (f : Quarter → Quarter) : (s.modQuarter k f).stSent = s.stSent := rfl
@[simp] theorem State.modQuarter_stApplied (s : State) (k : Nat) (f : Quarter → Quarter) : (s.modQuarter k f).stApplied = s.stApplied := rfl
@[simp] theorem State.modQuarter_stKnown (s : State) (k : Nat) (f : Quarter → Quarter) : (s.modQuarter k f).stKnown = s.stKnown := rfl
@[simp] theorem State.modQuarter_stSkip (s : State) (k : Nat) (f : Quarter → Quarter) : (s.modQuarter k f).stSkip = s.stSkip := rfl
@[simp] theorem State.modQuarter_late (s : State) (k : Nat) (f : Quarter → Quarter) : (s.modQuarter k f).late = s.late := rfl
@[simp] theorem State.modQuarter_fw (s : State) (k : Nat) (f : Quarter → Quarter) : (s.modQuarter k f).fw = s.fw := rfl
@[simp] theorem State.modQuarter_routes (s : State) (k : Nat) (f : Quarter → Quarter) : (s.modQuarter k f).routes = s.routes := rfl
@[simp] theorem State.modQuarter_irqs (s : State) (k : Nat) (f : Quarter → Quarter) : (s.modQuarter k f).irqs = s.irqs := rfl
@[simp] theorem State.modQuarter_msix (s : State) (k : Nat) (f : Quarter → Quarter) : (s.modQuarter k f).msix = s.msix := rfl
@[simp] theorem State.modQuarter_msiLost (s : State) (k : Nat) (f : Quarter → Quarter) : (s.modQuarter k f).msiLost = s.msiLost := rfl
@[simp] theorem State.modQuarter_events (s : State) (k : Nat) (f : Quarter → Quarter) : (s.modQuarter k f).events = s.events := rfl
@[simp] theorem State.modQuarter_notices (s : State) (k : Nat) (f : Quarter → Quarter) : (s.modQuarter k f).notices = s.notices := rfl
@[simp] theorem State.modQuarter_doors (s : State) (k : Nat) (f : Quarter → Quarter) : (s.modQuarter k f).doors = s.doors := rfl
@[simp] theorem State.modQuarter_jobs (s : State) (k : Nat) (f : Quarter → Quarter) : (s.modQuarter k f).jobs = s.jobs := rfl
@[simp] theorem State.modQuarter_sprog (s : State) (k : Nat) (f : Quarter → Quarter) : (s.modQuarter k f).sprog = s.sprog := rfl
@[simp] theorem State.modQuarter_migrating (s : State) (k : Nat) (f : Quarter → Quarter) : (s.modQuarter k f).migrating = s.migrating := rfl

/-! ### State.modBlock -/

@[simp] theorem State.modBlock_part (s : State) (k : Nat) (f : Block → Block) : (s.modBlock k f).part = s.part := rfl
@[simp] theorem State.modBlock_powered (s : State) (k : Nat) (f : Block → Block) : (s.modBlock k f).powered = s.powered := rfl
@[simp] theorem State.modBlock_now (s : State) (k : Nat) (f : Block → Block) : (s.modBlock k f).now = s.now := rfl
@[simp] theorem State.modBlock_free (s : State) (k : Nat) (f : Block → Block) : (s.modBlock k f).free = s.free := rfl
@[simp] theorem State.modBlock_bootStep (s : State) (k : Nat) (f : Block → Block) : (s.modBlock k f).bootStep = s.bootStep := rfl
@[simp] theorem State.modBlock_fuses (s : State) (k : Nat) (f : Block → Block) : (s.modBlock k f).fuses = s.fuses := rfl
@[simp] theorem State.modBlock_tested (s : State) (k : Nat) (f : Block → Block) : (s.modBlock k f).tested = s.tested := rfl
@[simp] theorem State.modBlock_fwSet (s : State) (k : Nat) (f : Block → Block) : (s.modBlock k f).fwSet = s.fwSet := rfl
@[simp] theorem State.modBlock_images (s : State) (k : Nat) (f : Block → Block) : (s.modBlock k f).images = s.images := rfl
@[simp] theorem State.modBlock_resps (s : State) (k : Nat) (f : Block → Block) : (s.modBlock k f).resps = s.resps := rfl
@[simp] theorem State.modBlock_rails (s : State) (k : Nat) (f : Block → Block) : (s.modBlock k f).rails = s.rails := rfl
@[simp] theorem State.modBlock_harts (s : State) (k : Nat) (f : Block → Block) : (s.modBlock k f).harts = s.harts := rfl
@[simp] theorem State.modBlock_conns (s : State) (k : Nat) (f : Block → Block) : (s.modBlock k f).conns = s.conns := rfl
@[simp] theorem State.modBlock_rcvs (s : State) (k : Nat) (f : Block → Block) : (s.modBlock k f).rcvs = s.rcvs := rfl
@[simp] theorem State.modBlock_wire (s : State) (k : Nat) (f : Block → Block) : (s.modBlock k f).wire = s.wire := rfl
@[simp] theorem State.modBlock_frames (s : State) (k : Nat) (f : Block → Block) : (s.modBlock k f).frames = s.frames := rfl
@[simp] theorem State.modBlock_agenda (s : State) (k : Nat) (f : Block → Block) : (s.modBlock k f).agenda = s.agenda := rfl
@[simp] theorem State.modBlock_cur (s : State) (k : Nat) (f : Block → Block) : (s.modBlock k f).cur = s.cur := rfl
@[simp] theorem State.modBlock_nextId (s : State) (k : Nat) (f : Block → Block) : (s.modBlock k f).nextId = s.nextId := rfl
@[simp] theorem State.modBlock_slices (s : State) (k : Nat) (f : Block → Block) : (s.modBlock k f).slices = s.slices := rfl
@[simp] theorem State.modBlock_cores (s : State) (k : Nat) (f : Block → Block) : (s.modBlock k f).cores = s.cores := rfl
@[simp] theorem State.modBlock_quarters (s : State) (k : Nat) (f : Block → Block) : (s.modBlock k f).quarters = s.quarters := rfl
@[simp] theorem State.modBlock_parts (s : State) (k : Nat) (f : Block → Block) : (s.modBlock k f).parts = s.parts := rfl
@[simp] theorem State.modBlock_blocks (s : State) (k : Nat) (f : Block → Block) : (s.modBlock k f).blocks = tmod s.blocks k f := rfl
@[simp] theorem State.modBlock_mem (s : State) (k : Nat) (f : Block → Block) : (s.modBlock k f).mem = s.mem := rfl
@[simp] theorem State.modBlock_errs (s : State) (k : Nat) (f : Block → Block) : (s.modBlock k f).errs = s.errs := rfl
@[simp] theorem State.modBlock_poison (s : State) (k : Nat) (f : Block → Block) : (s.modBlock k f).poison = s.poison := rfl
@[simp] theorem State.modBlock_lineKey (s : State) (k : Nat) (f : Block → Block) : (s.modBlock k f).lineKey = s.lineKey := rfl
@[simp] theorem State.modBlock_reqs (s : State) (k : Nat) (f : Block → Block) : (s.modBlock k f).reqs = s.reqs := rfl
@[simp] theorem State.modBlock_walks (s : State) (k : Nat) (f : Block → Block) : (s.modBlock k f).walks = s.walks := rfl
@[simp] theorem State.modBlock_ordq (s : State) (k : Nat) (f : Block → Block) : (s.modBlock k f).ordq = s.ordq := rfl
@[simp] theorem State.modBlock_copies (s : State) (k : Nat) (f : Block → Block) : (s.modBlock k f).copies = s.copies := rfl
@[simp] theorem State.modBlock_queues (s : State) (k : Nat) (f : Block → Block) : (s.modBlock k f).queues = s.queues := rfl
@[simp] theorem State.modBlock_launches (s : State) (k : Nat) (f : Block → Block) : (s.modBlock k f).launches = s.launches := rfl
@[simp] theorem State.modBlock_cancels (s : State) (k : Nat) (f : Block → Block) : (s.modBlock k f).cancels = s.cancels := rfl
@[simp] theorem State.modBlock_rops (s : State) (k : Nat) (f : Block → Block) : (s.modBlock k f).rops = s.rops := rfl
@[simp] theorem State.modBlock_msgs (s : State) (k : Nat) (f : Block → Block) : (s.modBlock k f).msgs = s.msgs := rfl
@[simp] theorem State.modBlock_reports (s : State) (k : Nat) (f : Block → Block) : (s.modBlock k f).reports = s.reports := rfl
@[simp] theorem State.modBlock_perfs (s : State) (k : Nat) (f : Block → Block) : (s.modBlock k f).perfs = s.perfs := rfl
@[simp] theorem State.modBlock_stSent (s : State) (k : Nat) (f : Block → Block) : (s.modBlock k f).stSent = s.stSent := rfl
@[simp] theorem State.modBlock_stApplied (s : State) (k : Nat) (f : Block → Block) : (s.modBlock k f).stApplied = s.stApplied := rfl
@[simp] theorem State.modBlock_stKnown (s : State) (k : Nat) (f : Block → Block) : (s.modBlock k f).stKnown = s.stKnown := rfl
@[simp] theorem State.modBlock_stSkip (s : State) (k : Nat) (f : Block → Block) : (s.modBlock k f).stSkip = s.stSkip := rfl
@[simp] theorem State.modBlock_late (s : State) (k : Nat) (f : Block → Block) : (s.modBlock k f).late = s.late := rfl
@[simp] theorem State.modBlock_fw (s : State) (k : Nat) (f : Block → Block) : (s.modBlock k f).fw = s.fw := rfl
@[simp] theorem State.modBlock_routes (s : State) (k : Nat) (f : Block → Block) : (s.modBlock k f).routes = s.routes := rfl
@[simp] theorem State.modBlock_irqs (s : State) (k : Nat) (f : Block → Block) : (s.modBlock k f).irqs = s.irqs := rfl
@[simp] theorem State.modBlock_msix (s : State) (k : Nat) (f : Block → Block) : (s.modBlock k f).msix = s.msix := rfl
@[simp] theorem State.modBlock_msiLost (s : State) (k : Nat) (f : Block → Block) : (s.modBlock k f).msiLost = s.msiLost := rfl
@[simp] theorem State.modBlock_events (s : State) (k : Nat) (f : Block → Block) : (s.modBlock k f).events = s.events := rfl
@[simp] theorem State.modBlock_notices (s : State) (k : Nat) (f : Block → Block) : (s.modBlock k f).notices = s.notices := rfl
@[simp] theorem State.modBlock_doors (s : State) (k : Nat) (f : Block → Block) : (s.modBlock k f).doors = s.doors := rfl
@[simp] theorem State.modBlock_jobs (s : State) (k : Nat) (f : Block → Block) : (s.modBlock k f).jobs = s.jobs := rfl
@[simp] theorem State.modBlock_sprog (s : State) (k : Nat) (f : Block → Block) : (s.modBlock k f).sprog = s.sprog := rfl
@[simp] theorem State.modBlock_migrating (s : State) (k : Nat) (f : Block → Block) : (s.modBlock k f).migrating = s.migrating := rfl

/-! ### State.modPart -/

@[simp] theorem State.modPart_part (s : State) (k : Nat) (f : Part → Part) : (s.modPart k f).part = s.part := rfl
@[simp] theorem State.modPart_powered (s : State) (k : Nat) (f : Part → Part) : (s.modPart k f).powered = s.powered := rfl
@[simp] theorem State.modPart_now (s : State) (k : Nat) (f : Part → Part) : (s.modPart k f).now = s.now := rfl
@[simp] theorem State.modPart_free (s : State) (k : Nat) (f : Part → Part) : (s.modPart k f).free = s.free := rfl
@[simp] theorem State.modPart_bootStep (s : State) (k : Nat) (f : Part → Part) : (s.modPart k f).bootStep = s.bootStep := rfl
@[simp] theorem State.modPart_fuses (s : State) (k : Nat) (f : Part → Part) : (s.modPart k f).fuses = s.fuses := rfl
@[simp] theorem State.modPart_tested (s : State) (k : Nat) (f : Part → Part) : (s.modPart k f).tested = s.tested := rfl
@[simp] theorem State.modPart_fwSet (s : State) (k : Nat) (f : Part → Part) : (s.modPart k f).fwSet = s.fwSet := rfl
@[simp] theorem State.modPart_images (s : State) (k : Nat) (f : Part → Part) : (s.modPart k f).images = s.images := rfl
@[simp] theorem State.modPart_resps (s : State) (k : Nat) (f : Part → Part) : (s.modPart k f).resps = s.resps := rfl
@[simp] theorem State.modPart_rails (s : State) (k : Nat) (f : Part → Part) : (s.modPart k f).rails = s.rails := rfl
@[simp] theorem State.modPart_harts (s : State) (k : Nat) (f : Part → Part) : (s.modPart k f).harts = s.harts := rfl
@[simp] theorem State.modPart_conns (s : State) (k : Nat) (f : Part → Part) : (s.modPart k f).conns = s.conns := rfl
@[simp] theorem State.modPart_rcvs (s : State) (k : Nat) (f : Part → Part) : (s.modPart k f).rcvs = s.rcvs := rfl
@[simp] theorem State.modPart_wire (s : State) (k : Nat) (f : Part → Part) : (s.modPart k f).wire = s.wire := rfl
@[simp] theorem State.modPart_frames (s : State) (k : Nat) (f : Part → Part) : (s.modPart k f).frames = s.frames := rfl
@[simp] theorem State.modPart_agenda (s : State) (k : Nat) (f : Part → Part) : (s.modPart k f).agenda = s.agenda := rfl
@[simp] theorem State.modPart_cur (s : State) (k : Nat) (f : Part → Part) : (s.modPart k f).cur = s.cur := rfl
@[simp] theorem State.modPart_nextId (s : State) (k : Nat) (f : Part → Part) : (s.modPart k f).nextId = s.nextId := rfl
@[simp] theorem State.modPart_slices (s : State) (k : Nat) (f : Part → Part) : (s.modPart k f).slices = s.slices := rfl
@[simp] theorem State.modPart_cores (s : State) (k : Nat) (f : Part → Part) : (s.modPart k f).cores = s.cores := rfl
@[simp] theorem State.modPart_quarters (s : State) (k : Nat) (f : Part → Part) : (s.modPart k f).quarters = s.quarters := rfl
@[simp] theorem State.modPart_parts (s : State) (k : Nat) (f : Part → Part) : (s.modPart k f).parts = tmod s.parts k f := rfl
@[simp] theorem State.modPart_blocks (s : State) (k : Nat) (f : Part → Part) : (s.modPart k f).blocks = s.blocks := rfl
@[simp] theorem State.modPart_mem (s : State) (k : Nat) (f : Part → Part) : (s.modPart k f).mem = s.mem := rfl
@[simp] theorem State.modPart_errs (s : State) (k : Nat) (f : Part → Part) : (s.modPart k f).errs = s.errs := rfl
@[simp] theorem State.modPart_poison (s : State) (k : Nat) (f : Part → Part) : (s.modPart k f).poison = s.poison := rfl
@[simp] theorem State.modPart_lineKey (s : State) (k : Nat) (f : Part → Part) : (s.modPart k f).lineKey = s.lineKey := rfl
@[simp] theorem State.modPart_reqs (s : State) (k : Nat) (f : Part → Part) : (s.modPart k f).reqs = s.reqs := rfl
@[simp] theorem State.modPart_walks (s : State) (k : Nat) (f : Part → Part) : (s.modPart k f).walks = s.walks := rfl
@[simp] theorem State.modPart_ordq (s : State) (k : Nat) (f : Part → Part) : (s.modPart k f).ordq = s.ordq := rfl
@[simp] theorem State.modPart_copies (s : State) (k : Nat) (f : Part → Part) : (s.modPart k f).copies = s.copies := rfl
@[simp] theorem State.modPart_queues (s : State) (k : Nat) (f : Part → Part) : (s.modPart k f).queues = s.queues := rfl
@[simp] theorem State.modPart_launches (s : State) (k : Nat) (f : Part → Part) : (s.modPart k f).launches = s.launches := rfl
@[simp] theorem State.modPart_cancels (s : State) (k : Nat) (f : Part → Part) : (s.modPart k f).cancels = s.cancels := rfl
@[simp] theorem State.modPart_rops (s : State) (k : Nat) (f : Part → Part) : (s.modPart k f).rops = s.rops := rfl
@[simp] theorem State.modPart_msgs (s : State) (k : Nat) (f : Part → Part) : (s.modPart k f).msgs = s.msgs := rfl
@[simp] theorem State.modPart_reports (s : State) (k : Nat) (f : Part → Part) : (s.modPart k f).reports = s.reports := rfl
@[simp] theorem State.modPart_perfs (s : State) (k : Nat) (f : Part → Part) : (s.modPart k f).perfs = s.perfs := rfl
@[simp] theorem State.modPart_stSent (s : State) (k : Nat) (f : Part → Part) : (s.modPart k f).stSent = s.stSent := rfl
@[simp] theorem State.modPart_stApplied (s : State) (k : Nat) (f : Part → Part) : (s.modPart k f).stApplied = s.stApplied := rfl
@[simp] theorem State.modPart_stKnown (s : State) (k : Nat) (f : Part → Part) : (s.modPart k f).stKnown = s.stKnown := rfl
@[simp] theorem State.modPart_stSkip (s : State) (k : Nat) (f : Part → Part) : (s.modPart k f).stSkip = s.stSkip := rfl
@[simp] theorem State.modPart_late (s : State) (k : Nat) (f : Part → Part) : (s.modPart k f).late = s.late := rfl
@[simp] theorem State.modPart_fw (s : State) (k : Nat) (f : Part → Part) : (s.modPart k f).fw = s.fw := rfl
@[simp] theorem State.modPart_routes (s : State) (k : Nat) (f : Part → Part) : (s.modPart k f).routes = s.routes := rfl
@[simp] theorem State.modPart_irqs (s : State) (k : Nat) (f : Part → Part) : (s.modPart k f).irqs = s.irqs := rfl
@[simp] theorem State.modPart_msix (s : State) (k : Nat) (f : Part → Part) : (s.modPart k f).msix = s.msix := rfl
@[simp] theorem State.modPart_msiLost (s : State) (k : Nat) (f : Part → Part) : (s.modPart k f).msiLost = s.msiLost := rfl
@[simp] theorem State.modPart_events (s : State) (k : Nat) (f : Part → Part) : (s.modPart k f).events = s.events := rfl
@[simp] theorem State.modPart_notices (s : State) (k : Nat) (f : Part → Part) : (s.modPart k f).notices = s.notices := rfl
@[simp] theorem State.modPart_doors (s : State) (k : Nat) (f : Part → Part) : (s.modPart k f).doors = s.doors := rfl
@[simp] theorem State.modPart_jobs (s : State) (k : Nat) (f : Part → Part) : (s.modPart k f).jobs = s.jobs := rfl
@[simp] theorem State.modPart_sprog (s : State) (k : Nat) (f : Part → Part) : (s.modPart k f).sprog = s.sprog := rfl
@[simp] theorem State.modPart_migrating (s : State) (k : Nat) (f : Part → Part) : (s.modPart k f).migrating = s.migrating := rfl

/-! ### State.modReq -/

@[simp] theorem State.modReq_part (s : State) (k : Nat) (f : Req → Req) : (s.modReq k f).part = s.part := rfl
@[simp] theorem State.modReq_powered (s : State) (k : Nat) (f : Req → Req) : (s.modReq k f).powered = s.powered := rfl
@[simp] theorem State.modReq_now (s : State) (k : Nat) (f : Req → Req) : (s.modReq k f).now = s.now := rfl
@[simp] theorem State.modReq_free (s : State) (k : Nat) (f : Req → Req) : (s.modReq k f).free = s.free := rfl
@[simp] theorem State.modReq_bootStep (s : State) (k : Nat) (f : Req → Req) : (s.modReq k f).bootStep = s.bootStep := rfl
@[simp] theorem State.modReq_fuses (s : State) (k : Nat) (f : Req → Req) : (s.modReq k f).fuses = s.fuses := rfl
@[simp] theorem State.modReq_tested (s : State) (k : Nat) (f : Req → Req) : (s.modReq k f).tested = s.tested := rfl
@[simp] theorem State.modReq_fwSet (s : State) (k : Nat) (f : Req → Req) : (s.modReq k f).fwSet = s.fwSet := rfl
@[simp] theorem State.modReq_images (s : State) (k : Nat) (f : Req → Req) : (s.modReq k f).images = s.images := rfl
@[simp] theorem State.modReq_resps (s : State) (k : Nat) (f : Req → Req) : (s.modReq k f).resps = s.resps := rfl
@[simp] theorem State.modReq_rails (s : State) (k : Nat) (f : Req → Req) : (s.modReq k f).rails = s.rails := rfl
@[simp] theorem State.modReq_harts (s : State) (k : Nat) (f : Req → Req) : (s.modReq k f).harts = s.harts := rfl
@[simp] theorem State.modReq_conns (s : State) (k : Nat) (f : Req → Req) : (s.modReq k f).conns = s.conns := rfl
@[simp] theorem State.modReq_rcvs (s : State) (k : Nat) (f : Req → Req) : (s.modReq k f).rcvs = s.rcvs := rfl
@[simp] theorem State.modReq_wire (s : State) (k : Nat) (f : Req → Req) : (s.modReq k f).wire = s.wire := rfl
@[simp] theorem State.modReq_frames (s : State) (k : Nat) (f : Req → Req) : (s.modReq k f).frames = s.frames := rfl
@[simp] theorem State.modReq_agenda (s : State) (k : Nat) (f : Req → Req) : (s.modReq k f).agenda = s.agenda := rfl
@[simp] theorem State.modReq_cur (s : State) (k : Nat) (f : Req → Req) : (s.modReq k f).cur = s.cur := rfl
@[simp] theorem State.modReq_nextId (s : State) (k : Nat) (f : Req → Req) : (s.modReq k f).nextId = s.nextId := rfl
@[simp] theorem State.modReq_slices (s : State) (k : Nat) (f : Req → Req) : (s.modReq k f).slices = s.slices := rfl
@[simp] theorem State.modReq_cores (s : State) (k : Nat) (f : Req → Req) : (s.modReq k f).cores = s.cores := rfl
@[simp] theorem State.modReq_quarters (s : State) (k : Nat) (f : Req → Req) : (s.modReq k f).quarters = s.quarters := rfl
@[simp] theorem State.modReq_parts (s : State) (k : Nat) (f : Req → Req) : (s.modReq k f).parts = s.parts := rfl
@[simp] theorem State.modReq_blocks (s : State) (k : Nat) (f : Req → Req) : (s.modReq k f).blocks = s.blocks := rfl
@[simp] theorem State.modReq_mem (s : State) (k : Nat) (f : Req → Req) : (s.modReq k f).mem = s.mem := rfl
@[simp] theorem State.modReq_errs (s : State) (k : Nat) (f : Req → Req) : (s.modReq k f).errs = s.errs := rfl
@[simp] theorem State.modReq_poison (s : State) (k : Nat) (f : Req → Req) : (s.modReq k f).poison = s.poison := rfl
@[simp] theorem State.modReq_lineKey (s : State) (k : Nat) (f : Req → Req) : (s.modReq k f).lineKey = s.lineKey := rfl
@[simp] theorem State.modReq_reqs (s : State) (k : Nat) (f : Req → Req) : (s.modReq k f).reqs = tmod s.reqs k f := rfl
@[simp] theorem State.modReq_walks (s : State) (k : Nat) (f : Req → Req) : (s.modReq k f).walks = s.walks := rfl
@[simp] theorem State.modReq_ordq (s : State) (k : Nat) (f : Req → Req) : (s.modReq k f).ordq = s.ordq := rfl
@[simp] theorem State.modReq_copies (s : State) (k : Nat) (f : Req → Req) : (s.modReq k f).copies = s.copies := rfl
@[simp] theorem State.modReq_queues (s : State) (k : Nat) (f : Req → Req) : (s.modReq k f).queues = s.queues := rfl
@[simp] theorem State.modReq_launches (s : State) (k : Nat) (f : Req → Req) : (s.modReq k f).launches = s.launches := rfl
@[simp] theorem State.modReq_cancels (s : State) (k : Nat) (f : Req → Req) : (s.modReq k f).cancels = s.cancels := rfl
@[simp] theorem State.modReq_rops (s : State) (k : Nat) (f : Req → Req) : (s.modReq k f).rops = s.rops := rfl
@[simp] theorem State.modReq_msgs (s : State) (k : Nat) (f : Req → Req) : (s.modReq k f).msgs = s.msgs := rfl
@[simp] theorem State.modReq_reports (s : State) (k : Nat) (f : Req → Req) : (s.modReq k f).reports = s.reports := rfl
@[simp] theorem State.modReq_perfs (s : State) (k : Nat) (f : Req → Req) : (s.modReq k f).perfs = s.perfs := rfl
@[simp] theorem State.modReq_stSent (s : State) (k : Nat) (f : Req → Req) : (s.modReq k f).stSent = s.stSent := rfl
@[simp] theorem State.modReq_stApplied (s : State) (k : Nat) (f : Req → Req) : (s.modReq k f).stApplied = s.stApplied := rfl
@[simp] theorem State.modReq_stKnown (s : State) (k : Nat) (f : Req → Req) : (s.modReq k f).stKnown = s.stKnown := rfl
@[simp] theorem State.modReq_stSkip (s : State) (k : Nat) (f : Req → Req) : (s.modReq k f).stSkip = s.stSkip := rfl
@[simp] theorem State.modReq_late (s : State) (k : Nat) (f : Req → Req) : (s.modReq k f).late = s.late := rfl
@[simp] theorem State.modReq_fw (s : State) (k : Nat) (f : Req → Req) : (s.modReq k f).fw = s.fw := rfl
@[simp] theorem State.modReq_routes (s : State) (k : Nat) (f : Req → Req) : (s.modReq k f).routes = s.routes := rfl
@[simp] theorem State.modReq_irqs (s : State) (k : Nat) (f : Req → Req) : (s.modReq k f).irqs = s.irqs := rfl
@[simp] theorem State.modReq_msix (s : State) (k : Nat) (f : Req → Req) : (s.modReq k f).msix = s.msix := rfl
@[simp] theorem State.modReq_msiLost (s : State) (k : Nat) (f : Req → Req) : (s.modReq k f).msiLost = s.msiLost := rfl
@[simp] theorem State.modReq_events (s : State) (k : Nat) (f : Req → Req) : (s.modReq k f).events = s.events := rfl
@[simp] theorem State.modReq_notices (s : State) (k : Nat) (f : Req → Req) : (s.modReq k f).notices = s.notices := rfl
@[simp] theorem State.modReq_doors (s : State) (k : Nat) (f : Req → Req) : (s.modReq k f).doors = s.doors := rfl
@[simp] theorem State.modReq_jobs (s : State) (k : Nat) (f : Req → Req) : (s.modReq k f).jobs = s.jobs := rfl
@[simp] theorem State.modReq_sprog (s : State) (k : Nat) (f : Req → Req) : (s.modReq k f).sprog = s.sprog := rfl
@[simp] theorem State.modReq_migrating (s : State) (k : Nat) (f : Req → Req) : (s.modReq k f).migrating = s.migrating := rfl

/-! ### State.modQueue -/

@[simp] theorem State.modQueue_part (s : State) (k : Nat) (f : Queue → Queue) : (s.modQueue k f).part = s.part := rfl
@[simp] theorem State.modQueue_powered (s : State) (k : Nat) (f : Queue → Queue) : (s.modQueue k f).powered = s.powered := rfl
@[simp] theorem State.modQueue_now (s : State) (k : Nat) (f : Queue → Queue) : (s.modQueue k f).now = s.now := rfl
@[simp] theorem State.modQueue_free (s : State) (k : Nat) (f : Queue → Queue) : (s.modQueue k f).free = s.free := rfl
@[simp] theorem State.modQueue_bootStep (s : State) (k : Nat) (f : Queue → Queue) : (s.modQueue k f).bootStep = s.bootStep := rfl
@[simp] theorem State.modQueue_fuses (s : State) (k : Nat) (f : Queue → Queue) : (s.modQueue k f).fuses = s.fuses := rfl
@[simp] theorem State.modQueue_tested (s : State) (k : Nat) (f : Queue → Queue) : (s.modQueue k f).tested = s.tested := rfl
@[simp] theorem State.modQueue_fwSet (s : State) (k : Nat) (f : Queue → Queue) : (s.modQueue k f).fwSet = s.fwSet := rfl
@[simp] theorem State.modQueue_images (s : State) (k : Nat) (f : Queue → Queue) : (s.modQueue k f).images = s.images := rfl
@[simp] theorem State.modQueue_resps (s : State) (k : Nat) (f : Queue → Queue) : (s.modQueue k f).resps = s.resps := rfl
@[simp] theorem State.modQueue_rails (s : State) (k : Nat) (f : Queue → Queue) : (s.modQueue k f).rails = s.rails := rfl
@[simp] theorem State.modQueue_harts (s : State) (k : Nat) (f : Queue → Queue) : (s.modQueue k f).harts = s.harts := rfl
@[simp] theorem State.modQueue_conns (s : State) (k : Nat) (f : Queue → Queue) : (s.modQueue k f).conns = s.conns := rfl
@[simp] theorem State.modQueue_rcvs (s : State) (k : Nat) (f : Queue → Queue) : (s.modQueue k f).rcvs = s.rcvs := rfl
@[simp] theorem State.modQueue_wire (s : State) (k : Nat) (f : Queue → Queue) : (s.modQueue k f).wire = s.wire := rfl
@[simp] theorem State.modQueue_frames (s : State) (k : Nat) (f : Queue → Queue) : (s.modQueue k f).frames = s.frames := rfl
@[simp] theorem State.modQueue_agenda (s : State) (k : Nat) (f : Queue → Queue) : (s.modQueue k f).agenda = s.agenda := rfl
@[simp] theorem State.modQueue_cur (s : State) (k : Nat) (f : Queue → Queue) : (s.modQueue k f).cur = s.cur := rfl
@[simp] theorem State.modQueue_nextId (s : State) (k : Nat) (f : Queue → Queue) : (s.modQueue k f).nextId = s.nextId := rfl
@[simp] theorem State.modQueue_slices (s : State) (k : Nat) (f : Queue → Queue) : (s.modQueue k f).slices = s.slices := rfl
@[simp] theorem State.modQueue_cores (s : State) (k : Nat) (f : Queue → Queue) : (s.modQueue k f).cores = s.cores := rfl
@[simp] theorem State.modQueue_quarters (s : State) (k : Nat) (f : Queue → Queue) : (s.modQueue k f).quarters = s.quarters := rfl
@[simp] theorem State.modQueue_parts (s : State) (k : Nat) (f : Queue → Queue) : (s.modQueue k f).parts = s.parts := rfl
@[simp] theorem State.modQueue_blocks (s : State) (k : Nat) (f : Queue → Queue) : (s.modQueue k f).blocks = s.blocks := rfl
@[simp] theorem State.modQueue_mem (s : State) (k : Nat) (f : Queue → Queue) : (s.modQueue k f).mem = s.mem := rfl
@[simp] theorem State.modQueue_errs (s : State) (k : Nat) (f : Queue → Queue) : (s.modQueue k f).errs = s.errs := rfl
@[simp] theorem State.modQueue_poison (s : State) (k : Nat) (f : Queue → Queue) : (s.modQueue k f).poison = s.poison := rfl
@[simp] theorem State.modQueue_lineKey (s : State) (k : Nat) (f : Queue → Queue) : (s.modQueue k f).lineKey = s.lineKey := rfl
@[simp] theorem State.modQueue_reqs (s : State) (k : Nat) (f : Queue → Queue) : (s.modQueue k f).reqs = s.reqs := rfl
@[simp] theorem State.modQueue_walks (s : State) (k : Nat) (f : Queue → Queue) : (s.modQueue k f).walks = s.walks := rfl
@[simp] theorem State.modQueue_ordq (s : State) (k : Nat) (f : Queue → Queue) : (s.modQueue k f).ordq = s.ordq := rfl
@[simp] theorem State.modQueue_copies (s : State) (k : Nat) (f : Queue → Queue) : (s.modQueue k f).copies = s.copies := rfl
@[simp] theorem State.modQueue_queues (s : State) (k : Nat) (f : Queue → Queue) : (s.modQueue k f).queues = tmod s.queues k f := rfl
@[simp] theorem State.modQueue_launches (s : State) (k : Nat) (f : Queue → Queue) : (s.modQueue k f).launches = s.launches := rfl
@[simp] theorem State.modQueue_cancels (s : State) (k : Nat) (f : Queue → Queue) : (s.modQueue k f).cancels = s.cancels := rfl
@[simp] theorem State.modQueue_rops (s : State) (k : Nat) (f : Queue → Queue) : (s.modQueue k f).rops = s.rops := rfl
@[simp] theorem State.modQueue_msgs (s : State) (k : Nat) (f : Queue → Queue) : (s.modQueue k f).msgs = s.msgs := rfl
@[simp] theorem State.modQueue_reports (s : State) (k : Nat) (f : Queue → Queue) : (s.modQueue k f).reports = s.reports := rfl
@[simp] theorem State.modQueue_perfs (s : State) (k : Nat) (f : Queue → Queue) : (s.modQueue k f).perfs = s.perfs := rfl
@[simp] theorem State.modQueue_stSent (s : State) (k : Nat) (f : Queue → Queue) : (s.modQueue k f).stSent = s.stSent := rfl
@[simp] theorem State.modQueue_stApplied (s : State) (k : Nat) (f : Queue → Queue) : (s.modQueue k f).stApplied = s.stApplied := rfl
@[simp] theorem State.modQueue_stKnown (s : State) (k : Nat) (f : Queue → Queue) : (s.modQueue k f).stKnown = s.stKnown := rfl
@[simp] theorem State.modQueue_stSkip (s : State) (k : Nat) (f : Queue → Queue) : (s.modQueue k f).stSkip = s.stSkip := rfl
@[simp] theorem State.modQueue_late (s : State) (k : Nat) (f : Queue → Queue) : (s.modQueue k f).late = s.late := rfl
@[simp] theorem State.modQueue_fw (s : State) (k : Nat) (f : Queue → Queue) : (s.modQueue k f).fw = s.fw := rfl
@[simp] theorem State.modQueue_routes (s : State) (k : Nat) (f : Queue → Queue) : (s.modQueue k f).routes = s.routes := rfl
@[simp] theorem State.modQueue_irqs (s : State) (k : Nat) (f : Queue → Queue) : (s.modQueue k f).irqs = s.irqs := rfl
@[simp] theorem State.modQueue_msix (s : State) (k : Nat) (f : Queue → Queue) : (s.modQueue k f).msix = s.msix := rfl
@[simp] theorem State.modQueue_msiLost (s : State) (k : Nat) (f : Queue → Queue) : (s.modQueue k f).msiLost = s.msiLost := rfl
@[simp] theorem State.modQueue_events (s : State) (k : Nat) (f : Queue → Queue) : (s.modQueue k f).events = s.events := rfl
@[simp] theorem State.modQueue_notices (s : State) (k : Nat) (f : Queue → Queue) : (s.modQueue k f).notices = s.notices := rfl
@[simp] theorem State.modQueue_doors (s : State) (k : Nat) (f : Queue → Queue) : (s.modQueue k f).doors = s.doors := rfl
@[simp] theorem State.modQueue_jobs (s : State) (k : Nat) (f : Queue → Queue) : (s.modQueue k f).jobs = s.jobs := rfl
@[simp] theorem State.modQueue_sprog (s : State) (k : Nat) (f : Queue → Queue) : (s.modQueue k f).sprog = s.sprog := rfl
@[simp] theorem State.modQueue_migrating (s : State) (k : Nat) (f : Queue → Queue) : (s.modQueue k f).migrating = s.migrating := rfl

/-! ### State.modLaunch -/

@[simp] theorem State.modLaunch_part (s : State) (k : Nat) (f : Launch → Launch) : (s.modLaunch k f).part = s.part := rfl
@[simp] theorem State.modLaunch_powered (s : State) (k : Nat) (f : Launch → Launch) : (s.modLaunch k f).powered = s.powered := rfl
@[simp] theorem State.modLaunch_now (s : State) (k : Nat) (f : Launch → Launch) : (s.modLaunch k f).now = s.now := rfl
@[simp] theorem State.modLaunch_free (s : State) (k : Nat) (f : Launch → Launch) : (s.modLaunch k f).free = s.free := rfl
@[simp] theorem State.modLaunch_bootStep (s : State) (k : Nat) (f : Launch → Launch) : (s.modLaunch k f).bootStep = s.bootStep := rfl
@[simp] theorem State.modLaunch_fuses (s : State) (k : Nat) (f : Launch → Launch) : (s.modLaunch k f).fuses = s.fuses := rfl
@[simp] theorem State.modLaunch_tested (s : State) (k : Nat) (f : Launch → Launch) : (s.modLaunch k f).tested = s.tested := rfl
@[simp] theorem State.modLaunch_fwSet (s : State) (k : Nat) (f : Launch → Launch) : (s.modLaunch k f).fwSet = s.fwSet := rfl
@[simp] theorem State.modLaunch_images (s : State) (k : Nat) (f : Launch → Launch) : (s.modLaunch k f).images = s.images := rfl
@[simp] theorem State.modLaunch_resps (s : State) (k : Nat) (f : Launch → Launch) : (s.modLaunch k f).resps = s.resps := rfl
@[simp] theorem State.modLaunch_rails (s : State) (k : Nat) (f : Launch → Launch) : (s.modLaunch k f).rails = s.rails := rfl
@[simp] theorem State.modLaunch_harts (s : State) (k : Nat) (f : Launch → Launch) : (s.modLaunch k f).harts = s.harts := rfl
@[simp] theorem State.modLaunch_conns (s : State) (k : Nat) (f : Launch → Launch) : (s.modLaunch k f).conns = s.conns := rfl
@[simp] theorem State.modLaunch_rcvs (s : State) (k : Nat) (f : Launch → Launch) : (s.modLaunch k f).rcvs = s.rcvs := rfl
@[simp] theorem State.modLaunch_wire (s : State) (k : Nat) (f : Launch → Launch) : (s.modLaunch k f).wire = s.wire := rfl
@[simp] theorem State.modLaunch_frames (s : State) (k : Nat) (f : Launch → Launch) : (s.modLaunch k f).frames = s.frames := rfl
@[simp] theorem State.modLaunch_agenda (s : State) (k : Nat) (f : Launch → Launch) : (s.modLaunch k f).agenda = s.agenda := rfl
@[simp] theorem State.modLaunch_cur (s : State) (k : Nat) (f : Launch → Launch) : (s.modLaunch k f).cur = s.cur := rfl
@[simp] theorem State.modLaunch_nextId (s : State) (k : Nat) (f : Launch → Launch) : (s.modLaunch k f).nextId = s.nextId := rfl
@[simp] theorem State.modLaunch_slices (s : State) (k : Nat) (f : Launch → Launch) : (s.modLaunch k f).slices = s.slices := rfl
@[simp] theorem State.modLaunch_cores (s : State) (k : Nat) (f : Launch → Launch) : (s.modLaunch k f).cores = s.cores := rfl
@[simp] theorem State.modLaunch_quarters (s : State) (k : Nat) (f : Launch → Launch) : (s.modLaunch k f).quarters = s.quarters := rfl
@[simp] theorem State.modLaunch_parts (s : State) (k : Nat) (f : Launch → Launch) : (s.modLaunch k f).parts = s.parts := rfl
@[simp] theorem State.modLaunch_blocks (s : State) (k : Nat) (f : Launch → Launch) : (s.modLaunch k f).blocks = s.blocks := rfl
@[simp] theorem State.modLaunch_mem (s : State) (k : Nat) (f : Launch → Launch) : (s.modLaunch k f).mem = s.mem := rfl
@[simp] theorem State.modLaunch_errs (s : State) (k : Nat) (f : Launch → Launch) : (s.modLaunch k f).errs = s.errs := rfl
@[simp] theorem State.modLaunch_poison (s : State) (k : Nat) (f : Launch → Launch) : (s.modLaunch k f).poison = s.poison := rfl
@[simp] theorem State.modLaunch_lineKey (s : State) (k : Nat) (f : Launch → Launch) : (s.modLaunch k f).lineKey = s.lineKey := rfl
@[simp] theorem State.modLaunch_reqs (s : State) (k : Nat) (f : Launch → Launch) : (s.modLaunch k f).reqs = s.reqs := rfl
@[simp] theorem State.modLaunch_walks (s : State) (k : Nat) (f : Launch → Launch) : (s.modLaunch k f).walks = s.walks := rfl
@[simp] theorem State.modLaunch_ordq (s : State) (k : Nat) (f : Launch → Launch) : (s.modLaunch k f).ordq = s.ordq := rfl
@[simp] theorem State.modLaunch_copies (s : State) (k : Nat) (f : Launch → Launch) : (s.modLaunch k f).copies = s.copies := rfl
@[simp] theorem State.modLaunch_queues (s : State) (k : Nat) (f : Launch → Launch) : (s.modLaunch k f).queues = s.queues := rfl
@[simp] theorem State.modLaunch_launches (s : State) (k : Nat) (f : Launch → Launch) : (s.modLaunch k f).launches = tmod s.launches k f := rfl
@[simp] theorem State.modLaunch_cancels (s : State) (k : Nat) (f : Launch → Launch) : (s.modLaunch k f).cancels = s.cancels := rfl
@[simp] theorem State.modLaunch_rops (s : State) (k : Nat) (f : Launch → Launch) : (s.modLaunch k f).rops = s.rops := rfl
@[simp] theorem State.modLaunch_msgs (s : State) (k : Nat) (f : Launch → Launch) : (s.modLaunch k f).msgs = s.msgs := rfl
@[simp] theorem State.modLaunch_reports (s : State) (k : Nat) (f : Launch → Launch) : (s.modLaunch k f).reports = s.reports := rfl
@[simp] theorem State.modLaunch_perfs (s : State) (k : Nat) (f : Launch → Launch) : (s.modLaunch k f).perfs = s.perfs := rfl
@[simp] theorem State.modLaunch_stSent (s : State) (k : Nat) (f : Launch → Launch) : (s.modLaunch k f).stSent = s.stSent := rfl
@[simp] theorem State.modLaunch_stApplied (s : State) (k : Nat) (f : Launch → Launch) : (s.modLaunch k f).stApplied = s.stApplied := rfl
@[simp] theorem State.modLaunch_stKnown (s : State) (k : Nat) (f : Launch → Launch) : (s.modLaunch k f).stKnown = s.stKnown := rfl
@[simp] theorem State.modLaunch_stSkip (s : State) (k : Nat) (f : Launch → Launch) : (s.modLaunch k f).stSkip = s.stSkip := rfl
@[simp] theorem State.modLaunch_late (s : State) (k : Nat) (f : Launch → Launch) : (s.modLaunch k f).late = s.late := rfl
@[simp] theorem State.modLaunch_fw (s : State) (k : Nat) (f : Launch → Launch) : (s.modLaunch k f).fw = s.fw := rfl
@[simp] theorem State.modLaunch_routes (s : State) (k : Nat) (f : Launch → Launch) : (s.modLaunch k f).routes = s.routes := rfl
@[simp] theorem State.modLaunch_irqs (s : State) (k : Nat) (f : Launch → Launch) : (s.modLaunch k f).irqs = s.irqs := rfl
@[simp] theorem State.modLaunch_msix (s : State) (k : Nat) (f : Launch → Launch) : (s.modLaunch k f).msix = s.msix := rfl
@[simp] theorem State.modLaunch_msiLost (s : State) (k : Nat) (f : Launch → Launch) : (s.modLaunch k f).msiLost = s.msiLost := rfl
@[simp] theorem State.modLaunch_events (s : State) (k : Nat) (f : Launch → Launch) : (s.modLaunch k f).events = s.events := rfl
@[simp] theorem State.modLaunch_notices (s : State) (k : Nat) (f : Launch → Launch) : (s.modLaunch k f).notices = s.notices := rfl
@[simp] theorem State.modLaunch_doors (s : State) (k : Nat) (f : Launch → Launch) : (s.modLaunch k f).doors = s.doors := rfl
@[simp] theorem State.modLaunch_jobs (s : State) (k : Nat) (f : Launch → Launch) : (s.modLaunch k f).jobs = s.jobs := rfl
@[simp] theorem State.modLaunch_sprog (s : State) (k : Nat) (f : Launch → Launch) : (s.modLaunch k f).sprog = s.sprog := rfl
@[simp] theorem State.modLaunch_migrating (s : State) (k : Nat) (f : Launch → Launch) : (s.modLaunch k f).migrating = s.migrating := rfl

/-! ### State.choose -/

@[simp] theorem State.choose_part (s : State) (n : Nat) : (s.choose n).2.part = s.part := rfl
@[simp] theorem State.choose_powered (s : State) (n : Nat) : (s.choose n).2.powered = s.powered := rfl
@[simp] theorem State.choose_now (s : State) (n : Nat) : (s.choose n).2.now = s.now := rfl
@[simp] theorem State.choose_free (s : State) (n : Nat) : (s.choose n).2.free = s.free + 1 := rfl
@[simp] theorem State.choose_bootStep (s : State) (n : Nat) : (s.choose n).2.bootStep = s.bootStep := rfl
@[simp] theorem State.choose_fuses (s : State) (n : Nat) : (s.choose n).2.fuses = s.fuses := rfl
@[simp] theorem State.choose_tested (s : State) (n : Nat) : (s.choose n).2.tested = s.tested := rfl
@[simp] theorem State.choose_fwSet (s : State) (n : Nat) : (s.choose n).2.fwSet = s.fwSet := rfl
@[simp] theorem State.choose_images (s : State) (n : Nat) : (s.choose n).2.images = s.images := rfl
@[simp] theorem State.choose_resps (s : State) (n : Nat) : (s.choose n).2.resps = s.resps := rfl
@[simp] theorem State.choose_rails (s : State) (n : Nat) : (s.choose n).2.rails = s.rails := rfl
@[simp] theorem State.choose_harts (s : State) (n : Nat) : (s.choose n).2.harts = s.harts := rfl
@[simp] theorem State.choose_conns (s : State) (n : Nat) : (s.choose n).2.conns = s.conns := rfl
@[simp] theorem State.choose_rcvs (s : State) (n : Nat) : (s.choose n).2.rcvs = s.rcvs := rfl
@[simp] theorem State.choose_wire (s : State) (n : Nat) : (s.choose n).2.wire = s.wire := rfl
@[simp] theorem State.choose_frames (s : State) (n : Nat) : (s.choose n).2.frames = s.frames := rfl
@[simp] theorem State.choose_agenda (s : State) (n : Nat) : (s.choose n).2.agenda = s.agenda := rfl
@[simp] theorem State.choose_cur (s : State) (n : Nat) : (s.choose n).2.cur = s.cur := rfl
@[simp] theorem State.choose_nextId (s : State) (n : Nat) : (s.choose n).2.nextId = s.nextId := rfl
@[simp] theorem State.choose_slices (s : State) (n : Nat) : (s.choose n).2.slices = s.slices := rfl
@[simp] theorem State.choose_cores (s : State) (n : Nat) : (s.choose n).2.cores = s.cores := rfl
@[simp] theorem State.choose_quarters (s : State) (n : Nat) : (s.choose n).2.quarters = s.quarters := rfl
@[simp] theorem State.choose_parts (s : State) (n : Nat) : (s.choose n).2.parts = s.parts := rfl
@[simp] theorem State.choose_blocks (s : State) (n : Nat) : (s.choose n).2.blocks = s.blocks := rfl
@[simp] theorem State.choose_mem (s : State) (n : Nat) : (s.choose n).2.mem = s.mem := rfl
@[simp] theorem State.choose_errs (s : State) (n : Nat) : (s.choose n).2.errs = s.errs := rfl
@[simp] theorem State.choose_poison (s : State) (n : Nat) : (s.choose n).2.poison = s.poison := rfl
@[simp] theorem State.choose_lineKey (s : State) (n : Nat) : (s.choose n).2.lineKey = s.lineKey := rfl
@[simp] theorem State.choose_reqs (s : State) (n : Nat) : (s.choose n).2.reqs = s.reqs := rfl
@[simp] theorem State.choose_walks (s : State) (n : Nat) : (s.choose n).2.walks = s.walks := rfl
@[simp] theorem State.choose_ordq (s : State) (n : Nat) : (s.choose n).2.ordq = s.ordq := rfl
@[simp] theorem State.choose_copies (s : State) (n : Nat) : (s.choose n).2.copies = s.copies := rfl
@[simp] theorem State.choose_queues (s : State) (n : Nat) : (s.choose n).2.queues = s.queues := rfl
@[simp] theorem State.choose_launches (s : State) (n : Nat) : (s.choose n).2.launches = s.launches := rfl
@[simp] theorem State.choose_cancels (s : State) (n : Nat) : (s.choose n).2.cancels = s.cancels := rfl
@[simp] theorem State.choose_rops (s : State) (n : Nat) : (s.choose n).2.rops = s.rops := rfl
@[simp] theorem State.choose_msgs (s : State) (n : Nat) : (s.choose n).2.msgs = s.msgs := rfl
@[simp] theorem State.choose_reports (s : State) (n : Nat) : (s.choose n).2.reports = s.reports := rfl
@[simp] theorem State.choose_perfs (s : State) (n : Nat) : (s.choose n).2.perfs = s.perfs := rfl
@[simp] theorem State.choose_stSent (s : State) (n : Nat) : (s.choose n).2.stSent = s.stSent := rfl
@[simp] theorem State.choose_stApplied (s : State) (n : Nat) : (s.choose n).2.stApplied = s.stApplied := rfl
@[simp] theorem State.choose_stKnown (s : State) (n : Nat) : (s.choose n).2.stKnown = s.stKnown := rfl
@[simp] theorem State.choose_stSkip (s : State) (n : Nat) : (s.choose n).2.stSkip = s.stSkip := rfl
@[simp] theorem State.choose_late (s : State) (n : Nat) : (s.choose n).2.late = s.late := rfl
@[simp] theorem State.choose_fw (s : State) (n : Nat) : (s.choose n).2.fw = s.fw := rfl
@[simp] theorem State.choose_routes (s : State) (n : Nat) : (s.choose n).2.routes = s.routes := rfl
@[simp] theorem State.choose_irqs (s : State) (n : Nat) : (s.choose n).2.irqs = s.irqs := rfl
@[simp] theorem State.choose_msix (s : State) (n : Nat) : (s.choose n).2.msix = s.msix := rfl
@[simp] theorem State.choose_msiLost (s : State) (n : Nat) : (s.choose n).2.msiLost = s.msiLost := rfl
@[simp] theorem State.choose_events (s : State) (n : Nat) : (s.choose n).2.events = s.events := rfl
@[simp] theorem State.choose_notices (s : State) (n : Nat) : (s.choose n).2.notices = s.notices := rfl
@[simp] theorem State.choose_doors (s : State) (n : Nat) : (s.choose n).2.doors = s.doors := rfl
@[simp] theorem State.choose_jobs (s : State) (n : Nat) : (s.choose n).2.jobs = s.jobs := rfl
@[simp] theorem State.choose_sprog (s : State) (n : Nat) : (s.choose n).2.sprog = s.sprog := rfl
@[simp] theorem State.choose_migrating (s : State) (n : Nat) : (s.choose n).2.migrating = s.migrating := rfl

/-! ### State.freeVal -/

@[simp] theorem State.freeVal_part (s : State) : (s.freeVal).2.part = s.part := rfl
@[simp] theorem State.freeVal_powered (s : State) : (s.freeVal).2.powered = s.powered := rfl
@[simp] theorem State.freeVal_now (s : State) : (s.freeVal).2.now = s.now := rfl
@[simp] theorem State.freeVal_free (s : State) : (s.freeVal).2.free = s.free + 1 := rfl
@[simp] theorem State.freeVal_bootStep (s : State) : (s.freeVal).2.bootStep = s.bootStep := rfl
@[simp] theorem State.freeVal_fuses (s : State) : (s.freeVal).2.fuses = s.fuses := rfl
@[simp] theorem State.freeVal_tested (s : State) : (s.freeVal).2.tested = s.tested := rfl
@[simp] theorem State.freeVal_fwSet (s : State) : (s.freeVal).2.fwSet = s.fwSet := rfl
@[simp] theorem State.freeVal_images (s : State) : (s.freeVal).2.images = s.images := rfl
@[simp] theorem State.freeVal_resps (s : State) : (s.freeVal).2.resps = s.resps := rfl
@[simp] theorem State.freeVal_rails (s : State) : (s.freeVal).2.rails = s.rails := rfl
@[simp] theorem State.freeVal_harts (s : State) : (s.freeVal).2.harts = s.harts := rfl
@[simp] theorem State.freeVal_conns (s : State) : (s.freeVal).2.conns = s.conns := rfl
@[simp] theorem State.freeVal_rcvs (s : State) : (s.freeVal).2.rcvs = s.rcvs := rfl
@[simp] theorem State.freeVal_wire (s : State) : (s.freeVal).2.wire = s.wire := rfl
@[simp] theorem State.freeVal_frames (s : State) : (s.freeVal).2.frames = s.frames := rfl
@[simp] theorem State.freeVal_agenda (s : State) : (s.freeVal).2.agenda = s.agenda := rfl
@[simp] theorem State.freeVal_cur (s : State) : (s.freeVal).2.cur = s.cur := rfl
@[simp] theorem State.freeVal_nextId (s : State) : (s.freeVal).2.nextId = s.nextId := rfl
@[simp] theorem State.freeVal_slices (s : State) : (s.freeVal).2.slices = s.slices := rfl
@[simp] theorem State.freeVal_cores (s : State) : (s.freeVal).2.cores = s.cores := rfl
@[simp] theorem State.freeVal_quarters (s : State) : (s.freeVal).2.quarters = s.quarters := rfl
@[simp] theorem State.freeVal_parts (s : State) : (s.freeVal).2.parts = s.parts := rfl
@[simp] theorem State.freeVal_blocks (s : State) : (s.freeVal).2.blocks = s.blocks := rfl
@[simp] theorem State.freeVal_mem (s : State) : (s.freeVal).2.mem = s.mem := rfl
@[simp] theorem State.freeVal_errs (s : State) : (s.freeVal).2.errs = s.errs := rfl
@[simp] theorem State.freeVal_poison (s : State) : (s.freeVal).2.poison = s.poison := rfl
@[simp] theorem State.freeVal_lineKey (s : State) : (s.freeVal).2.lineKey = s.lineKey := rfl
@[simp] theorem State.freeVal_reqs (s : State) : (s.freeVal).2.reqs = s.reqs := rfl
@[simp] theorem State.freeVal_walks (s : State) : (s.freeVal).2.walks = s.walks := rfl
@[simp] theorem State.freeVal_ordq (s : State) : (s.freeVal).2.ordq = s.ordq := rfl
@[simp] theorem State.freeVal_copies (s : State) : (s.freeVal).2.copies = s.copies := rfl
@[simp] theorem State.freeVal_queues (s : State) : (s.freeVal).2.queues = s.queues := rfl
@[simp] theorem State.freeVal_launches (s : State) : (s.freeVal).2.launches = s.launches := rfl
@[simp] theorem State.freeVal_cancels (s : State) : (s.freeVal).2.cancels = s.cancels := rfl
@[simp] theorem State.freeVal_rops (s : State) : (s.freeVal).2.rops = s.rops := rfl
@[simp] theorem State.freeVal_msgs (s : State) : (s.freeVal).2.msgs = s.msgs := rfl
@[simp] theorem State.freeVal_reports (s : State) : (s.freeVal).2.reports = s.reports := rfl
@[simp] theorem State.freeVal_perfs (s : State) : (s.freeVal).2.perfs = s.perfs := rfl
@[simp] theorem State.freeVal_stSent (s : State) : (s.freeVal).2.stSent = s.stSent := rfl
@[simp] theorem State.freeVal_stApplied (s : State) : (s.freeVal).2.stApplied = s.stApplied := rfl
@[simp] theorem State.freeVal_stKnown (s : State) : (s.freeVal).2.stKnown = s.stKnown := rfl
@[simp] theorem State.freeVal_stSkip (s : State) : (s.freeVal).2.stSkip = s.stSkip := rfl
@[simp] theorem State.freeVal_late (s : State) : (s.freeVal).2.late = s.late := rfl
@[simp] theorem State.freeVal_fw (s : State) : (s.freeVal).2.fw = s.fw := rfl
@[simp] theorem State.freeVal_routes (s : State) : (s.freeVal).2.routes = s.routes := rfl
@[simp] theorem State.freeVal_irqs (s : State) : (s.freeVal).2.irqs = s.irqs := rfl
@[simp] theorem State.freeVal_msix (s : State) : (s.freeVal).2.msix = s.msix := rfl
@[simp] theorem State.freeVal_msiLost (s : State) : (s.freeVal).2.msiLost = s.msiLost := rfl
@[simp] theorem State.freeVal_events (s : State) : (s.freeVal).2.events = s.events := rfl
@[simp] theorem State.freeVal_notices (s : State) : (s.freeVal).2.notices = s.notices := rfl
@[simp] theorem State.freeVal_doors (s : State) : (s.freeVal).2.doors = s.doors := rfl
@[simp] theorem State.freeVal_jobs (s : State) : (s.freeVal).2.jobs = s.jobs := rfl
@[simp] theorem State.freeVal_sprog (s : State) : (s.freeVal).2.sprog = s.sprog := rfl
@[simp] theorem State.freeVal_migrating (s : State) : (s.freeVal).2.migrating = s.migrating := rfl

/-! ### State.fresh -/

@[simp] theorem State.fresh_part (s : State) : (s.fresh).2.part = s.part := rfl
@[simp] theorem State.fresh_powered (s : State) : (s.fresh).2.powered = s.powered := rfl
@[simp] theorem State.fresh_now (s : State) : (s.fresh).2.now = s.now := rfl
@[simp] theorem State.fresh_free (s : State) : (s.fresh).2.free = s.free := rfl
@[simp] theorem State.fresh_bootStep (s : State) : (s.fresh).2.bootStep = s.bootStep := rfl
@[simp] theorem State.fresh_fuses (s : State) : (s.fresh).2.fuses = s.fuses := rfl
@[simp] theorem State.fresh_tested (s : State) : (s.fresh).2.tested = s.tested := rfl
@[simp] theorem State.fresh_fwSet (s : State) : (s.fresh).2.fwSet = s.fwSet := rfl
@[simp] theorem State.fresh_images (s : State) : (s.fresh).2.images = s.images := rfl
@[simp] theorem State.fresh_resps (s : State) : (s.fresh).2.resps = s.resps := rfl
@[simp] theorem State.fresh_rails (s : State) : (s.fresh).2.rails = s.rails := rfl
@[simp] theorem State.fresh_harts (s : State) : (s.fresh).2.harts = s.harts := rfl
@[simp] theorem State.fresh_conns (s : State) : (s.fresh).2.conns = s.conns := rfl
@[simp] theorem State.fresh_rcvs (s : State) : (s.fresh).2.rcvs = s.rcvs := rfl
@[simp] theorem State.fresh_wire (s : State) : (s.fresh).2.wire = s.wire := rfl
@[simp] theorem State.fresh_frames (s : State) : (s.fresh).2.frames = s.frames := rfl
@[simp] theorem State.fresh_agenda (s : State) : (s.fresh).2.agenda = s.agenda := rfl
@[simp] theorem State.fresh_cur (s : State) : (s.fresh).2.cur = s.cur := rfl
@[simp] theorem State.fresh_nextId (s : State) : (s.fresh).2.nextId = s.nextId + 1 := rfl
@[simp] theorem State.fresh_slices (s : State) : (s.fresh).2.slices = s.slices := rfl
@[simp] theorem State.fresh_cores (s : State) : (s.fresh).2.cores = s.cores := rfl
@[simp] theorem State.fresh_quarters (s : State) : (s.fresh).2.quarters = s.quarters := rfl
@[simp] theorem State.fresh_parts (s : State) : (s.fresh).2.parts = s.parts := rfl
@[simp] theorem State.fresh_blocks (s : State) : (s.fresh).2.blocks = s.blocks := rfl
@[simp] theorem State.fresh_mem (s : State) : (s.fresh).2.mem = s.mem := rfl
@[simp] theorem State.fresh_errs (s : State) : (s.fresh).2.errs = s.errs := rfl
@[simp] theorem State.fresh_poison (s : State) : (s.fresh).2.poison = s.poison := rfl
@[simp] theorem State.fresh_lineKey (s : State) : (s.fresh).2.lineKey = s.lineKey := rfl
@[simp] theorem State.fresh_reqs (s : State) : (s.fresh).2.reqs = s.reqs := rfl
@[simp] theorem State.fresh_walks (s : State) : (s.fresh).2.walks = s.walks := rfl
@[simp] theorem State.fresh_ordq (s : State) : (s.fresh).2.ordq = s.ordq := rfl
@[simp] theorem State.fresh_copies (s : State) : (s.fresh).2.copies = s.copies := rfl
@[simp] theorem State.fresh_queues (s : State) : (s.fresh).2.queues = s.queues := rfl
@[simp] theorem State.fresh_launches (s : State) : (s.fresh).2.launches = s.launches := rfl
@[simp] theorem State.fresh_cancels (s : State) : (s.fresh).2.cancels = s.cancels := rfl
@[simp] theorem State.fresh_rops (s : State) : (s.fresh).2.rops = s.rops := rfl
@[simp] theorem State.fresh_msgs (s : State) : (s.fresh).2.msgs = s.msgs := rfl
@[simp] theorem State.fresh_reports (s : State) : (s.fresh).2.reports = s.reports := rfl
@[simp] theorem State.fresh_perfs (s : State) : (s.fresh).2.perfs = s.perfs := rfl
@[simp] theorem State.fresh_stSent (s : State) : (s.fresh).2.stSent = s.stSent := rfl
@[simp] theorem State.fresh_stApplied (s : State) : (s.fresh).2.stApplied = s.stApplied := rfl
@[simp] theorem State.fresh_stKnown (s : State) : (s.fresh).2.stKnown = s.stKnown := rfl
@[simp] theorem State.fresh_stSkip (s : State) : (s.fresh).2.stSkip = s.stSkip := rfl
@[simp] theorem State.fresh_late (s : State) : (s.fresh).2.late = s.late := rfl
@[simp] theorem State.fresh_fw (s : State) : (s.fresh).2.fw = s.fw := rfl
@[simp] theorem State.fresh_routes (s : State) : (s.fresh).2.routes = s.routes := rfl
@[simp] theorem State.fresh_irqs (s : State) : (s.fresh).2.irqs = s.irqs := rfl
@[simp] theorem State.fresh_msix (s : State) : (s.fresh).2.msix = s.msix := rfl
@[simp] theorem State.fresh_msiLost (s : State) : (s.fresh).2.msiLost = s.msiLost := rfl
@[simp] theorem State.fresh_events (s : State) : (s.fresh).2.events = s.events := rfl
@[simp] theorem State.fresh_notices (s : State) : (s.fresh).2.notices = s.notices := rfl
@[simp] theorem State.fresh_doors (s : State) : (s.fresh).2.doors = s.doors := rfl
@[simp] theorem State.fresh_jobs (s : State) : (s.fresh).2.jobs = s.jobs := rfl
@[simp] theorem State.fresh_sprog (s : State) : (s.fresh).2.sprog = s.sprog := rfl
@[simp] theorem State.fresh_migrating (s : State) : (s.fresh).2.migrating = s.migrating := rfl

/-! ### State.zeroLines -/

@[simp] theorem State.zeroLines_part (s : State) (p : Nat → Bool) : (s.zeroLines p).part = s.part := rfl
@[simp] theorem State.zeroLines_powered (s : State) (p : Nat → Bool) : (s.zeroLines p).powered = s.powered := rfl
@[simp] theorem State.zeroLines_now (s : State) (p : Nat → Bool) : (s.zeroLines p).now = s.now := rfl
@[simp] theorem State.zeroLines_free (s : State) (p : Nat → Bool) : (s.zeroLines p).free = s.free := rfl
@[simp] theorem State.zeroLines_bootStep (s : State) (p : Nat → Bool) : (s.zeroLines p).bootStep = s.bootStep := rfl
@[simp] theorem State.zeroLines_fuses (s : State) (p : Nat → Bool) : (s.zeroLines p).fuses = s.fuses := rfl
@[simp] theorem State.zeroLines_tested (s : State) (p : Nat → Bool) : (s.zeroLines p).tested = s.tested := rfl
@[simp] theorem State.zeroLines_fwSet (s : State) (p : Nat → Bool) : (s.zeroLines p).fwSet = s.fwSet := rfl
@[simp] theorem State.zeroLines_images (s : State) (p : Nat → Bool) : (s.zeroLines p).images = s.images := rfl
@[simp] theorem State.zeroLines_resps (s : State) (p : Nat → Bool) : (s.zeroLines p).resps = s.resps := rfl
@[simp] theorem State.zeroLines_rails (s : State) (p : Nat → Bool) : (s.zeroLines p).rails = s.rails := rfl
@[simp] theorem State.zeroLines_harts (s : State) (p : Nat → Bool) : (s.zeroLines p).harts = s.harts := rfl
@[simp] theorem State.zeroLines_conns (s : State) (p : Nat → Bool) : (s.zeroLines p).conns = s.conns := rfl
@[simp] theorem State.zeroLines_rcvs (s : State) (p : Nat → Bool) : (s.zeroLines p).rcvs = s.rcvs := rfl
@[simp] theorem State.zeroLines_wire (s : State) (p : Nat → Bool) : (s.zeroLines p).wire = s.wire := rfl
@[simp] theorem State.zeroLines_frames (s : State) (p : Nat → Bool) : (s.zeroLines p).frames = s.frames := rfl
@[simp] theorem State.zeroLines_agenda (s : State) (p : Nat → Bool) : (s.zeroLines p).agenda = s.agenda := rfl
@[simp] theorem State.zeroLines_cur (s : State) (p : Nat → Bool) : (s.zeroLines p).cur = s.cur := rfl
@[simp] theorem State.zeroLines_nextId (s : State) (p : Nat → Bool) : (s.zeroLines p).nextId = s.nextId := rfl
@[simp] theorem State.zeroLines_slices (s : State) (p : Nat → Bool) : (s.zeroLines p).slices = s.slices := rfl
@[simp] theorem State.zeroLines_cores (s : State) (p : Nat → Bool) : (s.zeroLines p).cores = s.cores := rfl
@[simp] theorem State.zeroLines_quarters (s : State) (p : Nat → Bool) : (s.zeroLines p).quarters = s.quarters := rfl
@[simp] theorem State.zeroLines_parts (s : State) (p : Nat → Bool) : (s.zeroLines p).parts = s.parts := rfl
@[simp] theorem State.zeroLines_blocks (s : State) (p : Nat → Bool) : (s.zeroLines p).blocks = s.blocks := rfl
@[simp] theorem State.zeroLines_reqs (s : State) (p : Nat → Bool) : (s.zeroLines p).reqs = s.reqs := rfl
@[simp] theorem State.zeroLines_walks (s : State) (p : Nat → Bool) : (s.zeroLines p).walks = s.walks := rfl
@[simp] theorem State.zeroLines_ordq (s : State) (p : Nat → Bool) : (s.zeroLines p).ordq = s.ordq := rfl
@[simp] theorem State.zeroLines_copies (s : State) (p : Nat → Bool) : (s.zeroLines p).copies = s.copies := rfl
@[simp] theorem State.zeroLines_queues (s : State) (p : Nat → Bool) : (s.zeroLines p).queues = s.queues := rfl
@[simp] theorem State.zeroLines_launches (s : State) (p : Nat → Bool) : (s.zeroLines p).launches = s.launches := rfl
@[simp] theorem State.zeroLines_cancels (s : State) (p : Nat → Bool) : (s.zeroLines p).cancels = s.cancels := rfl
@[simp] theorem State.zeroLines_rops (s : State) (p : Nat → Bool) : (s.zeroLines p).rops = s.rops := rfl
@[simp] theorem State.zeroLines_msgs (s : State) (p : Nat → Bool) : (s.zeroLines p).msgs = s.msgs := rfl
@[simp] theorem State.zeroLines_reports (s : State) (p : Nat → Bool) : (s.zeroLines p).reports = s.reports := rfl
@[simp] theorem State.zeroLines_perfs (s : State) (p : Nat → Bool) : (s.zeroLines p).perfs = s.perfs := rfl
@[simp] theorem State.zeroLines_stSent (s : State) (p : Nat → Bool) : (s.zeroLines p).stSent = s.stSent := rfl
@[simp] theorem State.zeroLines_stApplied (s : State) (p : Nat → Bool) : (s.zeroLines p).stApplied = s.stApplied := rfl
@[simp] theorem State.zeroLines_stKnown (s : State) (p : Nat → Bool) : (s.zeroLines p).stKnown = s.stKnown := rfl
@[simp] theorem State.zeroLines_stSkip (s : State) (p : Nat → Bool) : (s.zeroLines p).stSkip = s.stSkip := rfl
@[simp] theorem State.zeroLines_late (s : State) (p : Nat → Bool) : (s.zeroLines p).late = s.late := rfl
@[simp] theorem State.zeroLines_fw (s : State) (p : Nat → Bool) : (s.zeroLines p).fw = s.fw := rfl
@[simp] theorem State.zeroLines_routes (s : State) (p : Nat → Bool) : (s.zeroLines p).routes = s.routes := rfl
@[simp] theorem State.zeroLines_irqs (s : State) (p : Nat → Bool) : (s.zeroLines p).irqs = s.irqs := rfl
@[simp] theorem State.zeroLines_msix (s : State) (p : Nat → Bool) : (s.zeroLines p).msix = s.msix := rfl
@[simp] theorem State.zeroLines_msiLost (s : State) (p : Nat → Bool) : (s.zeroLines p).msiLost = s.msiLost := rfl
@[simp] theorem State.zeroLines_events (s : State) (p : Nat → Bool) : (s.zeroLines p).events = s.events := rfl
@[simp] theorem State.zeroLines_notices (s : State) (p : Nat → Bool) : (s.zeroLines p).notices = s.notices := rfl
@[simp] theorem State.zeroLines_doors (s : State) (p : Nat → Bool) : (s.zeroLines p).doors = s.doors := rfl
@[simp] theorem State.zeroLines_jobs (s : State) (p : Nat → Bool) : (s.zeroLines p).jobs = s.jobs := rfl
@[simp] theorem State.zeroLines_sprog (s : State) (p : Nat → Bool) : (s.zeroLines p).sprog = s.sprog := rfl
@[simp] theorem State.zeroLines_migrating (s : State) (p : Nat → Bool) : (s.zeroLines p).migrating = s.migrating := rfl

/-! ### Group.vset -/

@[simp] theorem Group.vset_role (g : Group) (r i : Nat) (x : Word) : (g.vset r i x).role = g.role := rfl
@[simp] theorem Group.vset_producer (g : Group) (r i : Nat) (x : Word) : (g.vset r i x).producer = g.producer := rfl
@[simp] theorem Group.vset_quarter (g : Group) (r i : Nat) (x : Word) : (g.vset r i x).quarter = g.quarter := rfl
@[simp] theorem Group.vset_slot (g : Group) (r i : Nat) (x : Word) : (g.vset r i x).slot = g.slot := rfl
@[simp] theorem Group.vset_vregs (g : Group) (r i : Nat) (x : Word) : (g.vset r i x).vregs = g.vregs := rfl
@[simp] theorem Group.vset_sregs (g : Group) (r i : Nat) (x : Word) : (g.vset r i x).sregs = g.sregs := rfl
@[simp] theorem Group.vset_s (g : Group) (r i : Nat) (x : Word) : (g.vset r i x).s = g.s := rfl
@[simp] theorem Group.vset_p (g : Group) (r i : Nat) (x : Word) : (g.vset r i x).p = g.p := rfl
@[simp] theorem Group.vset_flags (g : Group) (r i : Nat) (x : Word) : (g.vset r i x).flags = g.flags := rfl
@[simp] theorem Group.vset_tillers (g : Group) (r i : Nat) (x : Word) : (g.vset r i x).tillers = g.tillers := rfl
@[simp] theorem Group.vset_rcds (g : Group) (r i : Nat) (x : Word) : (g.vset r i x).rcds = g.rcds := rfl
@[simp] theorem Group.vset_nextRcd (g : Group) (r i : Nat) (x : Word) : (g.vset r i x).nextRcd = g.nextRcd := rfl
@[simp] theorem Group.vset_pend (g : Group) (r i : Nat) (x : Word) : (g.vset r i x).pend = g.pend := rfl
@[simp] theorem Group.vset_nextPend (g : Group) (r i : Nat) (x : Word) : (g.vset r i x).nextPend = g.nextPend := rfl
@[simp] theorem Group.vset_lastSlot (g : Group) (r i : Nat) (x : Word) : (g.vset r i x).lastSlot = g.lastSlot := rfl
@[simp] theorem Group.vset_exited (g : Group) (r i : Nat) (x : Word) : (g.vset r i x).exited = g.exited := rfl
@[simp] theorem Group.vset_parks (g : Group) (r i : Nat) (x : Word) : (g.vset r i x).parks = g.parks := rfl
@[simp] theorem Group.vset_wide (g : Group) (r i : Nat) (x : Word) : (g.vset r i x).wide = g.wide := rfl
@[simp] theorem Group.vset_trap (g : Group) (r i : Nat) (x : Word) : (g.vset r i x).trap = g.trap := rfl
@[simp] theorem Group.vset_bars (g : Group) (r i : Nat) (x : Word) : (g.vset r i x).bars = g.bars := rfl
@[simp] theorem Group.vset_ended (g : Group) (r i : Nat) (x : Word) : (g.vset r i x).ended = g.ended := rfl
@[simp] theorem Group.vset_lastIssue (g : Group) (r i : Nat) (x : Word) : (g.vset r i x).lastIssue = g.lastIssue := rfl
@[simp] theorem Group.vset_lastPc (g : Group) (r i : Nat) (x : Word) : (g.vset r i x).lastPc = g.lastPc := rfl
@[simp] theorem Group.vset_readySince (g : Group) (r i : Nat) (x : Word) : (g.vset r i x).readySince = g.readySince := rfl
@[simp] theorem Group.vset_idleSince (g : Group) (r i : Nat) (x : Word) : (g.vset r i x).idleSince = g.idleSince := rfl
@[simp] theorem Group.vset_sealCnt (g : Group) (r i : Nat) (x : Word) : (g.vset r i x).sealCnt = g.sealCnt := rfl
@[simp] theorem Group.vset_sheafNum (g : Group) (r i : Nat) (x : Word) : (g.vset r i x).sheafNum = g.sheafNum := rfl
@[simp] theorem Group.vset_openSheaf (g : Group) (r i : Nat) (x : Word) : (g.vset r i x).openSheaf = g.openSheaf := rfl
@[simp] theorem Group.vset_sheaves (g : Group) (r i : Nat) (x : Word) : (g.vset r i x).sheaves = g.sheaves := rfl
@[simp] theorem Group.vset_anyFail (g : Group) (r i : Nat) (x : Word) : (g.vset r i x).anyFail = g.anyFail := rfl
@[simp] theorem Group.vset_flash (g : Group) (r i : Nat) (x : Word) : (g.vset r i x).flash = g.flash := rfl
@[simp] theorem Group.vset_rsAny (g : Group) (r i : Nat) (x : Word) : (g.vset r i x).rsAny = g.rsAny := rfl
@[simp] theorem Group.vset_rsCause (g : Group) (r i : Nat) (x : Word) : (g.vset r i x).rsCause = g.rsCause := rfl
@[simp] theorem Group.vset_rsPeer (g : Group) (r i : Nat) (x : Word) : (g.vset r i x).rsPeer = g.rsPeer := rfl
@[simp] theorem Group.vset_recCnt (g : Group) (r i : Nat) (x : Word) : (g.vset r i x).recCnt = g.recCnt := rfl
@[simp] theorem Group.vset_ordCnt (g : Group) (r i : Nat) (x : Word) : (g.vset r i x).ordCnt = g.ordCnt := rfl

/-! ### Group.sset -/

@[simp] theorem Group.sset_role (g : Group) (r : Nat) (x : DWord) : (g.sset r x).role = g.role := rfl
@[simp] theorem Group.sset_producer (g : Group) (r : Nat) (x : DWord) : (g.sset r x).producer = g.producer := rfl
@[simp] theorem Group.sset_quarter (g : Group) (r : Nat) (x : DWord) : (g.sset r x).quarter = g.quarter := rfl
@[simp] theorem Group.sset_slot (g : Group) (r : Nat) (x : DWord) : (g.sset r x).slot = g.slot := rfl
@[simp] theorem Group.sset_vregs (g : Group) (r : Nat) (x : DWord) : (g.sset r x).vregs = g.vregs := rfl
@[simp] theorem Group.sset_sregs (g : Group) (r : Nat) (x : DWord) : (g.sset r x).sregs = g.sregs := rfl
@[simp] theorem Group.sset_v (g : Group) (r : Nat) (x : DWord) : (g.sset r x).v = g.v := rfl
@[simp] theorem Group.sset_p (g : Group) (r : Nat) (x : DWord) : (g.sset r x).p = g.p := rfl
@[simp] theorem Group.sset_flags (g : Group) (r : Nat) (x : DWord) : (g.sset r x).flags = g.flags := rfl
@[simp] theorem Group.sset_tillers (g : Group) (r : Nat) (x : DWord) : (g.sset r x).tillers = g.tillers := rfl
@[simp] theorem Group.sset_rcds (g : Group) (r : Nat) (x : DWord) : (g.sset r x).rcds = g.rcds := rfl
@[simp] theorem Group.sset_nextRcd (g : Group) (r : Nat) (x : DWord) : (g.sset r x).nextRcd = g.nextRcd := rfl
@[simp] theorem Group.sset_pend (g : Group) (r : Nat) (x : DWord) : (g.sset r x).pend = g.pend := rfl
@[simp] theorem Group.sset_nextPend (g : Group) (r : Nat) (x : DWord) : (g.sset r x).nextPend = g.nextPend := rfl
@[simp] theorem Group.sset_lastSlot (g : Group) (r : Nat) (x : DWord) : (g.sset r x).lastSlot = g.lastSlot := rfl
@[simp] theorem Group.sset_exited (g : Group) (r : Nat) (x : DWord) : (g.sset r x).exited = g.exited := rfl
@[simp] theorem Group.sset_parks (g : Group) (r : Nat) (x : DWord) : (g.sset r x).parks = g.parks := rfl
@[simp] theorem Group.sset_wide (g : Group) (r : Nat) (x : DWord) : (g.sset r x).wide = g.wide := rfl
@[simp] theorem Group.sset_trap (g : Group) (r : Nat) (x : DWord) : (g.sset r x).trap = g.trap := rfl
@[simp] theorem Group.sset_bars (g : Group) (r : Nat) (x : DWord) : (g.sset r x).bars = g.bars := rfl
@[simp] theorem Group.sset_ended (g : Group) (r : Nat) (x : DWord) : (g.sset r x).ended = g.ended := rfl
@[simp] theorem Group.sset_lastIssue (g : Group) (r : Nat) (x : DWord) : (g.sset r x).lastIssue = g.lastIssue := rfl
@[simp] theorem Group.sset_lastPc (g : Group) (r : Nat) (x : DWord) : (g.sset r x).lastPc = g.lastPc := rfl
@[simp] theorem Group.sset_readySince (g : Group) (r : Nat) (x : DWord) : (g.sset r x).readySince = g.readySince := rfl
@[simp] theorem Group.sset_idleSince (g : Group) (r : Nat) (x : DWord) : (g.sset r x).idleSince = g.idleSince := rfl
@[simp] theorem Group.sset_sealCnt (g : Group) (r : Nat) (x : DWord) : (g.sset r x).sealCnt = g.sealCnt := rfl
@[simp] theorem Group.sset_sheafNum (g : Group) (r : Nat) (x : DWord) : (g.sset r x).sheafNum = g.sheafNum := rfl
@[simp] theorem Group.sset_openSheaf (g : Group) (r : Nat) (x : DWord) : (g.sset r x).openSheaf = g.openSheaf := rfl
@[simp] theorem Group.sset_sheaves (g : Group) (r : Nat) (x : DWord) : (g.sset r x).sheaves = g.sheaves := rfl
@[simp] theorem Group.sset_anyFail (g : Group) (r : Nat) (x : DWord) : (g.sset r x).anyFail = g.anyFail := rfl
@[simp] theorem Group.sset_flash (g : Group) (r : Nat) (x : DWord) : (g.sset r x).flash = g.flash := rfl
@[simp] theorem Group.sset_rsAny (g : Group) (r : Nat) (x : DWord) : (g.sset r x).rsAny = g.rsAny := rfl
@[simp] theorem Group.sset_rsCause (g : Group) (r : Nat) (x : DWord) : (g.sset r x).rsCause = g.rsCause := rfl
@[simp] theorem Group.sset_rsPeer (g : Group) (r : Nat) (x : DWord) : (g.sset r x).rsPeer = g.rsPeer := rfl
@[simp] theorem Group.sset_recCnt (g : Group) (r : Nat) (x : DWord) : (g.sset r x).recCnt = g.recCnt := rfl
@[simp] theorem Group.sset_ordCnt (g : Group) (r : Nat) (x : DWord) : (g.sset r x).ordCnt = g.ordCnt := rfl

/-! ### Group.pset -/

@[simp] theorem Group.pset_role (g : Group) (r : Nat) (x : Word) : (g.pset r x).role = g.role := rfl
@[simp] theorem Group.pset_producer (g : Group) (r : Nat) (x : Word) : (g.pset r x).producer = g.producer := rfl
@[simp] theorem Group.pset_quarter (g : Group) (r : Nat) (x : Word) : (g.pset r x).quarter = g.quarter := rfl
@[simp] theorem Group.pset_slot (g : Group) (r : Nat) (x : Word) : (g.pset r x).slot = g.slot := rfl
@[simp] theorem Group.pset_vregs (g : Group) (r : Nat) (x : Word) : (g.pset r x).vregs = g.vregs := rfl
@[simp] theorem Group.pset_sregs (g : Group) (r : Nat) (x : Word) : (g.pset r x).sregs = g.sregs := rfl
@[simp] theorem Group.pset_v (g : Group) (r : Nat) (x : Word) : (g.pset r x).v = g.v := rfl
@[simp] theorem Group.pset_s (g : Group) (r : Nat) (x : Word) : (g.pset r x).s = g.s := rfl
@[simp] theorem Group.pset_flags (g : Group) (r : Nat) (x : Word) : (g.pset r x).flags = g.flags := rfl
@[simp] theorem Group.pset_tillers (g : Group) (r : Nat) (x : Word) : (g.pset r x).tillers = g.tillers := rfl
@[simp] theorem Group.pset_rcds (g : Group) (r : Nat) (x : Word) : (g.pset r x).rcds = g.rcds := rfl
@[simp] theorem Group.pset_nextRcd (g : Group) (r : Nat) (x : Word) : (g.pset r x).nextRcd = g.nextRcd := rfl
@[simp] theorem Group.pset_pend (g : Group) (r : Nat) (x : Word) : (g.pset r x).pend = g.pend := rfl
@[simp] theorem Group.pset_nextPend (g : Group) (r : Nat) (x : Word) : (g.pset r x).nextPend = g.nextPend := rfl
@[simp] theorem Group.pset_lastSlot (g : Group) (r : Nat) (x : Word) : (g.pset r x).lastSlot = g.lastSlot := rfl
@[simp] theorem Group.pset_exited (g : Group) (r : Nat) (x : Word) : (g.pset r x).exited = g.exited := rfl
@[simp] theorem Group.pset_parks (g : Group) (r : Nat) (x : Word) : (g.pset r x).parks = g.parks := rfl
@[simp] theorem Group.pset_wide (g : Group) (r : Nat) (x : Word) : (g.pset r x).wide = g.wide := rfl
@[simp] theorem Group.pset_trap (g : Group) (r : Nat) (x : Word) : (g.pset r x).trap = g.trap := rfl
@[simp] theorem Group.pset_bars (g : Group) (r : Nat) (x : Word) : (g.pset r x).bars = g.bars := rfl
@[simp] theorem Group.pset_ended (g : Group) (r : Nat) (x : Word) : (g.pset r x).ended = g.ended := rfl
@[simp] theorem Group.pset_lastIssue (g : Group) (r : Nat) (x : Word) : (g.pset r x).lastIssue = g.lastIssue := rfl
@[simp] theorem Group.pset_lastPc (g : Group) (r : Nat) (x : Word) : (g.pset r x).lastPc = g.lastPc := rfl
@[simp] theorem Group.pset_readySince (g : Group) (r : Nat) (x : Word) : (g.pset r x).readySince = g.readySince := rfl
@[simp] theorem Group.pset_idleSince (g : Group) (r : Nat) (x : Word) : (g.pset r x).idleSince = g.idleSince := rfl
@[simp] theorem Group.pset_sealCnt (g : Group) (r : Nat) (x : Word) : (g.pset r x).sealCnt = g.sealCnt := rfl
@[simp] theorem Group.pset_sheafNum (g : Group) (r : Nat) (x : Word) : (g.pset r x).sheafNum = g.sheafNum := rfl
@[simp] theorem Group.pset_openSheaf (g : Group) (r : Nat) (x : Word) : (g.pset r x).openSheaf = g.openSheaf := rfl
@[simp] theorem Group.pset_sheaves (g : Group) (r : Nat) (x : Word) : (g.pset r x).sheaves = g.sheaves := rfl
@[simp] theorem Group.pset_anyFail (g : Group) (r : Nat) (x : Word) : (g.pset r x).anyFail = g.anyFail := rfl
@[simp] theorem Group.pset_flash (g : Group) (r : Nat) (x : Word) : (g.pset r x).flash = g.flash := rfl
@[simp] theorem Group.pset_rsAny (g : Group) (r : Nat) (x : Word) : (g.pset r x).rsAny = g.rsAny := rfl
@[simp] theorem Group.pset_rsCause (g : Group) (r : Nat) (x : Word) : (g.pset r x).rsCause = g.rsCause := rfl
@[simp] theorem Group.pset_rsPeer (g : Group) (r : Nat) (x : Word) : (g.pset r x).rsPeer = g.rsPeer := rfl
@[simp] theorem Group.pset_recCnt (g : Group) (r : Nat) (x : Word) : (g.pset r x).recCnt = g.recCnt := rfl
@[simp] theorem Group.pset_ordCnt (g : Group) (r : Nat) (x : Word) : (g.pset r x).ordCnt = g.ordCnt := rfl

/-! ### Group.setTil -/

@[simp] theorem Group.setTil_role (g : Group) (k : Nat) (t : Tiller) : (g.setTil k t).role = g.role := rfl
@[simp] theorem Group.setTil_producer (g : Group) (k : Nat) (t : Tiller) : (g.setTil k t).producer = g.producer := rfl
@[simp] theorem Group.setTil_quarter (g : Group) (k : Nat) (t : Tiller) : (g.setTil k t).quarter = g.quarter := rfl
@[simp] theorem Group.setTil_slot (g : Group) (k : Nat) (t : Tiller) : (g.setTil k t).slot = g.slot := rfl
@[simp] theorem Group.setTil_vregs (g : Group) (k : Nat) (t : Tiller) : (g.setTil k t).vregs = g.vregs := rfl
@[simp] theorem Group.setTil_sregs (g : Group) (k : Nat) (t : Tiller) : (g.setTil k t).sregs = g.sregs := rfl
@[simp] theorem Group.setTil_v (g : Group) (k : Nat) (t : Tiller) : (g.setTil k t).v = g.v := rfl
@[simp] theorem Group.setTil_s (g : Group) (k : Nat) (t : Tiller) : (g.setTil k t).s = g.s := rfl
@[simp] theorem Group.setTil_p (g : Group) (k : Nat) (t : Tiller) : (g.setTil k t).p = g.p := rfl
@[simp] theorem Group.setTil_flags (g : Group) (k : Nat) (t : Tiller) : (g.setTil k t).flags = g.flags := rfl
@[simp] theorem Group.setTil_rcds (g : Group) (k : Nat) (t : Tiller) : (g.setTil k t).rcds = g.rcds := rfl
@[simp] theorem Group.setTil_nextRcd (g : Group) (k : Nat) (t : Tiller) : (g.setTil k t).nextRcd = g.nextRcd := rfl
@[simp] theorem Group.setTil_pend (g : Group) (k : Nat) (t : Tiller) : (g.setTil k t).pend = g.pend := rfl
@[simp] theorem Group.setTil_nextPend (g : Group) (k : Nat) (t : Tiller) : (g.setTil k t).nextPend = g.nextPend := rfl
@[simp] theorem Group.setTil_lastSlot (g : Group) (k : Nat) (t : Tiller) : (g.setTil k t).lastSlot = g.lastSlot := rfl
@[simp] theorem Group.setTil_exited (g : Group) (k : Nat) (t : Tiller) : (g.setTil k t).exited = g.exited := rfl
@[simp] theorem Group.setTil_parks (g : Group) (k : Nat) (t : Tiller) : (g.setTil k t).parks = g.parks := rfl
@[simp] theorem Group.setTil_wide (g : Group) (k : Nat) (t : Tiller) : (g.setTil k t).wide = g.wide := rfl
@[simp] theorem Group.setTil_trap (g : Group) (k : Nat) (t : Tiller) : (g.setTil k t).trap = g.trap := rfl
@[simp] theorem Group.setTil_bars (g : Group) (k : Nat) (t : Tiller) : (g.setTil k t).bars = g.bars := rfl
@[simp] theorem Group.setTil_ended (g : Group) (k : Nat) (t : Tiller) : (g.setTil k t).ended = g.ended := rfl
@[simp] theorem Group.setTil_lastIssue (g : Group) (k : Nat) (t : Tiller) : (g.setTil k t).lastIssue = g.lastIssue := rfl
@[simp] theorem Group.setTil_lastPc (g : Group) (k : Nat) (t : Tiller) : (g.setTil k t).lastPc = g.lastPc := rfl
@[simp] theorem Group.setTil_readySince (g : Group) (k : Nat) (t : Tiller) : (g.setTil k t).readySince = g.readySince := rfl
@[simp] theorem Group.setTil_idleSince (g : Group) (k : Nat) (t : Tiller) : (g.setTil k t).idleSince = g.idleSince := rfl
@[simp] theorem Group.setTil_sealCnt (g : Group) (k : Nat) (t : Tiller) : (g.setTil k t).sealCnt = g.sealCnt := rfl
@[simp] theorem Group.setTil_sheafNum (g : Group) (k : Nat) (t : Tiller) : (g.setTil k t).sheafNum = g.sheafNum := rfl
@[simp] theorem Group.setTil_openSheaf (g : Group) (k : Nat) (t : Tiller) : (g.setTil k t).openSheaf = g.openSheaf := rfl
@[simp] theorem Group.setTil_sheaves (g : Group) (k : Nat) (t : Tiller) : (g.setTil k t).sheaves = g.sheaves := rfl
@[simp] theorem Group.setTil_anyFail (g : Group) (k : Nat) (t : Tiller) : (g.setTil k t).anyFail = g.anyFail := rfl
@[simp] theorem Group.setTil_flash (g : Group) (k : Nat) (t : Tiller) : (g.setTil k t).flash = g.flash := rfl
@[simp] theorem Group.setTil_rsAny (g : Group) (k : Nat) (t : Tiller) : (g.setTil k t).rsAny = g.rsAny := rfl
@[simp] theorem Group.setTil_rsCause (g : Group) (k : Nat) (t : Tiller) : (g.setTil k t).rsCause = g.rsCause := rfl
@[simp] theorem Group.setTil_rsPeer (g : Group) (k : Nat) (t : Tiller) : (g.setTil k t).rsPeer = g.rsPeer := rfl
@[simp] theorem Group.setTil_recCnt (g : Group) (k : Nat) (t : Tiller) : (g.setTil k t).recCnt = g.recCnt := rfl
@[simp] theorem Group.setTil_ordCnt (g : Group) (k : Nat) (t : Tiller) : (g.setTil k t).ordCnt = g.ordCnt := rfl

/-! ### The executing tiller put back -/

@[simp] theorem Ex.close_part (x : Ex) : x.close.part = x.s.part := rfl
@[simp] theorem Ex.close_powered (x : Ex) : x.close.powered = x.s.powered := rfl
@[simp] theorem Ex.close_now (x : Ex) : x.close.now = x.s.now := rfl
@[simp] theorem Ex.close_free (x : Ex) : x.close.free = x.s.free := rfl
@[simp] theorem Ex.close_bootStep (x : Ex) : x.close.bootStep = x.s.bootStep := rfl
@[simp] theorem Ex.close_fuses (x : Ex) : x.close.fuses = x.s.fuses := rfl
@[simp] theorem Ex.close_tested (x : Ex) : x.close.tested = x.s.tested := rfl
@[simp] theorem Ex.close_fwSet (x : Ex) : x.close.fwSet = x.s.fwSet := rfl
@[simp] theorem Ex.close_images (x : Ex) : x.close.images = x.s.images := rfl
@[simp] theorem Ex.close_resps (x : Ex) : x.close.resps = x.s.resps := rfl
@[simp] theorem Ex.close_rails (x : Ex) : x.close.rails = x.s.rails := rfl
@[simp] theorem Ex.close_harts (x : Ex) : x.close.harts = x.s.harts := rfl
@[simp] theorem Ex.close_conns (x : Ex) : x.close.conns = x.s.conns := rfl
@[simp] theorem Ex.close_rcvs (x : Ex) : x.close.rcvs = x.s.rcvs := rfl
@[simp] theorem Ex.close_wire (x : Ex) : x.close.wire = x.s.wire := rfl
@[simp] theorem Ex.close_frames (x : Ex) : x.close.frames = x.s.frames := rfl
@[simp] theorem Ex.close_agenda (x : Ex) : x.close.agenda = x.s.agenda := rfl
@[simp] theorem Ex.close_cur (x : Ex) : x.close.cur = x.s.cur := rfl
@[simp] theorem Ex.close_nextId (x : Ex) : x.close.nextId = x.s.nextId := rfl
@[simp] theorem Ex.close_slices (x : Ex) : x.close.slices = x.s.slices := rfl
@[simp] theorem Ex.close_cores (x : Ex) : x.close.cores = x.s.cores := rfl
@[simp] theorem Ex.close_quarters (x : Ex) : x.close.quarters = x.s.quarters := rfl
@[simp] theorem Ex.close_parts (x : Ex) : x.close.parts = x.s.parts := rfl
@[simp] theorem Ex.close_blocks (x : Ex) : x.close.blocks = tput x.s.blocks x.c.b x.blk := rfl
@[simp] theorem Ex.close_mem (x : Ex) : x.close.mem = x.s.mem := rfl
@[simp] theorem Ex.close_errs (x : Ex) : x.close.errs = x.s.errs := rfl
@[simp] theorem Ex.close_poison (x : Ex) : x.close.poison = x.s.poison := rfl
@[simp] theorem Ex.close_lineKey (x : Ex) : x.close.lineKey = x.s.lineKey := rfl
@[simp] theorem Ex.close_reqs (x : Ex) : x.close.reqs = x.s.reqs := rfl
@[simp] theorem Ex.close_walks (x : Ex) : x.close.walks = x.s.walks := rfl
@[simp] theorem Ex.close_ordq (x : Ex) : x.close.ordq = x.s.ordq := rfl
@[simp] theorem Ex.close_copies (x : Ex) : x.close.copies = x.s.copies := rfl
@[simp] theorem Ex.close_queues (x : Ex) : x.close.queues = x.s.queues := rfl
@[simp] theorem Ex.close_launches (x : Ex) : x.close.launches = x.s.launches := rfl
@[simp] theorem Ex.close_cancels (x : Ex) : x.close.cancels = x.s.cancels := rfl
@[simp] theorem Ex.close_rops (x : Ex) : x.close.rops = x.s.rops := rfl
@[simp] theorem Ex.close_msgs (x : Ex) : x.close.msgs = x.s.msgs := rfl
@[simp] theorem Ex.close_reports (x : Ex) : x.close.reports = x.s.reports := rfl
@[simp] theorem Ex.close_perfs (x : Ex) : x.close.perfs = x.s.perfs := rfl
@[simp] theorem Ex.close_stSent (x : Ex) : x.close.stSent = x.s.stSent := rfl
@[simp] theorem Ex.close_stApplied (x : Ex) : x.close.stApplied = x.s.stApplied := rfl
@[simp] theorem Ex.close_stKnown (x : Ex) : x.close.stKnown = x.s.stKnown := rfl
@[simp] theorem Ex.close_stSkip (x : Ex) : x.close.stSkip = x.s.stSkip := rfl
@[simp] theorem Ex.close_late (x : Ex) : x.close.late = x.s.late := rfl
@[simp] theorem Ex.close_fw (x : Ex) : x.close.fw = x.s.fw := rfl
@[simp] theorem Ex.close_routes (x : Ex) : x.close.routes = x.s.routes := rfl
@[simp] theorem Ex.close_irqs (x : Ex) : x.close.irqs = x.s.irqs := rfl
@[simp] theorem Ex.close_msix (x : Ex) : x.close.msix = x.s.msix := rfl
@[simp] theorem Ex.close_msiLost (x : Ex) : x.close.msiLost = x.s.msiLost := rfl
@[simp] theorem Ex.close_events (x : Ex) : x.close.events = x.s.events := rfl
@[simp] theorem Ex.close_notices (x : Ex) : x.close.notices = x.s.notices := rfl
@[simp] theorem Ex.close_doors (x : Ex) : x.close.doors = x.s.doors := rfl
@[simp] theorem Ex.close_jobs (x : Ex) : x.close.jobs = x.s.jobs := rfl
@[simp] theorem Ex.close_sprog (x : Ex) : x.close.sprog = x.s.sprog := rfl
@[simp] theorem Ex.close_migrating (x : Ex) : x.close.migrating = x.s.migrating := rfl

end Sys2Proof.Machine
end

