-- ==== Sys2Proof/Laws/Ops.lean ====
section
/-!
SUPPORT. What the shared operations can do, said once: tables, the executing tiller taken out and put back, issue, the end of an instruction, an
event, a command, and what the selection of a quarter gives.
-/
namespace Sys2Proof.Machine

/-! ### Tables -/

@[simp] theorem tget_tput_same {α : Type} : ∀ (l : List (Nat × α)) (k : Nat) (v : α), tget (tput l k v) k = some v
  | [], k, v => by simp [tput, tget]
  | (a, w) :: t, k, v => by
    unfold tput; split
    · simp [tget, *]
    · simp [tget, *, tget_tput_same t k v]

theorem tget_tput_other {α : Type} : ∀ (l : List (Nat × α)) {k j : Nat} (v : α), j ≠ k → tget (tput l k v) j = tget l j
  | [], k, j, v, h => by simp [tput, tget, h]
  | (a, w) :: t, k, j, v, h => by
    unfold tput; split
    · subst k; simp [tget, h]
    · simp [tget, tget_tput_other t v h]

theorem tget_tmod {α : Type} (l : List (Nat × α)) (k j : Nat) (f : α → α) :
    tget (tmod l k f) j = if j = k then (tget l j).map f else tget l j := by
  unfold tmod
  split
  · rename_i v hv
    split
    · subst j; simp [hv]
    · exact tget_tput_other _ _ ‹_›
  · split
    · subst j; simp [*]
    · rfl

theorem tget_tmap {α : Type} (f : Nat → α → α) : ∀ (l : List (Nat × α)) (k : Nat), tget (tmap f l) k = (tget l k).map (f k)
  | [], _ => rfl
  | (a, v) :: t, k => by
    have ih := tget_tmap f t k
    by_cases h : k = a
    · subst h; simp [tmap, tget]
    · simp only [tmap, List.map_cons, tget, h, if_false] at ih ⊢; exact ih

theorem tget_tdel_same {α : Type} : ∀ (l : List (Nat × α)) (k : Nat), tget (tdel l k) k = none
  | [], _ => rfl
  | (a, v) :: t, k => by
    have ih := tget_tdel_same t k
    by_cases h : a = k
    · subst h; simpa [tdel] using ih
    · have h' : k ≠ a := fun e => h e.symm
      simp only [tdel] at ih
      simp [tdel, h, tget, h', ih]

theorem tget_tdel_other {α : Type} : ∀ (l : List (Nat × α)) {k j : Nat}, j ≠ k → tget (tdel l k) j = tget l j
  | [], _, _, _ => rfl
  | (a, v) :: t, k, j, h => by
    have ih := tget_tdel_other t h
    simp only [tdel] at ih
    by_cases ha : a = k
    · subst ha; simp [tdel, tget, h, ih]
    · simp [tdel, ha, tget, ih]

/-! ### Lists -/

theorem listGet_of_getElem? {α : Type} (d : α) : ∀ (l : List α) (i : Nat) {x : α}, l[i]? = some x → listGet d l i = x
  | [], i, _, h => by simp at h
  | _ :: _, 0, _, h => by simpa [listGet] using h
  | _ :: t, i + 1, _, h => by rw [listGet]; exact listGet_of_getElem? d t i (by simpa using h)

theorem getElem?_listSet_same {α : Type} : ∀ (l : List α) (i : Nat) (v : α), i < l.length → (listSet l i v)[i]? = some v
  | [], i, _, h => by simp at h
  | _ :: _, 0, _, _ => by simp [listSet]
  | _ :: t, i + 1, v, h => by simpa [listSet] using getElem?_listSet_same t i v (by simpa using h)

theorem getElem?_listSet_other {α : Type} : ∀ (l : List α) {i j : Nat} (v : α), j ≠ i → (listSet l i v)[j]? = l[j]?
  | [], _, _, _, _ => by simp [listSet]
  | _ :: _, 0, j, _, h => by cases j with
    | zero => exact absurd rfl h
    | succ j => simp [listSet]
  | _ :: t, i + 1, j, v, h => by cases j with
    | zero => simp [listSet]
    | succ j => simpa [listSet] using getElem?_listSet_other t v (by omega : j ≠ i)

@[simp] theorem length_listSet {α : Type} : ∀ (l : List α) (i : Nat) (v : α), (listSet l i v).length = l.length
  | [], _, _ => rfl
  | _ :: _, 0, _ => rfl
  | _ :: t, i + 1, v => by simp [listSet, length_listSet t i v]

/-! ### The executing tiller -/

/-- What `load` takes out: the tiller that `cur` names, where there is one. -/
theorem load_some {s : State} {x : Ex} (h : s.load = some x) :
    s.cur = some x.c ∧ tget s.blocks x.c.b = some x.b ∧ x.b.groups[x.c.g]? = some x.g ∧ x.g.tillers[x.c.t]? = some x.t ∧ x.s = s := by
  unfold State.load at h
  split at h
  · cases h
  · split at h
    · cases h
    · split at h
      · cases h
      · split at h
        · cases h
        · cases h; exact ⟨‹_›, ‹_›, ‹_›, ‹_›, rfl⟩

/-- The tiller put back is the tiller taken out again. -/
theorem load_close {s : State} {x y : Ex} (h : s.load = some x) (hc : y.c = x.c) (hs : y.s.cur = s.cur)
    (hg : x.c.g < y.b.groups.length) (ht : x.c.t < y.g.tillers.length) :
    y.close.load = some { s := y.close, c := y.c, b := y.blk, g := y.grp, t := y.t } := by
  obtain ⟨h1, _⟩ := load_some h
  have e1 : y.close.cur = some y.c := by rw [Ex.close_cur, hs, h1, hc]
  have e2 : tget y.close.blocks y.c.b = some y.blk := by simp
  have e3 : y.blk.groups[y.c.g]? = some y.grp := getElem?_listSet_same _ _ _ (by rw [hc]; exact hg)
  have e4 : y.grp.tillers[y.c.t]? = some y.t := getElem?_listSet_same _ _ _ (by rw [hc]; exact ht)
  simp only [State.load, e1, e2, e3, e4]

/-! ### Issue -/

/-- An instruction that issues has its effect on the tiller gone on to the next instruction. -/
theorem issue_of_issues {i : Instr} {s : State} {x : Ex} (h : Issues i s x) (f : Ex → Eff) : issue i f s = .next (finish i x (f (x.book i))) := by
  obtain ⟨h1, h2, h3, h4, h5, h6⟩ := h
  simp [issue, issueP, h1, h2, h3, h4, h5, h6]

/-- The same with a privilege check that passes. -/
theorem issueP_of_issues {i : Instr} {s : State} {x : Ex} {priv : Ex → Bool} (h : Issues i s x) (hp : priv x = true) (f : Ex → Eff) :
    issueP priv i f s = .next (finish i x (f (x.book i))) := by
  obtain ⟨h1, h2, h3, h4, h5, h6⟩ := h
  simp [issueP, h1, h2, h3, h4, h5, h6, hp]

/-- Issue always goes on where a tiller is selected. -/
theorem issueP_next {i : Instr} {s : State} {x : Ex} (h : s.load = some x) (priv : Ex → Bool) (f : Ex → Eff) :
    ∃ t, issueP priv i f s = .next t := by
  unfold issueP
  rw [h]
  dsimp only
  split
  · exact ⟨_, rfl⟩
  · split
    · exact ⟨_, rfl⟩
    · split
      · exact ⟨_, rfl⟩
      · split
        · exact ⟨_, rfl⟩
        · split <;> exact ⟨_, rfl⟩

/-- Issue stops only for want of a tiller. -/
theorem issueP_none {i : Instr} {s : State} (h : s.load = none) (priv : Ex → Bool) (f : Ex → Eff) : issueP priv i f s = .fault .noTiller := by
  simp [issueP, h]

/-! ### How an instruction ends -/

theorem finish_ok (i : Instr) (x y : Ex) : finish i x (.ok y) = y.close.count x.b.slice x.b.vd 0x001 1 := rfl
theorem finish_trap (i : Instr) (x : Ex) (code info : Nat) : finish i x (.trap code info) = x.trapped code info (twoWords i) := rfl
theorem finish_prog (i : Instr) (x : Ex) (f : Fail) : finish i x (.prog f) = x.close.failBlock x.c.b f := rfl

/-- Counting changes the counters of a slice and nothing else. -/
theorem count_slices (s : State) (slice vd ev n : Nat) : s.count slice vd ev n = { s with slices := (s.count slice vd ev n).slices } := rfl

/-- Booking changes of the group only the issue marks and the flashback point's validity. -/
theorem book_frame (x : Ex) (i : Instr) :
    (x.book i).s = x.s ∧ (x.book i).c = x.c ∧ (x.book i).b = x.b ∧ (x.book i).g.v = x.g.v ∧ (x.book i).g.s = x.g.s ∧ (x.book i).g.p = x.g.p ∧
    (x.book i).g.flags = x.g.flags ∧ (x.book i).g.pend = x.g.pend ∧ (x.book i).g.tillers = x.g.tillers ∧ (x.book i).t.mask = x.t.mask ∧
    (x.book i).t.fmt = x.t.fmt ∧ (x.book i).t.mode = x.t.mode ∧ (x.book i).t.pc = (x.t.pc + ilen i) % 2 ^ 64 := by
  refine ⟨rfl, rfl, rfl, ?_, ?_, ?_, ?_, ?_, ?_, rfl, rfl, rfl, rfl⟩ <;> rfl

/-! ### Events and commands -/

theorem event_next (s : State) (o : Option State) : event s o = .next (o.getD s) := rfl
theorem event_some (s t : State) : event s (some t) = .next t := rfl
theorem event_none (s : State) : event s none = .next s := rfl

/-- A response is appended and nothing else changes. -/
theorem reply_resps (s : State) (c : Cmd) (st : Nat) (d : List Nat) (b : List Byte) :
    (s.reply c st d b).resps = s.resps ++ [{ cmd := c, status := st, data := d, bytes := b }] := rfl
theorem reply_mem (s : State) (c : Cmd) (st : Nat) (d : List Nat) (b : List Byte) : (s.reply c st d b).mem = s.mem := rfl

/-- A command of the port that may run. -/
theorem portCmd_run {s : State} {c : Cmd} (hc : c.src = none) (hb : 4 ≤ s.bootStep) (f : State → Option State) : s.portCmd c f = f s := by
  unfold State.portCmd
  rw [hc]; simp; omega

/-- A command of the kernel of a running partition. -/
theorem partCmd_run {s : State} {c : Cmd} {pid : Nat} {p : Part} (hc : c.src = some pid) (hp : tget s.parts pid = some p)
    (hr : p.st = .running) (f : Nat → Part → State → Option State) : s.partCmd c f = f pid p s := by
  simp [State.partCmd, hc, hp, hr]

end Sys2Proof.Machine
end

