-- ==== Sys2Proof/Laws/Claims.lean ====
section
/-!
SUPPORT. What the shared operations do, in the vocabulary of the statements: an instruction that ends with its tiller put back keeps the machine, one
that posts results posts them, and one whose guard is false passes.
-/
namespace Sys2Proof.Claims
open Sys2Proof.Machine

theorem sliceKept_refl (a : Slice) : SliceKept a a := rfl

/-- Counting keeps every slice but for its counters. -/
theorem count_kept (s : State) (slice vd ev n : Nat) (k : Nat) : SliceKept (s.slice k) ((s.count slice vd ev n).slice k) := by
  show SliceKept (s.slice k) (((tget (tmod s.slices slice _) k)).getD {})
  rw [tget_tmod]
  split
  · unfold State.slice SliceKept
    cases tget s.slices k <;> rfl
  · rfl

/-- A tiller put back, and counted, holds. -/
theorem holds_close {y z : Ex} (hs : y.s = z.s) (hc : y.c = z.c) (hb : y.b = z.b) (hg : y.c.g < y.b.groups.length) (ht : y.c.t < y.g.tillers.length)
    (hk : GroupKept z.g y.g) (htl : y.g.tillers = z.g.tillers) (htt : y.t = z.t) (slice vd ev n : Nat) :
    Holds (y.close.count slice vd ev n) z := by
  refine ⟨?_, fun k => ?_, fun k hk => ?_, listSet y.b.groups y.c.g y.grp, y.grp, ?_, ?_, ?_, ?_, ?_, ?_, ?_⟩
  · rw [← hs]; rfl
  · have := count_kept y.close slice vd ev n k
    rw [← hs]; exact this
  · show tget (tput y.s.blocks y.c.b y.blk) k = _
    rw [tget_tput_other _ _ (by rw [hc]; exact hk), hs]
  · show tget (tput y.s.blocks y.c.b y.blk) z.c.b = _
    rw [← hc, tget_tput_same, Ex.blk, hb]
  · rw [length_listSet, hb]
  · rw [← hc]; exact getElem?_listSet_same _ _ _ hg
  · intro j hj; rw [← hc] at hj; rw [getElem?_listSet_other _ _ hj, hb]
  · have h1 : y.grp = { y.g with tillers := listSet y.g.tillers y.c.t y.t } := rfl
    rw [h1]; unfold GroupKept at hk ⊢; rw [hk]
  · intro j hj
    show (listSet y.g.tillers y.c.t y.t)[j]? = _
    rw [← hc] at hj
    rw [getElem?_listSet_other _ _ hj, htl]
  · show (listSet y.g.tillers y.c.t y.t)[z.c.t]? = _
    rw [← hc, getElem?_listSet_same _ _ _ ht, htt]

/-- Booking keeps the group but for its marks. -/
theorem book_kept (x : Ex) (i : Instr) : GroupKept x.g (x.book i).g := by
  have h : ∀ (f : Flash) l, f.wrote l = { f with valid := (f.wrote l).valid } := fun f l => by unfold Flash.wrote; split <;> rfl
  unfold GroupKept Ex.book
  dsimp only
  split
  · rw [h]
  · rfl

/-- The executing tiller has its places. -/
theorem places {s : State} {x : Ex} (h : s.load = some x) : x.s = s ∧ x.c.g < x.b.groups.length ∧ x.c.t < x.g.tillers.length := by
  obtain ⟨_, _, h3, h4, h5⟩ := load_some h
  rw [List.getElem?_eq_some_iff] at h3 h4
  exact ⟨h5, h3.1, h4.1⟩

/-- An instruction that ends with `y`, which differs from the booked tiller as `z` differs from `x`. -/
theorem ends_of {i : Instr} {s : State} {x y z : Ex} (h : s.load = some x) (he : exec i s = .next (finish i x (.ok y))) (hs : y.s = z.s)
    (hc : y.c = z.c) (hzc : z.c = x.c) (hb : y.b = z.b) (hzb : z.b.groups.length = x.b.groups.length) (hk : GroupKept z.g y.g)
    (htl : y.g.tillers = z.g.tillers) (hlen : z.g.tillers.length = x.g.tillers.length) (htt : y.t = z.t) : Ends i s z := by
  obtain ⟨_, h2, h3⟩ := places h
  exact ⟨_, he, holds_close hs hc hb (by rw [hc, hzc, hb, hzb]; exact h2) (by rw [hc, hzc, htl, hlen]; exact h3) hk htl htt _ _ _ _⟩

/-- The registers that an instruction names depend only on the group's scalars and their number. -/
theorem usesSeq_congr (i : Instr) {g g' : Group} (e : g'.sregs = g.sregs) : usesSeq g' i = usesSeq g i := by
  cases i <;> first | rfl | simp only [usesSeq, trapRegs, e]
theorem usesVec_congr (i : Instr) {g g' : Group} (e : g'.s = g.s) : usesVec g' i = usesVec g i := by
  have e2 : ∀ n a, usesA g' n a = usesA g n a := fun n a => by cases a <;> simp [usesA, Group.sget, e]
  cases i <;> first | rfl | simp [usesVec, usesV, usesSh, usesV3, usesF, usesF3, usesFU, usV, movRd, e2]
theorem usesLsu_congr (i : Instr) {g g' : Group} (e : g'.s = g.s) : usesLsu g' i = usesLsu g i := by
  have e2 : ∀ n a, usesA g' n a = usesA g n a := fun n a => by cases a <;> simp [usesA, Group.sget, e]
  cases i <;> first | rfl | simp [usesLsu, usesAt, usesCas, usV, e2]
theorem usesOf_congr (i : Instr) {g g' : Group} (e : g'.s = g.s) (e' : g'.sregs = g.sregs) : usesOf i g' = usesOf i g := by
  unfold usesOf; rw [usesSeq_congr i e', usesVec_congr i e, usesLsu_congr i e]

/-- A pending entry added to the booked tiller. -/
theorem pend_eq (x : Ex) (i : Instr) (marks : List RegId) (wr : List Wr) (fl : Nat) (kind : PKind) :
    (x.book i).pend i marks wr fl kind = { (x.book i) with
      g := withPend (x.book i).g { slot := x.c.t, mask := x.t.mask, op := opcode i, marks := marks, wr := wr, fl := fl, kind := kind }
      t := { nextT i x with
        wins := (nextT i x).wins ++ opened i x
        st := if !isL (opcode i) || (fields i).look != 0 then .ready else match kind with
          | .alu => .ready
          | .mem _ => .longWait (.on x.g.nextPend)
          | .cond (.bar b) => .atBar b
          | .cond _ => .longWait (.on x.g.nextPend) } } := by
  unfold Ex.pend opened
  dsimp only
  by_cases hl : isL (opcode i) = true
  · simp only [hl]
    by_cases hk : (fields i).look = 0 <;> simp [hk, Ex.book, nextT, withPend]
    all_goals (rcases kind with _ | _ | c <;> rfl)
  · have hl : isL (opcode i) = false := by simpa using hl
    simp [hl, Ex.book, nextT, withPend]

/-- A booked tiller that posts results completes. -/
theorem posts_of {i : Instr} {s : State} {x : Ex} {wr : List Wr} {fl : Nat} {mode : Word} (h : s.load = some x)
    (he : exec i s = .next (finish i x (.ok { ((x.book i).defer i wr fl) with t := { ((x.book i).defer i wr fl).t with mode := mode } }))) :
    PostsM i s x wr fl mode := by
  have hu : usesOf i (x.book i).g = usesOf i x.g := usesOf_congr i rfl rfl
  have hm : (x.book i).defer i wr fl = (x.book i).pend i ((usesOf i x.g).wr ++ (if fl = 0 then [] else [.flags])) wr fl .alu := by
    unfold Ex.defer; rw [hu]; by_cases hf : fl = 0 <;> simp [hf]
  rw [hm, pend_eq] at he
  obtain ⟨t, ht, hh⟩ : Ends i s { x with g := withPend x.g (resultOf i x wr fl), t := { nextT i x with mode := mode, wins := (nextT i x).wins ++ opened i x } } := by
    refine ends_of h he rfl rfl rfl rfl rfl ?_ rfl rfl ?_
    · have hb := book_kept x i
      unfold GroupKept at hb ⊢
      dsimp only [withPend, resultOf]
      rw [hb]
    · simp [nextT]
  refine ⟨t, ht, ?_, hh⟩
  rw [he] at ht
  cases ht
  refine ⟨_, ⟨_, tget_tput_same _ _ _, getElem?_listSet_same _ _ _ (places h).2.1⟩, ?_⟩
  show (x.book i).g.flash.valid = _
  unfold Ex.book voids Flash.wrote
  dsimp only
  split <;> rename_i hg
  · split <;> rename_i hw <;> simp_all
  · simp_all

/-- A booked tiller that waits for a condition. -/
theorem waits_of {i : Instr} {s : State} {x : Ex} {c : Cond} (h : s.load = some x) (hbar : ∀ b, c ≠ .bar b)
    (he : exec i s = .next (finish i x (.ok ((x.book i).pend i [] [] 0 (.cond c))))) : Waits i s x c := by
  rw [pend_eq] at he
  refine ends_of h he rfl rfl rfl rfl rfl ?_ rfl rfl ?_
  · have hb := book_kept x i
    unfold GroupKept at hb ⊢
    dsimp only [withPend, condOf]
    rw [hb]
  · dsimp only
    cases hl : isL (opcode i) <;> by_cases hk : (fields i).look = 0 <;> simp [hk]

/-- A booked tiller without a result passes. -/
theorem passes_of {i : Instr} {s : State} {x : Ex} {mode : Word} (h : s.load = some x)
    (he : exec i s = .next (finish i x (.ok { (x.book i) with t := { (x.book i).t with mode := mode } }))) : Passes i s x mode :=
  ends_of h he rfl rfl rfl rfl rfl (book_kept x i) rfl rfl rfl

/-- An instruction that issues and whose effect is `y` ends with `z`, which is `y` but for the marks of the issue. -/
theorem ends_issue {i : Instr} {s : State} {x y z : Ex} {f : Ex → Eff} (h : Issues i s x) (he : exec i s = issue i f s) (hf : f (x.book i) = .ok y)
    (hs : y.s = z.s) (hc : y.c = z.c) (hzc : z.c = x.c) (hb : y.b = z.b) (hzb : z.b.groups.length = x.b.groups.length) (hk : GroupKept z.g y.g)
    (htl : y.g.tillers = z.g.tillers) (hlen : z.g.tillers.length = x.g.tillers.length) (htt : y.t = z.t) : Ends i s z :=
  ends_of h.1 (by rw [he, issue_of_issues h, hf]) hs hc hzc hb hzb hk htl hlen htt

/-- A uniform instruction whose guard is false passes. -/
theorem passes_guard {i : Instr} {s : State} {x : Ex} {h : Hd} {f : Ex → Eff} (hi : Issues i s x) (he : exec i s = issue i (uniform h f) s)
    (hg : x.guard h = 0) : Passes i s x x.t.mode := by
  refine ends_issue (y := x.book i) hi he ?_ rfl rfl rfl rfl rfl (book_kept x i) rfl rfl rfl
  have : (x.book i).guard h = 0 := hg
  simp [uniform, this]

/-- A uniform instruction whose guard is true has its effect. -/
theorem uniform_true {i : Instr} {x : Ex} {h : Hd} {f : Ex → Eff} (hg : x.guard h ≠ 0) : uniform h f (x.book i) = f (x.book i) := by
  have : (x.book i).guard h ≠ 0 := hg
  simp [uniform, this]

/-- Booking changes the marks of the last issue, the flashback point's validity and the tiller, and nothing else. -/
theorem book_eq (x : Ex) (i : Instr) : x.book i = { x with
    g := { x.g with lastIssue := x.s.now, lastPc := x.t.pc, lastSlot := x.c.t, flash := { x.g.flash with valid := (x.book i).g.flash.valid } }
    t := nextT i x } := by
  have h : ∀ (f : Flash) l, f.wrote l = { f with valid := (f.wrote l).valid } := fun f l => by unfold Flash.wrote; split <;> rfl
  unfold Ex.book nextT
  dsimp only
  split
  · rw [h]
  · rfl

/-- A block changed becomes what the change gives. -/
theorem modBlock_becomes {s : State} {b : Nat} {bl : Block} (h : tget s.blocks b = some bl) (f : Block → Block) :
    BlockBecomes s (s.modBlock b f) b (f bl) := by
  refine ⟨rfl, fun k hk => ?_, ?_⟩ <;> show tget (tmod s.blocks b f) _ = _ <;> rw [tget_tmod]
  · rw [if_neg hk]
  · rw [if_pos rfl, h]; rfl

/-- A group changed becomes what the change gives. -/
theorem modGroup_becomes {s : State} {b g : Nat} {gr : Group} (h : GroupAt s b g gr) (f : Group → Group) :
    GroupBecomes s (s.modGroup b g f) b g (f gr) := by
  obtain ⟨bl, hb, hg⟩ := h
  have hl := (List.getElem?_eq_some_iff.mp hg).1
  refine ⟨bl, listSet bl.groups g (f gr), hb, ?_, getElem?_listSet_same _ _ _ hl, fun j hj => getElem?_listSet_other _ _ hj⟩
  have := modBlock_becomes hb (fun b => match b.groups[g]? with
    | some g' => { b with groups := listSet b.groups g (f g') }
    | none => b)
  rw [hg] at this
  exact this

end Sys2Proof.Claims
end

