-- ==== Sys2Proof/Laws/Mem.lean ====
section
/-!
SUPPORT. The memory of the stacks: which operations write it, that each keeps the canonical form, and what reads back.
-/
namespace Sys2Proof.Machine

theorem reset_mem_wf : State.reset.mem.wf = true := rfl

theorem writeLE_wf {m : Memory} (h : m.wf = true) (a n v : Nat) : (writeLE m a n v).wf = true := csets_wf _ _ h

/-! ### Lists of bytes -/

@[simp] theorem length_upto (n : Nat) : (upto n).length = n := by simp [upto]
@[simp] theorem length_toBytes : ∀ n x : Nat, (toBytes n x).length = n
  | 0, _ => rfl
  | n + 1, x => by simp [toBytes, length_toBytes n]
@[simp] theorem length_cgets {α : Type} (d : α) (l : Cells α) (k n : Nat) : (cgets d l k n).length = n := by simp [cgets]

/-- The value of n bytes of a value is its n low bytes. -/
theorem ofBytes_toBytes : ∀ n x : Nat, ofBytes (toBytes n x) = x % 256 ^ n
  | 0, x => by simp [toBytes, ofBytes, Nat.mod_one]
  | n + 1, x => by
    have ih := ofBytes_toBytes n (x / 256)
    rw [toBytes, ofBytes, ih, BitVec.toNat_ofNat, show 2 ^ 8 = 256 from rfl, Nat.pow_succ, Nat.mul_comm (256 ^ n) 256, Nat.mod_mul]

/-- A little-endian value written is what is read (R3). -/
theorem readLE_writeLE {m : Memory} (h : m.wf = true) (a n v : Nat) : readLE (writeLE m a n v) a n = v % 256 ^ n := by
  have : cgets (0 : Byte) (csets 0 m a (toBytes n v)) a n = toBytes n v := by
    apply List.ext_getElem (by simp)
    intro i h1 h2
    simp only [cgets, List.getElem_map, upto, List.getElem_range]
    exact cget_csets_in _ i h2 h
  rw [readLE, writeLE, this, ofBytes_toBytes]

/-! ### What the reads of a line leave -/

@[simp] theorem checkLine_mem (s : State) (line : Nat) : (s.checkLine line).1.mem = s.mem := by
  unfold State.checkLine; dsimp only; split
  · rfl
  · split
    · rfl
    · split <;> rfl

@[simp] theorem length_recryptLine (a b tweak : Nat) (l : List Byte) : (recryptLine a b tweak l).length = 128 := by
  unfold recryptLine; simp

@[simp] theorem homeRead_mem (s : State) (home sla n slot : Nat) : (s.homeRead home sla n slot).1.mem = s.mem := by
  unfold State.homeRead; dsimp only; split
  · rfl
  · split
    · exact checkLine_mem _ _
    · split <;> exact checkLine_mem _ _

@[simp] theorem wakePch_mem (s : State) (home sla : Nat) : (s.wakePch home sla).mem = s.mem := rfl

@[simp] theorem allocLine_mem (s : State) (slice vd : Nat) (ways : List Nat) (x : SLine) : (s.allocLine slice vd ways x).mem = s.mem := by
  unfold State.allocLine; dsimp only
  split
  · rfl
  · split <;> rfl

@[simp] theorem touch_mem (s : State) (home pid vd vdTag gran sla : Nat) (t : Traf) : (s.touch home pid vd vdTag gran sla t).mem = s.mem := by
  unfold State.touch; dsimp only
  split <;> split <;> first | rfl | (split <;> simp <;> split <;> rfl)

/-! ### The writes keep the canonical form -/

theorem homeWrite_wf {s : State} (home sla slot : Nat) (b : List Byte) (h : s.mem.wf = true) :
    (s.homeWrite home sla slot b).1.mem.wf = true := by
  unfold State.homeWrite; dsimp only
  split
  · exact h
  · split
    · exact csets_wf _ _ h
    · have hr := homeRead_mem s home (sla / 128 * 128) 128 slot
      split
      · rename_i e; rw [e] at hr; rw [hr]; exact h
      · rename_i s' old e
        rw [e] at hr
        have h' : s'.mem.wf = true := by rw [hr]; exact h
        split <;> exact csets_wf _ _ h'

theorem zeroLines_wf {s : State} (p : Nat → Bool) (h : s.mem.wf = true) : (s.zeroLines p).mem.wf = true := by
  have e : (s.zeroLines p).mem = cfilter (fun a => !p (a / 128)) s.mem := rfl
  rw [e]
  exact cfilter_wf (fun a => !p (a / 128)) h

theorem dropDirty_wf {m : Memory} (l : List SLine) (h : m.wf = true) : (dropDirty m l).wf = true := by
  refine foldl_wf _ (fun m y hm => ?_) l h
  split
  · exact csets_wf _ _ hm
  · exact hm

theorem foldl_mem {β : Type} (f : State → β → State) (hf : ∀ s b, (f s b).mem = s.mem) : ∀ (l : List β) (s : State), (l.foldl f s).mem = s.mem
  | [], _ => rfl
  | b :: t, s => by rw [List.foldl_cons, foldl_mem f hf t, hf]

/-- A fold of writes over entries keeps the form. -/
theorem putAll_wf {m : Memory} (h : m.wf = true) (l : Cells Byte) (f : Nat → Nat) : Memory.wf (l.foldl (fun m e => cset 0 m (f e.1) e.2) m) = true :=
  foldl_wf _ (fun _ _ hm => cset_wf _ _ hm) _ h

theorem moveGran_wf {s : State} (src dst : Nat × Nat) (h : s.mem.wf = true) : (s.moveGran src dst).mem.wf = true := by
  unfold State.moveGran
  generalize (16384 : Nat) = n
  dsimp only
  have h1 : ((upto n).foldl (fun s i => if cget 0 s.errs (cell src.1 src.2 / 128 + i) == 0 then s
      else (s.checkLine (cell src.1 src.2 / 128 + i)).1) s).mem = s.mem :=
    foldl_mem _ (fun s i => by
      split
      · rfl
      · exact checkLine_mem _ _) _ _
  exact putAll_wf (zeroLines_wf _ (by rw [h1]; exact h)) _ fun k => k - cell src.1 src.2 / 128 * 128 + cell dst.1 dst.2 / 128 * 128

theorem noFill_mem (s : State) (slice : Nat) (p : Req → Bool) : (s.noFill slice p).mem = s.mem := rfl

theorem scrubLines_wf {s : State} (pid : Nat) (j : ScrubJob) (h : s.mem.wf = true) : (s.scrubLines pid j).mem.wf = true :=
  dropDirty_wf _ (by rw [foldl_mem _ fun _ _ => noFill_mem _ _ _]; exact h)

/-! ### The frame of a write -/

/-- Zeroing lines leaves the bytes of every other line. -/
theorem zeroLines_get {s : State} (p : Nat → Bool) (h : s.mem.wf = true) (a : Nat) :
    cget 0 (s.zeroLines p).mem a = if p (a / 128) then 0 else cget 0 s.mem a := by
  rw [State.zeroLines, cget_cfilter _ _ h]
  cases p (a / 128) <;> rfl

/-- A write to a home leaves every byte of every other line. -/
theorem homeWrite_other {s : State} (home sla slot : Nat) (b : List Byte) (h : s.mem.wf = true) (hb : sla % 128 + b.length ≤ 128) {a : Nat}
    (ha : a / 128 ≠ lineAt home sla) : cget 0 (s.homeWrite home sla slot b).1.mem a = cget 0 s.mem a := by
  have hc : ∀ x : Nat, cell home x = home * 68719476736 + x := fun _ => rfl
  have hl : lineAt home sla = home * 536870912 + sla / 128 := by
    unfold lineAt cell; omega
  have hs : (s.homeRead home (sla / 128 * 128) 128 slot).1.mem = s.mem := homeRead_mem ..
  unfold State.homeWrite; dsimp only
  split
  · rfl
  · split
    · rename_i hn
      have hn' : b.length = 128 := by simpa using hn
      apply cget_csets_other _ h
      rw [hc, hn']; omega
    · split
      · rename_i e; rw [e] at hs; rw [hs]
      · rename_i s' old e
        rw [e] at hs
        have h' : s'.mem.wf = true := by rw [hs]; exact h
        have hold : old.length = 128 := by
          have := congrArg Prod.snd e
          revert this
          unfold State.homeRead; dsimp only
          split
          · simp
          · split
            · simp
            · split
              · intro q; cases q; simp
              · intro q; cases q; simp [Nat.mul_mod_left]
        split
        · show cget 0 (csets 0 s'.mem (cell home sla) b) a = _
          rw [cget_csets_other _ h' (by rw [hc]; omega), hs]
        · show cget 0 (csets 0 s'.mem (cell home (sla / 128 * 128)) (splice old (sla % 128) b)) a = _
          rw [cget_csets_other _ h' _, hs]
          have : (splice old (sla % 128) b).length = 128 := by
            simp only [splice, List.length_append, List.length_take, List.length_drop, hold]; omega
          rw [this, hc]; omega

/-- Bytes written through a slot whose key the line is already under are the bytes of memory, and the other bytes of the line stay. -/
theorem homeWrite_in {s : State} {home sla slot k : Nat} (b : List Byte) (hk : s.keyOf home slot = some k)
    (hl : cget 0 s.lineKey (lineAt home sla) = k) (hp : cget false s.poison (lineAt home sla) = false) (he : cget 0 s.errs (lineAt home sla) = 0)
    (hb : b.length < 128) : (s.homeWrite home sla slot b) = ({ s with mem := csets 0 s.mem (cell home sla) b }, true) := by
  have hline : lineAt home (sla / 128 * 128) = lineAt home sla := by unfold lineAt cell; omega
  have hne : (b.length == 128) = false := by simp; omega
  have hc : s.checkLine (lineAt home sla) = (s, false) := by simp [State.checkLine, hp, he]
  unfold State.homeWrite
  simp [hk, hne, State.homeRead, hline, hc, hl]

end Sys2Proof.Machine
end

