-- ==== Sys2Proof/Laws/PerInstr.lean ====
section
/-!
SUPPORT. Facts about every instruction as it is written, one lemma per constructor of `Instr`: the length and the opcode of its words are a row of the
opcode map (R27, R50).
-/
namespace Sys2Proof.Laws.Row

/-- The opcode map has a row for the opcode, and the row allows the length. -/
def lenOk (op len : Nat) : Bool :=
  match opRow op with
  | some (l, _) => l.contains len
  | none => false

/-- The words of an instruction are as many as its opcode allows, and at most four. -/
def Statement (i : Instr) : Prop := ∀ r, i.raw = some r → lenOk r.op r.len = true ∧ 1 ≤ r.len ∧ r.len ≤ 3

section
variable (r : Raw)
@[simp] theorem setA_len (a : VSrc) : (r.setA a).len = r.len := by cases a <;> rfl
@[simp] theorem setA_op (a : VSrc) : (r.setA a).op = r.op := by cases a <;> rfl
@[simp] theorem setImm_len (v : Imm) : (r.setImm v).len = r.len := by cases v <;> rfl
@[simp] theorem setImm_op (v : Imm) : (r.setImm v).op = r.op := by cases v <;> rfl
@[simp] theorem setB_len {n : Nat} (b : Src n) : (r.setB b).len = r.len := by rcases b with _ | (_ | _ | _) <;> rfl
@[simp] theorem setB_op {n : Nat} (b : Src n) : (r.setB b).op = r.op := by rcases b with _ | (_ | _ | _) <;> rfl
@[simp] theorem setB10_len {n : Nat} (b : Src10 n) : (r.setB10 b).len = r.len := by cases b <;> rfl
@[simp] theorem setB10_op {n : Nat} (b : Src10 n) : (r.setB10 b).op = r.op := by cases b <;> rfl
@[simp] theorem setB32_len (b : Src32) : (r.setB32 b).len = r.len := by cases b <;> rfl
@[simp] theorem setB32_op (b : Src32) : (r.setB32 b).op = r.op := by cases b <;> rfl
@[simp] theorem setSem_len (n : Nat) (m : Option (Sem × Scope)) : (r.setSem n m).len = r.len := by rcases m with _ | ⟨_, _⟩ <;> rfl
@[simp] theorem setSem_op (n : Nat) (m : Option (Sem × Scope)) : (r.setSem n m).op = r.op := by rcases m with _ | ⟨_, _⟩ <;> rfl
@[simp] theorem setAmt_len (n : Amt) : (r.setAmt n).len = r.len := by cases n <;> rfl
@[simp] theorem setAmt_op (n : Amt) : (r.setAmt n).op = r.op := by cases n <;> rfl
@[simp] theorem rawH_len (len op : Nat) (h : Hd) : (rawH len op h).len = len := rfl
@[simp] theorem rawH_op (len op : Nat) (h : Hd) : (rawH len op h).op = op := rfl
end
@[simp] theorem encRed_len (op : Nat) (h : Hd) (e : Nat) (o : RedOp) : (encRed op h e o).len = 1 := by cases o <;> rfl
@[simp] theorem encRed_op (op : Nat) (h : Hd) (e : Nat) (o : RedOp) : (encRed op h e o).op = op := by cases o <;> rfl

/-- A fixed length. -/
theorem fixed {i : Instr} {op len : Nat} (e : ∀ r, i.raw = some r → r.op = op ∧ r.len = len) (h : lenOk op len = true ∧ 1 ≤ len ∧ len ≤ 3) :
    Statement i := fun r hr => by obtain ⟨h1, h2⟩ := e r hr; rw [h1, h2]; exact h
/-- The length that operand B gives where there is no operand C. -/
theorem byB {i : Instr} {op n : Nat} {b : Src n} (e : ∀ r, i.raw = some r → r.op = op ∧ r.len = b.len)
    (h : lenOk op 1 = true ∧ lenOk op 2 = true ∧ lenOk op 3 = true) : Statement i := fun r hr => by
  obtain ⟨h1, h2⟩ := e r hr
  rw [h1, h2]
  rcases b with _ | (_ | _ | _) <;> simp [Src.len, Imm.len, h]
/-- The length that operand B gives beside operand C. -/
theorem byBC {i : Instr} {op n : Nat} {b : Src n} (e : ∀ r, i.raw = some r → r.op = op ∧ r.len = b.lenC)
    (h : lenOk op 2 = true ∧ lenOk op 3 = true) : Statement i := fun r hr => by
  obtain ⟨h1, h2⟩ := e r hr
  rw [h1, h2]
  rcases b with _ | (_ | _ | _) <;> simp [Src.lenC, h]
/-- A step without words. -/
theorem noWords {i : Instr} (e : i.raw = none) : Statement i := fun r hr => by rw [e] at hr; cases hr

end Sys2Proof.Laws.Row

namespace Sys2Proof.Laws
open Row

theorem Row.pad : Statement (.pad) := noWords rfl
theorem Row.nop (h : Hd) : Statement (.nop h) := fixed (op := 0x00) (len := 1) (fun r h => by cases h; simp) (by decide)
theorem Row.bra (h : Hd) (m : BMode) (off : BitVec 22) : Statement (.bra h m off) := fixed (op := 0x01) (len := 2) (fun r h => by cases h; simp) (by decide)
theorem Row.brx (h : Hd) (m : BMode) (a : SReg) : Statement (.brx h m a) := fixed (op := 0x02) (len := 1) (fun r h => by cases h; simp) (by decide)
theorem Row.call (h : Hd) (m : BMode) (d : SReg) (off : BitVec 22) : Statement (.call h m d off) := fixed (op := 0x03) (len := 2) (fun r h => by cases h; simp) (by decide)
theorem Row.callx (h : Hd) (m : BMode) (d : SReg) (a : SReg) : Statement (.callx h m d a) := fixed (op := 0x04) (len := 1) (fun r h => by cases h; simp) (by decide)
theorem Row.ret (h : Hd) (m : BMode) (a : SReg) : Statement (.ret h m a) := fixed (op := 0x05) (len := 1) (fun r h => by cases h; simp) (by decide)
theorem Row.join (look : Fin 16) : Statement (.join look) := fixed (op := 0x06) (len := 1) (fun r h => by cases h; simp [rawU]) (by decide)
theorem Row.wide (look : Fin 16) : Statement (.wide look) := fixed (op := 0x07) (len := 1) (fun r h => by cases h; simp [rawU]) (by decide)
theorem Row.endwide (look : Fin 16) : Statement (.endwide look) := fixed (op := 0x08) (len := 1) (fun r h => by cases h; simp [rawU]) (by decide)
theorem Row.exit (h : Hd) : Statement (.exit h) := fixed (op := 0x09) (len := 1) (fun r h => by cases h; simp) (by decide)
theorem Row.trap (h : Hd) (n : Fin 512) : Statement (.trap h n) := fixed (op := 0x0A) (len := 1) (fun r h => by cases h; simp) (by decide)
theorem Row.bkpt (h : Hd) : Statement (.bkpt h) := fixed (op := 0x0B) (len := 1) (fun r h => by cases h; simp) (by decide)
theorem Row.bar (look : Fin 16) (id : Fin 16) (pass : Bool) (n : Src10 128) : Statement (.bar look id pass n) := fixed (op := 0x0C) (len := 1) (fun r h => by cases h; simp [rawU]) (by decide)
theorem Row.parrive (h : Hd) (old : Option SReg) (a : SReg) (cnt : Option SReg) (off : BitVec 22) : Statement (.parrive h old a cnt off) := fixed (op := 0x0D) (len := 2) (fun r h => by cases h; simp) (by decide)
theorem Row.pwait (h : Hd) (par : Bool) (a : SReg) (off : BitVec 22) : Statement (.pwait h par a off) := fixed (op := 0x0E) (len := 2) (fun r h => by cases h; simp) (by decide)
theorem Row.elect (h : Hd) (d : PReg) : Statement (.elect h d) := fixed (op := 0x0F) (len := 1) (fun r h => by cases h; simp) (by decide)
theorem Row.setfmt (h : Hd) (save : Option SReg) (src : FmtSrc) : Statement (.setfmt h save src) := by
  cases src
  · exact fixed (op := 0x10) (len := 1) (fun r h => by cases h; simp) (by decide)
  · exact fixed (op := 0x10) (len := 1) (fun r h => by cases h; simp) (by decide)
theorem Row.setfmtImm (h : Hd) (save : Option SReg) (v : BitVec 6) : Statement (.setfmtImm h save v) := fixed (op := 0x10) (len := 2) (fun r h => by cases h; simp) (by decide)
theorem Row.setmode (h : Hd) (save : Option SReg) (src : ModeSrc) : Statement (.setmode h save src) := by
  cases src
  · exact fixed (op := 0x11) (len := 1) (fun r h => by cases h; simp) (by decide)
  · exact fixed (op := 0x11) (len := 1) (fun r h => by cases h; simp) (by decide)
theorem Row.setmodeStep (h : Hd) (save : Option SReg) (o : ModeOps) (n : BitVec 16) : Statement (.setmodeStep h save o n) := fixed (op := 0x11) (len := 2) (fun r h => by cases h; simp) (by decide)
theorem Row.srd (h : Hd) (d : SReg) (r : SpReg) : Statement (.srd h d r) := fixed (op := 0x12) (len := 1) (fun r h => by cases h; simp) (by decide)
theorem Row.swr (h : Hd) (r : SpRegW) (a : SReg) : Statement (.swr h r a) := fixed (op := 0x13) (len := 1) (fun r h => by cases h; simp) (by decide)
theorem Row.sadd (o : SOp) : Statement (.sadd o) := byB (op := 0x14) (b := o.b) (fun r h => by cases h; simp [encS]) (by decide)
theorem Row.ssub (o : SOp) : Statement (.ssub o) := byB (op := 0x15) (b := o.b) (fun r h => by cases h; simp [encS]) (by decide)
theorem Row.smul (o : SOp) : Statement (.smul o) := byB (op := 0x16) (b := o.b) (fun r h => by cases h; simp [encS]) (by decide)
theorem Row.smulh (o : SOp) : Statement (.smulh o) := byB (op := 0x17) (b := o.b) (fun r h => by cases h; simp [encS]) (by decide)
theorem Row.sdiv (o : SOp) : Statement (.sdiv o) := byB (op := 0x18) (b := o.b) (fun r h => by cases h; simp [encS]) (by decide)
theorem Row.srem (o : SOp) : Statement (.srem o) := byB (op := 0x19) (b := o.b) (fun r h => by cases h; simp [encS]) (by decide)
theorem Row.sand (o : SOp) : Statement (.sand o) := byB (op := 0x1A) (b := o.b) (fun r h => by cases h; simp [encS]) (by decide)
theorem Row.sor (o : SOp) : Statement (.sor o) := byB (op := 0x1B) (b := o.b) (fun r h => by cases h; simp [encS]) (by decide)
theorem Row.sxor (o : SOp) : Statement (.sxor o) := byB (op := 0x1C) (b := o.b) (fun r h => by cases h; simp [encS]) (by decide)
theorem Row.sshl (o : SOp) : Statement (.sshl o) := byB (op := 0x1D) (b := o.b) (fun r h => by cases h; simp [encS]) (by decide)
theorem Row.sshr (o : SOp) : Statement (.sshr o) := byB (op := 0x1E) (b := o.b) (fun r h => by cases h; simp [encS]) (by decide)
theorem Row.ssra (o : SOp) : Statement (.ssra o) := byB (op := 0x1F) (b := o.b) (fun r h => by cases h; simp [encS]) (by decide)
theorem Row.smin (o : SOp) : Statement (.smin o) := byB (op := 0x20) (b := o.b) (fun r h => by cases h; simp [encS]) (by decide)
theorem Row.smax (o : SOp) : Statement (.smax o) := byB (op := 0x21) (b := o.b) (fun r h => by cases h; simp [encS]) (by decide)
theorem Row.scmp (cc : CC) (o : SOp) : Statement (.scmp cc o) := byB (op := 0x22) (b := o.b) (fun r h => by cases h; simp [encS]) (by decide)
theorem Row.ssel (o : SOp) : Statement (.ssel o) := byB (op := 0x23) (b := o.b) (fun r h => by cases h; simp [encS]) (by decide)
theorem Row.smov (h : Hd) (ty : IType) (d : SReg) (src : SmovSrc) : Statement (.smov h ty d src) := by
  cases src
  · exact fixed (op := 0x24) (len := 1) (fun r h => by cases h; simp) (by decide)
  · rename_i v; exact byB (n := 1) (op := 0x24) (b := .imm v) (fun r h => by cases h; simp [Src.len]) (by decide)
theorem Row.smovHi (h : Hd) (d : SReg) (v : BitVec 32) : Statement (.smovHi h d v) := fixed (op := 0x24) (len := 3) (fun r h => by cases h; simp) (by decide)
theorem Row.sbfx (h : Hd) (ty : IType) (d : SReg) (a : SReg) (pos : Fin 64) (len : Fin 128) : Statement (.sbfx h ty d a pos len) := fixed (op := 0x25) (len := 2) (fun r h => by cases h; simp) (by decide)
theorem Row.sbit (h : Hd) (ty : IType) (op : BitOp) (d : SReg) (a : SReg) : Statement (.sbit h ty op d a) := fixed (op := 0x26) (len := 1) (fun r h => by cases h; simp) (by decide)
theorem Row.sget (h : Hd) (ty : IType) (d : SReg) (a : VSrc) (lane : Src10 128) : Statement (.sget h ty d a lane) := fixed (op := 0x27) (len := 1) (fun r h => by cases h; simp) (by decide)
theorem Row.plog (h : Hd) (op : PLogOp) (d : PReg) (a : PReg) (b : PReg) : Statement (.plog h op d a b) := fixed (op := 0x28) (len := 1) (fun r h => by cases h; simp) (by decide)
theorem Row.pbits (h : Hd) (f : PbForm) : Statement (.pbits h f) := by
  cases f
  · exact fixed (op := 0x29) (len := 1) (fun r h => by cases h; simp) (by decide)
  · exact fixed (op := 0x29) (len := 1) (fun r h => by cases h; simp) (by decide)
  · exact fixed (op := 0x29) (len := 1) (fun r h => by cases h; simp) (by decide)
theorem Row.yield (h : Hd) : Statement (.yield h) := fixed (op := 0x2A) (len := 1) (fun r h => by cases h; simp) (by decide)
theorem Row.snooze (h : Hd) (a : SReg) : Statement (.snooze h a) := fixed (op := 0x2B) (len := 1) (fun r h => by cases h; simp) (by decide)
theorem Row.snoozeImm (h : Hd) (n : BitVec 22) : Statement (.snoozeImm h n) := fixed (op := 0x2B) (len := 2) (fun r h => by cases h; simp) (by decide)
theorem Row.rett (look : Fin 16) : Statement (.rett look) := fixed (op := 0x2C) (len := 1) (fun r h => by cases h; simp [rawU]) (by decide)
theorem Row.iadd (o : VOp) : Statement (.iadd o) := byB (op := 0x40) (b := o.b) (fun r h => by cases h; simp [encV]) (by decide)
theorem Row.isub (o : VOp) : Statement (.isub o) := byB (op := 0x41) (b := o.b) (fun r h => by cases h; simp [encV]) (by decide)
theorem Row.imul (o : VOp) : Statement (.imul o) := byB (op := 0x42) (b := o.b) (fun r h => by cases h; simp [encV]) (by decide)
theorem Row.imulh (o : VOp) : Statement (.imulh o) := byB (op := 0x43) (b := o.b) (fun r h => by cases h; simp [encV]) (by decide)
theorem Row.imad (o : VOp3) : Statement (.imad o) := byBC (op := 0x44) (b := o.b) (fun r h => by cases h; simp [encV3]) (by decide)
theorem Row.imin (o : VOp) : Statement (.imin o) := byB (op := 0x45) (b := o.b) (fun r h => by cases h; simp [encV]) (by decide)
theorem Row.imax (o : VOp) : Statement (.imax o) := byB (op := 0x46) (b := o.b) (fun r h => by cases h; simp [encV]) (by decide)
theorem Row.iabs (h : Hd) (ty : IType) (sat : Bool) (d : VReg) (a : VSrc) : Statement (.iabs h ty sat d a) := fixed (op := 0x47) (len := 1) (fun r h => by cases h; simp) (by decide)
theorem Row.and (o : VOp) : Statement (.and o) := byB (op := 0x48) (b := o.b) (fun r h => by cases h; simp [encV]) (by decide)
theorem Row.or (o : VOp) : Statement (.or o) := byB (op := 0x49) (b := o.b) (fun r h => by cases h; simp [encV]) (by decide)
theorem Row.xor (o : VOp) : Statement (.xor o) := byB (op := 0x4A) (b := o.b) (fun r h => by cases h; simp [encV]) (by decide)
theorem Row.shl (o : VOp) : Statement (.shl o) := byB (op := 0x4B) (b := o.b) (fun r h => by cases h; simp [encV]) (by decide)
theorem Row.shr (o : VOp) : Statement (.shr o) := byB (op := 0x4C) (b := o.b) (fun r h => by cases h; simp [encV]) (by decide)
theorem Row.sra (o : VOp) : Statement (.sra o) := byB (op := 0x4D) (b := o.b) (fun r h => by cases h; simp [encV]) (by decide)
theorem Row.rshr (rnd : Rnd) (o : VOp) : Statement (.rshr rnd o) := byB (op := 0x4E) (b := o.b) (fun r h => by cases h; simp [encV]) (by decide)
theorem Row.icmp (h : Hd) (ty : IType) (cc : CC) (d : PReg) (a : VSrc) (b : Src 1024) : Statement (.icmp h ty cc d a b) := byB (op := 0x4F) (b := b) (fun r h => by cases h; simp) (by decide)
theorem Row.sel (n : PReg) (o : VOp) : Statement (.sel n o) := byB (op := 0x50) (b := o.b) (fun r h => by cases h; simp [encV]) (by decide)
theorem Row.bfx (h : Hd) (ty : IType) (ins : Bool) (d : VReg) (a : VSrc) (pos : Fin 64) (len : Fin 128) : Statement (.bfx h ty ins d a pos len) := fixed (op := 0x51) (len := 2) (fun r h => by cases h; simp) (by decide)
theorem Row.bfxReg (h : Hd) (ty : IType) (ins : Bool) (d : VReg) (a : VSrc) (b : VReg) (c : VReg) : Statement (.bfxReg h ty ins d a b c) := fixed (op := 0x51) (len := 3) (fun r h => by cases h; simp) (by decide)
theorem Row.bit (h : Hd) (ty : IType) (op : BitOp) (d : VReg) (a : VSrc) : Statement (.bit h ty op d a) := fixed (op := 0x52) (len := 1) (fun r h => by cases h; simp) (by decide)
theorem Row.mov (h : Hd) (ty : IType) (d : VReg) (src : MovSrc) : Statement (.mov h ty d src) := by
  cases src
  · exact fixed (op := 0x53) (len := 1) (fun r h => by cases h; simp) (by decide)
  · rename_i v; exact byB (n := 1) (op := 0x53) (b := .imm v) (fun r h => by cases h; simp [Src.len]) (by decide)
  · exact fixed (op := 0x53) (len := 1) (fun r h => by cases h; simp) (by decide)
  · exact fixed (op := 0x53) (len := 1) (fun r h => by cases h; simp) (by decide)
theorem Row.pdot2 (o : VOp3) : Statement (.pdot2 o) := byBC (op := 0x54) (b := o.b) (fun r h => by cases h; simp [encV3]) (by decide)
theorem Row.padd (o : VOp) : Statement (.padd o) := byB (op := 0x55) (b := o.b) (fun r h => by cases h; simp [encV]) (by decide)
theorem Row.psub (o : VOp) : Statement (.psub o) := byB (op := 0x56) (b := o.b) (fun r h => by cases h; simp [encV]) (by decide)
theorem Row.pmul (o : VOp) : Statement (.pmul o) := byB (op := 0x57) (b := o.b) (fun r h => by cases h; simp [encV]) (by decide)
theorem Row.pack (h : Hd) (sat : Bool) (d : VReg) (a : VSrc) (b : Src10 1024) : Statement (.pack h sat d a b) := fixed (op := 0x58) (len := 1) (fun r h => by cases h; simp) (by decide)
theorem Row.unpk (h : Hd) (hi : Bool) (d : VReg) (a : VSrc) : Statement (.unpk h hi d a) := fixed (op := 0x59) (len := 1) (fun r h => by cases h; simp) (by decide)
theorem Row.fadd (o : FOp) : Statement (.fadd o) := byB (op := 0x5A) (b := o.b) (fun r h => by cases h; simp [encF]) (by decide)
theorem Row.fsub (o : FOp) : Statement (.fsub o) := byB (op := 0x5B) (b := o.b) (fun r h => by cases h; simp [encF]) (by decide)
theorem Row.fmul (o : FOp) : Statement (.fmul o) := byB (op := 0x5C) (b := o.b) (fun r h => by cases h; simp [encF]) (by decide)
theorem Row.ffma (o : FOp3) : Statement (.ffma o) := byBC (op := 0x5D) (b := o.b) (fun r h => by cases h; simp [encF3]) (by decide)
theorem Row.fmin (o : FOp) : Statement (.fmin o) := byB (op := 0x5E) (b := o.b) (fun r h => by cases h; simp [encF]) (by decide)
theorem Row.fmax (o : FOp) : Statement (.fmax o) := byB (op := 0x5F) (b := o.b) (fun r h => by cases h; simp [encF]) (by decide)
theorem Row.fcmp (h : Hd) (ty : FType) (cc : FCC) (d : PReg) (a : VSrc) (b : Src 1024) : Statement (.fcmp h ty cc d a b) := byB (op := 0x60) (b := b) (fun r h => by cases h; simp) (by decide)
theorem Row.fdiv (o : FOp) : Statement (.fdiv o) := byB (op := 0x61) (b := o.b) (fun r h => by cases h; simp [encF]) (by decide)
theorem Row.frcp (o : FUn) : Statement (.frcp o) := fixed (op := 0x62) (len := 1) (fun r h => by cases h; simp [encFU]) (by decide)
theorem Row.frsq (o : FUn) : Statement (.frsq o) := fixed (op := 0x63) (len := 1) (fun r h => by cases h; simp [encFU]) (by decide)
theorem Row.fsqrt (o : FUn) : Statement (.fsqrt o) := fixed (op := 0x64) (len := 1) (fun r h => by cases h; simp [encFU]) (by decide)
theorem Row.fexp2 (o : FUn) : Statement (.fexp2 o) := fixed (op := 0x65) (len := 1) (fun r h => by cases h; simp [encFU]) (by decide)
theorem Row.flog2 (o : FUn) : Statement (.flog2 o) := fixed (op := 0x66) (len := 1) (fun r h => by cases h; simp [encFU]) (by decide)
theorem Row.fclass (h : Hd) (ty : FType) (d : VReg) (a : VSrc) : Statement (.fclass h ty d a) := fixed (op := 0x67) (len := 1) (fun r h => by cases h; simp) (by decide)
theorem Row.frnd (o : FUn) : Statement (.frnd o) := fixed (op := 0x68) (len := 1) (fun r h => by cases h; simp [encFU]) (by decide)
theorem Row.fscl (o : FOp) : Statement (.fscl o) := byB (op := 0x69) (b := o.b) (fun r h => by cases h; simp [encF]) (by decide)
theorem Row.cvt (h : Hd) (dt : FType) (st : FType) (pk : Bool) (rnd : Rnd) (sat : Bool) (d : VReg) (a : VSrc) : Statement (.cvt h dt st pk rnd sat d a) := fixed (op := 0x6A) (len := 1) (fun r h => by cases h; simp) (by decide)
theorem Row.cvtfi (h : Hd) (it : IType) (ft : FType) (rnd : Rnd) (d : VReg) (a : VSrc) : Statement (.cvtfi h it ft rnd d a) := fixed (op := 0x6B) (len := 1) (fun r h => by cases h; simp) (by decide)
theorem Row.cvtif (h : Hd) (ft : FType) (it : IType) (rnd : Rnd) (sat : Bool) (d : VReg) (a : VSrc) : Statement (.cvtif h ft it rnd sat d a) := fixed (op := 0x6C) (len := 1) (fun r h => by cases h; simp) (by decide)
theorem Row.cvti (h : Hd) (dt : IType) (st : IType) (sat : Bool) (d : VReg) (a : VSrc) : Statement (.cvti h dt st sat d a) := fixed (op := 0x6D) (len := 1) (fun r h => by cases h; simp) (by decide)
theorem Row.xlane (h : Hd) (ty : IType) (m : XMode) (keep : Bool) (d : VReg) (a : VSrc) (b : Src 1024) : Statement (.xlane h ty m keep d a b) := byB (op := 0x6E) (b := b) (fun r h => by cases h; simp) (by decide)
theorem Row.slide (h : Hd) (ty : IType) (dn : Bool) (d : VReg) (a : VSrc) (b : VReg) (n : Amt) : Statement (.slide h ty dn d a b n) := fixed (op := 0x6F) (len := 2) (fun r h => by cases h; simp) (by decide)
theorem Row.slideImm (h : Hd) (ty : IType) (dn : Bool) (d : VReg) (a : VSrc) (fill : BitVec 32) (n : Amt) : Statement (.slideImm h ty dn d a fill n) := fixed (op := 0x6F) (len := 3) (fun r h => by cases h; simp) (by decide)
theorem Row.bcast (h : Hd) (ty : IType) (d : VReg) (a : VSrc) (b : Src 128) : Statement (.bcast h ty d a b) := byB (op := 0x70) (b := b) (fun r h => by cases h; simp) (by decide)
theorem Row.vred (h : Hd) (op : RedOp) (d : SReg) (a : VSrc) : Statement (.vred h op d a) := fixed (op := 0x71) (len := 1) (fun r h => by cases h; simp) (by decide)
theorem Row.scan (h : Hd) (excl : Bool) (op : RedOp) (d : VReg) (a : VSrc) : Statement (.scan h excl op d a) := fixed (op := 0x72) (len := 1) (fun r h => by cases h; simp) (by decide)
theorem Row.poll (h : Hd) (op : PollOp) (d : PReg) (a : PReg) : Statement (.poll h op d a) := fixed (op := 0x73) (len := 1) (fun r h => by cases h; simp) (by decide)
theorem Row.vmatch (h : Hd) (ty : IType) (d : VReg) (a : VSrc) : Statement (.vmatch h ty d a) := fixed (op := 0x74) (len := 1) (fun r h => by cases h; simp) (by decide)
theorem Row.flgrd (h : Hd) (clr : Bool) (d : SReg) : Statement (.flgrd h clr d) := fixed (op := 0x75) (len := 1) (fun r h => by cases h; simp) (by decide)
theorem Row.flgwr (h : Hd) (op : FlgOp) (b : Src 128) : Statement (.flgwr h op b) := byB (op := 0x76) (b := b) (fun r h => by cases h; simp) (by decide)
theorem Row.ld (o : MemOp VReg SReg) : Statement (.ld o) := fixed (op := 0x90) (len := 2) (fun r h => by cases h; simp [encMem]) (by decide)
theorem Row.st (o : MemOp VReg SReg) : Statement (.st o) := fixed (op := 0x91) (len := 2) (fun r h => by cases h; simp [encMem]) (by decide)
theorem Row.ldl (o : MemOp VReg SReg) : Statement (.ldl o) := fixed (op := 0x92) (len := 2) (fun r h => by cases h; simp [encMem]) (by decide)
theorem Row.stl (o : MemOp VReg SReg) : Statement (.stl o) := fixed (op := 0x93) (len := 2) (fun r h => by cases h; simp [encMem]) (by decide)
theorem Row.sld (o : MemOp SReg SReg) : Statement (.sld o) := fixed (op := 0x94) (len := 2) (fun r h => by cases h; simp [encMem]) (by decide)
theorem Row.sst (o : MemOp SReg SReg) : Statement (.sst o) := fixed (op := 0x95) (len := 2) (fun r h => by cases h; simp [encMem]) (by decide)
theorem Row.gath (o : MemOp VReg VSrc) : Statement (.gath o) := fixed (op := 0x96) (len := 2) (fun r h => by cases h; simp [encMem]) (by decide)
theorem Row.scat (o : MemOp VReg VSrc) : Statement (.scat o) := fixed (op := 0x97) (len := 2) (fun r h => by cases h; simp [encMem]) (by decide)
theorem Row.lgath (o : MemOp VReg VSrc) : Statement (.lgath o) := fixed (op := 0x98) (len := 2) (fun r h => by cases h; simp [encMem]) (by decide)
theorem Row.lscat (o : MemOp VReg VSrc) : Statement (.lscat o) := fixed (op := 0x99) (len := 2) (fun r h => by cases h; simp [encMem]) (by decide)
theorem Row.ldb (o : MemOp VReg SReg) : Statement (.ldb o) := fixed (op := 0x9A) (len := 2) (fun r h => by cases h; simp [encMem]) (by decide)
theorem Row.atom (o : AtomOp) (b : VReg) : Statement (.atom o b) := fixed (op := 0x9B) (len := 2) (fun r h => by cases h; simp [encAtom]) (by decide)
theorem Row.atomImm32 (o : AtomOp) (v : BitVec 32) : Statement (.atomImm32 o v) := fixed (op := 0x9B) (len := 3) (fun r h => by cases h; simp [encAtom]) (by decide)
theorem Row.cas (o : CasOp) : Statement (.cas o) := fixed (op := 0x9C) (len := 2) (fun r h => by cases h; simp [encCas]) (by decide)
theorem Row.atomOrd (h : Hd) (a : VSrc) (b : VReg) (off : BitVec 22) : Statement (.atomOrd h a b off) := fixed (op := 0x9D) (len := 2) (fun r h => by cases h; simp) (by decide)
theorem Row.atoml (o : AtomOp) (b : VReg) : Statement (.atoml o b) := fixed (op := 0x9E) (len := 2) (fun r h => by cases h; simp [encAtom]) (by decide)
theorem Row.atomlImm32 (o : AtomOp) (v : BitVec 32) : Statement (.atomlImm32 o v) := fixed (op := 0x9E) (len := 3) (fun r h => by cases h; simp [encAtom]) (by decide)
theorem Row.casl (o : CasOp) : Statement (.casl o) := fixed (op := 0x9F) (len := 2) (fun r h => by cases h; simp [encCas]) (by decide)
theorem Row.fence (h : Hd) (sem : FSem) (scope : Scope) : Statement (.fence h sem scope) := fixed (op := 0xA0) (len := 1) (fun r h => by cases h; simp) (by decide)
theorem Row.ifence (h : Hd) : Statement (.ifence h) := fixed (op := 0xA1) (len := 1) (fun r h => by cases h; simp) (by decide)
theorem Row.cline (h : Hd) (op : ClineOp) (a : SReg) (off : BitVec 22) : Statement (.cline h op a off) := fixed (op := 0xA2) (len := 2) (fun r h => by cases h; simp) (by decide)
theorem Row.pref (h : Hd) (lvl : PrefLvl) (a : SReg) (off : BitVec 22) : Statement (.pref h lvl a off) := fixed (op := 0xA3) (len := 2) (fun r h => by cases h; simp) (by decide)
theorem Row.ipref (h : Hd) (a : SReg) (off : BitVec 22) : Statement (.ipref h a off) := fixed (op := 0xA4) (len := 2) (fun r h => by cases h; simp) (by decide)
theorem Row.stz (h : Hd) (a : SReg) (off : BitVec 22) : Statement (.stz h a off) := fixed (op := 0xA5) (len := 2) (fun r h => by cases h; simp) (by decide)
theorem Row.cpy (o : CpyOp) (c : SReg) (srclay : Bool) (dir : Dir) (hint : Hint) (lay : Layout) : Statement (.cpy o c srclay dir hint lay) := fixed (op := 0xB0) (len := 3) (fun r h => by cases h; simp [encCpy]) (by decide)
theorem Row.cpya (o : CpyOp) (dir : Dir) (esz : ESize) (hint : Hint) : Statement (.cpya o dir esz hint) := fixed (op := 0xB1) (len := 3) (fun r h => by cases h; simp [encCpy]) (by decide)
theorem Row.cpyWb (o : CpyOp) (half : WbHalf) (hint : Hint) : Statement (.cpyWb o half hint) := fixed (op := 0xB2) (len := 3) (fun r h => by cases h; simp [encCpy]) (by decide)
theorem Row.seal (h : Hd) (arv : Option SReg) (save : Option SReg) : Statement (.seal h arv save) := fixed (op := 0xB3) (len := 1) (fun r h => by cases h; simp) (by decide)
theorem Row.cwait (h : Hd) (isTo : Bool) (v : Src10 128) : Statement (.cwait h isTo v) := fixed (op := 0xB4) (len := 1) (fun r h => by cases h; simp) (by decide)
theorem Row.cwaitImm22 (h : Hd) (isTo : Bool) (v : BitVec 22) : Statement (.cwaitImm22 h isTo v) := fixed (op := 0xB4) (len := 2) (fun r h => by cases h; simp) (by decide)
theorem Row.cstat (h : Hd) (f : CstatForm) : Statement (.cstat h f) := by
  cases f
  · exact fixed (op := 0xB5) (len := 1) (fun r h => by cases h; simp) (by decide)
  · exact fixed (op := 0xB5) (len := 1) (fun r h => by cases h; simp) (by decide)
  · exact fixed (op := 0xB5) (len := 1) (fun r h => by cases h; simp) (by decide)
theorem Row.cfill (o : CpyOp) (c : SReg) (glob : Bool) (ty : FillT) : Statement (.cfill o c glob ty) := fixed (op := 0xB6) (len := 3) (fun r h => by cases h; simp [encCpy]) (by decide)
theorem Row.cgath (o : CpyOp) (c : SReg) (glob : Bool) (hint : Hint) (lay : Layout) : Statement (.cgath o c glob hint lay) := fixed (op := 0xB7) (len := 3) (fun r h => by cases h; simp [encCpy]) (by decide)
theorem Row.rcpy (o : CpyOp) (c : SReg) (srcl : Bool) (hint : Hint) (dpitch : BitVec 32) : Statement (.rcpy o c srcl hint dpitch) := fixed (op := 0xB8) (len := 3) (fun r h => by cases h; simp [encCpy]) (by decide)
theorem Row.ratom (h : Hd) (op : RAOp) (sem : Option Sem) (ty : IType) (d : SReg) (a : SReg) (b : Src32) (c : SReg) (off : BitVec 22) : Statement (.ratom h op sem ty d a b c off) := fixed (op := 0xB9) (len := 3) (fun r h => by cases h; simp) (by decide)
theorem Row.rflag (h : Hd) (after : Option SReg) (rel : Bool) (w64 : Bool) (d : SReg) (b : Src32) (c : SReg) (off : BitVec 22) : Statement (.rflag h after rel w64 d b c off) := fixed (op := 0xBA) (len := 3) (fun r h => by cases h; simp) (by decide)
theorem Row.rnote (h : Hd) (a : SReg) (c : SReg) (tag : BitVec 22) : Statement (.rnote h a c tag) := fixed (op := 0xBB) (len := 2) (fun r h => by cases h; simp) (by decide)
theorem Row.rget (o : CpyOp) (c : SReg) (hint : Hint) (dpitch : BitVec 32) : Statement (.rget o c hint dpitch) := fixed (op := 0xBC) (len := 3) (fun r h => by cases h; simp [encCpy]) (by decide)
theorem Row.rstat (h : Hd) (f : RstatForm) : Statement (.rstat h f) := by
  cases f
  · exact fixed (op := 0xBD) (len := 1) (fun r h => by cases h; simp) (by decide)
  · exact fixed (op := 0xBD) (len := 1) (fun r h => by cases h; simp) (by decide)
  · exact fixed (op := 0xBD) (len := 1) (fun r h => by cases h; simp) (by decide)
theorem Row.mma (o : MmaOp) : Statement (.mma o) := fixed (op := 0xC0) (len := 3) (fun r h => by cases h; simp) (by decide)
theorem Row.mwait (h : Hd) (s : Sel8) (v : Src10 128) : Statement (.mwait h s v) := fixed (op := 0xC1) (len := 1) (fun r h => by cases h; simp) (by decide)
theorem Row.aalloc (h : Hd) (n : Src10 128) : Statement (.aalloc h n) := fixed (op := 0xC2) (len := 1) (fun r h => by cases h; simp) (by decide)
theorem Row.afree (h : Hd) (n : Src10 128) : Statement (.afree h n) := fixed (op := 0xC3) (len := 1) (fun r h => by cases h; simp) (by decide)
theorem Row.azero (h : Hd) (d : AReg) : Statement (.azero h d) := fixed (op := 0xC4) (len := 1) (fun r h => by cases h; simp) (by decide)
theorem Row.ardv (h : Hd) (ty : FType) (rnd : Rnd) (sat : Bool) (d : VReg) (a : AReg) (b : SReg) (n : Fin 64) : Statement (.ardv h ty rnd sat d a b n) := fixed (op := 0xC5) (len := 2) (fun r h => by cases h; simp) (by decide)
theorem Row.awrv (h : Hd) (ty : FType) (d : AReg) (a : SReg) (b : VReg) (n : Fin 64) : Statement (.awrv h ty d a b n) := fixed (op := 0xC6) (len := 2) (fun r h => by cases h; simp) (by decide)
theorem Row.mcfg (h : Hd) (src : McfgSrc) : Statement (.mcfg h src) := by
  cases src
  · exact fixed (op := 0xC7) (len := 2) (fun r h => by cases h; simp) (by decide)
  · exact fixed (op := 0xC7) (len := 2) (fun r h => by cases h; simp) (by decide)
theorem Row.wbrel (h : Hd) (s : Sel8) (a : SReg) : Statement (.wbrel h s a) := fixed (op := 0xC8) (len := 1) (fun r h => by cases h; simp) (by decide)
theorem Row.mstat (h : Hd) (d : SReg) : Statement (.mstat h d) := fixed (op := 0xC9) (len := 1) (fun r h => by cases h; simp) (by decide)
theorem Row.acpy (h : Hd) (d : AReg) (a : AReg) : Statement (.acpy h d a) := fixed (op := 0xCA) (len := 1) (fun r h => by cases h; simp) (by decide)
theorem Row.aldl (h : Hd) (foll : Bool) (d : AReg) (a : SReg) (b : SReg) (off : BitVec 22) : Statement (.aldl h foll d a b off) := fixed (op := 0xCB) (len := 2) (fun r h => by cases h; simp) (by decide)
theorem Row.astl (h : Hd) (foll : Bool) (d : AReg) (a : SReg) (b : SReg) (off : BitVec 22) : Statement (.astl h foll d a b off) := fixed (op := 0xCC) (len := 2) (fun r h => by cases h; simp) (by decide)
theorem Row.qst (o : QstOp) : Statement (.qst o) := fixed (op := 0xD0) (len := 3) (fun r h => by cases h; simp) (by decide)
theorem Row.vqst (o : VqstOp) : Statement (.vqst o) := fixed (op := 0xD1) (len := 2) (fun r h => by cases h; simp) (by decide)
theorem Row.qresLd (h : Hd) (d : QReg) (a : SReg) (off : BitVec 22) : Statement (.qresLd h d a off) := fixed (op := 0xD2) (len := 2) (fun r h => by cases h; simp) (by decide)
theorem Row.qresSt (h : Hd) (d : QReg) (a : SReg) (off : BitVec 22) : Statement (.qresSt h d a off) := fixed (op := 0xD3) (len := 2) (fun r h => by cases h; simp) (by decide)
theorem Row.qzero (h : Hd) (d : QReg) : Statement (.qzero h d) := fixed (op := 0xD4) (len := 1) (fun r h => by cases h; simp) (by decide)
theorem Row.qcfg (h : Hd) (rd : Fin 4) (ord2 : Bool) (d : QReg) (a : SReg) (b : SReg) : Statement (.qcfg h rd ord2 d a b) := fixed (op := 0xD5) (len := 2) (fun r h => by cases h; simp) (by decide)
theorem Row.qwait (h : Hd) (s : Sel8) (v : Src10 128) : Statement (.qwait h s v) := fixed (op := 0xD6) (len := 1) (fun r h => by cases h; simp) (by decide)
theorem Row.qrd (h : Hd) (sel : QrdSel) (d : VReg) (a : QReg) (b : SReg) : Statement (.qrd h sel d a b) := fixed (op := 0xD7) (len := 1) (fun r h => by cases h; simp) (by decide)
theorem Row.launch (h : Hd) (d : SReg) (a : SReg) (b : SReg) (off : BitVec 22) : Statement (.launch h d a b off) := fixed (op := 0xD8) (len := 2) (fun r h => by cases h; simp) (by decide)
theorem Row.cancel (h : Hd) (lvl : CancelLvl) (clr : Bool) (a : SReg) : Statement (.cancel h lvl clr a) := fixed (op := 0xD9) (len := 1) (fun r h => by cases h; simp) (by decide)
theorem Row.ctrrd (h : Hd) (d : SReg) (a : SReg) : Statement (.ctrrd h d a) := fixed (op := 0xDA) (len := 1) (fun r h => by cases h; simp) (by decide)
theorem Row.ctrwait (h : Hd) (a : SReg) (v : Src22) : Statement (.ctrwait h a v) := by
  cases v
  · exact fixed (op := 0xDB) (len := 2) (fun r h => by cases h; simp) (by decide)
  · exact fixed (op := 0xDB) (len := 2) (fun r h => by cases h; simp) (by decide)
theorem Row.fbpt (look : Fin 16) (off : BitVec 22) : Statement (.fbpt look off) := fixed (op := 0xDC) (len := 2) (fun r h => by cases h; simp [rawU]) (by decide)
theorem Row.tmark (h : Hd) (a : SReg) (tag : BitVec 22) : Statement (.tmark h a tag) := fixed (op := 0xDD) (len := 2) (fun r h => by cases h; simp) (by decide)
theorem Row.pmcrd (h : Hd) (half : PmcHalf) (d : SReg) (n : Src10 128) : Statement (.pmcrd h half d n) := fixed (op := 0xDE) (len := 1) (fun r h => by cases h; simp) (by decide)
theorem Row.tctl (h : Hd) (op : TctlOp) : Statement (.tctl h op) := fixed (op := 0xDF) (len := 1) (fun r h => by cases h; simp) (by decide)
theorem Row.pendingReadyTimeout (q : Nat) : Statement (.pendingReadyTimeout q) := noWords rfl
theorem Row.snoozeExpiry (b : Nat) (g : Nat) (id : Nat) : Statement (.snoozeExpiry b g id) := noWords rfl
theorem Row.instructionFetchFault (b : Nat) (g : Nat) (t : Nat) : Statement (.instructionFetchFault b g t) := noWords rfl
theorem Row.loadDataReturn (r : Nat) : Statement (.loadDataReturn r) := noWords rfl
theorem Row.writeAcknowledge (r : Nat) : Statement (.writeAcknowledge r) := noWords rfl
theorem Row.atomicResultReturn (r : Nat) : Statement (.atomicResultReturn r) := noWords rfl
theorem Row.requestSlotWaitEnd (b : Nat) (g : Nat) (t : Nat) : Statement (.requestSlotWaitEnd b g t) := noWords rfl
theorem Row.walkComplete (w : Nat) : Statement (.walkComplete w) := noWords rfl
theorem Row.homeRequestArrival (r : Nat) : Statement (.homeRequestArrival r) := noWords rfl
theorem Row.stampedMessagePerform (r : Nat) : Statement (.stampedMessagePerform r) := noWords rfl
theorem Row.parkedReplay (b : Nat) (g : Nat) (t : Nat) : Statement (.parkedReplay b g t) := noWords rfl
theorem Row.fabricHop (m : Nat) : Statement (.fabricHop m) := noWords rfl
theorem Row.edgeMessageArrival (m : Nat) : Statement (.edgeMessageArrival m) := noWords rfl
theorem Row.firewallStatusReceived (r : Nat) : Statement (.firewallStatusReceived r) := noWords rfl
theorem Row.copyStart (c : Nat) : Statement (.copyStart c) := noWords rfl
theorem Row.copyDone (c : Nat) : Statement (.copyDone c) := noWords rfl
theorem Row.copyFaultStop (c : Nat) : Statement (.copyFaultStop c) := noWords rfl
theorem Row.copyFaultServiced (c : Nat) : Statement (.copyFaultServiced c) := noWords rfl
theorem Row.descriptorWaitEnd (b : Nat) (g : Nat) (t : Nat) : Statement (.descriptorWaitEnd b g t) := noWords rfl
theorem Row.sealWindowWaitEnd (b : Nat) (g : Nat) (t : Nat) : Statement (.sealWindowWaitEnd b g t) := noWords rfl
theorem Row.mmaStart (b : Nat) (id : Nat) : Statement (.mmaStart b id) := noWords rfl
theorem Row.mmaOperandsRead (b : Nat) (id : Nat) : Statement (.mmaOperandsRead b id) := noWords rfl
theorem Row.mmaRetire (b : Nat) (id : Nat) : Statement (.mmaRetire b id) := noWords rfl
theorem Row.aallocComplete (b : Nat) (g : Nat) (id : Nat) : Statement (.aallocComplete b g id) := noWords rfl
theorem Row.matrixSlotWaitEnd (b : Nat) (g : Nat) (t : Nat) : Statement (.matrixSlotWaitEnd b g t) := noWords rfl
theorem Row.shapeConversion (b : Nat) (id : Nat) : Statement (.shapeConversion b id) := noWords rfl
theorem Row.shapeWriteComplete (b : Nat) (id : Nat) : Statement (.shapeWriteComplete b id) := noWords rfl
theorem Row.notifyWrite (pid : Nat) (q : Nat) : Statement (.notifyWrite pid q) := noWords rfl
theorem Row.queueSlotAssign (pid : Nat) : Statement (.queueSlotAssign pid) := noWords rfl
theorem Row.slotReclaim (pid : Nat) (q : Nat) : Statement (.slotReclaim pid q) := noWords rfl
theorem Row.headPacketRead (slice : Nat) (key : Nat) : Statement (.headPacketRead slice key) := noWords rfl
theorem Row.dependenceRecheck (slice : Nat) (key : Nat) : Statement (.dependenceRecheck slice key) := noWords rfl
theorem Row.packetLeaveHead (slice : Nat) (key : Nat) : Statement (.packetLeaveHead slice key) := noWords rfl
theorem Row.startNotice (lk : Nat) (slice : Nat) : Statement (.startNotice lk slice) := noWords rfl
theorem Row.blockPlacement (slice : Nat) : Statement (.blockPlacement slice) := noWords rfl
theorem Row.blockEnd (b : Nat) : Statement (.blockEnd b) := noWords rfl
theorem Row.doneNotice (lk : Nat) (slice : Nat) : Statement (.doneNotice lk slice) := noWords rfl
theorem Row.orderedAtomicApply (lk : Nat) (slice : Nat) : Statement (.orderedAtomicApply lk slice) := noWords rfl
theorem Row.launchComplete (lk : Nat) : Statement (.launchComplete lk) := noWords rfl
theorem Row.cancelArrival (c : Nat) (slice : Nat) : Statement (.cancelArrival c slice) := noWords rfl
theorem Row.nopreHoldLapse (lk : Nat) : Statement (.nopreHoldLapse lk) := noWords rfl
theorem Row.preemptionRequest (slice : Nat) : Statement (.preemptionRequest slice) := noWords rfl
theorem Row.stoppingDrainComplete (b : Nat) : Statement (.stoppingDrainComplete b) := noWords rfl
theorem Row.saveComplete (b : Nat) : Statement (.saveComplete b) := noWords rfl
theorem Row.spillSavedBlock (slice : Nat) : Statement (.spillSavedBlock slice) := noWords rfl
theorem Row.restoreComplete (b : Nat) : Statement (.restoreComplete b) := noWords rfl
theorem Row.rotationInterval (slice : Nat) : Statement (.rotationInterval slice) := noWords rfl
theorem Row.deferredRotationCompare (slice : Nat) : Statement (.deferredRotationCompare slice) := noWords rfl
theorem Row.rotationSwapComplete (slice : Nat) : Statement (.rotationSwapComplete slice) := noWords rfl
theorem Row.swapOutTimeout (b : Nat) : Statement (.swapOutTimeout b) := noWords rfl
theorem Row.swappedFaultServiced (b : Nat) : Statement (.swappedFaultServiced b) := noWords rfl
theorem Row.heldRecordWrite (id : Nat) : Statement (.heldRecordWrite id) := noWords rfl
theorem Row.faultDoorbell (pid : Nat) (vd : Nat) (word : Nat) : Statement (.faultDoorbell pid vd word) := noWords rfl
theorem Row.patrolRead (slice : Nat) : Statement (.patrolRead slice) := noWords rfl
theorem Row.powerDownEntry (slice : Nat) (pch : Nat) : Statement (.powerDownEntry slice pch) := noWords rfl
theorem Row.selfRefreshEntry (slice : Nat) (pch : Nat) : Statement (.selfRefreshEntry slice pch) := noWords rfl
theorem Row.scrubZeroPhase (pid : Nat) (job : Nat) : Statement (.scrubZeroPhase pid job) := noWords rfl
theorem Row.scrubJobDone (pid : Nat) (job : Nat) : Statement (.scrubJobDone pid job) := noWords rfl
theorem Row.scrubResume (slice : Nat) (job : Nat) : Statement (.scrubResume slice job) := noWords rfl
theorem Row.verifyPass (slice : Nat) (job : Nat) : Statement (.verifyPass slice job) := noWords rfl
theorem Row.golrisReceive (slice : Nat) (src : Nat) (ce : Bool) (pkt : List Byte) : Statement (.golrisReceive slice src ce pkt) := noWords rfl
theorem Row.ethernetFrameReceive (slice : Nat) (frame : List Byte) : Statement (.ethernetFrameReceive slice frame) := noWords rfl
theorem Row.ackSend (key : Nat) : Statement (.ackSend key) := noWords rfl
theorem Row.ackReceive (slice : Nat) (src : Nat) (ce : Bool) (pkt : List Byte) : Statement (.ackReceive slice src ce pkt) := noWords rfl
theorem Row.retransmitTimeout (slice : Nat) (peer : Nat) (psn : Nat) : Statement (.retransmitTimeout slice peer psn) := noWords rfl
theorem Row.rateUpdate (slice : Nat) (peer : Nat) : Statement (.rateUpdate slice peer) := noWords rfl
theorem Row.rflagAfterSend (op : Nat) : Statement (.rflagAfterSend op) := noWords rfl
theorem Row.packagePowerOnReset : Statement (.packagePowerOnReset) := noWords rfl
theorem Row.selfTestComplete (slice : Nat) (pass : Bool) : Statement (.selfTestComplete slice pass) := noWords rfl
theorem Row.sliceFirmwareReady (slice : Nat) : Statement (.sliceFirmwareReady slice) := noWords rfl
theorem Row.inputUndervoltage : Statement (.inputUndervoltage) := noWords rfl
theorem Row.inputBrownout : Statement (.inputBrownout) := noWords rfl
theorem Row.inputOvervoltage : Statement (.inputOvervoltage) := noWords rfl
theorem Row.devinfo (c : Cmd) : Statement (.devinfo c) := noWords rfl
theorem Row.fwLoad (c : Cmd) (bytes : List Byte) : Statement (.fwLoad c bytes) := noWords rfl
theorem Row.fwDone (c : Cmd) : Statement (.fwDone c) := noWords rfl
theorem Row.attest (c : Cmd) (nonce : List Byte) : Statement (.attest c nonce) := noWords rfl
theorem Row.svnBurn (c : Cmd) (kind : Nat) : Statement (.svnBurn c kind) := noWords rfl
theorem Row.partCreate (c : Cmd) (pid : Nat) (c0 : Nat) (r0 : Nat) (c1 : Nat) (r1 : Nat) (map : Option (List Nat)) (uri : List Byte) : Statement (.partCreate c pid c0 r0 c1 r1 map uri) := noWords rfl
theorem Row.partitionZeroingComplete (pid : Nat) : Statement (.partitionZeroingComplete pid) := noWords rfl
theorem Row.partDestroy (c : Cmd) (pid : Nat) : Statement (.partDestroy c pid) := noWords rfl
theorem Row.resize (c : Cmd) (pid : Nat) (slice : Nat) (add : Bool) (drain : Nat) (gused : Nat) (map : Option (List Nat)) : Statement (.resize c pid slice add drain gused map) := noWords rfl
theorem Row.hartsDownTimeout (pid : Nat) : Statement (.hartsDownTimeout pid) := noWords rfl
theorem Row.drainExpiry (pid : Nat) : Statement (.drainExpiry pid) := noWords rfl
theorem Row.resizeStepComplete (pid : Nat) : Statement (.resizeStepComplete pid) := noWords rfl
theorem Row.granuleMigrationComplete (pid : Nat) : Statement (.granuleMigrationComplete pid) := noWords rfl
theorem Row.sliceReset (c : Cmd) (slice : Nat) : Statement (.sliceReset c slice) := noWords rfl
theorem Row.mgmtCoreTimeout (slice : Nat) : Statement (.mgmtCoreTimeout slice) := noWords rfl
theorem Row.sliceRejoin (slice : Nat) : Statement (.sliceRejoin slice) := noWords rfl
theorem Row.partStatus (c : Cmd) (pid : Nat) : Statement (.partStatus c pid) := noWords rfl
theorem Row.sregRd (c : Cmd) (slice : Nat) (off : Nat) : Statement (.sregRd c slice off) := noWords rfl
theorem Row.sregWr (c : Cmd) (slice : Nat) (off : Nat) (val : Nat) : Statement (.sregWr c slice off val) := noWords rfl
theorem Row.qreg (c : Cmd) (q : Nat) (vd : Nat) (hdr : Nat) (a : QAttr) : Statement (.qreg c q vd hdr a) := noWords rfl
theorem Row.ctrbase (c : Cmd) (vd : Nat) (base : Nat) : Statement (.ctrbase c vd base) := noWords rfl
theorem Row.savearea (c : Cmd) (base : Nat) (size : Nat) : Statement (.savearea c base size) := noWords rfl
theorem Row.ownertab (c : Cmd) (base : Nat) : Statement (.ownertab c base) := noWords rfl
theorem Row.spillarea (c : Cmd) (base : Nat) (size : Nat) : Statement (.spillarea c base size) := noWords rfl
theorem Row.peer (c : Cmd) (idx : Nat) (entry : List Byte) (addrs : List (Nat × Nat)) : Statement (.peer c idx entry addrs) := noWords rfl
theorem Row.pattest (c : Cmd) (nonce : List Byte) : Statement (.pattest c nonce) := noWords rfl
theorem Row.hartsDown (c : Cmd) (slice : Nat) : Statement (.hartsDown c slice) := noWords rfl
theorem Row.vdctx (c : Cmd) (vd : Nat) (img : List Byte) : Statement (.vdctx c vd img) := noWords rfl
theorem Row.wayprof (c : Cmd) (prof : Nat) (masks : List Nat) (pols : List Nat) : Statement (.wayprof c prof masks pols) := noWords rfl
theorem Row.pageRetire (c : Cmd) (vd : Nat) (va : Nat) (size : Nat) (cw : Nat) : Statement (.pageRetire c vd va size cw) := noWords rfl
theorem Row.shootdown (c : Cmd) (vd : Nat) (range : Option (Nat × Nat)) (cw : Nat) : Statement (.shootdown c vd range cw) := noWords rfl
theorem Row.fresolve (c : Cmd) (handle : Nat) (ans : FrAns) : Statement (.fresolve c handle ans) := noWords rfl
theorem Row.keyGen (c : Cmd) (slot : Nat) : Statement (.keyGen c slot) := noWords rfl
theorem Row.keyZero (c : Cmd) (slot : Nat) : Statement (.keyZero c slot) := noWords rfl
theorem Row.scrubStart (c : Cmd) (job : Nat) (ranges : List (Nat × Nat)) (slots : List Nat) (cores : List (Nat × Nat)) (vd : Nat) : Statement (.scrubStart c job ranges slots cores vd) := noWords rfl
theorem Row.refresh (slice : Nat) (vd : Nat) : Statement (.refresh slice vd) := noWords rfl
theorem Row.stop (slice : Nat) (core : Nat) (quarter : Nat) (vd : Nat) : Statement (.stop slice core quarter vd) := noWords rfl
theorem Row.resume (slice : Nat) (core : Nat) (quarter : Nat) : Statement (.resume slice core quarter) := noWords rfl
theorem Row.csave (slice : Nat) (vd : Nat) : Statement (.csave slice vd) := noWords rfl
theorem Row.crestore (slice : Nat) (vd : Nat) : Statement (.crestore slice vd) := noWords rfl
theorem Row.dumpWritten (q : Nat) : Statement (.dumpWritten q) := noWords rfl
theorem Row.sampleTaken (q : Nat) : Statement (.sampleTaken q) := noWords rfl
theorem Row.recordStreamRoom (b : Nat) (g : Nat) (t : Nat) : Statement (.recordStreamRoom b g t) := noWords rfl
theorem Row.counterReadLo (slice : Nat) (vd : Nat) (n : Nat) : Statement (.counterReadLo slice vd n) := noWords rfl
theorem Row.counterReadHi (slice : Nat) (vd : Nat) (n : Nat) : Statement (.counterReadHi slice vd n) := noWords rfl
theorem Row.counterPageWrite (slice : Nat) (vd : Nat) (off : Nat) (val : Nat) : Statement (.counterPageWrite slice vd off val) := noWords rfl
theorem Row.pwrCtlWrite (slice : Nat) (v : Nat) : Statement (.pwrCtlWrite slice v) := noWords rfl
theorem Row.resCtlWrite (slice : Nat) (v : Nat) : Statement (.resCtlWrite slice v) := noWords rfl
theorem Row.chErrWrite (slice : Nat) (v : Nat) : Statement (.chErrWrite slice v) := noWords rfl
theorem Row.powerWindowEnd (slice : Nat) : Statement (.powerWindowEnd slice) := noWords rfl
theorem Row.railVoltageReached (col : Nat) : Statement (.railVoltageReached col) := noWords rfl
theorem Row.railFallConfirm (col : Nat) : Statement (.railFallConfirm col) := noWords rfl
theorem Row.railSettleExpiry (col : Nat) : Statement (.railSettleExpiry col) := noWords rfl
theorem Row.currentLimitAlarm (slice : Nat) : Statement (.currentLimitAlarm slice) := noWords rfl
theorem Row.alarmPersist1us (slice : Nat) : Statement (.alarmPersist1us slice) := noWords rfl
theorem Row.alarmPersist10us (slice : Nat) : Statement (.alarmPersist10us slice) := noWords rfl
theorem Row.alarmClear50us (slice : Nat) : Statement (.alarmClear50us slice) := noWords rfl
theorem Row.thermalSample (slice : Nat) (t0 : Nat) (t1 : Nat) : Statement (.thermalSample slice t0 t1) := noWords rfl
theorem Row.instructionCacheFill (b : Nat) (g : Nat) (t : Nat) : Statement (.instructionCacheFill b g t) := noWords rfl
theorem Row.pendingWritePerformed (b : Nat) (g : Nat) (id : Nat) : Statement (.pendingWritePerformed b g id) := noWords rfl
theorem Row.frequencyChangeComplete (slice : Nat) : Statement (.frequencyChangeComplete slice) := noWords rfl
theorem Row.currentLimitAlarmClear (slice : Nat) : Statement (.currentLimitAlarmClear slice) := noWords rfl
theorem Row.partitionDestroyComplete (pid : Nat) : Statement (.partitionDestroyComplete pid) := noWords rfl
theorem Row.hostHartAccess (a : HartAcc) : Statement (.hostHartAccess a) := noWords rfl
theorem Row.pacedPacketSend (slice : Nat) (peer : Nat) : Statement (.pacedPacketSend slice peer) := noWords rfl
theorem Row.virtioQueueNotify (slice : Nat) (queue : Nat) : Statement (.virtioQueueNotify slice queue) := noWords rfl
theorem Row.portLinkChange (slice : Nat) (up : Bool) : Statement (.portLinkChange slice up) := noWords rfl

end Sys2Proof.Laws
end

