-- ==== Sys2Proof/Tests/Slice0.lean ====
section
/-!
SUPPORT. Tests: words of the spec's encodings, ill-formed terms, witnesses of the statements' hypotheses, and values of single instructions that the
spec's tables and worked examples give.
-/
open Sys2Proof Sys2Proof.Machine Sys2Proof.Claims
namespace Sys2Proof.Tests
set_option Elab.async false

/-! ### A machine with one tiller selected -/

/-- A one-slice partition with a block of one group at address 0 of VD 1, its tiller 0 selected. -/
def w0 : State := ((State.reset.placed 0).select 0).getD {}
/-- The same with the group, the tiller, the block changed. -/
def wg (f : Group → Group) : State := w0.modBlock 0 fun b => { b with groups := b.groups.map f }
def wt (f : Tiller → Tiller) : State := wg fun g => { g with tillers := listSet g.tillers 0 (f (g.til 0)) }
def wb (f : Block → Block) : State := w0.modBlock 0 f
/-- The tiller that a state has selected, taken out. -/
def ex (s : State) : Ex := s.load.getD { s := {}, c := { b := 0, g := 0, t := 0 }, b := {}, g := {}, t := {} }
/-- Whether an instruction issues at a state with its guard true somewhere, or nowhere. -/
def issuesAt (s : State) (h : Hd) (on : Bool) (i : Instr) : Bool :=
  s.load.isSome && (ex s).able && (ex s).shut.isNone && !((usesOf i (ex s).g).all.any (marked (ex s).g (ex s).c.t)) && !((ex s).g.inRecipe && !recipeOk (opcode i)) &&
    (rangeFault (ex s).g (usesOf i (ex s).g)).isNone && (decide ((ex s).guard h ≠ 0) == on)
theorem issuesAt_spec {s : State} {h : Hd} {on : Bool} {i : Instr} (w : issuesAt s h on i = true) :
    Issues i s (ex s) ∧ (if on then (ex s).guard h ≠ 0 else (ex s).guard h = 0) := by
  simp only [issuesAt, Bool.and_eq_true, Bool.not_eq_true', beq_iff_eq, Option.isNone_iff_eq_none] at w
  obtain ⟨⟨⟨⟨⟨⟨w1, w2⟩, w3⟩, w4⟩, w5⟩, w6⟩, w7⟩ := w
  refine ⟨⟨?_, w2, w3, w4, w5, w6⟩, ?_⟩
  · unfold ex
    obtain ⟨y, hy⟩ := Option.isSome_iff_exists.mp w1
    rw [hy]; rfl
  · cases on <;> simpa using w7
theorem issues_all {s : State} {h : Hd} {on : Bool} {l : List Instr} (w : l.all (issuesAt s h on) = true) :
    ∀ i ∈ l, Issues i s (ex s) ∧ (if on then (ex s).guard h ≠ 0 else (ex s).guard h = 0) :=
  fun i m => issuesAt_spec (List.all_eq_true.mp w i m)

/-- The unpredicated header, and one whose predicate p0 is false in every lane of `w0`. -/
def on : Hd := hd0
def off : Hd := hdP 0 false

def sop (h : Hd) : SOp := { h := h, ty := .i32, sat := false, d := 1, a := 2, b := .reg 3 }
/-- Scalar instructions. -/
def scalars (h : Hd) : List Instr :=
  [.sadd (sop h), .ssub (sop h), .smul (sop h), .smulh (sop h), .sdiv (sop h), .srem (sop h), .sand (sop h), .sor (sop h), .sxor (sop h), .sshl (sop h),
   .sshr (sop h), .ssra (sop h), .smin (sop h), .smax (sop h), .scmp .lt (sop h), .ssel (sop h), .smov h .i64 1 (.reg 2), .smov h .i64 1 (.imm (.i10 5)), .smovHi h 1 7,
   .sbfx h .n64 1 2 63 1, .sbit h .b64 .clz 1 2, .sget h .b32 1 (.reg 5) (.reg 2), .sget h .b32 1 (.reg 5) (.imm 31), .pbits h (.tos 1 2), .pbits h (.pop 1 2)]

theorem witness_ScalarInstructions : ∀ i ∈ scalars on, Issues i w0 (ex w0) ∧ (ex w0).guard on ≠ 0 := issues_all (on := true) (by decide +kernel)
theorem witness_ScalarInstructions_off : ∀ i ∈ scalars off, Issues i w0 (ex w0) ∧ (ex w0).guard off = 0 := issues_all (on := false) (by decide +kernel)

/-! ### Witnesses: scalars, predicates and the vector unit -/

/-- The header with guard true in every lane, and with guard false in every lane of `w0`. -/
theorem witness_PredicateResults : ∀ h ∈ [on, off], ∀ i ∈ ([.plog h .and 1 2 3, .pbits h (.top 1 2), .elect h 1, .poll h .odd 1 2] : List Instr),
    Issues i w0 (ex w0) ∧ (if h = on then (ex w0).guard h ≠ 0 else (ex w0).guard h = 0) := by
  intro h m
  simp only [List.mem_cons, List.not_mem_nil, or_false] at m
  obtain rfl | rfl := m
  · exact issues_all (on := true) (by decide +kernel)
  · exact issues_all (on := false) (by decide +kernel)

def vop (h : Hd) : VOp := { h := h, ty := .i32, sat := false, d := 1, a := .reg 2, b := .reg 3 }
def vopB (h : Hd) : VOp := { vop h with ty := .b32 }
def vopP (h : Hd) : VOp := { vop h with ty := .i16x2 }
def vop3 (h : Hd) : VOp3 := { h := h, ty := .i32, sat := true, d := 1, a := .reg 2, b := .reg 3, c := 4 }
def fop (h : Hd) : FOp := { h := h, ty := .f16, rnd := .rne, sat := false, d := 1, a := .reg 2, b := .reg 3 }
def fun1 (h : Hd) : FUn := { h := h, ty := .f16, rnd := .rne, sat := false, d := 1, a := .ind 2 3 }
/-- Vector integer, logic, field, packed, cross-lane, float and conversion instructions. -/
def vectors (h : Hd) : List Instr :=
  [.iadd (vop h), .isub (vop h), .imul (vop h), .imulh (vop h), .imin (vop h), .imax (vop h), .imad (vop3 h), .iabs h .i32 false 1 (.reg 2), .cvti h .i8 .i32 true 1 (.reg 2),
   .and (vopB h), .or (vopB h), .xor (vopB h), .shl (vopB h), .shr (vopB h), .sra (vop h), .rshr .rs (vop h), .icmp h .i32 .lt 1 (.reg 2) (.reg 3), .sel 1 (vopB h)]
def fields2 (h : Hd) : List Instr :=
  [.bfx h .i32 true 1 (.reg 2) 31 1, .bfxReg h .i32 false 1 (.reg 2) 3 4, .bit h .b32 .brev 1 (.reg 2), .mov h .i64 1 (.vec (.reg 2)), .mov h .b32 1 (.imm (.i10 1)),
   .mov h .b32 1 (.scl 2), .mov h .b32 1 .lane, .mov h .i16x2 1 (.vec (.reg 2)), .mov h .i16x2 1 (.imm (.i10 1)), .mov h .i16x2 1 (.scl 2), .padd (vopP h), .psub (vopP h),
   .pmul (vopP h), .pack h true 1 (.reg 2) (.reg 3), .pack h true 1 (.reg 2) (.imm 5), .unpk h true 1 (.reg 2), .pdot2 { vop3 h with ty := .i16x2 }]
def crossLane (h : Hd) : List Instr :=
  [.xlane h .b32 .hi false 1 (.reg 2) (.imm (.i10 1)), .xlane h .b32 .pick true 1 (.reg 2) (.reg 3), .slide h .i16x2 false 1 (.reg 2) 3 (.reg 4), .slideImm h .b32 true 1 (.reg 2) 0 (.imm 32),
   .bcast h .b32 1 (.reg 2) (.reg 3), .vmatch h .b64 1 (.reg 2), .vred h (.int .add .i32) 1 (.reg 2), .vred h (.flt .fadd .rne) 1 (.reg 2), .scan h false (.int .min .i32) 1 (.reg 2),
   .scan h true (.int .max .i32) 1 (.reg 2)]
def floats (h : Hd) : List Instr :=
  [.fadd (fop h), .fsub (fop h), .fmul (fop h), .fdiv (fop h), .frcp (fun1 h), .frsq (fun1 h), .fsqrt (fun1 h), .fexp2 (fun1 h), .flog2 (fun1 h),
   .ffma { h := h, ty := .f32, rnd := .rs, sat := false, d := 1, a := .reg 2, b := .reg 3, c := 4 }, .frnd (fun1 h), .fscl (fop h), .fmin { fop h with rnd := .dflt }, .fmax { fop h with rnd := .dflt },
   .fcmp h .f16 .lt 1 (.reg 2) (.reg 3), .fclass h .f16 1 (.reg 2)]
def converts (h : Hd) : List Instr :=
  [.cvt h .e4m3 .f32 true .rne true 4 (.reg 8), .cvt h .f16 .e5m2 true .dflt false 4 (.reg 8), .cvt h .bf16 .f32 false .rs false 4 (.reg 8), .cvtfi h .i32 .f32 .rtz 1 (.reg 2),
   .cvtif h .f16 .n64 .rne false 1 (.reg 2)]

theorem witness_VectorIntegerAndLogic : ∀ i ∈ vectors on, Issues i w0 (ex w0) ∧ (ex w0).guard on ≠ 0 := issues_all (on := true) (by decide +kernel)
theorem witness_VectorIntegerAndLogic_off : ∀ i ∈ vectors off, Issues i w0 (ex w0) ∧ (ex w0).guard off = 0 := issues_all (on := false) (by decide +kernel)
theorem witness_VectorFieldsAndPacked : ∀ i ∈ fields2 on, Issues i w0 (ex w0) ∧ (ex w0).guard on ≠ 0 := issues_all (on := true) (by decide +kernel)
theorem witness_VectorFieldsAndPacked_off : ∀ i ∈ fields2 off, Issues i w0 (ex w0) ∧ (ex w0).guard off = 0 := issues_all (on := false) (by decide +kernel)
theorem witness_CrossLaneInstructions : ∀ i ∈ crossLane on, Issues i w0 (ex w0) ∧ (ex w0).guard on ≠ 0 := issues_all (on := true) (by decide +kernel)
theorem witness_CrossLaneInstructions_off : ∀ i ∈ crossLane off, Issues i w0 (ex w0) ∧ (ex w0).guard off = 0 := issues_all (on := false) (by decide +kernel)
theorem witness_FloatInstructions : ∀ i ∈ floats on, Issues i w0 (ex w0) ∧ (ex w0).guard on ≠ 0 := issues_all (on := true) (by decide +kernel)
theorem witness_FloatInstructions_off : ∀ i ∈ floats off, Issues i w0 (ex w0) ∧ (ex w0).guard off = 0 := issues_all (on := false) (by decide +kernel)
theorem witness_Conversions : (∀ i ∈ converts on, Issues i w0 (ex w0) ∧ (ex w0).guard on ≠ 0) ∧ (converts on).all Instr.wf :=
  ⟨issues_all (on := true) (by decide +kernel), by decide +kernel⟩
theorem witness_Conversions_off : ∀ i ∈ converts off, Issues i w0 (ex w0) ∧ (ex w0).guard off = 0 := issues_all (on := false) (by decide +kernel)

/-- −1 is within the finite range of E2M1, whose code 7 is 6. -/
theorem witness_Rounding : (.e2m1 : FType) ≠ .fmt ∧ (.rne : Rnd) ≠ .dflt ∧
    ∃ c b, c < 2 ^ fmtBits .e2m1 ∧ finite .e2m1 .finite c = some b ∧ |ratOf true 1 0| ≤ |b| :=
  ⟨by decide, by decide, 7, 6, by decide, by
    have : fvalue .e2m1 .finite 7 = .num false 3 1 := by decide +kernel
    simp [finite, this, ratOf]; norm_num, by simp [ratOf]⟩
/-- 1 / −2 is within the finite range of FP16, whose code 0x3C00 is 1. -/
theorem witness_ExactOperations : tyF3.contains .f16 ∧ (2 : Nat) ≠ 0 ∧
    ∃ c b, c < 2 ^ fmtBits .f16 ∧ finite .f16 .ieee c = some b ∧ |ratOf false 1 0 / ratOf true 2 0| ≤ |b| :=
  ⟨by decide, by decide, 0x3C00, 1, by decide, by
    have : fvalue .f16 .ieee 0x3C00 = .num false 1024 (-10) := by decide +kernel
    simp [finite, this, ratOf]; norm_num, by simp [ratOf]; norm_num⟩

/-! ### Witnesses: issue, traps, pending results, the sequencer. `issuesAt` says by `issuesAt_spec` that `Issues` holds, and how the guard stands -/

/-- A pending result of tiller 0, and one that waits for a condition. -/
def alu : Pend := { slot := 0, mask := 1, op := 0x14, marks := [.s 3], wr := [.s 3 7], fl := 1, kind := .alu }
def waitOn (c : Cond) : Pend := { slot := 0, mask := 1, op := 0x2B, marks := [], wr := [], fl := 0, kind := .cond c }
/-- The whole-word sum in scalars 1 to 3. -/
def addI : Instr := .sadd (sop on)

theorem witness_ChecksBeforeTheEffect_able : addI.raw.isSome ∧ (wt fun t => { t with st := .atJoin }).load = some (ex (wt fun t => { t with st := .atJoin })) ∧
    (ex (wt fun t => { t with st := .atJoin })).able = false := by decide +kernel
def wShut : State := wg fun g => { g with pend := [(4, alu)], tillers := listSet g.tillers 0 { (g.til 0) with wins := [{ id := 4, left := 0 }] } }
theorem witness_ChecksBeforeTheEffect_shut : wShut.load = some (ex wShut) ∧ (ex wShut).able ∧ (ex wShut).shut = some 4 := by decide +kernel
def wMark : State := wg fun g => { g with pend := [(4, alu)] }
theorem witness_ChecksBeforeTheEffect_marked : wMark.load = some (ex wMark) ∧ (ex wMark).able ∧ (ex wMark).shut = none ∧
    (usesOf addI (ex wMark).g).all.any (marked (ex wMark).g (ex wMark).c.t) := by decide +kernel
theorem witness_ChecksBeforeTheEffect_maint : issuesAt w0 on true (.cpya { h := on, arv := none, d := 4, a := 4, b := 4 } .g2l .e8 .none) ∧
    maintOnly (.cpya { h := on, arv := none, d := 4, a := 4, b := 4 } .g2l .e8 .none) ∧ (ex w0).b.maint = false := by decide +kernel
def wRecipe : State := wg fun g => { g with flash := { g.flash with recipe := true } }
theorem witness_ChecksBeforeTheEffect_recipe : (ex wRecipe).able ∧ (ex wRecipe).shut = none ∧ (ex wRecipe).g.inRecipe ∧ ¬recipeOk (opcode (.launch on 4 5 6 0)) := by decide +kernel
def wFew : State := wg fun g => { g with sregs := 3 }
theorem witness_ChecksBeforeTheEffect_range : wFew.load = some (ex wFew) ∧ (ex wFew).able ∧ (ex wFew).shut = none ∧
    (usesOf addI (ex wFew).g).all.any (marked (ex wFew).g (ex wFew).c.t) = false ∧ (rangeFault (ex wFew).g (usesOf addI (ex wFew).g)).isSome := by decide +kernel

def wHandler : State := wb fun b => { b with traph := 32 }
theorem witness_TrapsAndFailures_handler : wHandler.load = some (ex wHandler) ∧ (ex wHandler).b.traph ≠ 0 ∧ (ex wHandler).g.trap = none ∧
    (trapRegs (ex wHandler).g).any (marked (ex wHandler).g (ex wHandler).c.t) = false ∧ 4 ≤ (ex wHandler).g.sregs ∧ cwf 0 (ex wHandler).g.s := by decide +kernel
theorem witness_TrapsAndFailures_none : w0.load = some (ex w0) ∧ (ex w0).b.fail = none ∧ (ex w0).b.traph = 0 ∧ (w0.ringOf (ex w0).b.pid (ex w0).b.vd).1 = 0 := by decide +kernel

def wTrap (rc : Option Nat) (rs : List Nat) (at' : DWord) : State :=
  wg fun g => { g with trap := some { saved := [1, 2, 3, 4], slot := 0, mask := 1, rcds := rs }, s := cset 0 g.s 124 at', tillers := listSet g.tillers 0 { (g.til 0) with rcd := rc } }
theorem witness_ReturningFromATrap : issuesAt w0 on true (.rett 0) ∧ (ex w0).g.trap = none ∧
    issuesAt (wTrap (some 3) [2] 0) on true (.rett 0) ∧ (∃ r ∈ (ex (wTrap (some 3) [2] 0)).t.rcd, r ∉ [2]) ∧
    issuesAt (wTrap (some 2) [2] 2) on true (.rett 0) ∧ w0.startOk (ex w0).b 2 = false ∧
    issuesAt (wTrap (some 2) [2] 0) on true (.rett 0) ∧ (ex w0).g.sregs - 4 = 124 ∧ (wTrap (some 2) [2] 0).startOk (ex w0).b 0 := by decide +kernel

theorem witness_PendingResults : GroupAt wMark 0 0 (ex wMark).g ∧ tget (ex wMark).g.pend 4 = some alu ∧ alu.kind = .alu ∧
    (∀ n ∈ [0, 5], GroupAt (wg fun g => { g with pend := [(4, waitOn (.snooze n))] }) 0 0 (ex (wg fun g => { g with pend := [(4, waitOn (.snooze n))] })).g) ∧ w0.now = 0 ∧
    cwf 0 (ex w0).g.v ∧ cwf 0 (ex w0).g.s ∧ cwf 0 (ex w0).g.p := by
  refine ⟨⟨_, rfl, rfl⟩, by decide +kernel, rfl, ?_, by decide +kernel⟩
  intro n m
  simp only [List.mem_cons, List.not_mem_nil, or_false] at m
  obtain rfl | rfl := m <;> exact ⟨_, rfl, rfl⟩

def sequencer (h : Hd) : List Instr :=
  [.nop h, .setfmt h (some 4) (.named .e5m2 .ieee), .setfmt h none (.reg 3), .setfmtImm h none 3, .setmode h (some 3) (.ops { drnd := .rtz, daz := .set, ftz := .keep, satd := .clear }),
   .setmode h none (.reg 3), .setmodeStep h none { drnd := .dflt, daz := .keep, ftz := .keep, satd := .set } 7, .swr h .fmt 3, .swr h .mode 3, .swr h .flags 3, .flgwr h .or (.imm (.i10 1)),
   .flgwr h .mov (.reg 3), .yield h, .snooze h 3, .snoozeImm h 0, .snoozeImm h 9]
def wTrc : State := w0.modSlice 0 fun k => { k with trc := [(1, {})] }
def specials (h : Hd) : List Instr := [.srd h 1 .group, .srd h 1 .flags, .srd h 1 .time, .srd h 1 .core, .flgrd h false 1, .flgrd h true 1]
theorem witness_SpecialRegisters : (sequencer on).all (issuesAt w0 on true) ∧ (sequencer off).all (issuesAt w0 off false) ∧ w0.load = some (ex w0) ∧ (ex w0).able ∧
    (ex w0).g.sget 3 = 0 ∧ (ex (wg fun g => g.sset 3 5)).g.sget 3 ≠ 0 ∧ issuesAt (wg fun g => g.sset 3 5) on true (.snooze on 3) := by decide +kernel
theorem witness_SpecialRegisters_reads : (specials on).all (issuesAt wTrc on true) ∧ (specials off).all (issuesAt wTrc off false) := by decide +kernel
theorem witness_SpecialRegisters_trace : notRecording (ex wTrc) := ⟨{}, rfl, rfl, rfl⟩
theorem witness_InstructionStarts : ((w0.icFind 0 0 1 28).map fun e => e.words.length) = some 8 ∧ w0.startOk (ex w0).b 28 ∧ w0.startOk (ex w0).b 30 = false := by decide +kernel

/-- Predicate p0 true in lane 0 only: a branch on it is taken by one lane of 32. -/
def part1 : Hd := hdP 0 false
def wSplit (f : Group → Group) : State := wg fun g => f (g.pset 0 1)
def jumps (h : Hd) (m : BMode) : List Instr := [.bra h m 0, .brx h m 3, .call h m 4 0, .callx h m 4 3, .ret h m 3]
def full (g : Group) : Group := { g with tillers := g.tillers.map fun t => if t.st = .free then { t with st := .ended } else t }
/-- With a record already opened at this address, and its deferred path. -/
def opened' (d : Option (Nat × Nat)) (g : Group) : Group :=
  { g with rcds := [(7, { addr := 0, mask := 2 ^ 32 - 1, fmt := 0x13, mode := 1, parent := none, dfr := d })], tillers := listSet g.tillers 0 { (g.til 0) with rcd := some 7 } }
theorem witness_Transfers : (jumps on .any).all (issuesAt w0 on true) ∧ (jumps off .div).all (issuesAt w0 off false) ∧ (ex w0).guard on = (ex w0).t.mask ∧
    (ex w0).s.startOk (ex w0).b 0 ∧ (ex w0).s.startOk (ex w0).b 2 = false ∧ issuesAt (wg fun g => g.sset 3 2) on true (.brx on .all 3) ∧ (ex w0).g.inRecipe = false ∧
    (jumps part1 .div).all (issuesAt (wSplit id) part1 true) ∧ (ex (wSplit id)).guard part1 ≠ (ex (wSplit id)).t.mask := by decide +kernel
theorem witness_Transfers_split : splitRcd (ex (wSplit id)) 0 { addr := 0, mask := 2 ^ 32 - 1, fmt := 0x13, mode := 1, parent := none } true ∧ freeSlot (ex (wSplit id)).g (some 1) ∧
    freeSlot (ex (wSplit full)).g none :=
  ⟨⟨rfl, rfl, by decide, fun q c h => by cases h⟩, rfl, rfl⟩
theorem witness_Transfers_deferred : ∀ d ∈ [none, some (2, 0), some (2, 4)], splitRcd (ex (wSplit fun g => full (opened' d g))) 7
    { addr := 0, mask := 2 ^ 32 - 1, fmt := 0x13, mode := 1, parent := none, dfr := d } false ∧ freeSlot (ex (wSplit fun g => full (opened' d g))).g none := by
  intro d m
  simp only [List.mem_cons, List.not_mem_nil, or_false] at m
  obtain rfl | rfl | rfl := m <;> exact ⟨⟨rfl, rfl, rfl⟩, rfl⟩
def manyRcds (g : Group) : Group := { g with rcds := (upto 16).map fun k => (k, { addr := 4, mask := 1, fmt := 0x13, mode := 1, parent := none }) }
theorem witness_Transfers_room : issuesAt (wSplit manyRcds) part1 true (.bra part1 .div 0) ∧ 16 ≤ (ex (wSplit manyRcds)).g.rcds.length ∧ (ex (wSplit manyRcds)).t.rcd = none := by decide +kernel
theorem witness_Transfers_recipe : issuesAt wRecipe on true (.ret on .any 3) ∧ issuesAt wRecipe off false (.ret off .any 3) ∧ (ex wRecipe).g.inRecipe := by decide +kernel

/-! ### Witnesses: joins, wide regions, records, exit, traps, barriers -/

theorem all_at {l : List Tiller} {p : Nat → Tiller → Prop} (w : ∀ k < l.length, ∀ t ∈ l[k]?, p k t) : ∀ (k : Nat) (t : Tiller), l[k]? = some t → p k t :=
  fun k t h => w k (by by_contra n; rw [List.getElem?_eq_none (by omega)] at h; cases h) t h
/-- Slots 0 to 2 of a group, record 7 open at address 64. -/
def rec7 (p : Option Nat) : Nat × Rcd := (7, { addr := 64, mask := 15, fmt := 0x13, mode := 1, parent := p })
def til7 (st : TState) (at' m : Nat) (r : Option Nat) : Tiller := { mask := m, st := st, parkAt := at', rcd := r }
def wTils (rs : List (Nat × Rcd)) (l : List Tiller) : State := wg fun g => { g with rcds := rs, tillers := l }
def wJoin : State := wTils [rec7 none] [til7 .ready 0 1 (some 7), til7 .ready 0 2 (some 7), til7 .ready 0 12 (some 7)]
theorem witness_RecordsAndWideRegions_join : issuesAt w0 on true (.join 0) ∧ (ex w0).t.rcd = none ∧ issuesAt wJoin on true (.join 0) ∧ (ex wJoin).t.rcd = some 7 := by decide +kernel
theorem witness_RecordsAndWideRegions_parks : (∀ k t, k ≠ (ex wJoin).c.t → ofRcd (ex wJoin).g 7 k t → t.st = .atJoin → t.parkAt ≠ (ex wJoin).t.pc % 2 ^ 64) ∧
    moves (parkedAt (ex wJoin) (.join 0) .atJoin) :=
  ⟨fun k t _ h => (all_at (p := fun _ t => t.st = .atJoin → t.parkAt ≠ 0) (l := (ex wJoin).g.tillers) (by decide +kernel)) k t h.1,
   fun e m => Or.inl ⟨1, til7 .ready 0 2 (some 7), by
     have : e = rec7 none := List.mem_singleton.mp m
     subst this; exact ⟨⟨rfl, rfl, by decide⟩, by decide, by decide⟩⟩, 1, til7 .ready 0 2 (some 7), rfl, rfl, rfl⟩
def wMerge : State := wTils [rec7 none] [til7 .ready 0 1 (some 7), til7 .atJoin 0 2 (some 7), til7 .ready 0 12 (some 7)]
theorem witness_RecordsAndWideRegions_merges : issuesAt wMerge on true (.join 0) ∧ (ex wMerge).t.rcd = some 7 ∧ (1 : Nat) ≠ (ex wMerge).c.t ∧
    (ex wMerge).g.tillers[1]? = some (til7 .atJoin 0 2 (some 7)) ∧ (til7 .atJoin 0 2 (some 7)).parkAt = (ex wMerge).t.pc % 2 ^ 64 := by decide +kernel
theorem witness_RecordsAndWideRegions_merges_moves :
    (∀ j t, j ≠ (ex wMerge).c.t → j ≠ 1 → ofRcd (ex wMerge).g 7 j t → t.st = .atJoin → t.parkAt ≠ (ex wMerge).t.pc % 2 ^ 64) ∧
    moves { (ex wMerge).g with tillers := listSet (listSet (ex wMerge).g.tillers 1 {}) 0 { til7 .atJoin 0 2 (some 7) with mask := 3 } } :=
  ⟨fun k t _ h1 h => (all_at (p := fun k t => k ≠ 1 → t.st = .atJoin → t.parkAt ≠ 0) (l := (ex wMerge).g.tillers) (by decide +kernel)) k t h.1 h1,
   fun e m => Or.inl ⟨2, til7 .ready 0 12 (some 7), by
     have : e = rec7 none := List.mem_singleton.mp m
     subst this; exact ⟨⟨rfl, rfl, by decide⟩, by decide, by decide⟩⟩, 2, til7 .ready 0 12 (some 7), rfl, rfl, rfl⟩
def wInWide (w : List Tiller) : State := wg fun g => { g with wide := some { pc := 0, tillers := w, rcds := [], slot := 0 } }
theorem witness_RecordsAndWideRegions_wide : issuesAt (wInWide []) on true (.wide 0) ∧ (ex (wInWide [])).g.wide.isSome ∧ issuesAt wJoin on true (.wide 0) ∧ (ex wJoin).g.wide = none ∧
    issuesAt w0 on true (.wide 0) ∧ ((parkedAt (ex w0) (.wide 0) .atWide).enterWide).isSome ∧ issuesAt w0 on true (.endwide 0) ∧ (ex w0).g.wide = none ∧
    issuesAt (wInWide (List.replicate 8 {})) on true (.endwide 0) ∧ (List.replicate 8 ({} : Tiller)).length = (ex w0).g.tillers.length ∧ (ex (wInWide [])).t.rcd = none := by decide +kernel
theorem witness_RecordsAndWideRegions_runs : otherRuns (ex wJoin).g (ex wJoin).c.t := ⟨1, til7 .ready 0 2 (some 7), by decide +kernel, rfl, rfl, rfl⟩
/-- Two tillers at the `wide` at address 16, lane 0 in slot 1. -/
def gWide : Group := { tillers := [til7 .atWide 16 2 none, til7 .atWide 16 1 none, {}] }
theorem witness_RecordsAndWideRegions_enters : gWide.wide = none ∧ (∀ (j : Nat) (t : Tiller), gWide.tillers[j]? = some t → t.st.live → t.st = .atWide ∧ t.parkAt = 16 ∧ 0 ≤ j) ∧
    (∃ t : Tiller, gWide.tillers[0]? = some t ∧ t.st.live) ∧ gWide.tillers[1]? = some (til7 .atWide 16 1 none) ∧
    ∃ i < 32, (til7 .atWide 16 1 none).mask.testBit i ∧ ∀ (j : Nat) (t : Tiller) (l : Nat), gWide.tillers[j]? = some t → t.st.live → t.mask.testBit l → i ≤ l ∧ (l = i → j = 1) := by
  refine ⟨rfl, all_at (p := fun j t => t.st.live → t.st = .atWide ∧ t.parkAt = 16 ∧ 0 ≤ j) (l := gWide.tillers) (by decide), ⟨_, rfl, rfl⟩, rfl, 0, by decide, by decide, ?_⟩
  intro j t l h1 _ h3
  refine ⟨Nat.zero_le l, fun e => ?_⟩
  subst e
  have := all_at (p := fun j t => t.mask.testBit 0 = true → j = 1) (l := gWide.tillers) (by decide) j t h1
  exact this h3
/-- Record 7 with two tillers at the join at 16, or at two joins. -/
def gClose (a : Nat) : Group := { tillers := [til7 .atJoin 16 1 (some 7), til7 .atJoin a 2 (some 7), {}], rcds := [rec7 none] }
theorem witness_RecordsAndWideRegions_closes :
    (∀ j u, ofRcd (gClose 16) 7 j u → (u.st = .atJoin ∧ u.parkAt = 16 ∧ 0 ≤ j) ∨ u.st = .ended ∧ 0 ≤ j) ∧ ofRcd (gClose 16) 7 0 (til7 .atJoin 16 1 (some 7)) ∧
    (∀ e ∈ (gClose 16).rcds, e.2.parent ≠ some 7) ∧ (rec7 none).2.mask &&& (gClose 16).exited ≠ (rec7 none).2.mask ∧
    (∀ i v, ofRcd (gClose 20) 7 i v → v.st = .atJoin ∨ v.st = .ended) ∧ ofRcd (gClose 20) 7 1 (til7 .atJoin 20 2 (some 7)) := by
  refine ⟨fun j u h => ?_, ⟨rfl, rfl, by decide⟩, by decide, by decide, fun j u h => ?_, ⟨rfl, rfl, by decide⟩⟩
  · exact all_at (p := fun j t => t.rcd = some 7 → (t.st = .atJoin ∧ t.parkAt = 16 ∧ 0 ≤ j) ∨ t.st = .ended ∧ 0 ≤ j) (l := (gClose 16).tillers) (by decide) j u h.1 h.2.1
  · exact all_at (p := fun _ t => t.rcd = some 7 → t.st = .atJoin ∨ t.st = .ended) (l := (gClose 20).tillers) (by decide) j u h.1 h.2.1
theorem witness_RecordsAndWideRegions_starts : ({ (rec7 none).2 with dfr := some (4, 32) } : Rcd).dfr = some (4, 32) ∧ (gClose 16).tillers[2]? = some ({} : Tiller) ∧
    ∀ (j : Nat) (u : Tiller), j < 2 → (gClose 16).tillers[j]? = some u → u.st ≠ .free ∧ (u.st = .ended → u.rcd ≠ some 7) :=
  ⟨rfl, rfl, fun j u h k => all_at (p := fun j u => j < 2 → u.st ≠ .free ∧ (u.st = .ended → u.rcd ≠ some 7)) (l := (gClose 16).tillers) (by decide) j u k h⟩

def wTwo : State := wTils [] [til7 .ready 0 3 none, til7 .ready 0 12 none]
theorem witness_LanesEndAndBreakpoints_exit : issuesAt (wInWide []) on true (.exit on) ∧ issuesAt w0 off false (.exit off) ∧
    issuesAt (wg fun g => { g with pend := [(4, { alu with marks := [] })], tillers := listSet g.tillers 0 { (g.til 0) with wins := [{ id := 4, left := 3 }] } }) on true (.exit on) ∧
    issuesAt (wSplit id) part1 true (.exit part1) ∧ (ex (wSplit id)).guard part1 ≠ (ex (wSplit id)).t.mask ∧ (ex (wSplit id)).t.wins = [] ∧ (ex (wSplit id)).g.rcds = [] ∧
    issuesAt wTwo on true (.exit on) ∧ (ex wTwo).guard on = (ex wTwo).t.mask ∧ (ex wTwo).t.rcd = none ∧ (ex wTwo).g.trap = none ∧ (ex wTwo).g.bars = [] ∧ issuesAt w0 on true (.exit on) ∧
    (ex w0).guard on = (ex w0).t.mask ∧ (∀ b ∈ (ex w0).b.bars, b.first ≠ some 0) := by decide +kernel
theorem witness_LanesEndAndBreakpoints_others : otherRuns (ex wTwo).g (ex wTwo).c.t ∧ ∀ (k : Nat) (t : Tiller), k ≠ (ex w0).c.t → (ex w0).g.tillers[k]? = some t → t.st.live = false :=
  ⟨⟨1, til7 .ready 0 12 none, by decide +kernel, rfl, rfl, rfl⟩,
   fun k t n h => all_at (p := fun k t => k ≠ (ex w0).c.t → t.st.live = false) (l := (ex w0).g.tillers) (by decide +kernel) k t h n⟩
def wArmed : State := w0.modSlice 0 fun k => { k with trc := [(1, { brken := true })] }
theorem witness_LanesEndAndBreakpoints_trap : ([.trap on 7, .bkpt on] : List Instr).all (issuesAt wTrc on true) ∧ ([.trap off 7, .bkpt off] : List Instr).all (issuesAt wTrc off false) ∧
    (tget ((ex wTrc).s.slice 0).trc 1).map TrcEnt.brken = some false ∧ issuesAt wArmed on true (.bkpt on) ∧ (tget ((ex wArmed).s.slice 0).trc 1).map TrcEnt.brken = some true ∧
    (tget (ex wArmed).s.quarters (quarterKey (ex wArmed).b (ex wArmed).g)).map Quarter.stop = some none := by decide +kernel

/-- A phase that another group began with count 3, in a block of two groups. -/
def wBar : State := wb fun b => { b with groups := b.groups ++ [{}], bars := listSet b.bars 0 { first := some 2, target := 2, arrived := [1] } }
theorem witness_Barriers_named : issuesAt wTwo on true (.bar 0 0 true (.imm 0)) ∧ issuesAt wTwo on true (.bar 0 0 false (.imm 0)) ∧ issuesAt wBar on true (.bar 0 0 true (.imm 2)) ∧
    issuesAt wBar on true (.bar 0 0 false (.imm 2)) ∧ val10 (ex wBar).g (.imm 2) ≤ 32 ∧ val10 (ex wBar).g (.imm 2) ≤ (ex wBar).b.groups.length ∧
    (∀ f ∈ ((ex wBar).b.bars.getD 0 {}).first, f = val10 (ex wBar).g (.imm 2)) ∧ issuesAt wBar on true (.bar 0 0 false (.reg 3)) ∧
    (∃ f ∈ ((ex wBar).b.bars.getD 0 {}).first, f ≠ val10 (ex wBar).g (.reg 3)) ∧ issuesAt (wg fun g => g.sset 3 33) on true (.bar 0 15 false (.reg 3)) ∧
    32 < val10 (ex (wg fun g => g.sset 3 33)).g (.reg 3) ∧ 0 < (ex wBar).b.groups.length := by decide +kernel
theorem witness_Barriers_all : allAt (ex wBar) 0 ∧ ¬allAt (ex wTwo) 0 ∧ otherRuns (ex wTwo).g (ex wTwo).c.t ∧
    (∀ (k : Nat) (t : Tiller), k ≠ (ex wBar).c.t → (ex wBar).g.tillers[k]? = some t → t.st ≠ .atWide) := by
  refine ⟨fun k t n h l => ?_, fun h => ?_, witness_LanesEndAndBreakpoints_others.1, fun k t n h => ?_⟩
  · exact absurd l (all_at (p := fun k t => k ≠ (ex wBar).c.t → t.st.live ≠ true) (l := (ex wBar).g.tillers) (by decide +kernel) k t h n)
  · exact absurd (h 1 (til7 .ready 0 12 none) (by decide +kernel) rfl rfl) (by decide +kernel)
  · exact all_at (p := fun k t => t.st ≠ .atWide) (l := (ex wBar).g.tillers) (by decide +kernel) k t h
theorem witness_Barriers_release : ({ tillers := [til7 (.atBar 3) 0 1 none] } : Group).tillers[0]? = some (til7 (.atBar 3) 0 1 none) ∧
    ∀ e ∈ ({ tillers := [til7 (.atBar 3) 0 1 none] } : Group).pend, e.2.kind ≠ .cond (.bar 3) := by decide
/-- Local memory with an object of target 2 and phase 1 at 8. -/
def wObj : State := wb fun b => { b with loc := writeLE [] 8 8 0x100000002 }
theorem witness_Barriers_phase : ([.parrive on (some 4) 3 none 8, .parrive on none 3 (some 3) 0, .pwait on true 3 8, .pwait on false 3 8, .pwait on true 3 4, .pwait on true 3 0x400] : List Instr).all (issuesAt wObj on true) ∧
    ([.parrive off (some 4) 3 none 8, .pwait off true 3 8] : List Instr).all (issuesAt wObj off false) ∧ localAt (ex wObj) 3 8 = 8 ∧ localAt (ex wObj) 3 0x400 = (ex wObj).b.localSz ∧
    ((objOf (ex wObj) 8).extractLsb' 0 16 ≠ 0 ∧ ¬(objOf (ex wObj) 8).extractLsb' 0 16 ≤ (objOf (ex wObj) 8).extractLsb' 16 16) ∧ (objOf (ex wObj) 0).extractLsb' 0 16 = 0 ∧
    (objOf (ex wObj) 8).getLsbD 32 = true := by decide +kernel

/-! ### Witnesses: memory -/

def mop {ρ : Type} (h : Hd) (r : ρ) (a : SReg) : MemOp ρ SReg := { h := h, ty := .b32, hint := .none, ord := none, r := r, a := a, off := 0 }
def mopV (h : Hd) : MemOp VReg VSrc := { h := h, ty := .b32, hint := .none, ord := none, r := 1, a := .reg 2, off := 0 }
def aop (h : Hd) (op : AOp) : AtomOp := { h := h, op := op, sem := none, d := 1, a := .reg 2, off := 0 }
def cop (h : Hd) : CasOp := { h := h, ty := .b32, sem := none, d := 1, a := .reg 2, b := 4, c := 5, off := 0 }
def globals (h : Hd) : List Instr :=
  [.ld (mop h 1 3), .st (mop h 1 3), .sld (mop h 4 3), .sst (mop h 4 3), .gath (mopV h), .scat (mopV h), .ldb (mop h 1 3), .stz h 3 0, .cline h .wb 3 0]
def atomics (h : Hd) : List Instr := [.atom (aop h (.int .add .n32)) 4, .atomImm32 (aop h (.int .exch .b32)) 7, .cas (cop h), .atomOrd h (.reg 2) 4 0]
def locals (h : Hd) : List Instr :=
  [.ldl (mop h 1 3), .stl (mop h 1 3), .lgath (mopV h), .lscat (mopV h), .atoml (aop h (.int .add .n32)) 4, .atomlImm32 (aop h (.flt .fadd)) 7, .casl (cop h)]
/-- A check of R118 on three addresses: misaligned, beyond the local allocation, not canonical. -/
theorem witness_GlobalLoadsAndStores : (globals on).all (issuesAt w0 on true) ∧ (globals off).all (issuesAt w0 off false) ∧
    checkOf true 0 4 { lane := 0, va := 2, size := 4, op := .read } = some 0x10 ∧ checkOf true 0 4 { lane := 0, va := 2 ^ 56, size := 4, op := .read } = some 0x30 ∧
    checkOf true 0 4 { lane := 0, va := 2 ^ 56 - 4, size := 4, op := .read } = none ∧ checkOf false 1024 4 { lane := 0, va := 1024, size := 4, op := .read } = some 0x20 ∧
    (∀ p ∈ perLaneOps (ex w0) on 4 (elemAt (ex w0) 3 0 4) fun _ => .read, checkOf true 1024 4 p = none) ∧
    slotsFor (ex w0) (perLaneOps (ex w0) on 4 (elemAt (ex w0) 3 0 4) fun _ => .read) := by
  unfold slotsFor
  decide +kernel
theorem witness_GlobalAtomics : (atomics on).all (issuesAt w0 on true) ∧ (atomics off).all (issuesAt w0 off false) ∧
    (∀ p ∈ atomicOps (ex w0) (aop on (.int .add .n32)) (pairAt (ex w0) (.reg 2) 0) fun _ => 0, checkOf true 1024 4 p = none) := by decide +kernel
theorem witness_LocalMemoryAndAtomicValues : (locals on).all (issuesAt w0 on true) ∧ (locals off).all (issuesAt w0 off false) ∧
    (∀ p ∈ perLaneOps (ex w0) on 4 (elemAt (ex w0) 3 0 4) fun _ => .read, checkOf false 1024 4 p = none) ∧ 2 ^ 8 - 1 < 2 ^ (IType.n8).width := by decide +kernel
def busy : Pend := { slot := 0, mask := 1, op := 0x91, marks := [], wr := [], fl := 0, kind := .mem { dst := .none, lanes := [], acc := { w := true } } }
def wBusy : State := wg fun g => { g with pend := [(0, busy)], nextPend := 1 }
theorem doneAt_nil {x : Ex} {sc : Scope} (h : x.g.pend = []) (r : x.s.rops = []) : doneAt sc x :=
  ⟨fun id p m => (by rw [h] at m; cases m), fun _ id o m => (by rw [r] at m; cases m)⟩
theorem not_doneAt {x : Ex} {sc : Scope} {m : MemFlight} (p : Pend) (k : p.kind = .mem m) (h : (0, p) ∈ x.g.pend) (n : x.g.nextPend = 1) (l : p.mask &&& x.t.mask ≠ 0)
    (a : m.accepted = true → sc ≠ .grp ∧ sc ≠ .blk) : ¬doneAt sc x := by
  intro d
  have := d.1 0 p h (by omega) l
  rw [k] at this
  obtain ⟨h1, h2 | h2⟩ := this
  · exact (a h1).1 h2
  · exact (a h1).2 h2
theorem witness_FencesAndPrefetches : ([.fence on .sc .sys, .ifence on, .pref on .l1 3 0, .ipref on 3 0] : List Instr).all (issuesAt w0 on true) ∧
    ([.fence off .sc .sys, .ifence off] : List Instr).all (issuesAt w0 off false) ∧ (ex w0).g.pend = [] ∧ (ex w0).s.rops = [] ∧
    issuesAt wBusy on true (.fence on .sc .prt) ∧ busy.kind = .mem { dst := .none, lanes := [], acc := { w := true } } ∧ (0, busy) ∈ (ex wBusy).g.pend ∧ (ex wBusy).g.nextPend = 1 ∧ busy.mask &&& (ex wBusy).t.mask ≠ 0 := by decide +kernel
theorem witness_GlobalLoadsAndStores_released : released (ex w0) none ∧ released (ex w0) (some .prt) ∧ ¬released (ex wBusy) (some .prt) ∧
    issuesAt wBusy on true (.st { mop on 1 3 with ord := some .prt }) := by
  have hb : busy.kind = .mem { dst := .none, lanes := [], acc := { w := true } } ∧ (0, busy) ∈ (ex wBusy).g.pend ∧ (ex wBusy).g.nextPend = 1 ∧ busy.mask &&& (ex wBusy).t.mask ≠ 0 := by decide +kernel
  exact ⟨fun sc h => (by cases h), fun sc _ => doneAt_nil rfl rfl, fun h => not_doneAt busy hb.1 hb.2.1 hb.2.2.1 hb.2.2.2 (by intro a; cases a) (h .prt rfl), by decide +kernel⟩

/-! ### Witnesses: translation, homes, answers, walks, messages, fetch -/

/-- The block in VD 0, whose second stage is the identity, with a first-stage root at PPN 1 whose entry 0 is a leaf that permits everything. -/
def mapped' (s : State) : State :=
  let s := s.modBlock 0 fun b => { b with vd := 0 }
  { s with mem := writeLE s.mem 4096 8 0xDF, parts := tmod s.parts 0 fun p => { p with vds := [(0, { s1root := 10 * 2 ^ 60 + 1 })] } }
def wMap : State := mapped' w0
def isOk {α β : Type} : Except α β → Bool
  | .ok _ => true
  | .error _ => false
theorem isOk_spec {α β γ : Type} {x : γ × Except α β} (h : isOk x.2 = true) : ∃ s v, x = (s, .ok v) := by
  obtain ⟨s, v⟩ := x
  cases v with
  | ok v => exact ⟨s, v, rfl⟩
  | error e => cases h
theorem isErr_spec {α β γ : Type} {x : γ × Except α β} (h : isOk x.2 = false) : ∃ s v, x = (s, .error v) := by
  obtain ⟨s, v⟩ := x
  cases v with
  | ok v => cases h
  | error e => exact ⟨s, e, rfl⟩

/-- The worked example of interleave: with entries e mod 2, PA 0xA01080 is in slice 1 at SLA 0x401080. -/
theorem witness_HomesAndRoutes : homeOf ((upto 256).map fun e => 128 + e % 2) 0xA01080 = some (1, 0x401080) ∧ (0 : Nat) < 16 ∧ (15 : Nat) < 16 ∧ (0 : Nat) ≠ 15 := by decide +kernel
theorem witness_TranslationAndWalks_checks : (1 : Nat) ≠ 0 ∧ ({} : VdCtx).s2root / 2 ^ 60 ≠ 10 ∧ (∃ p ∈ tget wMap.parts 0, ∃ c ∈ tget p.vds 0, c.s1root / 2 ^ 60 = 10 ∧ c.glob = false) ∧
    (0 : Nat).testBit 56 = false ∧ (2 ^ 56).testBit 56 = true ∧ (∃ p ∈ tget { wMap with parts := [(0, { vds := [(1, {})] })] }.parts 0, ∃ c ∈ tget p.vds 1, c.s1root / 2 ^ 60 ≠ 10) := by
  decide +kernel

def rd (va : Nat) : LOp := { lane := 3, va := va, size := 4, op := .read }
def wr (va v : Nat) : LOp := { lane := 5, va := va, size := 4, op := .write v }
/-- A request of the block's pending instruction 2, at its home, slice 0. -/
def req (ls : List LOp) (st : ReqSt) : Req := { b := 0, g := 0, pend := 2, slot := 0, slice := 0, core := 0, pid := 0, vd := 0, gran := 64, lanes := ls, acc := { r := true }, st := st }
def frame0 : FrameE := { home := 0, vd := 0, vpn := 2, big := false, sla := 8192, pa := 8192, key := 0 }
def wReq (q : Req) (fr : List FrameE) : State := { wMap.modSlice 0 (fun k => { k with fcache := fr }) with reqs := [(6, q)] }
def q0 : Req := req [rd 8192, wr 8316 7] .atHome
theorem witness_RequestsAtTheHome_turn : itsTurn (wReq q0 []) 6 q0 ∧ itsTurn (wReq q0 [frame0]) 6 q0 :=
  ⟨⟨by decide +kernel, fun n h => by cases h⟩, ⟨by decide +kernel, fun n h => by cases h⟩⟩
theorem witness_RequestsAtTheHome : tget (wReq q0 []).reqs 6 = some q0 ∧ q0.st = .atHome ∧ (wReq q0 []).frameFind 0 (vdTag 0 8192) 8192 = none ∧ ((wReq q0 []).walks.map Prod.fst).Nodup ∧
    (wReq q0 [frame0]).frameFind 0 (vdTag 0 8192) 8192 = some frame0 ∧ (wReq q0 [frame0]).stampMet 0 [] ∧ (wReq q0 [frame0]).stampMet 0 [(16, 1)] = false ∧ (wReq q0 [frame0]).mem.wf := by
  decide +kernel
theorem witness_RequestsAtTheHome_line : readyLine (wReq q0 [frame0]) q0 frame0 ∧ readyLine (wReq { q0 with st := .stamped } [frame0]) { q0 with st := .stamped } frame0 ∧ plain q0 :=
  ⟨by unfold readyLine agree; decide +kernel, by unfold readyLine agree; decide +kernel, by decide, by
    intro o m
    have : o = rd 8192 ∨ o = wr 8316 7 := by simpa [q0, req] using m
    obtain rfl | rfl := this
    · exact ⟨fun _ _ _ h => (by cases h), fun _ h => (by cases h), by decide, by decide⟩
    · exact ⟨fun _ _ _ h => (by cases h), fun _ h => (by cases h), by decide, by decide⟩⟩
/-- The same from slice 1, with the line poisoned. -/
def wPoison : State := { (wReq { q0 with slice := 1 } [frame0]) with poison := [(64, true)] }
theorem witness_RequestsAtTheHome_poison : cget false wPoison.poison (lineAt 0 (slaOf q0 frame0)) = true ∧ q0.fullLine = false ∧ ({ q0 with slice := 1 } : Req).home ≠ 1 ∧
    wPoison.homeDown 0 0 (frame0.pa + q0.gran * 128 % 4096) = false ∧ wPoison.first 6 { q0 with slice := 1 } Req.before := by decide +kernel

/-- The pending load whose two granules are 64 and 65. -/
def memP (ls : List LOp) (d : Dst) : Pend := { slot := 0, mask := 1, op := 0x90, marks := [], wr := [], fl := 0, kind := .mem { dst := d, lanes := ls, acc := { r := true } } }
def wAns (q : Req) (ls : List LOp) (d : Dst) (more : List (Nat × Req)) : State :=
  { (wg fun g => { g with pend := [(2, memP ls d)], nextPend := 3 }) with reqs := (6, q) :: more }
def qr : Req := { req [rd 8192] .done with vals := [(3, 9)] }
def qw : Req := req [wr 8192 9] .done
def qa : Req := { req [{ lane := 3, va := 8192, size := 4, op := .atom (.int .add .n32) 1 }] .done with vals := [(3, 9)] }
theorem witness_AnswersToTheCore : qr.reads ∧ qw.reads = false ∧ qw.atoms = false ∧ qa.atoms ∧ (∀ q ∈ [qr, qw, qa], tget (wAns q q.lanes .none []).reqs 6 = some q ∧ q.st = .done ∧
    (wAns q q.lanes .none []).first 6 q (fun _ => true) ∧ (∀ e ∈ (wAns q q.lanes .none []).reqs, e.1 ≠ 6 → ¬(e.2.b = q.b ∧ e.2.g = q.g ∧ e.2.pend = q.pend)) ∧
    ∀ o ∈ q.lanes, o.va / 128 = q.gran ∧ o ∈ q.lanes) ∧
    (∃ e ∈ (wAns qr [rd 8192, rd 8320] (.vec 1 .b32) [(7, { req [rd 8320] .atHome with gran := 65 })]).reqs, e.1 ≠ 6 ∧ e.2.b = qr.b ∧ e.2.g = qr.g ∧ e.2.pend = qr.pend) := by decide +kernel
theorem witness_AnswersToTheCore_group : GroupAt (wAns qr [rd 8192] (.vec 1 .b32) []) 0 0 (ex (wAns qr [rd 8192] (.vec 1 .b32) [])).g ∧
    tget (ex (wAns qr [rd 8192] (.vec 1 .b32) [])).g.pend 2 = some (memP [rd 8192] (.vec 1 .b32)) ∧ GroupAt (wt fun t => { t with st := .waiting }) 0 0 (ex (wt fun t => { t with st := .waiting })).g ∧
    ((ex (wt fun t => { t with st := .waiting })).g.tillers[0]?).map Tiller.st = some .waiting := ⟨⟨_, rfl, rfl⟩, rfl, ⟨_, rfl, rfl⟩, rfl⟩

def wWalk (f : WalkFor) : State := { wReq { q0 with st := .frame 1 } [] with walks := [(1, { slice := 0, pid := 0, vd := 0, va := 8192, acc := { r := true }, what := f })] }
theorem witness_TranslationAndWalks : (∀ f ∈ [WalkFor.tlb 0 0, .frame 6], isOk ((wWalk f).fullWalk 0 0 0 8192 { r := true }).2 ∧
    (tget ((wWalk f).fullWalk 0 0 0 8192 { r := true }).1.cores (coreKey 0 0)).isSome ∧ (tget ((wWalk f).fullWalk 0 0 0 8192 { r := true }).1.slices 0).isSome) ∧
    inFlight (wWalk (.frame 6)) 1 { slice := 0, pid := 0, vd := 0, va := 8192, acc := { r := true }, what := .frame 6 } := by
  unfold inFlight
  decide +kernel

/-- A message of the request 6 from slice 1 to slice 0, where it stands. -/
def msg (c : MCls) (pos dst : Nat) : Msg := { cls := c, pid := 0, src := 1, dst := dst, pos := pos, req := 6 }
def wMsg (x : Msg) (q : Req) : State := { wReq q [] with msgs := [(4, x)] }
theorem witness_MessagesFetchAndReplay : (msg .rsp 1 0).pos ≠ (msg .rsp 1 0).dst ∧ nextHop 1 0 = 0 ∧ nextHop 2 0 ≠ 0 ∧
    (∀ e ∈ (wMsg (msg .rsp 1 0) q0).msgs, e.1 < 4 → ¬(e.2.cls = .rsp ∧ e.2.src = 1 ∧ e.2.dst = 0 ∧ e.2.pos = 1)) ∧ (msg .rsp 0 0).pos = (msg .rsp 0 0).dst ∧ (msg .req 0 0).cls ≠ .rsp ∧
    (tget (wMsg (msg .rsp 0 0) { q0 with st := .back 4 }).reqs 6).map Req.st = some (.back 4) ∧ ((wMsg (msg .req 0 0) q0).slice 0).inReset = false ∧
    (wMsg (msg .req 0 0) q0).admits 0 0 ∧ ((wMsg (msg .req 3 3) q0).slice 3).inReset ∧ ¬({ wMsg (msg .req 0 0) q0 with fw := [] } : State).admits 0 0 ∧
    (tget { wAns { qr with st := .refused { kind := .firewall } } [rd 8192] .none [] with msgs := [] }.reqs 6).map Req.st = some (.refused { kind := .firewall }) ∧
    (tget w0.cores (coreKey 0 0)).isSome := by decide +kernel
theorem witness_MessagesFetchAndReplay_room (h : 0 < Config.hopPool) :
    ((wMsg (msg .req 2 0) q0).msgs.filter fun e => e.2.pos == nextHop 2 0 && e.2.port == 2 && e.1 != 4 && !e.2.esc).length < Config.hopPool := by
  have : ((wMsg (msg .req 2 0) q0).msgs.filter fun e => e.2.pos == nextHop 2 0 && e.2.port == 2 && e.1 != 4 && !e.2.esc).length = 0 := by decide +kernel
  omega
theorem witness_MessagesFetchAndReplay_flight : ∀ b g p m, (wAns { qr with st := .refused { kind := .firewall } } [rd 8192] .none []).flight 0 0 2 = some (b, g, p, m) → m.lanes ≠ [] := by
  intro b g p m h
  have : ((wAns { qr with st := .refused { kind := .firewall } } [rd 8192] .none []).flight 0 0 2).map (fun x => x.2.2.2.lanes) = some [rd 8192] := by decide +kernel
  rw [h] at this
  simp only [Option.map_some, Option.some.injEq] at this
  rw [this]; decide
theorem witness_MessagesFetchAndReplay_fetch : toFetch wMap 0 0 0 (ex wMap).b (ex wMap).g (ex wMap).t ∧ canonical (ex wMap).t.pc ∧ isOk (wMap.codeBlock 0 0 0 0).2 ∧
    (tget (wMap.codeBlock 0 0 0 0).1.cores (coreKey 0 0)).isSome ∧ isOk ({ wMap with mem := [] }.codeBlock 0 0 0 0).2 = false ∧
    ({ wMap with mem := [] } : State).unreported 0 0 0 { kind := .stage1, cause := 1 } = false ∧ toFetch (mapped' (wt fun t => { t with pc := 2 ^ 57 })) 0 0 0
      (ex (mapped' (wt fun t => { t with pc := 2 ^ 57 }))).b (ex (mapped' (wt fun t => { t with pc := 2 ^ 57 }))).g (ex (mapped' (wt fun t => { t with pc := 2 ^ 57 }))).t ∧
    canonical (2 ^ 57) = false := by
  unfold toFetch
  decide +kernel
def fr1 : FaultRef := { va := 0, f := { kind := .stage1 }, token := 1, resolved := true }
def wPark : State := wg fun g => { g with
  pend := [(2, { memP [rd 8192] (.vec 1 .b32) with kind := .mem { dst := .vec 1 .b32, lanes := [rd 8192], acc := { r := true }, faults := [fr1] } })]
  tillers := listSet g.tillers 0 { (g.til 0) with st := .longWait (.parked 2) } }
theorem witness_MessagesFetchAndReplay_replay : ((ex (wt fun t => { t with st := .longWait (.fetch [fr1]) })).t.st = .longWait (.fetch [fr1]) ∧ (∀ f ∈ [fr1], f.resolved)) ∧
    (ex wPark).b.res = .resident ∧ (ex wPark).b.fail = none ∧ (ex wPark).t.st = .longWait (.parked 2) ∧ (ex wPark).g.pend.length = 1 ∧
    (∀ q ∈ wPark.reqs, ¬(q.2.b = 0 ∧ q.2.g = 0 ∧ q.2.pend = 2)) := by decide +kernel
/-- A second group of the block, ready and not at a position for 1,024 clocks. -/
def wPend : State := { (wb fun b => { b with groups := b.groups ++ [{ (ex w0).g with readySince := some 0 }] }) with now := 2000 }
theorem witness_MessagesFetchAndReplay_exchange : (pendingReady (wPend.quarter 0).act (wPend.quarterGroups 0)).length = 1 ∧ (tget wPend.quarters 0).isSome ∧
    (∃ inn ∈ wPend.quarterGroups 0, ∃ out ∈ wPend.quarterGroups 0, pendingReady (wPend.quarter 0).act (wPend.quarterGroups 0) = [inn] ∧
      (wPend.quarter 0).act.contains (some (out.1, out.2.1)) ∧ (∃ at' ∈ inn.2.2.readySince, 1024 * 1000 ≤ (wPend.now - at') * wPend.mhz 0) ∧
      ∀ x ∈ wPend.quarterGroups 0, (wPend.quarter 0).act.contains (some (x.1, x.2.1)) → x ≠ out → out.2.2.lastIssue < x.2.2.lastIssue) := by decide +kernel

/-! ### Witnesses: copies and the matrix engine -/

/-- The layout of the worked copy: tiles of 64 by 64 bytes, swizzled. -/
def lay1 : Layout := { swz := 1, twl := 3, thl := 3, outer := 0 }
theorem witness_LayoutsAreOneToOne : layFits 128 128 lay1 ∧ lay1.outer.val ≠ 2 ∧ (127 : Nat) < 128 := by decide +kernel
def cpo (h : Hd) (a : Option (BitVec 22)) : CpyOp := { h := h, arv := a, d := 4, a := 5, b := 6 }
def copiesOf (h : Hd) : List Instr :=
  [.cpy (cpo h none) 7 false .g2l .none lay1, .cpy (cpo h (some 8)) 7 true .l2g .none lay1, .cpyWb (cpo h none) .split .none, .cfill (cpo h none) 7 false .b32,
   .cgath (cpo h none) 7 true .none lay1]
def wMaint : State := wb fun b => { b with maint := true }
def cpa (h : Hd) : Instr := .cpya (cpo h none) .g2l .e8 .none
def wCons : State := wg fun g => { g with producer := false }
def k0 : Copy := { b := 0, g := 0, kind := .cfill false .b32, d := 0, a := 7, e := 2 * 2 ^ 16 + 4, c := 4 }
def wFull : State := wg fun g => { g with openSheaf := upto 256 }
def wDesc : State := { w0 with copies := (upto 2048).map fun i => (i, k0) }
theorem witness_CopiesIssueAndSheaves_issue : (copiesOf on).all (issuesAt w0 on true) ∧ (copiesOf off).all (issuesAt w0 off false) ∧ (ex w0).g.producer ∧
    (copiesOf on).all (issuesAt wCons on true) ∧ (ex wCons).g.producer = false ∧ (copiesOf on).all (issuesAt wFull on true) ∧ 256 ≤ (ex wFull).g.openSheaf.length ∧
    (ex w0).g.openSheaf.length < 256 ∧ (ex w0).s.descFree 0 ∧ (copiesOf on).all (issuesAt wDesc on true) ∧ (ex wDesc).s.descFree 0 = false ∧ issuesAt wMaint on true (cpa on) ∧
    (ex wMaint).b.maint = true ∧ issuesAt w0 on true (cpa on) ∧ (ex w0).b.maint = false := by decide +kernel
theorem witness_CopiesIssueAndSheaves_checks : goodGeometry k0 ∧ ¬goodGeometry { k0 with e := 0 } ∧ (∀ x, x < k0.rows * k0.rb → inside (ex w0).b (k0.dstAt x) ∧ ∀ l, k0.srcAt x = some l → inside (ex w0).b l) ∧
    k0.arv = none ∧ ({ k0 with arv := some 1020 } : Copy).arv = some 1020 := by
  refine ⟨⟨by decide +kernel, by decide +kernel, show k0.rb % fillBytes .b32 = 0 ∧ k0.d % fillBytes .b32 = 0 ∧ k0.c % fillBytes .b32 = 0 by decide +kernel⟩,
    fun h => absurd h.1 (by decide +kernel), fun x h => ?_, rfl, rfl⟩
  refine ⟨?_, fun l h => by cases h⟩
  have n : k0.rows * k0.rb = 8 := by decide +kernel
  rw [n] at h
  have : ∀ x < 8, (match k0.dstAt x with | .loc o => decide (o < 1024) | _ => false) = true := by decide +kernel
  have := this x h
  revert this
  cases k0.dstAt x with
  | loc o => exact fun this => of_decide_eq_true (p := o < 1024) this
  | _ => exact fun this => Bool.noConfusion this
def sealsOf (h : Hd) : List Instr := [.seal h (some 3) (some 4), .seal h none none, .cwait h false (.imm 0), .cwait h true (.reg 3), .cwaitImm22 h false 0]
def outSheaf (n : Nat) : SheafSt := { num := n, copies := [6] }
def wSeal (c n : Nat) : State := wg fun g => { g with sealCnt := c, sheafNum := c % 2 ^ 32, sheaves := [outSheaf n] }
theorem witness_CopiesIssueAndSheaves_seal : (sealsOf on).all (issuesAt w0 on true) ∧ (sealsOf off).all (issuesAt w0 off false) ∧ (sealsOf on).all (issuesAt wCons on true) ∧
    issuesAt (wg fun g => g.sset 3 4) on true (.seal on (some 3) none) ∧ (4 : Nat) % 8 ≠ 0 ∧ issuesAt (wg fun g => g.sset 3 1024) on true (.seal on (some 3) none) ∧ (ex w0).b.localSz < 1024 + 8 ∧
    issuesAt (wSeal 64 1) on true (.seal on none none) ∧ (∃ e ∈ (ex (wSeal 64 1)).g.sheaves, e.out ∧ e.num = ((ex (wSeal 64 1)).g.sealCnt + 1 + 2 ^ 64 - 64) % 2 ^ 32) ∧
    (∀ e ∈ (ex (wSeal 64 64)).g.sheaves, e.out → e.num ≠ ((ex (wSeal 64 64)).g.sealCnt + 1 + 2 ^ 64 - 64) % 2 ^ 32) ∧ (ex w0).g.cwaitOk false 0 ∧ (ex (wSeal 64 64)).g.cwaitOk false 0 = false ∧
    (sealsOf on).all (issuesAt (wSeal 64 64) on true) ∧ (ex (wSeal 64 64)).g.sealCnt ≠ 0 ∧ (∀ e ∈ (ex (wSeal 64 64)).g.sheaves, e.num < 2 ^ 32 ∧ e.num = (ex (wSeal 64 64)).g.sheafNum) := by
  decide +kernel
def cstats (h : Hd) : List Instr := [.cstat h (.st 4 3), .cstat h (.addr 4 3), .cstat h (.clr 4)]
theorem witness_CopiesIssueAndSheaves_stat : (cstats on).all (issuesAt wTrc on true) ∧ (cstats off).all (issuesAt wTrc off false) := by decide +kernel

/-- The copy 6 of the open sheaf in a state. -/
def wCopy (k : Copy) : State := { (wg fun g => { g with openSheaf := [6] }) with copies := [(6, k)] }
def kRun : Copy := { k0 with st := .running }
theorem laneFree_nil {s : State} {b g : Nat} (lane after : Nat) (h : ((tget s.blocks b).bind fun x => x.groups[g]?).all fun g => g.pend.isEmpty) : laneFree s b g lane after := by
  intro gr ⟨bl, hb, hg⟩ e he _
  rw [hb, Option.bind_some, hg, Option.all_some, List.isEmpty_iff] at h
  rw [h] at he
  cases he
theorem witness_CopiesRun_start : startable (wCopy k0) 6 k0 (ex (wCopy k0)).b ∧ k0.kind.isRem = false ∧
    startable (wCopy { k0 with kind := .cgath true lay1 }) 6 { k0 with kind := .cgath true lay1 } (ex (wCopy { k0 with kind := .cgath true lay1 })).b :=
  ⟨⟨by decide +kernel, by decide +kernel, rfl, by decide +kernel, laneFree_nil _ _ (by decide +kernel)⟩, rfl,
   ⟨by decide +kernel, by decide +kernel, rfl, by decide +kernel, laneFree_nil _ _ (by decide +kernel)⟩⟩
theorem witness_CopiesRun_moves : movesAll (wCopy kRun) 6 kRun (ex (wCopy kRun)).b (State.moveGo 0 kRun (kRun.total - 0) (wCopy kRun) 0).1 ∧
    (ex (State.moveGo 0 kRun (kRun.total - 0) (wCopy kRun) 0).1).g.openSheaf = [6] ∧ cwf 0 (ex (wCopy kRun)).b.loc := by
  unfold movesAll
  decide +kernel
def wShf : State := { (wg fun g => { g with sheaves := [outSheaf 1] }) with copies := [(6, kRun)] }
theorem witness_CopiesRun_sheaf : movesAll wShf 6 kRun (ex wShf).b (State.moveGo 0 kRun (kRun.total - 0) wShf 0).1 ∧
    (ex (State.moveGo 0 kRun (kRun.total - 0) wShf 0).1).g.sheaves = [outSheaf 1] ∧ (outSheaf 1).out ∧ (outSheaf 1).copies = [6] ∧ (outSheaf 1).arv = none ∧ (ex wShf).g.openSheaf = [] := by
  unfold movesAll
  decide +kernel
def kL : Copy := { kRun with kind := .cpy false .g2l { swz := 0, twl := 0, thl := 0, outer := 2 } }
def kLL : Copy := { kL with kind := .cpy false .l2l { swz := 0, twl := 0, thl := 0, outer := 2 }, d := 16 }
theorem witness_CopiesRun_byte : kLL.kind.isRem = false ∧ kLL.unit = 1 ∧ kLL.srcAt 1 = some (.loc 8) ∧ kLL.dstAt 1 = .loc 17 ∧ (tget (wCopy kLL).blocks 0).isSome := by decide +kernel
/-- A read of an unmapped page stops a copy; after the answer it goes on. -/
theorem witness_CopiesRun_stops : (match (State.moveGo 0 kL (kL.total - 0) (wCopy kL) 0).2.2 with | some (.fault f _ _ _) => !(wCopy kL).unreported 0 0 1 f | _ => false) = true ∧
    (tget { wCopy kL with copies := [(6, { kL with st := .stopped, fault := some fr1 })] }.copies 6).map Copy.fault = some (some fr1) ∧ fr1.resolved ∧ w0.descFree 0 ∧
    ((ex (wt fun t => { t with st := .longWait .sealWin })).g.tillers[0]?).map Tiller.st = some (.longWait .sealWin) := by decide +kernel

/-- A group of the matrix role in a block with three live tiles. -/
def wMat (f : Block → Block) : State := (wTrc.modBlock 0 fun b => f { b with live := 3, localSz := 65536, groups := b.groups.map fun g => { g with role := 2 } })
def wm : State := wMat id
def mmaOp (h : Hd) : MmaOp := { h := h, fa := .i8, fb := .i8, zacc := true, spb := false, d := 1, a := 3, b := 4, stream := 2, asc := none, bsc := none }
def mats (h : Hd) : List Instr :=
  [.mma (mmaOp h), .aalloc h (.imm 2), .aalloc h (.imm 4), .aalloc h (.imm 5), .afree h (.imm 1), .afree h (.imm 4), .azero h 2, .acpy h 0 1, .ardv h .f32 .dflt false 1 0 3 2,
   .ardv h .f16 .rs false 1 0 3 2, .awrv h .bf16 0 3 1 2, .aldl h true 0 3 4 0, .astl h false 0 3 4 0, .mcfg h (.named lay1 .ieee .finite), .mcfg h (.fmt lay1), .wbrel h (.all 0) 3,
   .mwait h (.one 2) (.imm 0), .mstat h 5]
theorem witness_MatrixInstructions : (mats on).all (issuesAt wm on true) ∧ (mats off).all (issuesAt wm off false) ∧ (ex wm).b.isTile ∧ (ex wm).g.role = 2 ∧ (2 : Nat) < (ex wm).b.live ∧
    (mats on).all (issuesAt (wMat fun b => { b with isTile := false }) on true) ∧ (ex (wMat fun b => { b with isTile := false })).b.isTile = false ∧ (mats on).all (issuesAt w0 on true) ∧
    (ex w0).g.role ≠ 2 ∧ (ex w0).b.isTile ∧ (ex w0).b.live ≤ 1 ∧ (ex wm).b.accMax = 4 := by decide +kernel
theorem witness_MatrixInstructions_trace : notRecording (ex wm) := ⟨{}, rfl, rfl, rfl⟩
def kk (n : Nat) (s : State) : State := s.modGroup 0 0 fun g => { (g.sset 3 (BitVec.ofNat 64 (n % 2 ^ 64))).sset 4 (BitVec.ofNat 64 (64 * 2 ^ 32)) with role := g.role }
def mo : MOp := asked (ex (kk 0 wm)) (mmaOp on)
theorem witness_MatrixInstructions_mma : (asked (ex (kk (64 * 2 ^ 32) (wMat fun b => { b with wbSz := 65536 }))) (mmaOp on)).check (ex (wMat fun b => { b with wbSz := 65536 })).b = none ∧
    (asked (ex wm) (mmaOp on)).check (ex wm).b = some 1 ∧ 32 ≤ (ex (wMat fun b => { b with mops := (upto 32).map fun i => (i, mo) })).b.mops.length ∧
    issuesAt (wMat fun b => { b with mops := (upto 32).map fun i => (i, mo) }) on true (.mma (mmaOp on)) := by decide +kernel
theorem witness_MatrixInstructions_patches : row0 (ex (kk (97 + 255 * 2 ^ 16) wm)) 3 = 97 ∧ col0 (ex (kk (97 + 255 * 2 ^ 16) wm)) 3 = 255 ∧ row0 (ex wm) 3 ≤ 96 ∧ col0 (ex wm) 3 + 2 ≤ 256 ∧
    localAt (ex (kk 2 wm)) 3 0 % 4 ≠ 0 ∧ (ex wm).b.localSz < localAt (ex (kk 65536 wm)) 3 0 + 512 * 1 ∧ rowCnt (ex wm) 4 = 0 ∧ cwf 0 (listGet [] (ex wm).b.acc 0) ∧ cwf 0 (ex wm).b.loc := by
  decide +kernel
theorem witness_MatrixInstructions_rows : rowsFit (ex (wm.modGroup 0 0 fun g => g.sset 4 0x0301)) 3 4 0 ∧ issuesAt (wm.modGroup 0 0 fun g => g.sset 4 0x0301) on true (.aldl on true 0 3 4 0) := by
  unfold rowsFit
  decide +kernel
theorem witness_MatrixInstructions_tiles : Claims.inTurn (ex wm) [0] none ∧ Claims.inTurn (ex wm) [0, 1] (some 0) ∧
    ¬Claims.inTurn (ex { (wMat fun b => { b with mops := [(6, { mo with tile := 0 })] }) with nextId := 7 }) [0] none :=
  ⟨⟨by decide +kernel, by decide +kernel, fun _ h => (by cases h)⟩,
   ⟨by decide +kernel, by decide +kernel, fun d h => by cases h; decide +kernel⟩,
   fun h => absurd h.1 (by decide +kernel)⟩
theorem witness_MatrixOperands : takes mo.fa ∧ takes mo.fb ∧ mo.fa = none ∧ mo.spb = false ∧ mo.k = 64 ∧ (0x29 : Nat) % 16 % 4 < 0x29 % 16 / 4 := by
  unfold takes
  decide +kernel
/-- Two INT8 operations of 64 products, the second behind the first. -/
def wOp (st : MSt) (rels : List WbRel) : State := wMat fun b => { b with mops := [(6, { mo with st := st }), (7, mo)], rels := rels }
theorem witness_MatrixOperationsRun : opAt (wOp .queued []) 0 6 (ex (wOp .queued [])).b { mo with st := .queued } ∧ (∀ e ∈ (wOp .queued []).tileOps 0 0, e.2.2.st ≠ .running) ∧
    mo.metaBad [] = false ∧ opAt (wOp .running []) 0 6 (ex (wOp .running [])).b { mo with st := .running } ∧ (ex (wOp .running [{ ops := [6], obj := 8 }])).b.rels = [{ ops := [6], obj := 8 }] ∧
    opAt (wOp .draining []) 0 6 (ex (wOp .draining [])).b { mo with st := .draining } ∧ (∀ e ∈ (ex (wOp .draining [])).b.mops, e.1 < 6 → e.2.stream ≠ mo.stream) := by
  unfold opAt
  decide +kernel
theorem witness_MatrixOperationsRun_begins : mayBegin (ex (wOp .queued [])).b 6 { mo with st := .queued } ∧ ¬mayBegin (ex (wOp .queued [])).b 7 mo := by
  unfold mayBegin
  decide +kernel
theorem witness_MatrixOperationsRun_waits : opAt (wOp .draining []) 0 7 (ex (wOp .draining [])).b mo ∧ mo.st ≠ .draining ∧ (ex (wOp .draining [])).b.mops.length < 32 ∧ (ex wm).b.fail = none := by
  unfold opAt
  decide +kernel
theorem witness_MatrixOperationsRun_order : ∀ e ∈ (wOp .queued []).tileOps 0 0, e.2.1 < 6 → ∀ y, tget (wOp .queued []).blocks e.1 = some y → ¬mayBegin y e.2.1 e.2.2 := by
  intro e m h
  exact absurd h ((show ∀ e ∈ (wOp .queued []).tileOps 0 0, ¬e.2.1 < 6 by decide +kernel) e m)
/-- A 2:4 operand whose first metadata byte is 0 names the code 0 twice. -/
theorem witness_MatrixOperationsRun_metadata : ({ mo with spb := true } : MOp).metaBad [] = true := by decide +kernel
theorem witness_MatrixOperationsRun_aalloc : GroupAt (wg fun g => { g with pend := [(4, waitOn (.aalloc 2))] }) 0 0 (ex (wg fun g => { g with pend := [(4, waitOn (.aalloc 2))] })).g ∧ (waitOn (.aalloc 2)).wr = [] :=
  ⟨⟨_, rfl, rfl⟩, rfl⟩

/-! ### Witnesses: the shaping engine -/

def qo (h : Hd) : QstOp := { h := h, rd := 1, aint := false, sat := false, rnd := .rne, ty := .f32, d := 0, a := 3, b := 4, c := 2, col0 := 0, ncol1 := 31, alpha := 0x3F800000 }
def vo (h : Hd) : VqstOp := { h := h, rd := 1, sint := true, sat := false, rnd := .rne, ty := .f32, d := 2, a := 3, b := 7, c := 4, row := 127 }
def shapes (h : Hd) : List Instr :=
  [.qst (qo h), .vqst (vo h), .qresLd h 2 3 0, .qresSt h 2 3 0, .qzero h 2, .qcfg h 1 true 2 3 4, .qwait h (.one 2) (.imm 0), .qrd h .e1 7 2 3]
/-- A tensor entry at 0x4000: FP32, AXIS 0 of 32 elements, at 0x8000; mapped one to one. -/
def entryBytes (attr : Nat) : Nat := 0x8000 + 32 * 2 ^ 64 + 2 ^ 96 + 2 ^ 128 + 2 ^ 160 + attr * 2 ^ 448
def wSh (f : Block → Block) : State := let s := mapped' (wMat f); { s with mem := writeLE s.mem 0x4000 64 (entryBytes 0) }
def at4000 (s : State) : State := s.modGroup 0 0 fun g => g.sset 3 0x4000
def shOp (k : ShKind) : ShOp := { g := 0, kind := k, set := 2 }
theorem witness_ShapingInstructions : (shapes on).all (issuesAt wm on true) ∧ (shapes off).all (issuesAt wm off false) ∧ (shapes on).all (issuesAt (wMat fun b => { b with isTile := false }) on true) ∧
    (0 : Nat) < (ex wm).b.live ∧ issuesAt w0 on true (.qst (qo on)) ∧ (ex w0).b.live ≤ 0 ∧ (shapes on).all (issuesAt (wMat fun b => { b with sops := (upto 16).map fun i => (i, shOp .zero) }) on true) ∧
    16 ≤ (ex (wMat fun b => { b with sops := (upto 16).map fun i => (i, shOp .zero) })).b.sops.length ∧ (ex wm).b.sops.length < 16 := by decide +kernel
theorem witness_ShapingInstructions_entry : isOk ((at4000 (wSh id)).engRead 0 0 0 0x4000 64).2 ∧ (0x4000 : Nat) % 64 = 0 ∧ canonical 0x4000 ∧ (32 : Nat) % 64 ≠ 0 ∧ canonical (2 ^ 63) = false ∧
    isOk (wm.engRead 0 0 1 0x4000 64).2 = false ∧ wm.unreported 0 0 1 { kind := .stage1, cause := 1 } = false ∧ issuesAt (at4000 (wSh id)) on true (.qst (qo on)) ∧
    tentOf (toBytes 64 (entryBytes 0)) = { base := 0x8000, dims := [32, 1, 1, 1], strides := [0, 0, 0], soff := 0, attr := 0 } := by decide +kernel
theorem witness_ShapingInstructions_good : entryOk (tentOf (toBytes 64 (entryBytes 0))) .f32 0x13 1 := by
  simp only [entryOk]
  decide +kernel
/-- RD equal to AXIS. -/
theorem witness_ShapingInstructions_bad : ¬entryOk (tentOf (toBytes 64 (entryBytes 0))) .f32 0x13 0 := by
  simp only [entryOk]
  decide +kernel

def stIn (attr a0 : Nat) : ShStore :=
  { ent := tentOf (toBytes 64 (entryBytes attr)), at' := 0x4000, rd := 1, a0 := a0, r0 := 0, rnd := .rne, sat := false, src := .lanes 127 1 true (List.replicate 32 7) }
def wSop (k : ShKind) (o : ShOp → ShOp) : State := wSh fun b => { b with sops := [(6, o (shOp k))] }
theorem witness_ShapingOperations : ∀ k ∈ [ShKind.zero, .cfg 0x4000 0 7 1 1, .read .e1 127 1 7, .resLd 0x8000, .resSt 0x8000, .store (stIn 0 0), .store (stIn 2048 5)],
    convertible (wSop k id) 0 6 (ex (wSop k id)).b (shOp k) := by
  have all : ∀ k ∈ [ShKind.zero, .cfg 0x4000 0 7 1 1, .read .e1 127 1 7, .resLd 0x8000, .resSt 0x8000, .store (stIn 0 0), .store (stIn 2048 5)],
      (tget (wSop k id).blocks 0 = some (ex (wSop k id)).b ∧ (ex (wSop k id)).b.res = .resident ∧ tget (ex (wSop k id)).b.sops 6 = some (shOp k)) ∧
      ((∀ e ∈ (ex (wSop k id)).b.sops, e.1 = 6) ∧ (ex (wSop k id)).b.mops = [] ∧ (ex (wSop k id)).b.tops = [] ∧ (wSop k id).reqs = []) ∧
      ((tget (wSop k id).blocks 0).bind fun x => x.groups[0]?).all (fun g => g.pend.isEmpty) = true := by decide +kernel
  intro k m
  obtain ⟨⟨h1, h2, h3⟩, ⟨h4, h5, h6, h7⟩, h8⟩ := all k m
  refine ⟨h1, h2, h3, rfl, fun f h => (by cases h), fun e he lt => ?_, fun e he => ?_, fun e he => ?_, laneFree_nil _ _ h8⟩
  · exact absurd (h4 e he) (by omega)
  · rw [h5] at he; cases he
  · rw [h6] at he; cases he
theorem witness_ShapingOperations_state : (ex (wSh id)).b.groups.length = 1 ∧ (2 : Nat) < (ex (wSh id)).b.qsets.length ∧ cwf {} (listGet {} (ex (wSh id)).b.qsets 2).rows ∧ (ex (wSh id)).b.fail = none ∧
    attrOf (stIn 0 0).ent 7 7 = 0 ∧ ((stIn 0 0).check ((stIn 0 0).lines (ex (wSh id)).b) {}).isSome ∧ (stIn 2048 5).check ((stIn 2048 5).lines (ex (wSh id)).b) {} = none ∧
    attrOf (stIn 2048 5).ent 12 11 ≠ 0 ∧ (stIn 2048 5).ent.resets 5 = false := by decide +kernel
def outs : List ShByte := [{ va := 0x8000, mask := 255, val := 9 }]
theorem witness_ShapingOperations_write : (match State.shWrite 0 (ex (wSop .zero fun o => { o with out := some outs })).b outs (wSop .zero fun o => { o with out := some outs }) with
      | (u, l, e) => l.isEmpty && e.isNone && decide (tget u.blocks 0 = some (ex (wSop .zero fun o => { o with out := some outs })).b)) = true ∧
    (match State.shWrite 0 (ex wm).b outs wm with
      | (u, l, some (.fault f _ _)) => decide (l = outs) && !u.unreported 0 0 1 f && decide (tget u.blocks 0 = some (ex wm).b)
      | _ => false) = true := by decide +kernel
theorem witness_ShapingOperations_image : ({ entry := 0x4000, roworg := 0, valid := true, order := 2, rd := 3, rows := [(127, { next := 1 })] } : ResSet).entry < 2 ^ 64 ∧
    cwf ({} : ResRow) [(127, { next := 1 })] ∧ (∀ e ∈ ([(127, { next := 1 })] : Cells ResRow), e.1 < 128) := by decide +kernel

/-! ### Witnesses: the launch engine, marks -/

/-- A header at 0x6000 for a ring of 16 packets at 0x7000. -/
def hdrAt (tail head done : Nat) : Nat := 0x7000 + 4 * 2 ^ 64 + tail * 2 ^ 128 + head * 2 ^ 192 + done * 2 ^ 256
/-- A kernel of one group of 32 vector and 16 scalar registers, and a packet that launches three blocks of it, for 0x5000 and 0x7000. -/
def kdN : Nat := 2 ^ 104 + 0x100 * 2 ^ 128 + 2 ^ 192 + 2 ^ 200 + 2 ^ 208 + 2 ^ 216
def pktN : Nat := 0x5000 + 3 * 2 ^ 64 + 2 ^ 96
def qDev : Queue := { pid := 0, vd := 0, hdr := 0x6000, dev := true }
def withMem (l : List (Nat × Nat × Nat)) (s : State) : State := { s with mem := l.foldl (fun m e => writeLE m e.1 e.2.1 e.2.2) s.mem }
def wQ (h : Nat) (q : Queue) (e : TrcEnt) : State :=
  withMem [(0x6000, 64, h), (0x5000, 128, kdN), (0x7000, 128, pktN)] { (wMap.modSlice 0 fun k => { k with trc := [(0, e)] }) with queues := [(9, q)] }
def ok3 (s : State) : Bool := isOk (s.readHdr 0 qDev).2
def s39 (v : Nat) (s : State) : State := s.modGroup 0 0 fun g => g.sset 3 (BitVec.ofNat 64 v)
def wDev (h : Nat) : State := (s39 9 (wQ h qDev {})).modGroup 0 0 fun g => g.sset 4 0x7000
/-- Launch from the packet that scalar 4 names, on the queue that scalar 3 names. -/
def laun (h : Hd) : Instr := .launch h 5 4 3 0
theorem witness_LaunchAndTraceInstructions_launch : issuesAt (wDev 0) on true (laun on) ∧ issuesAt (wDev 0) off false (laun off) ∧ devQueue (ex (wDev 0)) 3 qDev ∧
    baseAt (ex (wDev 0)) 4 0 = 0x7000 ∧ (0x7000 : Nat) % 128 = 0 ∧ canonical 0x7000 ∧ (ex (wDev 0)).g.pend = [] ∧ (ex (wDev 0)).s.rops = [] ∧
    (∀ h ∈ [0, hdrAt 16 0 0, hdrAt 15 0 0], ok3 (wDev h)) := by
  unfold devQueue
  decide +kernel
def hdrIs (s : State) (p : Option QHdr → Bool) : Bool := match (s.readHdr 0 qDev).2 with
  | .ok q => p q
  | .error _ => false
theorem witness_LaunchAndTraceInstructions_header : hdrIs (wDev 0) (fun q => q == none) ∧ hdrIs (wDev (hdrAt 16 0 0)) (fun q => q.any fun q => decide (q.done + 2 ^ q.lg ≤ q.tail)) ∧
    hdrIs (wDev (hdrAt 15 0 0)) (fun q => q.any fun q => decide (q.tail < q.done + 2 ^ q.lg)) ∧ isOk (((wDev (hdrAt 15 0 0)).readHdr 0 qDev).1.engRead 0 0 0 0x7000 128).2 ∧
    (tget (((wDev (hdrAt 15 0 0)).readHdr 0 qDev).1.engRead 0 0 0 0x7000 128).1.queues (queueKey 0 9)) = some qDev := by decide +kernel
/-- The trace entry stays through the reads, and neither records nor replays. -/
theorem witness_LaunchAndTraceInstructions_quiet : notRecording (ex (wDev 0)) ∧ notRecording { ex (wDev (hdrAt 15 0 0)) with s := (((wDev (hdrAt 15 0 0)).readHdr 0 qDev).1.engRead 0 0 0 0x7000 128).1 } ∧
    ¬devQueue (ex wTrc) 3 qDev := by
  refine ⟨⟨{}, by decide +kernel⟩, ⟨{}, by decide +kernel⟩, ?_⟩
  unfold devQueue
  decide +kernel
theorem witness_LaunchAndTraceInstructions_cancel : (tget (ex (s39 9 wMap)).s.parts 0).isSome ∧ issuesAt (s39 9 wMap) on true (.cancel on .launch false 3) ∧ issuesAt (s39 65535 wMap) on true (.cancel on .job true 3) ∧
    issuesAt (s39 65536 wMap) on true (.cancel on .graph false 3) ∧ issuesAt wMap on true (.cancel on .phase false 3) ∧ issuesAt wMap off false (.cancel off .phase false 3) ∧
    (ex wMap).g.sget 3 = 0 := by decide +kernel
/-- Scalar 3 names the DONE counter of queue 9. -/
def wCtr (v : Nat) : State := s39 v (wQ (hdrAt 3 2 1) qDev {})
theorem witness_LaunchAndTraceInstructions_counter : counterAt (ex (wCtr 0x10009)) 0x10009 0x6020 ∧ (∀ va, ¬counterAt (ex (wCtr 0)) 0 va) ∧
    counterAt (ex (wCtr 0x2FFFF)) 0x2FFFF ((cget 0 ((tget (wCtr 0).parts 0).getD {}).ctrBase 0 + 8 * 65535) % 2 ^ 64) := by
  refine ⟨⟨by decide, Or.inl ⟨by decide, qDev, by decide +kernel, by decide +kernel, by decide⟩⟩, fun va h => ?_, ⟨by decide, Or.inr ⟨by decide, by decide, fun p h => ?_⟩⟩⟩
  · rcases h.2 with h | h
    · exact absurd h.1 (by decide)
    · exact absurd h.1 (by decide)
  · have : (tget (wCtr 0).parts 0).map Part.ctrBase = (tget (ex (wCtr 0x2FFFF)).s.parts (ex (wCtr 0x2FFFF)).b.pid).map Part.ctrBase := by decide +kernel
    rw [h] at this
    have k : ((tget (wCtr 0).parts 0).getD {}).ctrBase = p.ctrBase := by
      cases hp : tget (wCtr 0).parts 0 with
      | none => rw [hp] at this; cases this
      | some r => rw [hp] at this; exact Option.some.inj this
    rw [k]; rfl
def ctrs (h : Hd) : List Instr := [.ctrrd h 5 3, .ctrwait h 3 (.imm 1), .ctrwait h 3 (.imm 2), .ctrwait h 3 (.reg 3)]
theorem witness_LaunchAndTraceInstructions_counters : (ctrs on).all (issuesAt (wCtr 0x10009) on true) ∧ (ctrs off).all (issuesAt (wCtr 0x10009) off false) ∧ (ctrs on).all (issuesAt (wCtr 0) on true) ∧
    (match ((wCtr 0x10009).vaRead 0 0 0 0x6020 8).2 with
      | .ok b => decide (ofBytes b = 1) && decide (b.length = 8)
      | .error _ => false) = true ∧ ((1 : Int) - 1) % 2 ^ 64 < 2 ^ 63 ∧ 2 ^ 63 ≤ ((1 : Int) - 2) % 2 ^ 64 := by decide +kernel
/-- A flashback record of 128 zero bytes at 128 × 512 bytes on. -/
theorem witness_LaunchAndTraceInstructions_point : issuesAt wMap on true (.fbpt 0 0x1000) ∧ issuesAt wMark on true (.fbpt 0 0) ∧ (∃ e ∈ (ex wMark).g.pend, e.2.op < 0xB0) ∧
    (∀ e ∈ (ex wMap).g.pend, 0xB0 ≤ e.2.op) ∧ relTarget 0x1000 (ex wMap) = 0x4000 ∧ relTarget 1 (ex wMap) % 128 ≠ 0 ∧ ((ex wMap).g.tillers.filter fun t => t.st.live).length ≤ 1 ∧
    (ex wMap).g.rcds = [] ∧ (ex wMap).g.wide = none ∧ isOk (wMap.reach 0 0 0 0x4000 { x := true }).2 := by decide +kernel
theorem witness_LaunchAndTraceInstructions_record : recordOk (ex wMap).g (List.replicate 128 0) ∧ ¬recordOk (ex wMap).g (List.replicate 8 0 ++ 33 :: List.replicate 119 0) := by
  have z (k : Nat) : (List.replicate 128 (0 : Byte)).getD k 0 = 0 := by
    rw [List.getD_eq_getElem?_getD, List.getElem?_replicate]
    split <;> rfl
  refine ⟨?_, fun h => absurd h.2.1 (by decide)⟩
  simp only [recordOk, z]
  refine ⟨fun _ _ => trivial, by decide, fun k h => absurd h (by simp), fun _ _ _ => rfl, fun j k _ h => absurd h (by simp), fun k _ _ => by simp⟩
def wTmark (r : Nat) (m : Bool) (tail : Nat) : State := withMem [(0x6000, 64, 4 + tail * 2 ^ 128)] (wMap.modSlice 0 fun k => { k with trc := [(0, { ring := r, marken := m })] })
theorem witness_LaunchAndTraceInstructions_mark : (∀ s ∈ [wTmark 0x6000 true 15, wTmark 0x6000 true 16, wTmark 0 true 0, wTmark 0x6000 false 0], issuesAt s on true (.tmark on 3 0x155)) ∧
    isOk ((wTmark 0x6000 true 15).vaRead 0 0 0 0x6000 64).2 ∧ isOk ((wTmark 0x6000 true 16).vaRead 0 0 0 0x6000 64).2 ∧
    (((wTmark 0x6000 true 15).vaRead 0 0 0 0x6000 64).1.vaWrite 0 0 0 (0x6000 + 64 + 16 * 15) (List.replicate 16 0)).2 = none := by decide +kernel
theorem witness_LaunchAndTraceInstructions_entry : traceEnt (ex (wTmark 0x6000 true 15)) { ring := 0x6000, marken := true } := by
  unfold traceEnt
  decide +kernel
def wPmc (sel : List Nat) (e : TrcEnt) : State := w0.modSlice 0 fun k => { k with trc := [(1, e)], csets := [(2, { vd := some 1, sel := sel, ctr := upto 8 })] }
def events8 : List Nat := [1, 2, 3, 4, 5, 6, 7, 8]
theorem witness_LaunchAndTraceInstructions_pmc : (∀ n ∈ [Src10.imm 7, .imm 8, .reg 3], issuesAt (wPmc events8 {}) on true (.pmcrd on .hi 5 n)) ∧ ((wPmc events8 {}).slice 0).csets.length = 1 ∧
    (∀ m, m < 8 → ({ vd := some 1, sel := events8 } : CtrSet).clocks m = false) ∧ (∀ e ∈ (wTrc.slice 0).csets, e.2.vd ≠ some 1) := by decide +kernel
def tctls : List Instr := [.tctl on .son, .tctl on .soff, .tctl on .cfrz, .tctl on .crun, .tctl on .stop]
theorem witness_LaunchAndTraceInstructions_ctl : tctls.all (issuesAt wTrc on true) ∧ tctls.all (issuesAt (wPmc events8 { uctl := true }) on true) ∧ tctls.all (issuesAt (wPmc events8 { uctl := true, brken := true }) on true) ∧
    ((tget (wPmc events8 { uctl := true }).parts 0).map fun p => decide p.slices.Nodup) = some true ∧ (∀ k ∈ [0], (tget ((wPmc events8 { uctl := true }).slice k).trc 1).isSome) ∧
    (tget (ex (wPmc events8 {})).s.quarters (quarterKey (ex (wPmc events8 {})).b (ex (wPmc events8 {})).g)).map Quarter.stop = some none := by decide +kernel

def slot1 (q : Queue) (st : QState) : Queue := { q with st := st, slot := some 0 }
def wQs (st : QState) (h : Nat) (hd : Option Head) : State :=
  { (wQ h (slot1 qDev st) {}).modSlice 0 (fun k => { k with heads := match hd with | some h => [(9, h)] | none => [] }) with agenda := [] }
theorem witness_LaunchEngineEvents_queues : (tget (wQ 0 qDev {}).queues (queueKey 0 9)).map Queue.st = some .unmapped ∧ (∀ q ∈ tget (wQs .pending 0 none).queues (queueKey 0 9), q.st = .pending) ∧
    (tget (wQs .mapped 0 none).queues (queueKey 0 9)).map Queue.st = some .mapped ∧ ((wQs .pending 0 none).queues.map Prod.fst).Nodup ∧
    (∀ e ∈ { wQs .pending 0 none with queues := [(9, { qDev with st := .pending })] }.queues, e.2.pid = 0 → e.2.slot ≠ some 0) ∧
    (∀ e ∈ (wQs .pending 0 none).queues, e.2.pid = 0 → e.2.st = .pending → e.1 ≠ 9 → (slot1 qDev .pending).pendAt < e.2.pendAt) := by decide +kernel
def wReclaim (h n : Nat) : State := { wQs .mapped h none with queues := [(9, slot1 qDev .mapped), (10, { qDev with st := .pending })], now := n }
theorem witness_LaunchEngineEvents_reclaim : (∀ x ∈ [(hdrAt 1 1 1, 5), (hdrAt 2 1 1, 200000), (hdrAt 2 1 1, 199999)], hdrIs (wReclaim x.1 x.2) Option.isSome ∧
    ((wReclaim x.1 x.2).readHdr (State.leader (wReclaim x.1 x.2) 0) (slot1 qDev .mapped)).1.queues = (wReclaim x.1 x.2).queues) ∧
    (∀ k ∈ (wReclaim 0 0).sliceList 0, ((wReclaim 0 0).headOf k (queueKey 0 9)).n = ((wReclaim 0 0).headOf ((wReclaim 0 0).leader 0) (queueKey 0 9)).n) ∧
    (∃ e ∈ (wReclaim 0 0).queues, e.2.pid = 0 ∧ e.2.st = .pending) ∧ (wReclaim 0 0).launches = [] := by decide +kernel
def pkt : List Byte := toBytes 128 pktN
theorem witness_LaunchEngineEvents_heads : serves (wQs .mapped (hdrAt 1 0 0) (some {n := 0})) 0 9 (slot1 qDev .mapped) ∧
    tget ((wQs .mapped (hdrAt 1 0 0) (some { n := 0 })).slice 0).heads 9 = some { n := 0 } ∧ (∀ p ∈ tget (wQs .mapped 0 none).parts 0, p.quiet = false) ∧
    hdrIs (wQs .mapped (hdrAt 1 0 0) none) (fun q => q.any fun q => decide (0 < q.tail)) ∧ hdrIs (wQs .mapped (hdrAt 0 0 0) none) (fun q => q.any fun q => decide (q.tail ≤ 0)) ∧
    hdrIs (wQs .mapped 0 none) (fun q => q == none) ∧ isOk (((wQs .mapped (hdrAt 1 0 0) none).readHdr 0 qDev).1.vaRead 0 0 0 0x7000 128).2 ∧ pkAfter pkt / 2 ^ 48 % 8 = 0 := by
  unfold serves
  decide +kernel
theorem witness_LaunchEngineEvents_present : headAt (wQs .mapped (hdrAt 1 0 0) (some { n := 0, pkt := some pkt, met := true })) 0 9 { n := 0, pkt := some pkt, met := true } ∧
    headAt (wQs .mapped (hdrAt 1 0 0) (some { n := 0, pkt := some pkt })) 0 9 { n := 0, pkt := some pkt } := ⟨⟨by decide +kernel, rfl, fun f h => by cases h⟩, ⟨by decide +kernel, rfl, fun f h => by cases h⟩⟩
/-- AFTER names queue 9's own DONE counter. -/
theorem witness_LaunchEngineEvents_after : afterAt (wQs .mapped 0 none) (slot1 qDev .mapped) (toBytes 128 (pktN + (2 ^ 48 + 1) * 2 ^ 256)) 0x6020 :=
  Or.inl ⟨by decide +kernel, by decide +kernel⟩
def leads (s : State) (p : List Byte) (g : List Byte → Option Nat → Nat → Bool) : Bool := match s.leadReads 0 qDev p with
  | (u, .ok (kd, c, k)) => g kd c k && decide (u.launches = s.launches) && decide (u.queues = s.queues) && (tget u.slices 0).isSome
  | _ => false
theorem witness_LaunchEngineEvents_leaves : leads (wQs .mapped (hdrAt 1 0 0) (some { n := 0, pkt := some pkt, met := true })) pkt (fun kd c k => (rejectCause qDev pkt (some kd) c k false).isNone) ∧
    leads (wQs .mapped (hdrAt 1 0 0) (some { n := 0 })) (toBytes 128 (pktN - 2 ^ 96)) (fun kd c k => rejectCause qDev (toBytes 128 (pktN - 2 ^ 96)) (some kd) c k false == some 4) ∧
    (wQs .mapped 0 none).leader 0 = 0 ∧ pkId pkt 1 = 0 ∧ pkId pkt 2 = 0 ∧ pkId pkt 3 = 0 ∧ qDev.done = 0 ∧ qDev.comp = [] ∧ pkt ≠ [] := by decide +kernel

/-! ### Witnesses: launches -/

/-- A launch of three blocks of `kdN` in the one-slice partition of `wMap`, which left the head of queue 9. -/
def l0 : Launch := { pid := 0, vd := 0, queue := 9, n := 0, lid := 9 * 2 ^ 48, pkt := pkt, pktVa := 0x7000, kd := toBytes 128 kdN, blocks := 3, list := [0], maint := false, leftAt := 0, left := [(0, 1)] }
def wL (l : Launch) : State := { wMap with launches := [(5, l)] }
theorem witness_LaunchEngineEvents_follower : serves (wQs .mapped 0 (some { n := 0, pkt := some pkt, met := true })) 0 9 (slot1 qDev .mapped) ∧
    pkId pkt 1 = 0 ∧ rejectCause qDev pkt none none 5 false = some 5 ∧ tget (wL l0).launches 5 = some l0 := by
  unfold serves
  decide +kernel
/-- A packet with an indirect count at 0x7F00. -/
def pktC : List Byte := toBytes 128 (0x5000 + 2 ^ 96 + 0x7F00 * 2 ^ 192)
theorem witness_LaunchEngineEvents_notice : pkCount pktC ≠ 0 ∧ 0 ∉ l0.noticed ∧ (∃ e ∈ l0.left, e.1 = 0) := by decide +kernel
theorem witness_LaunchEngineEvents_place : (wL l0).nextPlace 0 = some ({ lk := 5, l := l0, idx := 0, saved := none }, 0, 0) ∧ tget (wL l0).blocks (wL l0).nextId = none := by decide +kernel
def wSaved : State := { wL { l0 with next := [(0, 3)] } with blocks := [(1, { lk := 5, res := .saved, groups := [{}] })] }
theorem witness_LaunchEngineEvents_placeSaved : wSaved.nextPlace 0 = some ({ lk := 5, l := { l0 with next := [(0, 3)] }, idx := 0, saved := some 1 }, 0, 0) := by decide +kernel
theorem witness_LaunchEngineEvents_end : (wL l0).blockOver 1 { lk := 5, res := .resident, groups := [] } ∧ (wL l0).blockOver 1 { lk := 5, res := .saved, cancelled := true } ∧
    (wL l0).blockOver 1 { lk := 5, res := .resident, groups := [], fail := some { kind := 5, detail := 7 } } ∧ l0.ownNext 0 = some 0 ∧ l0.list.Nodup ∧ 0 < pkGrain l0.pkt := by decide +kernel
theorem witness_LaunchEngineEvents_done : 0 ∈ { l0 with sent := [0] }.sent ∧ (∀ k ∈ (wL l0).sliceList l0.pid, k = 0 ∨ k ∈ l0.held) ∧ (∃ k ∈ (wL l0).sliceList 0, k ≠ 1 ∧ k ∉ l0.held ∧ k ∈ l0.list) ∧
    0 ∉ { l0 with ordering := true }.acks ∧ 0 ∈ (wL l0).sliceList 0 ∧ (∀ k ∈ (wL l0).sliceList 0, k ∈ { l0 with acks := [0] }.acks) ∧ (wL l0).leader 0 = 0 ∧ tget (wL l0).queues (queueKey 0 9) = none ∧
    (∃ k ∈ (wL l0).sliceList 0, k ∉ l0.acks) := by decide +kernel
def ord0 : OrdEnt := { home := 0, sla := 8192, key := 0, bank := 0, pid := 0, vd := 0, launch := 9 * 2 ^ 48, va := 8192, x := 0x3F800000, blk := 0, who := 0, n := 0 }
theorem witness_LaunchEngineEvents_ordered : (match (wMap.homeRead ord0.home ord0.sla 4 ord0.key).2 with
      | some b => decide (b = [0, 0, 0, 0])
      | none => false) = true ∧ (wMap.vaRead 0 0 0 0x6000 8).2 = .ok [0, 0, 0, 0, 0, 0, 0, 0] ∧
    pkNopre (toBytes 128 (pktN + 8 * 2 ^ 368)) ∧ l0.lapsed = false ∧ keyBefore ord0 { ord0 with n := 1 } := by
  unfold keyBefore
  decide +kernel
def wCan : State := { wL { l0 with next := [(0, 1)] } with cancels := [(3, { launches := [5], slices := [0] })], blocks := [(0, { lk := 5, res := .resident })] }
theorem witness_LaunchEngineEvents_cancel : tget wCan.cancels 3 = some { launches := [5], slices := [0] } ∧ tget wCan.launches 5 = some { l0 with next := [(0, 1)] } ∧ cwf 0 { l0 with next := [(0, 1)] }.next := by decide +kernel

/-! ### Witnesses: the residency engine -/

/-- The block of `w0`, changed, beside a slice changed. -/
def wR (f : Block → Block) (k : Slice → Slice) : State := (wb f).modSlice 0 k
def pktLc : List Byte := toBytes 128 (pktN + 4 * 2 ^ 368)
/-- A latency-critical launch waits for a place, and a block of 32 groups of 256 registers stands on every core. -/
def fullCore (k : Nat) : Nat × Block := (k, { slice := 0, core := k, lk := 1, res := .resident, groups := List.replicate 32 { vregs := 256 } })
def wPre : State := { (wL { l0 with pkt := pktLc }).modSlice 0 (fun k => { k with saveSize := 2 ^ 22 }) with blocks := (upto 4).map fullCore }
theorem witness_ResidencyEvents_preempt : ((wPre.waiting 0).find? fun c => c.l.lc && (wPre.placeFor 0 c.l.kd).isNone && !wPre.preempting 0 c &&
      (wPre.victims 0 c.l.kd).any fun v => !v.1.isEmpty && !wPre.tileMoving 0 v.2).isSome ∧
    ((wPre.victims 0 (toBytes 128 kdN)).map fun l => (l.1.map Prod.fst, decide (∀ e ∈ l.1, e ∈ wPre.blocks), l.2)) = some ([0], true, 0) ∧ (wPre.slice 0).inReset = false ∧ (wPre.slice 0).drain = false := by decide +kernel
theorem witness_ResidencyEvents_stopping : (tget (wR (fun b => { b with res := .stopping }) id).blocks 0).map Block.res = some .stopping ∧
    Claims.settled (ex w0).g ∧ ¬cleanIn (ex w0).b (ex w0).g ∧ cleanIn (ex w0).b { (ex w0).g with flash := { valid := true } } ∧
    (∃ e ∈ (wReq (req [wr 8192 7] .atHome) []).reqs, e.2.b = 0 ∧ e.2.writes) ∧ (∀ e ∈ (wReq (req [rd 8192] .atHome) []).reqs, e.2.writes = false) := by
  unfold Claims.settled cleanIn
  decide +kernel
theorem witness_ResidencyEvents_save : (∀ x ∈ [true, false], (tget (wR (fun b => { b with res := .saving, swap := x }) id).blocks 0).map Block.swap = some x) ∧
    (ex w0).b.savedBytes ≤ wPre.saveFree 0 ∧ (ex w0).b.savedBytes ≤ w0.lockFree 0 ∧ (tget w0.slices 0).isSome ∧
    (wPre.modBlock 0 fun b => { b with res := .swapped }).saveFree 0 < wPre.saveFree 0 := by decide +kernel
def bigB : Nat → Nat × Block := fun k => (k, { slice := 0, lk := 1, res := .swapped, localSz := 524288, groups := List.replicate 32 { vregs := 256 } })
def wFullSave (r : ResSt) : State := { w0.modSlice 0 (fun k => { k with saveSize := 2 ^ 26 }) with blocks := (9, { slice := 0, res := r, groups := [{ vregs := 1024 }] }) :: (upto 80).map fun k => ((bigB k).1 + 10, (bigB k).2) }
theorem witness_ResidencyEvents_noRoom : (wFullSave .saving).saveFree 0 < { res := .saving, groups := [{ vregs := 1024 }] : Block }.savedBytes := by decide +kernel
theorem witness_ResidencyEvents_spill : (∃ n, n < 40 ∧ ({ w0 with blocks := (upto n).map fun k => ((bigB k).1, { (bigB k).2 with res := .saved, savedAt := k }) }).lockFree 0 < 4718592) ∧
    4718592 ≤ w0.lockFree 0 ∧ (tget (wR (fun b => { b with res := .saved }) id).blocks 0).map Block.res = some .saved ∧ (∀ g ∈ (ex w0).b.groups, g.inRecipe = false) := by decide +kernel
theorem witness_ResidencyEvents_rotation : (∀ x ∈ [(false, 80, 20), (true, 80, 20), (true, 20, 20)], let s := wR id fun k => { k with roten := x.1, thresh := 10, temps := [x.2.1, x.2.2], rotDefer := true }
      (s.slice 0).rotDefer ∧ (s.slice 0).drain = false ∧ (s.blocks.map Prod.fst).Nodup ∧ (s.slice 0).inReset = false ∧ (s.slice 0).rotNext ≤ { s with now := 600000 }.now) ∧
    (∀ e ∈ w0.blocks, e.2.slice = 0 → ¬busyRes e.2.res) ∧ (∀ e ∈ w0.blocks, e.2.slice = 0 → e.2.res = .resident → stands w0 0 e.2) ∧
    (∃ e ∈ (wR (fun b => { b with res := .saving }) id).blocks, e.2.slice = 0 ∧ busyRes e.2.res) := by
  unfold busyRes stands
  refine ⟨by decide +kernel, by decide +kernel, fun e h _ hr => ⟨?_, hr, fun l hl => ?_⟩, by decide +kernel⟩
  · have : ∀ e ∈ w0.blocks, e.2.slice = 0 := by decide +kernel
    exact this e h
  · have : ∀ e ∈ w0.blocks, tget w0.launches e.2.lk = none := by decide +kernel
    rw [this e h] at hl; cases hl
theorem witness_ResidencyEvents_held : ∃ e ∈ ({ wL { l0 with pkt := toBytes 128 (pktN + 8 * 2 ^ 368) } with blocks := [(0, { lk := 5, res := .resident })] }).blocks, e.2.slice = 0 ∧ e.2.res = .resident ∧
    ¬stands { wL { l0 with pkt := toBytes 128 (pktN + 8 * 2 ^ 368) } with blocks := [(0, { lk := 5, res := .resident })] } 0 e.2 :=
  ⟨(0, { lk := 5, res := .resident }), by decide, rfl, rfl, fun h => absurd (h.2.2 _ rfl) (by decide +kernel)⟩
theorem witness_ResidencyEvents_swap : (w0.blocks.length = 1) ∧ (ex (wt fun t => { t with parkSince := some 5 })).b.groups.any (fun g => g.tillers.any fun u => u.parkSince == some 5) ∧
    (5 + 20000 < { w0 with now := 30000 }.now) ∧ w0.tileMoving 0 0 = false ∧ (tget w0.launches (ex w0).b.lk).isNone ∧ (wPre.modBlock 0 fun b => { b with res := .moving }).tileMoving 0 0 ∧
    (tget (wR (fun b => { b with res := .swapped }) id).blocks 0).map Block.res = some .swapped ∧ (∀ g ∈ (ex w0).b.groups, g.pend = []) ∧ w0.copies = [] ∧ (ex w0).b.sops = [] := by decide +kernel

/-! ### Witnesses: fault reports, the stack, the channel's commands -/

/-- A fault ring of 16 records at 0x6000 of VD 0, and one report. -/
def wRing (h : Nat) (r : Report) : State :=
  let s := withMem [(0x6000, 64, h)] wMap
  { s with parts := tmod s.parts 0 (fun p => { p with st := .running, vds := [(0, { s1root := 10 * 2 ^ 60 + 1, frbase := 0x6000 })] }), reports := [(4, r)] }
def ring (head tail : Nat) : Nat := 4 + head * 2 ^ 64 + tail * 2 ^ 128
def rep0 : Report := { slice := 0, pid := 0, vd := 0, f := { kind := .stage1 }, va := 0x9000, guest := true, held := true, waiter := .none }
def ringWrites (s : State) (r : Report) (n kind : Nat) : Bool := match s.vmRead r.slice r.pid r.vd 0x6000 64 with
  | (u, .ok h) => decide (4 ≤ fieldAt h 0 4 ∧ fieldAt h 0 4 ≤ 16) && (h.drop 24).all (· == 0) && fieldAt h 16 8 == n &&
    (match u.vmWrite r.slice r.pid r.vd (0x6040 + 32 * (n % 16)) (frRecord r.va r.pc 5 kind 0 r.acc.code r.info) with
     | (v, none) => (v.vmWrite r.slice r.pid r.vd 0x6010 (toBytes 8 (n + 1))).2.isNone
     | _ => false)
  | _ => false
theorem witness_ReportsAndStack_record : (wRing (ring 1 16) rep0).ringOf 0 0 = (0x6000, 0) ∧ ringWrites (wRing (ring 1 16) rep0) rep0 16 (guestKind rep0.f).1 ∧ ringWrites (wRing (ring 1 16) rep0) rep0 16 3 ∧
    (guestKind rep0.f).2 = 0 ∧ ringWrites (wRing (ring 0 16) rep0) rep0 16 3 ∧ 2 ^ 4 ≤ 16 - 0 ∧ (wMap.ringOf 0 0).1 = 0 := by decide +kernel
/-- What waits for an answer: a tiller that fetches, a lane, a copy, a queue's head, a shaping operation. -/
theorem witness_ReportsAndStack_waiters : GroupAt (wt fun t => { t with st := .longWait (.fetch [fr1]) }) 0 0 (ex (wt fun t => { t with st := .longWait (.fetch [fr1]) })).g ∧
    GroupAt wPark 0 0 (ex wPark).g ∧ tget (wQs .mapped 0 (some { n := 0 })).slices 0 ≠ none ∧ tget (wSop .zero id).blocks 0 = some (ex (wSop .zero id)).b ∧
    (fr1.token = 0 + 1 ∧ (tget (ex (wSop .zero fun o => { o with fault := some fr1 })).b.sops 6).any fun o => o.fault == some fr1) := by
  unfold GroupAt
  decide +kernel
def kcmd : Cmd := ⟨some 0, 7⟩
def wK (f : Part → Part) : State := { wMap with parts := tmod wMap.parts 0 (fun p => f { p with st := .running }) }
theorem gives_of {s : State} (h : (tget s.parts 0).any (fun p => p.st == .running) = true) : ∃ p, gives s kcmd 0 p := by
  cases hp : tget s.parts 0 with
  | none => rw [hp] at h; cases h
  | some p => rw [hp] at h; exact ⟨p, rfl, hp, Or.inl (by simpa using h)⟩
theorem witness_ReportsAndStack_gives : (∃ p, gives (wRing (ring 0 3) { rep0 with guest := false, held := false }) kcmd 0 p) ∧ tget (wRing (ring 0 3) rep0).reports 4 = some rep0 ∧
    ringWrites (wRing (ring 0 3) rep0) rep0 3 3 :=
  ⟨gives_of (by decide +kernel), by decide +kernel, by decide +kernel⟩
theorem witness_ReportsAndStack_patrol : let s := wR id fun k => { k with patrol := true, patrolPos := 5 }
    (tget s.slices 0).isSome ∧ (s.slice 0).patrol ∧ (s.slice 0).inReset = false ∧ cell 0 (5 * 128) / 128 = 5 ∧ (∀ n ∈ [1, 4, 5], cwf 0 [(5, n)]) ∧ (w0.slice 0).patrol = false := by decide +kernel
theorem witness_ReportsAndStack_powerDown : (w0.slice 0).pdIdle ≠ 0 ∧ cget 0 (w0.slice 0).pch 0 = 0 ∧ (w0.slice 0).pdIdle ≤ 2 * ({ w0 with now := 5000 }.now - cget 0 (w0.slice 0).pchAt 0) ∧ (w0.slice 0).srIdle ≠ 0 ∧
    1000 * (w0.slice 0).srIdle ≤ { w0 with now := 2000000 }.now - 0 ∧ cget 0 ((wR id fun k => { k with pch := [(0, 1)] }).slice 0).pch 0 = 1 ∧ cwf 0 (w0.slice 0).pch ∧ cwf 0 (w0.slice 0).pchAt := by decide +kernel
theorem witness_KernelCommands : ∃ p, gives (wK id) kcmd 0 p := gives_of (by decide +kernel)
theorem witness_KernelCommands_state : (tget (wK id).parts 0).isSome ∧ IsKernelCmd kcmd (.keyGen kcmd 3) ∧ (∀ x ∈ [PState.forming, .destroying, .booting], (tget (wK fun p => { p with st := x }).parts 0).map Part.st = some x) ∧
    (∀ p ∈ tget (wK id).parts 0, p.slices = [0] ∧ p.resize = none ∧ p.ownerTab = none ∧ p.owned = []) ∧ (wK id).jobsOf 0 = [] ∧ 4096 = 2 ^ Nat.log2 4096 ∧ 0x8000 % 4096 = 0 ∧
    ((wK id).slice ((wK id).leader 0)).keySt 3 = .empty ∧ ((wR id fun k => { k with keys := [(3, .active 9)] }).slice 0).keySt 3 = .active 9 ∧ tget (wK id).jobs 2 = none :=
  ⟨by decide +kernel, Or.inr (Or.inr (Or.inr (Or.inr (Or.inr (Or.inl ⟨3, rfl⟩))))), by decide +kernel, by decide +kernel, by decide +kernel, by decide +kernel, by decide, by decide +kernel, by decide +kernel, by decide +kernel⟩
theorem witness_KernelCommands_owned : inPage 0x8000 4096 (8 * 4096) 4096 ∧ ¬inPage 0x8000 4096 (9 * 4096) 4096 ∧ (tget (wK fun p => { p with owned := [(3, 0, 8)] }).parts 0).map Part.owned = some [(3, 0, 8)] := by
  unfold inPage
  decide +kernel
def job0 : ScrubJob := { ranges := [(2 ^ 21, 2 ^ 21)], slots := [3], cores := [(0, 1)], vd := 1, cmd := kcmd }
def wJob (j : ScrubJob) (r : Bool) : State := { wK id with jobs := [(2, j)], slices := tmod (wK id).slices 0 fun k => { k with inReset := r } }
theorem witness_KernelCommands_jobs : tget (wJob job0 false).jobs (0 * 4 + 2) = some job0 ∧ ((wJob job0 false).slice 0).inReset = false ∧ stackWf (wJob job0 false) ∧ jobLine (wJob job0 false) 0 0 job0 (2 ^ 14) ∧
    ((wJob { job0 with zeroing := true } true).slice 0).inReset ∧ slotListed (wJob job0 false) 0 3 :=
  ⟨by decide +kernel, by decide +kernel, by unfold stackWf; decide +kernel, ⟨_, List.mem_singleton.mpr rfl, 0, by decide, 2 ^ 21, by decide +kernel, by decide +kernel⟩, by decide +kernel,
    ⟨_, List.mem_singleton.mpr rfl, by decide, by decide⟩⟩
theorem witness_KernelCommands_resize : ∃ r : Resize, (tget (wK fun p => { p with resize := some r }).parts 0).map Part.resize = some (some r) ∧ 3 ≤ r.step ∧ r.step ≤ 5 :=
  ⟨{ add := true, slice := 1, drain := 0, gused := 1, map := [], cmd := kcmd, step := 3 }, by decide +kernel, by decide, by decide⟩
def wProg : State := { wJob { job0 with zeroing := true } true with sprog := [(2, { active := true, total := 128 })], fw := [(0, { pid := 0 })] }
theorem witness_KernelCommands_progress : (wProg.prog 0 2).active ∧ (wProg.prog 0 2).resumed = false ∧ tget wProg.fw 0 = some { pid := 0 } ∧ stackWf wProg := by
  unfold stackWf
  decide +kernel

/-! ### Witnesses: the network -/

def peer0 : Peer := { st := 1, lvd := 0, perm := 31, rpeer := 9, nring := 0x6000 }
/-- `wMap` with a producer group, its slice's engine on, and a peer at handle 5, which scalar 3 holds; scalar 6 is 2 rows of 4 bytes. -/
def wNet (f : Peer → Peer) : State :=
  let s := (((wMap.modSlice 0 fun k => { k with gen := true, link := true, trc := [(0, {})] }).modGroup 0 0 fun g => ((g.sset 3 5).sset 6 0x20004).sset 4 0x9000).modGroup 0 0 fun g => { g with producer := true })
  { s with fw := [(0, { asgn := true, hold := false })], parts := tmod s.parts 0 fun p => { p with st := .running, peers := [(5, f peer0)], addrs := [(7, 77)] } }
def rems (h : Hd) : List Instr :=
  [.rcpy (cpo h none) 3 false .none 64, .rcpy (cpo h none) 3 true .none 64, .rget (cpo h none) 3 .none 64, .ratom h .add (some .ar) .n64 7 1 (.imm 9) 3 0, .ratom h .fset none .b32 7 1 (.reg 2) 3 1,
   .rflag h none true false 1 (.imm 9) 3 0, .rflag h (some 2) false true 1 (.imm 9) 3 4, .rnote h 1 3 7, .rstat h (.grp 7), .rstat h (.clr 7), .rstat h (.sh 7 1)]
theorem witness_RemoteInstructions_issue : (rems on).all (issuesAt (wNet id) on true) ∧ (rems off).all (issuesAt (wNet id) off false) ∧ (rems on).all (issuesAt wCons on true) ∧ (ex wCons).g.producer = false ∧
    (ex (wNet id)).g.producer ∧ (ex (wNet id)).g.openSheaf.length < 256 ∧ sv (ex (wNet id)) 3 = 5 ∧ addr64 (sv (ex (wNet id)) 1) 0 % 8 = 0 ∧ addr64 (sv (ex (wNet id)) 1) 1 % 4 ≠ 0 := by decide +kernel
theorem witness_RemoteInstructions_peer : engineRoom (ex (wNet id)) ∧ peerFor (ex (wNet id)) 5 peer0 ∧ clearWay (ex (wNet id)) 5 ∧
    (ex (wNet id)).g.pend = [] ∧ (ex (wNet id)).s.rops = [] := by
  unfold engineRoom peerFor clearWay
  decide +kernel
theorem witness_RemoteInstructions_fails : peerFails (ex (wNet id)) 1024 1 ∧ peerFails (ex (wNet id)) 6 1 ∧ peerFails (ex (wNet fun p => { p with lvd := 3 })) 5 1 ∧ peerFails (ex (wNet fun p => { p with st := 2 })) 5 2 :=
  ⟨Or.inl ⟨rfl, Or.inl (by decide)⟩, Or.inl ⟨rfl, Or.inr (Or.inl (by decide +kernel))⟩, Or.inl ⟨rfl, Or.inr (Or.inr ⟨{ peer0 with lvd := 3 }, by decide +kernel⟩)⟩,
   Or.inr ⟨rfl, by decide, { peer0 with st := 2 }, by decide +kernel⟩⟩
theorem witness_RemoteInstructions_copies : ∀ k ∈ [CpKind.rcpy 5 false 64, .rget 5 64], let c := issuedCopy (ex (wNet id)) (cpo on none) none k .none
    c.st = .queued ∧ c.issueCheck (ex (wNet id)).b = (if k = .rcpy 5 false 64 then none else c.issueCheck (ex (wNet id)).b) ∧ (issuedCopy (ex w0) (cpo on none) none k .none).issueCheck (ex w0).b ≠ none := by decide +kernel
theorem witness_RemoteInstructions_trace : notRecording (ex (wNet id)) := ⟨{}, by decide +kernel⟩

def gp (typ aux : Nat) (d : List Byte) : GPkt := { typ := typ, dpeer := 5, va := 0x8000, len := d.length, aux := aux, payload := d }
def pbytes (p : GPkt) : List Byte := p.bytes ++ tagOf peer0.key p
theorem tag16 (k : List Byte) (p : GPkt) : (tagOf k p).length = 16 := length_toBytes _ _
theorem good_gp : ∀ t ∈ [(1, 8), (2, 0), (4, 8), (6, 8), (7, 8), (8, 20)], goodPacket (gp t.1 0 (List.replicate t.2 1)) := by
  unfold goodPacket
  decide +kernel
theorem witness_PacketsReceived_reaches : (∃ q, (wNet id).ownerPart 0 = some (0, q)) ∧ ((wNet id).slice 0).gen ∧ ((wNet id).slice 0).inReset = false ∧
    (gp 1 0 (List.replicate 8 1)).bytes.length = 40 ∧ (tget (wNet id).slices 0).isSome := by
  refine ⟨?_, by decide +kernel⟩
  have h : ((wNet id).ownerPart 0).any (fun p => p.1 == 0) = true := by decide +kernel
  cases hp : (wNet id).ownerPart 0 with
  | none => rw [hp] at h; cases h
  | some p => 
    rw [hp] at h
    have e : p.1 = 0 := by simpa using h
    exact ⟨p.2, by rw [← e]⟩
theorem witness_PacketsReceived_trusted (p : GPkt) (hp : p.dpeer = 5) : trusted (wNet fun e => { e with addr0 := 7 }) 0 77 p (tagOf peer0.key p) { peer0 with addr0 := 7 } ∧
    (∀ e, ¬trusted (wNet fun e => { e with addr0 := 7 }) 0 78 p (tagOf peer0.key p) e) := by
  have h : (wNet fun e => { e with addr0 := 7 }).peerAt 0 5 = some { peer0 with addr0 := 7 } := by decide +kernel
  refine ⟨⟨by rw [hp]; exact h, ⟨0, by decide, by decide +kernel⟩, rfl⟩, fun e t => ?_⟩
  obtain ⟨t1, ⟨k, hk, t2⟩, _⟩ := t
  rw [hp, h] at t1
  obtain rfl := Option.some.inj t1
  have : ∀ k, k < 1 → (wNet fun e => { e with addr0 := 7 }).addrAt 0 (7 + k) ≠ 78 := by decide +kernel
  exact this k hk t2
def rcv0 : Rcv := { pid := 0, peer := 5, sslice := 0, slice := 0 }
def rxAt (p : GPkt) : State := received (wNet id) 0 0 false p rcv0
def wr8 : GPkt := gp 1 0 (List.replicate 8 1)
def writesAt (s : State) (p : GPkt) : Bool := match s.reach 0 0 0 p.va { w := true } with
  | (v, .ok _) => (v.engWrite 0 0 0 p.va p.payload).2.isNone
  | _ => false
theorem witness_PacketsReceived_write : inSequence (wNet id) 0 0 wr8 rcv0 ∧ quietTrace (wNet id) 0 0 ∧ canonical wr8.va ∧ writesAt (rxAt wr8) wr8 ∧ writesAt (rxAt { wr8 with typ := 6 }) { wr8 with typ := 6 } ∧
    peer0.perm.testBit 1 ∧ isOk ((rxAt (gp 2 0 [])).vaRead 0 0 0 0x8000 64).2 ∧ (∀ b ∈ [1, 2, 3, 4], ((31 - 2 ^ b).testBit b) = false) := by
  unfold inSequence quietTrace
  refine ⟨by decide +kernel, ⟨{}, by decide +kernel⟩, by decide +kernel⟩
def atomAt (s : State) : Bool := match s.vaRead 0 0 0 0x8000 8 with
  | (v, .ok d) => match v.reach 0 0 0 0x8000 { r := true, w := true } with
    | (z, .ok _) => (z.engWrite 0 0 0 0x8000 (toBytes 8 ((ofBytes d + 9) % 2 ^ 64))).2.isNone
    | _ => false
  | _ => false
def noteAt (s : State) : Bool := match s.vaRead 0 0 0 0x6000 64 with
  | (v, .ok h) => decide (4 ≤ fieldAt h 0 4 ∧ fieldAt h 0 4 ≤ 16) && (h.drop 24).all (· == 0) && decide (fieldAt h 16 8 - fieldAt h 8 8 < 2 ^ fieldAt h 0 4) &&
    (match v.vaWrite 0 0 0 (0x6000 + 64 + 16 * (fieldAt h 16 8 % 2 ^ fieldAt h 0 4)) (List.replicate 16 0) with
     | (w, none) => (w.vaWrite 0 0 0 0x6010 (toBytes 8 (fieldAt h 16 8 + 1))).2.isNone
     | _ => false)
  | _ => false
theorem witness_PacketsReceived_others : atomAt (rxAt (gp 4 256 (toBytes 8 9))) ∧ noteAt (withMem [(0x6000, 64, ring 0 3)] (rxAt (gp 7 3 (toBytes 8 9)))) ∧ peer0.nring ≠ 0 := by decide +kernel
/-- A write of a page that stage 2 does not map, and of one that stage 1 does not. -/
theorem witness_PacketsReceived_faults : (match ((rxAt wr8).reach 0 0 3 0x8000 { w := true }).2 with
      | .error f => f.kind == .stage1 || f.kind == .stage2
      | .ok _ => false) = true ∧
    (∀ r ∈ [{ rcv0 with cum := 3 }, { rcv0 with cum := 1, ahead := [5] }], (0 + 2 ^ 32 - r.cum) % 2 ^ 32 ≥ 2 ^ 31 ∨ 5 ∈ r.ahead) ∧ (w0.slice 0).gen = false := by decide +kernel

def conn0 : Conn := { queue := [(some 3, gp 6 0 (toBytes 4 9))], psn := 4 }
def wConn (c : Conn) : State := { wNet id with conns := [(5, c)] }
theorem witness_PacketsSentAndPorts_send : ((wConn conn0).conn 0 5).queue = [(some 3, gp 6 0 (toBytes 4 9))] ∧ ((wConn conn0).conn 0 5).sent.length < 1024 ∧ peer0.st = 1 ∧ ((wConn conn0).slice 0).gen ∧ ((wConn conn0).slice 0).link ∧
    ((wConn conn0).slice 0).inReset = false ∧ ((wConn conn0).conn 0 5).paceAt ≤ (wConn conn0).now ∧ 1 ≤ peer0.npath ∧ 1 ≤ peer0.naddr ∧ (wConn conn0).peerOn 0 5 = some (0, peer0) ∧ ((wConn {}).conn 0 5).queue = [] := by decide +kernel
def sent0 (n : Nat) : Sent := { pkt := { gp 6 0 (toBytes 4 9) with psn := 4 }, op := some 3, sends := n, path := 0, rto := 10000, due := 10 }
theorem witness_PacketsSentAndPorts_again : ∀ n ∈ [1, 12, 13], ((wConn { sent := [sent0 n] }).conn 0 5).sent.find? (fun k => k.pkt.psn == 4) = some (sent0 n) ∧ (sent0 n).due ≤ { wConn {} with now := 20 }.now ∧ (wConn {}).now < (sent0 n).due ∧
    (((wConn { sent := [sent0 n] }).conn 0 5).sent.map fun k => k.pkt.psn).Nodup := by decide +kernel
theorem witness_PacketsSentAndPorts_rate : tget (wConn { acked := 4, marked := 1 }).conns (0 * 1024 + 5) = some { acked := 4, marked := 1 } ∧ ({ acked := 4, marked := 1 } : Conn).rateAt ≤ (wConn {}).now := by decide +kernel
def wRcv (r : Rcv) : State := { wNet id with rcvs := [(0, r)], rops := [(3, { b := 0, g := 0, mask := 1, slice := 0, pid := 0, vd := 0, peer := 5, kind := .flag })] }
theorem witness_PacketsSentAndPorts_ack : tget (wRcv { rcv0 with unack := 8 }).rcvs 0 = some { rcv0 with unack := 8 } ∧ (wRcv rcv0).peerAt 0 5 = some peer0 ∧ 8 ≤ { rcv0 with unack := 8 }.unack ∧
    (rcv0.unack = 0 ∨ (rcv0.unack < 8 ∧ (wRcv rcv0).now < rcv0.firstAt + 2000)) ∧ (sent0 1).pkt.psn < 5 ∧ 5 ≤ (sent0 1).pkt.psn + 2 ^ 31 ∧ (tget (wRcv rcv0).rops 3).map RemOp.kind = some .flag ∧ ((wRcv rcv0).rops.map Prod.fst).Nodup := by decide +kernel
def rop0 : RemOp := { b := 0, g := 0, mask := 1, slice := 0, pid := 0, vd := 0, peer := 5, kind := .flag, wait := .after 1, pkt := some (gp 6 0 []) }
def shAt (o f : Bool) : Group := { (ex w0).g with sealCnt := 1, sheafNum := 1, sheaves := [{ num := 1, copies := if o then [6] else [], out := o, failed := f }] }
theorem witness_PacketsSentAndPorts_after : (shAt true false).cwaitOk true 1 = false ∧ (shAt false false).cwaitOk true 1 ∧ (∀ e ∈ (shAt false false).sheaves, e.failed = false) ∧
    (∃ e ∈ (shAt false true).sheaves, e.failed ∧ (1 + 2 ^ 32 - e.num) % 2 ^ 32 < 64) ∧ rop0.wait = .after 1 ∧ rop0.kind = .flag ∧ (shAt false true).cwaitOk true 1 := by decide +kernel
/-- A pause frame, a frame to the slice's MAC, and a UDP datagram over IPv4 from 10.0.0.1 to 10.0.0.2, port 49,319, with a checksum. -/
def pauseF : List Byte := List.replicate 12 0 ++ [0x88, 0x08] ++ List.replicate 46 0
def udpF (sum : Nat) : List Byte :=
  List.replicate 12 0 ++ [0x08, 0x00, 0x45, 0, 0, 32, 0, 0, 0, 0, 64, 17, 0, 0, 10, 0, 0, 1, 10, 0, 0, 2, 0xC0, 0x00, 0xC0, 0xA7, 0, 12, BitVec.ofNat 8 (sum / 256), BitVec.ofNat 8 sum, 1, 2, 3, 4]
theorem witness_PacketsSentAndPorts_frames : beAt pauseF 12 2 = 0x8808 ∧ 14 ≤ pauseF.length ∧ udpOf (List.replicate 60 0) = none ∧ beAt (List.replicate 60 0) 0 6 = (w0.slice 0).mac ∧
    (udpOf (udpF 0)).map (fun u => (u.dst, u.dport, u.good)) = some (0xFFFF0A000002, 49319, false) ∧
    (∃ n < 65536, n = 0 ∧ (udpOf (udpF (0xFFFF - (0x0A00 + 1 + 0x0A00 + 2 + 17 + 12 + 0xC000 + 0xC0A7 + 12 + 0x0102 + 0x0304) % 0xFFFF))).map Udp.good = some true) := by
  refine ⟨by decide +kernel, by decide +kernel, by decide +kernel, by decide +kernel, by decide +kernel, 0, by decide, rfl, by decide +kernel⟩
def peerBytes : Nat := 2 ^ 72 + 31 * 2 ^ 152 + 2 ^ 136 + 2 ^ 144 + 10 * 2 ^ 160
theorem witness_PacketsSentAndPorts_peer : (∃ e, peerOf (toBytes 64 peerBytes) = some e) ∧ peerOf [] = none ∧ (∀ o, tget ({} : Part).peers 5 = some o → o.st = 0) ∧ (∀ a ∈ [((7 : Nat), (77 : Nat))], a.1 < 256 ∧ a.2 < 2 ^ 128) :=
  ⟨⟨(peerOf (toBytes 64 peerBytes)).getD {}, by decide +kernel⟩, by decide +kernel, fun o h => (by cases h), by decide⟩

/-! ### Witnesses: boot, partitions, resets -/

def pcmd : Cmd := ⟨none, 7⟩
def wBoot (n : Nat) (l : List (Nat × Bool)) : State := { State.reset with bootStep := n, tested := l }
theorem witness_BootAndTrust_test : (wBoot 1 []).bootStep = 1 ∧ 1 ∈ (wBoot 1 []).part.slices ∧ tget (wBoot 1 []).tested 1 = none ∧ (∃ j ∈ (wBoot 1 []).part.slices, j ≠ 1 ∧ tget (wBoot 1 []).tested j = none) ∧
    (∀ j ∈ (wBoot 1 ((upto 16).map fun k => (k, true))).part.slices, j = 1 ∨ (tget (wBoot 1 ((upto 16).map fun k => (k, true))).tested j).isSome) ∧ State.reset.powered ∧ (wBoot 0 []).bootStep ≠ 1 := by decide +kernel
theorem witness_BootAndTrust_ready : allReady (wBoot 3 [(2, true), (3, false)]) 2 ∧ ¬allReady (wBoot 3 [(2, true), (5, true)]) 2 ∧ tget (wBoot 3 [(2, true)]).tested 2 = some true ∧
    (∀ x, tget (wBoot 3 []).slices 2 = some x → x.inReset) := by
  refine ⟨fun e h t => ?_, fun h => ?_, by decide +kernel, fun x h => ?_⟩
  · simp only [wBoot, List.mem_cons, List.not_mem_nil, or_false] at h
    rcases h with rfl | rfl
    · exact Or.inl rfl
    · exact Bool.noConfusion t
  · have := h (5, true) (by decide) rfl
    rcases this with e | ⟨x, hx, hr⟩
    · exact absurd e (by decide)
    · have k : (tget (wBoot 3 [(2, true), (5, true)]).slices 5).all Slice.inReset = true := by decide +kernel
      rw [hx] at k
      exact Bool.noConfusion (hr.symm.trans k)
  · have k : (tget (wBoot 3 []).slices 2).all Slice.inReset = true := by decide +kernel
    rw [h] at k
    exact k
/-- A header of kind 1 for a body of one byte, with its digest. -/
def hdrI (size : Nat) (d : List Byte) : List Byte := toBytes 16 (0x4C4F4453 + 2 ^ 32 + size * 2 ^ 64) ++ d ++ List.replicate 80 0
theorem hdrI_fields (n : Nat) (d : List Byte) (i k : Nat) (h : i + k ≤ 16) : byteField (hdrI n d) i k = byteField (toBytes 16 (0x4C4F4453 + 2 ^ 32 + n * 2 ^ 64)) i k := by
  have l : (toBytes 16 (0x4C4F4453 + 2 ^ 32 + n * 2 ^ 64)).length = 16 := length_toBytes _ _
  unfold byteField hdrI
  rw [List.append_assoc, List.drop_append_of_le_length (by omega), List.take_append_of_le_length (by rw [List.length_drop]; omega)]
theorem formed (n : Nat) (d body : List Byte) (hd : d.length = 32) (hn : n = 1) (hb : body.length = 1) : wellFormedImage (hdrI n d) body := by
  subst hn
  have t : (hdrI 1 d).drop 112 = List.replicate 16 0 := by
    have l : (toBytes 16 (0x4C4F4453 + 2 ^ 32 + 1 * 2 ^ 64) ++ d).length = 48 := by rw [List.length_append, length_toBytes, hd]
    rw [hdrI, List.drop_append, l, List.drop_eq_nil_of_le (by omega)]
    rfl
  refine ⟨?_, ?_, ?_, ?_, ?_, ?_, ?_, ?_, ?_⟩
  all_goals first
    | (rw [hdrI_fields _ _ _ _ (by decide)]; first | decide | (rw [hb]; decide))
    | (rw [t]; intro b h; exact List.eq_of_mem_replicate h)
theorem witness_BootAndTrust_image : (∃ h body, imageOutcome (wBoot 2 []) h body 0) ∧ (∃ h body, h.length = 128 ∧ body.length = byteField h 8 4 ∧ imageOutcome { wBoot 2 [] with fuses := { revoke := 1 } } h body 1) ∧
    (∃ h body n, 2 ≤ n ∧ n ≤ 5 ∧ h.length = 128 ∧ body.length = byteField h 8 4 ∧ (n = 2 → imageOutcome (wBoot 2 []) h body n)) ∧
    ∃ h body n, 3 ≤ n ∧ n ≤ 5 ∧ h.length = 128 ∧ body.length = byteField h 8 4 ∧ imageOutcome (wBoot 2 []) h body n := by
  have len (d : List Byte) (hd : d.length = 32) : (hdrI 1 d).length = 128 := by simp [hdrI, hd]
  have fld (d : List Byte) : byteField (hdrI 1 d) 8 4 = 1 := by rw [hdrI_fields _ _ _ _ (by decide)]; decide
  have dig (d : List Byte) (hd : d.length = 32) : ((hdrI 1 d).drop 16).take 32 = d := by
    have l : (toBytes 16 (0x4C4F4453 + 2 ^ 32 + 1 * 2 ^ 64)).length = 16 := length_toBytes _ _
    rw [hdrI, List.append_assoc, List.drop_append, l, List.drop_eq_nil_of_le (by omega), List.nil_append]
    exact List.take_left' hd
  have sl : (sm3Bytes [7]).length = 32 := by simp [sm3Bytes]
  have w (d : List Byte) (hd : d.length = 32) := formed 1 d [7] hd rfl rfl
  have key (d : List Byte) : byteField (hdrI 1 d) 5 1 = 0 := by rw [hdrI_fields _ _ _ _ (by decide)]; decide
  have z32 : (List.replicate 32 (0 : Byte)).length = 32 := by simp
  refine ⟨⟨[], [], Or.inl ⟨rfl, fun h => absurd h.1 (by decide)⟩⟩, ⟨hdrI 1 (List.replicate 32 0), [7], len _ z32, by rw [fld]; rfl, Or.inr ⟨w _ z32, Or.inl ⟨rfl, by rw [key]; decide⟩⟩⟩, ?_, ?_⟩
  · obtain ⟨d, hd, ne⟩ : ∃ d : List Byte, d.length = 32 ∧ sm3Bytes [7] ≠ d := by
      by_cases h : sm3Bytes [7] = List.replicate 32 0
      · exact ⟨List.replicate 32 1, by simp, by rw [h]; decide⟩
      · exact ⟨_, z32, h⟩
    exact ⟨hdrI 1 d, [7], 2, by decide, by decide, len d hd, by rw [fld]; rfl, fun _ => Or.inr ⟨w d hd, Or.inr ⟨by rw [key]; decide, Or.inl ⟨rfl, by rw [dig d hd]; exact ne⟩⟩⟩⟩
  · have fit : fusedSvn (wBoot 2 []) (byteField (hdrI 1 (sm3Bytes [7])) 4 1) ≤ byteField (hdrI 1 (sm3Bytes [7])) 6 2 := by
      rw [hdrI_fields _ _ _ _ (by decide), hdrI_fields _ _ _ _ (by decide)]
      decide +kernel
    cases hs : Config.sm2Ok ((wBoot 2 []).fuses.pubkeys.getD 0 0) ((hdrI 1 (sm3Bytes [7])).take 48) (((hdrI 1 (sm3Bytes [7])).drop 48).take 64) with
    | false =>
      refine ⟨_, [7], 3, by decide, by decide, len _ sl, by rw [fld]; rfl, Or.inr ⟨w _ sl, Or.inr ⟨by rw [key]; decide, Or.inr ⟨(dig _ sl).symm, Or.inl ⟨rfl, ?_⟩⟩⟩⟩⟩
      rw [key]; exact hs
    | true =>
      refine ⟨_, [7], 5, by decide, by decide, len _ sl, by rw [fld]; rfl, Or.inr ⟨w _ sl, Or.inr ⟨by rw [key]; decide, Or.inr ⟨(dig _ sl).symm, Or.inr ⟨?_, Or.inr ⟨rfl, fit⟩⟩⟩⟩⟩⟩
      rw [key]; exact hs

def wPort : State := { wK id with bootStep := 5 }
/-- A second partition of the port's machine is formed over slices 1 and 9. -/
def wFree : State := { wPort with slices := wPort.slices ++ [(1, {}), (9, {})] }
theorem witness_PartitionCommands_create : fromPort wFree pcmd ∧ calm wFree ∧ tget wFree.parts 3 = none ∧ (∀ k, k ∈ [1, 9] ↔ inRect 1 0 1 1 k) ∧ (∀ k ∈ [1, 9], canTake wFree k ∧ (tget wFree.slices k).isSome) ∧
    goodMap [1, 9] ((upto 256).map fun e => if e % 2 = 0 then 129 else 137) ∧ inRect 0 0 7 1 5 := by
  refine ⟨⟨rfl, by decide +kernel⟩, ?_, by decide +kernel, fun k => ?_, ?_, ⟨by decide +kernel, by decide +kernel, by decide +kernel⟩, by unfold inRect; decide⟩
  · unfold calm
    decide +kernel
  · unfold inRect
    simp only [List.mem_cons, List.not_mem_nil, or_false]
    omega
  · unfold canTake
    decide +kernel
def wForm (x : PState) : State := { wK (fun p => { p with st := x }) with bootStep := 5, blocks := [] }
theorem witness_PartitionCommands_states : stackWf (wForm .forming) ∧ (∀ x ∈ [PState.forming, .destroying], (tget (wForm x).parts 0).map (fun p => (p.st, p.slices)) = some (x, [0])) ∧ ((wForm .forming).slice 0).inReset = false ∧
    (wForm .destroying).reqs = [] ∧ (wForm .destroying).reports = [] ∧ (wForm .destroying).launches = [] ∧ (wForm .destroying).jobs = [] ∧ ((wForm .forming).parts.map Prod.fst).Nodup ∧ ¬calm (wForm .forming) := by
  refine ⟨by unfold stackWf; decide +kernel, by decide +kernel, by decide +kernel, by decide +kernel, by decide +kernel, by decide +kernel, by decide +kernel, by decide +kernel, fun h => ?_⟩
  have k : ∃ e ∈ (wForm .forming).parts, e.2.st = .forming := by decide +kernel
  obtain ⟨e, m, q⟩ := k
  rcases h e m with h | h <;> rw [q] at h <;> cases h
theorem witness_PartitionCommands_regs : fromPort wPort pcmd ∧ 0 ∈ wPort.part.slices ∧ (wPort.sreg 0 0x50).isSome ∧ wPort.sreg 0 0x90 = none ∧ 16 ∉ wPort.part.slices ∧ cwf 0 (wPort.slice 0).gft ∧ canonical 0x8000 ∧
    (0x8000 : Nat) % 4096 = 0 ∧ (2 ^ 20 : Nat) % 2 ^ 20 = 0 := ⟨⟨rfl, by decide +kernel⟩, by decide +kernel⟩
theorem witness_PartitionCommands_queue : hdrIs (wQs .mapped (hdrAt 3 2 2) none) (fun q => q.any fun q => decide (q.head = q.done ∧ q.head ≤ q.tail ∧ q.tail - q.head ≤ 2 ^ q.lg)) ∧
    tget { wMap with queues := [] }.queues (queueKey 0 9) = none := by decide +kernel

def rz (add : Bool) (n : Nat) : Resize := { add := add, slice := 1, drain := 10, gused := 4, map := List.replicate 256 128, cmd := pcmd, step := n }
/-- A partition of slices 0 and 1, interleaved by 2 MiB granule, of which slice 1 leaves, with a resize at a step. -/
def wRz (n : Nat) (f : Resize → Resize) : State :=
  { wK (fun p => { p with st := .resizing, slices := [0, 1], map := (upto 256).map fun e => 128 + e % 2, resize := some (f (rz false n)) }) with
    slices := [(0, { inReset := false }), (1, { inReset := false })], blocks := [], bootStep := 5 }
def atS (n : Nat) (f : Resize → Resize) : Prop := ∃ p, atStep (wRz n f) 0 p (f (rz false n)) n
theorem at_step (n : Nat) (f : Resize → Resize) (hs : (f (rz false n)).step = n) : atS n f := by
  refine ⟨_, rfl, rfl, hs, ?_⟩
  have : ∀ k ∈ [0, 1], ((wRz n f).slice k).inReset = false := by
    intro k hk
    simp only [List.mem_cons, List.not_mem_nil, or_false] at hk
    rcases hk with rfl | rfl <;> rfl
  exact this
theorem witness_ResizesAndResets_steps : (∀ n ∈ [1, 2, 3, 4, 5, 6], atS n id) ∧ atS 3 (fun r => { r with copying := some (2, false), moves := [2] }) ∧ (wRz 0 id).now < (rz false 0).since + 100000000 :=
  ⟨fun n _ => at_step n id rfl, at_step 3 _ rfl, by decide⟩
theorem witness_ResizesAndResets_status : (wPort.resizeStatus 0 1 true 0 0 none) ≠ 2 ∧ calm wPort ∧ (∀ j ∈ wPort.jobs, j.1 / 4 ≠ 0) ∧ (wForm .forming).resizeStatus 0 1 true 0 0 none = 2 ∧
    { wFree with parts := wPort.parts }.resizeStatus 0 1 true 0 0 none = 0 ∧ wPort.resizeStatus 0 0 false 0 0 none = 6 := by
  refine ⟨by decide +kernel, by unfold calm; decide +kernel, by decide +kernel, by decide +kernel, by decide +kernel, by decide +kernel⟩
theorem witness_ResizesAndResets_moves : homePlace ((upto 256).map fun e => 128 + e % 2) 3 = some (1, 2 ^ 21) ∧ homePlace (List.replicate 256 128) 3 = some (0, 3 * 2 ^ 21) ∧
    { rz false 3 with moves := [1, 2, 3] }.pick ((upto 256).map fun e => 128 + e % 2) = some (3, false) ∧ (wRz 3 id).errs = [] ∧ stackWf (wRz 3 id) ∧ cell 1 (2 ^ 21) ≠ cell 0 (3 * 2 ^ 21) := by
  unfold stackWf
  decide +kernel
/-- Two granules that change places need the staging granule. -/
theorem witness_ResizesAndResets_staging : { rz false 3 with map := (upto 256).map fun e => 128 + (e + 1) % 2, moves := [0, 1] }.pick ((upto 256).map fun e => 128 + e % 2) = some (1, true) := by decide +kernel
theorem witness_ResizesAndResets_reset : tget wPort.slices 0 = some (wPort.slice 0) ∧ (wPort.slice 0).inReset = false ∧ 4 ≤ wPort.bootStep ∧ (wPort.fwOf 0).excl = false ∧ (∀ p, wPort.ownerPart 0 = some p → p.2.resize = none) ∧
    wPort.reqs = [] ∧ wPort.reports = [] ∧ wPort.jobs = [] ∧ wPort.sprog = [] ∧ (wPort.blocks.map Prod.fst).Nodup ∧ (wPort.launches.map Prod.fst).Nodup ∧
    (∀ j, j < 4 → (wPort.prog 0 j).active = false) ∧ (wBoot 4 []).slices.length = 0 ∧ (∀ e ∈ wPort.rcvs, e.2.pid ≠ 0) := by
  refine ⟨by decide +kernel, by decide +kernel, by decide +kernel, by decide +kernel, fun p h => ?_, by decide +kernel⟩
  have k : (wPort.ownerPart 0).all (fun p => p.2.resize.isNone) = true := by decide +kernel
  rw [h] at k
  simpa using k

/-! ### Witnesses: host harts -/

def wHart : State := { wK id with fw := [(0, { asgn := true, hold := false })], harts := [(3, { run := true })] }
def acc0 (op : HartOp) : HartAcc := { slice := 0, hart := 3, op := op, va := 0x8000, size := 8, data := 7 }
theorem witness_HostHartAccesses_runs : ∃ p, hartRuns wHart (acc0 .load) 0 p := by
  have h : (wHart.ownerPart 0).any (fun p => p.1 == 0 && p.2.st == .running && p.2.down == []) = true := by decide +kernel
  cases hp : wHart.ownerPart 0 with
  | none => rw [hp] at h; cases h
  | some p =>
    rw [hp] at h
    simp only [Option.any_some, Bool.and_eq_true, beq_iff_eq] at h
    refine ⟨p.2, ?_, by decide, by decide +kernel, by decide +kernel, Or.inr (Or.inl h.1.2), ?_⟩
    · show wHart.ownerPart 0 = _
      rw [hp, ← h.1.1]
    · rw [h.2]
      exact List.not_mem_nil
def hartAt (op : HartOp) (g : State → HPlace → Bool) : Bool := match wHart.hartReach 0 (acc0 op) 0x8000 with
  | (u, .ok x) => g (u.touch x.home 0 x.vd x.tag x.gran x.sla { op := match op with
      | .store => 1
      | .amo _ => 2
      | _ => 0 }) x
  | _ => false
theorem witness_HostHartAccesses_reach : (∀ op ∈ [HartOp.fetch, .load, .store, .amo (.int .add .b64)], hartAt op fun v x => match v.homeRead x.home x.sla 8 x.key with
      | (w, some b) => decide (b = List.replicate 8 0) && (w.homeWrite x.home x.sla x.key (toBytes 8 7)).2
      | _ => false) ∧
    (match (wHart.hartReach 0 { acc0 .load with va := 2 ^ 50 } (2 ^ 50)).2 with
      | .error f => f == .access
      | _ => false) = true ∧ (wHart.hart (acc0 .load)).mode = .m ∧ wMap.ownerPart 5 = none ∧ (0x8000 : Nat) % 8 = 0 ∧ (0x8001 : Nat) % 8 ≠ 0 := by decide +kernel

/-! ### Witnesses: the trace engine's events -/

/-- `wMap` whose slice belongs to partition 0, with trace registers and the trace entry and counter sets of its VD. -/
def wT (f : Slice → Slice) : State := { (wMap.modSlice 0 fun k => f { k with trc := [(0, {})] }) with fw := [(0, { asgn := true, hold := false })] }
/-- A trace entry of MODE 5 for VD 2, at 0x40 of the table at 0x9000. -/
def entT (mode cset : Nat) : State := withMem [(0x9040, 32, 0x6000 + mode * 2 ^ 64 + cset * 2 ^ 72)] (wT fun k => { k with trcTab := 0x9000 })
theorem witness_TraceEvents_entry : (∀ c ∈ [3, 70, 255], ((entT 5 c).paRead 0 (0x9000 + 32 * 2) 32).2.any fun b => decide (b.length = 32 ∧ fieldAt b 8 1 = 5 ∧ fieldAt b 9 1 = c ∧ fieldAt b 10 6 = 0)) ∧ (entT 5 3).pidOf 0 = some 0 ∧ ((entT 5 3).slice 0).trcTab ≠ 0 ∧ (∀ e ∈ ((entT 5 3).slice 0).csets, e.2.vd ≠ some 2) ∧ ((wT id).slice 0).trcTab = 0 ∧ wMap.pidOf 5 = none := by decide +kernel
def wStop (st : Option Nat) : State := { wT id with quarters := [(0, { stop := st, act := some (0, 0) :: List.replicate 7 none })] }
theorem witness_TraceEvents_quarter : inQuarter (wStop none) 0 (ex (wStop none)).b (ex (wStop none)).g ∧ (ex (wStop none)).b.vd = 0 ∧ ((wStop none).quarter 0).stop = none ∧ ((wStop (some 0)).quarter 0).stop.isSome ∧
    (∀ b g, ¬(inQuarter (wStop none) 1 b g ∧ b.vd = 0)) ∧ ((wStop (some 0)).quarter 0).dumped = false ∧ tget ((wStop none).slice 0).trc 0 = some {} := by
  refine ⟨⟨by decide +kernel, by decide +kernel, by decide +kernel, by decide +kernel, by decide +kernel, by decide +kernel⟩, by decide +kernel, by decide +kernel, by decide +kernel, fun b g h => ?_, by decide +kernel, by decide +kernel⟩
  obtain ⟨⟨⟨e, m, rfl⟩, _, _, hg, q, _⟩, _⟩ := h
  have k : ∀ e ∈ (wStop none).blocks, ∀ g ∈ e.2.groups, g.quarter = 0 := by decide +kernel
  exact absurd ((k e m g hg).symm.trans q) (by decide)
def trcOn : Nat := 1 + 16 * 2 ^ 48
/-- A machine 100 µs old whose quarter is due a sample, with the ring at 0x6000. -/
def wSamp (e : TrcEnt) : State := { (withMem [(0x6000, 64, ring 0 3)] (wStop (some 0))).modSlice 0 (fun k => { k with trcCtl := trcOn, trc := [(0, e)] }) with now := 100000 }
def sampOk (s : State) : Bool :=
  let u := { s with quarters := tput s.quarters 0 { s.quarter 0 with sampAt := s.now, sptr := 0 } }
  match u.vaRead 0 0 0 0x6000 64 with
  | (v, .ok h) => decide (4 ≤ fieldAt h 0 4 ∧ fieldAt h 0 4 ≤ 16) && (h.drop 24).all (· == 0) && decide (fieldAt h 16 8 - fieldAt h 8 8 < 2 ^ fieldAt h 0 4) &&
    (match v.vaWrite 0 0 0 (0x6000 + 64 + 16 * (fieldAt h 16 8 % 2 ^ fieldAt h 0 4)) (sampleBytes s.now 0 21 0 0 0 0 0 false) with
     | (w, none) => (w.vaWrite 0 0 0 0x6010 (toBytes 8 (fieldAt h 16 8 + 1))).2.isNone
     | _ => false)
  | _ => false
theorem witness_TraceEvents_sample : sampOk (wSamp { ring := 0x6000, sen := true }) ∧ ((wSamp {}).slice 0).trcCtl % 2 = 1 ∧ 16 ≤ ((wSamp {}).slice 0).trcCtl / 2 ^ 48 ∧
    ((wSamp {}).slice 0).trcCtl / 2 ^ 48 * 1000 ≤ ((wSamp {}).now - ((wSamp {}).quarter 0).sampAt) * (700 + 25 * ((wSamp {}).slice 0).k) ∧ (wSamp {}).blocks.length = 1 ∧
    (wSamp {}).quarterOpen (ex (wSamp {})).b (ex (wSamp {})).g = false ∧ (wT id).quarterOpen (ex (wT id)).b (ex (wT id)).g ∧ ((wT id).slice 0).trcCtl % 2 = 0 ∧ (ex (wSamp {})).g.slot < 24 := by decide +kernel
def wStream (head tail : Nat) : State := withMem [(0x6000, 64, ring head tail)] ({ (wT fun k => { k with trc := [(0, { rstream := 0x6000, recm := true })] }) with blocks := (wt fun t => { t with st := .longWait .recRoom }).blocks.map fun e => (e.1, { e.2 with vd := 0 }) })
def streamAt (head tail : Nat) : Bool := match (wStream head tail).rsHeader 0 0 0 0x6000 with
  | (u, some (lg, h, t)) => decide (lg = 4 ∧ h = head ∧ t = tail ∧ tget u.blocks 0 = tget (wStream head tail).blocks 0)
  | _ => false
theorem witness_TraceEvents_stream : streamAt 0 14 ∧ streamAt 0 15 ∧ ((ex (wStream 0 14)).g.til 0).st = .longWait .recRoom ∧ 2 ^ 4 < 15 + 2 - 0 ∧ 14 + 2 - 0 ≤ 2 ^ 4 := by decide +kernel
def set0 : CtrSet := { vd := some 0, sel := events8, ctr := [5, 6, 7, 8, 9, 10, 11, 2 ^ 64 - 1], svalid := 2 }
def wSet : State := withMem [(0x6000, 160, 2 ^ 64 - 1)] (wT fun k => { k with csets := [(4, set0)], trcAddr := 0x6000 })
theorem witness_TraceEvents_counters : boundSet wSet 0 0 4 set0 ∧ set0.svalid.testBit 1 ∧ set0.svalid.testBit 0 = false ∧ set0.ctr.length = 8 ∧ set0.sel.length = 8 ∧ set0.shd.length = 8 ∧ wSet.pidOf 0 = some 0 ∧
    (wT id).setOf 0 0 = none ∧ (wSet.slice 0).inReset = false := by
  unfold boundSet traced
  refine ⟨⟨by decide +kernel, by decide +kernel, by decide +kernel, by decide +kernel⟩, by decide +kernel⟩
theorem witness_TraceEvents_restore : (match wSet.vaRead 0 0 0 ((wSet.slice 0).trcAddr / 32 * 32) 160 with
      | (u, .ok d) => decide (u.setOf 0 0 = some (4, set0)) && (tget u.slices 0).isSome && decide (fieldAt d 0 8 = 2 ^ 64 - 1)
      | _ => false) = true := by decide +kernel

/-! ### Witnesses: the power controller -/

theorem witness_PowerEvents_slices : (tget w0.slices 0).isSome ∧ (w0.slice 0).inReset = false ∧ (w0.slice 0).winEnd ≤ { w0 with now := 2000000 }.now ∧ (w0.slice 0).thermAt ≤ { w0 with now := 20000 }.now ∧
    (∀ x ∈ [(2, 0), (4, 0)], let s := { wR id (fun k => { k with alarm := true, passc := x.1 }) with now := 20000 }
      (s.slice 0).alarm ∧ (s.slice 0).passc = x.1 ∧ (s.slice 0).alarmAt + 10000 ≤ s.now) ∧ (w0.slice 0).alarm = false ∧ (w0.slice 0).passc = 1 ∧
    (let s := { wR id (fun k => { k with passc := 4 }) with now := 60000 }; (s.slice 0).alarm = false ∧ (s.slice 0).passc ≠ 1 ∧ (s.slice 0).calmAt + 50000 ≤ s.now) ∧ ((wR id fun k => { k with falling := true }).slice 0).falling := by decide +kernel
/-- The rail of column 0 of a 16-slice part at a level, and the slices 0 and 8 with votes of 40 and 20 in a partition. -/
def wRail (a level : Nat) (st : Option Nat) : State :=
  { w0 with slices := [(0, { vote := a, k := a, inReset := false }), (8, { vote := 20, k := 20, inReset := false })], fw := [(0, { asgn := true }), (8, { asgn := true })], rails := [(0, { level := level, settle := st })] }
theorem witness_PowerEvents_rails : highestVote (wRail 40 0 none) 0 40 ∧ highestVote (wRail 12 40 (some 20000)) 0 20 ∧ ((wRail 40 0 none).rail 0).level < 40 ∧ 20 < ((wRail 12 40 none).rail 0).level ∧
    ((wRail 12 40 none).rail 0).settle = none ∧ (∀ e ∈ (wRail 12 40 none).slices, e.2.k ≤ e.2.vote ∧ e.2.rising = false) ∧ ((wRail 12 40 (some 20000)).rail 0).settle = some 20000 := by
  refine ⟨⟨by decide +kernel, Or.inr ⟨0, by decide +kernel⟩⟩, ⟨by decide +kernel, Or.inr ⟨8, by decide +kernel⟩⟩, by decide +kernel⟩

/-! ### Witnesses: encoding, the step -/

theorem witness_DecodeEncodeRoundTrip : isEvent (.nop hd0) = false ∧ (Instr.nop hd0).wf = true ∧ isEvent (.mma (mmaOp on)) = false := by decide +kernel
theorem witness_EncodingIsUnique : (∀ w ∈ [0x0003C001, 0, 7], w < 2 ^ 32) ∧ decodeWords [0x0003C001, 0, 7] = .ok (.nop hd0, 2) := by decide +kernel
theorem witness_SelectionInRotation : (0, { b := 0, g := 0, t := 0 }) ∈ (State.reset.placed 0x0003C001).tilPool 0 State.tilReady ∧ (((State.reset.placed 0x0003C001).quarter 0).act.filterMap id).Nodup := by decide +kernel
/-- A NOP, a word of length code 1 with format 0, and an event. -/
def wStep (w : Nat) : State := State.reset.placed w
theorem witness_StepRunsDecodedInstruction : (∀ w ∈ [0x0003C001, 4], (wStep w).powered ∧ (wStep w).agenda.head? = some (0, .issue 0) ∧ (match { wStep w with agenda := (wStep w).agenda.tail }.select 0 with
      | some t => t.load.any fun x => x.able && (t.icFind x.b.slice x.b.core x.b.vd x.t.pc).any fun e => (match decodeWords (e.words.drop (x.t.pc % 32 / 4)) with
        | .ok (i, n) => decide (w = 0x0003C001 ∧ i = .nop hd0 ∧ n = 2)
        | .error n => decide (w = 4 ∧ n = 1))
      | none => false) = true) ∧ isEvent .inputBrownout = true ∧ ({ w0 with blocks := [] }.select 0).isNone := by decide +kernel
theorem witness_MemoryKeepsForm : State.reset.mem.wf = true ∧ (wMap.mem.wf = true) := by decide +kernel
/-- A step from reset with an instruction placed gives a next state, from which memory keeps its form. -/
theorem witness_MemoryKeepsForm_step : (match step (wStep 0x0003C001) with
    | .next t => t.mem.wf
    | _ => false) = true := by decide +kernel

/-! ### Decoding: words written out from the spec's encodings -/

/-- The spec's worked example words of a family, each with the instruction it stands for. -/
def decodes (l : List (List Nat × Instr)) : Bool := l.all fun e => decide (decodeWords e.1 = .ok (e.2, e.1.length))
def lay0 : Layout := ⟨0, 0, 0, 2⟩
theorem test_decode_sequencer : decodes [([0], .pad), ([0x0003C001, 0], .nop hd0), ([0x1023C041, 0], .setfmt hd0 none (.named .e5m2 .ieee)), ([0x08008006, 0, 0xFFFFD000], .bra (hdP 2 false) .any (BitVec.ofInt 22 (-12))),
    ([0x0003C019, 0], .join 0), ([0x0003C031, 0x80000000], .bar 0 0 false (.imm 0)), ([0x3803C031, 0x80000000], .bar 0 3 true (.imm 0))] := by decide +kernel
theorem test_decode_scalar : decodes [([0x001BC051, 0x80101405], .sadd { h := hd0, ty := .i64, sat := false, d := 5, a := 5, b := .imm (.i10 1) })] := by decide +kernel
theorem test_decode_vector : decodes [([0x0083C176, 0x00601404, 7], .ffma { h := hd0, ty := .f32, rnd := .rne, sat := false, d := 4, a := .reg 5, b := .reg 6, c := 7 }),
    ([0x0414C101, 0xFF9A0C0A], .iadd { h := hdP 3 true, ty := .i32, sat := true, d := 10, a := .ind 3 5, b := .imm (.i10 (BitVec.ofInt 10 (-7))) }),
    ([0x0443C152, 0x02900C14, 0x14], .pdot2 { h := hd0, ty := .i16x2, sat := true, d := 20, a := .reg 3, b := .reg 41, c := 20 }),
    ([0x0043C1BF, 0x80000001, 0x400, 0], .slideImm hd0 .i16x2 false 1 (.reg 0) 0 (.imm 1))] := by decide +kernel
theorem test_decode_memory : decodes [([0x004BC242, 0x00002004, 0x00010000], .ld { h := hd0, ty := .b32, hint := .none, ord := none, r := 4, a := 8, off := 0x40 }),
    ([0x09B3C26E, 0x00702806, 0], .atom { h := hd0, op := .int .add .n32, sem := some (.rel, .prt), d := 6, a := .reg 10, off := 0 } 7), ([0x0E03C281, 0], .fence hd0 .sc .sys)] := by decide +kernel
theorem test_decode_copy : decodes [([0x4003C2C3, 0x01605414, 0x00040017, 0x16C], .cpy { h := hd0, arv := some 0x100, d := 20, a := 21, b := 22 } 23 false .g2l .none ⟨1, 3, 3, 0⟩),
    ([0x0003CAD1, 0x80100000], .cwait { hd0 with look := 2 } false (.imm 1))] := by decide +kernel
theorem test_decode_matrix : decodes [([0x191BC303, 0x01505001, 0xC00, 0], .mma { h := hd0, fa := .e4m3, fb := .e4m3, zacc := true, spb := false, d := 1, a := 20, b := 21, stream := 3, asc := none, bsc := none })] := by decide +kernel
theorem test_decode_shaping : decodes [([0x0003C34E, 0x00004000, 0], .qresSt hd0 0 16 0), ([0x4003C359, 0x80000000], .qwait hd0 (.all 0) (.imm 0))] := by decide +kernel
theorem test_decode_launch : decodes [([0x0003C362, 0x01605414, 0], .launch hd0 20 21 22 0), ([0x0803C365, 0x00001400], .cancel hd0 .graph false 5), ([0x0003C36E, 0x80001800, 0xC00], .ctrwait hd0 6 (.imm 3)),
    ([0x0003C372, 0, 0x00040000], .fbpt 0 0x100)] := by decide +kernel
theorem test_decode_network : decodes [([0x0003C2E3, 0x01803817, 0x14, 0x100], .rcpy { h := hd0, arv := none, d := 23, a := 14, b := 24 } 20 false .none 256),
    ([0x800BC2EB, 0x01A0641B, 0x14, 0], .rflag hd0 (some 25) false true 27 (.reg 26) 20 0)] := by decide +kernel
theorem test_decode_trace : decodes [([0x0003C376, 0x00001400, 0x00001C00], .tmark hd0 5 7), ([0x0003C37D, 0], .tctl hd0 .son), ([0x0803C379, 0x80200006], .pmcrd hd0 .lo 6 (.imm 2))] := by decide +kernel
/-- One word sequence for each check of R51 that the decoder makes. -/
theorem test_decode_refuses : ([[4, 0], [0x0003C001], [0x0003C3FD, 0], [0x0003C005, 0], [0x03A3C176, 0x601404, 7], [0x0007C001, 0], [0x0003C001, 1], [0x001BC051, 0x00101485]].map decodeWords) =
    [.error 1, .error 2, .error 3, .error 4, .error 5, .error 6, .error 7, .error 7] := by decide +kernel
/-- The table's numbering: word 0 is bits 31 to 0. -/
theorem test_decodeTableWord : decodeTableWord 64 0x80101405001BC051 = some (.sadd { h := hd0, ty := .i64, sat := false, d := 5, a := 5, b := .imm (.i10 1) }) ∧ decodeTableWord 32 0 = some .pad ∧
    decodeTableWord 64 0x13C001 = none := by decide +kernel
/-- The step after `withFetchWord` runs the instruction: scalar 5 is to become 1. -/
theorem test_withFetchWord : (match step (State.reset.withFetchWord 64 0x80101405001BC051) with
    | .next t => (tget t.blocks 0).any fun b => b.groups.any fun g => g.pend.any fun e => e.2.wr == [.s 5 1]
    | _ => false) = true := by decide +kernel
theorem test_encode_ffma : encode (.ffma { h := hd0, ty := .f32, rnd := .rne, sat := false, d := 4, a := .reg 5, b := .reg 6, c := 7 }) = [0x0083C176, 0x00601404, 7] := by decide +kernel

/-! ### Ill-formed terms, which the checks refuse -/

def none15 : Hd := { pred := 15, neg := true, look := 0 }
def badTypes : List Instr :=
  [.sadd { sop on with ty := .b32 }, .smulh { sop on with sat := true }, .sand { sop on with ty := .i16 }, .ssra { sop on with ty := .n32 }, .smov on .i8 1 (.reg 2), .sbit on .i32 .clz 1 2, .sget on .b64 1 (.reg 2) (.reg 3),
   .iadd { vop on with ty := .b32 }, .imulh { vop on with ty := .i8 }, .and { vop on with ty := .i32 }, .shr { vop on with ty := .i32 }, .sra { vop on with ty := .n32 }, .iabs on .n32 false 1 (.reg 2), .icmp on .i16x2 .lt 1 (.reg 2) (.reg 3),
   .sel 1 { vop on with ty := .i32 }, .bit on .i32 .clz 1 (.reg 2), .mov on .i32 1 .lane, .padd (vop on), .fadd { fop on with ty := .e4m3 }, .fmin { fop on with rnd := .rne }, .frnd { fun1 on with sat := true }, .fcmp on .ln6 .lt 1 (.reg 2) (.reg 3),
   .cvtfi on .b32 .f32 .rtz 1 (.reg 2), .cvti on .i8 .b32 true 1 (.reg 2), .xlane on .i32 .hi false 1 (.reg 2) (.reg 3), .bcast on .i32 1 (.reg 2) (.reg 3), .vmatch on .n32 1 (.reg 2), .vred on (.int .add .i8) 1 (.reg 2),
   .vred on (.flt .fadd .rs) 1 (.reg 2), .vred on (.flt .fmin .rne) 1 (.reg 2), .sld { mop on 1 2 with ty := .i16x2 }, .atom (aop on (.int .add .b32)) 4, .atom (aop on (.int .inc .i32)) 4, .atom (aop on (.int .exch .i8)) 4,
   .cas { cop on with ty := .i8 }, .ratom on .add none .b32 1 2 (.imm 0) 3 0, .ratom on .fset none .i32 1 2 (.imm 0) 3 0, .setfmt on none (.named .f32 .ieee), .ardv on .e4m3 .dflt false 1 0 3 2, .awrv on .ln6 0 3 1 2]
theorem test_wf_types : badTypes.all fun i => !i.wf := by decide +kernel
def badValues : List Instr :=
  [.bar 0 0 false (.imm 33), .bar 0 0 false (.imm (-1)), .sbfx on .i64 1 2 60 5, .sbfx on .i64 1 2 0 0, .sbfx on .i32 1 2 0 1, .bfx on .i32 false 1 (.reg 2) 31 2, .plog on .not 1 2 3, .plog on .mov 1 2 3, .plog on .set 1 2 0,
   .imad { vop3 on with b := .imm (.i10 1) }, .ffma { h := on, ty := .f32, rnd := .rne, sat := false, d := 1, a := .reg 2, b := .imm (.i10 1), c := 4 }, .slideImm on .b32 true 1 (.reg 2) 0 (.imm 33), .slideImm on .i16x2 true 1 (.reg 2) 0 (.imm 65),
   .slide on .i32 true 1 (.reg 2) 0 (.imm 1), .cvt on .f32 .f16 true .dflt false 1 (.reg 2), .cwait on false (.imm (-1)), .cwaitImm22 on false (-1), .cpy (cpo on none) 7 false .g2l .none ⟨1, 0, 0, 2⟩, .cgath (cpo on none) 7 false .none ⟨0, 1, 0, 2⟩,
   .aalloc on (.imm (-1)), .afree on (.imm (-1)), .mwait on (.one 0) (.imm (-1)), .qwait on (.one 0) (.imm (-1)), .ardv on .f16 .dflt false 1 0 3 0, .ardv on .f16 .dflt false 1 0 3 33, .ardv on .f32 .rne false 1 0 3 2,
   .awrv on .f16 0 3 1 0, .mcfg on (.fmt ⟨0, 0, 1, 2⟩), .qst { qo on with col0 := 250 }, .cancel on .launch true 3]
theorem test_wf_values : badValues.all fun i => !i.wf := by decide +kernel
/-- R413: a negative number names no counter, and reads as one that is not there. -/
theorem test_wf_counter : (Instr.pmcrd on .full 1 (.imm (-1))).wf := by decide +kernel
theorem test_wf_local : [Instr.ldl { mop on 1 2 with hint := .nt }, .stl { mop on 1 2 with ord := some .slc }, .lgath { mopV on with ord := some .sys }, .lscat { mopV on with hint := .nt },
    .atoml { aop on (.int .add .n32) with sem := some (.acq, .prt) } 4, .casl { cop on with sem := some (.rel, .sys) }].all (fun i => !i.wf) := by decide +kernel
/-- PRED 15 with PNEG 1 is reserved in every instruction that has a guard. -/
theorem test_wf_guard : ([Instr.nop none15, .bra none15 .any 0, .sadd (sop none15), .iadd (vop none15), .fadd (fop none15), .ldl (mop none15 1 2), .atom (aop none15 (.int .add .n32)) 4, .cas (cop none15), .mma (mmaOp none15), .qst (qo none15),
    .vqst (vo none15), cpa none15] ++ scalars none15 ++ vectors none15 ++ fields2 none15 ++ crossLane none15 ++ floats none15 ++ converts none15 ++ mats none15 ++ shapes none15 ++ rems none15 ++ ctrs none15).all (fun i => !i.wf) := by decide +kernel
theorem test_wf_good : (scalars on ++ vectors on ++ fields2 on ++ crossLane on ++ floats on ++ converts on ++ mats on ++ shapes on ++ rems on ++ ctrs on).all (fun i => i.wf) := by decide +kernel

/-! ### Values that the spec's tables and worked examples give -/

/-- What an instruction posts: its writes and its flags. -/
def posts (s : State) (i : Instr) : Option (List Wr × Nat) := match exec i s with
  | .next t => ((ex t).g.pend.head?).map fun e => (e.2.wr, e.2.fl)
  | _ => none
/-- Lane 0 of what a vector instruction writes first, and its flags. -/
def lane0 (s : State) (i : Instr) : Option (Word × Nat) := (posts s i).bind fun r => r.1.findSome? fun w => match w with
  | .v _ 0 x => some (x, r.2)
  | _ => none
/-- Scalars 2 and 3, or lane 0 of vector registers 2 and 3, hold two values. -/
def sPair (a b : Nat) : State := wg fun g => (g.sset 2 (BitVec.ofNat 64 a)).sset 3 (BitVec.ofNat 64 b)
def vAt (a b : Nat) : State := wg fun g => { g with v := cset 0 (cset 0 g.v (2 * 32) (BitVec.ofNat 32 a)) (3 * 32) (BitVec.ofNat 32 b) }
/-- The flag register's saturated, overflow and inexact bits. -/
def fl (sat ovf inx : Bool) : Nat := (if sat then 1 else 0) + (if ovf then 2 else 0) + (if inx then 4 else 0)
def so (ty : IType) (sat : Bool) : SOp := { sop on with ty := ty, sat := sat }
/-- R112: the quotient of the least number by −1, saturated or wrapped. -/
theorem test_sdiv : posts (sPair 0x80000000 0xFFFFFFFF) (.sdiv (so .i32 false)) = some ([.s 1 0xFFFFFFFF80000000], 0) ∧
    posts (sPair 0x80000000 0xFFFFFFFF) (.sdiv (so .i32 true)) = some ([.s 1 0x7FFFFFFF], fl true false false) := by decide +kernel
theorem test_srem : posts (sPair 0x80000000 0xFFFFFFFF) (.srem (so .i32 false)) = some ([.s 1 0], 0) := by decide +kernel
/-- R160: 100 + 50 at 8 bits. -/
theorem test_iadd : lane0 (vAt 100 50) (.iadd { vop on with ty := .i8, sat := true }) = some (127, fl true false false) ∧ lane0 (vAt 100 50) (.iadd { vop on with ty := .i8 }) = some (0xFFFFFF96, 0) := by decide +kernel
theorem test_iabs : lane0 (vAt 0x80000000 0) (.iabs on .i32 true 1 (.reg 2)) = some (0x7FFFFFFF, fl true false false) ∧ lane0 (vAt 0x80000000 0) (.iabs on .i32 false 1 (.reg 2)) = some (0x80000000, 0) := by decide +kernel
/-- R161: a rounded shift of 0x7FFF_FFFF by 16. -/
theorem test_rshr : lane0 (vAt 0x7FFFFFFF 16) (.rshr .rne { vop on with ty := .i32 }) = some (32768, fl false false true) := by decide +kernel
/-- R165: 40,000 and −3 packed. -/
theorem test_pack : lane0 (vAt 40000 0xFFFFFFFD) (.pack on true 1 (.reg 2) (.reg 3)) = some (0xFFFD7FFF, fl true false false) := by decide +kernel
/-- R169: 65,504 + 16 at FP16 overflows under RNE. -/
theorem test_fadd : lane0 (vAt 0x7BFF 0x4C00) (.fadd (fop on)) = some (0x7C00, fl false true true) ∧ lane0 (vAt 0x7BFF 0x4C00) (.fadd { fop on with sat := true }) = some (0x7BFF, fl true false true) := by decide +kernel
/-- The NaN-only reading is in force. -/
def nanRead (s : State) : State := s.modGroup 0 0 fun g => { g with tillers := g.tillers.map fun t => { t with fmt := 0x13 } }
/-- R172: 3.3125 and 1,000.0 to E4M3. -/
theorem test_cvt : lane0 (nanRead (vAt 0x40540000 0)) (.cvt on .e4m3 .f32 false .rne false 1 (.reg 2)) = some (0x45, fl false false true) := by decide +kernel
theorem test_cvt_overflow : lane0 (nanRead (vAt 0x447A0000 0)) (.cvt on .e4m3 .f32 false .rne false 1 (.reg 2)) = some (0x80, fl false true true) ∧
    lane0 (nanRead (vAt 0x447A0000 0)) (.cvt on .e4m3 .f32 false .rne true 1 (.reg 2)) = some (0x7F, fl true false true) := by decide +kernel
/-- What a vector instruction writes in a lane. -/
def laneOf (l : Nat) (s : State) (i : Instr) : Option Word := (posts s i).bind fun r => r.1.findSome? fun w => match w with
  | .v _ k x => if k = l then some x else none
  | _ => none
def lanes31 (x : Nat) : State := wg fun g => g.vset 2 31 (BitVec.ofNat 32 x)
/-- R173: `xlane.hi` by 1 at lane 31, without and with `.keep`. -/
theorem test_xlane : laneOf 31 (lanes31 9) (.xlane on .b32 .hi false 1 (.reg 2) (.imm (.i10 1))) = some 0 ∧ laneOf 31 (lanes31 9) (.xlane on .b32 .hi true 1 (.reg 2) (.imm (.i10 1))) = some 9 := by decide +kernel
/-- R178: lanes 0 to 3 hold 1, 1, 0, 1. -/
def wPoll : State := (wt fun t => { t with mask := 15 }).modGroup 0 0 fun g => g.pset 2 0xB
def pbit (s : State) (i : Instr) : Option (List (Nat × Bool)) := (posts s i).map fun r => r.1.filterMap fun w => match w with
  | .p 1 k x => some (k, x)
  | _ => none
theorem test_poll : pbit wPoll (.poll on .odd 1 2) = some [(0, true), (1, true), (2, true), (3, true)] ∧ pbit wPoll (.poll on .every 1 2) = some [(0, false), (1, false), (2, false), (3, false)] := by decide +kernel
/-- R98: two arrivals at a target of 2, and an object that is no barrier. -/
theorem test_arrive : arriveObj 2 1 = some (0x10002, 0) ∧ arriveObj 0x10002 1 = some (0x100000002, 0) ∧ arriveObj 0 1 = none ∧ arriveObj 0x20002 1 = none := by decide +kernel
/-- R190: byte (9, 37) of a 128 × 128 region in rotated tiles of 8 rows. -/
theorem test_layout : layAddr 0 9 37 128 128 0 ⟨1, 3, 3, 0⟩ = 1205 := by decide +kernel
/-- R319: the home of 0xA0_1080 under a map of two slices. -/
theorem test_home : homeOf ((upto 256).map fun e => 128 + e % 2) 0xA01080 = some (1, 0x401080) := by decide +kernel
/-- R279: ten blocks in grains of two over three slices. -/
theorem test_distribution : (upto 10).map (ownerOf [0, 1, 2] 2) = [0, 0, 1, 1, 2, 2, 0, 0, 1, 1] := by decide +kernel
/-- R374: FW_CTL of a slice that partition 0 owns, and of a freed one. -/
theorem test_fwctl : ({ asgn := true, hold := false } : FwCtl).word = 0x80000000 ∧ ({} : FwCtl).word = 0x20000000 := by decide +kernel

/-! ### Further witnesses: parking, sealing, order at issue, prefetches -/

def wWide : State := wTils [] [til7 .ready 0 3 none, til7 .atWide 0 12 none]
theorem witness_RecordsAndWideRegions_all : issuesAt wWide on true (.wide 0) ∧ (ex wWide).g.wide = none ∧
    ∀ (k : Nat) (t : Tiller), k ≠ (ex wWide).c.t → (ex wWide).g.tillers[k]? = some t → t.st.live → t.st = .atWide ∧ t.parkAt = (ex wWide).t.pc % 2 ^ 64 :=
  ⟨by decide +kernel, by decide +kernel, fun k t n h => all_at (p := fun k t => k ≠ 0 → t.st.live → t.st = .atWide ∧ t.parkAt = 0) (l := (ex wWide).g.tillers) (by decide +kernel) k t h n⟩
/-- Record 7 has a deferred path and no slot is free: the lowest of its tillers at the join is in slot 1. -/
def gFull : Group := { tillers := [til7 .ready 0 1 none, til7 .atJoin 16 2 (some 7), til7 .atJoin 16 4 (some 7), til7 .ready 0 8 none], rcds := [rec7 none] }
/-- Record 7 has no tiller any more: two lanes wait at the join at 16, one of them has exited since. -/
def gLanes : Group := { tillers := [til7 .ready 0 1 none, { skip := 3 }], rcds := [(7, { (rec7 none).2 with lanes := 3, joinPc := 16 })], exited := 1 }
theorem witness_RecordsAndWideRegions_taken : (∀ (j : Nat) (t : Tiller), gFull.tillers[j]? = some t → t.st ≠ .free ∧ (t.st = .ended → t.rcd ≠ some 7)) ∧
    ofRcd gFull 7 1 (til7 .atJoin 16 2 (some 7)) ∧ (∀ j t, ofRcd gFull 7 j t → t.st = .atJoin → 1 ≤ j) ∧ (∀ j u, ¬ofRcd gLanes 7 j u) ∧
    (∀ e ∈ gLanes.rcds, e.2.parent ≠ some 7 ∧ e.2.lanes ≠ 0 ∧ e.2.dfr = none ∧ e.2.mask &&& gLanes.exited ≠ e.2.mask) ∧ gLanes.tillers[1]? = some { skip := 3 } ∧
    ∀ (j : Nat) (u : Tiller), j < 1 → gLanes.tillers[j]? = some u → u.st ≠ .free := by
  refine ⟨all_at (p := fun _ t => t.st ≠ .free ∧ (t.st = .ended → t.rcd ≠ some 7)) (by decide), ⟨rfl, rfl, by decide⟩, fun j t h _ => ?_, fun j u h => ?_, by decide, rfl, fun j u k h => ?_⟩
  · exact all_at (p := fun j t => t.rcd = some 7 → 1 ≤ j) (l := gFull.tillers) (by decide) j t h.1 h.2.1
  · exact all_at (p := fun _ t => t.rcd = some 7 → t.st = .free) (l := gLanes.tillers) (by decide) j u h.1 h.2.1 |> h.2.2
  · exact all_at (p := fun j u => j < 1 → u.st ≠ .free) (l := gLanes.tillers) (by decide) j u h k

/-- A handler of all lanes runs, another tiller is held; the scalars it restores have pending writes or none. -/
def wIn (l : List (Nat × Pend)) : State := wg fun g => { g with
  trap := some { saved := [1, 2, 3, 4], slot := 0, mask := (g.til 0).mask, rcds := [] }
  tillers := listSet g.tillers 1 (til7 (.held .ready) 0 0 none)
  pend := l }
def pend124 : Pend := { slot := 0, mask := 2 ^ 32 - 1, op := 0x50, marks := [.s 124], wr := [], fl := 0, kind := .alu }
theorem witness_LanesEndAndBreakpoints_handler : issuesAt (wIn [(4, pend124)]) on true (.exit on) ∧ (trapRegs (ex (wIn [(4, pend124)])).g).any (marked (ex (wIn [(4, pend124)])).g 0) ∧
    issuesAt (wIn []) on true (.exit on) ∧ (ex (wIn [])).g.trap = some { saved := [1, 2, 3, 4], slot := 0, mask := 2 ^ 32 - 1, rcds := [] } ∧ (ex (wIn [])).guard on = (ex (wIn [])).t.mask ∧
    (ex (wIn [])).g.wide = none ∧ (ex (wIn [])).t.wins = [] ∧ (ex (wIn [])).t.rcd = none ∧ (ex (wIn [])).g.rcds = [] ∧ (ex (wIn [])).g.bars = [] ∧
    (trapRegs (ex (wIn [])).g).any (marked (ex (wIn [])).g 0) = false ∧ (ex (wIn [])).g.tillers[1]? = some (til7 (.held .ready) 0 0 none) ∧ TState.ready.live ∧ TState.ready.parked = false := by
  decide +kernel
/-- The group's last lane exits with a copy in the open sheaf. -/
theorem witness_LanesEndAndBreakpoints_seals : issuesAt (wCopy k0) on true (.exit on) ∧ (ex (wCopy k0)).g.sheaves = [] ∧
    (∀ e ∈ (ex (wCopy k0)).s.copies, e.2.b = 0 → e.2.g = 0 → e.1 ∈ (ex (wCopy k0)).g.openSheaf ∧ e.2.st ≠ .done ∧ e.2.st ≠ .failed) ∧
    tget (ex (wCopy k0)).s.copies 6 = some k0 ∧ (k0.b, k0.g) = (0, 0) := by decide +kernel

/-- The state with a store of the tiller's lanes not yet accepted, and with an `astl` of theirs under way. -/
def unaccepted : Pend := { slot := 0, mask := 3, op := 0x91, marks := [], wr := [], fl := 0, kind := .mem { dst := .none, lanes := [], acc := { w := true } } }
def astlP : Pend := { slot := 0, mask := 1, op := 0xCC, marks := [], wr := [], fl := 0, kind := .cond (.matrix 3) }
def withP (p : Pend) (s : State) : State := s.modGroup 0 0 fun g => { g with pend := [(0, p)], nextPend := 1 }
theorem witness_Barriers_order : lanesOrdered (ex wTwo) ∧ lanesOrdered (ex wBar) ∧ lanesOrdered (ex wObj) ∧ ¬lanesOrdered (ex (withP unaccepted wTwo)) ∧ ¬lanesOrdered (ex (withP unaccepted wBar)) ∧
    ¬lanesOrdered (ex (withP unaccepted wObj)) ∧ issuesAt (withP unaccepted wTwo) on true (.bar 0 0 false (.imm 0)) ∧ issuesAt (withP unaccepted wBar) on true (.bar 0 0 true (.imm 2)) ∧
    issuesAt (withP unaccepted wObj) on true (.parrive on none 3 none 8) := by
  refine ⟨doneAt_nil rfl rfl, doneAt_nil rfl rfl, doneAt_nil rfl rfl, ?_, ?_, ?_, by decide +kernel⟩ <;>
    exact not_doneAt unaccepted rfl (by decide +kernel) (by decide +kernel) (by decide +kernel) (by intro a; cases a)
theorem witness_LocalMemoryAndAtomicValues_free : localFree (ex w0) ∧ ¬localFree (ex (withP astlP w0)) ∧ (locals on).all (issuesAt (withP astlP w0) on true) ∧ released (ex w0) none := by
  refine ⟨by unfold localFree; decide +kernel, by unfold localFree; decide +kernel, by decide +kernel, fun sc h => by cases h⟩
theorem witness_FencesAndPrefetches_slots : issuesAt w0 on true (.pref on .l1 3 0) ∧ (ex w0).s.slotsFor (ex w0).b 1 ∧ tget (ex w0).g.pend (ex w0).g.nextPend = none ∧ canonical (baseAt (ex w0) 3 0) ∧
    issuesAt (wg fun g => g.sset 3 (2 ^ 60)) on true (.pref on .l1 3 0) ∧ canonical (baseAt (ex (wg fun g => g.sset 3 (2 ^ 60))) 3 0) = false ∧
    ([.pref off .near 3 0, .ipref off 3 0] : List Instr).all (issuesAt w0 off false) ∧
    issuesAt (wg fun g => g.sset 3 (2 ^ 60)) on true (.ipref on 3 0) ∧ tget (wReq q0 []).reqs 6 = some q0 := by
  decide +kernel

theorem witness_RequestsAtTheHome_moved : itsTurn (wReq q0 [{ frame0 with home := 3 }]) 6 q0 ∧ (wReq q0 [{ frame0 with home := 3 }]).frameFind 0 (vdTag 0 8192) 8192 = some { frame0 with home := 3 } ∧
    (wReq q0 [{ frame0 with home := 3 }]).stampMet 0 [] ∧ ((wReq q0 [{ frame0 with home := 3 }]).walks.map Prod.fst).Nodup ∧ wPoison.heldFull 0 = false :=
  ⟨⟨by decide +kernel, fun n h => by cases h⟩, by decide +kernel⟩
/-- The answer of a prefetch: no instruction waits for it. -/
theorem witness_AnswersToTheCore_prefetch : tget (wReq { qr with pref := some .l1 } []).reqs 6 = some { qr with pref := some .l1 } ∧
    (wReq { qr with pref := some .l1 } []).first 6 { qr with pref := some .l1 } (fun _ => true) ∧ (wReq { qr with pref := some .l1 } []).flight 0 0 2 = none := by
  refine ⟨by decide +kernel, by decide +kernel, ?_⟩
  have : ((wReq { qr with pref := some .l1 } []).flight 0 0 2).isNone = true := by decide +kernel
  simpa using this
theorem witness_TranslationAndWalks_range : (match (wWalk (.tlb 0 0)).fullWalk 0 0 0 8192 { r := true } with
      | (u, .ok _) => tlbRange (u.core (coreKey 0 0)).tblk 0 == some (0, 7)
      | _ => false) = true ∧ (∀ e ∈ (wWalk (.tlb 0 0)).reqs, e.2.pref = none) := by decide +kernel
theorem witness_MessagesFetchAndReplay_ahead : (∀ x ∈ [msg .rsp 1 0, msg .req 2 0, msg .rsp 0 0, msg .req 0 0, msg .req 3 3], noneAhead (wMsg x q0) 4 x) ∧ wPark.slotsFor (ex wPark).b 1 := by
  refine ⟨fun x m => ?_, by decide +kernel⟩
  simp only [List.mem_cons, List.not_mem_nil, or_false] at m
  obtain rfl | rfl | rfl | rfl | rfl := m <;> (unfold noneAhead; decide +kernel)

theorem witness_CopiesIssueAndSheaves_object : goodObject (ex w0) none ∧ goodObject (ex w0) (some 3) :=
  ⟨fun a h => (by cases h), fun a h => by cases h; decide +kernel⟩

/-- Instructions on tiles that operations accepted before them still use. -/
def wTiles : State := { (wMat fun b => { b with mops := [(6, { mo with tile := 0 }), (7, { mo with tile := 2 })] }) with nextId := 9 }
theorem witness_MatrixInstructions_waits : ([.azero on 2, .acpy on 0 1, .ardv on .f32 .dflt false 1 0 3 2, .ardv on .f16 .rs false 1 0 3 2, .awrv on .bf16 0 3 1 2] : List Instr).all (issuesAt wTiles on true) ∧
    ([.aldl on true 0 3 4 0, .astl on false 0 3 4 0] : List Instr).all (issuesAt (wTiles.modGroup 0 0 fun g => g.sset 4 0x0301) on true) ∧
    ([.aldl on true 0 3 4 0, .astl on false 0 3 4 0] : List Instr).all (issuesAt (withP astlP (wm.modGroup 0 0 fun g => g.sset 4 0x0301)) on true) ∧
    ¬Claims.inTurn (ex wTiles) [2] (some 2) ∧ ¬Claims.inTurn (ex wTiles) [0, 1] (some 0) ∧ ¬Claims.inTurn (ex wTiles) [0] none ∧ localFree (ex wTiles) ∧
    ¬localFree (ex (withP astlP (wm.modGroup 0 0 fun g => g.sset 4 0x0301))) :=
  ⟨by decide +kernel, by decide +kernel, by decide +kernel, fun h => absurd h.1 (by decide +kernel), fun h => absurd h.1 (by decide +kernel), fun h => absurd h.1 (by decide +kernel),
   by unfold localFree; decide +kernel, by unfold localFree; decide +kernel⟩
/-- `azero` waits for the operation on its tile to retire. -/
def wTops : State := wMat fun b => { b with mops := [(6, { mo with st := .draining })], tops := [(8, { g := 0, act := .zero 1 })] }
theorem witness_MatrixOperationsRun_tops : opAt wTops 0 6 (ex wTops).b { mo with st := .draining } ∧ (ex wTops).b.tops = [(8, { g := 0, act := .zero 1 })] ∧ (ex wTops).b.sops = [] ∧
    ∀ e ∈ tdel (ex wTops).b.mops 6, e.2.tile ≠ 1 := by
  unfold opAt
  decide +kernel

/-- A shaping store behind a request of its own lane that is not yet performed. -/
def early : Pend := { unaccepted with kind := .mem { dst := .none, lanes := [{ rd 8192 with lane := 0 }], acc := { r := true } } }
def wTurn : State := withP early { at4000 (wSh id) with reqs := [(0, { q0 with pend := 0 })], nextId := 9 }
theorem notFree : ¬laneFree wTurn 0 0 0 1 := fun h => by
  have g : GroupAt wTurn 0 0 (ex wTurn).g := ⟨(ex wTurn).b, rfl, rfl⟩
  obtain ⟨q, m, -, -, -, -, d⟩ := h _ g (0, early) (by decide +kernel) (by decide) { rd 8192 with lane := 0 } (by decide) (by decide)
  have : q.2.st = .atHome := by
    have m : q ∈ [(0, { q0 with pend := 0 })] := m
    rw [List.mem_singleton] at m
    rw [m]
    rfl
  rw [this] at d
  obtain d | ⟨n, d⟩ := d <;> cases d
theorem witness_ShapingInstructions_turn : laneFree (at4000 (wSh id)) 0 0 0 0 ∧ ¬laneFree wTurn 0 0 0 1 ∧ issuesAt wTurn on true (.qst (qo on)) ∧
    isOk ((at4000 (wSh id)).engRead 0 0 0 0x4000 64 (some ⟨0, 0⟩)).2 ∧ isOk (wm.engRead 0 0 1 0x4000 64 (some ⟨0, 0⟩)).2 = false :=
  ⟨laneFree_nil _ _ (by decide +kernel), notFree, by decide +kernel⟩
/-- A reset point: the set's header is the entry's, or another. -/
theorem witness_ShapingOperations_reset : (stIn 2048 0).ent.resets 0 ∧ attrOf (stIn 2048 0).ent 12 11 ≠ 0 ∧ cwf ({} : ResRow) [(127, { e1 := 3, valid := true })] ∧ (stIn 2048 0).lines (ex (wSh id)).b ≠ [] := by
  decide +kernel
theorem witness_ShapingOperations_load : (match State.shRead 0 (ex (wSop (.resLd 0x8000) id)).b 64 ((upto 33).map fun k => (0x8000 + 64 * k) % 2 ^ 64) (wSop (.resLd 0x8000) id) with
    | (u, .ok l) => (setOfImage (l.flatMap Prod.snd)).isSome && tget u.blocks 0 == some (ex (wSop (.resLd 0x8000) id)).b
    | _ => false) = true := by decide +kernel

theorem witness_LaunchAndTraceInstructions_order : doneAt .prt (ex (wDev (hdrAt 15 0 0))) ∧ ¬doneAt .prt (ex (withP unaccepted (wDev (hdrAt 15 0 0)))) :=
  ⟨doneAt_nil rfl rfl, not_doneAt unaccepted rfl (by decide +kernel) (by decide +kernel) (by decide +kernel) (by intro a; cases a)⟩
theorem witness_LaunchAndTraceInstructions_sends :
    issuesAt (withP unaccepted (wDev (hdrAt 15 0 0))) on true (laun on) ∧ (match (wDev (hdrAt 15 0 0)).readHdr 0 qDev with
      | (u, .ok (some q)) => (match u.engRead 0 0 0 0x7000 128 (some ⟨0, 0⟩) with
        | (w, .ok p) => (match w.vaWrite 0 0 0 ((q.ring + 128 * (q.tail % 2 ^ q.lg)) % 2 ^ 64) (p.take 112 ++ List.replicate 16 0) with
          | (w1, none) => (w1.vaWrite 0 0 0 (0x6000 + 16) (toBytes 8 (q.tail + 1))).2.isNone
          | _ => false)
        | _ => false)
      | _ => false) = true := by decide +kernel
theorem witness_LaunchAndTraceInstructions_reads : (match wMap.reach 0 0 0 0x4000 { x := true } (some ⟨0, 0⟩) with
      | (u, .ok l) => ((u.touch l.home 0 0 (vdTag 0 0x4000) (0x4000 / 128) l.sla {}).homeRead l.home l.sla 128 l.key).2.any fun r => decide (r.length = 128)
      | _ => false) = true ∧ issuesAt (wt fun t => { t with pc := 2 ^ 57 }) on true (.fbpt 0 0) ∧ canonical (relTarget 0 (ex (wt fun t => { t with pc := 2 ^ 57 }))) = false ∧
    ((wTmark 0x6000 true 15).vaRead 0 0 0 0x6000 64).1.translates 0 0 0 0x6000 (64 + 16 * 2 ^ 4) { r := true, w := true } := by decide +kernel

/-! ### Further witnesses: followers, cancels, residency -/

/-- A second slice follows the leader, whose head has left with the launch. -/
def wFollow (kd : Nat) : State :=
  let h : Head := { n := 0, slot := some 0x7000, pkt := some (toBytes 128 (pktN - 0x5000 + kd)), met := true }
  let s := { wQs .mapped (hdrAt 1 0 0) (some { n := 1 }) with launches := [(5, l0)] }
  { s with parts := tmod s.parts 0 (fun p => { p with slices := [0, 1] }), slices := s.slices ++ [(1, { (s.slice 0) with heads := [(9, h)] })] }
theorem witness_LaunchEngineEvents_follows : serves (wFollow 0x5000) 1 9 (slot1 qDev .mapped) ∧ (wFollow 0x5000).leader 0 = 0 ∧ tget ((wFollow 0x5000).slice 0).heads 9 = some { n := 1 } ∧
    (tget ((wFollow 0x5000).slice 1).heads 9).map (fun h => (h.n, h.stopped, h.met, h.cause, h.fault)) = some (0, false, true, 0, none) ∧
    (match (wFollow 0x5000).vaRead 1 0 0 0x5000 128 with
      | (u, .ok _) => (tget u.slices 1).isSome && decide (u.launches = [(5, l0)])
      | _ => false) = true ∧
    (match (wFollow (2 ^ 38)).vaRead 1 0 0 (2 ^ 38) 128 with
      | (u, .error f) => (tget u.slices 1).isSome && f.kind != .poison && !u.unreported 1 0 0 f
      | _ => false) = true := by
  unfold serves
  decide +kernel
/-- A cancel reaches a slice that has none of the launch's work left. -/
def wNone : State := { wCan with blocks := [], launches := [(5, { l0 with next := [(0, 3)] })] }
theorem witness_LaunchEngineEvents_idle : tget wNone.cancels 3 = some { launches := [5], slices := [0] } ∧ { l0 with next := [(0, 3)] }.ownNext 0 = none ∧ { l0 with next := [(0, 3)] }.extra = [] ∧ wNone.blocks = [] := by decide +kernel
theorem witness_LaunchEngineEvents_translates : hdrIs (wQs .mapped (hdrAt 1 0 0) none) (fun q => q.any fun q =>
      decide (((wQs .mapped (hdrAt 1 0 0) none).vaRead 0 0 0 0x6000 64).1.translates 0 0 0 q.ring (128 * 2 ^ q.lg) { r := true, w := true })) ∧
    (match ((wQs .mapped (hdrAt 1 0 0 + (2 ^ 38 - 0x7000)) none).vaRead 0 0 0 0x6000 64) with
      | (u, .ok b) => (qhdrOf b).any fun q => decide (¬u.translates 0 0 0 q.ring (128 * 2 ^ q.lg) { r := true, w := true })
      | _ => false) = true := by decide +kernel
/-- A leaving slice of a resize still has blocks of the launch to start. -/
theorem witness_LaunchEngineEvents_leaving : ∃ k ∈ { l0 with list := [0, 1] }.list, k ∉ (wL l0).sliceList 0 ∧ ({ l0 with list := [0, 1] }.ownNext k).isSome := by decide +kernel
theorem witness_ResidencyEvents_calm : (w0.waiting 0 = []) ∧ (tget (wR (fun b => { b with res := .stopping }) id).blocks 0).map Block.res = some .stopping ∧
    (∃ e ∈ (wReq (req [wr 8192 7] .atHome) []).reqs, e.2.b = 0 ∧ e.2.reads = false) ∧ (∀ e ∈ (wReq (req [rd 8192] .atHome) []).reqs, e.2.reads) ∧
    (wPre.preempting 0 { lk := 5, l := l0, idx := 0, saved := none } = false) ∧ (w0.slice 0).rotDefer = false := by decide +kernel
/-! ### Further witnesses: the channel's commands, the network, resets, harts, traces -/

theorem witness_ReportsAndStack_slots : (match (wRing (ring 1 16) rep0).vmRead 0 0 0 0x6000 64 with
      | (u, .ok _) => decide (u.translates 0 0 0 0x6000 (64 + 32 * 2 ^ 4) { r := true, w := true })
      | _ => false) = true ∧
    (match (wRing (ring 0 3) { rep0 with guest := false, held := false }).vmRead 0 0 0 0x6000 64 with
      | (u, .ok h) => (match u.vmWrite 0 0 0 (0x6040 + 32 * 3) (frRecord rep0.va 0 5 3 0 0 0) with
        | (v, none) => (v.vmWrite 0 0 0 0x6010 (toBytes 8 (fieldAt h 16 8 + 1))).2.isNone
        | _ => false)
      | _ => false) = true := by decide +kernel
/-- A lane that waits in `ctrwait` on a fault of the counter's page. -/
def wCtrPark : State := withP { slot := 0, mask := 1, op := 0xDB, marks := [], wr := [], fl := 0, kind := .cond (.ctrfault 0x6020 1 fr1) } w0
theorem witness_ReportsAndStack_counter : GroupAt wCtrPark 0 0 (ex wCtrPark).g ∧ (tget (ex wCtrPark).g.pend 0).map Pend.kind = some (.cond (.ctrfault 0x6020 1 fr1)) ∧ fr1.token = 0 + 1 := by
  unfold GroupAt
  decide +kernel
def wJob2 (j : ScrubJob) (p : ScrubProg) (r : Bool) (n : Nat) : State := { wJob j r with sprog := [(0 * 4 + 2, p)], fw := [(0, { pid := 0 })], now := n }
def zjob : ScrubJob := { job0 with zeroing := true }
theorem witness_KernelCommands_parts : (tget (wK id).parts 0).map (fun p => (p.slices, p.resize.isNone)) = some ([0], true) ∧
    ((wJob2 zjob { done := true, total := 16384, prog := 16384 } false 9).settleScrubs.prog 0 2).done ∧ ((wJob2 zjob { active := true, total := 16384 } false 9).settleScrubs.prog 0 2).done = false ∧
    (tget (wJob2 zjob {} false 9).slices 0).isSome ∧ tget (wJob2 zjob {} false 9).jobs 2 = some zjob ∧ tget (wJob2 job0 {} false 9).jobs 2 = some job0 ∧ (wK id).heldFull 0 = false := by decide +kernel
theorem witness_KernelCommands_lines : (wJob2 zjob { active := true, writing := true, total := 16384, prog := 3, at' := 8 } false 9).sprog = [(2, { active := true, writing := true, total := 16384, prog := 3, at' := 8 })] ∧
    stackWf (wJob2 zjob { active := true, writing := true, total := 16384, prog := 3, at' := 8 } false 9) ∧ tget (wJob2 zjob {} false 9).fw 0 = some { pid := 0 } ∧ (0 : Nat) * 4 + 2 = 2 := by
  unfold stackWf
  decide +kernel
theorem witness_KernelCommands_resume : ∀ j ∈ [job0, zjob], let s := wJob2 j { active := true, total := 16384, prog := 3 } true 9
    (tget s.slices 0).isSome ∧ (s.slice 0).inReset ∧ (s.prog 0 2).active ∧ (s.prog 0 2).writing = false ∧ tget s.fw 0 = some { pid := 0 } ∧ tget s.jobs (0 * 4 + 2) = some j := by decide +kernel
theorem witness_KernelCommands_verify : ∀ n ∈ [9, 9000], let s := wJob2 zjob { active := true, writing := true, total := 3, prog := 3, verify := true, resumed := true, heldProg := 3, at' := 16 } false n
    (s.settleScrubs.prog 0 2).active ∧ (s.settleScrubs.prog 0 2).verify ∧ (n = 9000 → (s.settleScrubs.prog 0 2).at' + (s.settleScrubs.prog 0 2).heldProg ≤ 2 * s.now) ∧
    (n = 9 → 2 * s.now < (s.settleScrubs.prog 0 2).at' + (s.settleScrubs.prog 0 2).heldProg) := by decide +kernel

/-! ### Further witnesses: the network, resets, harts, traces, the step -/

theorem witness_PacketsReceived_notes : (match (withMem [(0x6000, 64, ring 0 3)] (rxAt (gp 7 3 (toBytes 8 9)))).vaRead 0 0 0 0x6000 64 with
      | (v, .ok _) => decide (v.translates 0 0 0 0x6000 (64 + 16 * 2 ^ 4) { r := true, w := true })
      | _ => false) = true ∧
    (match ((rxAt { wr8 with va := 2 ^ 38 }).reach 0 0 0 (2 ^ 38) { w := true }).2 with
      | .error f => f.kind == .stage1 || f.kind == .stage2
      | .ok _ => false) = true := by decide +kernel
/-- A transmit queue at 0x9000 of the VIRTIO device whose first descriptor is a frame's 12 header bytes and 60 bytes at 0xA000, and one with none. -/
def vq0 (w : Bool) : VQueue := { ready := true, size := 4, desc := 0x9000, drv := 0x9100, dev := 0x9140, wrap := w }
def wVio (w : Bool) : State := withMem [(0x9000, 16, 0xA000 + 72 * 2 ^ 64 + 5 * 2 ^ 96 + 0x80 * 2 ^ 112)] (wMap.modSlice 0 fun k => { k with link := true, vio := { status := 15, queues := [(1, vq0 w)] } })
theorem witness_PacketsSentAndPorts_virtio : (∀ w ∈ [true, false], (wVio w).vioQueue 0 1 = some (vq0 w)) ∧ ((wVio true).slice 0).inReset = false ∧ ((wVio true).slice 0).link ∧
    (wVio true).chain 0 (vq0 true) = some ([(0xA000, 72, false)], 5) ∧ (wVio false).chain 0 (vq0 false) = none ∧
    (let u := (wVio true).paGet 0 0xA000 72
     let v := u.1.useChain 0 1 (vq0 true) 1 5 0
     (v.vioQueue 0 1).all (fun q => v.chain 0 q == none) && (vioFrame u.2).length == 60 && (udpOf (vioFrame u.2)).isNone) = true ∧
    (let d := ((wVio true).paGet 0 (0x9000 + 16 * 0) 16).2
     (fieldAt d 14 2).testBit 7 = true ∧ (fieldAt d 14 2).testBit 15 = false ∧ (fieldAt d 14 2).testBit 0 = false) ∧ ((w0.slice 0).link = false) := by decide +kernel
theorem witness_PacketsSentAndPorts_golris : (udpOf (udpF 0)).any (fun d => decide (49152 ≤ d.sport ∧ d.sport < 49216)) ∧ beAt pauseF 14 2 ≠ 1 ∧ beAt (List.replicate 12 0 ++ [0x88, 0x08, 1, 1] ++ List.replicate 44 0) 14 2 = 0x0101 ∧
    sum16 (toBytes 16 5).reverse + sum16 (toBytes 16 6).reverse + 17 + (8 + 4) + 49152 + 7 + (8 + 4) + sum16 [1, 2, 3, 4] < 2 ^ 32 ∧ (sent0 1).op = some 3 ∧
    (wConn { sent := [sent0 1] }).peerOn 0 5 = some (0, peer0) := by decide +kernel
theorem witness_PartitionCommands_off : (5 : Nat).testBit 1 = false ∧
    44 ≤ (((upto 44).map fun k => (k + 10, { qDev with pin := true })).filter fun e => e.2.pid == 0 && e.1 != queueKey 0 3 && e.2.pin).length := by decide +kernel

/-- An ordered atomic queued at slice 1, a block that stands on it, and a message to it. -/
def ord1 : OrdEnt := { home := 1, sla := 0x40, key := 0, bank := 0, pid := 0, vd := 0, launch := 0, va := 0, x := 0, blk := 0, who := 0, n := 0 }
theorem witness_ResizesAndResets_ordered : atStep { wRz 4 id with ordq := [ord1] } 0 ((tget (wRz 4 id).parts 0).getD {}) (rz false 4) 4 ∧ ord1 ∈ { wRz 4 id with ordq := [ord1] }.ordq ∧
    homePlace ((upto 256).map fun e => 128 + e % 2) 1 = some (1, ord1.sla / 2 ^ 21 * 2 ^ 21) ∧ (∀ h, h < 1 → homePlace ((upto 256).map fun e => 128 + e % 2) h ≠ some (1, 0)) ∧
    homePlace (rz false 4).map 1 = some (0, 2 ^ 21) := by
  refine ⟨⟨rfl, rfl, rfl, ?_⟩, by decide +kernel⟩
  intro k hk
  have : ∀ k ∈ ((tget (wRz 4 id).parts 0).getD {}).slices, ({ wRz 4 id with ordq := [ord1] }.slice k).inReset = false := by decide +kernel
  exact this k hk
theorem witness_ResizesAndResets_drain : let s := { wRz 2 id with blocks := [(7, { slice := 1, core := 0, lk := 1, res := .resident })], now := 20000 }
    (∃ e ∈ s.blocks, e.2.slice = 1 ∧ e.2.res = .resident ∧ s.tileMoving 1 e.2.core = false) ∧ (rz false 2).since + (rz false 2).drain * 1000 ≤ s.now := by decide +kernel
theorem witness_ResizesAndResets_messages : (∃ m ∈ { wRz 6 id with msgs := [(4, { msg .req 2 0 with src := 1 })] }.msgs, m.2.src = 1 ∨ m.2.dst = 1) ∧ (wRz 6 id).msgs = [] := by decide +kernel
/-- A slice in reset, none of whose scrub parts is unfinished, of a running partition. -/
def wBack (zeroed : Bool) : State := { wK id with bootStep := 5, fw := [(0, { asgn := true })], slices := tmod (wK id).slices 0 fun k => { k with inReset := true, zeroed := zeroed, keys := [(3, .zeroed)] } }
theorem witness_ResizesAndResets_rejoin : ∀ z ∈ [true, false], (tget (wBack z).slices 0).any (fun x => x.inReset && x.zeroed == z) ∧ (∀ j, j < 4 → ((wBack z).prog 0 j).active = false) ∧
    ((wBack z).ownerPart 0).any (fun p => p.1 == 0 && p.2.st == .running && p.2.resize.isNone && p.2.slices == [0]) ∧ (wBack z).reports = [] ∧ (∀ e ∈ (wBack z).rcvs, e.2.pid ≠ 0) ∧ (wBack z).mem.wf := by decide +kernel

/-- A hart that holds a reservation of the line at 0x8000. -/
def wResv (b : List Byte) : State := { wHart with harts := [(3, { run := true, resv := some (0, 0x8000, b) })] }
theorem witness_HostHartAccesses_reserved : hartAt .lr (fun v x => (v.homeRead x.home x.sla 8 x.key).2.isSome) ∧ wHart.reserved 0 (acc0 .sc) = false ∧ (wResv (List.replicate 128 0)).reserved 0 (acc0 .sc) ∧
    (match (wResv (List.replicate 128 0)).hartReach 0 (acc0 .sc) 0x8000 with
      | (u, .ok x) => (match (u.touch x.home 0 x.vd x.tag x.gran x.sla { op := 1 }).homeRead x.home x.sla 8 x.key with
        | (w, some _) => (w.homeWrite x.home x.sla x.key (toBytes 8 7)).2
        | _ => false)
      | _ => false) = true ∧
    (∀ b ∈ [List.replicate 128 0, List.replicate 128 1], (tget (wResv b).harts 3).map Hart.resv = some (some (0, 0x8000, b)) ∧
      (cgets 0 (wResv b).mem (cell 0 0x8000) 128 = b ↔ b = List.replicate 128 0)) := by decide +kernel
theorem witness_HostHartAccesses_registers : (∀ op ∈ [HartOp.setX 5, .setF 5, .setV 5, .csrWrite 0x300, .csrRead 0xC01, .vioRead, .vioWrite, .fence], (acc0 op).slice = 0 ∧ (acc0 op).hart < 8) ∧
    cwf 0 (wHart.hart (acc0 .load)).x ∧ cwf 0 (wHart.hart (acc0 .load)).f ∧ cwf 0 (wHart.hart (acc0 .load)).v ∧ cwf 0 (wHart.hart (acc0 .load)).csr ∧ (tget wHart.slices 0).isSome ∧ (0x300 : Nat) ≠ 0xC01 := by decide +kernel

theorem witness_TraceEvents_read : (match (entT 5 3).paRead 0 (0x9000 + 32 * 2) 32 with
      | (u, some _) => (tget u.slices 0).isSome && ((u.slice 0).csets.all fun e => e.2.vd != some 2)
      | _ => false) = true ∧ clocksOf (wSamp {}) 0 = 100000 * 700 := by decide +kernel

/-- Two pads stand before a NOP; a tiller that stands behind a word of a long instruction. -/
def wPad : State := (State.reset.placed 0x0003C0010000000000000000).modBlock 0 id
theorem witness_StepRunsDecodedInstruction_pads : (wPad.passPads 0).tilPool 0 State.tilPad = [] ∧ (match (wPad.passPads 0).select 0 with
      | some t => t.load.any fun x => x.t.pc == 8 && (t.icFind x.b.slice x.b.core x.b.vd x.t.pc).any fun e => decide (2 ∈ starts 8 0 e.words) && (decodeWords (e.words.drop 2) == .ok (.nop hd0, 2))
      | none => false) = true := by decide +kernel
def wOff : State := (State.reset.placed 0x0003C001).modGroup 0 0 fun g => { g with tillers := g.tillers.map fun t => { t with pc := if t.pc = 0 then 4 else t.pc } }
theorem witness_StepRunsDecodedInstruction_misaligned : (match (wOff.passPads 0).select 0 with
      | some t => t.load.any fun x => x.able && x.t.pc == 4 && (t.icFind x.b.slice x.b.core x.b.vd x.t.pc).any fun e => decide (1 ∉ starts 8 0 e.words)
      | none => false) = true := by decide +kernel

/-! ### Witnesses of clauses on special cases, homes, walks, copies and the matrix engine -/

/-- The greatest FP16 value is 65504 and the step below it is 32: 65519 rounds to it, 65520 does not, 65535 does toward zero. -/
theorem witness_Rounding_above : (.f16 : FType) ≠ .fmt ∧ (.rpi : Rnd) ≠ .dflt ∧ tyF3.contains .f16 ∧ finite .f16 .ieee (topCode .f16 .ieee) = some 65504 ∧
    2 * (65504 : ℚ) ≤ |ratOf true 131008 0| ∧ (65504 : ℚ) + 65504 / (2 ^ 11 - 1) ≤ |ratOf false 65536 0| ∧ (65504 : ℚ) + 65504 / (2 ^ 11 - 1) / 2 ≤ |ratOf false 65520 0| ∧
    (65504 : ℚ) < |ratOf true 65519 0| ∧ |ratOf true 65519 0| < (65504 : ℚ) + 65504 / (2 ^ 11 - 1) / 2 ∧ |ratOf false 65535 0| < (65504 : ℚ) + 65504 / (2 ^ 11 - 1) := by
  have h : fvalue .f16 .ieee (topCode .f16 .ieee) = .num false 2047 5 := by decide +kernel
  refine ⟨by decide, by decide, by decide, ?_, ?_, ?_, ?_, ?_, ?_, ?_⟩
  · simp [finite, h, ratOf]; norm_num
  all_goals simp [ratOf] <;> norm_num
theorem witness_ExactOperations_special : (Xv.nan true).isSig ∧ ¬((Xv.nan false).isSig ∨ (Xv.num true 1 0).isSig ∨ (Xv.inf true).isSig) ∧ (Xv.nan false).isNan ∧ (xor true false ≠ false) ∧
    (0 : Nat) < 2 ^ 20 ∧ ratOf true 1 0 < ratOf false 1 0 ∧ ratOf false 2 0 = ratOf false 1 1 := by
  refine ⟨by decide, by decide, by decide, by decide, by decide, by simp [ratOf], by simp [ratOf]⟩
theorem witness_CrossLaneInstructions_steps : (5 : Nat) < 2 ^ (IType.i8).width ∧ (255 : Nat) < 2 ^ (IType.i8).width ∧ tyW4.contains .i32 ∧ tyB2.contains .b64 ∧ (0x80000000 : Nat) < 2 ^ 32 ∧ (RedOp.flt .fadd .rne).wf := by decide +kernel
theorem witness_LocalMemoryAndAtomicValues_float : (IType.b32).width = 32 ∧ (0x7FC00000 : Nat) < 2 ^ 32 := by decide
theorem witness_SpecialRegisters_live : (List.replicate 128 (0 : Byte)).length = 128 ∧ (127 : Nat) < 128 ∧ (15 : Nat) < 16 := ⟨List.length_replicate, by decide, by decide⟩

/-- The request of a line operation and of ordered atomics, from slice 1, and homes that do not answer. -/
def wAt (ls : List LOp) (s : State → State) : State := s (wReq { q0 with slice := 1, lanes := ls } [{ frame0 with acc := { r := true, w := true } }])
def frameW : FrameE := { frame0 with acc := { r := true, w := true } }
def lineL (op : ClineOp) : LOp := { lane := 0, va := 8192, size := 128, op := .line op }
def ordL : LOp := { lane := 3, va := 8192, size := 4, op := .ord 1 0 0 }
def atHome (ls : List LOp) (f : State → State) : Bool :=
  let q : Req := { q0 with slice := 1, lanes := ls }
  tget (wAt ls f).reqs 6 == some q && (wAt ls f).first 6 q Req.before && (wAt ls f).frameFind 0 (vdTag 0 8192) 8192 == some frameW && (wAt ls f).stampMet 0 []
theorem witness_RequestsAtTheHome_agrees : ∀ ls, q0.num = none ∧ agree { q0 with slice := 1, lanes := ls } frameW := fun _ => ⟨rfl, rfl, rfl, fun _ => rfl, fun _ => rfl, fun h => by cases h⟩
theorem witness_RequestsAtTheHome_kinds : (∀ op ∈ [ClineOp.wb, .inv, .evict], atHome [lineL op] id) ∧ atHome [ordL] id ∧ atHome [rd 8192] (fun s => s.modSlice 0 fun k => { k with inReset := true }) ∧
    silent (wAt [rd 8192] (fun s => s.modSlice 0 fun k => { k with inReset := true })) { q0 with slice := 1, lanes := [rd 8192] } frameW ∧ silent (wAt [ordL] id) { q0 with slice := 1, lanes := [ordL] } frameW = false ∧
    (wAt [ordL] id).ordq = [] ∧ ((wAt [ordL] id).reqs.map Prod.fst).Nodup ∧ (tget (wAt [ordL] id).blocks 0).isSome ∧
    (List.replicate 2048 { ord0 with bank := bankOf 8192, home := 0 }).length + [ordL].length - 2048 = 1 ∧ ((tget (wAt [ordL] id).parts 0).map Part.spillSize).getD 0 / 32 = 0 := by decide +kernel
/-- The frame's page is now read-only, and the request writes. -/
theorem witness_RequestsAtTheHome_moved2 : ¬agree { q0 with acc := { w := true } } { frame0 with acc := { r := true } } ∧
    itsTurn (wReq { q0 with acc := { w := true } } [{ frame0 with acc := { r := true } }]) 6 { q0 with acc := { w := true } } :=
  ⟨by unfold agree; decide, by decide +kernel, fun n h => by cases h⟩

/-- A walk on tables that are not there, for the load that waits for it. -/
def wLost : State :=
  let s := { (wg fun g => { g with
    pend := [(2, memP [rd 8192] (.vec 1 .b32))], nextPend := 3, tillers := listSet g.tillers 0 { (g.til 0) with st := .longWait (.on 2) } }) with parts := wMap.parts }
  { s with reqs := [(6, { q0 with st := .walk 1, lanes := [rd 8192] })], walks := [(1, { slice := 0, pid := 0, vd := 0, va := 8192, acc := { r := true }, what := .tlb 0 0 })] }
theorem witness_TranslationAndWalks_fails : (match wLost.fullWalk 0 0 0 8192 { r := true } with
      | (u, .error f) => !u.unreported 0 0 0 f && f.kind == .stage1
      | _ => false) = true ∧ (wLost.reqs.filter fun e => e.2.st == .walk 1) = [(6, { q0 with st := .walk 1, lanes := [rd 8192] })] ∧
    (∀ e ∈ wLost.reqs, e.2.b = 0 → e.2.g = 0 → e.2.pend = 2 → e.1 = 6) ∧ (ex wLost).b.fail = none ∧ (ex wLost).b.cancelled = false ∧ tget (ex wLost).g.pend 2 = some (memP [rd 8192] (.vec 1 .b32)) ∧
    ((ex wLost).g.tillers[0]?).map Tiller.st = some (.longWait (.on 2)) ∧ canonical (2 ^ 60) = false ∧ canonical (2 ^ 64 - 1) ∧ (2 ^ 64 - 1).testBit 56 := by decide +kernel
theorem witness_TranslationAndWalks_frame : (match ({ wWalk (.frame 6) with mem := [], reqs := [(6, { q0 with slice := 1, st := .frame 1 })] } : State).fullWalk 0 0 0 8192 { r := true } with
      | (u, .error f) => !u.unreported 0 0 0 f
      | _ => false) = true ∧ ({ q0 with slice := 1 } : Req).home ≠ ({ q0 with slice := 1 } : Req).slice := by decide +kernel
theorem witness_MessagesFetchAndReplay_full : ¬noneAhead { wMsg (msg .rsp 2 0) q0 with msgs := [(3, msg .rsp 2 0), (4, msg .rsp 2 0)] } 4 (msg .rsp 2 0) ∧
    (∃ e ∈ [((3 : Nat), ({ msg .req (nextHop 2 0) 0 with port := 2, esc := true } : Msg))], e.1 ≠ 4 ∧ e.2.pos = nextHop 2 0 ∧ e.2.port = 2 ∧ e.2.esc = true ∧ e.2.cls = .req) := by
  unfold noneAhead
  decide +kernel

/-- A copy of global bytes to local memory and one back, at 0x8000. -/
theorem witness_CopiesMove : canonical 0x8000 ∧ (∀ a ∈ [({ r := true } : Acc), { w := true }], (match wMap.reach 0 0 0 0x8000 a (some ⟨0, 0⟩) with
      | (u, .ok x) => u.keyOf x.home x.key == some (cget 0 u.lineKey (lineAt x.home x.sla)) && !cget false u.poison (lineAt x.home x.sla) && cget 0 u.errs (lineAt x.home x.sla) == 0 && decide (x.sla % 128 + 1 ≤ 128)
      | _ => false) = true) ∧ wMap.mem.wf ∧ canonical (2 ^ 57) = false ∧ (kL.srcAt 0).isSome ∧ kLL.dstAt 0 = .loc 16 ∧
    (match ({ wMap with mem := [] } : State).reach 0 0 0 0x8000 { r := true } (some ⟨0, 0⟩) with
      | (_, .error f) => f.kind != .firewall && f.kind != .poison
      | _ => false) = true := by decide +kernel
theorem witness_CopiesMove_stops : (match wMap.cpSrc 0 (ex wMap).b { kL with a := 2 ^ 57 } 0 with
      | (_, .error _) => true
      | _ => false) = true ∧ isOk (wMap.cpSrc 0 (ex wMap).b kLL 0).2 ∧ (State.moveGo 0 { kLL with a := 8 } 1 (wCopy kLL) 0).2.1 = 0 + 1 ∧
    (State.moveGo 0 { kL with a := 2 ^ 57 } 2 wMap 0).2.2.isSome ∧ (State.moveGo 0 { kL with a := 2 ^ 57 } 2 wMap 0).2.1 = 0 := by decide +kernel
theorem witness_CopiesMove_firewall : (match ({ wMap with fw := [(0, { asgn := true, hold := true })] } : State).reach 0 0 0 0x8000 { r := true } (some ⟨0, 0⟩) with
      | (_, .error f) => f.kind == .firewall
      | _ => false) = true := by decide +kernel

/-! ### Witnesses of clauses on matrix and shaping operations -/

/-- Floating and LN6 operands; codes of 0, infinity, NaN and 1. -/
def mf : MOp := { mo with fa := some .e5m2, fb := some .bf16, ra := .ieee, rb := .ieee }
def mln : MOp := { mo with fa := some .ln6, fb := some .e2m1, spb := true, k := 128 }
theorem witness_MatrixOperands_float : (∀ o ∈ [mf, mln], takes o.fa ∧ takes o.fb ∧ (o.fa ≠ none ∨ o.fb ≠ none)) ∧ mln.spb = true ∧ mf.spb = false ∧
    (∀ p ∈ [((0x3C : Nat), (0x3F80 : Nat)), (0xFC, 0xFF80), (0x80, 0x8000)], narrowEnough mf.fa p.1 ∧ narrowEnough mf.fb p.2) ∧ (0x31 : Nat) / 16 ^ 1 % 16 % 4 < 0x4 / 1 % 16 / 1 := by
  unfold takes narrowEnough
  decide +kernel
theorem witness_MatrixOperands_special : opValue mf.fa mf.ra 0x7C = .inf false ∧ opValue mf.fa mf.ra 0xFC = .inf true ∧ (opValue mf.fa mf.ra 0x7F).isNan ∧ opValue mf.fb mf.rb 0 = .num false 0 (-133) ∧
    opValue mf.fb mf.rb 0x3F80 = .num false 128 (-7) ∧ (opValue mf.fa mf.ra 0x80).sign ≠ (opValue mf.fb mf.rb 0).sign := by decide +kernel
theorem witness_MatrixOperands_zeroInf : zeroTimesInf (.inf false) (.num false 0 (-133)) ∧ infProduct (.inf true) (.num false 128 (-7)) true ∧ infProduct (.inf true) (.inf true) false :=
  ⟨⟨false, false, -133, Or.inl ⟨rfl, rfl⟩⟩, ⟨true, false, rfl, Or.inr ⟨128, -7, by decide, Or.inl ⟨rfl, rfl⟩⟩⟩, ⟨true, true, rfl, Or.inl ⟨rfl, rfl⟩⟩⟩
theorem dot_lt (o : MOp) (f : o.fa = none ∧ o.fb = none) (ca cb sa sb : Nat → Nat) : ∀ n k acc fl, acc < 2 ^ 32 → (o.dot ca cb sa sb n k acc fl).1 < 2 ^ 32 := by
  intro n
  induction n with
  | zero => intro k acc fl h; exact h
  | succ n ih =>
    intro k acc fl _
    rw [MOp.dot]
    simp only [f.1, f.2, beq_self_eq_true, Bool.and_self, if_true]
    apply ih
    unfold wrapN
    omega
theorem witness_MatrixOperands_elements : ∀ i j, i < 128 → j < 256 → (mo.elem (ex wm).b i j).1 < 2 ^ 32 := fun _ _ _ _ =>
  dot_lt mo (by decide +kernel) _ _ _ _ _ _ _ _ (by
    have : mo.zacc = true := by decide +kernel
    simp [this])
/-- An instruction on a tile alone, its turn come; one behind an operation; a read that its group waits for. -/
def bTop (a : TileAct) (p : Option Nat) (m : List (Nat × MOp)) : Block := { (ex wm).b with mops := m, tops := [(8, { g := 0, act := a, pend := p })] }
theorem witness_MatrixOperationsRun_turn : turnCome (bTop (.zero 1) none []) 8 (.zero 1) ∧ ¬turnCome (bTop (.zero 1) none [(6, mo)]) 8 (.zero 1) :=
  ⟨⟨by decide +kernel, by decide +kernel, fun d _ e m => by cases m⟩, fun h => absurd h.1 (by decide +kernel)⟩
theorem witness_MatrixOperationsRun_acts : cwf 0 (listGet [] (ex wm).b.acc 1) ∧ (([(0, 1), (257, 2)] : List (Nat × Word)).map Prod.fst).Nodup ∧ cwf 0 (ex wm).b.loc ∧ ([3, 4] : List Nat)[1]? = some 4 ∧
    (let gr : Group := { (ex wm).g with pend := [(4, waitOn (.matrix 8))] }
    let b : Block := { bTop (.get 1 2 0 2 1 .f16 .rne false false []) (some 4) [] with groups := [gr] }
    b.groups[0]? = some gr ∧ tget gr.pend 4 = some (waitOn (.matrix 8))) := by decide +kernel

theorem witness_ShapingOperations_elements : (some 127 : Option Nat) ≠ some 255 ∧ (stIn 0 0).ent.resets 0 = resetAt (stIn 0 0).ent 0 ∧ attrOf (stIn 2048 5).ent 12 11 ≠ 0 ∧ (stIn 2048 5).ent.resets 5 = false ∧
    attrOf (stIn 128 0).ent 7 7 = 1 ∧ (5 : Nat) < 2 ^ fmtBits .e2m1 ∧ (63 : Nat) < 2 ^ fmtBits .ln6 ∧ canonical 0x8000 ∧ (0x0F : Nat) < 255 ∧ cwf {} ([] : Cells ResRow) ∧
    (match wMap.engRead 0 0 0 0x8000 128 (some ⟨0, 0⟩) with
      | (u, .ok d) => (u.engWrite 0 0 0 0x8005 [BitVec.ofNat 8 (d.getD 5 0).toNat] { op := 1 } (some ⟨0, 0⟩)).2.isNone
      | _ => false) = true ∧ isOk (({ wMap with mem := [] } : State).engRead 0 0 0 0x8000 64 (some ⟨0, 0⟩)).2 = false := by decide +kernel

/-! ### Witnesses of clauses on the launch and residency engines -/

theorem witness_LaunchEngineEvents_causes : (toBytes 128 kdN).length = 128 ∧ kdValid (toBytes 128 kdN) = true ∧ kdValid (List.replicate 128 0) = false ∧
    ((fieldAt pktLc 46 2).testBit 2 ∧ qDev.lcok = false) ∧ (0x7FFFFFFF : Nat) < 0x80000000 ∧ fieldAt (toBytes 128 (pktN - 2 ^ 96)) 12 4 = 0 ∧ fieldAt pkt 12 4 = 1 := by decide +kernel
/-- A cancelled level: bits 63:48 of a packet's LEVEL words name it, and VD 0 has its identity under cancel. -/
theorem witness_LaunchEngineEvents_cands : ((wL l0).launches.map Prod.fst).Nodup ∧ (wL l0).cands 0 ≠ [] ∧ (∀ c ∈ (wL l0).cands 0, c.saved = none ∧ c.l.unstarted 0 = some c.idx) ∧
    (∀ c ∈ wSaved.cands 0, c.saved = some 1) ∧ savedWaits wSaved 0 5 1 { lk := 5, res := .saved, groups := [{}] } :=
  ⟨by decide +kernel, by decide +kernel, by decide +kernel, by decide +kernel, ⟨by decide +kernel, rfl, rfl, Or.inr (Or.inl rfl), rfl, rfl⟩⟩
theorem witness_LaunchEngineEvents_next : (∃ e ∈ (wPre.modBlock 0 fun b => { b with res := .moving }).blocks, e.2.slice = 0 ∧ e.2.res = .moving) ∧ ((wL l0).slice 0).inReset = false ∧ ((wL l0).slice 0).drain = false ∧
    (∀ e ∈ (wL l0).blocks, e.2.slice = 0 → e.2.res ≠ .moving) ∧ (wL l0).waiting 0 = [{ lk := 5, l := l0, idx := 0, saved := none }] ∧ (wL l0).placeFor 0 l0.kd = some (0, 0) ∧
    (∀ c ∈ wPre.waiting 0, wPre.placeFor 0 c.l.kd = none) ∧ 0 ∈ coresOf l0.kd := by
  unfold coresOf
  decide +kernel
theorem witness_LaunchEngineEvents_fits : evenRegions [] (toBytes 128 (kdN + 2048 * 2 ^ 64)) ∧ (fitAddr [] [] (toBytes 128 (kdN + 2048 * 2 ^ 64))).isSome ∧ 0 < fieldAt (toBytes 128 (kdN + 2048 * 2 ^ 64)) 8 4 ∧
    fitAddr (List.replicate 16 { lk := 1 }) [] (toBytes 128 kdN) = none := by
  unfold evenRegions
  decide +kernel
/-- The head of a packet that failed before it left, at the lead. -/
theorem witness_LaunchEngineEvents_failed : headAt (wQs .mapped (hdrAt 1 0 0) (some { n := 0, pkt := some pkt, cause := 5, met := true })) 0 9 { n := 0, pkt := some pkt, cause := 5, met := true } ∧
    rejectCause qDev pkt none none 5 false = some 5 ∧ (tget ((wQs .mapped (hdrAt 1 0 0) none).slice 0).trc 0).map TrcEnt.recm = some false := ⟨⟨by decide +kernel, rfl, fun f h => by cases h⟩, by decide +kernel⟩
def wDown (s : State) : State := s.modSlice 0 fun k => { k with inReset := true }
theorem witness_LaunchEngineEvents_late : (∀ x ∈ wMap.late, ¬(x.slice = 0 ∧ x.pid = 0 ∧ x.vd = 0)) ∧ isOk (wMap.engRead 0 0 0 0x6000 8).2 ∧ (wMap.engWrite 0 0 0 0x6000 (toBytes 8 1)).2 = none ∧
    (∃ x ∈ [({ slice := 0, pid := 0, vd := 0, op := .add 0x6000 1 } : Late)], x.slice = 0 ∧ x.pid = 0 ∧ x.vd = 0) ∧
    (match ({ wMap with migrating := [(0, 0)] } : State).engRead 0 0 0 0x6000 8 with
      | (_, .error f) => f.kind == .home
      | _ => false) = true ∧ (match ({ wMap with migrating := [(0, 0)] } : State).engWrite 0 0 0 0x6000 (toBytes 8 1) with
      | (_, some f) => f.kind == .home
      | _ => false) = true := by decide +kernel
theorem witness_LaunchEngineEvents_orders : (∀ e ∈ { wL { l0 with ordering := true } with ordq := [ord0] }.ordq, ({ wL { l0 with ordering := true } with ordq := [ord0] } : State).homeDown 0 e.pid (paOf (wMap.slice 0).map 0 e.sla) = false) ∧
    ({ wL { l0 with ordering := true } with ordq := [ord0], migrating := [(0, 0)] } : State).homeDown 0 0 (paOf (wMap.slice 0).map 0 ord0.sla) ∧ l0.list ≠ [] ∧
    (∀ k ∈ l0.list, k ∈ (wL l0).sliceList 0) ∧ l0.extra = [] ∧ (∀ e ∈ (wL l0).blocks, e.2.lk = 5 → e.2.slice ∈ (wL l0).sliceList 0) := by decide +kernel
theorem witness_LaunchEngineEvents_over : wCan.blockOver 0 { lk := 5, res := .resident, groups := [{}] } = false ∧ overFor wNone 1 { lk := 5, res := .saved, cancelled := true } ∧ (∀ e ∈ wNone.blocks, e.2.lk = 5 → e.2.slice = 0 → wNone.blockOver e.1 e.2) :=
  ⟨by decide +kernel, ⟨by decide +kernel, Or.inr ⟨Or.inl rfl, Or.inr rfl⟩⟩, by decide +kernel⟩

theorem witness_ResidencyEvents_victims : (wPre.blocks.map Prod.fst).Nodup ∧ (wPre.victims 0 (toBytes 128 kdN)).isSome ∧ ({ wPre with blocks := wPre.blocks.map fun (e : Nat × Block) => (e.1, { e.2 with lk := 5 }) } : State).victims 0 (toBytes 128 kdN) = none := by
  decide +kernel
/-- A tiller parked on its own load's fault, on a fetch fault, and one that is not. -/
theorem witness_ResidencyEvents_parked : parkedOn w0 (ex w0).b { (ex wPark).g with pend := [(2, { memP [rd 8192] (.vec 1 .b32) with kind := .mem { dst := .vec 1 .b32, lanes := [rd 8192], acc := { r := true }, faults := [{ fr1 with resolved := false }] } })] }
      { st := .longWait (.parked 2) } ∧ parkedOn w0 (ex w0).b (ex w0).g { st := .held (.longWait (.fetch [{ fr1 with resolved := false }])) } ∧ ¬parkedOn w0 (ex w0).b (ex w0).g { st := .ready } :=
  ⟨⟨_, Or.inl rfl, _, _, rfl, rfl, _, List.mem_singleton.2 rfl, rfl⟩, ⟨_, Or.inr rfl, _, List.mem_singleton.2 rfl, rfl⟩, fun ⟨w, h, _⟩ => by
    obtain h | h := h <;> cases h⟩
theorem witness_ResidencyEvents_carried : (tget (wR (fun b => { b with res := .restoring, carried := true, isTile := true }) id).blocks 0).map (fun b => (b.carried, b.isTile)) = some (true, true) ∧
    (∀ e ∈ (ex w0).g.pend, e.1 < (ex w0).g.flash.pendMark → e.2.kind ≠ .alu) := by decide +kernel

/-! ### Witnesses of clauses on commands, the network, boot, resets, traces, power and selection -/

/-- A partition in step 4 of a resize, to whose kernel the stack belongs, and the commands it holds over. -/
theorem witness_KernelCommands_held : (match tget (wRz 4 id).parts 0 with
      | some p => p.st == .resizing && (p.resize.map Resize.step == some 4) && p.held == []
      | none => false) = true ∧ gives (wRz 4 id) kcmd 0 ((tget (wRz 4 id).parts 0).getD {}) :=
  ⟨by decide +kernel, rfl, rfl, Or.inr rfl⟩
theorem witness_KernelCommands_scrub : (tget (wK id).parts 0).map (fun p => (p.resize, p.slices)) = some (none, [0]) ∧ tget (wK id).jobs (0 * 4 + 1) = none ∧ ([0] : List Nat).Nodup ∧ (wJob job0 false).jobsOf 0 ≠ [] := by decide +kernel
theorem witness_PacketsReceived_waits : (∃ k, k < 2 ^ 32 ∧ comesBefore rcv0.cum k 2 ∧ k ∉ rcv0.ahead) ∧ (2 ∉ rcv0.ahead) ∧ (2 + 2 ^ 32 - rcv0.cum) % 2 ^ 32 < 2 ^ 31 ∧ rcv0.ctlTurn 2 = false ∧
    ({ rcv0 with ahead := [1], held := [(wr8, 0)] } : Rcv).ctlTurn 2 = true ∧ tget (wRcv rcv0).rcvs 0 = some rcv0 ∧
    (match (wRcv rcv0).applyPkt 0 0 5 peer0 { gp 6 0 (toBytes 4 9) with psn := 0 } with
      | (_, .done) => true
      | _ => false) = true :=
  ⟨⟨0, by decide, by unfold comesBefore; decide, by decide⟩, by decide, by decide, by decide +kernel, by decide +kernel, by decide +kernel, by decide +kernel⟩
theorem witness_PacketsReceived_down : (match (wDown (wRcv rcv0)).applyPkt 0 0 5 peer0 { gp 1 0 (toBytes 4 9) with psn := 0 } with
      | (_, .hold) => true
      | _ => false) = true := by decide +kernel
theorem witness_PacketsSentAndPorts_map : (∀ k ∈ (wConn { sent := [{ sent0 1 with op := none }] }).conn 0 5 |>.sent, k.op = none ∧ 4 ≤ k.pkt.psn ∧ k.pkt.psn < 2 ^ 31 ∧ (k.pkt.psn = 4 ∨ (7 : Nat).testBit (k.pkt.psn - 4 - 1) = false)) ∧
    3 ≤ ((List.range 64).filter fun i => (7 : Nat).testBit i && decide (4 ≤ 4 + 1 + i)).length ∧ (wConn {}).now < ((wConn { paceAt := 5 }).conn 0 5).paceAt ∧ tget (wConn {}).conns (0 * 1024 + 6) = none := by decide +kernel
theorem witness_PacketsSentAndPorts_sheaf : (1 + 2 ^ 32 - (outSheaf 1).num) % 2 ^ 32 < 64 ∧ (3, rop0) ∈ { wNet id with rops := [(3, rop0)] }.rops ∧ rop0.b = 0 ∧ rop0.wait = .after 1 := by decide +kernel
/-- The copy 6 of a remote store with nothing in flight. -/
theorem witness_PacketsSentAndPorts_stop : (let s : State := { (wNet id) with copies := [(6, { kRun with kind := .rcpy 5 false 64 })], rops := [(6, { rop0 with kind := .cpy 6, left := 0 })] }
    (s.cpStop 6 (ex (wNet id)).b { kRun with kind := .rcpy 5 false 64 } (.fail 1 0 0)).isSome && s.rops.all fun o => o.2.left == 0) = true := by decide +kernel

theorem witness_BootAndTrust_power : { State.reset with powered := false, agenda := [(3, .ev .packagePowerOnReset)] }.agenda = [(3, Move.ev .packagePowerOnReset)] ∧ (wBoot 3 [(0, true)]).bootStep = 3 ∧
    tget (wBoot 3 [(0, true)]).tested 0 = some true ∧ (∀ x ∈ (tget (wBoot 3 []).slices 0).toList, x.inReset) ∧ (580 : Nat) ≤ max 600 1 ∧ (620 : Nat) ≤ max 1 1023 := by decide +kernel
theorem witness_PartitionCommands_records : 0x06 ∉ ([0x01, 0x02, 0x03, 0x04, 0x05, 0x10, 0x11, 0x12, 0x13, 0x14, 0x15, 0x16] : List Nat) ∧ ¬(0x20 ≤ 0x28 ∧ 0x28 ≤ 0x27) ∧ (∀ p, (some 0 : Option Nat) = some p → (tget wPort.parts p).isSome) ∧
    (({ wPort with resps := [{ cmd := pcmd, status := 0 }] } : State).resps.filter fun r => r.cmd.src.isNone)[0]? = some { cmd := pcmd, status := 0 } :=
  ⟨by decide, by decide, fun p h => by cases h; decide +kernel, by decide +kernel⟩
theorem witness_ResizesAndResets_expiry : (let s := { wRz 2 id with blocks := [(7, { slice := 1, core := 0, lk := 1, res := .resident })], now := 20000 }
    (s.blocks.map Prod.fst).Nodup ∧ tget s.blocks 7 = some { slice := 1, core := 0, lk := 1, res := .resident } ∧ s.tileMoving 1 0 = false ∧ (∀ o ∈ s.rops, o.2.b ≠ 7)) ∧
    (∃ o ∈ [((3 : Nat), { rop0 with slice := 1 })], o.2.slice = 1 ∧ (o.2.kind = .flag ∨ o.2.kind = .note)) ∧ (∀ e ∈ (wRz 2 id).rops, e.2.slice ≠ 1) ∧ (∀ e ∈ (wRz 2 id).blocks, e.2.slice ≠ 1) := by decide +kernel
theorem witness_ResizesAndResets_arrived : (∀ e ∈ (wRz 5 id).reports, e.2.pid ≠ 0) ∧ (∃ q ∈ [((6 : Nat), { q0 with home := 1 })], q.2.home = 1 ∧ q.2.st = .atHome) ∧
    ({ wL l0 with blocks := [(7, { lk := 5 })] }.poison = []) ∧ (∀ j, j ∈ [0] → j = 0 ∨ (wBack true |>.slice j).inReset) := by decide +kernel
theorem witness_ResizesAndResets_launch : tget { wRz 4 id with launches := [(5, { l0 with acks := [0, 1], lid := ord1.launch })] }.launches 5 = some { l0 with acks := [0, 1], lid := ord1.launch } ∧ l0.pid = 0 ∧ (1 : Nat) < 2 * 21456 := by decide +kernel

theorem witness_PowerEvents_bounds : bound { (w0.slice 0) with k := 20, kmax := 40 } = 20 ∧ bound { (w0.slice 0) with rising := true, want := 28 } = 28 ∧ (0 : Nat) < 0 + 1 ∧ (300 : Nat) / 2 ^ 8 % 2 ^ 6 ≤ 40 ∧
    (tget w0.slices 0).isSome ∧ (∃ e ∈ { w0 with slices := [(0, { rising := true, want := 12 })] }.slices, e.1 % 8 = 0 ∧ e.2.rising) := by
  unfold bound
  decide +kernel

/-- Tillers that a used-up window, a barrier's window or a marked register holds back. -/
def wNop (f : Group → Group) : State := (State.reset.placed 0x0003C001).modGroup 0 0 f
def cur0 : Cur := { b := 0, g := 0, t := 0 }
def exAt (s : State) : Ex := (({ s with cur := some cur0 } : State).load).getD (ex w0)
theorem witness_SelectionInRotation_held : (∀ k ∈ [PKind.alu, .cond (.bar 3), .cond (.aalloc 2)], let s := wNop fun g => { g with pend := [(4, { alu with kind := k })], tillers := listSet g.tillers 0 { (g.til 0) with wins := [{ id := 4, left := 0 }] } }
      (({ s with cur := some cur0 } : State).load).isSome ∧ (exAt s).t.st = .ready ∧ (exAt s).able = true ∧ (exAt s).t.wins.find? (fun w => w.left == 0) = some { id := 4, left := 0 } ∧
      (tget (exAt s).g.pend 4).map Pend.kind = some k) ∧ (∀ w ∈ (exAt (wNop id)).t.wins, w.left ≠ 0) ∧ (wNop id).tilPool 1 State.tilReady = [] ∧
    (({ (wt fun t => { t with st := .waiting }) with cur := some cur0 } : State).load).isSome := by decide +kernel
theorem witness_SelectionInRotation_mark : ((tget wMark.blocks 0).bind fun b => b.groups[0]?).any (fun g => g.pend.any fun e => !e.2.marks.isEmpty) = true ∧ (({ wMark with cur := some cur0 } : State).load).isSome := by decide +kernel
theorem witness_StepRunsDecodedInstruction_moves : { State.reset with agenda := [(1, .upset 5 3)] }.powered = true ∧ { State.reset with agenda := [(1, .record none 0x06 9)] }.agenda = [(1, Move.record none 0x06 9)] := by decide

/-- A stopped quarter whose dump is not written; a tiller that waits for a window, on a register and behind a fetch. -/
theorem witness_TraceEvents_freeze : ((wStop (some 0)).quarter 0).stop = some 0 ∧ ((wStop (some 0)).quarter 0).dumped = false ∧ inQuarter (wStop none) 0 (ex (wStop none)).b (ex (wStop none)).g ∧
    (∀ e ∈ (wStop (some 0)).blocks, e.2.slice * 4 + e.2.core = 0 / 4) ∧ (wStop none).blocks.map Prod.fst = [0] ∧ (ex (wStop none)).b.groups.length = 1 := by
  refine ⟨by decide +kernel, by decide +kernel, ⟨⟨by decide +kernel, by decide +kernel, by decide +kernel, by decide +kernel, by decide +kernel, by decide +kernel⟩, by decide +kernel⟩⟩
theorem witness_TraceEvents_counts : tget (wSamp {}).quarters 0 = some { stop := some 0, act := some (0, 0) :: List.replicate 7 none } ∧ ((wSamp {}).slice 0).trcCtl.testBit 0 ∧ 16 ≤ ((wSamp {}).slice 0).trcCtl / 2 ^ 48 ∧ available set0 0 ∧
    ¬available { set0 with off := 1 } 0 ∧ (wSet.slice 0).trcAddr ≠ 0 ∧ ((entT 5 3).pidOf 0 = some 0) ∧ tget ((entT 5 3).slice 0).trc 2 = none := by decide +kernel

theorem witness_CountersAndRecords : (tget wSet.slices 0).isSome ∧ tget (wSet.slice 0).csets 4 = some set0 ∧ (set0.vd = some 0 ∧ set0.frz = false) ∧ ({ set0 with frz := true }.vd ≠ some 1) ∧
    ([.nop on, .sadd (sop on), .iadd (vop on), .ffma { h := on, ty := .f32, rnd := .rs, sat := false, d := 1, a := .reg 2, b := .reg 3, c := 4 }] : List Instr).all (issuesAt w0 on true) ∧
    issuesAt w0 on true (.cstat on (.st 4 3)) ∧ issuesAt w0 on true (.flgrd on false 1) ∧ issuesAt w0 on true (.srd on 1 .time) ∧ issuesAt { wm with nextId := 3 } on true (.mstat on 1) ∧ (ex wm).b.isTile := by decide +kernel
theorem witness_CountersAndRecords_home : atHome [rd 8192] id ∧ (∀ o ∈ [rd 8192], o.op = .read) ∧ frameW.agrees 0 0 { r := true } ∧ wMap.tlbFind 0 0 0 0 8192 = none ∧ q0.pref = none := by decide +kernel
/-- A VD that is recorded at 0x6000, one that is replayed, and a packet of its connection. -/
def recT (e : TrcEnt) (head tail : Nat) : State := withMem [(0x6000, 64, ring head tail)] (wT fun k => { k with trc := [(0, { e with rstream := 0x6000 })] })
theorem witness_CountersAndRecords_order : (∀ x ∈ [(0, 14), (0, 15)], (match (recT { recm := true } x.1 x.2).rsHeader 0 0 0 0x6000 with
      | (u, some (lg, head, tail)) => decide (tail + 2 - head ≤ 2 ^ lg) == decide (x.2 = 14) && ((u.vmWrite 0 0 0 (0x6000 + 64 + 16 * (tail % 2 ^ lg)) (entryHead 3 0 16 5)).2.isNone)
      | _ => false) = true) ∧ (∀ w ∈ ((recT { recm := true } 0 0).slice 0).wrSeen, w.vd = peer0.lvd → w.va + w.len ≤ wr8.va ∨ wr8.va + wr8.len ≤ w.va) ∧
    (match (recT { rpl := true } 3 5).rsHeader 0 0 0 0x6000 with
      | (u, some (lg, head, tail)) => decide (tail = head + 2) && isOk (u.vmRead 0 0 0 (0x6000 + 64 + 16 * (head % 2 ^ lg)) 16).2 && isOk (u.vmRead 0 0 0 (0x6000 + 64 + 16 * ((head + 1) % 2 ^ lg)) 16).2 &&
          decide (cget 0 (u.slice 0).rplPos 0 = 0)
      | _ => false) = true ∧ wr8.typ = 1 ∧ (0 ∉ (wT id |>.slice 0).vdStop) ∧ (0 ∈ ({ (wT id |>.slice 0) with vdStop := [0] }).vdStop) := by decide +kernel
theorem witness_CountersAndRecords_reads : (match (withMem [(0x6000, 64, 1)] (recT { recm := true } 0 0)).rsHeader 0 0 0 0x6000 with
      | (_, none) => true
      | _ => false) = true ∧ recording { (ex w0) with s := recT { recm := true } 0 0, b := { (ex w0).b with vd := 0 } } 0x6000 ∧ replaying { (ex w0) with s := recT { rpl := true } 0 0, b := { (ex w0).b with vd := 0 } } 0x6000 :=
  ⟨by decide +kernel, ⟨_, rfl, rfl, rfl⟩, ⟨_, rfl, rfl, rfl, rfl⟩⟩
theorem witness_HostHartAccesses_modes : (let s := { wHart with harts := [(3, { run := true, mode := .vs, csr := [(0x302, 2 ^ 5), (0x602, 2 ^ 5)] })] }
    guestMode (s.hart (acc0 .load)).mode ∧ (csrOf (s.hart (acc0 .load)) 0x302).testBit 5 ∧ cwf 0 (s.hart (acc0 .load)).csr ∧ ¬mayAccess s (acc0 .hlv)) ∧
    mayAccess wHart (acc0 .hlv) ∧ csrOpen .m 0x300 true ∧ ¬csrOpen .s 0x300 false ∧ ({ mode := .s, csr := [(0x304, 2), (0x303, 2), (0x344, 2), (0x300, 2)] } : Hart).nextIntr 0 = some 1 ∧
    ({ mode := .s } : Hart).nextIntr 0 = none ∧ (wHart.hart (acc0 .load)).tlb = [] := by
  refine ⟨⟨by decide +kernel, by decide +kernel, by decide +kernel, fun h => ?_⟩, ⟨fun _ => Or.inl (by decide +kernel), fun h => ?_⟩, ⟨by decide, fun _ => by decide, Or.inl rfl⟩, fun h => ?_, by decide +kernel, by decide +kernel, by decide +kernel⟩
  · have := h.1 (Or.inl rfl)
    revert this
    decide +kernel
  · obtain ⟨f, h⟩ | h | h := h <;> cases h
  · obtain ⟨_, _, h | ⟨_, h⟩ | ⟨h, _⟩ | h⟩ := h
    · cases h
    · exact absurd h (by decide)
    · cases h
    · exact absurd h (by decide)
/-- A signalled identity of the supervisor's file; an MSI to guest file 1 of hart 0. -/
def hFile : Hart := { run := true, mode := .s, edel := [(0, 1)], eip := [(0, 2 ^ 9)], eie := [(0, 2 ^ 9)] }
theorem witness_HostHartAccesses_files : cget 0 hFile.edel 0 = 1 ∧ hFile.topId 0 = 9 ∧ cwf 0 hFile.eip ∧ cwf 0 hFile.eie ∧ (2 ^ 31 + 1 : Nat).testBit 31 ∧ ((2 ^ 31 + 1 : Nat) % 16 ≠ 0) ∧
    (({ wHart with routes := [(0, { pid := 0, nharts := 8, ifbase := 0x10 })] } : State).fileAt 0 0x100000).isSome ∧
    (({ wHart with routes := [(0, { pid := 0, nharts := 8, ifbase := 0x10 })] } : State).fileAt 0 0x200000).isNone := by decide +kernel
theorem witness_HostHartAccesses_devices : (wHart.slice 0).aplic.ie = false ∧ cwf 0 (wHart.slice 0).aplic.cfg ∧ cwf 0 (wHart.slice 0).aplic.tgt ∧ (tget wHart.slices 0).isSome ∧ (wHart.slice 0).aplic.pend = 0 ∧
    (({ wSet with harts := wHart.harts } : State).bound 0 0).isSome ∧ (({ wSet with harts := wHart.harts } : State).pagePut 0 0 0x40 7).isSome := by decide +kernel

end Sys2Proof.Tests
end

namespace Sys2Proof.Machine

/-! ### Homes and routes (R20, R319) -/

theorem listGet_of_none {α : Type} (d : α) : ∀ (l : List α) (i : Nat), l[i]? = none → listGet d l i = d
  | [], _, _ => rfl
  | _ :: _, 0, h => by simp at h
  | _ :: t, i + 1, h => listGet_of_none d t i (by simpa using h)

theorem bit_eq_testBit (x i : Nat) : bit x i = x.testBit i := by
  simp [bit, Nat.testBit_eq_decide_div_mod_eq, beq_eq_decide]

/-- How many entries of a piece of an interleave map name a slice. -/
def namedIn (sl : Nat) (l : List Nat) : Nat := (l.filter fun x => bit x 7 && x % 16 == sl).length

theorem namedIn_take_lt {sl w : Nat} {map : List Nat} {i j : Nat} (hw : map[i]? = some w) (hb : bit w 7 = true) (hs : w % 16 = sl) (hij : i < j) :
    namedIn sl (map.take i) < namedIn sl (map.take j) := by
  have hstep : namedIn sl (map.take (i + 1)) = namedIn sl (map.take i) + 1 := by
    simp [namedIn, List.take_add_one, hw, List.filter_append, hb, hs]
  have hmono : namedIn sl (map.take (i + 1)) ≤ namedIn sl (map.take j) :=
    ((List.take_sublist_take_left hij).filter _).length_le
  omega

theorem namedIn_take_lt_all {sl w : Nat} {map : List Nat} {i : Nat} (hw : map[i]? = some w) (hb : bit w 7 = true) (hs : w % 16 = sl) :
    namedIn sl (map.take i) < namedIn sl map := by
  have hi : i < map.length := (List.getElem?_eq_some_iff.mp hw).1
  simpa using namedIn_take_lt (j := map.length) hw hb hs hi

/-- The granule of its home that an address takes, where entry `w` of the map names the home (R319). -/
def homeGran (map : List Nat) (pa w : Nat) : Nat :=
  pa / 2 ^ 21 / 256 * namedIn (w % 16) map + namedIn (w % 16) (map.take (pa / 2 ^ 21 % 256))

/-- An address has the home that the valid entry of its granule names, at the granule's turn there. -/
theorem homeOf_eq_some {map : List Nat} {pa : Nat} {h : Nat × Nat} (e : homeOf map pa = some h) :
    ∃ w, map[pa / 2 ^ 21 % 256]? = some w ∧ bit w 7 = true ∧ homeGran map pa w < 21456 ∧
      h = (w % 16, homeGran map pa w * 2 ^ 21 + pa % 2 ^ 21) := by
  unfold homeOf at e
  dsimp only at e
  split at e
  · cases e
  · rename_i hbit
    split at e
    · cases e
    · rename_i hlt
      cases hg : map[pa / 2 ^ 21 % 256]? with
      | none =>
        rw [listGet_of_none _ _ _ hg] at hbit
        exact absurd rfl hbit
      | some w =>
        rw [listGet_of_getElem? _ _ _ hg] at e hbit hlt
        exact ⟨w, rfl, by simpa using hbit, by simpa [homeGran, namedIn, vgran] using hlt, by simpa [homeGran, namedIn] using e.symm⟩

/-- The turn of a granule at its home tells it apart from every other granule of that home. -/
theorem homeGran_injective {map : List Nat} {a b w w' : Nat} (ha : map[a / 2 ^ 21 % 256]? = some w) (hb : map[b / 2 ^ 21 % 256]? = some w')
    (hwa : bit w 7 = true) (hwb : bit w' 7 = true) (hs : w % 16 = w' % 16) (he : homeGran map a w = homeGran map b w') :
    a / 2 ^ 21 = b / 2 ^ 21 := by
  unfold homeGran at he
  rw [← hs] at he
  have hra := namedIn_take_lt_all ha hwa rfl
  have hrb := namedIn_take_lt_all hb hwb hs.symm
  have hdiv (q : Nat) {r : Nat} (hr : r < namedIn (w % 16) map) : (q * namedIn (w % 16) map + r) / namedIn (w % 16) map = q := by
    rw [Nat.mul_comm, Nat.mul_add_div (by omega), Nat.div_eq_of_lt hr, Nat.add_zero]
  have hq : a / 2 ^ 21 / 256 = b / 2 ^ 21 / 256 := (hdiv _ hra).symm.trans (by rw [he, hdiv _ hrb])
  rw [hq] at he
  have hr : a / 2 ^ 21 % 256 = b / 2 ^ 21 % 256 := by
    rcases Nat.lt_trichotomy (a / 2 ^ 21 % 256) (b / 2 ^ 21 % 256) with hlt | heq | hgt
    · have := namedIn_take_lt ha hwa rfl hlt
      omega
    · exact heq
    · have := namedIn_take_lt hb hwb hs.symm hgt
      omega
  omega

/-- No two addresses of a partition share a place in the stacks (R319). -/
theorem homeOf_injective {map : List Nat} {a b : Nat} {h : Nat × Nat} (ha : homeOf map a = some h) (hb : homeOf map b = some h) : a = b := by
  obtain ⟨w, hw, hbit, _, rfl⟩ := homeOf_eq_some ha
  obtain ⟨w', hw', hbit', _, he⟩ := homeOf_eq_some hb
  obtain ⟨hs, hp⟩ := Prod.mk.inj he
  have := homeGran_injective hw hw' hbit hbit' hs (by omega)
  omega

/-- Between two slices of the 2 by 8 grid, a hop goes one column nearer while the columns differ, and else to the other row (R20). -/
theorem nextHop_step {a b : Nat} (ha : a < 16) (hb : b < 16) :
    let n := nextHop a b
    n < 16 ∧ ((n / 8 = a / 8 ∧ ((n % 8 : Nat) : Int) = a % 8 + (if a % 8 < b % 8 then 1 else -1) ∧ a % 8 ≠ b % 8) ∨
      (n % 8 = a % 8 ∧ a % 8 = b % 8 ∧ n / 8 = b / 8)) := by
  unfold nextHop
  rcases Nat.lt_trichotomy (a % 8) (b % 8) with h | h | h
  · simp only [h, if_true]
    omega
  · simp only [h, lt_irrefl, if_false]
    split_ifs <;> exact ⟨by omega, Or.inr ⟨by omega, trivial, by omega⟩⟩
  · simp only [Nat.lt_asymm h, h, if_true, if_false]
    omega

/-- Settles O24: a granule's turn at its home is counted up by each entry of the map that names the home, so it is never the same for two granules;
the hop is computed case by case. -/
theorem homesAndRoutes : Obligations.HomesAndRoutes := by
  unfold Obligations.HomesAndRoutes
  refine ⟨fun map a b h ha hb => homeOf_injective ha hb, fun map a home sla h => ?_, fun a b ha hb _ => nextHop_step ha hb⟩
  obtain ⟨w, hw, hbit, hlt, he⟩ := homeOf_eq_some h
  obtain ⟨rfl, rfl⟩ := Prod.mk.inj he
  exact ⟨Nat.mod_lt _ (by decide), by omega, by omega, w, hw, by rw [← bit_eq_testBit]; exact hbit, rfl⟩

end Sys2Proof.Machine

section
/-!
SUPPORT. What an engine's own accesses of memory leave unchanged: all but the stacks, the slices, the partitions' owned frames, the open choices, the fault
doorbells, and the cores where the access uses a route TLB.
-/
namespace Sys2Proof.Machine

/-- The machine but for what an engine's accesses of memory change; the cores are among that where the access uses a core's route TLB. -/
def State.rest (via : Option Via) (s : State) : State :=
  { s with mem := [], slices := [], errs := [], poison := [], lineKey := [], parts := [], free := 0, doors := []
           cores := if via.isSome then [] else s.cores }

theorem blocks_of_rest {via : Option Via} {s t : State} (h : t.rest via = s.rest via) : t.blocks = s.blocks := by
  have := congrArg State.blocks h
  exact this
theorem reqs_of_rest {via : Option Via} {s t : State} (h : t.rest via = s.rest via) : t.reqs = s.reqs := by
  have := congrArg State.reqs h
  exact this
theorem harts_of_rest {via : Option Via} {s t : State} (h : t.rest via = s.rest via) : t.harts = s.harts := by
  have := congrArg State.harts h
  exact this
theorem cores_of_rest {s t : State} (h : t.rest none = s.rest none) : t.cores = s.cores := by
  have := congrArg State.cores h
  exact this

section
variable (via : Option Via) (s : State)

@[simp] theorem modSlice_rest (k : Nat) (f : Slice → Slice) : (s.modSlice k f).rest via = s.rest via := rfl
@[simp] theorem modPart_rest (k : Nat) (f : Part → Part) : (s.modPart k f).rest via = s.rest via := rfl
@[simp] theorem count_rest (slice vd ev n : Nat) : (s.count slice vd ev n).rest via = s.rest via := rfl
@[simp] theorem wakePch_rest (home sla : Nat) : (s.wakePch home sla).rest via = s.rest via := rfl

/-! ### Lines -/

@[simp] theorem checkLine_rest (line : Nat) : (s.checkLine line).1.rest via = s.rest via := by
  unfold State.checkLine
  dsimp only
  split_ifs <;> rfl

@[simp] theorem homeRead_rest (home sla n slot : Nat) : (s.homeRead home sla n slot).1.rest via = s.rest via := by
  have h := checkLine_rest via s (lineAt home sla)
  unfold State.homeRead
  dsimp only
  split
  · rfl
  · split_ifs <;> exact h

@[simp] theorem homeWrite_rest (home sla slot : Nat) (b : List Byte) : (s.homeWrite home sla slot b).1.rest via = s.rest via := by
  have h := homeRead_rest via s home (sla / 128 * 128) 128 slot
  unfold State.homeWrite
  dsimp only
  split
  · rfl
  · split_ifs
    · rfl
    · split <;> rename_i e <;> rw [e] at h
      · exact h
      · split_ifs <;> exact h

@[simp] theorem allocLine_rest (slice vd : Nat) (ways : List Nat) (x : SLine) : (s.allocLine slice vd ways x).rest via = s.rest via := by
  unfold State.allocLine
  dsimp only
  split
  · rfl
  · split <;> rfl

@[simp] theorem touch_rest (home pid vd tag gran sla : Nat) (t : Traf) : (s.touch home pid vd tag gran sla t).rest via = s.rest via := by
  have hmiss : ((if t.full then s.count home vd 0x006 1 else (s.count home vd 0x006 1).count home vd 0x008 1).wakePch home sla).rest via = s.rest via := by
    rw [wakePch_rest]
    split <;> simp only [count_rest]
  have hlook {u : State} (hu : u.rest via = s.rest via) (f : Slice → Slice) : (if t.op == 0 then u else u.modSlice home f).rest via = s.rest via := by
    split
    · exact hu
    · exact (modSlice_rest ..).trans hu
  unfold State.touch
  dsimp only
  refine hlook ?_ _
  split
  · exact count_rest ..
  · split
    · exact hmiss
    · exact (allocLine_rest ..).trans hmiss

@[simp] theorem door_rest (pid pa : Nat) (b : List Byte) : (s.door pid pa b).rest via = s.rest via := by
  unfold State.door
  split <;> rfl

end
end Sys2Proof.Machine
end

section
namespace Sys2Proof.Machine
section
variable (via : Option Via) (s : State)

/-! ### Walks -/

variable {via} in
theorem rest_of_run {α : Type} {r : State × α} {s t : State} {x : α} (e : r = (t, x)) (h : r.1.rest via = s.rest via) : t.rest via = s.rest via := by
  rw [← h, e]

@[simp] theorem readPa8_rest (slice : Nat) (map : List Nat) (pa key : Nat) : (s.readPa8 slice map pa key).1.rest via = s.rest via := by
  unfold State.readPa8
  split
  · rfl
  · rename_i home sla _
    have h := homeRead_rest via (s.wakePch home sla) home sla 8 key
    split <;> rename_i e <;> rw [e] at h <;> exact h

@[simp] theorem wcFill_rest (slice : Nat) (e : WcEnt) : (s.wcFill slice e).rest via = s.rest via := by
  unfold State.wcFill
  dsimp only
  split_ifs <;> rfl

@[simp] theorem walk2At_rest (slice : Nat) (map : List Nat) (vd gpa : Nat) (acc : Acc) (level table : Nat) :
    (State.walk2At slice map vd gpa acc level table s).1.rest via = s.rest via := by
  unfold State.walk2At
  dsimp only
  split
  · rfl
  · have h := readPa8_rest via s slice map (table + 8 * (if level == 4 then bits gpa 58 48 else gpa / 2 ^ (12 + 9 * level) % 512)) 0
    split <;> rename_i e <;> rw [e] at h
    · exact h
    · split_ifs
      · exact h
      · split <;> exact h
      · rw [wcFill_rest]; exact h

@[simp] theorem walk2Go_rest (slice : Nat) (map : List Nat) (vd gpa : Nat) (acc : Acc) : ∀ (level table : Nat) (s : State),
    (State.walk2Go slice map vd gpa acc level table s).1.rest via = s.rest via
  | 0, table, s => by
    have h := walk2At_rest via s slice map vd gpa acc 0 table
    unfold State.walk2Go
    split <;> rename_i e <;> rw [e] at h <;> exact h
  | l + 1, table, s => by
    have h := walk2At_rest via s slice map vd gpa acc (l + 1) table
    unfold State.walk2Go
    split <;> rename_i e <;> rw [e] at h
    · exact h
    · exact h
    · rw [walk2Go_rest slice map vd gpa acc l]; exact h

@[simp] theorem walk2_rest (slice : Nat) (map : List Nat) (vd : Nat) (ctx : VdCtx) (gpa : Nat) (acc : Acc) :
    (s.walk2 slice map vd ctx gpa acc).1.rest via = s.rest via := by
  unfold State.walk2
  split_ifs
  · rfl
  · rfl
  · exact walk2Go_rest ..

@[simp] theorem walk1At_rest (slice : Nat) (map : List Nat) (vd : Nat) (ctx : VdCtx) (va : Nat) (acc : Acc) (level table : Nat) :
    (State.walk1At slice map vd ctx va acc level table s).1.rest via = s.rest via := by
  unfold State.walk1At
  dsimp only
  split
  · rfl
  · have h2 := walk2_rest via s slice map vd ctx (table + 8 * (va / 2 ^ (12 + 9 * level) % 512)) { r := true }
    split <;> rename_i e2 <;> rw [e2] at h2
    · exact h2
    · rename_i s2 l2
      have h := readPa8_rest via s2 slice map l2.pa (ctx.keySlot l2.ksel)
      rw [h2] at h
      split <;> rename_i e <;> rw [e] at h
      · exact h
      · split_ifs
        · exact h
        · split <;> exact h
        · rw [wcFill_rest]; exact h

@[simp] theorem walk1Go_rest (slice : Nat) (map : List Nat) (vd : Nat) (ctx : VdCtx) (va : Nat) (acc : Acc) : ∀ (level table : Nat) (s : State),
    (State.walk1Go slice map vd ctx va acc level table s).1.rest via = s.rest via
  | 0, table, s => by
    have h := walk1At_rest via s slice map vd ctx va acc 0 table
    unfold State.walk1Go
    split <;> rename_i e <;> rw [e] at h <;> exact h
  | l + 1, table, s => by
    have h := walk1At_rest via s slice map vd ctx va acc (l + 1) table
    unfold State.walk1Go
    split <;> rename_i e <;> rw [e] at h
    · exact h
    · exact h
    · rw [walk1Go_rest slice map vd ctx va acc l]; exact h

@[simp] theorem walkVa_rest (slice pid vd va : Nat) (acc : Acc) : (s.walkVa slice pid vd va acc).1.rest via = s.rest via := by
  unfold State.walkVa
  dsimp only
  split
  · rfl
  · generalize (if bit va 56 then 0 else vd) = tag
    split
    · rfl
    split
    · rfl
    split
    · rfl
    split <;> rename_i e1
    · exact rest_of_run e1 (walk1Go_rest ..)
    · have h1 := rest_of_run e1 (walk1Go_rest via _ _ _ _ _ _ 4 _ s)
      split <;> rename_i e2
      · exact (rest_of_run e2 (walk2_rest ..)).trans h1
      · have h2 := (rest_of_run e2 (walk2_rest via ..)).trans h1
        split
        · exact h2
        · split <;> exact h2

@[simp] theorem ownerFrame_rest (slice pid vd : Nat) (x : Xl) (base va pa : Nat) :
    (State.ownerFrame slice pid vd x s base va pa).1.rest via = s.rest via := by
  unfold State.ownerFrame
  dsimp only
  split
  · rfl
  · rename_i home sla _
    split <;> rename_i e
    · exact rest_of_run e (homeRead_rest ..)
    · have h := rest_of_run e (homeRead_rest via (s.wakePch home sla) home sla 16 0)
      split_ifs
      · exact h
      · exact h
      · rw [modPart_rest, homeWrite_rest]; exact h
      · exact h

@[simp] theorem ownerCheck_rest (slice pid vd va : Nat) (x : Xl) : (s.ownerCheck slice pid vd va x).1.rest via = s.rest via := by
  have hfold (base va0 pa0 : Nat) (l : List Nat) : ∀ r : Res Unit, (l.foldl (fun (r : Res Unit) o => match r with
      | (s, .ok _) => State.ownerFrame slice pid vd x s base (va0 + o) (pa0 + o)
      | r => r) r).1.rest via = r.1.rest via := by
    induction l with
    | nil => exact fun _ => rfl
    | cons o l ih =>
      intro r
      rw [List.foldl_cons, ih]
      split
      · exact ownerFrame_rest ..
      · rfl
  unfold State.ownerCheck
  dsimp only
  split
  · rfl
  · split <;> rename_i e <;> exact rest_of_run e (hfold ..)

@[simp] theorem fullWalk_rest (slice pid vd va : Nat) (acc : Acc) : (s.fullWalk slice pid vd va acc).1.rest via = s.rest via := by
  unfold State.fullWalk
  split <;> rename_i e
  · exact rest_of_run e (walkVa_rest ..)
  · have h := rest_of_run e (walkVa_rest via ..)
    split <;> rename_i e' <;> exact (rest_of_run e' (ownerCheck_rest ..)).trans h

/-! ### Routes and frames -/

@[simp] theorem tlbFill_rest (v : Via) (slice core : Nat) (e : TlbE) : (s.tlbFill slice core e).rest (some v) = s.rest (some v) := by
  unfold State.tlbFill
  dsimp only
  split_ifs <;> rfl

@[simp] theorem tlbEnter_rest (v : Via) (slice core va : Nat) (e : TlbE) : (s.tlbEnter slice core va e).rest (some v) = s.rest (some v) := by
  unfold State.tlbEnter
  split
  · rfl
  · exact tlbFill_rest ..

@[simp] theorem frameFill_rest (home : Nat) (e : FrameE) : (s.frameFill home e).rest via = s.rest via := by
  unfold State.frameFill
  dsimp only
  split_ifs <;> rfl

@[simp] theorem viaDrop_rest (slice va : Nat) : (s.viaDrop slice va via).rest via = s.rest via := by
  cases via <;> rfl

@[simp] theorem routeEnt_rest (slice pid vd va : Nat) (acc : Acc) : (s.routeEnt slice pid vd va acc via).1.rest via = s.rest via := by
  have hmiss : ((if via.isSome then s.count slice vd 0x009 1 else s).count slice vd 0x00A 1).rest via = s.rest via := by
    split <;> rfl
  unfold State.routeEnt
  dsimp only
  split
  · rfl
  · split <;> rename_i e
    · exact (rest_of_run e (fullWalk_rest ..)).trans hmiss
    · have h := (rest_of_run e (fullWalk_rest via ..)).trans hmiss
      cases via with
      | none => exact h
      | some v => exact (tlbEnter_rest ..).trans h

@[simp] theorem frameEnt_rest (home pid vd va : Nat) (acc : Acc) : (s.frameEnt home pid vd va acc).1.rest via = s.rest via := by
  unfold State.frameEnt
  split
  · rfl
  · split <;> rename_i e
    · exact rest_of_run e (fullWalk_rest ..)
    · have h := rest_of_run e (fullWalk_rest via (s.count home vd 0x00A 1) ..)
      dsimp only
      split_ifs
      · exact (frameFill_rest ..).trans h
      · exact h

@[simp] theorem reachAt_rest (pid vd va : Nat) (acc : Acc) (e : TlbE) : (s.reachAt pid vd va acc e).1.rest via = s.rest via := by
  unfold State.reachAt
  dsimp only
  split
  · rfl
  split
  · rfl
  split <;> rename_i e
  · exact rest_of_run e (frameEnt_rest ..)
  · have h := rest_of_run e (frameEnt_rest via ..)
    split
    · exact h
    · rename_i fr _
      generalize va % (if fr.big then 2 ^ 21 else 4096) = low
      split <;> exact h

@[simp] theorem reach_rest (slice pid vd va : Nat) (acc : Acc) : (s.reach slice pid vd va acc via).1.rest via = s.rest via := by
  have hdrop {s t : State} {f : PFault} (h : t.rest via = s.rest via) :
      (if f.kind == .firewall then t.viaDrop slice va via else t).rest via = s.rest via := by
    split
    · exact (viaDrop_rest ..).trans h
    · exact h
  unfold State.reach
  split <;> rename_i e1
  · exact rest_of_run e1 (routeEnt_rest ..)
  · have h1 := rest_of_run e1 (routeEnt_rest via ..)
    split <;> rename_i e2
    · exact hdrop ((rest_of_run e2 (reachAt_rest ..)).trans h1)
    · exact (rest_of_run e2 (reachAt_rest ..)).trans h1
    · have h2 := (rest_of_run e2 (reachAt_rest via ..)).trans h1
      split <;> rename_i e3
      · exact (rest_of_run e3 (routeEnt_rest via ..)).trans ((viaDrop_rest ..).trans h2)
      · have h3 := (rest_of_run e3 (routeEnt_rest via ..)).trans ((viaDrop_rest ..).trans h2)
        split <;> rename_i e4
        · exact hdrop ((rest_of_run e4 (reachAt_rest ..)).trans h3)
        · exact (rest_of_run e4 (reachAt_rest ..)).trans h3
        · exact (rest_of_run e4 (reachAt_rest ..)).trans h3

/-! ### Reading and writing by virtual address -/

@[simp] theorem vmReadGo_rest (slice pid vd : Nat) (t : Traf) : ∀ (k : Nat) (s : State) (va n : Nat),
    (State.vmReadGo slice pid vd t via k s va n).1.rest via = s.rest via
  | 0, _, _, _ => rfl
  | k + 1, s, va, n => by
    unfold State.vmReadGo
    dsimp only
    split
    · rfl
    split <;> rename_i e
    · exact rest_of_run e (reach_rest ..)
    · have h := rest_of_run e (reach_rest via ..)
      split <;> rename_i e'
      · exact (rest_of_run e' (homeRead_rest ..)).trans ((touch_rest ..).trans h)
      · have h' := (rest_of_run e' (homeRead_rest via ..)).trans ((touch_rest ..).trans h)
        have hk := (vmReadGo_rest slice pid vd t k _ (va + min n (128 - va % 128)) (n - min n (128 - va % 128))).trans h'
        split <;> rename_i e2
        · exact (rest_of_run e2 rfl).trans hk
        · exact hk

@[simp] theorem vmRead_rest (slice pid vd va n : Nat) (t : Traf) : (s.vmRead slice pid vd va n t via).1.rest via = s.rest via := vmReadGo_rest ..

@[simp] theorem vmWriteGo_rest (slice pid vd : Nat) (t : Traf) : ∀ (k : Nat) (s : State) (va : Nat) (b : List Byte),
    (State.vmWriteGo slice pid vd t via k s va b).1.rest via = s.rest via
  | 0, _, _, _ => rfl
  | k + 1, s, va, b => by
    unfold State.vmWriteGo
    dsimp only
    split
    · rfl
    split <;> rename_i e
    · exact rest_of_run e (reach_rest ..)
    · have h := rest_of_run e (reach_rest via ..)
      split <;> rename_i e'
      · exact (rest_of_run e' (homeWrite_rest ..)).trans ((touch_rest ..).trans h)
      · have h' := (rest_of_run e' (homeWrite_rest via ..)).trans ((touch_rest ..).trans h)
        exact (vmWriteGo_rest slice pid vd t k ..).trans ((door_rest ..).trans h')

@[simp] theorem vmWrite_rest (slice pid vd va : Nat) (b : List Byte) (t : Traf) : (s.vmWrite slice pid vd va b t via).1.rest via = s.rest via :=
  vmWriteGo_rest ..

@[simp] theorem codeBlock_rest (slice pid vd va : Nat) : (s.codeBlock slice pid vd va via).1.rest via = s.rest via := by
  unfold State.codeBlock
  dsimp only
  split <;> rename_i e
  · exact rest_of_run e (reach_rest ..)
  · have h := rest_of_run e (reach_rest via ..)
    split <;> rename_i e' <;> exact (rest_of_run e' (homeRead_rest ..)).trans ((touch_rest ..).trans h)

/-! ### Reports of faults -/

/-- What a report of a fault leaves: the blocks, the requests and the cores. -/
def State.work (s : State) : List (Nat × Block) × List (Nat × Req) × List (Nat × CoreSt) := (s.blocks, s.reqs, s.cores)

theorem work_of_rest {s t : State} (h : t.rest none = s.rest none) : t.work = s.work := by
  rw [State.work, blocks_of_rest h, reqs_of_rest h, cores_of_rest h, State.work]

variable {s} in
theorem work_of_run {α : Type} {r : State × α} {t : State} {x : α} (e : r = (t, x)) (h : r.1.work = s.work) : t.work = s.work := by
  rw [← h, e]

theorem faultRing_rest (slice pid vd base : Nat) (await : Bool) (rcd : List Byte) :
    (s.faultRing slice pid vd base await rcd).1.rest none = s.rest none := by
  unfold State.faultRing
  split
  · rfl
  split <;> rename_i e
  · exact rest_of_run e (vmRead_rest none ..)
  · have h := rest_of_run e (vmRead_rest none ..)
    dsimp only
    split
    · exact h
    split
    · split
      · exact h
      · exact (vmWrite_rest none ..).trans h
    split <;> rename_i e'
    · exact (rest_of_run e' (vmWrite_rest none ..)).trans h
    · exact (vmWrite_rest none ..).trans ((rest_of_run e' (vmWrite_rest none ..)).trans h)

theorem pendFile_work (pid h file iid : Nat) : (s.pendFile pid h file iid).work = s.work := by
  unfold State.pendFile
  split
  · rfl
  · dsimp only
    split <;> rfl

theorem msi_work (slice pid vd iid : Nat) : (s.msi slice pid vd iid).work = s.work := by
  unfold State.msi
  dsimp only
  split
  · rfl
  split
  · rfl
  · exact pendFile_work ..

/-- A record is tried: the report stands in the table, and what reports leave is left. -/
theorem tryRecord_work (id : Nat) (r : Report) : (s.tryRecord id r).work = s.work ∧ (tget (s.tryRecord id r).reports id).isSome := by
  unfold State.tryRecord
  dsimp only
  split <;> rename_i e <;> have h := (work_of_run e (work_of_rest (faultRing_rest ..)))
  · exact ⟨(msi_work ..).trans h, by simp⟩
  · exact ⟨h, by simp⟩
  · exact ⟨h, by simp⟩

/-- A report leaves the blocks, the requests and the cores, and stands in the table under its token less 1. -/
theorem report_work (r : Report) : (s.report r).2.work = s.work ∧ (tget (s.report r).2.reports ((s.report r).1 - 1)).isSome := by
  unfold State.report State.fresh
  dsimp only
  split
  · exact tryRecord_work ..
  · exact ⟨rfl, by simp⟩

theorem notice_work (slice pid vd va pc kind detail acc info : Nat) : (s.notice slice pid vd va pc kind detail acc info).work = s.work := by
  unfold State.notice
  dsimp only
  split <;> rename_i e <;> have h := (work_of_run e (work_of_rest (faultRing_rest ..)))
  · exact (msi_work ..).trans h
  · exact h
  · exact h

theorem fwNotice_work (home acc : Nat) : (s.fwNotice home acc).work = s.work := by
  unfold State.fwNotice
  dsimp only
  split
  · exact notice_work ..
  · rfl
end
end Sys2Proof.Machine
end

section
/-!
SUPPORT. Messages between slices (R18 to R21): the hop, the arrival, the refusal that comes back.
-/
namespace Sys2Proof.Claims
open Sys2Proof.Machine

theorem msgBehind_eq_false {s : State} {m : Nat} {x : Msg} : s.msgBehind m x = false ↔ noneAhead s m x := by
  simp only [State.msgBehind, noneAhead, List.any_eq_false, Bool.and_eq_true, decide_eq_true_eq, beq_iff_eq, not_and, and_assoc]

theorem msgBehind_eq_true {s : State} {m : Nat} {x : Msg} (h : ¬noneAhead s m x) : s.msgBehind m x = true := by
  rw [← msgBehind_eq_false, Bool.not_eq_false] at h
  exact h

theorem exec_fabricHop (m : Nat) (s : State) : exec (.fabricHop m) s = execFabricHop m s := rfl
theorem exec_edgeMessageArrival (m : Nat) (s : State) : exec (.edgeMessageArrival m) s = execEdgeMessageArrival m s := rfl
theorem exec_firewallStatusReceived (r : Nat) (s : State) : exec (.firewallStatusReceived r) s = execFirewallStatusReceived r s := rfl

/-- The messages at the input port that a message would come to, those in the shared pool. -/
def poolAt (s : State) (m : Nat) (x : Msg) : List (Nat × Msg) :=
  s.msgs.filter fun e => e.2.pos == nextHop x.pos x.dst && e.2.port == x.pos && e.1 != m && !e.2.esc
/-- A message of the class holds the escape buffer of that port. -/
def escTaken (s : State) (m : Nat) (x : Msg) : Bool :=
  (s.msgs.filter fun e => e.2.pos == nextHop x.pos x.dst && e.2.port == x.pos && e.1 != m).any fun e => e.2.esc && e.2.cls == x.cls

theorem escTaken_iff {s : State} {m : Nat} {x : Msg} : escTaken s m x = true ↔
    ∃ e ∈ s.msgs, e.1 ≠ m ∧ e.2.pos = nextHop x.pos x.dst ∧ e.2.port = x.pos ∧ e.2.esc = true ∧ e.2.cls = x.cls := by
  simp only [escTaken, List.any_eq_true, List.mem_filter, Bool.and_eq_true, beq_iff_eq, bne_iff_ne]
  constructor
  · rintro ⟨e, ⟨hm, ⟨h1, h2⟩, h3⟩, h4, h5⟩
    exact ⟨e, hm, h3, h1, h2, h4, h5⟩
  · rintro ⟨e, hm, h3, h1, h2, h4, h5⟩
    exact ⟨e, ⟨hm, ⟨h1, h2⟩, h3⟩, h4, h5⟩

/-- A message with no older one of its class, source and destination ahead moves where there is room, and stays otherwise. -/
theorem fabricHop_eq {s : State} {m : Nat} {x : Msg} (hx : tget s.msgs m = some x) (hpos : x.pos ≠ x.dst) (ha : noneAhead s m x) :
    exec (.fabricHop m) s = event s (
      if (x.cls = .rsp ∧ nextHop x.pos x.dst = x.dst) ∨ (poolAt s m x).length < Config.hopPool then
        some { s with msgs := tput s.msgs m { x with pos := nextHop x.pos x.dst, port := x.pos, esc := false } }
      else if escTaken s m x then none
      else some { s with msgs := tput s.msgs m { x with pos := nextHop x.pos x.dst, port := x.pos, esc := true } }) := by
  have hb := msgBehind_eq_false.mpr ha
  have hpool : ((s.msgs.filter fun e => e.2.pos == nextHop x.pos x.dst && e.2.port == x.pos && e.1 != m).filter fun e => !e.2.esc) = poolAt s m x := by
    rw [List.filter_filter, poolAt]
    congr 1
    funext e
    exact Bool.and_comm ..
  rw [exec_fabricHop, execFabricHop]
  simp only [hx, hb, hpool, beq_eq_false_iff_ne.mpr hpos, Bool.or_self, Bool.false_eq_true, if_false]
  rw [show (List.any _ _) = escTaken s m x from rfl]
  simp only [Bool.or_eq_true, Bool.and_eq_true, beq_iff_eq, decide_eq_true_eq]
  split
  · rfl
  · cases escTaken s m x <;> rfl

/-- A message behind an older one of its class, source and destination stays where it is. -/
theorem fabricHop_behind {s : State} {m : Nat} {x : Msg} (hx : tget s.msgs m = some x) (ha : ¬noneAhead s m x) : exec (.fabricHop m) s = .next s := by
  rw [exec_fabricHop, execFabricHop]
  simp [hx, msgBehind_eq_true ha, event]

theorem edgeMessageArrival_behind {s : State} {m : Nat} {x : Msg} (hx : tget s.msgs m = some x) (ha : ¬noneAhead s m x) :
    exec (.edgeMessageArrival m) s = .next s := by
  rw [exec_edgeMessageArrival, execEdgeMessageArrival]
  simp [hx, msgBehind_eq_true ha, event]

/-! ### Arrival -/

/-- Learning a stamp changes what slices know of writes, and nothing else. -/
theorem learn_eq (at' : Nat) : ∀ (st : List (Nat × Nat)) (s : State), ∃ c, s.learn at' st = { s with stKnown := c }
  | [], s => ⟨s.stKnown, rfl⟩
  | e :: t, s => by
    have hcons : s.learn at' (e :: t) =
        (if cget 0 s.stKnown (at' * 256 + e.1) == 0 || ahead32 e.2 (cget 0 s.stKnown (at' * 256 + e.1) - 1) then
          { s with stKnown := cset 0 s.stKnown (at' * 256 + e.1) (e.2 + 1) } else s).learn at' t := rfl
    rw [hcons]
    split
    · obtain ⟨c, hc⟩ := learn_eq at' t { s with stKnown := cset 0 s.stKnown (at' * 256 + e.1) (e.2 + 1) }
      exact ⟨c, hc⟩
    · exact learn_eq at' t s

theorem passOn_eq (key : Nat) : ∀ (k : Nat) (s : State), ∃ a b, State.passOn key k s = { s with stApplied := a, stSkip := b }
  | 0, s => ⟨s.stApplied, s.stSkip, rfl⟩
  | k + 1, s => by
    unfold State.passOn
    dsimp only
    split
    · obtain ⟨a, b, h⟩ := passOn_eq key k _
      exact ⟨a, b, h⟩
    · exact ⟨s.stApplied, s.stSkip, rfl⟩

/-- A numbered write that counts as applied changes the counts of applied writes, and nothing else. -/
theorem passNum_eq (s : State) (r : Req) : ∃ a b, s.passNum r = { s with stApplied := a, stSkip := b } := by
  unfold State.passNum
  split
  · obtain ⟨a, b, h⟩ := passOn_eq _ _ _
    exact ⟨a, b, h⟩
  · exact ⟨s.stApplied, s.stSkip, rfl⟩

/-- A request turned away at the edge leaves memory, and its status is on its way back. -/
theorem turnAway_eq (s : State) (x : Msg) (r : Req) (f : PFault) :
    (s.turnAway x r f).mem = s.mem ∧ ∃ k, tget (s.turnAway x r f).reqs x.req = some { r with st := .failBack k f } := by
  obtain ⟨a, b, h⟩ := passNum_eq s r
  unfold State.turnAway State.post State.fresh
  rw [h]
  exact ⟨rfl, s.nextId, tget_tput_same ..⟩

section
variable {s : State} {m : Nat} {x : Msg} {r : Req} (hx : tget s.msgs m = some x) (hpos : x.pos = x.dst) (ha : noneAhead s m x)
  (hr : tget s.reqs x.req = some r)
include hx hpos ha hr

theorem edgeMessageArrival_back {k : Nat} (hc : x.cls = .rsp) (hst : r.st = .back k) :
    ∃ t, exec (.edgeMessageArrival m) s = .next t ∧ tget t.msgs m = none ∧ t.mem = s.mem ∧ tget t.reqs x.req = some { r with st := .done } := by
  obtain ⟨c, hl⟩ := learn_eq x.dst r.stamp { s with msgs := tdel s.msgs m }
  rw [exec_edgeMessageArrival, execEdgeMessageArrival]
  simp only [hx, hpos, bne_self_eq_false, msgBehind_eq_false.mpr ha, Bool.or_self, Bool.false_eq_true, if_false, hr, hc, beq_self_eq_true, if_true, hst, hl]
  exact ⟨_, rfl, tget_tdel_same .., rfl, tget_tput_same ..⟩

/-- A request that has come to its destination: the edge turns it away, or it is at its home. -/
theorem edgeMessageArrival_request (hc : x.cls ≠ .rsp) : exec (.edgeMessageArrival m) s = .next (
    let u : State := { s with msgs := tdel s.msgs m }
    if (s.slice x.dst).inReset then u.turnAway x r { kind := .home }
    else if s.admits x.dst x.pid then { u.learn x.dst r.stamp with reqs := tput s.reqs x.req { r with st := .atHome } }
    else (u.fwNotice x.dst x.acc.code).turnAway x r { kind := .firewall, home := x.dst }) := by
  obtain ⟨c, hl⟩ := learn_eq x.dst r.stamp { s with msgs := tdel s.msgs m }
  rw [exec_edgeMessageArrival, execEdgeMessageArrival]
  simp only [hx, hpos, bne_self_eq_false, msgBehind_eq_false.mpr ha, Bool.or_self, Bool.false_eq_true, if_false, hr, beq_eq_false_iff_ne.mpr hc, hl]
  change event s (if (s.slice x.dst).inReset then _ else if !s.admits x.dst x.pid then _ else _) = _
  cases (s.slice x.dst).inReset <;> cases s.admits x.dst x.pid <;> rfl

end

/-! ### A request that has failed -/

theorem flight_eq_some {s : State} {bi gi id : Nat} {b : Block} {g : Group} {p : Pend} {m : MemFlight} :
    s.flight bi gi id = some (b, g, p, m) ↔ tget s.blocks bi = some b ∧ b.groups[gi]? = some g ∧ tget g.pend id = some p ∧ p.kind = .mem m := by
  simp only [State.flight, Option.bind_eq_some_iff]
  constructor
  · rintro ⟨b', hb, g', hg, p', hp, h⟩
    split at h
    · cases h
      exact ⟨hb, hg, hp, ‹_›⟩
    · cases h
  · rintro ⟨hb, hg, hp, hk⟩
    exact ⟨b, hb, g, hg, p, hp, by rw [hk]⟩

theorem flight_congr {s t : State} (h : t.blocks = s.blocks) (bi gi id : Nat) : t.flight bi gi id = s.flight bi gi id := by
  rw [State.flight, h, State.flight]

/-- A group changed is the group at its place. -/
theorem groupAt_modGroup {s : State} {b g : Nat} {gr : Group} (h : GroupAt s b g gr) (f : Group → Group) : GroupAt (s.modGroup b g f) b g (f gr) := by
  obtain ⟨bl, gs, hb, ⟨_, _, hbl⟩, hg, _⟩ := modGroup_becomes h f
  exact ⟨_, hbl, hg⟩

/-- A pending memory instruction that has been changed is the one under way. -/
theorem flight_modGroup {s : State} {bi gi id : Nat} {b : Block} {g : Group} {p p' : Pend} {m m' : MemFlight} {f : Group → Group}
    (h : s.flight bi gi id = some (b, g, p, m)) (hp : tget (f g).pend id = some p') (hk : p'.kind = .mem m') :
    ∃ b', (s.modGroup bi gi f).flight bi gi id = some (b', f g, p', m') := by
  obtain ⟨hb, hg, _, _⟩ := flight_eq_some.mp h
  obtain ⟨b', hb', hg'⟩ := groupAt_modGroup ⟨b, hb, hg⟩ f
  exact ⟨b', flight_eq_some.mpr ⟨hb', hg', hp, hk⟩⟩

/-- The end of an instruction with unfinished lanes leaves the requests and the cores. -/
theorem endFlight_unfinished {s : State} {bi gi id : Nat} (h : ∀ b g p m, s.flight bi gi id = some (b, g, p, m) → m.lanes ≠ []) :
    (s.endFlight bi gi id).reqs = s.reqs ∧ (s.endFlight bi gi id).cores = s.cores := by
  unfold State.endFlight
  split
  · exact ⟨rfl, rfl⟩
  · split
    · exact ⟨rfl, rfl⟩
    · rename_i hf
      rw [if_neg (by simpa using h _ _ _ _ hf)]
      split <;> exact ⟨rfl, rfl⟩

/-- A failed request of an instruction with unfinished lanes is gone, and the cores are left. -/
theorem failReq_unfinished {s : State} {r : Req} (rid detector : Nat) (f : PFault)
    (h : ∀ b g p m, s.flight r.b r.g r.pend = some (b, g, p, m) → m.lanes ≠ []) :
    (s.failReq rid r detector f).reqs = tdel s.reqs rid ∧ (s.failReq rid r detector f).cores = s.cores := by
  unfold State.failReq
  dsimp only
  have hdel : ({ s with reqs := tdel s.reqs rid } : State).flight r.b r.g r.pend = s.flight r.b r.g r.pend := flight_congr rfl ..
  rw [hdel]
  split
  · exact ⟨rfl, rfl⟩
  · rename_i b g p m hf
    split
    · exact endFlight_unfinished (s := { s with reqs := tdel s.reqs rid }) (by rwa [hdel])
    · generalize hrep : State.report _ _ = rep
      have hw : rep.2.work = _ := hrep ▸ (report_work ..).1
      obtain ⟨hblocks, hreqs, hcores⟩ : rep.2.blocks = s.blocks ∧ rep.2.reqs = tdel s.reqs rid ∧ rep.2.cores = s.cores := by
        simpa [State.work] using hw
      obtain ⟨b', hfl⟩ := flight_modGroup (s := rep.2) (f := fun g => { g with pend := tput g.pend r.pend { p with kind := .mem _ } })
        ((flight_congr hblocks ..).trans hf) (tget_tput_same ..) rfl
      refine (endFlight_unfinished ?_).imp (·.trans hreqs) (·.trans hcores)
      intro b1 g1 p1 m1 h1
      rw [hfl] at h1
      cases h1
      exact h b g p m hf

theorem firewallStatusReceived_refused {s : State} {rid : Nat} {r : Req} {f : PFault} {c : CoreSt} (hr : tget s.reqs rid = some r) (hst : r.st = .refused f)
    (hl : ∀ b g p m, s.flight r.b r.g r.pend = some (b, g, p, m) → m.lanes ≠ []) (hc : tget s.cores (coreKey r.slice r.core) = some c) :
    ∃ t, exec (.firewallStatusReceived rid) s = .next t ∧ tget t.reqs rid = none ∧ tget t.cores (coreKey r.slice r.core) =
      some { c with tlb := c.tlb.filter fun e => !(e.blk = r.b ∧ e.vpn = if e.big then r.gran * 128 / 2 ^ 21 else r.gran * 128 / 4096) } := by
  obtain ⟨hreqs, hcores⟩ := failReq_unfinished (s := s.routeDrop r.slice r.core r.b (r.gran * 128)) rid r.slice f (r := r) hl
  rw [exec_firewallStatusReceived, execFirewallStatusReceived]
  simp only [hr, hst, event_some]
  refine ⟨_, rfl, ?_, ?_⟩
  · rw [hreqs]
    exact tget_tdel_same ..
  · rw [hcores, State.routeDrop]
    show tget (tmod s.cores _ _) _ = _
    rw [tget_tmod, if_pos rfl, hc]
    simp [vpnOf, beq_eq_decide]

end Sys2Proof.Claims
end

section
/-!
SUPPORT. Instruction fetch (R41, R52, R128) and the exchange of groups (R80).
-/
namespace Sys2Proof.Claims
open Sys2Proof.Machine

theorem exec_instructionCacheFill (b g k : Nat) (s : State) : exec (.instructionCacheFill b g k) s = execInstructionCacheFill b g k s := rfl
theorem exec_instructionFetchFault (b g k : Nat) (s : State) : exec (.instructionFetchFault b g k) s = execInstructionFetchFault b g k s := rfl
theorem exec_pendingReadyTimeout (q : Nat) (s : State) : exec (.pendingReadyTimeout q) s = execPendingReadyTimeout q s := rfl

/-- A tiller at its place in its group. -/
theorem til_of_getElem? {g : Group} {k : Nat} {u : Tiller} (h : g.tillers[k]? = some u) : g.til k = u := listGet_of_getElem? _ _ _ h

theorem fetcher_eq {s : State} {b g k : Nat} {bl : Block} {gr : Group} {u : Tiller} (h : toFetch s b g k bl gr u) : s.fetcher b g k = some (bl, u) := by
  obtain ⟨hb, hg, hu, hst, hres, hfail, hic⟩ := h
  simp [State.fetcher, hb, hg, til_of_getElem? hu, hst, hres, hfail, hic]

/-- A fetched block that enters a core's cache is in it, and memory and the blocks are left. -/
theorem icFill_eq (s : State) (slice core : Nat) (e : IBlk) (hc : (tget s.cores (coreKey slice core)).isSome) :
    (s.icFill slice core e).mem = s.mem ∧ (s.icFill slice core e).blocks = s.blocks ∧ e ∈ ((s.icFill slice core e).core (coreKey slice core)).ic := by
  obtain ⟨c, hc⟩ := Option.isSome_iff_exists.mp hc
  have hin (f : CoreSt → CoreSt) (hf : e ∈ (f c).ic) (u : State) (hu : u.cores = s.cores) : e ∈ ((u.modCore (coreKey slice core) f).core (coreKey slice core)).ic := by
    show e ∈ ((tget (tmod u.cores _ f) _).getD {}).ic
    rw [tget_tmod, if_pos rfl, hu, hc]
    exact hf
  unfold State.icFill State.choose
  dsimp only
  split
  · exact ⟨rfl, rfl, hin _ List.mem_cons_self s rfl⟩
  · exact ⟨rfl, rfl, hin _ List.mem_cons_self _ rfl⟩

section
variable {s : State} {b g k : Nat} {bl : Block} {gr : Group} {u : Tiller} (hf : toFetch s b g k bl gr u)
include hf

theorem instructionCacheFill_ok {s' : State} {w : List Nat} (hcan : canonical u.pc = true)
    (hcode : s.codeBlock bl.slice bl.pid bl.vd u.pc (some ⟨bl.core, b⟩) = (s', .ok w)) (hc : (tget s'.cores (coreKey bl.slice bl.core)).isSome) :
    ∃ t, exec (.instructionCacheFill b g k) s = .next t ∧ t.mem = s'.mem ∧ t.blocks = s'.blocks ∧
      { vd := vdTag bl.vd u.pc, blk := u.pc / 32, words := w } ∈ (t.core (coreKey bl.slice bl.core)).ic := by
  refine ⟨s'.icFill bl.slice bl.core { vd := vdTag bl.vd u.pc, blk := u.pc / 32, words := w }, ?_, icFill_eq _ _ _ _ hc⟩
  rw [exec_instructionCacheFill, execInstructionCacheFill]
  simp only [fetcher_eq hf, hcan, hcode, Bool.not_true, Bool.false_eq_true, if_false, event_some]

theorem instructionFetchFault_notCanonical (hcan : canonical u.pc = false) :
    exec (.instructionFetchFault b g k) s = .next (s.failBlock b { kind := 4, detail := 0x30, va := u.pc, pc := u.pc, lane := lowLane u.mask, acc := 4 }) := by
  rw [exec_instructionFetchFault, execInstructionFetchFault]
  simp only [fetcher_eq hf, hcan, Bool.not_false, if_true, event_some]

/-- A fault of a fetch is reported, and its tiller waits for the answer. -/
theorem instructionFetchFault_reported {s' : State} {f : PFault} (hcan : canonical u.pc = true)
    (hcode : s.codeBlock bl.slice bl.pid bl.vd u.pc (some ⟨bl.core, b⟩) = (s', .error f)) (hun : s'.unreported bl.slice bl.pid bl.vd f = false) :
    ∃ t token gr', exec (.instructionFetchFault b g k) s = .next t ∧ GroupAt t b g gr' ∧
      gr'.tillers[k]? = some { u with st := .longWait (.fetch [{ va := u.pc / 32 * 32, f := f, token := token }]) } ∧ ∃ r, tget t.reports (token - 1) = some r := by
  have hfetch := fetcher_eq hf
  obtain ⟨hb, hg, hu, _⟩ := hf
  have hblocks' : s'.blocks = s.blocks := blocks_of_rest (rest_of_run hcode (codeBlock_rest ..))
  have hnoticed : (if f.kind == .firewall then s'.fwNotice f.home 4 else s').blocks = s.blocks := by
    split
    · exact (congrArg Prod.fst (fwNotice_work ..)).trans hblocks'
    · exact hblocks'
  rw [exec_instructionFetchFault, execInstructionFetchFault]
  simp only [hfetch, hcan, hcode, hun, Bool.not_true, Bool.false_eq_true, if_false, event_some]
  generalize hrep : State.report _ _ = rep
  obtain ⟨hw, hr⟩ : rep.2.work = _ ∧ (tget rep.2.reports (rep.1 - 1)).isSome := hrep ▸ report_work ..
  have hblocks : rep.2.blocks = s.blocks := (congrArg Prod.fst hw).trans hnoticed
  refine ⟨_, rep.1, _, rfl, groupAt_modGroup ⟨bl, by rw [hblocks]; exact hb, hg⟩ _, ?_, Option.isSome_iff_exists.mp hr⟩
  exact getElem?_listSet_same _ _ _ (List.getElem?_eq_some_iff.mp hu).1

end

/-! ### The exchange of groups -/

/-- The better of what has been found so far and a further candidate. -/
def better (since : Group → Option Nat) (o : Option (Nat × Nat × Group)) (y : Nat × Nat × Group) : Option (Nat × Nat × Group) := match o with
  | none => some y
  | some z => if earlier since y z then some y else some z

theorem bestOf_eq_foldl (since : Group → Option Nat) (l : List (Nat × Nat × Group)) : bestOf since l = l.foldl (better since) none := rfl

/-- A candidate is `x`, or `x` has been in its state longer. -/
def Beaten (since : Group → Option Nat) (x y : Nat × Nat × Group) : Prop := y ≠ x → (since x.2.2).getD 0 < (since y.2.2).getD 0

section
variable {since : Group → Option Nat} {x : Nat × Nat × Group}

theorem better_of_beaten {y : Nat × Nat × Group} (h : Beaten since x y) : better since (some x) y = some x := by
  unfold better
  by_cases hy : y = x
  · subst hy
    simp
  · have := h hy
    have hlate : earlier since y x = false := by
      simp [earlier]
      omega
    simp [hlate]

theorem better_over_beaten {y : Nat × Nat × Group} (h : Beaten since x y) : better since (some y) x = some x := by
  unfold better
  by_cases hy : y = x
  · subst hy
    simp
  · have := h hy
    have hearly : earlier since x y = true := by
      simp [earlier]
      omega
    simp [hearly]

theorem foldl_better_eq {l : List (Nat × Nat × Group)} (hl : ∀ y ∈ l, Beaten since x y) : l.foldl (better since) (some x) = some x := by
  induction l with
  | nil => rfl
  | cons y t ih =>
    rw [List.foldl_cons, better_of_beaten (hl y List.mem_cons_self)]
    exact ih fun z hz => hl z (List.mem_cons_of_mem _ hz)

theorem foldl_better_of_mem {l : List (Nat × Nat × Group)} (hx : x ∈ l) (hl : ∀ y ∈ l, Beaten since x y) :
    ∀ o : Option (Nat × Nat × Group), (∀ z, o = some z → Beaten since x z) → l.foldl (better since) o = some x := by
  induction l with
  | nil => cases hx
  | cons y t ih =>
    intro o ho
    have ht : ∀ z ∈ t, Beaten since x z := fun z hz => hl z (List.mem_cons_of_mem _ hz)
    rw [List.foldl_cons]
    by_cases hy : y = x
    · have : better since o x = some x := by
        cases o with
        | none => rfl
        | some z => exact better_over_beaten (ho z rfl)
      rw [hy, this]
      exact foldl_better_eq ht
    · refine ih ((List.mem_cons.mp hx).resolve_left (Ne.symm hy)) ht _ fun z hz => ?_
      cases o with
      | none =>
        cases hz
        exact hl y List.mem_cons_self
      | some z' =>
        unfold better at hz
        dsimp only at hz
        split at hz <;> cases hz
        · exact hl y List.mem_cons_self
        · exact ho z rfl

/-- The candidate that has been in its state longer than every other is the best of a list. -/
theorem bestOf_eq {l : List (Nat × Nat × Group)} (hx : x ∈ l) (hl : ∀ y ∈ l, Beaten since x y) : bestOf since l = some x :=
  foldl_better_of_mem hx hl none fun _ h => by cases h

end

theorem pendingReadyTimeout_exchanges {s : State} {q : Nat} {k : Quarter} {inn out : Nat × Nat × Group} (hk : tget s.quarters q = some k)
    (hout : out ∈ s.quarterGroups q) (hact : k.act.contains (some (out.1, out.2.1)) = true) (hin : pendingReady k.act (s.quarterGroups q) = [inn])
    (hlate : ∃ at', inn.2.2.readySince = some at' ∧
      1024 * 1000 ≤ (s.slice (q / 16)).clk + (s.now - (s.slice (q / 16)).clkAt) * s.mhz (q / 16) - at')
    (hleast : ∀ x ∈ s.quarterGroups q, k.act.contains (some (x.1, x.2.1)) = true → x ≠ out → out.2.2.lastIssue < x.2.2.lastIssue) :
    exec (.pendingReadyTimeout q) s = .next { s with quarters := tput s.quarters q { k with
      act := k.act.map fun e => if e = some (out.1, out.2.1) then some (inn.1, inn.2.1) else e } } := by
  obtain ⟨at', hsince, hclk⟩ := hlate
  have hq : s.quarter q = k := by rw [State.quarter, hk]; rfl
  have hbest : bestOf (fun g => some g.lastIssue) ((s.quarterGroups q).filter fun x => k.act.contains (some (x.1, x.2.1))) = some out := by
    refine bestOf_eq (List.mem_filter.mpr ⟨hout, hact⟩) fun y hy hne => ?_
    obtain ⟨hm, ha⟩ := List.mem_filter.mp hy
    exact hleast y hm ha hne
  have hdue : decide (s.clocks (q / 16) - at' ≥ 1024 * 1000) = true := decide_eq_true hclk
  rw [exec_pendingReadyTimeout, execPendingReadyTimeout]
  simp only [hq, hin, hbest, List.filter_cons, List.filter_nil, hsince, hdue, if_true]
  simp only [bestOf_eq_foldl, List.foldl_cons, List.foldl_nil, better, event_some, beq_iff_eq]

end Sys2Proof.Claims
end

section
/-!
SUPPORT. The requests of a memory instruction that is sent or repeated (R119, R122, R125, R149).
-/
namespace Sys2Proof.Claims
open Sys2Proof.Machine

/-- A request has been asked for under `rid`: memory and the other requests are left, and no number is given twice. -/
structure Asked (s t : State) (rid : Nat) (r : Req) : Prop where
  mem : t.mem = s.mem
  next : s.nextId ≤ t.nextId
  req : ∃ r', tget t.reqs rid = some r' ∧ r'.pend = r.pend ∧ r'.gran = r.gran ∧ r'.lanes = r.lanes
  others : ∀ k, k ≠ rid → tget t.reqs k = tget s.reqs k

/-- A request put into the table, beside changes elsewhere, has been asked for. -/
theorem Asked.of_put {s t : State} {rid : Nat} {r r' : Req} (hm : t.mem = s.mem) (hn : s.nextId ≤ t.nextId) (hr : t.reqs = tput s.reqs rid r')
    (h : r'.pend = r.pend ∧ r'.gran = r.gran ∧ r'.lanes = r.lanes) : Asked s t rid r :=
  ⟨hm, hn, ⟨r', by rw [hr, tget_tput_same], h⟩, fun k hk => by rw [hr, tget_tput_other _ _ hk]⟩

/-- A request that a route entry sends is asked for; the blocks are left. -/
theorem routeGo_asks (s : State) (id : Nat) (r : Req) (e : TlbE) (hp : r.pref = none) :
    Asked s (s.routeGo id r e) id r ∧ (s.routeGo id r e).blocks = s.blocks := by
  have hcount (c : Bool) : ∃ l, (if c then s.count r.slice r.vd 0x004 1 else s) = { s with slices := l } := by
    cases c
    · exact ⟨s.slices, rfl⟩
    · exact ⟨_, rfl⟩
  unfold State.routeGo
  dsimp only
  rw [if_neg (by simp [hp])]
  generalize (Req.reads _ && e.cache != 0 && _ && Option.isNone _) = c
  obtain ⟨l, hl⟩ := hcount c
  rw [hl]
  split
  · exact ⟨.of_put rfl le_rfl rfl ⟨rfl, rfl, rfl⟩, rfl⟩
  · exact ⟨.of_put rfl le_rfl rfl ⟨rfl, rfl, rfl⟩, rfl⟩
  · unfold State.post State.fresh
    dsimp only
    split
    · exact ⟨.of_put rfl le_rfl rfl ⟨rfl, rfl, rfl⟩, rfl⟩
    · split
      · exact ⟨.of_put rfl (Nat.le_succ _) rfl ⟨rfl, rfl, rfl⟩, rfl⟩
      · exact ⟨.of_put rfl (Nat.le_succ _) rfl ⟨rfl, rfl, rfl⟩, rfl⟩

/-- The walker is asked for a walk that is in its table, or enters it under a new number. -/
theorem askWalk_eq (s : State) (w : Walk) : ∃ l ws n, s.nextId ≤ n ∧ (s.askWalk w).2 = { s with slices := l, walks := ws, nextId := n } := by
  unfold State.askWalk State.fresh
  split
  · exact ⟨s.slices, s.walks, s.nextId, le_rfl, rfl⟩
  · exact ⟨_, _, s.nextId + 1, Nat.le_succ _, rfl⟩

/-- The L1 accepts nothing, or all that a plain store sends. -/
theorem accept_cases (s : State) (bi gi id : Nat) : s.accept bi gi id = s ∨
    ∃ b g p m, s.flight bi gi id = some (b, g, p, m) ∧ m.accepted = false ∧ m.posted = true ∧ s.accept bi gi id =
      s.modGroup bi gi fun g => { g with pend := tput g.pend id { p with marks := [], kind := .mem { m with accepted := true } } }.wake := by
  unfold State.accept
  split
  · exact Or.inl rfl
  · rename_i b g p m hf
    dsimp only
    split
    · exact Or.inl rfl
    · rename_i hno
      simp only [Bool.or_eq_true, not_or, Bool.not_eq_true, Bool.not_eq_false'] at hno
      exact Or.inr ⟨b, g, p, m, hf, hno.1.1, hno.1.2, rfl⟩

theorem accept_frame (s : State) (bi gi id : Nat) : ∃ l, s.accept bi gi id = { s with blocks := l } := by
  obtain h | ⟨_, _, _, _, _, _, _, h⟩ := accept_cases s bi gi id
  · exact ⟨s.blocks, h⟩
  · exact ⟨_, h⟩

/-- A request that has been started is asked for; the blocks are left, but that the L1 may have accepted what its instruction sends. -/
theorem startReq_asks (s : State) (id : Nat) (r : Req) (first : Bool) (hp : r.pref = none) :
    Asked s (s.startReq id r first) id r ∧
    ((s.startReq id r first).blocks = s.blocks ∨ ∃ u : State, u.blocks = s.blocks ∧ (s.startReq id r first).blocks = (u.accept r.b r.g r.pend).blocks) := by
  unfold State.startReq
  dsimp only
  split
  · split
    · obtain ⟨l, ws, n, hn, hw⟩ := askWalk_eq (s.modCore (coreKey r.slice r.core) _)
        { slice := r.slice, pid := r.pid, vd := r.vd, va := r.gran * 128, acc := r.acc, what := .tlb r.b r.core }
      rw [hw]
      exact ⟨.of_put rfl hn rfl ⟨rfl, rfl, rfl⟩, Or.inl rfl⟩
    · rename_i e _ _
      obtain ⟨⟨hm, hn, hr, ho⟩, hb⟩ := routeGo_asks s id r e hp
      unfold State.route
      obtain ⟨l, hl⟩ := accept_frame (s.routeGo id r e) r.b r.g r.pend
      refine ⟨?_, Or.inr ⟨_, hb, rfl⟩⟩
      rw [hl]
      exact ⟨hm, hn, hr, ho⟩
  · have hcount : ∃ l, (if first then s.count r.slice r.vd 0x009 1 else s) = { s with slices := l } := by
      cases first
      · exact ⟨s.slices, rfl⟩
      · exact ⟨_, rfl⟩
    obtain ⟨l, hl⟩ := hcount
    rw [hl]
    obtain ⟨l', ws, n, hn, hw⟩ := askWalk_eq { s with slices := l }
      { slice := r.slice, pid := r.pid, vd := r.vd, va := r.gran * 128, acc := r.acc, what := .tlb r.b r.core }
    rw [hw]
    exact ⟨.of_put rfl hn rfl ⟨rfl, rfl, rfl⟩, Or.inl rfl⟩

/-! ### All requests of an instruction -/

/-- A memory instruction under way as its group's one pending entry: as it was sent, or accepted by the L1, which releases its registers. -/
def UnderWay (b g : Nat) (gr : Group) (id : Nat) (p : Pend) (m : MemFlight) (s : State) : Prop :=
  ∃ (gr' : Group) (acc : Bool), GroupAt s b g gr' ∧ (acc = true → m.posted = true ∧ m.accepted = false) ∧
    gr'.pend = [(id, if acc then { p with marks := [], kind := .mem { m with accepted := true } } else p)] ∧
    gr'.tillers = if acc then gr.tillers.map woken else gr.tillers

section
variable {b g id : Nat} {gr : Group} {p : Pend} {m : MemFlight}

theorem underWay_congr {s t : State} (h : t.blocks = s.blocks) (hu : UnderWay b g gr id p m s) : UnderWay b g gr id p m t := by
  obtain ⟨gr', acc, ⟨bl, hb, hg⟩, hrest⟩ := hu
  exact ⟨gr', acc, ⟨bl, by rw [h]; exact hb, hg⟩, hrest⟩

theorem wake_tillers (g : Group) : g.wake.tillers = g.tillers.map woken := rfl

theorem underWay_accept {s : State} (hk : p.kind = .mem m) (hu : UnderWay b g gr id p m s) : UnderWay b g gr id p m (s.accept b g id) := by
  obtain hs | ⟨bl, g1, p1, m1, hf, hna, hpost, hs⟩ := accept_cases s b g id
  · rw [hs]
    exact hu
  · obtain ⟨gr', acc, ⟨bl', hb, hg⟩, hacc, hpend, htil⟩ := hu
    obtain ⟨hb1, hg1, hp1, hk1⟩ := flight_eq_some.mp hf
    obtain rfl : bl' = bl := Option.some.inj (hb.symm.trans hb1)
    obtain rfl : gr' = g1 := Option.some.inj (hg.symm.trans hg1)
    rw [hpend] at hp1
    cases acc with
    | true =>
      -- an instruction that the L1 has accepted is not accepted again
      have : m1 = { m with accepted := true } := by
        simp only [tget, if_true] at hp1
        cases hp1
        exact (PKind.mem.inj hk1).symm
      rw [this] at hna
      cases hna
    | false =>
      obtain rfl : p = p1 := by simpa [tget] using hp1
      obtain rfl : m = m1 := PKind.mem.inj (hk.symm.trans hk1)
      rw [hs]
      refine ⟨_, true, groupAt_modGroup ⟨_, hb, hg⟩ _, fun _ => ⟨hpost, hna⟩, ?_, ?_⟩
      · show tput gr'.pend id _ = _
        rw [hpend]
        simp [tput]
      · rw [wake_tillers]
        show gr'.tillers.map woken = _
        rw [htil]
        simp

end

/-- The request for a granule of a memory instruction of a block (R119). -/
def granReq (bi gi id : Nat) (b : Block) (p : Pend) (m : MemFlight) (gran : Nat) : Req :=
  { b := bi, g := gi, pend := id, slot := p.slot, slice := b.slice, core := b.core, pid := b.pid, vd := b.vd,
    gran := gran, lanes := m.lanes.filter (fun o => o.va / 128 == gran), acc := m.acc, hint := m.hint, ordered := m.acq.isSome, st := .atHome }

/-- A store cancels the fills of reads of its granule that are on their way to its core (R124). -/
def cancelFills (s : State) (r : Req) : State :=
  if r.writes then
    { s with reqs := tmap (fun _ q => if q.slice == r.slice && q.core == r.core && q.gran == r.gran && q.tag == r.tag then
        { q with fill := false } else q) s.reqs }
  else s

/-- The step of `sendLanes` for a granule; `first` says whether its page has not been looked up yet. -/
def sendGran (bi gi id : Nat) (b : Block) (p : Pend) (m : MemFlight) (first : Nat → Bool) (s : State) (gran : Nat) : State :=
  (cancelFills s.fresh.2 (granReq bi gi id b p m gran)).startReq s.nextId (granReq bi gi id b p m gran) (first gran)

theorem cancelFills_frame (s : State) (r : Req) : ∃ l, cancelFills s r = { s with reqs := l } ∧
    ∀ k q, tget s.reqs k = some q → ∃ q', tget l k = some q' ∧ q'.pend = q.pend ∧ q'.gran = q.gran ∧ q'.lanes = q.lanes := by
  unfold cancelFills
  split
  · refine ⟨_, rfl, fun k q hq => ?_⟩
    rw [tget_tmap, hq]
    refine ⟨_, rfl, ?_⟩
    dsimp only
    split <;> exact ⟨rfl, rfl, rfl⟩
  · exact ⟨s.reqs, rfl, fun k q hq => ⟨q, hq, rfl, rfl, rfl⟩⟩

theorem sendLanes_eq {s : State} {bi gi id : Nat} {b : Block} {g : Group} {p : Pend} {m : MemFlight} (h : s.flight bi gi id = some (b, g, p, m)) :
    s.sendLanes bi gi id = (granules m.lanes).foldl
      (sendGran bi gi id b p m fun gran => ((granules m.lanes).find? fun y => y / 32 == gran / 32) == some gran) s := by
  unfold State.sendLanes
  rw [h]
  rfl

/-- There is a request for a granule with the lanes of it. -/
def HasReq (s0 s : State) (id : Nat) (m : MemFlight) (n : Nat) : Prop :=
  ∃ rid r, s0.nextId ≤ rid ∧ rid < s.nextId ∧ tget s.reqs rid = some r ∧ r.pend = id ∧ r.gran = n ∧ r.lanes = m.lanes.filter fun o => o.va / 128 == n

/-- An instruction whose requests for some granules are on their way, from a state `s0` on. -/
structure Sending (b g : Nat) (gr : Group) (id : Nat) (p : Pend) (m : MemFlight) (s0 : State) (ns : List Nat) (s : State) : Prop where
  mem : s.mem = s0.mem
  next : s0.nextId ≤ s.nextId
  under : UnderWay b g gr id p m s
  reqs : ∀ n ∈ ns, HasReq s0 s id m n

section
variable {bi gi id : Nat} {bl : Block} {gr : Group} {p : Pend} {m : MemFlight} {s0 : State}

theorem sendGran_sends {first : Nat → Bool} {s : State} {ns : List Nat} (hk : p.kind = .mem m) (n : Nat) (h : Sending bi gi gr id p m s0 ns s) :
    Sending bi gi gr id p m s0 (n :: ns) (sendGran bi gi id bl p m first s n) := by
  obtain ⟨hmem, hnext, hunder, hreqs⟩ := h
  unfold sendGran State.fresh
  obtain ⟨l, hl, hq1⟩ := cancelFills_frame { s with nextId := s.nextId + 1 } (granReq bi gi id bl p m n)
  obtain ⟨⟨hm, hn, ⟨r', hr', hpend, hgran, hlanes⟩, hothers⟩, hblocks⟩ :=
    startReq_asks { s with nextId := s.nextId + 1, reqs := l } s.nextId (granReq bi gi id bl p m n) (first n) rfl
  have hn' : s.nextId + 1 ≤ _ := hn
  dsimp only at hl ⊢
  rw [hl]
  refine ⟨hm.trans hmem, by omega, ?_, fun k hk' => ?_⟩
  · obtain hb | ⟨u, hu, hb⟩ := hblocks
    · exact underWay_congr hb hunder
    · exact underWay_congr hb (underWay_accept hk (underWay_congr hu hunder))
  · obtain rfl | hk' := List.mem_cons.mp hk'
    · exact ⟨s.nextId, r', hnext, hn', hr', hpend, hgran, hlanes⟩
    · obtain ⟨rid, q, hlo, hhi, hq, hqp, hqg, hql⟩ := hreqs k hk'
      obtain ⟨q', hq', hqp', hqg', hql'⟩ := hq1 rid q hq
      exact ⟨rid, q', hlo, by omega, by rw [hothers rid (by omega)]; exact hq', hqp'.trans hqp, hqg'.trans hqg, hql'.trans hql⟩

theorem foldl_sendGran_sends {first : Nat → Bool} (hk : p.kind = .mem m) : ∀ (l ns : List Nat) (s : State), Sending bi gi gr id p m s0 ns s →
    ∃ ns', (∀ n, n ∈ l ∨ n ∈ ns → n ∈ ns') ∧ Sending bi gi gr id p m s0 ns' (l.foldl (sendGran bi gi id bl p m first) s)
  | [], ns, s, h => ⟨ns, fun _ hn => hn.resolve_left (List.not_mem_nil), h⟩
  | n :: l, ns, s, h => by
    obtain ⟨ns', hin, hs⟩ := foldl_sendGran_sends hk l (n :: ns) _ (sendGran_sends hk n h)
    refine ⟨ns', fun k hk' => hin k ?_, hs⟩
    simp only [List.mem_cons] at hk' ⊢
    tauto

end

/-- All requests of an instruction that is sent again are on their way, one for each granule. -/
theorem sendLanes_sends {s0 s : State} {bi gi id : Nat} {gr : Group} {p : Pend} {m : MemFlight} (hm : s.mem = s0.mem) (hn : s.nextId = s0.nextId)
    (hg : GroupAt s bi gi gr) (hpend : gr.pend = [(id, p)]) (hk : p.kind = .mem m) :
    ∃ ns, (∀ o ∈ m.lanes, o.va / 128 ∈ ns) ∧ Sending bi gi gr id p m s0 ns (s.sendLanes bi gi id) := by
  obtain ⟨bl, hb, hgr⟩ := hg
  have hf : s.flight bi gi id = some (bl, gr, p, m) := flight_eq_some.mpr ⟨hb, hgr, by rw [hpend]; simp [tget], hk⟩
  have hstart : Sending bi gi gr id p m s0 [] s :=
    ⟨hm, hn.ge, ⟨gr, false, ⟨bl, hb, hgr⟩, fun h => absurd h (by decide), hpend, rfl⟩, fun _ h => absurd h List.not_mem_nil⟩
  rw [sendLanes_eq hf]
  obtain ⟨ns, hin, hs⟩ := foldl_sendGran_sends (bl := bl) hk (granules m.lanes) [] s hstart
  refine ⟨ns, fun o ho => hin _ (Or.inl ?_), hs⟩
  rw [granules, List.mem_eraseDups]
  exact List.mem_map_of_mem ho

/-! ### Replay (R125, R128) -/

theorem exec_parkedReplay (b g k : Nat) (s : State) : exec (.parkedReplay b g k) s = execParkedReplay b g k s := rfl

/-- A group whose parked instruction is sent again: its faults are forgotten, and its tiller waits for it. -/
def sentAgain (k id : Nat) (u : Tiller) (p : Pend) (m : MemFlight) (g : Group) : Group :=
  { g.setTil k { u with st := .longWait (.on id) } with pend := tput g.pend id { p with kind := .mem { m with faults := [] } } }

section
variable {s : State} {b g k : Nat} {bl : Block} {gr : Group} {u : Tiller} (hb : tget s.blocks b = some bl) (hg : bl.groups[g]? = some gr)
  (hu : gr.tillers[k]? = some u) (hres : bl.res = .resident) (hfail : bl.fail = none)
include hb hg hu hres hfail

/-- A fetch whose faults have been answered is repeated: its tiller is Ready. -/
theorem parkedReplay_fetch {fs : List FaultRef} (hst : u.st = .longWait (.fetch fs)) (hfs : ∀ f ∈ fs, f.resolved = true) :
    ∃ t, exec (.parkedReplay b g k) s = .next t ∧ GroupBecomes s t b g { gr with tillers := listSet gr.tillers k { u with st := .ready } } := by
  have hdone : fetchDone u.st = true := by
    rw [hst]
    exact List.all_eq_true.mpr hfs
  refine ⟨s.modGroup b g fun g => g.setTil k { u with st := .ready }, ?_, modGroup_becomes ⟨bl, hb, hg⟩ _⟩
  rw [exec_parkedReplay, execParkedReplay]
  simp [hb, hg, hres, hfail, til_of_getElem? hu, hst, fetchDone, List.all_eq_true.mpr hfs, event]

/-- A parked access whose faults have been answered is repeated, where its requests have slots. -/
theorem parkedReplay_mem {id : Nat} {p : Pend} {m : MemFlight} (hpend : gr.pend = [(id, p)]) (hk : p.kind = .mem m) (hslot : p.slot = k)
    (hst : u.st = .longWait (.parked id)) (hne : m.faults ≠ []) (hfs : ∀ f ∈ m.faults, f.resolved = true)
    (hreqs : ∀ q ∈ s.reqs, ¬(q.2.b = b ∧ q.2.g = g ∧ q.2.pend = id)) (hroom : s.slotsFor bl (granules m.lanes).length = true) :
    exec (.parkedReplay b g k) s = .next ((s.modGroup b g (sentAgain k id u p m)).sendLanes b g id) := by
  have hnone : (s.reqs.any fun q => q.2.b == b && q.2.g == g && q.2.pend == id) = false := by
    simpa [List.any_eq_false, and_assoc] using fun a q hq => hreqs (a, q) hq
  have hready : s.replayable b g k gr = some (id, p, m) := by
    simp [State.replayable, hpend, hk, hslot, hne, List.all_eq_true.mpr hfs, hnone]
  rw [exec_parkedReplay, execParkedReplay]
  simp [hb, hg, hres, hfail, til_of_getElem? hu, hst, fetchDone, hready, hroom, event]
  rfl

theorem parkedReplay_parked {id : Nat} {p : Pend} {m : MemFlight} (hpend : gr.pend = [(id, p)]) (hk : p.kind = .mem m) (hslot : p.slot = k)
    (hst : u.st = .longWait (.parked id)) (hne : m.faults ≠ []) (hfs : ∀ f ∈ m.faults, f.resolved = true)
    (hreqs : ∀ q ∈ s.reqs, ¬(q.2.b = b ∧ q.2.g = g ∧ q.2.pend = id)) (hroom : s.slotsFor bl (granules m.lanes).length = true) :
    ∃ (t : State) (gr' : Group) (acc : Bool), exec (.parkedReplay b g k) s = .next t ∧ t.mem = s.mem ∧ GroupAt t b g gr' ∧
      (acc = true → m.posted ∧ m.accepted = false) ∧
      gr'.pend = [(id, if acc then { p with marks := [], kind := .mem { m with faults := [], accepted := true } } else { p with kind := .mem { m with faults := [] } })] ∧
      gr'.tillers = (let l := listSet gr.tillers k { u with st := .longWait (.on id) }; if acc then l.map woken else l) ∧
      ∀ n ∈ m.lanes.map fun o => o.va / 128, ∃ rid r, s.nextId ≤ rid ∧ tget t.reqs rid = some r ∧ r.pend = id ∧ r.gran = n ∧
        r.lanes = m.lanes.filter fun o => o.va / 128 = n := by
  obtain ⟨ns, hns, hmem, _, ⟨gr', acc, hgr', hacc, hpend', htil⟩, hall⟩ :=
    sendLanes_sends (s0 := s) (id := id) (s := s.modGroup b g (sentAgain k id u p m)) (p := { p with kind := .mem { m with faults := [] } })
      rfl rfl (groupAt_modGroup ⟨bl, hb, hg⟩ _) (by simp [sentAgain, hpend, tput]) rfl
  refine ⟨_, gr', acc, parkedReplay_mem hb hg hu hres hfail hpend hk hslot hst hne hfs hreqs hroom, hmem, hgr', hacc, hpend', htil, fun n hn => ?_⟩
  obtain ⟨o, ho, rfl⟩ := List.mem_map.mp hn
  obtain ⟨rid, r, hlo, _, hr, hrp, hrg, hrl⟩ := hall _ (hns o ho)
  exact ⟨rid, r, hlo, hr, hrp, hrg, by simpa [beq_eq_decide] using hrl⟩

end

/-- Settles O28: a message moves, waits or arrives by the cases of its event; a fetch fills the cache or reports its fault; a replay sends a request for
each granule again; the exchange takes the best of its candidates. -/
theorem messagesFetchAndReplay : Obligations.MessagesFetchAndReplay := by
  unfold Obligations.MessagesFetchAndReplay
  refine ⟨⟨?hopSunk, ?hopPool, ?hopBehind, ?arriveBehind, ?hopFull, ?arriveBack, ?arriveHome, ?arriveReset, ?arriveRefused, ?refused⟩,
    ?fill, ?fault, ?notCanonical, ?replayFetch, ?replay, ?exchange⟩
  case hopSunk =>
    intro s m x hx hpos ha hc hn
    rw [fabricHop_eq hx hpos ha, if_pos (Or.inl ⟨hc, hn⟩), hn]
    rfl
  case hopPool =>
    intro s m x hx hpos ha hroom
    change (poolAt s m x).length < _ at hroom
    rw [fabricHop_eq hx hpos ha, if_pos (Or.inr hroom)]
    rfl
  case hopBehind => exact fun s m x hx _ ha => fabricHop_behind hx ha
  case arriveBehind => exact fun s m x hx ha => edgeMessageArrival_behind hx ha
  case hopFull =>
    intro s m x hx hpos ha hsunk hfull
    have hno : ¬((x.cls = .rsp ∧ nextHop x.pos x.dst = x.dst) ∨ (poolAt s m x).length < Config.hopPool) := by
      rintro (h | h)
      · exact hsunk h
      · exact absurd h (Nat.not_lt.mpr hfull)
    rw [fabricHop_eq hx hpos ha, if_neg hno, ← escTaken_iff]
    refine ⟨fun h => by rw [if_pos h]; rfl, fun h => by rw [if_neg h]; rfl⟩
  case arriveBack => exact fun s m x r k hx hpos ha hc hr hst => edgeMessageArrival_back hx hpos ha hr hc hst
  case arriveHome =>
    intro s m x r hx hpos ha hc hr hreset hadm
    obtain ⟨c, hl⟩ := learn_eq x.dst r.stamp { s with msgs := tdel s.msgs m }
    refine ⟨_, edgeMessageArrival_request hx hpos ha hr hc, ?_⟩
    simp only [hreset, hadm, Bool.false_eq_true, if_false, if_true, hl]
    exact ⟨tget_tdel_same .., trivial, tget_tput_same ..⟩
  case arriveReset =>
    intro s m x r hx hpos ha hc hr hreset
    obtain ⟨hmem, k, hk⟩ := turnAway_eq { s with msgs := tdel s.msgs m } x r { kind := .home }
    refine ⟨_, k, edgeMessageArrival_request hx hpos ha hr hc, ?_⟩
    simp only [hreset, if_true]
    exact ⟨hmem, hk⟩
  case arriveRefused =>
    intro s m x r hx hpos ha hc hr hreset hadm
    obtain ⟨_, k, hk⟩ := turnAway_eq (({ s with msgs := tdel s.msgs m } : State).fwNotice x.dst x.acc.code) x r { kind := .firewall, home := x.dst }
    refine ⟨_, k, edgeMessageArrival_request hx hpos ha hr hc, ?_⟩
    simp only [hreset, hadm, Bool.false_eq_true, if_false]
    exact hk
  case refused => exact fun s rid r f c hr hst hl hc => firewallStatusReceived_refused hr hst hl hc
  case fill => exact fun s b g k bl gr u s' w hf hcan hcode hc => instructionCacheFill_ok hf hcan hcode hc
  case fault => exact fun s b g k bl gr u s' f hf hcan hcode hun => instructionFetchFault_reported hf hcan hcode hun
  case notCanonical => exact fun s b g k bl gr u hf hcan => instructionFetchFault_notCanonical hf hcan
  case replayFetch => exact fun s b g k bl gr u fs hb hg hu hres hfail hst hfs => parkedReplay_fetch hb hg hu hres hfail hst hfs
  case replay =>
    exact fun s b g k bl gr u id p m hb hg hu hres hfail hpend hk hslot hst hne hfs hreqs hroom =>
      parkedReplay_parked hb hg hu hres hfail hpend hk hslot hst hne hfs hreqs hroom
  case exchange => exact fun s q k inn out hk _ hout hact hin hlate hleast => pendingReadyTimeout_exchanges hk hout hact hin hlate hleast

end Sys2Proof.Claims
end

section
/-!
SUPPORT. Bits and fields of numbers.
-/
namespace Sys2Proof.Machine

/-- A field written is a field of the number; the other bits stay. -/
theorem testBit_setField (w i n v j : Nat) :
    (setField w i n v).testBit j = if i ≤ j ∧ j < i + n then v.testBit (j - i) else w.testBit j := by
  have hsplit : setField w i n v = 2 ^ i * (2 ^ n * (w / 2 ^ i / 2 ^ n) + v % 2 ^ n) + w % 2 ^ i := by
    have h1 := Nat.div_add_mod w (2 ^ i)
    have h2 := Nat.div_add_mod (w / 2 ^ i) (2 ^ n)
    have h3 : 2 ^ i * (w / 2 ^ i) = 2 ^ i * (2 ^ n * (w / 2 ^ i / 2 ^ n)) + w / 2 ^ i % 2 ^ n * 2 ^ i := by
      rw [Nat.mul_comm (w / 2 ^ i % 2 ^ n), ← Nat.mul_add, h2]
    unfold setField
    rw [Nat.mul_add, Nat.mul_comm (v % 2 ^ n)]
    omega
  rw [hsplit, Nat.testBit_two_pow_mul_add _ (Nat.mod_lt _ (Nat.two_pow_pos i)), Nat.testBit_two_pow_mul_add _ (Nat.mod_lt _ (Nat.two_pow_pos n))]
  simp only [Nat.testBit_mod_two_pow, Nat.testBit_div_two_pow]
  by_cases hi : j < i
  · simp [hi, show ¬i ≤ j by omega]
  · by_cases hn : j - i < n
    · simp [hi, hn, show i ≤ j ∧ j < i + n by omega]
    · simp [hi, hn, show ¬(i ≤ j ∧ j < i + n) by omega, show j - i - n + n + i = j by omega]

/-- A field is told by its bits. -/
theorem field_eq {x i n v : Nat} (hv : v < 2 ^ n) (h : ∀ k, k < n → x.testBit (i + k) = v.testBit k) : x / 2 ^ i % 2 ^ n = v := by
  apply Nat.eq_of_testBit_eq
  intro k
  rw [Nat.testBit_mod_two_pow, Nat.testBit_div_two_pow]
  by_cases hk : k < n
  · simp [hk, ← h k hk, Nat.add_comm]
  · rw [Nat.testBit_lt_two_pow (hv.trans_le (Nat.pow_le_pow_right (by decide) (by omega)))]
    simp [hk]

theorem testBit_maskOf : ∀ (l : List Nat) (i : Nat), (maskOf l).testBit i = decide (i ∈ l)
  | [], i => by simp [maskOf]
  | a :: t, i => by
    rw [maskOf, Nat.testBit_or, testBit_maskOf t i, Nat.testBit_two_pow]
    simp [eq_comm]

theorem testBit_setBit_false (x i j : Nat) : (setBit x i false).testBit j = (x.testBit j && j != i) := by
  have hb : bit x i = x.testBit i := bit_eq_testBit x i
  unfold setBit
  rw [if_neg (by decide)]
  split
  · rename_i hx
    have hfield : x - 2 ^ i = setField x i 1 0 := by
      have : x / 2 ^ i % 2 = 1 := by simpa [bit] using hx
      simp [setField, this]
    rw [hfield, testBit_setField]
    by_cases hj : j = i
    · simp [hj]
    · rw [if_neg (by omega), bne_iff_ne.mpr hj, Bool.and_true]
  · rename_i hx
    by_cases hj : j = i
    · simp [hj, ← hb, hx]
    · simp [hj]

/-! ### The least of the bits of a mask -/

theorem mem_lanesOf {n m i : Nat} : i ∈ lanesOf n m ↔ i < n ∧ m.testBit i = true := by
  simp [lanesOf, upto, bit_eq_testBit]

theorem lanesOf_sorted (n m : Nat) : (lanesOf n m).Pairwise (· < ·) := by
  unfold lanesOf upto
  exact (List.pairwise_lt_range).filter _

/-- The first bit of a mask is the least; there is none only where no bit is set. -/
theorem headD_lanesOf_eq {n m i : Nat} (hi : i < n) (hm : m.testBit i = true) (hmin : ∀ k, k < n → m.testBit k = true → i ≤ k) :
    (lanesOf n m).headD 0 = i := by
  have hmem : i ∈ lanesOf n m := mem_lanesOf.mpr ⟨hi, hm⟩
  cases hl : lanesOf n m with
  | nil => rw [hl] at hmem; cases hmem
  | cons a t =>
    have ha : a ∈ lanesOf n m := by rw [hl]; exact List.mem_cons_self
    have hle : i ≤ a := hmin a (mem_lanesOf.mp ha).1 (mem_lanesOf.mp ha).2
    have hs := lanesOf_sorted n m
    rw [hl] at hmem hs
    obtain rfl | ht := List.mem_cons.mp hmem
    · rfl
    · have := (List.pairwise_cons.mp hs).1 i ht
      simp
      omega

theorem headD_lanesOf_ne_zero {n m : Nat} (h : (lanesOf n m).headD 0 ≠ 0) :
    (lanesOf n m).headD 0 < n ∧ m.testBit ((lanesOf n m).headD 0) = true ∧ ∀ k, k < n → m.testBit k = true → (lanesOf n m).headD 0 ≤ k := by
  have hs := lanesOf_sorted n m
  cases hl : lanesOf n m with
  | nil => rw [hl] at h; exact absurd rfl h
  | cons a t =>
    rw [hl] at hs
    have ha : a ∈ lanesOf n m := by rw [hl]; exact List.mem_cons_self
    refine ⟨(mem_lanesOf.mp ha).1, (mem_lanesOf.mp ha).2, fun k hk hm => ?_⟩
    have hkm : k ∈ lanesOf n m := mem_lanesOf.mpr ⟨hk, hm⟩
    rw [hl] at hkm
    obtain rfl | ht := List.mem_cons.mp hkm
    · exact le_rfl
    · exact ((List.pairwise_cons.mp hs).1 k ht).le

end Sys2Proof.Machine
end

section
/-!
SUPPORT. A host hart's step (R381, R421): what it does to its own registers, the checks of an access, and what an access that has been performed leaves.
-/
namespace Sys2Proof.Claims
open Sys2Proof.Machine

theorem exec_hostHartAccess (a : HartAcc) (s : State) : exec (.hostHartAccess a) s = execHostHartAccess a s := rfl

@[simp] theorem setHart_hart (s : State) (a : HartAcc) (f : Hart → Hart) : (s.setHart a f).hart a = f (s.hart a) := by
  show (tget (tput s.harts (hartKey a) (f (s.hart a))) (hartKey a)).getD {} = _
  rw [tget_tput_same]
  rfl

theorem hart_of_harts {s t : State} (h : t.harts = s.harts) (a : HartAcc) : t.hart a = s.hart a := by
  rw [State.hart, h, State.hart]

section
variable {s : State} {a : HartAcc} {pid : Nat} {p : Part}

/-- A step that changes the hart alone, from `u` on. -/
theorem hartGets_of {u : State} {f : Hart → Hart} {k : Hart → Prop} (he : exec (.hostHartAccess a) s = .next (u.setHart a f))
    (hr : (f (u.hart a)).run = true) (hk : k (f (u.hart a))) : HartGets a s u k :=
  ⟨_, f (u.hart a), he, rfl, tget_tput_same .., hr, hk, fun _ hj => tget_tput_other _ _ hj⟩

/-- What bars a hart's access in its mode: 2 an illegal instruction, 22 a virtual one. -/
def hartBarred (s : State) (a : HartAcc) : Option Nat :=
  if hartHyper a.op then (if (s.hart a).mode == .u && (s.hart a).flag 0x600 9 then none else supBars (s.hart a).mode true)
  else if hartAtomic a.op && a.size < 4 then some 2 else none

/-- The address of the guest that a fault carries. -/
def faultGpa : HFault → Nat
  | .guest g => g
  | _ => 0

/-- The hart after an access that returned v. -/
def accessed (pid : Nat) (a : HartAcc) (s : State) (v : Nat) (h : Hart) : Hart := { h with
  val := v, cause := none, pc := if a.op == .fetch then a.va else h.pc
  resv := if a.op == .lr then s.hartLine pid a else if a.op == .sc then none else h.resv }

/-- What comes of the pieces of an access: its fault, or its value in the hart. -/
def afterGo (pid : Nat) (a : HartAcc) : State × Except (HFault × Nat) Nat → Option State
  | (_, .error (.wait, _)) => none
  | (s, .error (f, va)) => some (s.hartTrap a (hartCause a.op f) va (faultGpa f))
  | (s, .ok v) => some (s.setHart a (accessed pid a s v))

/-- What a hart's access of memory comes to, after its checks. -/
def hartMemory (pid : Nat) (a : HartAcc) (s : State) : Option State := match hartBarred s a with
  | some c => some (s.hartTrap a c 0 0)
  | none =>
    if hartAtomic a.op && a.va % a.size != 0 then some (s.hartTrap a (hartCause a.op .misaligned) a.va 0)
    else if a.op == .sc && !s.reserved pid a then some (s.setHart a fun h => { h with val := 1, resv := none, cause := none })
    else afterGo pid a (State.hartGo pid a (hartPieces a) 0 s)

theorem exec_of_runs (h : hartRuns s a pid p) : exec (.hostHartAccess a) s = event s (match s.hartOwn pid a with
    | some t => some t
    | none => if !hartMem a.op || !(List.contains [1, 2, 4, 8] a.size) || a.va ≥ 2 ^ 64 then none else hartMemory pid a s) := by
  obtain ⟨hown, hlt, hrun, hreset, hst, hdown⟩ := h
  have hlive : (a.hart ≥ 8 || !(s.hart a).run || (s.slice a.slice).inReset || p.st == .forming || p.st == .destroying || p.down.contains a.slice) = false := by
    have h1 : (p.st == .forming) = false ∧ (p.st == .destroying) = false := by
      rcases hst with h | h | h <;> rw [h] <;> exact ⟨rfl, rfl⟩
    simp [hrun, hreset, h1, hdown, Nat.not_le.mpr hlt]
  rw [exec_hostHartAccess, execHostHartAccess]
  simp only [hown, hlive, Bool.false_eq_true, if_false]
  rfl

/-- What a hart does to itself. -/
theorem exec_own (h : hartRuns s a pid p) {t : State} (ho : s.hartOwn pid a = some t) : exec (.hostHartAccess a) s = .next t := by
  rw [exec_of_runs h, ho, event_some]

/-- What a hart does not do, and what is not due, changes nothing. -/
theorem exec_notDue (h : hartRuns s a pid p) (ho : s.hartOwn pid a = none) (hm : hartMem a.op = false) : exec (.hostHartAccess a) s = .next s := by
  rw [exec_of_runs h, ho]
  simp [hm, event]

/-! ### The kinds of operations -/

theorem hartMem_iff (o : HartOp) : hartMem o = true ↔ onMemory o := by
  cases o <;> simp [hartMem, onMemory]
theorem hartHyper_iff (o : HartOp) : hartHyper o = true ↔ isHyper o := by
  cases o <;> simp [hartHyper, isHyper]
theorem hartAtomic_iff (o : HartOp) : hartAtomic o = true ↔ isAtomic o := by
  cases o <;> simp [hartAtomic, isAtomic]
theorem onMemory_of_isAtomic {o : HartOp} (h : isAtomic o) : onMemory o := by
  obtain ⟨f, h⟩ | h | h := h <;> simp [h, onMemory]
theorem onMemory_of_isHyper {o : HartOp} (h : isHyper o) : onMemory o := by
  obtain h | h | h := h <;> simp [h, onMemory]
theorem not_isHyper_of_isAtomic {o : HartOp} (h : isAtomic o) : ¬isHyper o := by
  obtain ⟨f, h⟩ | h | h := h <;> simp [h, isHyper]
/-- An operation on memory writes unless it only reads. -/
theorem hartNeeds_w {o : HartOp} (h : onMemory o) : (hartNeeds o).w = true ↔ ¬onlyReads o := by
  obtain h | h | h | h | h | h | h | h | ⟨f, h⟩ := h <;> simp [h, hartNeeds, onlyReads]

theorem hartOwn_of_onMemory (h : onMemory a.op) (pid : Nat) (s : State) : s.hartOwn pid a = none := by
  obtain h | h | h | h | h | h | h | h | ⟨f, h⟩ := h <;> simp [State.hartOwn, h]

/-- The access of a hart that runs. -/
theorem exec_memory (h : hartRuns s a pid p) (hm : onMemory a.op) (hsz : a.size ∈ [1, 2, 4, 8]) (hva : a.va < 2 ^ 64) :
    exec (.hostHartAccess a) s = event s (hartMemory pid a s) := by
  have hm' := (hartMem_iff a.op).mpr hm
  have hsz' : List.contains [1, 2, 4, 8] a.size = true := by simpa using hsz
  rw [exec_of_runs h, hartOwn_of_onMemory hm]
  simp only [hm', hsz', Nat.not_le.mpr hva, Bool.not_true, Bool.or_self, decide_false, Bool.false_eq_true, if_false]

/-! ### The checks -/

theorem hartBarred_of_mayAccess (h : mayAccess s a) : hartBarred s a = none := by
  obtain ⟨hhyp, hat⟩ := h
  unfold hartBarred
  split
  · rename_i hh
    obtain hm | hm | ⟨hm, hu⟩ := hhyp ((hartHyper_iff _).mp hh)
    · simp [hm, supBars]
    · simp [hm, supBars]
    · have : (s.hart a).flag 0x600 9 = true := by rw [Hart.flag, bit_eq_testBit]; exact hu
      simp [hm, this]
  · rw [if_neg]
    simp only [Bool.and_eq_true, decide_eq_true_eq, not_and, not_lt]
    exact fun h => hat ((hartAtomic_iff _).mp h)

/-- An instruction that accesses a guest's memory, in a mode that may not execute it. -/
theorem hartBarred_of_hyper (hh : isHyper a.op) (h : ¬mayAccess s a) : hartBarred s a = some (if guestMode (s.hart a).mode then 22 else 2) := by
  have hat : ¬isAtomic a.op := fun h => not_isHyper_of_isAtomic h hh
  have hmode : ¬((s.hart a).mode = .m ∨ (s.hart a).mode = .s ∨ ((s.hart a).mode = .u ∧ (csrOf (s.hart a) 0x600).testBit 9)) :=
    fun hm => h ⟨fun _ => hm, fun ha => absurd ha hat⟩
  simp only [not_or, not_and] at hmode
  obtain ⟨hm, hs, hu⟩ := hmode
  unfold hartBarred
  rw [if_pos ((hartHyper_iff _).mpr hh)]
  cases hmd : (s.hart a).mode with
  | m => exact absurd hmd hm
  | s => exact absurd hmd hs
  | u =>
    have : (s.hart a).flag 0x600 9 = false := by rw [Hart.flag, bit_eq_testBit]; simpa [csrOf, Hart.raw] using hu hmd
    simp [this, supBars, guestMode]
  | vs => simp [supBars, guestMode]
  | vu => simp [supBars, guestMode]

theorem hartBarred_of_small (ha : isAtomic a.op) (hsz : a.size < 4) : hartBarred s a = some 2 := by
  have hh : hartHyper a.op = false := by
    rw [Bool.eq_false_iff]
    exact fun h => not_isHyper_of_isAtomic ha ((hartHyper_iff _).mp h)
  simp [hartBarred, hh, (hartAtomic_iff _).mpr ha, hsz]

/-- An access that passes its checks is performed. -/
theorem hartMemory_go (hmay : mayAccess s a) (hal : isAtomic a.op → a.va % a.size = 0) (hsc : a.op = .sc → s.reserved pid a = true) :
    hartMemory pid a s = afterGo pid a (State.hartGo pid a (hartPieces a) 0 s) := by
  have h1 : (hartAtomic a.op && a.va % a.size != 0) = false := by
    by_cases h : isAtomic a.op
    · simp [hal h]
    · simp [Bool.eq_false_iff.mpr fun h' => h ((hartAtomic_iff _).mp h')]
  have h2 : (a.op == .sc && !s.reserved pid a) = false := by
    by_cases h : a.op = .sc
    · simp [hsc h]
    · simp [h]
  unfold hartMemory
  rw [hartBarred_of_mayAccess hmay]
  simp only [h1, h2, Bool.false_eq_true, if_false]

/-- The cause of a fault by the kind of access. -/
theorem hartCause_access (o : HartOp) : hartCause o .access = hartCode o 1 5 7 := by cases o <;> rfl
theorem hartCause_page (o : HartOp) : hartCause o .page = hartCode o 12 13 15 := by cases o <;> rfl
theorem hartCause_guest (o : HartOp) (g : Nat) : hartCause o (.guest g) = hartCode o 20 21 23 := by cases o <;> rfl
theorem hartCause_misaligned {o : HartOp} (h : isAtomic o) : hartCause o .misaligned = if o = .lr then 4 else 6 := by
  obtain ⟨f, h⟩ | h | h := h <;> subst h <;> rfl

end
end Sys2Proof.Claims
end

section
/-!
SUPPORT. Traps of a host hart (R423): what the entry writes in each of the three modes that take it.
-/
namespace Sys2Proof.Claims
open Sys2Proof.Machine

/-- A storage written at a key reads the value there, and as before elsewhere. -/
theorem cget_cset {α : Type} [DecidableEq α] {d : α} {l : Cells α} (h : cwf d l = true) (k : Nat) (v : α) (j : Nat) :
    cget d (cset d l k v) j = if j = k then v else cget d l j := by
  by_cases hj : j = k
  · rw [hj, if_pos rfl]
    exact cget_cset_same k v h
  · rw [if_neg hj]
    exact cget_cset_other v h hj

theorem modeV_iff (md : HMode) : modeV md = true ↔ guestMode md := by cases md <;> simp [modeV, guestMode]
theorem modePrv_eq (md : HMode) : modePrv md = prvOf md := by cases md <;> rfl
theorem addrCause_iff (c : Nat) : addrCause c = true ↔ c ∈ [0, 1, 4, 5, 6, 7, 12, 13, 15, 20, 21, 23] := by simp [addrCause]

/-- The pc of a trap's handler. -/
theorem trapPc_eq (tvec code : Nat) (intr : Bool) :
    trapPc tvec code intr = tvec / 4 * 4 + (if intr = true ∧ tvec % 4 = 1 then 4 * code else 0) := by
  simp [trapPc]

theorem prvOf_lt (md : HMode) : prvOf md < 4 := by cases md <;> decide

/-- The bits of a CSR as it is written. -/
theorem testBit_word {i : Nat} (hi : i < 64) (v : Nat) : (v % 2 ^ 64).testBit i = v.testBit i := by
  rw [Nat.testBit_mod_two_pow]
  simp [hi]

/-- The M-mode status after a trap's entry. -/
def mEntry (st p : Nat) (v gva : Bool) : Nat :=
  setField (setField (setField (setField (setField st 11 2 p) 7 1 (st / 8)) 3 1 0) 39 1 (if v then 1 else 0)) 38 1 (if gva then 1 else 0)

theorem testBit_mEntry (st p : Nat) (v gva : Bool) (i : Nat) : (mEntry st p v gva).testBit i =
    if i = 38 then gva else if i = 39 then v else if i = 3 then false else if i = 7 then st.testBit 3 else if i = 11 then p.testBit 0
    else if i = 12 then p.testBit 1 else st.testBit i := by
  unfold mEntry
  simp only [testBit_setField]
  have h8 : (st / 8).testBit 0 = st.testBit 3 := by rw [show 8 = 2 ^ 3 from rfl, Nat.testBit_div_two_pow]
  have hone (b : Bool) : Nat.testBit (if b then 1 else 0) 0 = b := by cases b <;> rfl
  by_cases h38 : i = 38
  · simp [h38, hone]
  by_cases h39 : i = 39
  · simp [h39, hone]
  by_cases h3 : i = 3
  · simp [h3]
  by_cases h7 : i = 7
  · simp [h7, h8]
  by_cases h11 : i = 11
  · simp [h11]
  by_cases h12 : i = 12
  · simp [h12]
  rw [if_neg (by omega), if_neg (by omega), if_neg (by omega), if_neg (by omega), if_neg (by omega)]
  simp only [h38, h39, h3, h7, h11, h12, if_false]

/-- The status of S-mode or VS-mode after a trap's entry. -/
def sEntry (st p : Nat) : Nat := setField (setField (setField st 8 1 p) 5 1 (st / 2)) 1 1 0

theorem testBit_sEntry (st p i : Nat) : (sEntry st p).testBit i =
    if i = 1 then false else if i = 5 then st.testBit 1 else if i = 8 then p.testBit 0 else st.testBit i := by
  unfold sEntry
  simp only [testBit_setField]
  have h2 : (st / 2).testBit 0 = st.testBit 1 := by rw [show 2 = 2 ^ 1 from rfl, Nat.testBit_div_two_pow]
  by_cases h1 : i = 1
  · simp [h1]
  by_cases h5 : i = 5
  · simp [h5, h2]
  by_cases h8 : i = 8
  · simp [h8]
  rw [if_neg (by omega), if_neg (by omega), if_neg (by omega)]
  simp only [h1, h5, h8, if_false]

/-- The hypervisor's status after a trap's entry in S-mode. -/
def hEntry (st p : Nat) (v gva : Bool) : Nat :=
  let hs := setField (setField st 7 1 (if v then 1 else 0)) 6 1 (if gva then 1 else 0)
  if v then setField hs 8 1 p else hs

theorem testBit_hEntry (st p : Nat) (v gva : Bool) (i : Nat) : (hEntry st p v gva).testBit i =
    if i = 6 then gva else if i = 7 then v else if i = 8 then (if v then p.testBit 0 else st.testBit 8) else st.testBit i := by
  have hone (b : Bool) : Nat.testBit (if b then 1 else 0) 0 = b := by cases b <;> rfl
  have hhs : (setField (setField st 7 1 (if v then 1 else 0)) 6 1 (if gva then 1 else 0)).testBit i =
      if i = 6 then gva else if i = 7 then v else st.testBit i := by
    simp only [testBit_setField]
    by_cases h6 : i = 6
    · simp [h6, hone]
    by_cases h7 : i = 7
    · simp [h7, hone]
    rw [if_neg (by omega), if_neg (by omega)]
    simp only [h6, h7, if_false]
  unfold hEntry
  dsimp only
  by_cases h8 : i = 8
  · subst h8
    cases v with
    | true => simp [testBit_setField]
    | false => simpa using hhs
  · cases v with
    | true =>
      rw [if_pos rfl, testBit_setField, if_neg (by omega), hhs]
      simp [h8]
    | false => simpa [h8] using hhs

section
variable {o : Hart} (hw : cwf 0 o.csr = true) {intr : Bool} {code tval gpa : Nat}
include hw

/-- A trap that is not delegated is taken in M-mode. -/
theorem trap_m (hm : (o.mode != .m && o.flag (if intr then 0x303 else 0x302) code) = false) : o.trap intr code tval gpa = { o with
    mode := .m, cause := some code, tval := tval, pc := trapPc (csrOf o 0x305) code intr
    csr := cset 0 (cset 0 (cset 0 (cset 0 (cset 0 o.csr
      0x300 (mEntry (csrOf o 0x300) (prvOf o.mode) (modeV o.mode) (!intr && addrCause code && modeV o.mode) % 2 ^ 64)) 0x341 (o.pc % 2 ^ 64))
      0x342 (((if intr then 2 ^ 63 else 0) + code) % 2 ^ 64)) 0x343 (tval % 2 ^ 64)) 0x34B (gpa / 4 % 2 ^ 64) } := by
  unfold Hart.trap
  simp only [show Hart.flag { o with cause := some code, tval := tval } = o.flag from rfl, hm, Bool.false_and, Bool.false_eq_true, if_false]
  simp (disch := ((repeat apply cset_wf); exact hw)) only [Hart.setRaw, Hart.raw, cget_cset, modePrv_eq]
  rfl

/-- A trap that M-mode delegates, and S-mode does not, is taken in S-mode. -/
theorem trap_s (hm : (o.mode != .m && o.flag (if intr then 0x303 else 0x302) code) = true)
    (hv : (modeV o.mode && o.flag (if intr then 0x603 else 0x602) code) = false) : o.trap intr code tval gpa = { o with
    mode := .s, cause := some code, tval := tval, pc := trapPc (csrOf o 0x105) code intr
    csr := cset 0 (cset 0 (cset 0 (cset 0 (cset 0 (cset 0 o.csr
      0x300 (sEntry (csrOf o 0x300) (prvOf o.mode) % 2 ^ 64))
      0x600 (hEntry (csrOf o 0x600) (prvOf o.mode) (modeV o.mode) (!intr && addrCause code && modeV o.mode) % 2 ^ 64)) 0x141 (o.pc % 2 ^ 64))
      0x142 (((if intr then 2 ^ 63 else 0) + code) % 2 ^ 64)) 0x143 (tval % 2 ^ 64)) 0x643 (gpa / 4 % 2 ^ 64) } := by
  unfold Hart.trap
  simp only [show Hart.flag { o with cause := some code, tval := tval } = o.flag from rfl, hm, hv, Bool.true_and, Bool.false_eq_true, if_false, if_true]
  simp (disch := ((repeat apply cset_wf); exact hw)) only [Hart.setRaw, Hart.raw, cget_cset, modePrv_eq]
  rfl

/-- A trap of a guest that both M-mode and S-mode delegate is taken in VS-mode; an interrupt has the code of the supervisor's. -/
theorem trap_vs (hm : (o.mode != .m && o.flag (if intr then 0x303 else 0x302) code) = true)
    (hv : (modeV o.mode && o.flag (if intr then 0x603 else 0x602) code) = true) : o.trap intr code tval gpa = { o with
    mode := .vs, cause := some code, tval := tval, pc := trapPc (csrOf o 0x205) (if intr then code - 1 else code) intr
    csr := cset 0 (cset 0 (cset 0 (cset 0 o.csr
      0x200 (sEntry (csrOf o 0x200) (prvOf o.mode) % 2 ^ 64)) 0x241 (o.pc % 2 ^ 64))
      0x242 (((if intr then 2 ^ 63 else 0) + (if intr then code - 1 else code)) % 2 ^ 64)) 0x243 (tval % 2 ^ 64) } := by
  unfold Hart.trap
  simp only [show Hart.flag { o with cause := some code, tval := tval } = o.flag from rfl, hm, hv, Bool.true_and, if_true]
  simp (disch := ((repeat apply cset_wf); exact hw)) only [Hart.setRaw, Hart.raw, cget_cset, modePrv_eq]
  rfl

end
end Sys2Proof.Claims
end

section
/-!
SUPPORT. A trap that is taken is that of R423, in each of the modes.
-/
namespace Sys2Proof.Claims
open Sys2Proof.Machine

theorem flag_eq (o : Hart) (n i : Nat) : o.flag n i = (csrOf o n).testBit i := bit_eq_testBit _ _

theorem prvOf_testBit_zero {md : HMode} (h : md ≠ .m) : (prvOf md).testBit 0 = true ↔ prvOf md = 1 := by
  cases md with
  | m => exact absurd rfl h
  | s | vs | u | vu => decide

/-- The status of S-mode or VS-mode keeps the mode and the interrupt enable that the trap comes from. -/
theorem saved_of_sEntry {o h : Hart} {r : Nat} (hm : o.mode ≠ .m) (he : csrOf h r = sEntry (csrOf o r) (prvOf o.mode) % 2 ^ 64) :
    ((csrOf h r).testBit 8 ↔ prvOf o.mode = 1) ∧ (csrOf h r).testBit 5 = (csrOf o r).testBit 1 ∧ (csrOf h r).testBit 1 = false ∧
      bitsKept (csrOf o r) (csrOf h r) [1, 5, 8] := by
  have hst (i : Nat) (hi : i < 64) : (csrOf h r).testBit i = (sEntry (csrOf o r) (prvOf o.mode)).testBit i := by
    rw [he]; exact testBit_word hi _
  simp only [testBit_sEntry] at hst
  refine ⟨?_, hst 5 (by decide), hst 1 (by decide), fun i hi hl => ?_⟩
  · rw [hst 8 (by decide)]
    exact prvOf_testBit_zero hm
  · simp only [List.mem_cons, List.not_mem_nil, not_or] at hl
    rw [hst i hi]
    simp [hl]

section
variable {o : Hart} (hw : cwf 0 o.csr = true) {intr : Bool} {code tval gpa : Nat} (hcode : code < 64)

/-- A trap's cause is a number of 64 bits. -/
theorem cause_lt {n : Nat} (hn : n < 64) (intr : Bool) : ((if intr then 2 ^ 63 else 0) + n) % 2 ^ 64 = n + (if intr then 2 ^ 63 else 0) := by
  cases intr <;> simp <;> omega

include hw hcode

theorem trapTaken_m (hm : ¬(o.mode ≠ .m ∧ (csrOf o (if intr then 0x303 else 0x302)).testBit code = true)) :
    TrapTaken o (o.trap intr code tval gpa) intr code tval gpa := by
  have hm' : (o.mode != .m && o.flag (if intr then 0x303 else 0x302) code) = false := by
    rw [Bool.eq_false_iff, flag_eq]; simpa using hm
  have heq := trap_m hw (intr := intr) (code := code) (tval := tval) (gpa := gpa) hm'
  have hcsr (n : Nat) : csrOf (o.trap intr code tval gpa) n = if n = 0x34B then gpa / 4 % 2 ^ 64 else if n = 0x343 then tval % 2 ^ 64
      else if n = 0x342 then ((if intr then 2 ^ 63 else 0) + code) % 2 ^ 64 else if n = 0x341 then o.pc % 2 ^ 64
      else if n = 0x300 then mEntry (csrOf o 0x300) (prvOf o.mode) (modeV o.mode) (!intr && addrCause code && modeV o.mode) % 2 ^ 64
      else csrOf o n := by
    rw [heq]
    simp (disch := ((repeat apply cset_wf); exact hw)) only [csrOf, cget_cset]
  have hst (i : Nat) (hi : i < 64) : (csrOf (o.trap intr code tval gpa) 0x300).testBit i =
      (mEntry (csrOf o 0x300) (prvOf o.mode) (modeV o.mode) (!intr && addrCause code && modeV o.mode)).testBit i := by
    rw [hcsr]
    simp only [Nat.reduceEqDiff, if_true, if_false]
    exact testBit_word hi _
  simp only [testBit_mEntry] at hst
  refine ⟨by rw [heq], fun h => absurd h.1 hm, fun h => absurd h hm, fun _ => ⟨by rw [heq], ⟨?_, ?_, ?_, ?_⟩, ?_, ?_, ?_, ?_, ?_, ?_, ?_, ?_⟩⟩
  · rw [heq]; exact trapPc_eq ..
  · rw [hcsr]; simp only [Nat.reduceEqDiff, if_true, if_false]
  · rw [hcsr, ← cause_lt hcode intr]; simp only [Nat.reduceEqDiff, if_true, if_false]
  · rw [hcsr]; simp only [Nat.reduceEqDiff, if_true, if_false]
  · rw [hcsr]; simp only [if_true]
  · refine field_eq (n := 2) (prvOf_lt _) fun k hk => ?_
    interval_cases k
    · exact hst 11 (by decide)
    · exact hst 12 (by decide)
  · exact hst 7 (by decide)
  · exact hst 3 (by decide)
  · rw [hst 39 (by decide)]; exact modeV_iff _
  · rw [hst 38 (by decide)]
    simp only [if_true, Bool.and_eq_true, Bool.not_eq_true', modeV_iff, addrCause_iff]
    tauto
  · intro i hi hl
    rw [hst i hi]
    simp only [List.mem_cons, List.not_mem_nil, not_or] at hl
    simp [hl]
  · intro n hn
    simp only [List.mem_cons, List.not_mem_nil, not_or] at hn
    simp [hcsr, hn]

theorem trapTaken_s (hm : o.mode ≠ .m) (hdel : (csrOf o (if intr then 0x303 else 0x302)).testBit code = true)
    (hv : ¬(guestMode o.mode ∧ (csrOf o (if intr then 0x603 else 0x602)).testBit code = true)) :
    TrapTaken o (o.trap intr code tval gpa) intr code tval gpa := by
  have hm' : (o.mode != .m && o.flag (if intr then 0x303 else 0x302) code) = true := by
    rw [flag_eq]; simp [hm, hdel]
  have hv' : (modeV o.mode && o.flag (if intr then 0x603 else 0x602) code) = false := by
    rw [Bool.eq_false_iff, flag_eq, ne_eq, Bool.and_eq_true, modeV_iff]; exact hv
  have heq := trap_s hw (intr := intr) (code := code) (tval := tval) (gpa := gpa) hm' hv'
  have hcsr (n : Nat) : csrOf (o.trap intr code tval gpa) n = if n = 0x643 then gpa / 4 % 2 ^ 64 else if n = 0x143 then tval % 2 ^ 64
      else if n = 0x142 then ((if intr then 2 ^ 63 else 0) + code) % 2 ^ 64 else if n = 0x141 then o.pc % 2 ^ 64
      else if n = 0x600 then hEntry (csrOf o 0x600) (prvOf o.mode) (modeV o.mode) (!intr && addrCause code && modeV o.mode) % 2 ^ 64
      else if n = 0x300 then sEntry (csrOf o 0x300) (prvOf o.mode) % 2 ^ 64 else csrOf o n := by
    rw [heq]
    simp (disch := ((repeat apply cset_wf); exact hw)) only [csrOf, cget_cset]
  have hst (i : Nat) (hi : i < 64) : (csrOf (o.trap intr code tval gpa) 0x600).testBit i =
      (hEntry (csrOf o 0x600) (prvOf o.mode) (modeV o.mode) (!intr && addrCause code && modeV o.mode)).testBit i := by
    rw [hcsr]
    simp only [Nat.reduceEqDiff, if_true, if_false]
    exact testBit_word hi _
  simp only [testBit_hEntry] at hst
  refine ⟨by rw [heq], fun h => absurd h.2 hv, fun _ _ => ⟨by rw [heq], ⟨?_, ?_, ?_, ?_⟩, ?_, ?_, ?_, ?_, ?_, ?_, ?_, ?_⟩, fun h => absurd ⟨hm, hdel⟩ h⟩
  · rw [heq]; exact trapPc_eq ..
  · rw [hcsr]; simp only [Nat.reduceEqDiff, if_true, if_false]
  · rw [hcsr, ← cause_lt hcode intr]; simp only [Nat.reduceEqDiff, if_true, if_false]
  · rw [hcsr]; simp only [Nat.reduceEqDiff, if_true, if_false]
  · rw [hcsr]; simp only [if_true]
  · refine saved_of_sEntry hm ?_
    rw [hcsr]; simp only [Nat.reduceEqDiff, if_true, if_false]
  · rw [hst 7 (by decide)]; exact modeV_iff _
  · rw [hst 6 (by decide)]
    simp only [if_true, Bool.and_eq_true, Bool.not_eq_true', modeV_iff, addrCause_iff]
    tauto
  · intro hg
    rw [hst 8 (by decide), (modeV_iff _).mpr hg]
    exact prvOf_testBit_zero hm
  · intro hg
    rw [hst 8 (by decide), Bool.eq_false_iff.mpr fun h => hg ((modeV_iff _).mp h)]
    rfl
  · intro i hi hl
    simp only [List.mem_cons, List.not_mem_nil, not_or] at hl
    rw [hst i hi]
    simp [hl]
  · intro n hn
    simp only [List.mem_cons, List.not_mem_nil, not_or] at hn
    simp [hcsr, hn]

theorem trapTaken_vs (hm : o.mode ≠ .m) (hdel : (csrOf o (if intr then 0x303 else 0x302)).testBit code = true)
    (hg : guestMode o.mode) (hdel' : (csrOf o (if intr then 0x603 else 0x602)).testBit code = true) :
    TrapTaken o (o.trap intr code tval gpa) intr code tval gpa := by
  have hm' : (o.mode != .m && o.flag (if intr then 0x303 else 0x302) code) = true := by
    rw [flag_eq]; simp [hm, hdel]
  have hv' : (modeV o.mode && o.flag (if intr then 0x603 else 0x602) code) = true := by
    rw [flag_eq, (modeV_iff _).mpr hg, hdel']; rfl
  have heq := trap_vs hw (intr := intr) (code := code) (tval := tval) (gpa := gpa) hm' hv'
  have hcsr (n : Nat) : csrOf (o.trap intr code tval gpa) n = if n = 0x243 then tval % 2 ^ 64
      else if n = 0x242 then ((if intr then 2 ^ 63 else 0) + (if intr then code - 1 else code)) % 2 ^ 64 else if n = 0x241 then o.pc % 2 ^ 64
      else if n = 0x200 then sEntry (csrOf o 0x200) (prvOf o.mode) % 2 ^ 64 else csrOf o n := by
    rw [heq]
    simp (disch := ((repeat apply cset_wf); exact hw)) only [csrOf, cget_cset]
  have hcode' : (if intr then code - 1 else code) < 64 := by split <;> omega
  refine ⟨by rw [heq], fun _ => ⟨by rw [heq], ⟨?_, ?_, ?_, ?_⟩, ?_, ?_⟩, fun _ h => absurd ⟨⟨hm, hdel⟩, hg, hdel'⟩ h, fun h => absurd ⟨hm, hdel⟩ h⟩
  · rw [heq]; exact trapPc_eq ..
  · rw [hcsr]; simp only [Nat.reduceEqDiff, if_true, if_false]
  · rw [hcsr, ← cause_lt hcode' intr]; simp only [Nat.reduceEqDiff, if_true, if_false]
  · rw [hcsr]; simp only [if_true]
  · refine saved_of_sEntry hm ?_
    rw [hcsr]; simp only [Nat.reduceEqDiff, if_true, if_false]
  · intro n hn
    simp only [List.mem_cons, List.not_mem_nil, not_or] at hn
    simp [hcsr, hn]

/-- A trap is taken where the delegation registers say (R423). -/
theorem trap_taken : TrapTaken o (o.trap intr code tval gpa) intr code tval gpa := by
  by_cases hS : o.mode ≠ .m ∧ (csrOf o (if intr then 0x303 else 0x302)).testBit code = true
  · obtain ⟨hm, hdel⟩ := hS
    by_cases hV : guestMode o.mode ∧ (csrOf o (if intr then 0x603 else 0x602)).testBit code = true
    · exact trapTaken_vs hw hcode hm hdel hV.1 hV.2
    · exact trapTaken_s hw hcode hm hdel hV
  · exact trapTaken_m hw hcode hS

end

section
variable {s : State} {a : HartAcc}

/-- An access that comes to a trap of the hart. -/
theorem hartTraps_of {u : State} {code tval gpa : Nat} (he : exec (.hostHartAccess a) s = .next (u.hartTrap a code tval gpa))
    (hr : (u.hart a).run = true) (hcode : code < 64) : HartTraps a s u code tval gpa := fun hw =>
  have htaken := trap_taken hw hcode
  hartGets_of he ((congrArg Hart.run htaken.1).trans hr) htaken

end
end Sys2Proof.Claims
end

section
/-!
SUPPORT. A host hart's accesses of memory (R421, R422): a piece of an access at its place, and what the whole comes to.
-/
namespace Sys2Proof.Claims
open Sys2Proof.Machine

/-! ### The pieces of an access -/

/-- How a home counts an operation: a read, a write, or both. -/
def hartTraf (o : HartOp) : Traf := { op := if (hartNeeds o).w then (if (hartNeeds o).r then 2 else 1) else 0 }

/-- The outcome of the later pieces behind a piece of n bytes that returned v. -/
def addPiece (v n : Nat) : State × Except (HFault × Nat) Nat → State × Except (HFault × Nat) Nat
  | (s, .ok w) => (s, .ok (v + w * 2 ^ (8 * n)))
  | r => r

theorem addPiece_fst (v n : Nat) (r : State × Except (HFault × Nat) Nat) : (addPiece v n r).1 = r.1 := by
  obtain ⟨s, r⟩ := r
  cases r <;> rfl

section
variable {s u w y : State} {pid : Nat} {a : HartAcc} {va n i : Nat} {l : List (Nat × Nat)} {x : HPlace} {b : List Byte}

theorem hartGo_fault {f : HFault} (hr : s.hartReach pid a va = (u, .error f)) : s.hartGo pid a ((va, n) :: l) i = (u, .error (f, va)) := by
  rw [State.hartGo, hr]

/-- A piece at an interrupt file: a word stored at its start is a message. -/
theorem hartGo_file {h f : Nat} (hr : s.hartReach pid a va = (u, .ok x)) (hf : x.file = some (h, f)) : s.hartGo pid a ((va, n) :: l) i =
    State.hartGo pid a l (i + n) (if (hartNeeds a.op).w && n == 4 && x.pa % 4096 == 0 then u.pendFile pid h f (a.data % 2 ^ 32) else u) := by
  rw [State.hartGo, hr]
  simp only [hf]

section
variable (hr : s.hartReach pid a va = (u, .ok x)) (hf : x.file = none)
include hr hf

theorem hartGo_unread (hb : (u.touch x.home pid x.vd x.tag x.gran x.sla (hartTraf a.op)).homeRead x.home x.sla n x.key = (w, none)) :
    s.hartGo pid a ((va, n) :: l) i = (w, .error (.access, va)) := by
  rw [hartTraf] at hb
  rw [State.hartGo, hr]
  simp only [hf, hb]

variable (hb : (u.touch x.home pid x.vd x.tag x.gran x.sla (hartTraf a.op)).homeRead x.home x.sla n x.key = (w, some b))
include hb

theorem hartGo_reads {v : Nat} (hn : hartNew a.op (ofBytes b) (a.data / 2 ^ (8 * i)) n = (none, v)) :
    s.hartGo pid a ((va, n) :: l) i = addPiece v n (State.hartGo pid a l (i + n) w) := by
  rw [hartTraf] at hb
  rw [State.hartGo, hr]
  simp only [hf, hb, hn, Bool.not_true, Bool.false_eq_true, if_false]
  rfl

theorem hartGo_writes {c v : Nat} (hn : hartNew a.op (ofBytes b) (a.data / 2 ^ (8 * i)) n = (some c, v))
    (hc : w.homeWrite x.home x.sla x.key (toBytes n c) = (y, true)) :
    s.hartGo pid a ((va, n) :: l) i = addPiece v n (State.hartGo pid a l (i + n) (y.door pid x.pa (toBytes n c))) := by
  rw [hartTraf] at hb
  rw [State.hartGo, hr]
  simp only [hf, hb, hn, hc, if_true, Bool.not_true, Bool.false_eq_true, if_false]
  rfl

end

/-- A message to an interrupt file stops no hart. -/
theorem pendFile_run (s : State) (a : HartAcc) (pid h file iid : Nat) : ((s.pendFile pid h file iid).hart a).run = (s.hart a).run := by
  unfold State.pendFile
  split
  · rfl
  · rename_i k _
    dsimp only
    split_ifs
    · rfl
    · by_cases hk : hartKey a = k
      · subst hk
        simp [State.hart]
      · simp [State.hart, tget_tput_other _ _ hk]

/-- A home's read leaves the harts. -/
theorem hart_of_read (a : HartAcc) {t : Traf} {r : Option (List Byte)} (hb : (u.touch x.home pid x.vd x.tag x.gran x.sla t).homeRead x.home x.sla n x.key = (w, r)) :
    w.hart a = u.hart a := by
  have h : w.rest none = u.rest none := rest_of_run hb (by simp)
  exact hart_of_harts (harts_of_rest h) a

/-! ### What an operation leaves in its bytes -/

theorem hartNew_of_onlyReads {o : HartOp} (h : onlyReads o) (old data n : Nat) : hartNew o old data n = (none, old) := by
  obtain h | h | h | h | h := h <;> subst h <;> rfl

theorem hartNew_of_store {o : HartOp} (h : o = .store ∨ o = .hsv ∨ o = .sc) (old data n : Nat) :
    hartNew o old data n = (some (data % 2 ^ (8 * n)), 0) := by
  obtain h | h | h := h <;> subst h <;> rfl

theorem hartNew_amo (o : AOp) (old data n : Nat) : hartNew (.amo o) old data n = (some (atomNew o old (data % 2 ^ (8 * n))).1, old) := rfl

theorem hartTraf_of_onlyReads {o : HartOp} (h : onlyReads o) : hartTraf o = { op := 0 } := by
  obtain h | h | h | h | h := h <;> subst h <;> rfl

/-! ### The whole access -/

theorem hartPieces_aligned (h : a.va % a.size = 0) : hartPieces a = [(a.va, a.size)] := by
  simp [hartPieces, h]

theorem hartPieces_misaligned (h : a.va % a.size ≠ 0) : hartPieces a = (List.range a.size).map fun i => (a.va + i, 1) := by
  simp [hartPieces, h, upto]

/-- One piece that returned v is the whole access. -/
theorem addPiece_end (v n i : Nat) (w : State) : addPiece v n (State.hartGo pid a [] i w) = (w, .ok v) := by
  simp [State.hartGo, addPiece]

end

section
variable {s : State} {a : HartAcc} {pid : Nat} {p : Part} (hruns : hartRuns s a pid p)
include hruns

theorem run_of_hartRuns : (s.hart a).run = true := by
  obtain ⟨_, _, hrun, _⟩ := hruns
  exact hrun

section
variable (hon : onMemory a.op) (hmay : mayAccess s a) (hsz : a.size ∈ [1, 2, 4, 8]) (hva : a.va < 2 ^ 64)
  (hal : isAtomic a.op → a.va % a.size = 0) (hsc : a.op = .sc → s.reserved pid a = true)
include hon hmay hsz hva hal hsc

/-- An access whose pieces have been performed: its value is in the hart. -/
theorem hartGets_of_pieces {u : State} {v : Nat} {k : Hart → Prop} (hgo : s.hartGo pid a (hartPieces a) 0 = (u, .ok v)) (hr : (u.hart a).run = true)
    (hk : k (accessed pid a u v (u.hart a))) : HartGets a s u k := by
  refine hartGets_of ?_ hr hk
  rw [exec_memory hruns hon hsz hva, hartMemory_go hmay hal hsc, hgo]
  rfl

/-- An access one of whose pieces faults traps. -/
theorem hartTraps_of_pieces {u : State} {f : HFault} {va : Nat} (hgo : s.hartGo pid a (hartPieces a) 0 = (u, .error (f, va))) (hf : f ≠ .wait)
    (hr : (u.hart a).run = true) : HartTraps a s u (hartCause a.op f) va (faultGpa f) := by
  refine hartTraps_of ?_ hr ?_
  · rw [exec_memory hruns hon hsz hva, hartMemory_go hmay hal hsc, hgo]
    cases f with
    | wait => exact absurd rfl hf
    | page | guest _ | access | misaligned => rfl
  · cases a.op <;> cases f <;> simp [hartCause, listGet]

/-- A piece that waits for its home changes nothing. -/
theorem exec_waits {u : State} {va : Nat} (hgo : s.hartGo pid a (hartPieces a) 0 = (u, .error (.wait, va))) :
    exec (.hostHartAccess a) s = .next s := by
  rw [exec_memory hruns hon hsz hva, hartMemory_go hmay hal hsc, hgo]
  rfl

end

/-! ### An aligned access -/

section
variable (hon : onMemory a.op) (hmay : mayAccess s a) (hsz : a.size ∈ [1, 2, 4, 8]) (hva : a.va < 2 ^ 64) (hal : a.va % a.size = 0)
  (hsc : a.op = .sc → s.reserved pid a = true)
include hon hmay hsz hva hal hsc

theorem hartTraps_of_reach {u : State} {f : HFault} (hr : s.hartReach pid a a.va = (u, .error f)) (hf : f ≠ .wait) (hrun : (u.hart a).run = true) :
    HartTraps a s u (hartCause a.op f) a.va (faultGpa f) :=
  hartTraps_of_pieces hruns hon hmay hsz hva (fun _ => hal) hsc (by rw [hartPieces_aligned hal]; exact hartGo_fault hr) hf hrun

theorem exec_reach_waits {u : State} (hr : s.hartReach pid a a.va = (u, .error .wait)) : exec (.hostHartAccess a) s = .next s :=
  exec_waits hruns hon hmay hsz hva (fun _ => hal) hsc (by rw [hartPieces_aligned hal]; exact hartGo_fault hr)

section
variable {u : State} {x : HPlace} (hr : s.hartReach pid a a.va = (u, .ok x))
include hr

/-- An access of an interrupt file reads 0; a word stored at its start is a message (R376). -/
theorem hartGets_file {h f : Nat} (hf : x.file = some (h, f)) {k : Hart → Prop} (v : State)
    (hv : v = if (hartNeeds a.op).w && a.size == 4 && x.pa % 4096 == 0 then u.pendFile pid h f (a.data % 2 ^ 32) else u)
    (hv' : (v.hart a).run = true) (hk : k (accessed pid a v 0 (v.hart a))) : HartGets a s v k := by
  refine hartGets_of_pieces hruns hon hmay hsz hva (fun _ => hal) hsc (v := 0) ?_ hv' hk
  rw [hartPieces_aligned hal, hartGo_file hr hf, hv]
  rfl

variable (hrun : (u.hart a).run = true) (hf : x.file = none) {w : State}
include hrun hf

theorem hartTraps_unread (hb : (u.touch x.home pid x.vd x.tag x.gran x.sla (hartTraf a.op)).homeRead x.home x.sla a.size x.key = (w, none)) :
    HartTraps a s w (hartCause a.op .access) a.va 0 := by
  have hw := hart_of_read a hb
  exact hartTraps_of_pieces hruns hon hmay hsz hva (fun _ => hal) hsc (by rw [hartPieces_aligned hal]; exact hartGo_unread hr hf hb) (by simp) (by rw [hw]; exact hrun)

variable {b : List Byte} (hb : (u.touch x.home pid x.vd x.tag x.gran x.sla (hartTraf a.op)).homeRead x.home x.sla a.size x.key = (w, some b))
include hb

theorem hartGets_reads {k : Hart → Prop} (ho : onlyReads a.op) (hk : k (accessed pid a w (ofBytes b) (w.hart a))) : HartGets a s w k := by
  have hw := hart_of_read a hb
  refine hartGets_of_pieces hruns hon hmay hsz hva (fun _ => hal) hsc ?_ (by rw [hw]; exact hrun) hk
  rw [hartPieces_aligned hal, hartGo_reads hr hf hb (hartNew_of_onlyReads ho ..), addPiece_end]

theorem hartGets_writes {c v : Nat} {z : State} {k : Hart → Prop} (hn : hartNew a.op (ofBytes b) a.data a.size = (some c, v))
    (hc : w.homeWrite x.home x.sla x.key (toBytes a.size c) = (z, true))
    (hk : k (accessed pid a (z.door pid x.pa (toBytes a.size c)) v (w.hart a))) :
    HartGets a s (z.door pid x.pa (toBytes a.size c)) k := by
  have hw := hart_of_read a hb
  have hz : z.rest none = w.rest none := rest_of_run hc (by simp)
  have hd : (z.door pid x.pa (toBytes a.size c)).hart a = w.hart a := hart_of_harts (harts_of_rest ((door_rest none ..).trans hz)) a
  refine hartGets_of_pieces hruns hon hmay hsz hva (fun _ => hal) hsc (v := v) ?_ (by rw [hd, hw]; exact hrun) (by rw [hd]; exact hk)
  rw [hartPieces_aligned hal, hartGo_writes hr hf hb (by simpa using hn) hc, addPiece_end]

end
end

/-! ### The checks before an access -/

omit hruns in
theorem four_le_of_mem {n : Nat} (h : n ∈ [4, 8]) : 4 ≤ n := by
  obtain rfl | rfl : n = 4 ∨ n = 8 := by simpa using h
  all_goals decide

theorem hartTraps_misaligned (hat : isAtomic a.op) (hsz : a.size ∈ [4, 8]) (hva : a.va < 2 ^ 64) (hal : a.va % a.size ≠ 0) :
    HartTraps a s s (if a.op = .lr then 4 else 6) a.va 0 := by
  have hmay : mayAccess s a := ⟨fun h => absurd h (not_isHyper_of_isAtomic hat), fun _ => four_le_of_mem hsz⟩
  refine hartTraps_of ?_ (run_of_hartRuns hruns) (by split <;> decide)
  rw [exec_memory hruns (onMemory_of_isAtomic hat) (List.mem_of_mem_drop (i := 2) hsz) hva, hartMemory, hartBarred_of_mayAccess hmay]
  simp [(hartAtomic_iff _).mpr hat, hal, hartCause_misaligned hat, event]

theorem hartTraps_barred {c : Nat} (hb : hartBarred s a = some c) (hc : c < 64) (hon : onMemory a.op) (hsz : a.size ∈ [1, 2, 4, 8]) (hva : a.va < 2 ^ 64) :
    HartTraps a s s c 0 0 := by
  refine hartTraps_of ?_ (run_of_hartRuns hruns) hc
  rw [exec_memory hruns hon hsz hva, hartMemory, hb, event_some]

/-- `SC` without a reservation gives 1. -/
theorem hartGets_unreserved (hop : a.op = .sc) (hsz : a.size ∈ [4, 8]) (hva : a.va < 2 ^ 64) (hal : a.va % a.size = 0) (hres : s.reserved pid a = false) :
    HartGets a s s fun h => h.val = 1 ∧ h.resv = none ∧ h.cause = none := by
  have hmay : mayAccess s a := ⟨fun h => by simp [hop, isHyper] at h, fun _ => four_le_of_mem hsz⟩
  refine hartGets_of (f := fun h => { h with val := 1, resv := none, cause := none }) ?_ (run_of_hartRuns hruns) ⟨rfl, rfl, rfl⟩
  rw [exec_memory hruns (by simp [hop, onMemory]) (List.mem_of_mem_drop (i := 2) hsz) hva, hartMemory, hartBarred_of_mayAccess hmay]
  simp [hop, hal, hres, hartAtomic, event]

end
end Sys2Proof.Claims
end

section
/-!
SUPPORT. A host hart's translation (R421, R422): the mode of an access, its walk and its TLB.
-/
namespace Sys2Proof.Claims
open Sys2Proof.Machine

/-! ### Modes -/

theorem bits_one (x i : Nat) : bits x i i = 1 ↔ x.testBit i = true := by
  rw [← bit_eq_testBit]
  simp [bits, bit]

theorem prvOf_modeOf (p : Nat) (v : Bool) : prvOf (modeOf p v) = if p = 3 then 3 else if p = 1 then 1 else 0 := by
  unfold modeOf
  by_cases h3 : p = 3
  · simp [h3, prvOf]
  by_cases h1 : p = 1
  · cases v <;> simp [h1, prvOf]
  · cases v <;> simp [h1, h3, prvOf]

theorem guestMode_modeOf (p : Nat) (v : Bool) : guestMode (modeOf p v) ↔ p ≠ 3 ∧ v = true := by
  unfold modeOf
  by_cases h3 : p = 3
  · simp [h3, guestMode]
  by_cases h1 : p = 1
  · cases v <;> simp [h1, guestMode]
  · cases v <;> simp [h1, h3, guestMode]

theorem bits_ne_three (x i : Nat) : bits x i i ≠ 3 := by
  have hlt : bits x i i < 2 ^ (i + 1 - i) := Nat.mod_lt _ (Nat.two_pow_pos _)
  rw [Nat.add_sub_cancel_left] at hlt
  omega

theorem prvOf_modeOf_bit (x i : Nat) (v : Bool) : prvOf (modeOf (bits x i i) v) = 1 ↔ x.testBit i = true := by
  rw [prvOf_modeOf, ← bits_one, if_neg (bits_ne_three x i)]
  by_cases h1 : bits x i i = 1 <;> simp [h1]

theorem accMode_of_isHyper (h : Hart) {o : HartOp} (ho : isHyper o) : h.accMode o = modeOf (bits (csrOf h 0x600) 8 8) true := by
  obtain ho | ho | ho := ho <;> subst ho <;> rfl

theorem accMode_fetch (h : Hart) : h.accMode .fetch = h.mode := rfl

/-- Data is accessed in the mode of MPP and MPV under MPRV. -/
theorem accMode_of_not_isHyper (h : Hart) {o : HartOp} (ho : ¬isHyper o) (hf : o ≠ .fetch) :
    h.accMode o = if h.mode = .m ∧ (csrOf h 0x300).testBit 17 = true then
      modeOf (bits (csrOf h 0x300) 12 11) ((csrOf h 0x300).testBit 39 && bits (csrOf h 0x300) 12 11 != 3) else h.mode := by
  have hraw (n : Nat) : h.raw n = csrOf h n := rfl
  cases o with
  | fetch => exact absurd rfl hf
  | hlv | hlvx | hsv => exact absurd (by simp [isHyper]) ho
  | _ => simp [Hart.accMode, flag_eq, hraw]

/-! ### Walks -/

theorem leafDenies_eq_false (e : Pte) (p : Priv) (a : Acc) : leafDenies e p a = false ↔ leafAllows e p a := by
  unfold leafDenies leafAllows
  cases p.user <;> simp <;> grind

theorem priv_of_not_guest {h : Hart} {md : HMode} (hm : md = .s ∨ md = .u) :
    h.priv md = { user := decide (md = .u), sum := (csrOf h 0x300).testBit 18, mxr := (csrOf h 0x300).testBit 19 } := by
  have hraw : h.raw 0x300 = csrOf h 0x300 := rfl
  obtain rfl | rfl := hm <;> simp [Hart.priv, modeV, modePrv, hraw, bit_eq_testBit, flag_eq]

/-- The only entry of a TLB serves the accesses of its page in its mode that it permits. -/
theorem tlbHit_single {h : Hart} {e : HTlb} {acc : Acc} {va : Nat} (ht : h.tlb = [e]) (hasid : e.asid = h.atp e.mode / 2 ^ 44 % 2 ^ 16)
    (hvmid : e.vmid = h.vmid e.mode) (hpage : e.page = va / 4096) (hacc : (acc.r → e.acc.r) ∧ (acc.w → e.acc.w) ∧ (acc.x → e.acc.x)) :
    h.tlbHit e.mode acc va = some e := by
  obtain ⟨hr, hw, hx⟩ := hacc
  simp only [Hart.tlbHit, ht, List.find?_singleton, hasid, hvmid, hpage, beq_self_eq_true, Bool.true_and]
  rw [if_pos]
  simp only [Bool.not_eq_true', Bool.or_eq_false_iff, Bool.and_eq_false_imp, Bool.not_eq_false']
  exact ⟨⟨hr, hw⟩, hx⟩

section
variable {s u : State} {pid : Nat} {a : HartAcc} {va : Nat}

section
variable (ht : (s.hart a).tlb = [])
include ht

theorem hartWalk_phys {pa : Nat} (hw : s.hartWalkFor pid a.slice (s.hart a) ((s.hart a).accMode a.op) (hartNeeds a.op) va = (u, .ok (pa, .phys))) :
    s.hartWalk pid a va = (u, .ok (pa, .phys)) := by
  simp [State.hartWalk, Hart.tlbHit, ht, hw]

theorem hartWalk_fault {f : HFault} (hw : s.hartWalkFor pid a.slice (s.hart a) ((s.hart a).accMode a.op) (hartNeeds a.op) va = (u, .error f)) :
    s.hartWalk pid a va = (u, .error f) := by
  simp [State.hartWalk, Hart.tlbHit, ht, hw]

end

/-- The entry that a walk enters in the hart's TLB. -/
def walkEnt (h : Hart) (md : HMode) (acc : Acc) (va pa vd : Nat) : HTlb :=
  { mode := md, asid := h.atp md / 2 ^ 44 % 2 ^ 16, vmid := h.vmid md, page := va / 4096, acc := acc, pa := pa / 4096, vd := vd }

theorem walkEnt_of_not_guest {h : Hart} {md : HMode} (hm : md = .s ∨ md = .u) (acc : Acc) (va pa vd : Nat) : walkEnt h md acc va pa vd =
    { mode := md, asid := csrOf h 0x180 / 2 ^ 44 % 2 ^ 16, vmid := 0, page := va / 4096, acc := acc, pa := pa / 4096, vd := vd } := by
  obtain rfl | rfl := hm <;> rfl

theorem hartWalk_enters {pa vd : Nat} (ht : (s.hart a).tlb = []) (hu : u.harts = s.harts)
    (hw : s.hartWalkFor pid a.slice (s.hart a) ((s.hart a).accMode a.op) (hartNeeds a.op) va = (u, .ok (pa, .vd vd))) : s.hartWalk pid a va =
    (u.setHart a fun h => { h with tlb := [walkEnt (s.hart a) ((s.hart a).accMode a.op) (hartNeeds a.op) va pa vd] }, .ok (pa, .vd vd)) := by
  have hu' : (u.hart a).tlb = [] := by rw [hart_of_harts hu, ht]
  simp [State.hartWalk, Hart.tlbHit, ht, hw, State.setHart, hu', walkEnt]

/-- A walk's outcome is its place, whether it enters it in the TLB or not. -/
theorem hartWalk_snd (ht : (s.hart a).tlb = []) :
    (s.hartWalk pid a va).2 = (s.hartWalkFor pid a.slice (s.hart a) ((s.hart a).accMode a.op) (hartNeeds a.op) va).2 := by
  rcases hw : s.hartWalkFor pid a.slice (s.hart a) ((s.hart a).accMode a.op) (hartNeeds a.op) va with ⟨u, f | ⟨pa, _ | _⟩⟩
  · rw [hartWalk_fault ht hw]
  · simp [State.hartWalk, Hart.tlbHit, ht, hw]
  · rw [hartWalk_phys ht hw]

/-- An entry that serves the access: the hart uses it, or walks. -/
theorem hartWalk_hit {e : HTlb} (hhit : (s.hart a).tlbHit ((s.hart a).accMode a.op) (hartNeeds a.op) va = some e) :
    ∃ u, u = { s with free := u.free } ∧ (s.hartWalk pid a va = (u, .ok (e.pa * 4096 + va % 4096, .vd e.vd)) ∨
      (s.hartWalk pid a va).2 = (u.hartWalkFor pid a.slice (s.hart a) ((s.hart a).accMode a.op) (hartNeeds a.op) va).2) := by
  refine ⟨(s.choose 2).2, rfl, ?_⟩
  by_cases hn : (s.choose 2).1 = 1
  · left
    simp [State.hartWalk, hhit, hn]
  · right
    rcases hw : (s.choose 2).2.hartWalkFor pid a.slice (s.hart a) ((s.hart a).accMode a.op) (hartNeeds a.op) va with ⟨u, f | ⟨pa, _ | _⟩⟩ <;>
      simp [State.hartWalk, hhit, hn, hw]

/-! ### The stages -/

theorem hartWalkFor_bare {h : Hart} {md : HMode} {acc : Acc} (hm : md = .s ∨ md = .u) (hb : csrOf h 0x180 < 2 ^ 60) :
    s.hartWalkFor pid a.slice h md acc va = (s, .ok (va, .phys)) := by
  have h0 : h.raw 0x180 / 2 ^ 60 = 0 := Nat.div_eq_of_lt hb
  obtain rfl | rfl := hm <;> simp [State.hartWalkFor, modeV, Hart.atp, h0, -Nat.reducePow]

/-- The walk of an address without V is that of its first stage. -/
theorem hartWalkFor_stage1 {h : Hart} {md : HMode} {acc : Acc} (hm : md = .s ∨ md = .u) (hb : csrOf h 0x180 / 2 ^ 60 = 8) {ctx : VdCtx}
    (hctx : ctx = ((tget s.parts pid).bind fun p => tget p.vds 0).getD {}) {r : Except HFault Nat}
    (hs : s.hartStage1 a.slice (csrOf h 0x180) none ctx va (h.priv md) acc = (u, r)) :
    s.hartWalkFor pid a.slice h md acc va = (u, r.map fun pa => (pa, .vd 0)) := by
  have hraw : h.raw 0x180 = csrOf h 0x180 := rfl
  subst hctx
  obtain rfl | rfl := hm <;> simp [State.hartWalkFor, modeV, Hart.atp, hraw, hb, hs, -Nat.reducePow]

/-- The root entry of an Sv39 walk of an address below 2^38. -/
theorem hartStage1_sv39 {atp w : Nat} {ctx : VdCtx} {p : Priv} {acc : Acc} (hb : atp / 2 ^ 60 = 8) (hva : va < 2 ^ 38)
    (hrd : s.readPa8 a.slice (s.slice a.slice).map (atp % 2 ^ 44 * 4096 + 8 * (va / 2 ^ 30)) (ctx.keySlot 0) = (u, .ok w)) :
    ((pteOf w).bad = true ∨ (pteOf w).malformed 2 = true → s.hartStage1 a.slice atp none ctx va p acc = (u, .error .page)) ∧
    ((pteOf w).bad = false → (pteOf w).malformed 2 = false → (pteOf w).leaf = true → s.hartStage1 a.slice atp none ctx va p acc =
      (u, if leafDenies (pteOf w) p acc then .error .page else .ok ((pteOf w).ppn * 4096 + va % 2 ^ 30))) := by
  have hcan : svCanonical 2 va = true := by
    have : va / 2 ^ 38 = 0 := Nat.div_eq_of_lt hva
    simp [svCanonical, this, -Nat.reducePow]
  have hidx : va / 2 ^ 30 % 512 = va / 2 ^ 30 := Nat.mod_eq_of_lt (by omega)
  rw [← hidx] at hrd
  have h1 : s.hartStage1 a.slice atp none ctx va p acc = s.hartV a.slice none ctx va p acc 2 (atp % 2 ^ 44 * 4096) := by
    simp [State.hartStage1, hb, svTop, hcan, -Nat.reducePow]
  rw [h1, State.hartV]
  simp only [Nat.reduceMul, Nat.reduceAdd, hrd]
  refine ⟨fun hbad => ?_, fun h1 h2 h3 => ?_⟩
  · rw [if_pos (by simpa using hbad)]
  · rw [if_neg (by simp [h1, h2]), if_pos h3]
    simp [Pte.target]

/-- A guest's address of an untranslated first stage, at its place of the second. -/
theorem hartWalkFor_guestBare {h : Hart} {md : HMode} {acc : Acc} {pa gpa : Nat} (hm : guestMode md) (hb : csrOf h 0x280 < 2 ^ 60)
    (hs : s.hartStage2 a.slice (csrOf h 0x680) (h.priv md) va acc = (u, .ok (pa, gpa))) :
    s.hartWalkFor pid a.slice h md acc va = (u, .ok (pa, .vd (csrOf h 0x680 / 2 ^ 44 % 1024))) := by
  have h0 : h.raw 0x280 / 2 ^ 60 = 0 := Nat.div_eq_of_lt hb
  have hraw : h.raw 0x680 = csrOf h 0x680 := rfl
  obtain rfl | rfl := hm <;>
    simp [State.hartWalkFor, modeV, Hart.atp, Hart.vmid, State.hartStage1, h0, hraw, hs, Except.map, -Nat.reducePow]

end
end Sys2Proof.Claims
end

section
/-!
SUPPORT. What a host hart does to its registers and CSRs (R421): the instructions of a supervisor, the rights of a CSR, its value and its write.
-/
namespace Sys2Proof.Claims
open Sys2Proof.Machine

section
variable {s u : State} {a : HartAcc} {pid : Nat} {p : Part} (hruns : hartRuns s a pid p)
include hruns

/-- What a hart does to itself, once it is done. -/
theorem hartGets_own {f : Hart → Hart} {k : Hart → Prop} (ho : s.hartOwn pid a = some (u.hartDone a f)) (hr : (f (u.hart a)).run = true)
    (hk : k { f (u.hart a) with cause := none }) : HartGets a s u k :=
  hartGets_of (exec_own hruns ho) hr hk

theorem hartTraps_own {c tval : Nat} (ho : s.hartOwn pid a = some (s.hartTrap a c tval 0)) (hc : c < 64) : HartTraps a s s c tval 0 :=
  hartTraps_of (exec_own hruns ho) (run_of_hartRuns hruns) hc

omit hruns in
theorem HartGets.mono {k k' : Hart → Prop} (h : HartGets a s u k) (hk : ∀ x, k x → k' x) : HartGets a s u k' := by
  obtain ⟨t, x, hx, ht, hget, hrun, hx', hkeep⟩ := h
  exact ⟨t, x, hx, ht, hget, hrun, hk x hx', hkeep⟩

/-! ### Instructions of a supervisor -/

omit hruns in
theorem modeV_ne_iff (md md' : HMode) : modeV md ≠ modeV md' ↔ (guestMode md ↔ ¬guestMode md') := by
  rw [ne_eq, Bool.eq_iff_iff, modeV_iff, modeV_iff]
  tauto

theorem hartGets_sup {hyper : Bool} {f : Hart → Hart} {k : Hart → Prop} (ho : s.hartOwn pid a = some (s.hartSup a hyper f))
    (hb : supBars (s.hart a).mode hyper = none) (hr : (f (s.hart a)).run = (s.hart a).run) (hk : k { f (s.hart a) with cause := none }) :
    HartGets a s s k := by
  refine hartGets_own hruns (f := f) ?_ (hr.trans (run_of_hartRuns hruns)) hk
  rw [ho, State.hartSup, hb]

theorem hartTraps_sup {hyper : Bool} {f : Hart → Hart} {c : Nat} (ho : s.hartOwn pid a = some (s.hartSup a hyper f))
    (hb : supBars (s.hart a).mode hyper = some c) (hc : c < 64) : HartTraps a s s c 0 0 := by
  refine hartTraps_own hruns ?_ hc
  rw [ho, State.hartSup, hb]

end

/-! ### The rights of a CSR -/

theorem csrBars_of_open {md : HMode} {n : Nat} {w : Bool} (h : csrOpen md n w) : csrBars md n w = none := by
  obtain ⟨hn, hw, hl⟩ := h
  have h1 : (decide (n ≥ 4096) || (w && n / 1024 == 3)) = false := by
    cases w <;> simp_all
  unfold csrBars
  simp only [h1, Bool.false_eq_true, if_false]
  cases md with
  | m => rfl
  | s =>
    have : n / 256 % 4 ≠ 3 := by simp at hl; omega
    simp [this]
  | u | vu =>
    have : n / 256 % 4 = 0 := by simpa using hl
    simp [this]
  | vs =>
    have h3 : n / 256 % 4 ≠ 3 := by simp at hl; omega
    have h2 : n / 256 % 4 ≠ 2 := by simp at hl; omega
    simp [h2, h3]

theorem csrBars_of_not_open {md : HMode} {n : Nat} {w : Bool} (h : ¬csrOpen md n w) :
    csrBars md n w = some (if guestMode md ∧ n < 4096 ∧ (w = true → n / 1024 ≠ 3) ∧ n / 256 % 4 ≠ 3 then 22 else 2) := by
  unfold csrBars
  by_cases h1 : (decide (n ≥ 4096) || (w && n / 1024 == 3)) = true
  · simp only [h1, if_true]
    rw [if_neg]
    simp only [Bool.or_eq_true, decide_eq_true_eq, Bool.and_eq_true, beq_iff_eq] at h1
    rintro ⟨_, hn, hw, _⟩
    obtain h1 | ⟨h1, h2⟩ := h1
    · omega
    · exact hw h1 h2
  · have hn : n < 4096 ∧ (w = true → n / 1024 ≠ 3) := by simpa using h1
    have hl : ¬(md = .m ∨ (md = .s ∧ n / 256 % 4 ≠ 3) ∨ (md = .vs ∧ n / 256 % 4 ≤ 1) ∨ n / 256 % 4 = 0) := fun hl => h ⟨hn.1, hn.2, hl⟩
    simp only [h1, hn]
    cases md with
    | m => simp at hl
    | s | u | vs | vu =>
      simp [guestMode] at hl ⊢
      grind

/-! ### The value of a CSR, and its write -/

theorem csrAlias_eq {md : HMode} {n : Nat} (h : md = .vs → n / 1024 = 0 → n / 256 % 4 ≠ 1) : csrAlias md n = n := by
  unfold csrAlias
  rw [if_neg]
  simp only [Bool.and_eq_true, beq_iff_eq]
  tauto

theorem csrAlias_vs {md : HMode} {n : Nat} (hm : md = .vs) (h1 : n / 1024 = 0) (h2 : n / 256 % 4 = 1) : csrAlias md n = n + 0x100 := by
  simp [csrAlias, hm, h1, h2]

theorem csrVal_plain {h : Hart} {now n m : Nat} (ha : csrAlias h.mode n = m) (hm : m ∉ csrSpecial) : h.csrVal now n = csrOf h m := by
  simp only [csrSpecial, List.mem_cons, List.not_mem_nil, or_false, not_or] at hm
  unfold Hart.csrVal
  simp only [ha, hm, beq_iff_eq, Bool.or_eq_true, or_self, if_false]
  rfl

theorem csrPut_plain {h : Hart} {n m v : Nat} (ha : csrAlias h.mode n = m) (hm : m ∉ csrSpecial) : h.csrPut n v = h.setRaw m v := by
  simp only [csrSpecial, List.mem_cons, List.not_mem_nil, or_false, not_or] at hm
  unfold Hart.csrPut
  simp only [ha, hm, beq_iff_eq, Bool.or_eq_true, or_self, if_false]

theorem imsicWrite_run (h : Hart) (f sel v : Nat) : (h.imsicWrite f sel v).run = h.run := by
  unfold Hart.imsicWrite
  dsimp only
  split_ifs <;> rfl

theorem run_ite {c : Prop} [Decidable c] {x y : Hart} {r : Bool} (hx : x.run = r) (hy : y.run = r) : (if c then x else y).run = r := by
  split <;> assumption

theorem setRaw_run (h : Hart) (n v : Nat) : (h.setRaw n v).run = h.run := by simp only [Hart.setRaw]

theorem mergeRaw_run (h : Hart) (n mask v : Nat) : (h.mergeRaw n mask v).run = h.run := by simp only [Hart.mergeRaw, Hart.setRaw]

/-- A write of a CSR stops no hart. -/
theorem csrPut_run (h : Hart) (n v : Nat) : (h.csrPut n v).run = h.run := by
  unfold Hart.csrPut
  dsimp only
  -- the translation registers, those that show bits of another, those of the interrupt files, and the plain ones
  refine run_ite (run_ite (setRaw_run ..) rfl) (run_ite (run_ite (setRaw_run ..) rfl) ?_)
  refine run_ite (mergeRaw_run ..) (run_ite (mergeRaw_run ..) (run_ite (mergeRaw_run ..) (run_ite (mergeRaw_run ..) ?_)))
  refine run_ite (mergeRaw_run ..) (run_ite (mergeRaw_run ..) (run_ite (mergeRaw_run ..) (run_ite ?_ (run_ite ?_ (setRaw_run ..)))))
  · cases h.fileOf (csrLvl (csrAlias h.mode n)) with
    | none => rfl
    | some f => exact imsicWrite_run ..
  · cases h.fileOf (csrLvl (csrAlias h.mode n)) <;> rfl

theorem csrOf_setRaw {h : Hart} (hw : cwf 0 h.csr = true) (n v j : Nat) : csrOf (h.setRaw n v) j = if j = n then v % 2 ^ 64 else csrOf h j :=
  cget_cset hw n _ j

/-! ### Interrupt files -/

theorem topId_eq {h : Hart} {f i : Nat} (hs : fileSignals h f i) : h.topId f = i := by
  obtain ⟨_, hne, ⟨hlt, hp, he⟩, hmin, hthr⟩ := hs
  have hid : (lanesOf 2048 (cget 0 h.eip f &&& cget 0 h.eie f)).headD 0 = i :=
    headD_lanesOf_eq hlt (by rw [Nat.testBit_and, hp, he]; rfl) fun k hk hb => by
      rw [Nat.testBit_and, Bool.and_eq_true] at hb
      exact hmin k ⟨hk, hb.1, hb.2⟩
  unfold Hart.topId
  simp only [hid]
  rw [if_neg]
  simp only [Bool.and_eq_true, bne_iff_ne, decide_eq_true_eq]
  rintro ⟨h0, hle⟩
  obtain h | h := hthr
  · exact h0 h
  · omega

/-- A file signals an identity where it signals, and it is the topmost. -/
theorem fileSignals_of_signals {h : Hart} {f : Nat} (hs : h.signals f = true) : fileSignals h f (h.topId f) := by
  simp only [Hart.signals, Bool.and_eq_true, beq_iff_eq, bne_iff_ne] at hs
  obtain ⟨hdel, hne⟩ := hs
  have htop : h.topId f = (lanesOf 2048 (cget 0 h.eip f &&& cget 0 h.eie f)).headD 0 ∧
      (cget 0 h.ethr f = 0 ∨ h.topId f < cget 0 h.ethr f) := by
    unfold Hart.topId at hne ⊢
    dsimp only at hne ⊢
    split at hne
    · exact absurd rfl hne
    · rename_i hc
      rw [if_neg hc]
      simp only [Bool.and_eq_true, bne_iff_ne, decide_eq_true_eq, not_and, not_le] at hc
      exact ⟨rfl, or_iff_not_imp_left.mpr hc⟩
  obtain ⟨heq, hthr⟩ := htop
  rw [heq] at hne
  obtain ⟨hlt, hb, hmin⟩ := headD_lanesOf_ne_zero hne
  rw [Nat.testBit_and, Bool.and_eq_true] at hb
  rw [← heq] at hne hlt hb hmin
  exact ⟨hdel, hne, ⟨hlt, hb⟩, fun k ⟨hk, hp, he⟩ => hmin k hk (by rw [Nat.testBit_and, hp, he]; rfl), hthr⟩

theorem signals_iff (h : Hart) (f : Nat) : h.signals f = true ↔ ∃ d, fileSignals h f d := by
  refine ⟨fun hs => ⟨_, fileSignals_of_signals hs⟩, fun ⟨d, hs⟩ => ?_⟩
  have htop := topId_eq hs
  obtain ⟨hdel, hne, _⟩ := hs
  simp [Hart.signals, hdel, htop, hne]

/-- The guest files that signal (R424). -/
theorem testBit_geip (h : Hart) (i : Nat) : h.geip.testBit i = true ↔ 1 ≤ i ∧ i ≤ 15 ∧ ∃ d, fileSignals h i d := by
  rw [Hart.geip, testBit_maskOf, decide_eq_true_eq, List.mem_filter, signals_iff, ← and_assoc]
  refine and_congr_left fun _ => ?_
  simp only [upto, List.mem_map, List.mem_range]
  exact ⟨fun ⟨j, hj, hji⟩ => by omega, fun hi => ⟨i - 1, by omega⟩⟩

theorem testBit_ite_two_pow (c : Prop) [Decidable c] (k i : Nat) : (if c then 2 ^ k else 0).testBit i = (decide (i = k) && decide c) := by
  by_cases hc : c
  · simp [hc, Nat.testBit_two_pow, eq_comm]
  · simp [hc]

/-- The interrupts that are pending: those of software, the external ones of the files, and the timer. -/
theorem testBit_mip (h : Hart) (now i : Nat) : (h.mip now).testBit i = true ↔ (csrOf h 0x344).testBit i = true ∨ (i = 11 ∧ h.signals 16 = true) ∨
    (i = 9 ∧ h.signals 0 = true) ∨ (i = 10 ∧ (h.vgein.any fun n => h.signals n) = true) ∨ (i = 12 ∧ h.geip &&& csrOf h 0x607 ≠ 0) ∨
    (i = 5 ∧ h.flag 0x30A 63 = true ∧ csrOf h 0x14D ≤ now) := by
  simp only [Hart.mip, Nat.testBit_or, testBit_ite_two_pow, Bool.or_eq_true, Bool.and_eq_true, decide_eq_true_eq, bne_iff_ne, or_assoc]
  rfl

theorem and_ne_zero_iff (x y : Nat) : x &&& y ≠ 0 ↔ ∃ i, x.testBit i = true ∧ y.testBit i = true := by
  refine ⟨fun h => ?_, fun ⟨i, hx, hy⟩ h => ?_⟩
  · obtain ⟨i, hi⟩ := Nat.exists_testBit_of_ne_zero h
    exact ⟨i, by simpa [Nat.testBit_and] using hi⟩
  · have := congrArg (·.testBit i) h
    simp [Nat.testBit_and, hx, hy] at this

/-- The external interrupts of M-mode, of S-mode and of the guests. -/
theorem testBit_mip_external (h : Hart) (now : Nat) :
    ((h.mip now).testBit 11 = true ↔ (csrOf h 0x344).testBit 11 = true ∨ ∃ d, fileSignals h 16 d) ∧
    ((h.mip now).testBit 9 = true ↔ (csrOf h 0x344).testBit 9 = true ∨ ∃ d, fileSignals h 0 d) ∧
    ((h.mip now).testBit 12 = true ↔ (csrOf h 0x344).testBit 12 = true ∨ ∃ i d, 1 ≤ i ∧ i ≤ 15 ∧ (csrOf h 0x607).testBit i = true ∧ fileSignals h i d) := by
  simp only [testBit_mip, signals_iff, and_ne_zero_iff, testBit_geip]
  refine ⟨by simp, by simp, ?_⟩
  simp only [Nat.reduceEqDiff, false_and, true_and, false_or, or_false]
  refine or_congr_right (exists_congr fun i => ?_)
  constructor
  · rintro ⟨⟨h1, h2, d, hd⟩, h3⟩
    exact ⟨d, h1, h2, h3, hd⟩
  · rintro ⟨d, h1, h2, h3, hd⟩
    exact ⟨⟨h1, h2, d, hd⟩, h3⟩

/-! ### The CSRs of a kind of their own -/

section
variable {h : Hart} {now v : Nat}

theorem csrVal_time : h.csrVal now 0xC01 = (now + if guestMode h.mode then csrOf h 0x605 else 0) % 2 ^ 64 := by
  rw [Hart.csrVal, csrAlias_eq (fun _ _ => by decide)]
  simp only [beq_self_eq_true, if_true, modeV_iff]
  rfl

theorem csrVal_geip : h.csrVal now 0xE12 = h.geip := by
  rw [Hart.csrVal, csrAlias_eq (fun _ _ => by decide)]
  rfl

theorem csrVal_mip : h.csrVal now 0x344 = h.mip now := by
  rw [Hart.csrVal, csrAlias_eq (fun _ _ => by decide)]
  rfl

theorem csrVal_sip (hm : h.mode ≠ .vs) : h.csrVal now 0x144 = h.mip now &&& csrOf h 0x303 := by
  rw [Hart.csrVal, csrAlias_eq (fun hv => absurd hv hm)]
  rfl

theorem testBit_sstatusMask : ∀ i < 64, sstatusMask.testBit i = decide (i ∈ [1, 5, 6, 8, 9, 10, 13, 14, 15, 16, 18, 19, 32, 33, 63]) := by decide

theorem testBit_csrVal_sstatus (hm : h.mode ≠ .vs) {i : Nat} (hi : i < 64) : (h.csrVal now 0x100).testBit i = true ↔
    (csrOf h 0x300).testBit i = true ∧ i ∈ [1, 5, 6, 8, 9, 10, 13, 14, 15, 16, 18, 19, 32, 33, 63] := by
  have hval : h.csrVal now 0x100 = csrOf h 0x300 &&& sstatusMask := by
    rw [Hart.csrVal, csrAlias_eq (fun hv => absurd hv hm)]
    rfl
  rw [hval, Nat.testBit_and, testBit_sstatusMask i hi, Bool.and_eq_true, decide_eq_true_eq]

/-- The external-interrupt register of S-mode: the topmost identity of its file. -/
theorem csrVal_stopei (hm : h.mode = .s) : h.csrVal now 0x15C = h.topId 0 * 65537 := by
  rw [Hart.csrVal, csrAlias_eq (by simp [hm])]
  rfl

theorem csrPut_stopei (hm : h.mode = .s) : h.csrPut 0x15C v = { h with eip := cset 0 h.eip 0 (setBit (cget 0 h.eip 0) (h.topId 0) false) } := by
  rw [Hart.csrPut, csrAlias_eq (by simp [hm])]
  rfl

/-- The first word of the enables of S-mode's file; identity 0 does not exist. -/
theorem csrPut_sireg_eie (hm : h.mode = .s) (hsel : csrOf h 0x150 = 0xC0) : h.csrPut 0x151 v =
    { h with eie := cset 0 h.eie 0 (setField (cget 0 h.eie 0) 0 64 v / 2 * 2) } := by
  have hsel' : h.raw 0x150 = 0xC0 := hsel
  rw [Hart.csrPut, csrAlias_eq (by simp [hm])]
  simp only [Nat.reduceBEq, Bool.false_eq_true, Bool.or_false, Bool.or_true, if_false, if_true]
  rw [show h.fileOf (csrLvl 0x151) = some 0 from rfl]
  simp [Hart.imsicWrite, hsel']

theorem testBit_div_two_mul_two (x i : Nat) : (x / 2 * 2).testBit i = (x.testBit i && i != 0) := by
  cases i with
  | zero => simp
  | succ i => simp [Nat.testBit_succ]

/-- The register of a first stage keeps its value when it is written with a mode that the hart does not have. -/
theorem csrPut_atp {n k : Nat} (ha : csrAlias h.mode n = k) (hk : k = 0x180 ∨ k = 0x280) :
    h.csrPut n v = if v / 2 ^ 60 ∈ [0, 8, 9, 10] then h.setRaw k v else h := by
  rw [Hart.csrPut, ha]
  obtain rfl | rfl := hk <;> simp [atpMode, -Nat.reducePow]

theorem csrPut_hgatp : h.csrPut 0x680 v = if v / 2 ^ 60 ∈ [0, 8, 9, 10] then
    h.setRaw 0x680 (v / 2 ^ 60 * 2 ^ 60 + v / 2 ^ 44 % 1024 * 2 ^ 44 + v % 2 ^ 44 / 4 * 4) else h := by
  rw [Hart.csrPut, csrAlias_eq (fun _ _ => by decide)]
  simp [atpMode, -Nat.reducePow]

end

/-! ### Accesses of CSRs -/

section
variable {s : State} {a : HartAcc} {pid : Nat} {p : Part} (hruns : hartRuns s a pid p) {n : Nat}
include hruns

theorem hartGets_csrRead (hop : a.op = .csrRead n) (ho : csrOpen (s.hart a).mode n false) {k : Hart → Prop}
    (hk : k { s.hart a with val := (s.hart a).csrVal s.now n, cause := none }) : HartGets a s s k := by
  refine hartGets_own hruns (f := fun h => { h with val := h.csrVal s.now n }) ?_ (run_of_hartRuns hruns) hk
  simp only [State.hartOwn, hop, State.hartCsr, csrBars_of_open ho]

theorem hartGets_csrWrite (hop : a.op = .csrWrite n) (ho : csrOpen (s.hart a).mode n true) {k : Hart → Prop}
    (hk : k { (s.hart a).csrPut n (a.data % 2 ^ 64) with val := (s.hart a).csrVal s.now n, cause := none }) : HartGets a s s k := by
  refine hartGets_own hruns (f := fun h => { h.csrPut n (a.data % 2 ^ 64) with val := h.csrVal s.now n }) ?_
    ((csrPut_run ..).trans (run_of_hartRuns hruns)) hk
  simp only [State.hartOwn, hop, State.hartCsr, csrBars_of_open ho]

/-- A write that stores one CSR. -/
theorem hartGets_csrSets (hop : a.op = .csrWrite n) (ho : csrOpen (s.hart a).mode n true) (hcsr : cwf 0 (s.hart a).csr = true) {m w : Nat}
    (hput : (s.hart a).csrPut n (a.data % 2 ^ 64) = (s.hart a).setRaw m w) : HartGets a s s fun h =>
      h.val = (s.hart a).csrVal s.now n ∧ csrOf h m = w % 2 ^ 64 ∧ ∀ j, j ≠ m → csrOf h j = csrOf (s.hart a) j := by
  refine hartGets_csrWrite hruns hop ho ⟨rfl, ?_⟩
  rw [hput]
  refine ⟨(csrOf_setRaw hcsr ..).trans (if_pos rfl), fun j hj => (csrOf_setRaw hcsr ..).trans (if_neg hj)⟩

/-- A write that stores none. -/
theorem hartGets_csrKeeps (hop : a.op = .csrWrite n) (ho : csrOpen (s.hart a).mode n true)
    (hput : (s.hart a).csrPut n (a.data % 2 ^ 64) = s.hart a) : HartGets a s s fun h => h.csr = (s.hart a).csr := by
  refine hartGets_csrWrite hruns hop ho ?_
  rw [hput]

/-- A CSR's plain write. -/
theorem hartGets_csrWrite_plain (hop : a.op = .csrWrite n) (ho : csrOpen (s.hart a).mode n true) (hcsr : cwf 0 (s.hart a).csr = true) {m : Nat}
    (ha : csrAlias (s.hart a).mode n = m) (hm : m ∉ csrSpecial) : HartGets a s s fun h =>
      h.val = csrOf (s.hart a) m ∧ csrOf h m = a.data % 2 ^ 64 ∧ ∀ j, j ≠ m → csrOf h j = csrOf (s.hart a) j := by
  refine (hartGets_csrSets hruns hop ho hcsr (csrPut_plain ha hm)).mono fun h ⟨h1, h2, h3⟩ => ?_
  exact ⟨h1.trans (csrVal_plain ha hm), h2.trans (Nat.mod_mod ..), h3⟩

theorem hartGets_csrWrite_atp (hop : a.op = .csrWrite n) (ho : csrOpen (s.hart a).mode n true) (hcsr : cwf 0 (s.hart a).csr = true) {m : Nat}
    (ha : csrAlias (s.hart a).mode n = m) (hm : m = 0x180 ∨ m = 0x280) : HartGets a s s fun h =>
      csrOf h m = (if a.data % 2 ^ 64 / 2 ^ 60 ∈ [0, 8, 9, 10] then a.data % 2 ^ 64 else csrOf (s.hart a) m) ∧
      ∀ j, j ≠ m → csrOf h j = csrOf (s.hart a) j := by
  have hput := csrPut_atp (v := a.data % 2 ^ 64) ha hm
  by_cases hmd : a.data % 2 ^ 64 / 2 ^ 60 ∈ [0, 8, 9, 10]
  · rw [if_pos hmd] at hput
    exact (hartGets_csrSets hruns hop ho hcsr hput).mono fun h ⟨_, h2, h3⟩ => ⟨h2.trans (by rw [Nat.mod_mod, if_pos hmd]), h3⟩
  · rw [if_neg hmd] at hput
    exact (hartGets_csrKeeps hruns hop ho hput).mono fun h hc => ⟨by rw [if_neg hmd, csrOf, hc, csrOf], fun j _ => by rw [csrOf, hc, csrOf]⟩

theorem hartGets_csrWrite_hgatp (hop : a.op = .csrWrite 0x680) (ho : csrOpen (s.hart a).mode 0x680 true) (hcsr : cwf 0 (s.hart a).csr = true) :
    HartGets a s s fun h => (∀ j, j ≠ 0x680 → csrOf h j = csrOf (s.hart a) j) ∧
      (a.data % 2 ^ 64 / 2 ^ 60 ∉ [0, 8, 9, 10] → h.csr = (s.hart a).csr) ∧
      (a.data % 2 ^ 64 / 2 ^ 60 ∈ [0, 8, 9, 10] → csrOf h 0x680 / 2 ^ 60 = a.data % 2 ^ 64 / 2 ^ 60 ∧
        csrOf h 0x680 / 2 ^ 44 % 2 ^ 16 = a.data / 2 ^ 44 % 2 ^ 10 ∧ csrOf h 0x680 % 2 ^ 44 = a.data % 2 ^ 44 / 4 * 4) := by
  have hput := csrPut_hgatp (h := s.hart a) (v := a.data % 2 ^ 64)
  by_cases hmd : a.data % 2 ^ 64 / 2 ^ 60 ∈ [0, 8, 9, 10]
  · rw [if_pos hmd] at hput
    refine (hartGets_csrSets hruns hop ho hcsr hput).mono fun h ⟨_, h2, h3⟩ => ⟨h3, fun hno => absurd hmd hno, fun _ => ?_⟩
    rw [h2]
    clear hput hmd h2
    omega
  · rw [if_neg hmd] at hput
    exact (hartGets_csrKeeps hruns hop ho hput).mono fun h hc => ⟨fun j _ => by rw [csrOf, hc, csrOf], fun _ => hc, fun h => absurd h hmd⟩

/-- sip and mip show the external interrupts. -/
theorem hartGets_csrRead_ip (hop : a.op = .csrRead n) (ho : csrOpen (s.hart a).mode n false) (hn : n = 0x144 ∨ n = 0x344) (hm : (s.hart a).mode ≠ .vs) :
    HartGets a s s fun h =>
      (h.val.testBit 9 ↔ (n = 0x144 → (csrOf (s.hart a) 0x303).testBit 9) ∧ ((csrOf (s.hart a) 0x344).testBit 9 ∨ ∃ d, fileSignals (s.hart a) 0 d)) ∧
      (h.val.testBit 12 ↔ (n = 0x144 → (csrOf (s.hart a) 0x303).testBit 12) ∧
        ((csrOf (s.hart a) 0x344).testBit 12 ∨ ∃ i d, 1 ≤ i ∧ i ≤ 15 ∧ (csrOf (s.hart a) 0x607).testBit i ∧ fileSignals (s.hart a) i d)) ∧
      (n = 0x344 → (h.val.testBit 11 ↔ ((csrOf (s.hart a) 0x344).testBit 11 ∨ ∃ d, fileSignals (s.hart a) 16 d))) := by
  obtain ⟨h11, h9, h12⟩ := testBit_mip_external (s.hart a) s.now
  refine hartGets_csrRead hruns hop ho ?_
  dsimp only
  obtain rfl | rfl := hn
  · rw [csrVal_sip hm, Nat.testBit_and, Nat.testBit_and, Bool.and_eq_true, Bool.and_eq_true, h9, h12]
    exact ⟨and_comm.trans (and_congr_left' (by simp)), and_comm.trans (and_congr_left' (by simp)), fun h => absurd h (by decide)⟩
  · rw [csrVal_mip]
    exact ⟨h9.trans (by simp), h12.trans (by simp), fun _ => h11⟩

/-- The topmost identity is claimed. -/
theorem hartGets_csrWrite_stopei (hop : a.op = .csrWrite 0x15C) (ho : csrOpen (s.hart a).mode 0x15C true) (heip : cwf 0 (s.hart a).eip = true)
    (hm : (s.hart a).mode = .s) {d : Nat} (hd : fileSignals (s.hart a) 0 d) :
    HartGets a s s fun h => ∀ i, (cget 0 h.eip 0).testBit i = ((cget 0 (s.hart a).eip 0).testBit i && i != d) := by
  refine hartGets_csrWrite hruns hop ho fun i => ?_
  rw [csrPut_stopei hm, topId_eq hd]
  exact (congrArg (·.testBit i) (cget_cset_same 0 _ heip)).trans (testBit_setBit_false ..)

theorem hartGets_csrWrite_sireg (hop : a.op = .csrWrite 0x151) (ho : csrOpen (s.hart a).mode 0x151 true) (heie : cwf 0 (s.hart a).eie = true)
    (hm : (s.hart a).mode = .s) (hsel : csrOf (s.hart a) 0x150 = 0xC0) :
    HartGets a s s fun h => ∀ i, i < 64 → (cget 0 h.eie 0).testBit i = (a.data.testBit i && i != 0) := by
  refine hartGets_csrWrite hruns hop ho fun i hi => ?_
  rw [csrPut_sireg_eie hm hsel]
  refine (congrArg (·.testBit i) (cget_cset_same 0 _ heie)).trans ?_
  simp only [testBit_div_two_mul_two, testBit_setField]
  rw [if_pos (by omega), Nat.sub_zero, testBit_word hi]

theorem hartTraps_csr {w : Bool} (hop : a.op = if w then .csrWrite n else .csrRead n) (ho : ¬csrOpen (s.hart a).mode n w) : HartTraps a s s
    (if guestMode (s.hart a).mode ∧ n < 4096 ∧ (w = true → n / 1024 ≠ 3) ∧ n / 256 % 4 ≠ 3 then 22 else 2) 0 0 := by
  refine hartTraps_own hruns ?_ (by split <;> decide)
  cases w <;> simp only [State.hartOwn, hop, if_true, Bool.false_eq_true, if_false, State.hartCsr, csrBars_of_not_open ho]

end
end Sys2Proof.Claims
end

section
/-!
SUPPORT. Returns of a host hart and its interrupts (R421, R423).
-/
namespace Sys2Proof.Claims
open Sys2Proof.Machine

/-! ### Returns -/

/-- The M-mode status after `mret` to privilege p. -/
def mReturn (st p : Nat) : Nat :=
  let r := setField (setField (setField (setField st 3 1 (st / 2 ^ 7)) 7 1 1) 11 2 0) 39 1 0
  if p == 3 then r else setField r 17 1 0

theorem testBit_mReturn (st p i : Nat) : (mReturn st p).testBit i = if i = 3 then st.testBit 7 else if i = 7 then true else if i = 11 then false
    else if i = 12 then false else if i = 39 then false else if i = 17 then p == 3 && st.testBit 17 else st.testBit i := by
  have hback : (setField (setField (setField (setField st 3 1 (st / 2 ^ 7)) 7 1 1) 11 2 0) 39 1 0).testBit i = if i = 3 then st.testBit 7
      else if i = 7 then true else if i = 11 then false else if i = 12 then false else if i = 39 then false else st.testBit i := by
    simp only [testBit_setField]
    have h7 : (st / 2 ^ 7).testBit 0 = st.testBit 7 := by rw [Nat.testBit_div_two_pow]
    by_cases h39 : i = 39
    · simp [h39]
    by_cases h11 : i = 11
    · simp [h11]
    by_cases h12 : i = 12
    · simp [h12]
    by_cases hi7 : i = 7
    · simp [hi7]
    by_cases h3 : i = 3
    · subst h3
      simpa using h7
    rw [if_neg (by omega), if_neg (by omega), if_neg (by omega), if_neg (by omega)]
    simp only [h39, h11, h12, hi7, h3, if_false]
  unfold mReturn
  dsimp only
  by_cases hp : p = 3
  · rw [hp, beq_self_eq_true, if_pos rfl, hback, Bool.true_and]
    by_cases h17 : i = 17
    · simp [h17]
    · simp only [h17, if_false]
  · rw [beq_false_of_ne hp, if_neg Bool.false_ne_true, testBit_setField, hback, Bool.false_and]
    by_cases h17 : i = 17
    · simp [h17]
    · rw [if_neg (by omega)]
      simp only [h17, if_false]

/-- The status of S-mode or VS-mode after `sret`. -/
def sReturn (st : Nat) : Nat := setField (setField (setField st 1 1 (st / 2 ^ 5)) 5 1 1) 8 1 0

theorem testBit_sReturn (st i : Nat) : (sReturn st).testBit i =
    if i = 1 then st.testBit 5 else if i = 5 then true else if i = 8 then false else st.testBit i := by
  unfold sReturn
  simp only [testBit_setField]
  have h5 : (st / 2 ^ 5).testBit 0 = st.testBit 5 := by rw [Nat.testBit_div_two_pow]
  by_cases h8 : i = 8
  · simp [h8]
  by_cases hi5 : i = 5
  · simp [hi5]
  by_cases h1 : i = 1
  · subst h1
    simpa using h5
  rw [if_neg (by omega), if_neg (by omega), if_neg (by omega)]
  simp only [h8, hi5, h1, if_false]

theorem mret_eq (o : Hart) : o.mret = { o with
    mode := modeOf (bits (csrOf o 0x300) 12 11) ((csrOf o 0x300).testBit 39 && bits (csrOf o 0x300) 12 11 != 3), pc := csrOf o 0x341, cause := none
    csr := cset 0 o.csr 0x300 (mReturn (csrOf o 0x300) (bits (csrOf o 0x300) 12 11) % 2 ^ 64) } := by
  rw [← bit_eq_testBit]
  rfl

theorem sret_vs {o : Hart} (hm : o.mode = .vs) : o.sret = { o with
    mode := modeOf (bits (csrOf o 0x200) 8 8) true, pc := csrOf o 0x241, cause := none
    csr := cset 0 o.csr 0x200 (sReturn (csrOf o 0x200) % 2 ^ 64) } := by
  unfold Hart.sret
  dsimp only
  rw [if_pos (by rw [hm]; rfl)]
  rfl

theorem sret_s {o : Hart} (hw : cwf 0 o.csr = true) (hm : o.mode ≠ .vs) : o.sret = { o with
    mode := modeOf (bits (csrOf o 0x300) 8 8) ((csrOf o 0x600).testBit 7), pc := csrOf o 0x141, cause := none
    csr := cset 0 (cset 0 o.csr 0x300 (sReturn (csrOf o 0x300) % 2 ^ 64)) 0x600 (setField (csrOf o 0x600) 7 1 0 % 2 ^ 64) } := by
  unfold Hart.sret
  dsimp only
  rw [if_neg (by simpa using hm), flag_eq]
  simp only [Hart.setFieldOf, Hart.setRaw, Hart.raw, cget_cset hw]
  rfl

/-- The status that a return leaves: the interrupt enable of before the trap. -/
theorem back_of_sReturn {o h : Hart} {r : Nat} (he : csrOf h r = sReturn (csrOf o r) % 2 ^ 64) : (csrOf h r).testBit 1 = (csrOf o r).testBit 5 ∧
    (csrOf h r).testBit 5 = true ∧ (csrOf h r).testBit 8 = false ∧ bitsKept (csrOf o r) (csrOf h r) [1, 5, 8] := by
  have hst (i : Nat) (hi : i < 64) : (csrOf h r).testBit i = (sReturn (csrOf o r)).testBit i := by
    rw [he]; exact testBit_word hi _
  simp only [testBit_sReturn] at hst
  refine ⟨hst 1 (by decide), hst 5 (by decide), hst 8 (by decide), fun i hi hl => ?_⟩
  simp only [List.mem_cons, List.not_mem_nil, or_false, not_or] at hl
  rw [hst i hi]
  simp only [hl, if_false]

section
variable {o : Hart} (hw : cwf 0 o.csr = true)
include hw

/-- `mret` (R423). -/
theorem mret_returns : let p := csrOf o 0x300 / 2 ^ 11 % 4
    o.mret = { o with mode := o.mret.mode, pc := csrOf o 0x341, csr := o.mret.csr, cause := none } ∧ (p = 3 → o.mret.mode = .m) ∧
      (p ≠ 3 → prvOf o.mret.mode = (if p = 1 then 1 else 0) ∧ o.mret.mode ≠ .m ∧ (guestMode o.mret.mode ↔ (csrOf o 0x300).testBit 39) ∧ (csrOf o.mret 0x300).testBit 17 = false) ∧
      (csrOf o.mret 0x300).testBit 3 = (csrOf o 0x300).testBit 7 ∧ (csrOf o.mret 0x300).testBit 7 ∧ csrOf o.mret 0x300 / 2 ^ 11 % 4 = 0 ∧
      (csrOf o.mret 0x300).testBit 39 = false ∧ bitsKept (csrOf o 0x300) (csrOf o.mret 0x300) [3, 7, 11, 12, 17, 39] ∧
      ∀ n, n ≠ 0x300 → csrOf o.mret n = csrOf o n := by
  intro p
  have hp : bits (csrOf o 0x300) 12 11 = p := rfl
  have heq := mret_eq o
  have hmode : o.mret.mode = modeOf p ((csrOf o 0x300).testBit 39 && p != 3) := congrArg Hart.mode heq
  have hcsr : o.mret.csr = cset 0 o.csr 0x300 (mReturn (csrOf o 0x300) p % 2 ^ 64) := congrArg Hart.csr heq
  have hst (i : Nat) (hi : i < 64) : (csrOf o.mret 0x300).testBit i = (mReturn (csrOf o 0x300) p).testBit i := by
    rw [csrOf, hcsr, cget_cset_same _ _ hw]
    exact testBit_word hi _
  simp only [testBit_mReturn] at hst
  refine ⟨?_, fun h3 => by rw [hmode, h3]; rfl, fun h3 => ?_, hst 3 (by decide), hst 7 (by decide), ?_, hst 39 (by decide), ?_, ?_⟩
  · rw [hmode, hcsr]; exact heq
  · rw [hmode, prvOf_modeOf, guestMode_modeOf, if_neg h3]
    refine ⟨rfl, fun h => ?_, by simp [h3], ?_⟩
    · have := congrArg prvOf h
      rw [prvOf_modeOf, if_neg h3] at this
      split at this <;> exact absurd this (by decide)
    · rw [hst 17 (by decide), beq_false_of_ne h3]
      rfl
  · refine field_eq (n := 2) (by decide) fun k hk => ?_
    interval_cases k
    · exact hst 11 (by decide)
    · exact hst 12 (by decide)
  · intro i hi hl
    simp only [List.mem_cons, List.not_mem_nil, or_false, not_or] at hl
    rw [hst i hi]
    simp only [hl, if_false]
  · intro n hn
    rw [csrOf, hcsr, cget_cset_other _ hw hn, csrOf]

/-- `sret` of VS-mode. -/
theorem sret_vs_returns (hm : o.mode = .vs) : o.sret = { o with mode := o.sret.mode, pc := csrOf o 0x241, csr := o.sret.csr, cause := none } ∧
    o.sret.mode = (if (csrOf o 0x200).testBit 8 then .vs else .vu) ∧ csrOf o.sret 0x200 = sReturn (csrOf o 0x200) % 2 ^ 64 ∧
    ∀ n, n ≠ 0x200 → csrOf o.sret n = csrOf o n := by
  have heq := sret_vs hm
  have hmode : o.sret.mode = modeOf (bits (csrOf o 0x200) 8 8) true := congrArg Hart.mode heq
  have hcsr : o.sret.csr = cset 0 o.csr 0x200 (sReturn (csrOf o 0x200) % 2 ^ 64) := congrArg Hart.csr heq
  refine ⟨?_, ?_, ?_, fun n hn => ?_⟩
  · rw [hmode, hcsr]; exact heq
  · rw [hmode]
    by_cases h8 : (csrOf o 0x200).testBit 8 = true
    · rw [if_pos h8, (bits_one _ _).mpr h8]; rfl
    · rw [if_neg h8]
      simp [modeOf, bits_ne_three, mt (bits_one _ _).mp h8]
  · rw [csrOf, hcsr, cget_cset_same _ _ hw]
  · rw [csrOf, hcsr, cget_cset_other _ hw hn, csrOf]

/-- `sret` of S-mode and above. -/
theorem sret_s_returns (hm : o.mode = .m ∨ o.mode = .s) : o.sret = { o with mode := o.sret.mode, pc := csrOf o 0x141, csr := o.sret.csr, cause := none } ∧
    o.sret.mode ≠ .m ∧ (prvOf o.sret.mode = 1 ↔ (csrOf o 0x300).testBit 8) ∧ (guestMode o.sret.mode ↔ (csrOf o 0x600).testBit 7) ∧
    csrOf o.sret 0x300 = sReturn (csrOf o 0x300) % 2 ^ 64 ∧ (csrOf o.sret 0x600).testBit 7 = false ∧ bitsKept (csrOf o 0x600) (csrOf o.sret 0x600) [7] ∧
    ∀ n, n ≠ 0x300 → n ≠ 0x600 → csrOf o.sret n = csrOf o n := by
  have heq := sret_s hw (o := o) (by obtain h | h := hm <;> rw [h] <;> decide)
  have hmode : o.sret.mode = modeOf (bits (csrOf o 0x300) 8 8) ((csrOf o 0x600).testBit 7) := congrArg Hart.mode heq
  have hcsr : o.sret.csr = cset 0 (cset 0 o.csr 0x300 (sReturn (csrOf o 0x300) % 2 ^ 64)) 0x600 (setField (csrOf o 0x600) 7 1 0 % 2 ^ 64) :=
    congrArg Hart.csr heq
  have hget (n : Nat) : csrOf o.sret n = if n = 0x600 then setField (csrOf o 0x600) 7 1 0 % 2 ^ 64
      else if n = 0x300 then sReturn (csrOf o 0x300) % 2 ^ 64 else csrOf o n := by
    rw [csrOf, hcsr, cget_cset (cset_wf _ _ hw), cget_cset hw]
    rfl
  have hst (i : Nat) (hi : i < 64) : (csrOf o.sret 0x600).testBit i = (setField (csrOf o 0x600) 7 1 0).testBit i := by
    rw [hget, if_pos rfl]
    exact testBit_word hi _
  simp only [testBit_setField] at hst
  refine ⟨?_, fun h => ?_, ?_, ?_, ?_, hst 7 (by decide), fun i hi hl => ?_, fun n h3 h6 => ?_⟩
  · rw [hmode, hcsr]; exact heq
  · have := congrArg prvOf h
    rw [hmode, prvOf_modeOf, if_neg (bits_ne_three _ _)] at this
    split at this <;> exact absurd this (by decide)
  · rw [hmode]; exact prvOf_modeOf_bit ..
  · rw [hmode, guestMode_modeOf]
    exact and_iff_right (bits_ne_three _ _)
  · rw [hget]
    simp only [Nat.reduceEqDiff, if_true, if_false]
  · rw [hst i hi, if_neg]
    simp only [List.mem_cons, List.not_mem_nil, or_false] at hl
    omega
  · rw [hget, if_neg h6, if_neg h3]

end

/-! ### Interrupts -/

/-- An interrupt that is taken where it is pending and enabled: of a mode above the hart's own, or enabled in it. -/
def intrDue (h : Hart) (c : Nat) : Bool :=
  if !h.flag 0x303 c then h.mode != .m || h.flag 0x300 3
  else if h.mode == .m then false
  else if !h.flag 0x603 c then modeV h.mode || h.mode == .u || h.flag 0x300 1
  else h.mode == .vu || (h.mode == .vs && h.flag 0x200 1)

theorem nextIntr_eq (h : Hart) (now : Nat) : h.nextIntr now = intrOrder.find? fun c => bit (h.mip now &&& h.raw 0x304) c && intrDue h c := rfl

theorem intrDue_iff (h : Hart) (c : Nat) : intrDue h c = true ↔
    ((csrOf h 0x303).testBit c = false → h.mode ≠ .m ∨ (csrOf h 0x300).testBit 3 = true) ∧ ((csrOf h 0x303).testBit c = true → h.mode ≠ .m ∧
      ((csrOf h 0x603).testBit c = false → h.mode = .s → (csrOf h 0x300).testBit 1 = true) ∧
      ((csrOf h 0x603).testBit c = true → guestMode h.mode ∧ (h.mode = .vs → (csrOf h 0x200).testBit 1 = true))) := by
  unfold intrDue
  simp only [flag_eq]
  cases (csrOf h 0x303).testBit c with
  | false => simp
  | true =>
    cases (csrOf h 0x603).testBit c <;> cases h.mode <;> simp [modeV, guestMode]

theorem intr_of_nextIntr {h : Hart} {now c : Nat} (hn : h.nextIntr now = some c) :
    (h.mip now).testBit c = true ∧ (csrOf h 0x304).testBit c = true ∧ intrDue h c = true := by
  have := List.find?_some (nextIntr_eq h now ▸ hn)
  rw [Bool.and_eq_true, bit_eq_testBit, Nat.testBit_and, Bool.and_eq_true, and_assoc] at this
  exact this

theorem not_intrDue_of_nextIntr {h : Hart} {now c : Nat} (hn : h.nextIntr now = none) (hc : c ∈ intrOrder) (hp : (h.mip now).testBit c = true)
    (he : (csrOf h 0x304).testBit c = true) : ¬intrDue h c = true := by
  have := List.find?_eq_none.mp (nextIntr_eq h now ▸ hn) c hc
  rw [Bool.and_eq_true, bit_eq_testBit, Nat.testBit_and, Bool.and_eq_true] at this
  exact fun hd => this ⟨⟨hp, he⟩, hd⟩

theorem nextIntr_lt {h : Hart} {now c : Nat} (hn : h.nextIntr now = some c) : c < 64 :=
  (by decide : ∀ c ∈ intrOrder, c < 64) c (List.mem_of_find?_eq_some (nextIntr_eq h now ▸ hn))

theorem callCause_eq (md : HMode) : callCause md = if prvOf md = 0 then 8 else if md = .s then 9 else if md = .vs then 10 else 11 := by
  cases md <;> rfl

end Sys2Proof.Claims
end

section
/-!
SUPPORT. What a host hart does outside itself: other harts (R381), the devices of its slice (R340, R376), counter pages (R401) and queues; reservations
(R142) and messages to interrupt files (R376, R424).
-/
namespace Sys2Proof.Claims
open Sys2Proof.Machine

/-! ### Slices -/

theorem slice_modSlice_other (s : State) {k j : Nat} (f : Slice → Slice) (h : j ≠ k) : (s.modSlice k f).slice j = s.slice j := by
  simp only [State.slice, State.modSlice_slices, tget_tmod, h, if_false]

theorem slice_modSlice_same {s : State} {k : Nat} (f : Slice → Slice) (h : (tget s.slices k).isSome = true) :
    (s.modSlice k f).slice k = f (s.slice k) := by
  obtain ⟨x, hx⟩ := Option.isSome_iff_exists.mp h
  simp only [State.slice, State.modSlice_slices, tget_tmod, if_true, hx, Option.map_some, Option.getD_some]

/-! ### The interrupt controller -/

/-- Nothing is sent where interrupts are off or none is pending. -/
theorem aplicSend_idle {s : State} {slice src : Nat} (h : (s.slice slice).aplic.ie = false ∨ (s.slice slice).aplic.pend = 0) : s.aplicSend slice src = s := by
  unfold State.aplicSend
  dsimp only
  rw [if_pos]
  obtain h | h := h <;> simp [h, bit]

theorem aplicSend_fold_idle {s : State} {slice : Nat} (h : (s.slice slice).aplic.ie = false ∨ (s.slice slice).aplic.pend = 0) :
    ∀ l : List Nat, l.foldl (fun s i => s.aplicSend slice (i + 1)) s = s
  | [] => rfl
  | i :: l => by rw [List.foldl_cons, aplicSend_idle h, aplicSend_fold_idle h l]

/-- A write of a register that leaves nothing to send. -/
theorem aplicWrite_idle {s : State} {slice off v : Nat} (hs : (tget s.slices slice).isSome = true) (ho : off ≠ 0x3000)
    (h : ((s.slice slice).aplic.write off v).ie = false ∨ ((s.slice slice).aplic.write off v).pend = 0) :
    s.aplicWrite slice off v = s.modSlice slice fun x => { x with aplic := x.aplic.write off v } := by
  unfold State.aplicWrite
  dsimp only
  rw [if_neg (by simpa using ho)]
  refine aplicSend_fold_idle ?_ _
  rw [slice_modSlice_same _ hs]
  exact h

/-- The sources that are not inactive. -/
theorem testBit_live (x : Aplic) {n : Nat} (h1 : 1 ≤ n) (h2 : n < 32) :
    (maskOf ((upto 31).filterMap fun i => if cget 0 x.cfg (i + 1) % 8 != 0 then some (i + 1) else none)).testBit n = decide (cget 0 x.cfg n % 8 ≠ 0) := by
  rw [testBit_maskOf, Bool.eq_iff_iff, decide_eq_true_eq, decide_eq_true_eq]
  simp only [upto, List.mem_filterMap, List.mem_range, Option.ite_none_right_eq_some, bne_iff_ne, Option.some.injEq]
  constructor
  · rintro ⟨i, _, hi, rfl⟩
    exact hi
  · intro hn
    exact ⟨n - 1, by omega, by rwa [Nat.sub_add_cancel h1], Nat.sub_add_cancel h1⟩

section
variable {x : Aplic} {n v : Nat}

theorem aplicWrite_cfg (h1 : 1 ≤ n) (h2 : n < 32) (hv : v % 8 ≠ 0) : x.write (4 * n) v = { x with cfg := cset 0 x.cfg n (v % 8) } := by
  have h3 : 4 * n < 128 := by omega
  have h4 : 4 * n / 4 = n := by omega
  simp [Aplic.write, h3, h4, hv, show n ≠ 0 by omega]

theorem aplicWrite_tgt (h1 : 1 ≤ n) (h2 : n < 32) : x.write (0x3000 + 4 * n) v = { x with tgt := cset 0 x.tgt n (v % 2 ^ 32) } := by
  have hne (k : Nat) (hk : k < 0x3000) : (0x3000 + 4 * n == k) = false := beq_false_of_ne (by omega)
  have hlt : decide (0x3000 + 4 * n < 0x80) = false := decide_eq_false (by omega)
  have htgt : (decide (0x3004 ≤ 0x3000 + 4 * n) && decide (0x3000 + 4 * n < 0x3080) && (0x3000 + 4 * n) % 4 == 0) = true := by
    simp only [Bool.and_eq_true, decide_eq_true_eq, beq_iff_eq]
    omega
  have hidx : (0x3000 + 4 * n - 0x3000) / 4 = n := by omega
  unfold Aplic.write
  dsimp only
  rw [hne 0 (by decide), hne 0x1C00 (by decide), hne 0x1CDC (by decide), hne 0x1D00 (by decide), hne 0x1DDC (by decide), hne 0x1E00 (by decide),
    hne 0x1EDC (by decide), hne 0x1F00 (by decide), hne 0x1FDC (by decide), hlt, htgt, hidx]
  rfl

theorem aplicWrite_en : x.write 0x1EDC v = { x with en := x.en ||| (2 ^ (v % 32) &&&
    maskOf ((upto 31).filterMap fun i => if cget 0 x.cfg (i + 1) % 8 != 0 then some (i + 1) else none)) } := by
  simp [Aplic.write]

theorem aplicWrite_ie : x.write 0 v = { x with ie := bit v 8 } := by
  simp [Aplic.write]

end

/-- A hart's write of the interrupt controller that leaves nothing to send. -/
theorem exec_aplicWrite {s : State} {a : HartAcc} {pid off : Nat} {p : Part} {x z : Aplic} (hruns : hartRuns s a pid p) (hop : a.op = .aplicWrite)
    (hs : (tget s.slices a.slice).isSome = true) (hx : x = (s.slice a.slice).aplic) (ha : a.va = off) (ho : off ≠ 0x3000)
    (hz : x.write off (a.data % 2 ^ 32) = z) (hidle : z.ie = false ∨ z.pend = 0) :
    ∃ t, exec (.hostHartAccess a) s = .next t ∧ t = { s with harts := t.harts, slices := t.slices } ∧ t.slice a.slice = { s.slice a.slice with aplic := z } := by
  subst hx hz ha
  have hw := aplicWrite_idle hs ho hidle
  refine ⟨_, exec_own hruns (by simp only [State.hartOwn, hop, hw]; rfl), rfl, ?_⟩
  exact slice_modSlice_same _ hs

/-! ### Queues and counter pages -/

theorem notify_harts (s : State) (key : Nat) : (s.notify key).harts = s.harts := by
  unfold State.notify
  split
  · rfl
  · split <;> rfl

theorem vmid_of_guestMode {h : Hart} (hg : guestMode h.mode) : h.vmid h.mode = csrOf h 0x680 / 2 ^ 44 % 1024 := by
  rw [Hart.vmid, (modeV_iff _).mpr hg]
  rfl

/-- The VDs whose counter page a guest may not reach: all but its own. -/
theorem guestOther_eq_false {h : Hart} {vd : Nat} (hg : ¬guestMode h.mode ∨ csrOf h 0x680 / 2 ^ 44 % 1024 = vd) :
    (if modeV h.mode then some (h.vmid h.mode) else none).any (· != vd) = false := by
  cases hm : modeV h.mode with
  | false => rfl
  | true =>
    obtain hg | hg := hg
    · exact absurd ((modeV_iff _).mp hm) hg
    · rw [if_pos rfl, vmid_of_guestMode ((modeV_iff _).mp hm), hg]
      exact bne_self_eq_false vd

theorem guestOther_eq_true {h : Hart} {vd : Nat} (hg : guestMode h.mode) (hne : csrOf h 0x680 / 2 ^ 44 % 1024 ≠ vd) :
    (if modeV h.mode then some (h.vmid h.mode) else none).any (· != vd) = true := by
  rw [(modeV_iff _).mpr hg, if_pos rfl, vmid_of_guestMode hg]
  exact bne_iff_ne.mpr hne

theorem listGet_eq_getD {α : Type} (d : α) : ∀ (l : List α) (i : Nat), listGet d l i = l.getD i d
  | [], _ => rfl
  | _ :: _, 0 => rfl
  | _ :: t, i + 1 => listGet_eq_getD d t i

section
variable {s u v : State} {a : HartAcc} {pid vd n : Nat} {p : Part} (hruns : hartRuns s a pid p)
  (hg : ¬guestMode (s.hart a).mode ∨ csrOf (s.hart a) 0x680 / 2 ^ 44 % 1024 = vd)
include hruns hg

/-- A read of a VD's counter page. -/
theorem hartGets_ctrRead (hop : a.op = .ctrRead vd) (hb : s.bound a.slice vd = some u) (hpg : u.ctrPage a.slice vd a.va a.size = some (v, n))
    (hrun : (v.hart a).run = true) : HartGets a s v fun h => h.val = n := by
  have hg' := guestOther_eq_false hg
  refine hartGets_own hruns (f := fun h => { h with val := n }) ?_ hrun rfl
  simp only [State.hartOwn, hop, hg', Bool.false_eq_true, if_false, hb, Option.bind_some, hpg, Option.map_some]

theorem hartGets_ctrWrite (hop : a.op = .ctrWrite vd) (hsz : a.size = if a.va < 0x40 then 8 else 4) (hput : s.pagePut a.slice vd a.va a.data = some v)
    (hrun : (v.hart a).run = true) : HartGets a s v fun h => h.cause = none := by
  have hg' := guestOther_eq_false hg
  have hsz' : (a.size != if a.va < 0x40 then 8 else 4) = false := by rw [← hsz]; exact bne_self_eq_false _
  refine hartGets_own hruns (f := id) ?_ hrun rfl
  simp only [State.hartOwn, hop, hg', hsz', Bool.or_self, Bool.false_eq_true, if_false, hput, Option.map_some]

end

theorem ctrPage_full (u : State) {slice vd off : Nat} (h1 : off < 0x40) (h2 : off % 8 = 0) :
    u.ctrPage slice vd off 8 = some (u.pmcRead slice vd .full (off / 8)) := by
  simp [State.ctrPage, State.pageReg, h1, h2]

theorem ctrPage_lo (u : State) {slice vd off : Nat} (h1 : off < 0x40) (h2 : off % 8 = 0) :
    u.ctrPage slice vd off 4 = some (u.pmcRead slice vd .lo (off / 8)) := by
  simp [State.ctrPage, h1, h2, show off % 4 = 0 by omega]

theorem ctrPage_hi (u : State) {slice vd off : Nat} (h1 : off < 0x40) (h2 : off % 8 = 4) :
    u.ctrPage slice vd off 4 = some (u.pmcRead slice vd .hi (off / 8)) := by
  simp [State.ctrPage, h1, h2, show off % 4 = 0 by omega]

theorem ctrPage_sel {u : State} {slice vd k n : Nat} {c : CtrSet} (hc : u.setOf slice vd = some (k, c)) (hn : n < 8) :
    u.ctrPage slice vd (0x40 + 4 * n) 4 = some (u, c.sel.getD n 0) := by
  simp [State.ctrPage, State.pageReg, hc, listGet_eq_getD, show 64 + 4 * n < 96 by omega, show (64 + 4 * n) % 4 = 0 by omega]

theorem ctrPage_frz {u : State} {slice vd k : Nat} {c : CtrSet} (hc : u.setOf slice vd = some (k, c)) :
    u.ctrPage slice vd 0x60 4 = some (u, if c.frz then 1 else 0) := by
  simp [State.ctrPage, State.pageReg, hc]

/-! ### Reservations -/

theorem mem_of_tget {α : Type} : ∀ {l : List (Nat × α)} {k : Nat} {v : α}, tget l k = some v → (k, v) ∈ l
  | (b, w) :: t, k, v, h => by
    unfold tget at h
    split at h
    · subst k
      cases h
      exact List.mem_cons_self
    · exact List.mem_cons_of_mem _ (mem_of_tget h)

/-- A reservation ends when its line's bytes have changed (R142). -/
theorem settleResv_hart {s : State} {k : Nat} {h : Hart} {r : Nat × Nat × List Byte} (hk : tget s.harts k = some h) (hr : h.resv = some r) :
    tget s.settleResv.harts k = some { h with resv := if cgets 0 s.mem (cell r.1 r.2.1) 128 = r.2.2 then some r else none } := by
  have hall : ¬(s.harts.all fun e => e.2.resv.isNone) = true := fun hall => by
    have := List.all_eq_true.mp hall _ (mem_of_tget hk)
    rw [hr] at this
    cases this
  unfold State.settleResv
  rw [if_neg hall]
  simp only [tget_tmap, hk, Option.map_some, hr, Option.filter_some, beq_iff_eq]

/-! ### Messages -/

theorem pendFile_eq {s : State} {pid h file iid k : Nat} {p : Part} {x : Hart} (hp : tget s.parts pid = some p) (hk : p.slices[h / 8]? = some k)
    (hx : tget s.harts (k * 8 + h % 8) = some x) (h1 : 1 ≤ iid) (h2 : iid < 2048) : s.pendFile pid h file iid =
    { s with harts := tput s.harts (k * 8 + h % 8) { x with eip := cset 0 x.eip file (cget 0 x.eip file ||| 2 ^ iid) } } := by
  have hkey : s.hartKeyOf pid h = some (k * 8 + h % 8) := by simp [State.hartKeyOf, hp, hk]
  have hid : (iid == 0 || decide (iid ≥ 2048)) = false := by simp; omega
  simp only [State.pendFile, hkey, hx, Option.getD_some, hid, Bool.false_eq_true, if_false]

/-- The identity is pending in the file, and nothing else changes. -/
theorem testBit_pend {l : Cells Nat} (hw : cwf 0 l = true) (file iid f i : Nat) : (cget 0 (cset 0 l file (cget 0 l file ||| 2 ^ iid)) f).testBit i =
    ((cget 0 l f).testBit i || (decide (f = file) && decide (i = iid))) := by
  rw [cget_cset hw]
  by_cases hf : f = file
  · simp [hf, Nat.testBit_or, Nat.testBit_two_pow, eq_comm]
  · simp [hf]

section
variable {s : State} {slice : Nat} {rt : IntRoute} (hrt : tget s.routes slice = some rt) (hpid : rt.pid = (s.fwOf slice).pid) (pid vd iid : Nat)
include hrt hpid

/-- A message without a valid guest file of a hart of the partition is lost (R424). -/
theorem msi_lost (h : (cget 0 (s.slice slice).gft vd).testBit 31 = false ∨ cget 0 (s.slice slice).gft vd % 16 = 0 ∨
    rt.nharts ≤ cget 0 (s.slice slice).gft vd / 2 ^ 4 % 2 ^ 7) :
    s.msi slice pid vd iid = { s with msiLost := cset 0 s.msiLost pid (cget 0 s.msiLost pid + 1) } := by
  have hne : (rt.pid != ((tget s.fw slice).getD {}).pid) = false := by rw [hpid]; exact bne_self_eq_false _
  unfold State.msi
  simp only [hrt, Option.getD_some, hne, Bool.false_eq_true, if_false, bit_eq_testBit]
  rw [if_pos]
  simpa [bits, or_assoc] using h

theorem msi_sent (h31 : (cget 0 (s.slice slice).gft vd).testBit 31 = true) (hgf : cget 0 (s.slice slice).gft vd % 16 ≠ 0)
    (hlt : cget 0 (s.slice slice).gft vd / 2 ^ 4 % 2 ^ 7 < rt.nharts) : s.msi slice pid vd iid =
    s.sendMsi pid rt.ifbase (cget 0 (s.slice slice).gft vd / 2 ^ 4 % 2 ^ 7) (cget 0 (s.slice slice).gft vd % 16) iid := by
  have hne : (rt.pid != ((tget s.fw slice).getD {}).pid) = false := by rw [hpid]; exact bne_self_eq_false _
  unfold State.msi
  simp only [hrt, Option.getD_some, hne, Bool.false_eq_true, if_false, bit_eq_testBit]
  rw [if_neg]
  · rfl
  · simpa [bits, h31, hgf] using hlt

end

/-! ### Harts that do nothing, and other harts -/

/-- A hart that does not run, or of no partition, does nothing. -/
theorem exec_idle {s : State} {a : HartAcc} (h : s.ownerPart a.slice = none ∨ 8 ≤ a.hart ∨ (s.hart a).run = false) :
    exec (.hostHartAccess a) s = .next s := by
  rw [exec_hostHartAccess, execHostHartAccess]
  cases hown : s.ownerPart a.slice with
  | none => rfl
  | some e =>
    obtain ⟨pid, p⟩ := e
    have hidle : (decide (a.hart ≥ 8) || !(s.hart a).run) = true := by simpa [hown] using h
    simp only [hidle, Bool.true_or, if_true]
    rfl


theorem parts_of_hartRuns {s : State} {a : HartAcc} {pid : Nat} {p : Part} (h : hartRuns s a pid p) : tget s.parts pid = some p := by
  obtain ⟨hown, _⟩ := h
  unfold State.ownerPart at hown
  dsimp only at hown
  split at hown
  · obtain ⟨q, hq, heq⟩ := Option.map_eq_some_iff.mp hown
    cases heq
    exact hq
  · cases hown

/-- A hart that stands stopped, as `start` leaves it. -/
def started (a : HartAcc) (n : Nat) (h : Hart) : Hart := { h with
  run := true, mode := .s, pc := a.va, x := cset 0 (cset 0 h.x 10 n) 11 (a.data % 2 ^ 64)
  csr := cset 0 (cset 0 h.csr 0x180 0) 0x300 (setField (h.raw 0x300) 1 1 0) }

theorem exec_start {s : State} {a : HartAcc} {pid n k : Nat} {p : Part} {h : Hart} (hruns : hartRuns s a pid p) (hop : a.op = .start n)
    (hm : (s.hart a).mode = .m) (hk : p.slices[n / 8]? = some k) (hh : h = (tget s.harts (k * 8 + n % 8)).getD {}) (hrun : h.run = false)
    (hres : (s.slice k).inReset = false) :
    exec (.hostHartAccess a) s = .next ({ s with harts := tput s.harts (k * 8 + n % 8) (started a n h) }.hartDone a id) := by
  have hkey : s.hartKeyOf pid n = some (k * 8 + n % 8) := by simp [State.hartKeyOf, parts_of_hartRuns hruns, hk]
  have hslice : (k * 8 + n % 8) / 8 = k := by omega
  refine exec_own hruns ?_
  simp only [State.hartOwn, hop, State.hartStart, hkey, ← hh, hm, hrun, hslice, hres, bne_self_eq_false, Bool.or_self, Bool.false_eq_true, if_false]
  rfl

end Sys2Proof.Claims
end

section
/-!
OBLIGATION. The accesses of a host hart.
-/
namespace Sys2Proof.Claims
open Sys2Proof.Machine

/-- Settles O49: a hart's step is that of `hartOwn`, or of the pieces of its access behind its checks; each clause is the lemma of its operation. -/
theorem hostHartAccesses : Obligations.HostHartAccesses := by
  unfold Obligations.HostHartAccesses
  refine ⟨?fence, ?misaligned, ?small, ?hyper, ?unreserved, ?aligned, ?file, ?bytes, ?pieces, ?pieceFault, ?reachFault, ?accMode, ?walk, ?tlb, ?fences, ?regs, ?csrs,
    ?traps, ?intr, ?noIntr, ?start, ?halt, ?devices, ?counters, ?otherVd, ?vio, ?resv, ?msi, ?msiRoute, ?idle⟩
  case fence =>
    intro s a pid p hruns hop
    exact hartGets_own hruns (f := id) (by simp only [State.hartOwn, hop]) (run_of_hartRuns hruns) rfl
  case misaligned => exact fun s a pid p hruns hat hsz hva hal => hartTraps_misaligned hruns hat hsz hva hal
  case small =>
    intro s a pid p hruns hat hsz hva
    have hlt : a.size < 4 := by
      obtain h | h : a.size = 1 ∨ a.size = 2 := by simpa using hsz
      all_goals omega
    exact hartTraps_barred hruns (hartBarred_of_small hat hlt) (by decide) (onMemory_of_isAtomic hat) (List.mem_of_mem_take (i := 2) hsz) hva
  case hyper =>
    intro s a pid p hruns hhyp hsz hva hmay
    exact hartTraps_barred hruns (hartBarred_of_hyper hhyp hmay) (by split <;> decide) (onMemory_of_isHyper hhyp) hsz hva
  case unreserved => exact fun s a pid p hruns hop hsz hva hal hres => hartGets_unreserved hruns hop hsz hva hal hres
  case aligned =>
    intro s a pid p u x hruns hon hmay hsc hsz hva hal hr hf hrun v new
    have hv : v = u.touch x.home pid x.vd x.tag x.gran x.sla (hartTraf a.op) := by
      obtain h | h | h | h | h | h | h | h | ⟨f, h⟩ := hon <;> simp only [v, h] <;> rfl
    rw [hv]
    clear_value v
    refine ⟨fun w b ho hlr hb => ?_, fun w b hop hb => ?_, fun w b z hop hb hc => ?_, fun w b z hop hb hc => ?_, fun w b z o hop hb hc => ?_, fun w hb => ?_⟩
    · have hsc' : a.op ≠ .sc := by rintro h; simp [onlyReads, h] at ho
      exact hartGets_reads hruns hon hmay hsz hva hal hsc hr hrun hf hb ho (by simp [accessed, hlr, hsc'])
    · exact hartGets_reads hruns hon hmay hsz hva hal hsc hr hrun hf hb (by simp [onlyReads, hop]) (by simp [accessed, hop])
    · exact hartGets_writes hruns hon hmay hsz hva hal hsc hr hrun hf hb (hartNew_of_store (.inr (.inr hop)) ..) hc (by simp [accessed, hop])
    · refine hartGets_writes hruns hon hmay hsz hva hal hsc hr hrun hf hb (hartNew_of_store (hop.elim .inl fun h => .inr (.inl h)) ..) hc ?_
      obtain h | h := hop <;> simp [accessed, h]
    · exact hartGets_writes hruns hon hmay hsz hva hal hsc hr hrun hf hb (by rw [hop]; exact hartNew_amo ..) hc (by simp [accessed])
    · rw [← hartCause_access]
      exact hartTraps_unread hruns hon hmay hsz hva hal hsc hr hrun hf hb
  case file =>
    intro s a pid p u x h f hruns hon hmay hsc hlr hsz hva hal hr hf hrun
    have hsc' : a.op = .sc → s.reserved pid a = true := fun h => absurd h hsc
    have hw := hartNeeds_w hon
    refine ⟨fun hno => ?_, fun h4 hpa ho => ?_⟩
    · refine hartGets_file hruns hon hmay hsz hva hal hsc' hr hf u ?_ hrun ⟨rfl, rfl⟩
      rw [if_neg]
      simp only [Bool.and_eq_true, beq_iff_eq, hw]
      tauto
    · refine hartGets_file hruns hon hmay hsz hva hal hsc' hr hf _ ?_ ?_ rfl
      · rw [if_pos]
        simp only [Bool.and_eq_true, beq_iff_eq, hw]
        exact ⟨⟨ho, h4⟩, hpa⟩
      · rw [pendFile_run]; exact hrun
  case bytes =>
    intro s a pid p u hruns hon hmay hat hsz hva hal l
    have hsc : a.op = .sc → s.reserved pid a = true := fun h => absurd (Or.inr (Or.inr h)) hat
    have hal' : isAtomic a.op → a.va % a.size = 0 := fun h => absurd h hat
    have hsz' : a.size ∈ [1, 2, 4, 8] := List.mem_cons_of_mem _ hsz
    have hl : hartPieces a = l := hartPieces_misaligned hal
    clear_value l
    subst hl
    refine ⟨fun v hgo hrun => ?_, fun va hgo hrun => ?_, fun va hgo hrun => ?_⟩
    · exact hartGets_of_pieces hruns hon hmay hsz' hva hal' hsc hgo hrun (by simp [accessed])
    · rw [← hartCause_access]
      exact hartTraps_of_pieces hruns hon hmay hsz' hva hal' hsc hgo (by simp) hrun
    · rw [← hartCause_page]
      exact hartTraps_of_pieces hruns hon hmay hsz' hva hal' hsc hgo (by simp) hrun
  case pieces =>
    intro s u pid a va n l i x w b hr hf hb
    refine ⟨fun z r ho hz => ?_, fun y z r hop hc hz => ?_⟩
    · rw [if_pos ho] at hb
      rw [hartGo_reads hr hf (by rw [hartTraf_of_onlyReads ho]; exact hb) (hartNew_of_onlyReads ho ..), hz]
      rfl
    · rw [if_neg (by simp [onlyReads, hop])] at hb
      rw [hartGo_writes hr hf (by rw [hop]; exact hb) (hartNew_of_store (.inl hop) ..) hc, addPiece_fst, hz]
  case pieceFault => exact fun s u pid a va n l i f hr => hartGo_fault hr
  case reachFault =>
    intro s a pid p u f hruns hon hmay hsc hsz hva hal hr hrun
    have hsc' : a.op = .sc → s.reserved pid a = true := fun h => absurd h hsc
    refine ⟨?_, ?_, ?_, ?_⟩
    · rintro rfl
      rw [← hartCause_access]
      exact hartTraps_of_reach hruns hon hmay hsz hva hal hsc' hr (by simp) hrun
    · rintro rfl
      rw [← hartCause_page]
      exact hartTraps_of_reach hruns hon hmay hsz hva hal hsc' hr (by simp) hrun
    · rintro g rfl
      rw [← hartCause_guest]
      exact hartTraps_of_reach hruns hon hmay hsz hva hal hsc' hr (by simp) hrun
    · rintro rfl
      exact exec_reach_waits hruns hon hmay hsz hva hal hsc' hr
  case accMode =>
    intro h o p other
    have hp : p = bits (csrOf h 0x300) 12 11 := rfl
    refine ⟨fun ho => ?_, fun ho hno => ?_, fun ho hoth => ?_⟩
    · rw [accMode_of_isHyper h ho, guestMode_modeOf]
      refine ⟨⟨?_, rfl⟩, prvOf_modeOf_bit ..⟩
      exact bits_ne_three _ _
    · by_cases hf : o = .fetch
      · rw [hf, accMode_fetch]
      · rw [accMode_of_not_isHyper h ho hf, if_neg fun h => hno ⟨hf, h⟩]
    · obtain ⟨hf, hm, hb⟩ := hoth
      rw [accMode_of_not_isHyper h ho hf, if_pos ⟨hm, hb⟩, ← hp, prvOf_modeOf, guestMode_modeOf]
      simp only [true_and, Bool.and_eq_true, bne_iff_ne]
      tauto
  case walk =>
    intro s pid a va ht h md
    have hmd : md = (s.hart a).accMode a.op := rfl
    refine ⟨fun hm => ?_, fun hm hb => ?_, fun u w k hm hb hva hk hrd => ?_, fun u pa gpa hm hb hg hs => ?_⟩
    · exact hartWalk_phys ht (by rw [show (s.hart a).accMode a.op = .m from hm]; rfl)
    · exact hartWalk_phys ht (hartWalkFor_bare hm hb)
    · have hu : u.harts = s.harts := harts_of_rest (via := none) (rest_of_run hrd (by simp))
      have hpriv : h.priv md = { user := decide (md = .u), sum := (csrOf h 0x300).testBit 18, mxr := (csrOf h 0x300).testBit 19 } := priv_of_not_guest hm
      rw [hk] at hrd
      intro e pv
      obtain ⟨hbad, hgood⟩ := hartStage1_sv39 (p := h.priv md) (acc := hartNeeds a.op) hb hva hrd
      refine ⟨fun h => ?_, fun h1 h2 h3 hal => ?_, fun h1 h2 h3 hal => ?_⟩
      · exact hartWalk_fault ht (hartWalkFor_stage1 hm hb rfl (hbad h))
      · have hs := hgood h1 h2 h3
        rw [(leafDenies_eq_false ..).mpr (by rw [hpriv]; exact hal)] at hs
        rw [hartWalk_enters ht hu (hartWalkFor_stage1 hm hb rfl hs), ← hmd, walkEnt_of_not_guest hm]
      · have hs := hgood h1 h2 h3
        rw [if_pos (by rw [← Bool.not_eq_false, leafDenies_eq_false, hpriv]; exact hal)] at hs
        exact hartWalk_fault ht (hartWalkFor_stage1 hm hb rfl hs)
    · rw [hartWalk_snd ht, hartWalkFor_guestBare hm hb hs]
  case tlb =>
    intro s pid a va e ht hmode hasid hvmid hpage hacc
    rw [hmode]
    exact hartWalk_hit (hmode ▸ tlbHit_single ht hasid hvmid hpage (hacc _ rfl))
  case fences =>
    intro s a pid p hruns o same
    have hbar (c : Nat) (hyper : Bool) (h : supBars o.mode hyper = some c) : supBars (s.hart a).mode hyper = some c := h
    refine ⟨fun hop hm => ?_, fun hop hm => ?_, fun hop hm => ?_, fun hop hm => ?_, fun hop hm => ?_, fun hop hm => ?_⟩
    · refine hartGets_sup hruns (hyper := false) (f := fun h => { h with tlb := h.tlb.filter fun e => modeV e.mode != modeV h.mode || e.vmid != h.vmid h.mode })
        (by simp only [State.hartOwn, hop]) (by obtain h | h | h := hm <;> rw [show (s.hart a).mode = _ from h] <;> rfl) rfl ⟨rfl, fun e => ?_⟩
      rw [List.mem_filter, Bool.or_eq_true, bne_iff_ne, bne_iff_ne, modeV_ne_iff]
    · exact hartTraps_sup hruns (by simp only [State.hartOwn, hop]; rfl) (hbar 2 false (by rw [hm]; rfl)) (by decide)
    · exact hartTraps_sup hruns (by simp only [State.hartOwn, hop]; rfl) (hbar 22 false (by rw [hm]; rfl)) (by decide)
    · refine hartGets_sup hruns (hyper := true) (f := fun h => { h with tlb := h.tlb.filter fun e => !modeV e.mode })
        (by simp only [State.hartOwn, hop]) (by obtain h | h := hm <;> rw [show (s.hart a).mode = _ from h] <;> rfl) rfl ⟨rfl, fun e => ?_⟩
      rw [List.mem_filter, Bool.not_eq_true', Bool.eq_false_iff, ne_eq, modeV_iff]
    · exact hartTraps_sup hruns (by simp only [State.hartOwn, hop]; rfl) (hbar 2 true (by rw [hm]; rfl)) (by decide)
    · exact hartTraps_sup hruns (by simp only [State.hartOwn, hop]; rfl) (hbar 22 true (by obtain h | h := hm <;> rw [h] <;> rfl)) (by decide)
  case regs =>
    intro s a pid p n hruns hx hf hv o
    have hrun := run_of_hartRuns hruns
    have hlt : n % 32 < 32 := Nat.mod_lt _ (by decide)
    refine ⟨fun hop => ?_, fun hop => ?_, fun hop => ?_⟩
    · refine hartGets_own hruns (f := fun h => { h with x := if n % 32 == 0 then h.x else cset 0 h.x (n % 32) (a.data % 2 ^ 64) }) (by simp only [State.hartOwn, hop]) hrun
        fun k hk => ?_
      by_cases h0 : n % 32 = 0
      · simp [h0, o]
      · have hne : k = n % 32 → k ≠ 0 := fun h => h ▸ h0
        simp only [beq_iff_eq, h0, if_false, cget_cset hx, and_iff_left_of_imp hne, o]
    · exact hartGets_own hruns (f := fun h => { h with f := cset 0 h.f (n % 32) (a.data % 2 ^ 64) }) (by simp only [State.hartOwn, hop]) hrun fun k _ => cget_cset hf ..
    · exact hartGets_own hruns (f := fun h => { h with v := cset 0 h.v (n % 32) (a.data % 2 ^ 256) }) (by simp only [State.hartOwn, hop]) hrun fun k _ => cget_cset hv ..
  case csrs =>
    intro s a pid p n hruns hcsr heip heie o opens plain kept
    refine ⟨fun hop ho => ?_, fun hop ho => ?_, fun hop ho hp => ?_, fun hop ho hp => ?_, fun hop ho hn => ?_, fun hop ho hm hs h1 h2 hs' => ?_, fun hop ho hm hs h1 h2 hs' => ?_,
      fun hop ho hn => ?_, fun hop ho hn => ?_, fun hop ho hn hm => ?_, fun hop ho hn => ?_, fun hop ho hn hm => ?_, fun hop ho hn hm => ?_, fun hop ho hn hm d hd => ?_, fun hop ho hn hm hsel => ?_⟩
    · simpa using hartTraps_csr hruns (w := false) hop ho
    · simpa using hartTraps_csr hruns (w := true) hop ho
    · exact hartGets_csrRead hruns hop ho ⟨csrVal_plain (csrAlias_eq hp.2) hp.1, rfl⟩
    · exact hartGets_csrWrite_plain hruns hop ho hcsr (csrAlias_eq hp.2) hp.1
    · subst hn
      exact hartGets_csrRead hruns hop ho csrVal_time
    · exact hartGets_csrRead hruns hop ho (csrVal_plain (csrAlias_vs hm h1 h2) hs')
    · exact (hartGets_csrWrite_plain hruns hop ho hcsr (csrAlias_vs hm h1 h2) hs').mono fun h => And.right
    · obtain ⟨rfl, hm⟩ | rfl | ⟨rfl, hm⟩ := hn
      · rw [if_neg fun h => hm h.2]
        exact hartGets_csrWrite_atp hruns hop ho hcsr (csrAlias_eq fun h => absurd h hm) (.inl rfl)
      · exact hartGets_csrWrite_atp hruns hop ho hcsr (csrAlias_eq fun _ _ => by decide) (.inr rfl)
      · rw [if_pos ⟨rfl, hm⟩]
        exact hartGets_csrWrite_atp hruns hop ho hcsr (csrAlias_vs hm (by decide) (by decide)) (.inr rfl)
    · subst hn
      exact hartGets_csrWrite_hgatp hruns hop ho hcsr
    · subst hn
      exact hartGets_csrRead hruns hop ho fun i hi => testBit_csrVal_sstatus hm hi
    · subst hn
      exact hartGets_csrRead hruns hop ho fun i => by rw [csrVal_geip]; exact testBit_geip ..
    · exact hartGets_csrRead_ip hruns hop ho hn hm
    · subst hn
      exact hartGets_csrRead hruns hop ho fun d hd => by rw [csrVal_stopei hm, topId_eq hd]
    · subst hn
      exact hartGets_csrWrite_stopei hruns hop ho heip hm hd
    · subst hn
      exact hartGets_csrWrite_sireg hruns hop ho heie hm hsel
  case traps =>
    intro s a pid p hruns o
    have hrun := run_of_hartRuns hruns
    refine ⟨fun hop => ?_, fun hop => ?_, fun hop => ?_, fun hop hm => ?_, fun hop hm => ?_, fun hop hm => ?_, fun hcsr _ _ _ => ?_,
      fun hop hn => ?_, fun c hop hn hcsr => ?_⟩
    · exact hartTraps_own hruns (by simp only [State.hartOwn, hop, callCause_eq, o]) (by split_ifs <;> decide)
    · exact hartTraps_own hruns (by simp only [State.hartOwn, hop, o]) (by decide)
    · exact hartTraps_own hruns (by simp only [State.hartOwn, hop]) (by decide)
    · have hm' : ((s.hart a).mode == .m) = false := beq_false_of_ne hm
      exact hartTraps_own hruns (by simp only [State.hartOwn, hop, hm', Bool.false_eq_true, if_false]) (by decide)
    · have hb : supBars (s.hart a).mode false = some 2 := by rw [show (s.hart a).mode = .u from hm]; rfl
      exact hartTraps_own hruns (by simp only [State.hartOwn, hop, hb]) (by decide)
    · have hb : supBars (s.hart a).mode false = some 22 := by rw [show (s.hart a).mode = .vu from hm]; rfl
      exact hartTraps_own hruns (by simp only [State.hartOwn, hop, hb]) (by decide)
    · refine ⟨fun hop hm => ?_, fun hop hm => ?_, fun hop hm => ?_⟩
      · have hret := mret_returns hcsr
        have hm' : ((s.hart a).mode == .m) = true := beq_iff_eq.mpr hm
        exact hartGets_of (exec_own hruns (by simp only [State.hartOwn, hop, hm', if_true])) ((congrArg Hart.run hret.1).trans hrun) hret
      · obtain ⟨hret, hne, hprv, hg, h300, hv, hkept, hrest⟩ := sret_s_returns hcsr hm
        have hb : supBars (s.hart a).mode false = none := by obtain h | h := hm <;> rw [show (s.hart a).mode = _ from h] <;> rfl
        exact hartGets_of (exec_own hruns (by simp only [State.hartOwn, hop, hb])) ((congrArg Hart.run hret).trans hrun)
          ⟨hret, hne, hprv, hg, back_of_sReturn h300, hv, hkept, hrest⟩
      · obtain ⟨hret, hmode, h200, hrest⟩ := sret_vs_returns hcsr hm
        have hb : supBars (s.hart a).mode false = none := by rw [show (s.hart a).mode = _ from hm]; rfl
        exact hartGets_of (exec_own hruns (by simp only [State.hartOwn, hop, hb])) ((congrArg Hart.run hret).trans hrun)
          ⟨hret, hmode, back_of_sReturn h200, hrest⟩
    · have hn' : (s.hart a).nextIntr s.now = none := hn
      exact exec_notDue hruns (by simp only [State.hartOwn, hop, hn', Option.map_none]) (by rw [hop]; rfl)
    · have hn' : (s.hart a).nextIntr s.now = some c := hn
      have htaken : TrapTaken o (o.trap true c 0 0) true c 0 0 := trap_taken hcsr (nextIntr_lt hn)
      exact hartGets_of (f := fun h => h.trap true c 0 0) (exec_own hruns (by simp only [State.hartOwn, hop, hn', Option.map_some])) ((congrArg Hart.run htaken.1).trans hrun) htaken
  case intr =>
    intro h now c hn
    obtain ⟨hp, he, hdue⟩ := intr_of_nextIntr hn
    exact ⟨hp, he, (intrDue_iff h c).mp hdue⟩
  case noIntr =>
    intro h now c hn hc hp he
    have hdue := not_intrDue_of_nextIntr hn ((by decide : ∀ c ∈ [1, 2, 3, 5, 6, 7, 9, 10, 11, 12], c ∈ intrOrder) c hc) hp he
    rw [intrDue_iff] at hdue
    refine ⟨fun hd => ?_, fun hd hd' => ?_⟩
    · simpa [hd] using hdue
    · simp only [hd, hd'] at hdue
      by_contra hno
      refine hdue ⟨by simp, fun _ => ⟨fun hm => hno (.inl hm), fun _ hm => ?_, by simp⟩⟩
      exact by_contra fun hb => hno (.inr ⟨hm, by simpa using hb⟩)
  case start =>
    intro s a pid p n k h hruns hop hm hk hh hrun hres hx hcsr
    have hne : k * 8 + n % 8 ≠ hartKey a := fun he => by
      have hself := run_of_hartRuns hruns
      rw [State.hart, ← he, ← hh, hrun] at hself
      cases hself
    refine ⟨_, started a n h, exec_start hruns hop hm hk hh hrun hres, ?_, rfl, rfl, rfl, ?_, ?_, ?_, ?_, rfl⟩
    · exact (tget_tput_other _ _ hne).trans (tget_tput_same ..)
    · simp [started, cget_cset, hx, cset_wf]
    · simp [started, cget_cset, hx, cset_wf]
    · simp [started, csrOf, cget_cset, hcsr, cset_wf]
    · simp [started, csrOf, cget_cset, hcsr, cset_wf, testBit_setField]
  case halt =>
    intro s a pid p hruns hop hm
    have hm' : ((s.hart a).mode == .m) = true := beq_iff_eq.mpr hm
    exact ⟨_, exec_own hruns (by simp only [State.hartOwn, hop, hm', if_true]; rfl), rfl, by simp [State.hartDone], fun j hj => tget_tput_other _ _ hj⟩
  case devices =>
    intro s a pid p hruns
    have hrun := run_of_hartRuns hruns
    refine ⟨fun hop => ?_, fun hop hs => ?_, fun hop => ?_, fun n x hop hx hs h1 h2 => ?_, fun q hop => ?_⟩
    · exact hartGets_own hruns (f := fun h => { h with val := (s.slice a.slice).vioReg a.va }) (by simp only [State.hartOwn, hop]) hrun rfl
    · refine ⟨_, exec_own hruns (by simp only [State.hartOwn, hop]; rfl), rfl, fun k hk => ?_, ?_⟩
      · exact slice_modSlice_other s _ hk
      · exact slice_modSlice_same _ hs
    · exact hartGets_own hruns (f := fun h => { h with val := (s.slice a.slice).aplic.read a.va }) (by simp only [State.hartOwn, hop]) hrun rfl
    · intro sets
      refine ⟨fun ha hd hie hw => ?_, fun ha hie hw => ?_, fun ha hd hie => ?_, fun ha hd hpend => ?_⟩
      · obtain ⟨t, he, ht, hz⟩ := exec_aplicWrite hruns hop hs hx ha (by omega) (aplicWrite_cfg h1 h2 hd) (.inl hie)
        refine ⟨t, he, ht, _, ⟨rfl, fun k => ?_⟩, hz⟩
        rw [cget_cset hw, Nat.mod_mod_of_dvd a.data (by decide : 8 ∣ 2 ^ 32)]
      · obtain ⟨t, he, ht, hz⟩ := exec_aplicWrite hruns hop hs hx ha (by omega) (aplicWrite_tgt h1 h2) (.inl hie)
        refine ⟨t, he, ht, _, ⟨rfl, fun k => ?_⟩, hz⟩
        rw [cget_cset hw, Nat.mod_mod]
      · obtain ⟨t, he, ht, hz⟩ := exec_aplicWrite hruns hop hs hx ha (by decide) aplicWrite_en (.inl hie)
        refine ⟨t, he, ht, _, ⟨rfl, fun k => ?_⟩, hz⟩
        rw [hd, Nat.testBit_or, Nat.testBit_and, Nat.testBit_two_pow]
        by_cases hk : k = n
        · rw [hk, testBit_live x h1 h2]
        · simp [hk, Ne.symm hk]
      · obtain ⟨t, he, ht, hz⟩ := exec_aplicWrite hruns hop hs hx ha (by decide) aplicWrite_ie (.inr hpend)
        refine ⟨t, he, ht, _, ?_, hz⟩
        rw [bit_eq_testBit, Nat.testBit_mod_two_pow, hd]
        rfl
    · have hh := hart_of_harts (notify_harts s (pid * 2 ^ 16 + q)) a
      exact hartGets_own hruns (f := id) (by simp only [State.hartOwn, hop]; rfl) (by rw [hh]; exact hrun) rfl
  case counters =>
    intro s a pid p vd u hruns hg hb hrun
    refine ⟨fun v n hop hlt hal hsz hrd hv => ?_, fun v n hop hlt hal hsz hrd hv => ?_, fun v n hop hlt hal hsz hrd hv => ?_, fun k c hop hc _ => ⟨fun n hn ha hsz => ?_, fun ha hsz => ?_⟩,
      fun v hop hsz hput hv => ?_⟩
    · exact hartGets_ctrRead hruns hg hop hb (by rw [hsz, ctrPage_full u hlt hal, hrd]) hv
    · exact hartGets_ctrRead hruns hg hop hb (by rw [hsz, ctrPage_lo u hlt hal, hrd]) hv
    · exact hartGets_ctrRead hruns hg hop hb (by rw [hsz, ctrPage_hi u hlt hal, hrd]) hv
    · exact hartGets_ctrRead hruns hg hop hb (by rw [ha, hsz, ctrPage_sel hc hn]) hrun
    · exact hartGets_ctrRead hruns hg hop hb (by rw [ha, hsz, ctrPage_frz hc]) hrun
    · exact hartGets_ctrWrite hruns hg hop hsz hput hv
  case otherVd =>
    intro s a pid p vd hruns hg hne hop
    have hg' := guestOther_eq_true hg hne
    obtain hop | hop := hop
    · exact exec_notDue hruns (by simp only [State.hartOwn, hop, hg', if_true]) (by rw [hop]; rfl)
    · exact exec_notDue hruns (by simp only [State.hartOwn, hop, hg', Bool.true_or, if_true]) (by rw [hop]; rfl)
  case vio => exact fun x => ⟨rfl, rfl, rfl⟩
  case resv =>
    intro s k h r hk hr
    refine ⟨_, settleResv_hart hk hr, fun he => if_pos he, fun hne => if_neg hne⟩
  case msi =>
    intro s slice pid vd iid p rt k h e n hrt hpid
    refine ⟨msi_lost hrt hpid pid vd iid, fun h31 hgf hlt hp hk hh h1 h2 hw =>
      ⟨{ h with eip := cset 0 h.eip (e % 16) (cget 0 h.eip (e % 16) ||| 2 ^ iid) }, ?_, rfl, fun f i => testBit_pend hw ..⟩⟩
    rw [msi_sent hrt hpid pid vd iid h31 hgf hlt]
    exact pendFile_eq (s := { s with irqs := s.irqs ++ [(pid, rt.ifbase * 2 ^ 16 + 65536 * n + 4096 * (e % 16), iid)] }) hp hk hh h1 h2
  case msiRoute =>
    intro s slice pid vd iid hne
    unfold State.msi
    dsimp only
    exact if_pos (bne_iff_ne.mpr hne)
  case idle => exact fun s a h => exec_idle h
end Sys2Proof.Claims
end

section
/-!
SUPPORT. Rounding (R59) said once: what it means to round a magnitude between two neighbours of a rising sequence of values, what each choice of rounding then
gives, and that `roundUnits` rounds so to an integer.
-/
namespace Sys2Proof.Machine

/-- Rounding x in a rising sequence of values (R59): the number of the value chosen, and whether x is not a value itself. Between two neighbours `pickUp`
chooses, by the parity of the lower one, by the half of the step and by the draw against the fraction in units of 2^-32. -/
inductive Rounds (g : ℕ → ℚ) (rnd : Rnd) (neg : Bool) (draw : ℕ) (x : ℚ) : ℕ × Bool → Prop
  | exact (k : ℕ) : g k = x → Rounds g rnd neg draw x (k, false)
  | between (n : ℕ) : g n < x → x < g (n + 1) → Rounds g rnd neg draw x
      (if pickUp rnd neg (n % 2 == 0) (compare (2 * (x - g n)) (g (n + 1) - g n)) ⌊(x - g n) / (g (n + 1) - g n) * 2 ^ 32⌋₊ draw then n + 1 else n, true)

namespace Rounds

variable {g : ℕ → ℚ} {rnd : Rnd} {neg : Bool} {draw : ℕ} {x : ℚ} {r : ℕ × Bool}

/-- The chosen value is one of the two neighbours. -/
theorem neighbour (h : Rounds g rnd neg draw x r) : g r.1 = x ∧ r.2 = false ∨ ∃ n, g n < x ∧ x < g (n + 1) ∧ (r.1 = n ∨ r.1 = n + 1) ∧ r.2 = true := by
  cases h with
  | exact k hk => exact .inl ⟨hk, rfl⟩
  | between n h1 h2 =>
    refine .inr ⟨n, h1, h2, ?_, rfl⟩
    dsimp only
    split
    · exact .inr rfl
    · exact .inl rfl

/-- The flag tells a difference. -/
theorem flag (h : Rounds g rnd neg draw x r) : r.2 = true ↔ g r.1 ≠ x := by
  obtain ⟨he, hf⟩ | ⟨n, h1, h2, h3 | h3, hf⟩ := h.neighbour
  · simp [he, hf]
  · simp [hf, h3, h1.ne]
  · simp [hf, h3, h2.ne']

section
variable (hg : StrictMono g)
include hg

/-- Nothing at most x lies above the lower neighbour. -/
theorem le_of_below {n j : ℕ} (h2 : x < g (n + 1)) (hj : g j ≤ x) : g j ≤ g n :=
  hg.monotone (Nat.lt_succ_iff.mp (hg.lt_iff_lt.mp (hj.trans_lt h2)))

/-- Nothing at least x lies below the upper neighbour. -/
theorem le_of_above {n j : ℕ} (h1 : g n < x) (hj : x ≤ g j) : g (n + 1) ≤ g j :=
  hg.monotone (hg.lt_iff_lt.mp (h1.trans_le hj))

/-- A value at least x bounds the chosen one. -/
theorem le_of_le {M : ℕ} (h : Rounds g rnd neg draw x r) (hx : x ≤ g M) : r.1 ≤ M := by
  obtain ⟨he, _⟩ | ⟨n, h1, h2, h3, _⟩ := h.neighbour
  · exact hg.le_iff_le.mp (he ▸ hx)
  · have := hg.lt_iff_lt.mp (h1.trans_le hx)
    omega

/-- A value at most x is bounded by the chosen one. -/
theorem ge_of_ge {M : ℕ} (h : Rounds g rnd neg draw x r) (hx : g M ≤ x) : M ≤ r.1 := by
  obtain ⟨he, _⟩ | ⟨n, h1, h2, h3, _⟩ := h.neighbour
  · exact hg.le_iff_le.mp (he ▸ hx)
  · have := hg.lt_iff_lt.mp (hx.trans_lt h2)
    omega

/-- A rounding that never goes up gives the greatest value at most x. -/
theorem floor (h : Rounds g rnd neg draw x r) (hp : ∀ ev hf fr, pickUp rnd neg ev hf fr draw = false) : g r.1 ≤ x ∧ ∀ j, g j ≤ x → g j ≤ g r.1 := by
  cases h with
  | exact k hk => exact ⟨hk.le, fun j hj => hj.trans hk.ge⟩
  | between n h1 h2 =>
    rw [hp]
    exact ⟨h1.le, fun j hj => le_of_below hg h2 hj⟩

/-- A rounding that always goes up gives the least value at least x. -/
theorem ceil (h : Rounds g rnd neg draw x r) (hp : ∀ ev hf fr, pickUp rnd neg ev hf fr draw = true) : x ≤ g r.1 ∧ ∀ j, x ≤ g j → g r.1 ≤ g j := by
  cases h with
  | exact k hk => exact ⟨hk.ge, fun j hj => hk.le.trans hj⟩
  | between n h1 h2 =>
    rw [hp]
    exact ⟨h2.le, fun j hj => le_of_above hg h1 hj⟩

omit hg in
/-- A rounding to nearest goes up only from half a step on, and stays only up to it; at the half it goes up to an even number or away from zero. -/
theorem half (h : Rounds g rnd neg draw x r) (hr : rnd = .rne ∨ rnd = .rna) : g r.1 = x ∨ ∃ n, g n < x ∧ x < g (n + 1) ∧
    (r.1 = n ∧ 2 * (x - g n) ≤ g (n + 1) - g n ∧ (2 * (x - g n) = g (n + 1) - g n → rnd = .rne ∧ n % 2 = 0) ∨
      r.1 = n + 1 ∧ g (n + 1) - g n ≤ 2 * (x - g n) ∧ (2 * (x - g n) = g (n + 1) - g n → rnd = .rna ∨ n % 2 = 1)) := by
  cases h with
  | exact k hk => exact .inl hk
  | between n h1 h2 =>
    refine .inr ⟨n, h1, h2, ?_⟩
    dsimp only
    obtain hc | hc | hc := lt_trichotomy (2 * (x - g n)) (g (n + 1) - g n)
    · obtain rfl | rfl := hr <;> simp [pickUp, compare_lt_iff_lt.mpr hc, hc.le, hc.ne]
    · obtain rfl | rfl := hr
      · obtain hn | hn := Nat.mod_two_eq_zero_or_one n <;> simp [pickUp, hc, hn]
      · simp [pickUp, hc]
    · obtain rfl | rfl := hr <;> simp [pickUp, compare_gt_iff_gt.mpr hc, hc.le, hc.ne']

/-- A rounding to nearest gives a nearest value. -/
theorem nearest (h : Rounds g rnd neg draw x r) (hr : rnd = .rne ∨ rnd = .rna) (j : ℕ) : |g r.1 - x| ≤ |g j - x| := by
  obtain he | ⟨n, h1, h2, hn⟩ := h.half hr
  · simp [he]
  · have hb : x - g n ≤ |g j - x| ∨ g (n + 1) - x ≤ |g j - x| := by
      obtain hj | hj := le_total (g j) x
      · have := le_of_below hg h2 hj
        exact .inl (by rw [abs_of_nonpos (by linarith)]; linarith)
      · have := le_of_above hg h1 hj
        exact .inr (by rw [abs_of_nonneg (by linarith)]; linarith)
    obtain ⟨e, hh, _⟩ | ⟨e, hh, _⟩ := hn <;> rw [e]
    · rw [abs_of_nonpos (by linarith)]
      obtain hb | hb := hb <;> linarith
    · rw [abs_of_nonneg (by linarith)]
      obtain hb | hb := hb <;> linarith

/-- A rounding to nearest between neighbours, the lower of an odd number, goes up exactly from half a step on. -/
theorem nearest_of_odd {n : ℕ} (h : Rounds g rnd neg draw x r) (hr : rnd = .rne ∨ rnd = .rna) (h1 : g n < x) (h2 : x < g (n + 1)) (hn : n % 2 = 1) :
    r.1 = if g (n + 1) - g n ≤ 2 * (x - g n) then n + 1 else n := by
  obtain he | ⟨k, k1, k2, hk⟩ := h.half hr
  · rw [← he] at h1 h2
    have := hg.lt_iff_lt.mp h1
    have := hg.lt_iff_lt.mp h2
    omega
  · obtain rfl : k = n := by
      have := hg.lt_iff_lt.mp (k1.trans h2)
      have := hg.lt_iff_lt.mp (h1.trans k2)
      omega
    obtain ⟨e, hh, ht⟩ | ⟨e, hh, -⟩ := hk
    · rw [e, if_neg]
      intro hle
      have := (ht (le_antisymm hh hle)).2
      omega
    · rw [e, if_pos hh]

end

/-- Rounding to an integer in units of s, counted from an even number c of the sequence, is rounding in the sequence. -/
theorem shift {s y : ℚ} {c : ℕ} (hs : 0 < s) (hc : c % 2 = 0) (hx : x = y * s) (h : Rounds (↑) rnd neg draw y r)
    (h0 : ∀ n : ℕ, (n : ℚ) ≤ y → y < (n + 1 : ℕ) → g (c + n) = n * s ∧ g (c + n + 1) = (n + 1 : ℕ) * s) :
    Rounds g rnd neg draw x (c + r.1, r.2) := by
  cases h with
  | exact k hk => exact .exact _ (by rw [(h0 k hk.le (by rw [← hk]; exact_mod_cast Nat.lt_succ_self k)).1, hk, hx])
  | between n h1 h2 =>
    obtain ⟨e0, e1⟩ := h0 n h1.le h2
    have hb := Rounds.between (g := g) (rnd := rnd) (neg := neg) (draw := draw) (x := x) (c + n)
      (by rw [e0, hx]; gcongr) (by rw [e1, hx]; gcongr)
    have ed : x - g (c + n) = (y - n) * s := by rw [e0, hx]; ring
    have es : g (c + n + 1) - g (c + n) = ((n + 1 : ℕ) - n) * s := by rw [e0, e1]; ring
    have hcmp : compare (2 * (x - g (c + n))) (g (c + n + 1) - g (c + n)) = compare (2 * (y - n)) ((n + 1 : ℕ) - (n : ℚ)) := by
      rw [ed, es, ← mul_assoc, ← cmp_eq_compare, cmp_mul_pos_right hs, cmp_eq_compare]
    have hpar : (c + n) % 2 = n % 2 := by omega
    rw [hcmp, ed, es, mul_div_mul_right _ _ hs.ne', hpar] at hb
    convert hb using 2
    split <;> rfl

end Rounds


/-! ### Magnitudes -/

/-- The length of a number bounds it. -/
theorem lt_two_pow_bitLen (m : ℕ) : m < 2 ^ bitLen m := by
  unfold bitLen
  split
  · simp_all
  · exact Nat.lt_log2_self

theorem two_pow_le_of_bitLen {m : ℕ} (hm : m ≠ 0) : 2 ^ (bitLen m - 1) ≤ m := by
  simpa [bitLen, hm] using Nat.log2_self_le hm

theorem bitLen_pos {m : ℕ} (hm : m ≠ 0) : 0 < bitLen m := by
  simp [bitLen, hm]

/-- A magnitude lies in the binade that its length and exponent name. -/
theorem mag_lt (m : ℕ) (e : ℤ) : (m : ℚ) * 2 ^ e < 2 ^ ((bitLen m : ℤ) + e) := by
  rw [zpow_add₀ two_ne_zero, zpow_natCast]
  have : (m : ℚ) < 2 ^ bitLen m := by exact_mod_cast lt_two_pow_bitLen m
  gcongr

theorem le_mag {m : ℕ} (hm : m ≠ 0) (e : ℤ) : (2 : ℚ) ^ ((bitLen m : ℤ) - 1 + e) ≤ m * 2 ^ e := by
  have h1 : ((bitLen m : ℤ) - 1) = ((bitLen m - 1 : ℕ) : ℤ) := by have := bitLen_pos hm; omega
  rw [zpow_add₀ two_ne_zero, h1, zpow_natCast]
  have : (2 : ℚ) ^ (bitLen m - 1) ≤ m := by exact_mod_cast two_pow_le_of_bitLen hm
  gcongr

/-- A number shifted up by a non-negative difference of exponents. -/
theorem cast_shift (m : ℕ) {a b : ℤ} (h : b ≤ a) : ((m * 2 ^ (a - b).toNat : ℕ) : ℚ) = m * 2 ^ a / 2 ^ b := by
  rw [mul_div_assoc, ← zpow_sub₀ two_ne_zero]
  conv_rhs => rw [← Int.toNat_of_nonneg (sub_nonneg.mpr h)]
  push_cast
  rw [zpow_natCast]

/-! ### Rounding in units (R59) -/

/-- Rounding a quotient of numbers to an integer. -/
theorem rounds_div {rnd : Rnd} {neg : Bool} {draw a b : ℕ} (hb : 0 < b) {x : ℚ} (hx : x = (a : ℚ) / b) (hr : a % b ≠ 0) :
    Rounds (↑) rnd neg draw x
      (if pickUp rnd neg (a / b % 2 == 0) (compare (2 * (a % b)) b) (a % b * 2 ^ 32 / b) draw then a / b + 1 else a / b, true) := by
  have hb' : (0 : ℚ) < b := by exact_mod_cast hb
  have hd : x - ((a / b : ℕ) : ℚ) = ((a % b : ℕ) : ℚ) / b := by
    rw [hx, eq_div_iff hb'.ne', sub_mul, div_mul_cancel₀ _ hb'.ne', sub_eq_iff_eq_add]
    exact_mod_cast (Nat.mod_add_div' a b).symm
  have hpos : (0 : ℚ) < ((a % b : ℕ) : ℚ) / b := div_pos (by exact_mod_cast Nat.pos_of_ne_zero hr) hb'
  have hlt : ((a % b : ℕ) : ℚ) / b < 1 := (div_lt_one hb').mpr (by exact_mod_cast Nat.mod_lt a hb)
  have h := Rounds.between (g := fun n : ℕ => (n : ℚ)) (rnd := rnd) (neg := neg) (draw := draw) (x := x) (a / b) (by linarith) (by push_cast; linarith)
  have hone : ((a / b + 1 : ℕ) : ℚ) - ((a / b : ℕ) : ℚ) = 1 := by push_cast; ring
  have hcmp : compare (2 * (((a % b : ℕ) : ℚ) / b)) 1 = compare (2 * (a % b)) b := by
    rw [← cmp_eq_compare, ← cmp_mul_pos_right hb', mul_assoc, div_mul_cancel₀ _ hb'.ne', one_mul, ← cmp_eq_compare]
    exact_mod_cast (Nat.strictMono_cast (α := ℚ)).cmp_map_eq (2 * (a % b)) b
  have hfr : ⌊((a % b : ℕ) : ℚ) / b * 2 ^ 32⌋₊ = a % b * 2 ^ 32 / b := by
    rw [div_mul_eq_mul_div]
    exact_mod_cast Nat.floor_div_eq_div (K := ℚ) (a % b * 2 ^ 32) b
  rw [hone, hd, div_one, hcmp, hfr] at h
  exact h

/-- Of a fraction too small to matter, rounding sees only that it is there. -/
theorem rounds_tiny {rnd : Rnd} {neg : Bool} {draw : ℕ} {x : ℚ} (h0 : 0 < x) (hx : x * 2 ^ 32 < 1) :
    Rounds (↑) rnd neg draw x (if pickUp rnd neg true .lt 0 draw then 1 else 0, true) := by
  have h := Rounds.between (g := fun n : ℕ => (n : ℚ)) (rnd := rnd) (neg := neg) (draw := draw) (x := x) 0 (by simpa using h0) (by norm_num; linarith)
  have hc : compare (2 * x) 1 = .lt := compare_lt_iff_lt.mpr (by linarith)
  have hf : ⌊x * 2 ^ 32⌋₊ = 0 := Nat.floor_eq_zero.mpr hx
  simpa [hc, hf] using h

/-- `roundUnits` rounds to an integer the magnitude in units. -/
theorem roundUnits_rounds (rnd : Rnd) (neg : Bool) (m : ℕ) (e q : ℤ) (draw : ℕ) :
    Rounds (↑) rnd neg draw ((m : ℚ) * 2 ^ e / 2 ^ q) (roundUnits rnd neg m e q draw) := by
  unfold roundUnits
  by_cases hq : q ≤ e
  · rw [if_pos hq]
    exact .exact _ (cast_shift m hq)
  rw [if_neg hq]
  dsimp only
  have hval : (m : ℚ) * 2 ^ e / 2 ^ q = (m : ℚ) / (2 ^ (q - e).toNat : ℕ) := by
    have h1 := cast_shift 1 (le_of_not_ge hq)
    rw [one_mul] at h1
    rw [h1, Nat.cast_one, one_mul, div_div_eq_mul_div]
  by_cases hm : m = 0
  · subst hm
    simp only [bne_self_eq_false, Bool.and_false, Bool.false_eq_true, if_false, Nat.zero_mod, Nat.zero_div]
    exact .exact 0 (by simp)
  by_cases hf : bitLen m + 40 < (q - e).toNat
  · have hlt : (m : ℚ) * 2 ^ e / 2 ^ q * 2 ^ 32 < 1 := by
      rw [hval, div_mul_eq_mul_div, div_lt_one (by positivity)]
      have : m * 2 ^ 32 < 2 ^ (q - e).toNat :=
        calc m * 2 ^ 32 < 2 ^ bitLen m * 2 ^ 32 := by have := lt_two_pow_bitLen m; gcongr
          _ = 2 ^ (bitLen m + 32) := (pow_add ..).symm
          _ ≤ 2 ^ (q - e).toNat := Nat.pow_le_pow_right (by decide) (by omega)
      exact_mod_cast this
    have h := rounds_tiny (rnd := rnd) (neg := neg) (draw := draw) (x := (m : ℚ) * 2 ^ e / 2 ^ q) (by positivity) hlt
    have hc : compare 2 4398046511104 = Ordering.lt := rfl
    simpa [hf, hm, hc] using h
  · simp only [hf, decide_false, Bool.false_and, Bool.false_eq_true, if_false]
    by_cases hr : m % 2 ^ (q - e).toNat = 0
    · rw [hr]
      refine .exact _ ?_
      rw [hval, Nat.cast_div (Nat.dvd_of_mod_eq_zero hr) (by positivity)]
    · have hr' : (m % 2 ^ (q - e).toNat == 0) = false := by simpa using hr
      simp only [hr', Bool.false_eq_true, if_false]
      exact rounds_div (Nat.two_pow_pos _) hval hr

/-! ### Rounding to an integer -/

/-- `roundInt` rounds the magnitude and keeps the sign. -/
theorem roundInt_rounds (rnd : Rnd) (neg : Bool) (m : ℕ) (e : ℤ) (draw : ℕ) :
    ∃ r, Rounds (↑) rnd neg draw ((m : ℚ) * 2 ^ e) r ∧ roundInt rnd neg m e draw = (if neg then -(r.1 : ℤ) else r.1, r.2) :=
  ⟨roundUnits rnd neg m e 0 draw, by simpa using roundUnits_rounds rnd neg m e 0 draw, rfl⟩

namespace Rounds
variable {rnd : Rnd} {neg : Bool} {draw : ℕ} {x : ℚ} {r : ℕ × Bool}

/-- Between two integers x has the lower as its floor. -/
theorem floor_of_between {n : ℕ} (h1 : (n : ℚ) < x) (h2 : x < (n + 1 : ℕ)) : ⌊x⌋ = n := by
  rw [Int.floor_eq_iff]
  push_cast at h2 ⊢
  exact ⟨h1.le, h2⟩

/-- The integer chosen by a rounding that never goes up. -/
theorem int_floor (h : Rounds (↑) rnd neg draw x r) (hp : ∀ ev hf fr, pickUp rnd neg ev hf fr draw = false) : (r.1 : ℤ) = ⌊x⌋ := by
  cases h with
  | exact k hk => simp [← hk]
  | between n h1 h2 => rw [hp, floor_of_between h1 h2]; rfl

/-- The integer chosen by a rounding that always goes up. -/
theorem int_ceil (h : Rounds (↑) rnd neg draw x r) (hp : ∀ ev hf fr, pickUp rnd neg ev hf fr draw = true) : (r.1 : ℤ) = ⌈x⌉ := by
  cases h with
  | exact k hk => simp [← hk]
  | between n h1 h2 =>
    rw [hp]
    symm
    rw [Int.ceil_eq_iff]
    rw [if_pos rfl]
    push_cast at h2 ⊢
    exact ⟨by simpa using h1, h2.le⟩

/-- The integer chosen by the stochastic rounding. -/
theorem int_stochastic (h : Rounds (↑) .rs neg draw x r) : (r.1 : ℤ) = if (draw : ℤ) < ⌊(x - ⌊x⌋) * 2 ^ 32⌋ then ⌊x⌋ + 1 else ⌊x⌋ := by
  cases h with
  | exact k hk =>
    subst hk
    have : ¬(draw : ℤ) < 0 := by omega
    simp [this]
  | between n h1 h2 =>
    have hn := floor_of_between h1 h2
    have hone : ((n + 1 : ℕ) : ℚ) - n = 1 := by push_cast; ring
    have hfl : ((⌊(x - n) * 2 ^ 32⌋₊ : ℕ) : ℤ) = ⌊(x - n) * 2 ^ 32⌋ := Int.natCast_floor_eq_floor (mul_nonneg (by linarith) (by positivity))
    rw [hn, hone, div_one]
    simp only [pickUp, decide_eq_true_eq, Int.cast_natCast, ← hfl, Nat.cast_lt]
    split <;> simp

/-- Rounding to nearest gives an integer at most a half away, and at a half away an even one, or the one away from zero. -/
theorem int_nearest (h : Rounds (↑) rnd neg draw x r) (hr : rnd = .rne ∨ rnd = .rna) : |(r.1 : ℚ) - x| ≤ 1 / 2 ∧
    (|(r.1 : ℚ) - x| = 1 / 2 → (rnd = .rne → Even r.1) ∧ (rnd = .rna → x < r.1)) := by
  obtain he | ⟨n, h1, h2, hn⟩ := h.half hr
  · have hz : |(r.1 : ℚ) - x| = 0 := by simp [he]
    rw [hz]
    norm_num
  push_cast at h2 hn
  obtain ⟨e, hh, ht⟩ | ⟨e, hh, ht⟩ := hn <;> rw [e]
  · rw [abs_of_nonpos (by linarith)]
    refine ⟨by linarith, fun hx => ?_⟩
    obtain ⟨rfl, hev⟩ := ht (by linarith)
    exact ⟨fun _ => Nat.even_iff.mpr hev, nofun⟩
  · push_cast
    rw [abs_of_nonneg (by linarith)]
    refine ⟨by linarith, fun hx => ⟨fun hne => ?_, fun _ => h2⟩⟩
    obtain rfl | hodd := ht (by linarith)
    · exact absurd hne (by decide)
    · exact Nat.even_iff.mpr (by omega)

end Rounds

end Sys2Proof.Machine
end

section
/-!
SUPPORT. Rounding to an integer with a sign (R59).
-/
namespace Sys2Proof.Claims
open Sys2Proof.Machine

/-- A number with a sign. -/
def signed (neg : Bool) (x : ℚ) : ℚ := if neg then -x else x

theorem ratOf_eq (neg : Bool) (m : ℕ) (e : ℤ) : ratOf neg m e = signed neg (m * 2 ^ e) := by
  cases neg <;> simp [ratOf, signed]

theorem abs_signed (neg : Bool) {x : ℚ} (hx : 0 ≤ x) : |signed neg x| = x := by
  cases neg <;> simp [signed, abs_of_nonneg hx]

theorem signed_sub (neg : Bool) (x y : ℚ) : signed neg x - signed neg y = signed neg (x - y) := by
  cases neg
  · rfl
  · simp only [signed, if_true]; ring

theorem abs_signed_sub (neg : Bool) (x y : ℚ) : |signed neg x - signed neg y| = |x - y| := by
  rw [signed_sub]
  cases neg <;> simp [signed, abs_sub_comm]

theorem signed_inj (neg : Bool) {x y : ℚ} : signed neg x = signed neg y ↔ x = y := by
  cases neg <;> simp [signed]

theorem cast_ite_neg (neg : Bool) (k : ℕ) : (((if neg then -(k : ℤ) else k : ℤ)) : ℚ) = signed neg k := by
  cases neg <;> simp [signed]

/-- R59 with V the integers. -/
theorem roundInt_spec (neg : Bool) (m : ℕ) (e : ℤ) (draw : ℕ) :
    let v := ratOf neg m e
    (∀ rnd, ((roundInt rnd neg m e draw).2 = true ↔ ((roundInt rnd neg m e draw).1 : ℚ) ≠ v)) ∧
    (roundInt .rmi neg m e draw).1 = ⌊v⌋ ∧ (roundInt .rpi neg m e draw).1 = ⌈v⌉ ∧
    (roundInt .rtz neg m e draw).1 = (if neg then ⌈v⌉ else ⌊v⌋) ∧
    |((roundInt .rne neg m e draw).1 : ℚ) - v| ≤ 1 / 2 ∧
    (|((roundInt .rne neg m e draw).1 : ℚ) - v| = 1 / 2 → Even (roundInt .rne neg m e draw).1) ∧
    |((roundInt .rna neg m e draw).1 : ℚ) - v| ≤ 1 / 2 ∧
    (|((roundInt .rna neg m e draw).1 : ℚ) - v| = 1 / 2 → |v| < |((roundInt .rna neg m e draw).1 : ℚ)|) ∧
    (roundInt .rs neg m e draw).1 =
      (if (draw : ℤ) < ⌊(|v| - ⌊|v|⌋) * 2 ^ 32⌋ then (if neg then -(⌊|v|⌋ + 1) else ⌊|v|⌋ + 1) else (if neg then ⌈v⌉ else ⌊v⌋)) := by
  intro v
  have hx : (0 : ℚ) ≤ m * 2 ^ e := by positivity
  have hv : v = signed neg (m * 2 ^ e) := ratOf_eq ..
  have habs : |v| = m * 2 ^ e := by rw [hv, abs_signed neg hx]
  have key := fun rnd => roundInt_rounds rnd neg m e draw
  refine ⟨fun rnd => ?_, ?_, ?_, ?_, ?_, ?_, ?_, ?_, ?_⟩
  · obtain ⟨r, hr, he⟩ := key rnd
    rw [he, cast_ite_neg, hv, ne_eq, signed_inj]
    exact hr.flag
  · obtain ⟨r, hr, he⟩ := key .rmi
    rw [he, hv]
    cases neg
    · exact hr.int_floor (fun _ _ _ => rfl)
    · simp [signed, Int.floor_neg, ← hr.int_ceil (fun _ _ _ => rfl)]
  · obtain ⟨r, hr, he⟩ := key .rpi
    rw [he, hv]
    cases neg
    · exact hr.int_ceil (fun _ _ _ => rfl)
    · simp [signed, Int.ceil_neg, ← hr.int_floor (fun _ _ _ => rfl)]
  · obtain ⟨r, hr, he⟩ := key .rtz
    rw [he, hv]
    cases neg <;> simp [signed, Int.ceil_neg, ← hr.int_floor (fun _ _ _ => rfl)]
  · obtain ⟨r, hr, he⟩ := key .rne
    rw [he, cast_ite_neg, hv, abs_signed_sub]
    exact (hr.int_nearest (.inl rfl)).1
  · obtain ⟨r, hr, he⟩ := key .rne
    rw [he, cast_ite_neg, hv, abs_signed_sub]
    intro h
    have hev := ((hr.int_nearest (.inl rfl)).2 h).1 rfl
    cases neg <;> simpa using hev
  · obtain ⟨r, hr, he⟩ := key .rna
    rw [he, cast_ite_neg, hv, abs_signed_sub]
    exact (hr.int_nearest (.inr rfl)).1
  · obtain ⟨r, hr, he⟩ := key .rna
    rw [he, habs, cast_ite_neg, hv, abs_signed_sub, abs_signed _ (Nat.cast_nonneg _)]
    exact fun h => ((hr.int_nearest (.inr rfl)).2 h).2 rfl
  · obtain ⟨r, hr, he⟩ := key .rs
    rw [he, habs, hv, hr.int_stochastic]
    cases neg
    · simp only [signed, Bool.false_eq_true, if_false]
    · simp only [signed, if_true, Int.ceil_neg]
      split <;> rfl

end Sys2Proof.Claims
end

section
/-!
SUPPORT. The magnitudes of a format's codes as one rising sequence, continued without bound (R53, R55, R57).
-/
namespace Sys2Proof.Machine

/-! ### The values of a format's codes (R53, R55, R57) -/

/-- The magnitude of number k of a binary format's pattern, continued without bound. -/
def binMag (mb bias k : ℕ) : ℚ :=
  if k < 2 ^ mb then k * 2 ^ (1 - (bias : ℤ) - mb) else ((2 ^ mb + k % 2 ^ mb : ℕ) : ℚ) * 2 ^ ((k / 2 ^ mb : ℕ) - (bias : ℤ) - mb)

/-- The magnitude of number k of LN6, continued without bound. -/
def lnMag (k : ℕ) : ℚ := if k = 0 then 0 else (lnVal k).1 * 2 ^ (lnVal k).2

/-- The magnitude of number k of a format's pattern. -/
def codeMag (f : FType) (k : ℕ) : ℚ := if f = .ln6 then lnMag k else binMag (fmtParams f).1 (fmtParams f).2.2 k

section
variable {mb bias : ℕ}

/-- In the binade of exponent E, and below the normal numbers in that of 1, the numbers rise by one unit; the last is the first of the next binade. -/
theorem binMag_units {E n : ℕ} (hE : 1 ≤ E) (hn : n ≤ 2 ^ (mb + 1)) (hlow : E = 1 ∨ 2 ^ mb ≤ n) :
    binMag mb bias ((E - 1) * 2 ^ mb + n) = n * 2 ^ ((E : ℤ) - bias - mb) := by
  have hp : 0 < 2 ^ mb := Nat.two_pow_pos mb
  rw [pow_succ] at hn
  by_cases h : n < 2 ^ mb
  · obtain rfl : E = 1 := by omega
    simp [binMag, h]
  obtain ⟨j, rfl⟩ := Nat.exists_eq_add_of_le (not_lt.mp h)
  obtain ⟨E, rfl⟩ := Nat.exists_eq_add_of_le' hE
  have hi : (E + 1 - 1) * 2 ^ mb + (2 ^ mb + j) = j + 2 ^ mb * (E + 1) := by rw [Nat.add_sub_cancel]; ring
  have hge : ¬j + 2 ^ mb * (E + 1) < 2 ^ mb := by have := Nat.le_mul_of_pos_right (2 ^ mb) (Nat.succ_pos E); omega
  rw [binMag, hi, if_neg hge, Nat.add_mul_mod_self_left, Nat.add_mul_div_left _ _ hp]
  obtain hj | rfl : j < 2 ^ mb ∨ j = 2 ^ mb := by omega
  · rw [Nat.mod_eq_of_lt hj, Nat.div_eq_of_lt hj, Nat.zero_add]
  · rw [Nat.mod_self, Nat.div_self hp, show (((1 + (E + 1) : ℕ) : ℤ) - bias - mb) = 1 + (((E + 1 : ℕ) : ℤ) - bias - mb) by push_cast; ring,
      zpow_add₀ two_ne_zero]
    push_cast
    ring

/-- Every number lies in a binade. -/
theorem exists_binade (mb k : ℕ) : ∃ E n, 1 ≤ E ∧ n < 2 ^ (mb + 1) ∧ (E = 1 ∨ 2 ^ mb ≤ n) ∧ k = (E - 1) * 2 ^ mb + n := by
  have hp : 0 < 2 ^ mb := Nat.two_pow_pos mb
  by_cases h : k < 2 ^ mb
  · exact ⟨1, k, le_rfl, by rw [pow_succ]; omega, .inl rfl, by simp⟩
  · have hd : 1 ≤ k / 2 ^ mb := (Nat.one_le_div_iff hp).mpr (not_lt.mp h)
    refine ⟨k / 2 ^ mb, 2 ^ mb + k % 2 ^ mb, hd, by have := Nat.mod_lt k hp; rw [pow_succ]; omega, .inr (Nat.le_add_right ..), ?_⟩
    have := Nat.div_add_mod' k (2 ^ mb)
    rw [Nat.sub_mul, one_mul]
    have := Nat.le_mul_of_pos_left (2 ^ mb) hd
    omega

theorem binMag_strictMono : StrictMono (binMag mb bias) := by
  refine strictMono_nat_of_lt_succ fun k => ?_
  obtain ⟨E, n, hE, hn, hlow, rfl⟩ := exists_binade mb k
  rw [Nat.add_assoc, binMag_units hE hn.le hlow, binMag_units hE hn (hlow.imp_right (Nat.le_succ_of_le ·))]
  have : (n : ℚ) < (n + 1 : ℕ) := by exact_mod_cast Nat.lt_succ_self n
  gcongr

/-- A power of two of the pattern. -/
theorem binMag_pow {E : ℕ} (hE : 1 ≤ E) : binMag mb bias (E * 2 ^ mb) = 2 ^ ((E : ℤ) - bias) := by
  have h := binMag_units (bias := bias) (n := 2 ^ mb) hE (Nat.pow_le_pow_right (by decide) (Nat.le_succ mb)) (.inr le_rfl)
  rw [← Nat.succ_mul, Nat.succ_eq_add_one, Nat.sub_add_cancel hE] at h
  rw [h, show ((E : ℤ) - bias) = mb + ((E : ℤ) - bias - mb) by ring, zpow_add₀ two_ne_zero, zpow_natCast]
  push_cast
  ring_nf

end

/-- A number of LN6 by its group of four. -/
theorem lnVal_group (j i : ℕ) (hi : i < 4) : lnVal (4 * j + i) = (lnt i, (j : ℤ) - 28) := by
  simp only [lnVal]
  rw [show (4 * j + i) % 4 = i by omega, show (4 * j + i) / 4 = j by omega]

theorem lnMag_group {j i : ℕ} (hi : i < 4) (h : 4 * j + i ≠ 0) : lnMag (4 * j + i) = lnt i * 2 ^ ((j : ℤ) - 28) := by
  rw [lnMag, if_neg h, lnVal_group j i hi]

/-- The first of a group is a power of two. -/
theorem lnMag_pow {j : ℕ} (h : j ≠ 0) : lnMag (4 * j) = 2 ^ ((j : ℤ) - 4) := by
  have := lnMag_group (j := j) (i := 0) (by decide) (by omega)
  rw [Nat.add_zero] at this
  rw [this, show ((j : ℤ) - 4) = 24 + ((j : ℤ) - 28) by ring, zpow_add₀ two_ne_zero]
  norm_num [lnt]

theorem lnMag_strictMono : StrictMono lnMag := by
  refine strictMono_nat_of_lt_succ fun k => ?_
  obtain rfl | hk := eq_or_ne k 0
  · have := lnMag_group (j := 0) (i := 1) (by decide) (by decide)
    rw [show 0 + 1 = 4 * 0 + 1 from rfl, this]
    norm_num [lnMag, lnt]
  obtain ⟨j, i, hi, rfl⟩ : ∃ j i, i < 4 ∧ k = 4 * j + i := ⟨k / 4, k % 4, Nat.mod_lt _ (by decide), (Nat.div_add_mod k 4).symm⟩
  have hp : (0 : ℚ) < 2 ^ ((j : ℤ) - 28) := by positivity
  rw [lnMag_group hi hk]
  obtain hlt | rfl : i < 3 ∨ i = 3 := by omega
  · rw [Nat.add_assoc, lnMag_group (i := i + 1) (by omega) (by omega)]
    have : lnt i < lnt (i + 1) := by interval_cases i <;> decide
    gcongr
  · rw [show 4 * j + 3 + 1 = 4 * (j + 1) + 0 by ring, lnMag_group (by decide) (by omega),
      show ((j + 1 : ℕ) : ℤ) - 28 = 1 + ((j : ℤ) - 28) by push_cast; ring, zpow_add₀ two_ne_zero]
    norm_num [lnt]
    linarith

theorem codeMag_ln6 : codeMag .ln6 = lnMag := funext fun _ => if_pos rfl
theorem codeMag_bin {f : FType} (h : f ≠ .ln6) : codeMag f = binMag (fmtParams f).1 (fmtParams f).2.2 := funext fun _ => if_neg h

theorem codeMag_strictMono (f : FType) : StrictMono (codeMag f) := by
  obtain rfl | h := eq_or_ne f .ln6
  · exact codeMag_ln6 ▸ lnMag_strictMono
  · exact codeMag_bin h ▸ binMag_strictMono

@[simp] theorem codeMag_zero (f : FType) : codeMag f 0 = 0 := by
  by_cases h : f = .ln6 <;> simp [codeMag, h, lnMag, binMag]

theorem codeMag_nonneg (f : FType) (k : ℕ) : 0 ≤ codeMag f k := by
  rw [← codeMag_zero f]
  exact (codeMag_strictMono f).monotone (Nat.zero_le k)

end Sys2Proof.Machine
end

section
/-!
SUPPORT. Codes and their finite values, and the tables of R57 and R60.
-/
namespace Sys2Proof.Claims
open Sys2Proof.Machine

/-! ### Codes -/

/-- Mantissa and exponent bits and bias, but for the reading, decide the value of a binary code. -/
theorem fvalue_bin {f : FType} (h : f ≠ .ln6) (rd : Reading) (c : ℕ) : fvalue f rd c =
    let mb := (fmtParams f).1
    let eb := (fmtParams f).2.1
    let bias := (fmtParams f).2.2
    let rd := if wideF f then .ieee else rd
    let s := bit c (mb + eb)
    let ex := c / 2 ^ mb % 2 ^ eb
    let man := c % 2 ^ mb
    if rd == .ieee && ex == 2 ^ eb - 1 then (if man == 0 then .inf s else .nan (wideF f && !bit man (mb - 1)))
    else if rd == .nan && s && ex == 0 && man == 0 then .nan false
    else if ex == 0 then .num s man (1 - (bias : Int) - mb)
    else .num s (2 ^ mb + man) ((ex : Int) - bias - mb) := by
  cases f
  case ln6 => exact absurd rfl h
  all_goals rfl

/-- The parts of a code: its sign above the number of its magnitude. -/
theorem code_parts {mb eb : ℕ} (neg : Bool) {k : ℕ} (hk : k < 2 ^ (mb + eb)) :
    let c := (if neg then 2 ^ (mb + eb) else 0) + k
    bit c (mb + eb) = neg ∧ c / 2 ^ mb % 2 ^ eb = k / 2 ^ mb ∧ c % 2 ^ mb = k % 2 ^ mb := by
  have hp : 0 < 2 ^ mb := Nat.two_pow_pos mb
  have hd : k / 2 ^ mb < 2 ^ eb := by rw [Nat.div_lt_iff_lt_mul hp, ← pow_add, add_comm]; exact hk
  cases neg
  · simp [bit, Nat.div_eq_of_lt hk, Nat.mod_eq_of_lt hd]
  · refine ⟨?_, ?_, ?_⟩
    · simp only [bit, if_true]
      rw [Nat.add_div_left _ (Nat.two_pow_pos _), Nat.div_eq_of_lt hk]
      rfl
    · simp only [if_true, pow_add, Nat.mul_add_div hp, Nat.add_mod_left, Nat.mod_eq_of_lt hd]
    · simp only [if_true, pow_add, Nat.mul_add_mod]

/-- The magnitude that exponent and mantissa of a number of the pattern stand for. -/
theorem binMag_fields (mb bias k : ℕ) : binMag mb bias k =
    if k / 2 ^ mb = 0 then ((k % 2 ^ mb : ℕ) : ℚ) * 2 ^ (1 - (bias : ℤ) - mb) else ((2 ^ mb + k % 2 ^ mb : ℕ) : ℚ) * 2 ^ ((k / 2 ^ mb : ℕ) - (bias : ℤ) - mb) := by
  unfold binMag
  by_cases h : k < 2 ^ mb
  · simp [h, Nat.div_eq_of_lt h, Nat.mod_eq_of_lt h]
  · have : k / 2 ^ mb ≠ 0 := by rw [ne_eq, Nat.div_eq_zero_iff_lt (Nat.two_pow_pos mb)]; exact h
    simp [h, this]

/-- Whether a code is one of a number in a reading: not above the largest finite, and no −0 that is a NaN. -/
def isNumber (f : FType) (rd : Reading) (neg : Bool) (k : ℕ) : Prop := k ≤ maxCode f rd ∧ (k = 0 → neg = true → hasNegZero f rd = true)

/-- A code is above the largest finite exactly where the reading has infinities and the exponent is the greatest. -/
theorem le_maxCode_iff {f : FType} (rd : Reading) {k : ℕ} (hk : k < 2 ^ (fmtBits f - 1)) :
    k ≤ maxCode f rd ↔ ¬(hasInf f rd = true ∧ k / 2 ^ (fmtParams f).1 = 2 ^ (fmtParams f).2.1 - 1) := by
  have hm : maxCode f rd = if hasInf f rd then (2 ^ (fmtParams f).2.1 - 1) * 2 ^ (fmtParams f).1 - 1 else 2 ^ (fmtBits f - 1) - 1 := by
    cases f <;> rfl
  have hp : 0 < 2 ^ (fmtParams f).1 := Nat.two_pow_pos _
  have he : 1 ≤ 2 ^ (fmtParams f).2.1 - 1 := by cases f <;> decide
  rw [show fmtBits f - 1 = (fmtParams f).2.1 + (fmtParams f).1 by simp only [fmtBits]; omega, pow_add] at hk hm
  have hd : k / 2 ^ (fmtParams f).1 < 2 ^ (fmtParams f).2.1 := (Nat.div_lt_iff_lt_mul hp).mpr hk
  rw [hm]
  split
  · have := Nat.mul_pos he hp
    rw [Nat.le_sub_one_iff_lt this, ← Nat.div_lt_iff_lt_mul hp]
    simp_all
    omega
  · simp_all
    omega

theorem hasInf_iff (f : FType) (rd : Reading) : hasInf f rd = true ↔ (if wideF f then Reading.ieee else rd) = .ieee := by
  cases h : wideF f <;> simp [hasInf, h]

/-- The finite value of a binary code with its sign and number. -/
theorem finite_bin {f : FType} (h : f ≠ .ln6) (rd : Reading) (neg : Bool) {k : ℕ} (hk : k < 2 ^ (fmtBits f - 1)) :
    (isNumber f rd neg k → finite f rd (signBit f neg + k) = some (signed neg (codeMag f k))) ∧
    (¬isNumber f rd neg k → finite f rd (signBit f neg + k) = none) := by
  have hb : fmtBits f - 1 = (fmtParams f).1 + (fmtParams f).2.1 := by simp only [fmtBits]; omega
  obtain ⟨h1, h2, h3⟩ := code_parts (mb := (fmtParams f).1) (eb := (fmtParams f).2.1) neg (hb ▸ hk)
  have hz : hasNegZero f rd = true ↔ (if wideF f then Reading.ieee else rd) ≠ .nan := by
    cases hw : wideF f <;> cases rd <;> simp [hasNegZero, hw, h]
  have hk0 : k = 0 ↔ k / 2 ^ (fmtParams f).1 = 0 ∧ k % 2 ^ (fmtParams f).1 = 0 :=
    ⟨fun e => by simp [e], fun e => by have := Nat.div_add_mod k (2 ^ (fmtParams f).1); rw [e.1, e.2] at this; simpa using this.symm⟩
  have hmag : codeMag f k = _ := (congrFun (codeMag_bin h) k).trans (binMag_fields ..)
  rw [finite, fvalue_bin h, signBit, hb, isNumber, le_maxCode_iff rd hk, hasInf_iff, hz, hk0, hmag]
  dsimp only
  rw [h1, h2, h3]
  generalize (if wideF f then Reading.ieee else rd) = rd'
  by_cases hi : rd' = .ieee ∧ k / 2 ^ (fmtParams f).1 = 2 ^ (fmtParams f).2.1 - 1
  · refine ⟨fun hn => absurd hi hn.1, fun _ => ?_⟩
    simp only [hi.1, hi.2, beq_self_eq_true, Bool.and_self, if_true]
    split_ifs <;> rfl
  have hi' : (rd' == .ieee && k / 2 ^ (fmtParams f).1 == 2 ^ (fmtParams f).2.1 - 1) = false := by
    simpa only [Bool.and_eq_false_iff, beq_eq_false_iff_ne, ne_eq, not_and_or] using hi
  by_cases hn : rd' = .nan ∧ neg = true ∧ k / 2 ^ (fmtParams f).1 = 0 ∧ k % 2 ^ (fmtParams f).1 = 0
  · obtain ⟨rfl, rfl, e1, e2⟩ := hn
    simp [e1, e2]
  have hn' : (rd' == .nan && neg && k / 2 ^ (fmtParams f).1 == 0 && k % 2 ^ (fmtParams f).1 == 0) = false := by
    simpa [not_and] using hn
  simp only [hi', hn', Bool.false_eq_true, if_false, beq_iff_eq]
  refine ⟨fun _ => ?_, fun hnn => absurd ⟨hi, fun he hs hd => hn ⟨hd, hs, he⟩⟩ hnn⟩
  split_ifs <;> simp only [ratOf_eq]

/-- The finite value of an LN6 code with its sign and number. -/
theorem finite_ln6 (rd : Reading) (neg : Bool) {k : ℕ} (hk : k < 32) :
    (isNumber .ln6 rd neg k → finite .ln6 rd (signBit .ln6 neg + k) = some (signed neg (codeMag .ln6 k))) ∧
    (¬isNumber .ln6 rd neg k → finite .ln6 rd (signBit .ln6 neg + k) = none) := by
  obtain ⟨h1, -, h3⟩ := code_parts (mb := 5) (eb := 0) neg hk
  rw [finite, fvalue, signBit, show fmtBits .ln6 - 1 = 5 from rfl, isNumber, codeMag_ln6, lnMag]
  simp only [Nat.add_zero] at h1 h3
  rw [h1, show (32 : ℕ) = 2 ^ 5 from rfl, h3, Nat.mod_eq_of_lt (show k < 2 ^ 5 from hk)]
  by_cases hk0 : k = 0
  · subst hk0
    cases neg <;> cases rd <;> simp [hasNegZero, wideF, ratOf_eq, maxCode, signed]
  · by_cases hi : k = 31 ∧ rd = .ieee
    · obtain ⟨rfl, rfl⟩ := hi
      simp [maxCode]
    · have hle : k ≤ maxCode .ln6 rd := by
        simp only [maxCode, beq_iff_eq]
        split_ifs with hr
        · have : k ≠ 31 := fun e => hi ⟨e, hr⟩
          omega
        · omega
      simp [hk0, hi, hle, ratOf_eq]

/-- The finite value of a code with its sign and number. -/
theorem finite_code (f : FType) (rd : Reading) (neg : Bool) {k : ℕ} (hk : k < 2 ^ (fmtBits f - 1)) :
    (isNumber f rd neg k → finite f rd (signBit f neg + k) = some (signed neg (codeMag f k))) ∧
    (¬isNumber f rd neg k → finite f rd (signBit f neg + k) = none) := by
  obtain rfl | h := eq_or_ne f .ln6
  · exact finite_ln6 rd neg hk
  · exact finite_bin h rd neg hk

theorem maxCode_lt (f : FType) (rd : Reading) : maxCode f rd < 2 ^ (fmtBits f - 1) := by
  cases f <;> cases rd <;> decide

/-- A finite code is a sign and a magnitude at most the largest finite. -/
theorem finite_eq_some {f : FType} {rd : Reading} {c : ℕ} {u : ℚ} (hc : c < 2 ^ fmtBits f) (h : finite f rd c = some u) :
    ∃ neg k, k ≤ maxCode f rd ∧ u = signed neg (codeMag f k) := by
  have hp := Nat.two_pow_pos (fmtBits f - 1)
  have hb : 2 ^ fmtBits f = 2 ^ (fmtBits f - 1) * 2 := by rw [← pow_succ]; cases f <;> rfl
  have hk : c % 2 ^ (fmtBits f - 1) < 2 ^ (fmtBits f - 1) := Nat.mod_lt _ hp
  have hs : c = signBit f (decide (2 ^ (fmtBits f - 1) ≤ c)) + c % 2 ^ (fmtBits f - 1) := by
    unfold signBit
    by_cases hge : 2 ^ (fmtBits f - 1) ≤ c
    · rw [decide_eq_true hge, if_pos rfl, Nat.mod_eq_sub_mod hge, Nat.mod_eq_of_lt (by omega)]
      omega
    · simp [hge, Nat.mod_eq_of_lt (not_le.mp hge)]
  obtain ⟨h1, h2⟩ := finite_code f rd (decide (2 ^ (fmtBits f - 1) ≤ c)) hk
  rw [← hs, h] at h1 h2
  by_cases hn : isNumber f rd (decide (2 ^ (fmtBits f - 1) ≤ c)) (c % 2 ^ (fmtBits f - 1))
  · exact ⟨_, _, hn.1, Option.some.inj (h1 hn)⟩
  · exact absurd (h2 hn) nofun

/-- A code of a magnitude at most the largest finite, and not of a zero, has its value. -/
theorem finite_coded {f : FType} {rd : Reading} (neg : Bool) {k : ℕ} (hk : k ≤ maxCode f rd) (h0 : k ≠ 0) :
    finite f rd (signBit f neg + k) = some (signed neg (codeMag f k)) :=
  (finite_code f rd neg (hk.trans_lt (maxCode_lt f rd))).1 ⟨hk, fun e => absurd e h0⟩

theorem finite_zeroCode (f : FType) (rd : Reading) (neg : Bool) : finite f rd (zeroCode f rd neg) = some 0 := by
  have key : ∀ n, (n = true → hasNegZero f rd = true) → finite f rd (signBit f n) = some 0 := fun n hn => by
    have := (finite_code f rd n (Nat.two_pow_pos _)).1 ⟨Nat.zero_le _, fun _ => hn⟩
    rw [Nat.add_zero, codeMag_zero] at this
    cases n <;> simpa [signed] using this
  unfold zeroCode
  split_ifs with h
  · exact key true fun _ => by simp_all
  · exact key false nofun

/-! ### The tables (R57, R60) -/

theorem topCode_eq {f : FType} (hf : f ≠ .fmt) (rd : Reading) : topCode f rd = maxCode f rd := by
  cases f
  case fmt => exact absurd rfl hf
  all_goals cases rd <;> rfl

theorem nanCode_eq {f : FType} (hf : f ≠ .fmt) (rd : Reading) : nanCode f rd = nanResult f rd := by
  cases f
  case fmt => exact absurd rfl hf
  all_goals cases rd <;> rfl

theorem finite_topCode {f : FType} (hf : f ≠ .fmt) (rd : Reading) : finite f rd (topCode f rd) = some (codeMag f (maxCode f rd)) := by
  have := finite_coded (f := f) (rd := rd) false le_rfl (by cases f <;> cases rd <;> decide)
  rw [topCode_eq hf]
  simpa [signBit, signed] using this

theorem withSign_eq (f : FType) (neg : Bool) (c : ℕ) : withSign f neg c = signBit f neg + c := Nat.add_comm ..

/-- The rows of R60 by the kind of the reading. -/
theorem readsAs_cases (f : FType) (rd : Reading) : (readsAs f rd = .finite ∧ hasInf f rd = false ∧ hasNan f rd = false) ∨
    (readsAs f rd = .nan ∧ hasInf f rd = false ∧ hasNan f rd = true) ∨ (readsAs f rd = .ieee ∧ hasInf f rd = true ∧ hasNan f rd = true) := by
  cases f <;> cases rd <;> decide

theorem infCode_eq {f : FType} (hf : f ≠ .fmt) : infCode f = infinityCode f := by
  cases f
  case fmt => exact absurd rfl hf
  all_goals rfl

theorem overCode_above {f : FType} (hf : f ≠ .fmt) (rd : Reading) (rnd : Rnd) (sat neg : Bool) : overCode f rd rnd sat neg false = aboveRow f rd rnd sat neg := by
  unfold overCode aboveRow
  rw [topCode_eq hf, withSign_eq, withSign_eq, ← infCode_eq hf, nanCode_eq hf]
  obtain ⟨h1, h2, h3⟩ | ⟨h1, h2, h3⟩ | ⟨h1, h2, h3⟩ := readsAs_cases f rd
  · simp [h1, h2, h3]
  · simp [h1, h2, h3]
  · cases sat <;> cases rnd <;> cases neg <;> simp [h1, h2]

theorem overCode_inf {f : FType} (hf : f ≠ .fmt) (rd : Reading) (rnd : Rnd) (sat neg : Bool) : overCode f rd rnd sat neg true = infRow f rd sat neg := by
  unfold overCode infRow
  rw [topCode_eq hf, withSign_eq, withSign_eq, ← infCode_eq hf, nanCode_eq hf]
  obtain ⟨h1, h2, h3⟩ | ⟨h1, h2, h3⟩ | ⟨h1, h2, h3⟩ := readsAs_cases f rd <;> simp [h1, h2, h3]

end Sys2Proof.Claims
end

section
/-!
SUPPORT. Rounding to a format chooses between the neighbours in the sequence of its magnitudes (R55, R59, R60).
-/
namespace Sys2Proof.Claims
open Sys2Proof.Machine

/-! ### Rounding to a format (R59, R60) -/

/-- The code and the flags of a rounded magnitude: above the largest finite, a zero, or a code with its sign. -/
def coded (f : FType) (rd : Reading) (rnd : Rnd) (sat neg : Bool) (r : ℕ × Bool) : ℕ × ℕ :=
  if r.1 > maxCode f rd then overCode f rd rnd sat neg false
  else if r.1 == 0 then (zeroCode f rd neg, fINX) else (signBit f neg + r.1, if r.2 then fINX else 0)

/-- What rounding a number to a format gives: the table's result far above the largest finite, and else the code of the value chosen among those of
the format's pattern. -/
def RoundsF (f : FType) (rd : Reading) (rnd : Rnd) (sat neg : Bool) (draw : ℕ) (x : ℚ) (out : ℕ × ℕ) : Prop :=
  (codeMag f (maxCode f rd + 1) ≤ x ∧ out = overCode f rd rnd sat neg false) ∨
  ∃ r, Rounds (codeMag f) rnd neg draw x r ∧ out = coded f rd rnd sat neg r

/-- The code of a binary format that `roundF` makes of k units of exponent q. -/
def unitCode (mb bias k : ℕ) (q : ℤ) : ℕ :=
  if k == 0 then 0
  else if q == 1 - (bias : ℤ) - mb && decide (k < 2 ^ mb) then k
  else if k == 2 ^ (mb + 1) then ((q + mb + 1 + bias) * 2 ^ mb).toNat
  else ((q + mb + bias) * 2 ^ mb).toNat + (k - 2 ^ mb)

theorem unitCode_eq {mb bias k E : ℕ} (hE : 1 ≤ E) (hk : k ≤ 2 ^ (mb + 1)) (hlow : E = 1 ∨ 2 ^ mb ≤ k) :
    unitCode mb bias k ((E : ℤ) - bias - mb) = (E - 1) * 2 ^ mb + k := by
  have hp : 0 < 2 ^ mb := Nat.two_pow_pos mb
  obtain ⟨E, rfl⟩ := Nat.exists_eq_add_of_le' hE
  have h1 : ((((E + 1 : ℕ) : ℤ) - bias - mb + mb + 1 + bias) * 2 ^ mb).toNat = (E + 2) * 2 ^ mb := by
    rw [show (((E + 1 : ℕ) : ℤ) - bias - mb + mb + 1 + bias) * 2 ^ mb = (((E + 2) * 2 ^ mb : ℕ) : ℤ) by push_cast; ring, Int.toNat_natCast]
  have h2 : ((((E + 1 : ℕ) : ℤ) - bias - mb + mb + bias) * 2 ^ mb).toNat = (E + 1) * 2 ^ mb := by
    rw [show (((E + 1 : ℕ) : ℤ) - bias - mb + mb + bias) * 2 ^ mb = (((E + 1) * 2 ^ mb : ℕ) : ℤ) by push_cast; ring, Int.toNat_natCast]
  rw [unitCode, h1, h2, Nat.add_sub_cancel]
  have hq : ((E + 1 : ℕ) : ℤ) - bias - mb = 1 - (bias : ℤ) - mb ↔ E = 0 := by push_cast; omega
  simp only [beq_iff_eq, Bool.and_eq_true, decide_eq_true_eq, hq]
  have e1 : (E + 2) * 2 ^ mb = E * 2 ^ mb + 2 ^ (mb + 1) := by ring
  have e2 : (E + 1) * 2 ^ mb = E * 2 ^ mb + 2 ^ mb := by ring
  split_ifs with c1 c2 c3
  · obtain rfl : E = 0 := by omega
    omega
  · simp [c2.1]
  · rw [e1, c3]
  · rw [e2]
    omega

/-- Rounding a number to a binary format. -/
theorem roundF_bin {f : FType} (h : f ≠ .ln6) (rd : Reading) (rnd : Rnd) (sat neg : Bool) (draw m : ℕ) (e : ℤ) :
    roundF f rd rnd sat draw (.num neg m e) =
      let mb := (fmtParams f).1
      let bias := (fmtParams f).2.2
      let ex := (bitLen m : ℤ) - 1 + e
      let q := (if ex < 1 - (bias : ℤ) then 1 - (bias : ℤ) else ex) - mb
      let r := roundUnits rnd neg m e q draw
      if m == 0 then (zeroCode f rd neg, 0)
      else if ex > 2 ^ (fmtParams f).2.1 then overCode f rd rnd sat neg false else coded f rd rnd sat neg (unitCode mb bias r.1 q, r.2) := by
  cases f
  case ln6 => exact absurd rfl h
  all_goals rfl

/-- The step beyond the largest finite lies below the exponents that are above every reading's range. -/
theorem binMag_maxCode_succ_le (f : FType) (rd : Reading) :
    binMag (fmtParams f).1 (fmtParams f).2.2 (maxCode f rd + 1) ≤ 2 ^ ((2 : ℤ) ^ (fmtParams f).2.1) := by
  have hE : ∃ E, 1 ≤ E ∧ E ≤ 2 ^ (fmtParams f).2.1 ∧ maxCode f rd + 1 = E * 2 ^ (fmtParams f).1 := by
    cases h : hasInf f rd
    · refine ⟨2 ^ (fmtParams f).2.1, Nat.one_le_two_pow, le_rfl, ?_⟩
      revert h
      cases f <;> cases rd <;> decide
    · refine ⟨2 ^ (fmtParams f).2.1 - 1, by cases f <;> decide, Nat.sub_le .., ?_⟩
      revert h
      cases f <;> cases rd <;> decide
  obtain ⟨E, h1, h2, h3⟩ := hE
  rw [h3, binMag_pow h1]
  refine zpow_le_zpow_right₀ one_le_two ?_
  have : (E : ℤ) ≤ 2 ^ (fmtParams f).2.1 := by exact_mod_cast h2
  omega

theorem roundsF_bin {f : FType} (h : f ≠ .ln6) (rd : Reading) (rnd : Rnd) (sat neg : Bool) (draw : ℕ) {m : ℕ} (hm : m ≠ 0) (e : ℤ) :
    RoundsF f rd rnd sat neg draw (m * 2 ^ e) (roundF f rd rnd sat draw (.num neg m e)) := by
  have hm' : ¬(m == 0) = true := by simpa using hm
  rw [roundF_bin h rd rnd sat neg draw m e]
  have hmb : 1 ≤ (fmtParams f).1 := by
    cases f
    case ln6 => exact absurd rfl h
    all_goals decide
  have hlo := le_mag hm e
  have hhi := mag_lt m e
  dsimp only
  rw [if_neg hm']
  by_cases hbig : (bitLen m : ℤ) - 1 + e > 2 ^ (fmtParams f).2.1
  · refine .inl ⟨?_, if_pos hbig⟩
    rw [codeMag_bin h]
    exact ((binMag_maxCode_succ_le f rd).trans (zpow_le_zpow_right₀ one_le_two hbig.le)).trans hlo
  refine .inr ?_
  rw [if_neg hbig]
  set ex : ℤ := (bitLen m : ℤ) - 1 + e with hex
  set mb := (fmtParams f).1 with hmbd
  set bias := (fmtParams f).2.2 with hbias
  obtain ⟨E, hE, hEq, hElow⟩ : ∃ E : ℕ, 1 ≤ E ∧ (if ex < 1 - (bias : ℤ) then 1 - (bias : ℤ) else ex) - mb = (E : ℤ) - bias - mb ∧
      (ex < (E : ℤ) - bias → E = 1) ∧ ex < (E : ℤ) - bias + 1 := by
    split_ifs with hs
    · exact ⟨1, le_rfl, by push_cast; ring, fun _ => rfl, by push_cast; omega⟩
    · exact ⟨(ex + bias).toNat, by omega, by omega, by omega⟩
  rw [hEq]
  have hr := roundUnits_rounds rnd neg m e ((E : ℤ) - bias - mb) draw
  set y : ℚ := (m : ℚ) * 2 ^ e / 2 ^ ((E : ℤ) - bias - mb) with hy
  set r := roundUnits rnd neg m e ((E : ℤ) - bias - mb) draw with hrd
  have hs : (0 : ℚ) < 2 ^ ((E : ℤ) - bias - mb) := by positivity
  have hyhi : y < (2 ^ (mb + 1) : ℕ) := by
    rw [hy, div_lt_iff₀ hs]
    refine hhi.trans_le ?_
    rw [Nat.cast_pow, Nat.cast_ofNat, ← zpow_natCast, ← zpow_add₀ two_ne_zero]
    exact zpow_le_zpow_right₀ one_le_two (by push_cast; omega)
  have hylo : E = 1 ∨ ((2 ^ mb : ℕ) : ℚ) ≤ y := by
    refine or_iff_not_imp_left.mpr fun hne => ?_
    rw [hy, le_div_iff₀ hs]
    refine le_trans ?_ hlo
    rw [Nat.cast_pow, Nat.cast_ofNat, ← zpow_natCast, ← zpow_add₀ two_ne_zero]
    exact zpow_le_zpow_right₀ one_le_two (by have := mt hElow.1 hne; omega)
  have hk : r.1 ≤ 2 ^ (mb + 1) := hr.le_of_le Nat.strictMono_cast hyhi.le
  have hklow : E = 1 ∨ 2 ^ mb ≤ r.1 := hylo.imp_right (hr.ge_of_ge Nat.strictMono_cast ·)
  refine ⟨_, ?_, rfl⟩
  rw [unitCode_eq hE hk hklow, codeMag_bin h]
  have heven : (E - 1) * 2 ^ mb % 2 = 0 := Nat.mod_eq_zero_of_dvd (dvd_mul_of_dvd_right (dvd_pow_self 2 (by omega)) _)
  refine hr.shift hs heven (div_mul_cancel₀ _ hs.ne').symm fun n h1 h2 => ?_
  have hn : n < 2 ^ (mb + 1) := by exact_mod_cast h1.trans_lt hyhi
  have hnlow : E = 1 ∨ 2 ^ mb ≤ n := hylo.imp_right fun hl => Nat.lt_succ_iff.mp (by exact_mod_cast hl.trans_lt h2)
  exact ⟨binMag_units hE hn.le hnlow, binMag_units hE hn (hnlow.imp_right (Nat.le_succ_of_le ·))⟩


/-! ### Rounding to LN6 (R55, R59) -/

theorem compare_cast (a b : ℕ) : compare (a : ℚ) b = compare a b := by
  rw [← cmp_eq_compare, ← cmp_eq_compare, (Nat.strictMono_cast (α := ℚ)).cmp_map_eq]

/-- Magnitudes in one unit compare as their numbers. -/
theorem compare_shift (a b : ℕ) (u : ℤ) : compare ((a : ℚ) * 2 ^ u) (b * 2 ^ u) = compare a b := by
  rw [← cmp_eq_compare, cmp_mul_pos_right (by positivity), cmp_eq_compare, compare_cast]

/-- A number in the unit of a smaller exponent. -/
theorem shift_cast (m : ℕ) {a b : ℤ} (h : b ≤ a) : ((m * 2 ^ (a - b).toNat : ℕ) : ℚ) * 2 ^ b = m * 2 ^ a := by
  rw [cast_shift m h, div_mul_cancel₀ _ (by positivity)]

theorem cmpMag_eq (m1 : ℕ) (e1 : ℤ) (m2 : ℕ) (e2 : ℤ) : cmpMag m1 e1 m2 e2 = compare ((m1 : ℚ) * 2 ^ e1) (m2 * 2 ^ e2) := by
  have hpos : ∀ {m : ℕ} (e : ℤ), m ≠ 0 → (0 : ℚ) < m * 2 ^ e := fun e hm => mul_pos (by exact_mod_cast Nat.pos_of_ne_zero hm) (by positivity)
  unfold cmpMag
  by_cases h0 : m1 = 0 ∨ m2 = 0
  · rw [if_pos (by simpa using h0), ← compare_cast]
    obtain rfl | h1 := eq_or_ne m1 0
    · obtain rfl | h2 := eq_or_ne m2 0
      · simp
      · have hc : (0 : ℚ) < m2 := by exact_mod_cast Nat.pos_of_ne_zero h2
        simp only [Nat.cast_zero, zero_mul, compare_lt_iff_lt.mpr (hpos e2 h2), compare_lt_iff_lt.mpr hc]
    · obtain rfl : m2 = 0 := h0.resolve_left h1
      have hc : (0 : ℚ) < m1 := by exact_mod_cast Nat.pos_of_ne_zero h1
      simp only [Nat.cast_zero, zero_mul, compare_gt_iff_gt.mpr (hpos e1 h1), compare_gt_iff_gt.mpr hc]
  obtain ⟨h1, h2⟩ := not_or.mp h0
  rw [if_neg (by simpa using h0)]
  dsimp only
  have apart : ∀ {a b : ℕ} {i j : ℤ}, b ≠ 0 → (bitLen a : ℤ) + i < bitLen b + j → (a : ℚ) * 2 ^ i < b * 2 ^ j := fun {a b i j} hb hlt =>
    (mag_lt a i).trans_le ((zpow_le_zpow_right₀ one_le_two (by omega)).trans (le_mag hb j))
  split_ifs with c1 c2 c3
  · exact (compare_lt_iff_lt.mpr (apart h2 c1)).symm
  · exact (compare_gt_iff_gt.mpr (apart h1 c2)).symm
  · rw [← shift_cast m2 c3, compare_shift]
  · rw [← shift_cast m1 (le_of_not_ge c3), compare_shift]

/-- The search upward finds the magnitude below x, where the fuel reaches beyond it. -/
theorem lnFloor_spec (m : ℕ) (e : ℤ) : ∀ k lo, lnMag lo ≤ m * 2 ^ e → (m : ℚ) * 2 ^ e < lnMag (lo + k) →
    lnMag (lnFloor k lo m e) ≤ m * 2 ^ e ∧ (m : ℚ) * 2 ^ e < lnMag (lnFloor k lo m e + 1)
  | 0, lo, h1, h2 => absurd h2 (not_lt.mpr h1)
  | k + 1, lo, h1, h2 => by
    have hv : cmpMag (lnVal (lo + 1)).1 (lnVal (lo + 1)).2 m e = compare (lnMag (lo + 1)) (m * 2 ^ e) := by
      rw [cmpMag_eq, lnMag, if_neg (Nat.succ_ne_zero lo)]
    rw [lnFloor, hv]
    split_ifs with hc
    · exact ⟨h1, compare_gt_iff_gt.mp (by simpa using hc)⟩
    · have hle : lnMag (lo + 1) ≤ m * 2 ^ e := by
        by_contra hlt
        exact hc (by simpa using compare_gt_iff_gt.mpr (not_le.mp hlt))
      exact lnFloor_spec m e k (lo + 1) hle (by rwa [Nat.add_assoc, Nat.add_comm 1 k])

/-- The magnitude of LN6 below x, by the binade of x. -/
def lnBelow (m : ℕ) (e : ℤ) : ℕ :=
  let ex := (bitLen m : ℤ) - 1 + e
  if ex < -4 then 0 else lnFloor 6 (4 * (ex + 4).toNat - 1) m e

theorem lnBelow_spec {m : ℕ} (hm : m ≠ 0) (e : ℤ) : lnMag (lnBelow m e) ≤ m * 2 ^ e ∧ (m : ℚ) * 2 ^ e < lnMag (lnBelow m e + 1) := by
  have hlo := le_mag hm e
  have hhi := mag_lt m e
  unfold lnBelow
  dsimp only
  set ex : ℤ := (bitLen m : ℤ) - 1 + e with hex
  rw [show (bitLen m : ℤ) + e = ex + 1 by rw [hex]; ring] at hhi
  split_ifs with hs
  · refine ⟨by simp only [lnMag, if_true]; positivity, hhi.trans_le ?_⟩
    refine (zpow_le_zpow_right₀ one_le_two (show ex + 1 ≤ -4 by omega)).trans ?_
    rw [show 0 + 1 = 4 * 0 + 1 from rfl, lnMag_group (by decide) (by decide)]
    norm_num [lnt]
  · obtain ⟨j, hj⟩ := Int.eq_ofNat_of_zero_le (show 0 ≤ ex + 4 by omega)
    rw [hj, show Int.toNat (j : ℤ) = j from rfl]
    refine lnFloor_spec m e 6 _ (le_trans ?_ hlo) (hhi.trans_le ?_)
    · obtain rfl | hj0 := eq_or_ne j 0
      · simp only [Nat.mul_zero, Nat.zero_sub, lnMag, if_true]
        positivity
      · rw [show ex = (j : ℤ) - 4 by omega, ← lnMag_pow hj0]
        exact lnMag_strictMono.monotone (Nat.sub_le ..)
    · rw [show ex + 1 = ((j + 1 : ℕ) : ℤ) - 4 by push_cast; omega, ← lnMag_pow (Nat.succ_ne_zero j)]
      exact lnMag_strictMono.monotone (by omega)

/-- Rounding between the neighbours of LN6, held in one unit. -/
theorem rounds_scaled {rnd : Rnd} {neg : Bool} {draw : ℕ} {x : ℚ} {lo n w a : ℕ} {u : ℤ} (hn : lnMag lo = n * 2 ^ u) (hw : lnMag (lo + 1) = w * 2 ^ u)
    (hx : x = a * 2 ^ u) (h1 : lnMag lo < x) (h2 : x < lnMag (lo + 1)) : Rounds lnMag rnd neg draw x
      (if pickUp rnd neg (lo % 2 == 0) (compare (2 * (a - n)) (w - n)) ((a - n) * 2 ^ 32 / (w - n)) draw then lo + 1 else lo, true) := by
  have hu : (0 : ℚ) < 2 ^ u := by positivity
  have hna : n < a := by rw [hn, hx] at h1; exact_mod_cast lt_of_mul_lt_mul_right h1 hu.le
  have haw : a < w := by rw [hw, hx] at h2; exact_mod_cast lt_of_mul_lt_mul_right h2 hu.le
  have h := Rounds.between (rnd := rnd) (neg := neg) (draw := draw) lo h1 h2
  have ed : x - lnMag lo = ((a - n : ℕ) : ℚ) * 2 ^ u := by rw [hn, hx, Nat.cast_sub hna.le]; ring
  have es : lnMag (lo + 1) - lnMag lo = ((w - n : ℕ) : ℚ) * 2 ^ u := by rw [hn, hw, Nat.cast_sub (hna.trans haw).le]; ring
  have hc : compare (2 * (x - lnMag lo)) (lnMag (lo + 1) - lnMag lo) = compare (2 * (a - n)) (w - n) := by
    rw [ed, es, ← mul_assoc, ← compare_shift _ _ u]
    push_cast
    rfl
  have hf : ⌊(x - lnMag lo) / (lnMag (lo + 1) - lnMag lo) * 2 ^ 32⌋₊ = (a - n) * 2 ^ 32 / (w - n) := by
    rw [ed, es, mul_div_mul_right _ _ hu.ne', div_mul_eq_mul_div]
    exact_mod_cast Nat.floor_div_eq_div (K := ℚ) ((a - n) * 2 ^ 32) (w - n)
  rwa [hc, hf] at h

/-- Of a magnitude far below the least of LN6, rounding sees only that it is there. -/
theorem rounds_far {rnd : Rnd} {neg : Bool} {draw : ℕ} {x : ℚ} (h0 : 0 < x) (hx : x < 2 ^ (-80 : ℤ)) : Rounds lnMag rnd neg draw x
      (if pickUp rnd neg true .lt 0 draw then 1 else 0, true) := by
  have e0 : lnMag 0 = 0 := rfl
  have e1 : (2 : ℚ) ^ (-4 : ℤ) ≤ lnMag 1 := by
    rw [show 1 = 4 * 0 + 1 from rfl, lnMag_group (by decide) (by decide)]
    norm_num [lnt]
  have h := Rounds.between (g := lnMag) (rnd := rnd) (neg := neg) (draw := draw) (x := x) 0 (by rwa [e0]) (hx.trans_le ((zpow_le_zpow_right₀ one_le_two (by decide)).trans e1))
  have hc : compare (2 * (x - lnMag 0)) (lnMag 1 - lnMag 0) = .lt := compare_lt_iff_lt.mpr (by rw [e0]; norm_num at hx e1 ⊢; linarith)
  have hf : ⌊(x - lnMag 0) / (lnMag 1 - lnMag 0) * 2 ^ 32⌋₊ = 0 := by
    rw [e0, sub_zero, sub_zero, Nat.floor_eq_zero, div_mul_eq_mul_div, div_lt_one (lt_of_lt_of_le (by positivity) e1)]
    norm_num at hx e1 ⊢
    linarith
  rw [Nat.zero_add, hc, hf] at h
  exact h

/-- `roundLn` as a choice between the neighbours of x, held in one unit. -/
theorem roundLn_eq (rnd : Rnd) (neg : Bool) {m : ℕ} (hm : m ≠ 0) (e : ℤ) (draw : ℕ) : roundLn rnd neg m e draw =
    let lo := lnBelow m e
    let nv := if lo == 0 then (0, (-28 : ℤ)) else lnVal lo
    let wv := lnVal (lo + 1)
    let far := decide ((bitLen m : ℤ) - 1 + e < -80)
    let u := min e (min nv.2 wv.2)
    let a := if far then 1 else m * 2 ^ (e - u).toNat
    let u' := if far then (-90 : ℤ) else u
    let n := nv.1 * 2 ^ (nv.2 - u').toNat
    let w := wv.1 * 2 ^ (wv.2 - u').toNat
    if lo != 0 && cmpMag nv.1 nv.2 m e == .eq then (lo, false)
    else (if pickUp rnd neg (lo % 2 == 0) (compare (2 * (a - n)) (w - n)) ((a - n) * 2 ^ 32 / (w - n)) draw then lo + 1 else lo, true) := by
  have h0 : ¬(m == 0) = true := by simpa using hm
  unfold roundLn
  rw [if_neg h0]
  rfl

theorem roundLn_rounds (rnd : Rnd) (neg : Bool) {m : ℕ} (hm : m ≠ 0) (e : ℤ) (draw : ℕ) :
    Rounds lnMag rnd neg draw (m * 2 ^ e) (roundLn rnd neg m e draw) := by
  obtain ⟨hlo, hhi⟩ := lnBelow_spec hm e
  have hpos : (0 : ℚ) < m * 2 ^ e := mul_pos (by exact_mod_cast Nat.pos_of_ne_zero hm) (by positivity)
  have hnv : ∀ lo, (((if lo == 0 then (0, (-28 : ℤ)) else lnVal lo).1 : ℕ) : ℚ) * 2 ^ (if lo == 0 then (0, (-28 : ℤ)) else lnVal lo).2 = lnMag lo := by
    intro lo
    by_cases h : lo = 0 <;> simp [lnMag, h]
  have hwv : ((lnVal (lnBelow m e + 1)).1 : ℚ) * 2 ^ (lnVal (lnBelow m e + 1)).2 = lnMag (lnBelow m e + 1) := by
    rw [lnMag, if_neg (Nat.succ_ne_zero _)]
  rw [roundLn_eq rnd neg hm]
  dsimp only
  rw [cmpMag_eq, hnv]
  by_cases heq : lnMag (lnBelow m e) = m * 2 ^ e
  · have hl0 : lnBelow m e ≠ 0 := fun h => by rw [h] at heq; exact hpos.ne heq
    rw [if_pos (by simpa [hl0] using heq)]
    exact .exact _ heq
  have hlt := lt_of_le_of_ne hlo heq
  rw [if_neg (by simp [heq])]
  by_cases hfar : (bitLen m : ℤ) - 1 + e < -80
  · have h0 : lnBelow m e = 0 := if_pos (by omega)
    have hx : (m : ℚ) * 2 ^ e < 2 ^ (-80 : ℤ) := (mag_lt m e).trans_le (zpow_le_zpow_right₀ one_le_two (by omega))
    have h := rounds_far (rnd := rnd) (neg := neg) (draw := draw) hpos hx
    rw [h0]
    simp only [hfar, decide_true, if_true]
    exact h
  · simp only [hfar, decide_false, Bool.false_eq_true, if_false]
    refine rounds_scaled (u := min e (min (if lnBelow m e == 0 then (0, (-28 : ℤ)) else lnVal (lnBelow m e)).2 (lnVal (lnBelow m e + 1)).2)) ?_ ?_ ?_ hlt hhi
    · rw [shift_cast _ ((min_le_right _ _).trans (min_le_left _ _)), hnv]
    · rw [shift_cast _ ((min_le_right _ _).trans (min_le_right _ _)), hwv]
    · rw [shift_cast _ (min_le_left _ _)]

/-- Rounding a number to LN6. -/
theorem roundF_ln6 (rd : Reading) (rnd : Rnd) (sat neg : Bool) (draw m : ℕ) (e : ℤ) : roundF .ln6 rd rnd sat draw (.num neg m e) =
    if m == 0 then (zeroCode .ln6 rd neg, 0)
    else if (bitLen m : ℤ) + e > 60 then overCode .ln6 rd rnd sat neg false else coded .ln6 rd rnd sat neg (roundLn rnd neg m e draw) := rfl

theorem roundsF_ln6 (rd : Reading) (rnd : Rnd) (sat neg : Bool) (draw : ℕ) {m : ℕ} (hm : m ≠ 0) (e : ℤ) :
    RoundsF .ln6 rd rnd sat neg draw (m * 2 ^ e) (roundF .ln6 rd rnd sat draw (.num neg m e)) := by
  have hm' : ¬(m == 0) = true := by simpa using hm
  rw [roundF_ln6, if_neg hm', RoundsF, codeMag_ln6]
  by_cases hbig : (bitLen m : ℤ) + e > 60
  · refine .inl ⟨?_, if_pos hbig⟩
    refine le_trans ?_ ((zpow_le_zpow_right₀ one_le_two (show (59 : ℤ) ≤ (bitLen m : ℤ) - 1 + e by omega)).trans (le_mag hm e))
    calc lnMag (maxCode .ln6 rd + 1) ≤ lnMag (4 * 8) := lnMag_strictMono.monotone (by cases rd <;> decide)
      _ = 2 ^ (4 : ℤ) := lnMag_pow (by decide)
      _ ≤ 2 ^ (59 : ℤ) := zpow_le_zpow_right₀ one_le_two (by decide)
  · exact .inr ⟨_, roundLn_rounds rnd neg hm e draw, if_neg hbig⟩

/-- Rounding a number to a format. -/
theorem roundsF (f : FType) (rd : Reading) (rnd : Rnd) (sat neg : Bool) (draw : ℕ) {m : ℕ} (hm : m ≠ 0) (e : ℤ) :
    RoundsF f rd rnd sat neg draw (m * 2 ^ e) (roundF f rd rnd sat draw (.num neg m e)) := by
  obtain rfl | h := eq_or_ne f .ln6
  · exact roundsF_ln6 rd rnd sat neg draw hm e
  · exact roundsF_bin h rd rnd sat neg draw hm e

end Sys2Proof.Claims
end

section
/-!
SUPPORT. Rounding to a format within its finite range and above it (R59, R60).
-/
namespace Sys2Proof.Claims
open Sys2Proof.Machine

/-! ### Within the range -/

/-- The result of a magnitude that is at most the largest finite. -/
theorem coded_within {f : FType} {rd : Reading} {rnd : Rnd} {sat neg : Bool} {draw : ℕ} {x : ℚ} {r : ℕ × Bool} (hr : Rounds (codeMag f) rnd neg draw x r)
    (hx : 0 < x) (hk : r.1 ≤ maxCode f rd) : finite f rd (coded f rd rnd sat neg r).1 = some (signed neg (codeMag f r.1)) ∧
      (coded f rd rnd sat neg r).2 = if codeMag f r.1 = x then 0 else fINX := by
  have hflag : (if r.2 = true then fINX else 0) = if codeMag f r.1 = x then 0 else fINX := by
    by_cases h : codeMag f r.1 = x
    · rw [if_pos h, if_neg (by rw [hr.flag]; simpa using h)]
    · rw [if_neg h, if_pos (hr.flag.mpr h)]
  rw [coded, if_neg (by omega)]
  by_cases h0 : r.1 = 0
  · rw [if_pos (by simpa using h0), h0, codeMag_zero, if_neg hx.ne, finite_zeroCode]
    exact ⟨by cases neg <;> simp [signed], rfl⟩
  · rw [if_neg (by simpa using h0)]
    exact ⟨finite_coded neg hk h0, hflag⟩

/-- How the value that a rounding gives lies to the exact one and to every other value (R59). -/
def roundedWell (rnd : Rnd) (w v u : ℚ) : Prop :=
  ((rnd = .rne ∨ rnd = .rna) → |w - v| ≤ |u - v|) ∧ (rnd = .rtz → |w| ≤ |v| ∧ (|u| ≤ |v| → |u| ≤ |w|)) ∧
  (rnd = .rmi → w ≤ v ∧ (u ≤ v → u ≤ w)) ∧ (rnd = .rpi → v ≤ w ∧ (v ≤ u → w ≤ u))

/-- A rounded magnitude with its sign is placed as its rounding says. -/
theorem roundedWell_of_rounds {g : ℕ → ℚ} (hg : StrictMono g) (hg0 : ∀ k, 0 ≤ g k) {rnd : Rnd} {neg : Bool} {draw : ℕ} {x : ℚ} {r : ℕ × Bool}
    (hr : Rounds g rnd neg draw x r) (hx : 0 ≤ x) (s : Bool) (j : ℕ) : roundedWell rnd (signed neg (g r.1)) (signed neg x) (signed s (g j)) := by
  have hw := hg0 r.1
  have hj := hg0 j
  refine ⟨fun h => ?_, ?_, ?_, ?_⟩
  · calc |signed neg (g r.1) - signed neg x| = |g r.1 - x| := abs_signed_sub ..
      _ ≤ |g j - x| := hr.nearest hg h j
      _ = |(|signed s (g j)| - |signed neg x|)| := by rw [abs_signed s hj, abs_signed neg hx]
      _ ≤ |signed s (g j) - signed neg x| := abs_abs_sub_abs_le ..
  · rintro rfl
    obtain ⟨h1, h2⟩ := hr.floor hg fun _ _ _ => rfl
    rw [abs_signed neg hw, abs_signed neg hx, abs_signed s hj]
    exact ⟨h1, h2 j⟩
  · rintro rfl
    cases neg
    · obtain ⟨h1, h2⟩ := hr.floor hg fun _ _ _ => rfl
      refine ⟨h1, fun h => ?_⟩
      cases s
      · exact h2 j h
      · exact (neg_nonpos.mpr hj).trans hw
    · obtain ⟨h1, h2⟩ := hr.ceil hg fun _ _ _ => rfl
      refine ⟨neg_le_neg h1, fun h => ?_⟩
      cases s
      · have hle : g j ≤ -x := h
        have := h2 j (by linarith)
        exact show g j ≤ -g r.1 by linarith
      · exact neg_le_neg (h2 j (neg_le_neg_iff.mp h))
  · rintro rfl
    cases neg
    · obtain ⟨h1, h2⟩ := hr.ceil hg fun _ _ _ => rfl
      refine ⟨h1, fun h => ?_⟩
      cases s
      · exact h2 j h
      · have hle : x ≤ -g j := h
        have := h2 j (by linarith)
        exact show g r.1 ≤ -g j by linarith
    · obtain ⟨h1, h2⟩ := hr.floor hg fun _ _ _ => rfl
      refine ⟨neg_le_neg h1, fun h => ?_⟩
      cases s
      · exact (neg_nonpos.mpr hw).trans hj
      · exact neg_le_neg (h2 j (neg_le_neg_iff.mp h))

theorem roundF_zero (f : FType) (rd : Reading) (rnd : Rnd) (sat neg : Bool) (draw : ℕ) (e : ℤ) :
    roundF f rd rnd sat draw (.num neg 0 e) = (zeroCode f rd neg, 0) := rfl

/-- R59: a value within a format's finite range. -/
theorem roundF_within (f : FType) (rd : Reading) (rnd : Rnd) (sat neg : Bool) (draw m : ℕ) (e : ℤ)
    (h : ∃ c b, c < 2 ^ fmtBits f ∧ finite f rd c = some b ∧ |ratOf neg m e| ≤ |b|) :
    ∃ w, finite f rd (roundF f rd rnd sat draw (.num neg m e)).1 = some w ∧
      (roundF f rd rnd sat draw (.num neg m e)).2 = (if w = ratOf neg m e then 0 else fINX) ∧
      ∀ c u, c < 2 ^ fmtBits f → finite f rd c = some u → roundedWell rnd w (ratOf neg m e) u := by
  obtain ⟨c, b, hc, hb, hle⟩ := h
  obtain ⟨s, k, hk, rfl⟩ := finite_eq_some hc hb
  have hx0 : (0 : ℚ) ≤ m * 2 ^ e := by positivity
  rw [ratOf_eq] at hle ⊢
  rw [abs_signed neg hx0, abs_signed s (codeMag_nonneg f k)] at hle
  obtain rfl | hm := eq_or_ne m 0
  · rw [roundF_zero]
    have hz : signed neg (((0 : ℕ) : ℚ) * 2 ^ e) = 0 := by cases neg <;> simp [signed]
    rw [hz]
    exact ⟨0, finite_zeroCode f rd neg, (if_pos rfl).symm, fun c u _ _ => ⟨fun _ => by simp, fun _ => ⟨le_rfl, id⟩, fun _ => ⟨le_rfl, id⟩, fun _ => ⟨le_rfl, id⟩⟩⟩
  have hx : (0 : ℚ) < m * 2 ^ e := mul_pos (by exact_mod_cast Nat.pos_of_ne_zero hm) (by positivity)
  have hg := codeMag_strictMono f
  obtain ⟨hover, _⟩ | ⟨r, hr, he⟩ := roundsF f rd rnd sat neg draw hm e
  · exact absurd (hg.le_iff_le.mp (hover.trans hle)) (by omega)
  obtain ⟨h1, h2⟩ := coded_within (sat := sat) hr hx ((hr.le_of_le hg hle).trans hk)
  rw [he]
  refine ⟨_, h1, ?_, fun c' u hc' hu => ?_⟩
  · rw [h2]
    simp only [signed_inj]
  · obtain ⟨s', j, _, rfl⟩ := finite_eq_some hc' hu
    exact roundedWell_of_rounds hg (codeMag_nonneg f) hr hx0 s' j

/-! ### Above the range -/

/-- A number at least a step beyond the largest finite is above the range under every rounding. -/
theorem roundF_above {f : FType} (hf : f ≠ .fmt) (rd : Reading) (rnd : Rnd) (sat neg : Bool) (draw m : ℕ) (e : ℤ)
    (h : codeMag f (maxCode f rd + 1) ≤ |ratOf neg m e|) : roundF f rd rnd sat draw (.num neg m e) = aboveRow f rd rnd sat neg := by
  rw [ratOf_eq, abs_signed neg (by positivity)] at h
  have hpos : 0 < codeMag f (maxCode f rd + 1) := by
    rw [← codeMag_zero f]
    exact codeMag_strictMono f (Nat.succ_pos _)
  have hm : m ≠ 0 := by
    rintro rfl
    rw [Nat.cast_zero, zero_mul] at h
    exact absurd h (not_le.mpr hpos)
  rw [← overCode_above hf]
  obtain ⟨-, he⟩ | ⟨r, hr, he⟩ := roundsF f rd rnd sat neg draw hm e
  · exact he
  · have := hr.ge_of_ge (codeMag_strictMono f) h
    rw [he, coded, if_pos (by omega)]

/-- The largest finite of every reading is at least half the step beyond it. -/
theorem codeMag_maxCode_succ_le {f : FType} (rd : Reading) : codeMag f (maxCode f rd + 1) ≤ 2 * codeMag f (maxCode f rd) := by
  obtain rfl | h := eq_or_ne f .ln6
  · rw [codeMag_ln6]
    have h28 : (4 * 7 : ℕ) ≤ maxCode .ln6 rd := by cases rd <;> decide
    have h32 : maxCode .ln6 rd + 1 ≤ 4 * 8 := by cases rd <;> decide
    calc lnMag (maxCode .ln6 rd + 1) ≤ lnMag (4 * 8) := lnMag_strictMono.monotone h32
      _ = 2 * lnMag (4 * 7) := by rw [lnMag_pow (by decide), lnMag_pow (by decide)]; norm_num
      _ ≤ 2 * lnMag (maxCode .ln6 rd) := mul_le_mul_of_nonneg_left (lnMag_strictMono.monotone h28) zero_le_two
  · obtain ⟨E, n, hE, hn, hlow, he⟩ := exists_binade (fmtParams f).1 (maxCode f rd)
    have hn1 : 1 ≤ n := by
      obtain rfl | h1 := hlow
      · rw [Nat.sub_self, Nat.zero_mul, Nat.zero_add] at he
        rw [← he]
        cases f <;> cases rd <;> decide
      · exact Nat.one_le_two_pow.trans h1
    rw [codeMag_bin h, he, Nat.add_assoc, binMag_units hE hn.le hlow, binMag_units hE hn (hlow.imp_right (Nat.le_succ_of_le ·)), ← mul_assoc]
    have : ((n + 1 : ℕ) : ℚ) ≤ 2 * n := by exact_mod_cast (by omega : n + 1 ≤ 2 * n)
    gcongr

/-- The precision of a wide format (R53). -/
def precision (f : FType) : ℕ := if f = .f32 then 24 else if f = .f16 then 11 else 8

/-- The step at the largest finite of a wide format, whose number is odd. -/
theorem wide_step {f : FType} (hf : tyF3.contains f = true) (rd : Reading) :
    codeMag f (maxCode f rd + 1) = codeMag f (maxCode f rd) + codeMag f (maxCode f rd) / (2 ^ precision f - 1) ∧ maxCode f rd % 2 = 1 := by
  have key : ∀ {E : ℕ}, f ≠ .ln6 → 1 ≤ E → precision f = (fmtParams f).1 + 1 → maxCode f rd = (E - 1) * 2 ^ (fmtParams f).1 + (2 ^ precision f - 1) →
      codeMag f (maxCode f rd + 1) = codeMag f (maxCode f rd) + codeMag f (maxCode f rd) / (2 ^ precision f - 1) := by
    intro E h hE hp he
    have h1 := Nat.one_lt_two_pow (n := precision f) (by omega)
    have hlow : 2 ^ (fmtParams f).1 ≤ 2 ^ precision f - 1 := by rw [hp, pow_succ] at h1 ⊢; have := Nat.one_le_two_pow (n := (fmtParams f).1); omega
    have hq : (0 : ℚ) < 2 ^ precision f - 1 := by
      have : (1 : ℚ) < 2 ^ precision f := by exact_mod_cast h1
      linarith
    rw [codeMag_bin h, he, Nat.add_assoc, Nat.sub_add_cancel h1.le, binMag_units hE (by rw [← hp]; omega) (.inr hlow), binMag_units hE (by rw [← hp]) (.inr (by omega)),
      Nat.cast_sub h1.le]
    push_cast
    field_simp
    ring
  cases f
  case f32 => exact ⟨key (E := 254) nofun (by decide) (by cases rd <;> rfl) (by cases rd <;> rfl), by cases rd <;> rfl⟩
  case f16 => exact ⟨key (E := 30) nofun (by decide) (by cases rd <;> rfl) (by cases rd <;> rfl), by cases rd <;> rfl⟩
  case bf16 => exact ⟨key (E := 254) nofun (by decide) (by cases rd <;> rfl) (by cases rd <;> rfl), by cases rd <;> rfl⟩
  all_goals exact absurd hf (by decide)

/-- A number between the largest finite and the step beyond it goes to the one of them that the rounding chooses. -/
theorem roundF_between {f : FType} (hf : f ≠ .fmt) (rd : Reading) (rnd : Rnd) (sat neg : Bool) (draw m : ℕ) (e : ℤ)
    (h1 : codeMag f (maxCode f rd) < |ratOf neg m e|) (h2 : |ratOf neg m e| < codeMag f (maxCode f rd + 1)) :
    ∃ r, Rounds (codeMag f) rnd neg draw |ratOf neg m e| r ∧
      (r.1 = maxCode f rd + 1 → roundF f rd rnd sat draw (.num neg m e) = aboveRow f rd rnd sat neg) ∧
      (r.1 = maxCode f rd → roundF f rd rnd sat draw (.num neg m e) = (withSign f neg (topCode f rd), fINX)) := by
  rw [ratOf_eq, abs_signed neg (by positivity)] at h1 h2 ⊢
  have hm : m ≠ 0 := by
    rintro rfl
    rw [Nat.cast_zero, zero_mul] at h1
    exact absurd h1 (not_lt.mpr (codeMag_nonneg f _))
  obtain ⟨hover, _⟩ | ⟨r, hr, he⟩ := roundsF f rd rnd sat neg draw hm e
  · exact absurd hover (not_le.mpr h2)
  refine ⟨r, hr, fun hk => ?_, fun hk => ?_⟩ <;> rw [he, coded]
  · rw [if_pos (by omega), overCode_above hf]
  · have h0 : ¬(r.1 == 0) = true := by rw [hk]; cases f <;> cases rd <;> decide
    rw [if_neg (by omega), if_neg h0, if_pos (hr.flag.mpr (by rw [hk]; exact h1.ne)), withSign_eq, topCode_eq hf, hk]

/-- R60 beyond the largest finite of FP32, FP16 and BF16. -/
theorem roundF_wide {f : FType} (rd : Reading) (rnd : Rnd) (sat neg : Bool) (draw m : ℕ) (e : ℤ) {b : ℚ} (hf : tyF3.contains f = true)
    (hb : finite f rd (topCode f rd) = some b) :
    let v := |ratOf neg m e|
    let ulp := b / (2 ^ precision f - 1)
    let half := b + ulp / 2
    (b + ulp ≤ v → roundF f rd rnd sat draw (.num neg m e) = aboveRow f rd rnd sat neg) ∧
    (b < v → v < b + ulp → rnd = .rtz → roundF f rd rnd sat draw (.num neg m e) = (withSign f neg (topCode f rd), fINX)) ∧
    (rnd = .rne ∨ rnd = .rna → half ≤ v → roundF f rd rnd sat draw (.num neg m e) = aboveRow f rd rnd sat neg) ∧
    (rnd = .rne ∨ rnd = .rna → b < v → v < half → roundF f rd rnd sat draw (.num neg m e) = (withSign f neg (topCode f rd), fINX)) := by
  have hne : f ≠ .fmt := by rintro rfl; exact absurd hf (by decide)
  have hg := codeMag_strictMono f
  obtain rfl : codeMag f (maxCode f rd) = b := Option.some.inj ((finite_topCode hne rd).symm.trans hb)
  obtain ⟨hstep, hodd⟩ := wide_step hf rd
  have hlt := hg (Nat.lt_succ_self (maxCode f rd))
  intro v ulp half
  have hstep : codeMag f (maxCode f rd + 1) = codeMag f (maxCode f rd) + ulp := hstep
  have hhalf : half = codeMag f (maxCode f rd) + ulp / 2 := rfl
  rw [Nat.succ_eq_add_one, hstep] at hlt
  have between := fun h1 h2 => roundF_between hne rd rnd sat neg draw m e h1 (hstep ▸ h2)
  have above := fun h => roundF_above hne rd rnd sat neg draw m e (hstep ▸ h)
  refine ⟨above, fun h1 h2 hr => ?_, fun hr h => ?_, fun hr h1 h2 => ?_⟩
  · obtain ⟨r, hr', -, htop⟩ := between h1 h2
    have hge := hr'.ge_of_ge hg h1.le
    have hle := (hr'.floor hg fun _ _ _ => by rw [hr]; rfl).1.trans_lt h2
    rw [← hstep, hg.lt_iff_lt] at hle
    exact htop (by omega)
  · obtain h2 | h2 := le_or_gt (codeMag f (maxCode f rd) + ulp) v
    · exact above h2
    have h1 : codeMag f (maxCode f rd) < v := lt_of_lt_of_le (by linarith) h
    obtain ⟨r, hr', hab, -⟩ := between h1 h2
    refine hab ?_
    rw [hr'.nearest_of_odd hg hr h1 (hstep ▸ h2) hodd, if_pos (by rw [hstep]; linarith)]
  · have h3 : v < codeMag f (maxCode f rd) + ulp := h2.trans (by linarith)
    obtain ⟨r, hr', -, htop⟩ := between h1 h3
    refine htop ?_
    rw [hr'.nearest_of_odd hg hr h1 (hstep ▸ h3) hodd, if_neg (by rw [hstep]; linarith)]

/-- Settles O8: rounding a magnitude chooses between its neighbours in a rising sequence of values, the integers or the codes of a format's pattern; what
each choice of rounding gives follows from that, and above the largest finite the table of R60 holds. -/
theorem rounding : Obligations.Rounding := by
  refine ⟨fun neg m e draw => roundInt_spec neg m e draw, fun f rd sat neg m e draw rnd _ _ h => roundF_within f rd rnd sat neg draw m e h,
    fun f rd rnd sat draw hf _ => ⟨fun sg => ?_, fun neg => overCode_inf hf rd rnd sat neg, fun neg m e b hb h => ?_, fun c u b hc hu hb => ?_⟩,
    fun f rd rnd sat neg draw m e b hf hb => ?_⟩
  · obtain ⟨h1, -, h3⟩ | ⟨h1, -, h3⟩ | ⟨h1, -, h3⟩ := readsAs_cases f rd <;> simp [roundF, nanCode_eq hf, h1, h3]
  · rw [finite_topCode hf, Option.some.injEq] at hb
    exact roundF_above hf rd rnd sat neg draw m e ((codeMag_maxCode_succ_le rd).trans (hb ▸ h))
  · rw [finite_topCode hf, Option.some.injEq] at hb
    obtain ⟨s, k, hk, rfl⟩ := finite_eq_some hc hu
    rw [abs_signed s (codeMag_nonneg f k), ← hb]
    exact (codeMag_strictMono f).monotone hk
  · obtain ⟨h1, h2, h3, h4⟩ := roundF_wide rd rnd sat neg draw m e hf hb
    exact ⟨fun _ => h1, h2, h3, h4⟩

end Sys2Proof.Claims
end

section
/-!
SUPPORT. What a pending entry holds after an instruction, and an `ardv` of more columns than an encoding has (R234).
-/
namespace Sys2Proof.Claims
open Sys2Proof.Machine

/-- The writes that a pending entry of a group of the machine holds after an instruction. -/
def pendingWrites (i : Instr) (s : State) (b g id : Nat) : Option (List Wr) := match exec i s with
  | .next t => (((tget t.blocks b).bind fun bl => bl.groups[g]?).bind fun gr => tget gr.pend id).map Pend.wr
  | _ => none

/-- An instruction that posts writes leaves them in its group's newest pending entry. -/
theorem pendingWrites_of_posts {i : Instr} {s : State} {x : Ex} {wr : List Wr} {fl : Nat} {mode : Word} (h : PostsM i s x wr fl mode) :
    pendingWrites i s x.c.b x.c.g x.g.nextPend = some wr := by
  obtain ⟨t, ht, -, -, -, -, gs, g, hb, -, hg, -, hk, -⟩ := h
  have hp : g.pend = tput x.g.pend x.g.nextPend (resultOf i x wr fl) := congrArg Group.pend hk
  simp only [pendingWrites, ht, hb, Option.bind_some, hg, hp, tget_tput_same, Option.map_some]
  rfl

/-- A group of 64 vector registers with one tiller of one lane, in a tile block with one live tile, whose element 32 of row 0 is halfway between two
values of FP16; SEED is 1. -/
def wideGroup : Group := { vregs := 64, tillers := [{ mask := 1, st := .ready }] }
def wideBlock : Block := { res := .resident, isTile := true, live := 1, seed := 1, acc := [[(32, 0x3F801000)]], groups := [wideGroup] }
def wideState : State := { cur := some { b := 0, g := 0, t := 0 }, blocks := [(0, wideBlock)] }
def wideEx : Ex := { s := wideState, c := { b := 0, g := 0, t := 0 }, b := wideBlock, g := wideGroup, t := { mask := 1, st := .ready } }
/-- An `ardv` of 33 columns, which no encoding has (R234 gives 1 to 32), rounding stochastically to FP16. -/
def wideArdv : Instr := .ardv ⟨15, false, 0⟩ .f16 .rs false 0 0 0 33

theorem wideArdv_mayUse : MayUse wideArdv ⟨15, false, 0⟩ false [0] wideState wideEx :=
  ⟨⟨rfl, by decide +kernel, rfl, by decide +kernel, by decide +kernel, by decide +kernel⟩, rfl, nofun, by decide +kernel, by decide +kernel⟩

theorem wideArdv_inTurn : inTurn wideEx [0] none :=
  ⟨fun _ h => absurd h List.not_mem_nil, fun _ h => absurd h List.not_mem_nil, fun _ h => absurd h (Option.some_ne_none _).symm⟩

/-- Refutes O33: the statement takes every 6-bit count of columns of `ardv`, also those above 32 that no encoding has. With 33 columns and stochastic
rounding the model draws element 32 of lane 0 as element 0 of lane 1, because it holds a draw for each of 32 elements of a lane; the statement asks for
the draw of element 32 of lane 0, and here the two round the element to different neighbours. -/
theorem not_matrixInstructions : ¬Obligations.MatrixInstructions := by
  rintro ⟨-, -, -, -, -, -, hardv, -⟩
  obtain ⟨-, -, -, hposts⟩ := hardv _ _ _ _ _ _ _ _ _ _ wideArdv_mayUse
  have h := pendingWrites_of_posts (hposts (by decide +kernel) (by decide +kernel) wideArdv_inTurn nofun)
  exact absurd h (by decide +kernel)

end Sys2Proof.Claims
end

section
/-!
SUPPORT. The operands of a matrix operation: where their codes lie, what is checked, the groups of a dot product and the tile of all elements (R217 to R225).
-/
namespace Sys2Proof.Claims
open Sys2Proof.Machine

/-! ### Operands of a matrix operation (R53, R221, R222, R225) -/

/-- Elements of whole bytes and of nibbles lie within their bytes. -/
theorem packed_8 (get : ℕ → Byte) (k : ℕ) : packed get 8 k = (get k).toNat := by
  have := (get k).isLt
  simp only [packed, Nat.mul_div_cancel k (by norm_num : 0 < 8), Nat.mul_mod_left]
  omega

theorem packed_16 (get : ℕ → Byte) (k : ℕ) : packed get 16 k = (get (2 * k)).toNat + 256 * (get (2 * k + 1)).toNat := by
  have h0 := (get (2 * k)).isLt
  have h1 := (get (2 * k + 1)).isLt
  simp only [packed, show k * 16 / 8 = 2 * k by omega, show k * 16 % 8 = 0 by omega]
  omega

theorem packed_4 (get : ℕ → Byte) (k : ℕ) : packed get 4 k = (get (k / 2)).toNat / 16 ^ (k % 2) % 16 := by
  simp only [packed, show k * 4 / 8 = k / 2 by omega]
  obtain h | h : k % 2 = 0 ∨ k % 2 = 1 := by omega
  · simp only [h, show k * 4 % 8 = 0 by omega]
    omega
  · simp only [h, show k * 4 % 8 = 4 by omega]
    omega

/-- Four elements of six bits share three bytes. -/
theorem packed_6 (get : ℕ → Byte) (k : ℕ) : packed get 6 k =
    ((get (3 * (k / 4))).toNat + 256 * (get (3 * (k / 4) + 1)).toNat + 65536 * (get (3 * (k / 4) + 2)).toNat) / 64 ^ (k % 4) % 64 := by
  have h0 := (get (3 * (k / 4))).isLt
  have h1 := (get (3 * (k / 4) + 1)).isLt
  have h2 := (get (3 * (k / 4) + 2)).isLt
  obtain h | h | h | h : k % 4 = 0 ∨ k % 4 = 1 ∨ k % 4 = 2 ∨ k % 4 = 3 := by omega
  · simp only [packed, h, show k * 6 / 8 = 3 * (k / 4) by omega, show k * 6 % 8 = 0 by omega]
    omega
  · simp only [packed, h, show k * 6 / 8 = 3 * (k / 4) by omega, show k * 6 % 8 = 6 by omega]
    omega
  · simp only [packed, h, show k * 6 / 8 = 3 * (k / 4) + 1 by omega, show k * 6 % 8 = 4 by omega]
    rw [show 3 * (k / 4) + 1 + 1 = 3 * (k / 4) + 2 by omega]
    omega
  · simp only [packed, h, show k * 6 / 8 = 3 * (k / 4) + 2 by omega, show k * 6 % 8 = 2 by omega]
    omega

/-- The formats that `mma` takes (R218). -/
theorem takes.cases {f : Option FType} (h : takes f) :
    f = none ∨ f = some .bf16 ∨ f = some .e4m3 ∨ f = some .e5m2 ∨ f = some .e2m1 ∨ f = some .ln6 := by
  simpa [takes] using h

theorem packed_codeAt {f : Option FType} (h : takes f) (get : ℕ → Byte) (k : ℕ) : packed get (mBits f) k = codeAt f (fun c => (get c).toNat) k := by
  obtain rfl | rfl | rfl | rfl | rfl | rfl := h.cases
  · exact packed_8 get k
  · exact packed_16 get k
  · exact packed_8 get k
  · exact packed_8 get k
  · exact packed_4 get k
  · exact packed_6 get k

theorem rowBytes_eq {o : MOp} (h : takes o.fa) : o.rowBytes = rowLen o := by
  obtain h | h | h | h | h | h := h.cases
  all_goals
    simp only [MOp.rowBytes, rowLen, h, mBits, fmtBits, fmtParams]
    omega

theorem mBits_eq {o : MOp} (h : takes o.fb) : mBits o.fb = widthB o := by
  obtain h | h | h | h | h | h := h.cases
  all_goals
    simp only [widthB, h]
    rfl

theorem packed_widthB {o : MOp} (h : takes o.fb) (get : ℕ → Byte) (k : ℕ) : packed get (widthB o) k = codeAt o.fb (fun c => (get c).toNat) k := by
  rw [← mBits_eq h, packed_codeAt h]

/-- R221: the code of A. -/
theorem codeA_eq (o : MOp) (loc : Memory) (i k : ℕ) (h : takes o.fa) :
    o.codeA loc i k = codeAt o.fa (fun c => (cget 0 loc (layAddr o.aoff i c 128 (rowLen o) o.apitch o.lay)).toNat) k := by
  simp only [MOp.codeA, packed_codeAt h, rowBytes_eq h]

/-- R222: the code of a dense B. -/
theorem codeB_dense (o : MOp) (wb : Memory) (k j : ℕ) (h : takes o.fb) (hs : o.spb = false) :
    o.codeB wb k j = codeAt o.fb (fun c => (cget 0 wb (o.boff + k / 64 * (1024 * widthB o) + j * (8 * widthB o) + c)).toNat) (k % 64) := by
  simp only [MOp.codeB, MOp.chunk, hs, Bool.not_false, if_true, Bool.false_eq_true, if_false, mBits_eq h, packed_widthB h, mul_assoc]

/-- A hexadecimal digit of a little-endian value lies in the byte of its number. -/
theorem ofBytes_nibble : ∀ (l : List Byte) (g : ℕ), ofBytes l / 16 ^ g % 16 = (l.getD (g / 2) 0).toNat / 16 ^ (g % 2) % 16
  | [], g => by simp [ofBytes]
  | b :: l, 0 => by
    have := b.isLt
    simp only [ofBytes]
    simp
    omega
  | b :: l, 1 => by
    have := b.isLt
    simp only [ofBytes]
    simp
    omega
  | b :: l, g + 2 => by
    have hb := b.isLt
    have h1 : ofBytes (b :: l) / 16 ^ (g + 2) = ofBytes l / 16 ^ g := by
      rw [pow_add, mul_comm, ← Nat.div_div_eq_div_mul, ofBytes]
      congr 1
      omega
    rw [h1, ofBytes_nibble l g, show (g + 2) / 2 = g / 2 + 1 by omega, Nat.add_mod_right, List.getD_cons_succ]

theorem readLE_nibble (m : Memory) (a : ℕ) {g n : ℕ} (hg : g < 2 * n) : readLE m a n / 16 ^ g % 16 = (cget 0 m (a + g / 2)).toNat / 16 ^ (g % 2) % 16 := by
  have hlt : g / 2 < n := by omega
  rw [readLE, ofBytes_nibble]
  simp [cgets, upto, List.getD, hlt]

/-- R225: the codes of a group of a 2:4 column, of which two are kept. -/
theorem codeB_kept (o : MOp) (wb : Memory) (q j g : ℕ) (h : takes o.fb) (hs : o.spb = true) (hg : g < 16) :
    let at' := o.boff + q * (512 * widthB o + 1024)
    let m := (cget 0 wb (at' + 512 * widthB o + 8 * j + g / 2)).toNat / 16 ^ (g % 2) % 16
    let kept (n : Nat) := codeAt o.fb (fun c => (cget 0 wb (at' + j * (4 * widthB o) + c)).toNat) n
    m % 4 < m / 4 → o.codeB wb (64 * q + 4 * g + m % 4) j = kept (2 * g) ∧ o.codeB wb (64 * q + 4 * g + m / 4) j = kept (2 * g + 1) ∧
      ∀ r, r < 4 → r ≠ m % 4 → r ≠ m / 4 → o.codeB wb (64 * q + 4 * g + r) j = 0 := by
  intro at' m kept hm
  have hmeta : o.meta' wb q j / 16 ^ g % 16 = m := by
    simp only [MOp.meta', MOp.chunk, hs, if_true, mBits_eq h, readLE_nibble wb _ (show g < 2 * 8 by omega)]
    rfl
  have hcode : ∀ r, r < 4 → o.codeB wb (64 * q + 4 * g + r) j =
      if r = m % 4 then kept (2 * g) else if r = m / 4 then kept (2 * g + 1) else 0 := by
    intro r hr
    simp only [MOp.codeB, show (64 * q + 4 * g + r) / 64 = q by omega, show (64 * q + 4 * g + r) % 64 / 4 = g by omega,
      show (64 * q + 4 * g + r) % 64 % 4 = r by omega, hmeta, MOp.chunk, hs, if_true, Bool.not_true, Bool.false_eq_true, if_false,
      mBits_eq h, packed_widthB h, mul_assoc, beq_iff_eq, kept, at']
  have h16 : m < 16 := Nat.mod_lt _ (by norm_num)
  refine ⟨?_, ?_, fun r hr h0 h1 => ?_⟩
  · rw [hcode _ (by omega), if_pos rfl]
  · rw [hcode _ (by omega), if_neg (by omega), if_pos rfl]
  · rw [hcode r hr, if_neg h0, if_neg h1]

/-- R221, R222: the scale codes; 127 where there is none. -/
theorem scale_codes (o : MOp) (m : Memory) (i p j : ℕ) : (o.asc = none → o.scaleA m i p = 127) ∧ (o.bsc = none → o.scaleB m p j = 127) ∧
    (∀ a, o.asc = some a → o.scaleA m i p = (cget 0 m (a * 16 + i * (o.k / 32) + p)).toNat) ∧
    ∀ a, o.bsc = some a → o.scaleB m p j = (cget 0 m (a * 16 + p * 128 + j)).toNat := by
  refine ⟨fun h => ?_, fun h => ?_, fun a h => ?_, fun a h => ?_⟩ <;> simp only [MOp.scaleA, MOp.scaleB, h]

/-! ### What an operation is checked for (R223) -/

/-- Four causes in order: which of them is the first. -/
theorem firstCause_eq_none (a b c d : Bool) :
    (if a then some 1 else if b then some 2 else if c then some 3 else if d then some 4 else none : Option ℕ) = none ↔
      a = false ∧ b = false ∧ c = false ∧ d = false := by
  cases a <;> cases b <;> cases c <;> cases d <;> simp

theorem firstCause_eq_one (a b c d : Bool) :
    (if a then some 1 else if b then some 2 else if c then some 3 else if d then some 4 else none : Option ℕ) = some 1 ↔ a = true := by
  cases a <;> cases b <;> cases c <;> cases d <;> simp

/-- The first cause of R223 is K's. -/
theorem check_k (o : MOp) (b : Block) : o.check b = some 1 ↔ o.k = 0 ∨ o.k % 64 ≠ 0 ∨ 65536 < o.k := by
  refine (firstCause_eq_one _ _ _ _).trans ?_
  simp [or_assoc]

/-- A scale's extent, where there are scales. -/
theorem any_gt_eq_false {a : Option ℕ} {f : ℕ → ℕ} {n : ℕ} : (a.any fun x => decide (f x > n)) = false ↔ ∀ x, a = some x → f x ≤ n := by
  cases a <;> simp

/-- Scales are for the formats narrower than BF16 that are no integers. -/
theorem noScale_eq_false {f : Option FType} {x : FType} {y : Option ℕ} :
    (y.isSome && (f == none || f == some x)) = false ↔ (y.isSome → f ≠ none ∧ f ≠ some x) := by
  cases y <;> cases f <;> simp

/-- R221 to R223: an operation passes the check exactly when its operands fit. -/
theorem check_none (o : MOp) (b : Block) (ha : takes o.fa) (hb : takes o.fb) : o.check b = none ↔ operandsFit o b := by
  refine (firstCause_eq_none _ _ _ _).trans ?_
  simp only [operandsFit, rowBytes_eq ha, MOp.chunk, mBits_eq hb, Bool.or_eq_false_iff, any_gt_eq_false, noScale_eq_false]
  refine and_congr ?_ (and_congr ?_ (and_congr ?_ Iff.rfl))
  · simp [and_assoc]
  · by_cases h2 : o.lay.outer.val = 2
    · simp [h2, and_assoc]
    · simp [h2, and_assoc, show o.aoff + 128 * rowLen o = o.aoff + 127 * rowLen o + rowLen o by omega]
  · simp


/-! ### The groups of a dot product (R69 to R71) -/

theorem sext_eq_toInt (x : ℕ) {n : ℕ} (hn : 0 < n) : sext x n = (BitVec.ofNat n x).toInt := by
  obtain ⟨n, rfl⟩ := Nat.exists_eq_add_one.mpr hn
  rw [sext, BitVec.toInt_eq_toNat_cond, BitVec.toNat_ofNat, Nat.add_sub_cancel, pow_succ']
  refine if_congr ⟨fun h => by omega, fun h => by omega⟩ rfl ?_
  push_cast
  ring

theorem wrapN_eq_toNat (t : ℤ) (n : ℕ) : wrapN t n = (BitVec.ofInt n t).toNat := by
  rw [wrapN, BitVec.toNat_ofInt]

/-- The codes of A and B of the group from element k on. -/
def groupCodes (A B : ℕ → ℕ) (g k : ℕ) : List (ℕ × ℕ) := (List.range g).map fun e => (A (k + e), B (k + e))

/-- The accumulator and the flags after the group from element k on. -/
def afterGroup (o : MOp) (A B scA scB : ℕ → ℕ) (k : ℕ) (r : ℕ × ℕ) : ℕ × ℕ := o.dot A B scA scB 1 k r.1 r.2

/-- The groups are taken in ascending order. -/
theorem dot_eq_foldl (o : MOp) (A B scA scB : ℕ → ℕ) : ∀ n k acc fl, o.dot A B scA scB n k acc fl =
    (List.range n).foldl (fun r q => afterGroup o A B scA scB (k + q * o.gsize) r) (acc, fl)
  | 0, _, _, _ => rfl
  | n + 1, k, acc, fl => by
    have hstep : o.dot A B scA scB (n + 1) k acc fl =
        o.dot A B scA scB n (k + o.gsize) (afterGroup o A B scA scB k (acc, fl)).1 (afterGroup o A B scA scB k (acc, fl)).2 := by
      simp only [afterGroup, MOp.dot]
      split <;> rfl
    rw [hstep, dot_eq_foldl o A B scA scB n, List.range_succ_eq_map, List.foldl_cons, List.foldl_map]
    simp only [Nat.zero_mul, Nat.add_zero, Nat.succ_eq_add_one, Nat.add_mul, Nat.one_mul, Nat.add_assoc, Nat.add_comm o.gsize]

/-- A group of float codes is added with one rounding. -/
theorem afterGroup_float {o : MOp} (h : o.fa ≠ none ∨ o.fb ≠ none) (A B scA scB : ℕ → ℕ) (k : ℕ) (r : ℕ × ℕ) :
    afterGroup o A B scA scB k r =
      let S := scaledSum o (groupCodes A B o.gsize k) (scA (k / 32)) (scB (k / 32))
      let t := xAdd false (fvalue .f32 .ieee r.1) S.1
      let y := roundF .f32 .ieee .rne false 0 t.1
      (y.1, r.2 ||| S.2 ||| t.2 ||| y.2) := by
  have hc : (o.fa == none && o.fb == none) = false := by
    rw [Bool.and_eq_false_iff, beq_eq_false_iff_ne, beq_eq_false_iff_ne]
    exact h
  simp only [afterGroup, MOp.dot, hc, Bool.false_eq_true, if_false, scaledSum, groupCodes, upto, List.map_map, roundF32]
  rfl

/-- A group of INT8 codes is added modulo 2^32. -/
theorem afterGroup_int {o : MOp} (ha : o.fa = none) (hb : o.fb = none) (A B scA scB : ℕ → ℕ) (k : ℕ) (r : ℕ × ℕ) :
    afterGroup o A B scA scB k r =
      let t := (BitVec.ofNat 32 r.1).toInt + ((groupCodes A B o.gsize k).map fun p => (BitVec.ofNat 8 p.1).toInt * (BitVec.ofNat 8 p.2).toInt).sum
      ((BitVec.ofInt 32 t).toNat, r.2 ||| if t < -(2 ^ 31) ∨ 2 ^ 31 ≤ t then fOVF else 0) := by
  simp only [afterGroup, MOp.dot, ha, hb, beq_self_eq_true, Bool.and_self, if_true, groupCodes, upto, List.map_map, List.sum_eq_foldl,
    sext_eq_toInt _ (by norm_num : 0 < 32), sext_eq_toInt _ (by norm_num : 0 < 8), wrapN_eq_toNat, Bool.or_eq_true, decide_eq_true_eq, ge_iff_le]
  rfl

theorem gsize_sixteen {o : MOp} (h : (o.fa = some .ln6 ∨ o.fa = some .e2m1) ∧ (o.fb = some .ln6 ∨ o.fb = some .e2m1)) : o.gsize = 16 := by
  simp only [MOp.gsize, Bool.and_eq_true, Bool.or_eq_true, beq_iff_eq, if_pos h]

theorem gsize_eight {o : MOp} (h : ¬((o.fa = some .ln6 ∨ o.fa = some .e2m1) ∧ (o.fb = some .ln6 ∨ o.fb = some .e2m1))) : o.gsize = 8 := by
  simp only [MOp.gsize, Bool.and_eq_true, Bool.or_eq_true, beq_iff_eq, if_neg h]

/-- The local memory of the core that holds a column of B. -/
def wbOf (b : Block) (j : ℕ) : Memory := if j < 128 then b.wbL else b.wbF

/-- What an element of the result starts from. -/
def startOf (o : MOp) (b : Block) (i j : ℕ) : Word := if o.zacc then 0 else elt (listGet [] b.acc o.tile) i j

/-- An element takes its groups one after the other. -/
theorem elem_eq_foldl (o : MOp) (b : Block) (i j : ℕ) : o.elem b i j =
    (List.range (o.k / o.gsize)).foldl (fun r q => afterGroup o (o.codeA b.loc i) (fun k => o.codeB (wbOf b j) k (j % 128)) (o.scaleA b.loc i)
      (fun p => o.scaleB (wbOf b j) p (j % 128)) (q * o.gsize) r) ((startOf o b i j).toNat, 0) := by
  have hs : (startOf o b i j).toNat = if o.zacc then 0 else (cget 0 (listGet [] b.acc o.tile) (i * 256 + j)).toNat := by
    unfold startOf elt
    split <;> rfl
  rw [hs]
  exact (dot_eq_foldl ..).trans (by simp only [Nat.zero_add, wbOf])

/-- R71: the element of INT8 operands, modulo 2^32. -/
theorem elem_int_mod {o : MOp} {b : Block} {i j : ℕ} (ha : o.fa = none) (hb : o.fb = none) (hk : o.k % 64 = 0) :
    BitVec.ofNat 32 (o.elem b i j).1 = startOf o b i j + BitVec.ofInt 32
      ((List.range o.k).map fun k => (BitVec.ofNat 8 (o.codeA b.loc i k)).toInt * (BitVec.ofNat 8 (o.codeB (wbOf b j) k (j % 128))).toInt).sum := by
  have hg : o.gsize = 8 := gsize_eight (by simp [ha])
  have key : ∀ n, BitVec.ofNat 32 ((List.range n).foldl (fun r q => afterGroup o (o.codeA b.loc i) (fun k => o.codeB (wbOf b j) k (j % 128))
      (o.scaleA b.loc i) (fun p => o.scaleB (wbOf b j) p (j % 128)) (q * 8) r) ((startOf o b i j).toNat, 0)).1 =
      startOf o b i j + BitVec.ofInt 32 ((List.range (n * 8)).map fun k =>
        (BitVec.ofNat 8 (o.codeA b.loc i k)).toInt * (BitVec.ofNat 8 (o.codeB (wbOf b j) k (j % 128))).toInt).sum := by
    intro n
    induction n with
    | zero => simp
    | succ n ih =>
      rw [List.range_succ, List.foldl_append, List.foldl_cons, List.foldl_nil, afterGroup_int ha hb, hg, ih, Nat.add_mul, Nat.one_mul, List.range_add,
        List.map_append, List.sum_append, BitVec.ofInt_add, ← BitVec.add_assoc]
      simp only [BitVec.ofNat_toNat, BitVec.setWidth_eq, BitVec.ofInt_add, BitVec.ofInt_toInt, groupCodes, List.map_map, Function.comp_def]
  rw [elem_eq_foldl, hg, key, show o.k / 8 * 8 = o.k by omega]

/-! ### The tile that the array gives -/

/-- Values under rising keys, without the defaults. -/
theorem cwfFrom_append [DecidableEq α] {d : α} {k : ℕ} {v : α} (hv : v ≠ d) : ∀ {lo : ℕ} {l : Cells α}, lo ≤ k → cwfFrom d lo l = true → (∀ e ∈ l, e.1 < k) →
    cwfFrom d lo (l ++ [(k, v)]) = true
  | lo, [], hlo, _, _ => by simp [cwfFrom, hlo, hv]
  | lo, (a, w) :: l, hlo, h, hk => by
    simp only [cwfFrom, List.cons_append, Bool.and_eq_true] at h ⊢
    have ha : a < k := hk (a, w) (List.mem_cons_self ..)
    exact ⟨h.1, cwfFrom_append hv ha h.2 fun e he => hk e (List.mem_cons_of_mem _ he)⟩

theorem cget_append [DecidableEq α] {d : α} {k : ℕ} {v : α} : ∀ {l : Cells α}, (∀ e ∈ l, e.1 < k) → ∀ n, cget d (l ++ [(k, v)]) n =
    if n = k then v else cget d l n
  | [], _, n => by simp [cget]
  | (a, w) :: l, hk, n => by
    have ha : a < k := hk (a, w) (List.mem_cons_self ..)
    have ih := cget_append (d := d) (v := v) (l := l) (fun e he => hk e (List.mem_cons_of_mem _ he)) n
    simp only [cget, List.cons_append, ih]
    grind

theorem cget_above {α : Type} {d : α} {k : ℕ} : ∀ {l : Cells α}, (∀ e ∈ l, e.1 < k) → cget d l k = d
  | [], _ => rfl
  | (a, w) :: l, hk => by
    have ha : a < k := hk (a, w) (List.mem_cons_self ..)
    rw [cget, if_neg (by omega), if_neg (by omega), cget_above fun e he => hk e (List.mem_cons_of_mem _ he)]

/-- The tile of the first n elements. -/
def tileUpTo (o : MOp) (b : Block) (n : ℕ) : Cells Word × ℕ :=
  (List.range n).foldl (fun acc n =>
    let r := o.elem b (n / 256) (n % 256)
    (if r.1 == 0 then acc.1 else acc.1 ++ [(n, BitVec.ofNat 32 r.1)], acc.2 ||| r.2)) ([], 0)

theorem tileUpTo_succ (o : MOp) (b : Block) (n : ℕ) : (tileUpTo o b (n + 1)).1 =
    if (o.elem b (n / 256) (n % 256)).1 = 0 then (tileUpTo o b n).1
    else (tileUpTo o b n).1 ++ [(n, BitVec.ofNat 32 (o.elem b (n / 256) (n % 256)).1)] := by
  simp only [tileUpTo, List.range_succ, List.foldl_append, List.foldl_cons, List.foldl_nil, beq_iff_eq]

/-- The tile of the first elements holds each of them at its place. -/
theorem tileUpTo_holds {o : MOp} {b : Block} (h : ∀ i j, i < 128 → j < 256 → (o.elem b i j).1 < 2 ^ 32) : ∀ n ≤ 32768,
    cwf 0 (tileUpTo o b n).1 = true ∧ (∀ e ∈ (tileUpTo o b n).1, e.1 < n) ∧
      ∀ k < n, cget 0 (tileUpTo o b n).1 k = BitVec.ofNat 32 (o.elem b (k / 256) (k % 256)).1
  | 0, _ => ⟨rfl, fun _ he => absurd he (List.not_mem_nil), fun _ hk => absurd hk (Nat.not_lt_zero _)⟩
  | n + 1, hn => by
    obtain ⟨hw, hlt, hv⟩ := tileUpTo_holds h n (by omega)
    have hel := h (n / 256) (n % 256) (by omega) (Nat.mod_lt _ (by norm_num))
    have hcases : ∀ k < n + 1, k < n ∨ k = n := fun k hk => by omega
    rw [tileUpTo_succ]
    by_cases hz : (o.elem b (n / 256) (n % 256)).1 = 0
    · rw [if_pos hz]
      refine ⟨hw, fun e he => (hlt e he).trans (Nat.lt_succ_self n), fun k hk => ?_⟩
      obtain hk | rfl := hcases k hk
      · exact hv k hk
      · rw [hz]
        exact cget_above hlt
    · rw [if_neg hz]
      have hne : BitVec.ofNat 32 (o.elem b (n / 256) (n % 256)).1 ≠ 0 := by
        intro he
        have h0 := congrArg BitVec.toNat he
        rw [BitVec.toNat_ofNat, Nat.mod_eq_of_lt hel] at h0
        exact hz h0
      refine ⟨cwfFrom_append hne (Nat.zero_le n) hw hlt, fun e he => ?_, fun k hk => ?_⟩
      · obtain he | he := List.mem_append.mp he
        · exact (hlt e he).trans (Nat.lt_succ_self n)
        · rw [List.mem_singleton.mp he]
          exact Nat.lt_succ_self n
      · rw [cget_append hlt]
        obtain hk | rfl := hcases k hk
        · rw [if_neg (by omega), hv k hk]
        · rw [if_pos rfl]

end Sys2Proof.Claims
end

section
/-!
SUPPORT. The products of a group, their special values, their exact sum and the scales (R56, R58, R69, R70).
-/
namespace Sys2Proof.Claims
open Sys2Proof.Machine

/-! ### The product of two codes (R56, R70, R218) -/

theorem mVal_eq (f : Option FType) (rd : Reading) (c : ℕ) : mVal f rd c = opValue f rd c := by
  cases f with
  | some f => rfl
  | none =>
    simp only [mVal, opValue, ofInt, sext_eq_toInt _ (by norm_num : 0 < 8), beq_iff_eq]
    split
    next h => simp [h]
    next => rfl

/-- The exact product of two values, with no flag for a NaN. -/
def exactMul : Xv → Xv → Xv × ℕ
  | .nan _, _ => (.nan false, 0)
  | _, .nan _ => (.nan false, 0)
  | .num u m e, .num v n d => (.num (u != v) (m * n) (e + d), 0)
  | .inf u, .inf v => (.inf (u != v), 0)
  | .inf u, .num v n _ => if n = 0 then (.nan false, fINV) else (.inf (u != v), 0)
  | .num u m _, .inf v => if m = 0 then (.nan false, fINV) else (.inf (u != v), 0)

theorem dotMul_eq (a b : Xv) : dotMul a b = exactMul a b := by
  cases a <;> cases b <;> simp [dotMul, xMul, exactMul, nanOps, Xv.isNan, Xv.isSig, Xv.isZero, Xv.sign]

theorem exactMul_flag (a b : Xv) : (exactMul a b).2 = fINV ∧ zeroTimesInf a b ∨ (exactMul a b).2 = 0 ∧ ¬zeroTimesInf a b := by
  cases a <;> cases b <;> simp [exactMul, zeroTimesInf, fINV] <;> grind

theorem exactMul_nan (a b : Xv) : (exactMul a b).1.isNan = true ↔ zeroTimesInf a b ∨ a.isNan = true ∨ b.isNan = true := by
  cases a <;> cases b <;> simp [exactMul, zeroTimesInf, Xv.isNan] <;> grind

theorem exactMul_inf (a b : Xv) (neg : Bool) : (exactMul a b).1 = .inf neg ↔ infProduct a b neg := by
  cases a <;> cases b <;> simp [exactMul, infProduct] <;> grind

theorem exactMul_args {a b : Xv} {n : Bool} {m : ℕ} {e : ℤ} (h : (exactMul a b).1 = .num n m e) :
    (∃ n m e, a = .num n m e) ∧ ∃ n m e, b = .num n m e := by
  cases a <;> cases b <;> simp [exactMul] at h ⊢
  all_goals grind

theorem ratOf_mul (u v : Bool) (m n : ℕ) (e d : ℤ) : ratOf (u != v) (m * n) (e + d) = ratOf u m e * ratOf v n d := by
  have h2 : (2 : ℚ) ≠ 0 := two_ne_zero
  cases u <;> cases v <;> simp [ratOf, zpow_add₀ h2] <;> ring

theorem exactMul_num {a b : Xv} {neg : Bool} {m : ℕ} {e : ℤ} (h : (exactMul a b).1 = .num neg m e) :
    neg = (a.sign != b.sign) ∧ ratOf neg m e = ratOfXv a * ratOfXv b := by
  cases a <;> cases b <;> simp [exactMul] at h
  case num.num u m e v n d =>
    obtain ⟨rfl, rfl, rfl⟩ := h
    exact ⟨rfl, ratOf_mul ..⟩
  all_goals grind

/-- What holds of the product of two operands, where v is its value as a number. -/
structure IsProduct (a b : Xv) (v : ℚ) (p : Xv × ℕ) : Prop where
  flag : p.2 = fINV ∧ zeroTimesInf a b ∨ p.2 = 0 ∧ ¬zeroTimesInf a b
  nan : p.1.isNan = true ↔ zeroTimesInf a b ∨ a.isNan = true ∨ b.isNan = true
  inf : ∀ neg, p.1 = .inf neg ↔ infProduct a b neg
  num : ∀ {neg m e}, p.1 = .num neg m e → neg = (a.sign != b.sign) ∧ ratOf neg m e = v

theorem exactMul_isProduct (a b : Xv) : IsProduct a b (ratOfXv a * ratOfXv b) (exactMul a b) :=
  ⟨exactMul_flag a b, exactMul_nan a b, exactMul_inf a b, exactMul_num⟩

/-- The sign of a number of LN6 is bit 5 of its code. -/
theorem ln6_sign {rd : Reading} {c : ℕ} {n : Bool} {m : ℕ} {e : ℤ} (h : fvalue .ln6 rd c = .num n m e) : n = decide (c / 32 % 2 = 1) := by
  have hs : bit c 5 = decide (c / 32 % 2 = 1) := rfl
  simp only [fvalue] at h
  split_ifs at h <;> cases h <;> exact hs

/-- R56: the product of two numbers of LN6 is the table's. -/
theorem codeMul_ln6 {ra rb : Reading} {a b : ℕ} {n1 n2 : Bool} {m1 m2 : ℕ} {e1 e2 : ℤ} (ha : fvalue .ln6 ra a = .num n1 m1 e1)
    (hb : fvalue .ln6 rb b = .num n2 m2 e2) : codeMul .ln6 .ln6 ra rb a b =
      if a % 32 = 0 ∨ b % 32 = 0 then (.num (n1 != n2) 0 0, 0)
      else (.num (n1 != n2) (lnt ((a % 32 + b % 32) % 4)) (((a % 32 + b % 32) / 4 : ℕ) - 32), 0) := by
  simp only [codeMul, ha, hb, beq_self_eq_true, Bool.and_self, if_true, Bool.or_eq_true, beq_iff_eq]

theorem lnt_eq_getD (k : ℕ) : lnt (k % 4) = [0x1000000, 0x1306FE1, 0x16A09E6, 0x1AE89FA].getD (k % 4) 0 := by
  have hk : k % 4 < 4 := Nat.mod_lt _ (by norm_num)
  generalize k % 4 = r at hk
  interval_cases r <;> rfl

theorem codeMul_ln6_isProduct {o : MOp} {a b : ℕ} (hfa : o.fa = some .ln6) (hfb : o.fb = some .ln6) {n1 n2 : Bool} {m1 m2 : ℕ} {e1 e2 : ℤ}
    (ha : fvalue .ln6 o.ra a = .num n1 m1 e1) (hb : fvalue .ln6 o.rb b = .num n2 m2 e2) :
    IsProduct (.num n1 m1 e1) (.num n2 m2 e2) (productOf o a b) (codeMul .ln6 .ln6 o.ra o.rb a b) := by
  have hsign : (if a / 32 % 2 = b / 32 % 2 then (1 : ℚ) else -1) = if n1 != n2 then -1 else 1 := by
    have h1 : a / 32 % 2 < 2 := Nat.mod_lt _ (by norm_num)
    have h2 : b / 32 % 2 < 2 := Nat.mod_lt _ (by norm_num)
    rw [ln6_sign ha, ln6_sign hb]
    generalize a / 32 % 2 = x at *
    generalize b / 32 % 2 = y at *
    interval_cases x <;> interval_cases y <;> rfl
  rw [codeMul_ln6 ha hb, productOf, if_pos ⟨hfa, hfb⟩]
  split
  · refine ⟨by simp [zeroTimesInf], by simp [zeroTimesInf, Xv.isNan], by simp [infProduct], fun h => ?_⟩
    cases h
    simp [ratOf, Xv.sign]
  · refine ⟨by simp [zeroTimesInf], by simp [zeroTimesInf, Xv.isNan], by simp [infProduct], fun h => ?_⟩
    cases h
    exact ⟨rfl, by rw [ratOf, hsign, lnt_eq_getD]⟩

/-- The product of two codes is exact unless the table of LN6 gives it. -/
theorem mMul_eq_exactMul {o : MOp} (a b : ℕ) (h : ¬(o.fa = some .ln6 ∧ o.fb = some .ln6)) :
    mMul o a b = exactMul (opValue o.fa o.ra a) (opValue o.fb o.rb b) := by
  unfold mMul
  cases hfa : o.fa <;> cases hfb : o.fb
  case some.some fa fb =>
    have hc : (fa == .ln6 && fb == .ln6) = false := by
      simp only [hfa, hfb, Option.some.injEq, ← Bool.not_eq_true, Bool.and_eq_true, beq_iff_eq] at h ⊢
      exact h
    simp only [codeMul, hc, Bool.false_eq_true, if_false, dotMul_eq]
    rfl
  all_goals simp only [dotMul_eq, mVal_eq]

/-- Of two codes of LN6, where one is no number, the product is exact. -/
theorem codeMul_ln6_special {ra rb : Reading} {a b : ℕ} (h : ¬((∃ n m e, fvalue .ln6 ra a = .num n m e) ∧ ∃ n m e, fvalue .ln6 rb b = .num n m e)) :
    codeMul .ln6 .ln6 ra rb a b = exactMul (fvalue .ln6 ra a) (fvalue .ln6 rb b) := by
  rw [← dotMul_eq]
  simp only [codeMul, beq_self_eq_true, Bool.and_self, if_true]
  cases ha : fvalue .ln6 ra a <;> cases hb : fvalue .ln6 rb b
  case num.num => exact absurd ⟨⟨_, _, _, ha⟩, _, _, _, hb⟩ h
  all_goals rfl

/-- R56, R70, R218: the product of two codes. -/
theorem mMul_isProduct (o : MOp) (a b : ℕ) : IsProduct (opValue o.fa o.ra a) (opValue o.fb o.rb b) (productOf o a b) (mMul o a b) := by
  by_cases h : o.fa = some .ln6 ∧ o.fb = some .ln6
  · obtain ⟨hfa, hfb⟩ := h
    have hm : mMul o a b = codeMul .ln6 .ln6 o.ra o.rb a b := by simp only [mMul, hfa, hfb]
    rw [hm, hfa, hfb]
    by_cases hn : (∃ n m e, fvalue .ln6 o.ra a = .num n m e) ∧ ∃ n m e, fvalue .ln6 o.rb b = .num n m e
    · obtain ⟨⟨n1, m1, e1, ha⟩, n2, m2, e2, hb⟩ := hn
      simp only [opValue]
      rw [ha, hb]
      exact codeMul_ln6_isProduct hfa hfb ha hb
    · rw [codeMul_ln6_special hn]
      exact { exactMul_isProduct _ _ with num := fun hp => absurd (exactMul_args hp) hn }
  · rw [mMul_eq_exactMul a b h, productOf, if_neg h]
    exact exactMul_isProduct _ _


/-! ### The sum of a group of products (R70) -/

/-- The flag of a group's products. -/
def groupFlag (P : List (Xv × ℕ)) : ℕ := if P.any fun p => p.2 != 0 then fINV else 0

/-- A product that is a number other than zero. -/
def nonzero (p : Xv × ℕ) : Option (Bool × ℕ × ℤ) := match p.1 with
  | .num n m e => if m == 0 then none else some (n, m, e)
  | _ => none

/-- The integer that a number is in units of 2^q. -/
def unitsOf (q : ℤ) (p : Bool × ℕ × ℤ) : ℤ := if p.1 then -(p.2.1 * 2 ^ (p.2.2 - q).toNat) else p.2.1 * 2 ^ (p.2.2 - q).toNat

/-- The smallest exponent. -/
def lowest (l : List (Bool × ℕ × ℤ)) : ℤ := l.foldl (fun acc p => min acc p.2.2) 100000

section
variable {P : List (Xv × ℕ)}

theorem groupSum_nan (h : ∃ p ∈ P, p.1.isNan = true) : groupSum P = (.nan false, groupFlag P) := by
  rw [groupSum, if_pos (List.any_eq_true.mpr h), groupFlag]

theorem not_any_nan (h : ∀ p ∈ P, p.1.isNan = false) : (P.any fun p => p.1.isNan) = false := by
  simpa using h

theorem any_inf (neg : Bool) : (P.any fun p => p.1 == .inf neg) = decide (∃ p ∈ P, p.1 = .inf neg) := by
  rw [Bool.eq_iff_iff]
  simp

/-- The sum where no product is a NaN, but some is infinite. -/
theorem groupSum_inf (hn : ∀ p ∈ P, p.1.isNan = false) (neg : Bool) (h : ∃ p ∈ P, p.1 = .inf neg) :
    groupSum P = if ∃ p ∈ P, p.1 = .inf (!neg) then (.nan false, fINV) else (.inf neg, 0) := by
  rw [groupSum, not_any_nan hn, any_inf, any_inf]
  cases neg <;> simp only [h, Bool.not_false, Bool.not_true] <;> split_ifs <;> simp_all

theorem foldl_min_le : ∀ {l : List (Bool × ℕ × ℤ)} (q : ℤ),
    l.foldl (fun acc p => min acc p.2.2) q ≤ q ∧ ∀ p ∈ l, l.foldl (fun acc p => min acc p.2.2) q ≤ p.2.2
  | [], q => by simp
  | a :: l, q => by
    obtain ⟨h1, h2⟩ := foldl_min_le (l := l) (min q a.2.2)
    refine ⟨h1.trans (min_le_left ..), fun p hp => ?_⟩
    obtain rfl | hp := List.mem_cons.mp hp
    · exact h1.trans (min_le_right ..)
    · exact h2 p hp

theorem lowest_le {l : List (Bool × ℕ × ℤ)} {p : Bool × ℕ × ℤ} (hp : p ∈ l) : lowest l ≤ p.2.2 := (foldl_min_le _).2 p hp

theorem unitsOf_cast {q : ℤ} {p : Bool × ℕ × ℤ} (h : q ≤ p.2.2) : (unitsOf q p : ℚ) * 2 ^ q = ratOf p.1 p.2.1 p.2.2 := by
  obtain ⟨n, m, e⟩ := p
  have he : (2 : ℚ) ^ e = 2 ^ (e - q).toNat * 2 ^ q := by
    rw [← zpow_natCast, ← zpow_add₀ two_ne_zero, Int.toNat_of_nonneg (sub_nonneg.mpr h), sub_add_cancel]
  cases n <;> simp [unitsOf, ratOf, he] <;> ring

theorem sum_units {q : ℤ} : ∀ {l : List (Bool × ℕ × ℤ)}, (∀ p ∈ l, q ≤ p.2.2) →
    (((l.map (unitsOf q)).sum : ℤ) : ℚ) * 2 ^ q = (l.map fun p => ratOf p.1 p.2.1 p.2.2).sum
  | [], _ => by simp
  | p :: l, h => by
    rw [List.map_cons, List.sum_cons, List.map_cons, List.sum_cons, Int.cast_add, add_mul, unitsOf_cast (h p (List.mem_cons_self ..)),
      sum_units fun p hp => h p (List.mem_cons_of_mem _ hp)]

/-- The sum in units of the smallest exponent is exact. -/
theorem foldl_units (q : ℤ) : ∀ (l : List (Bool × ℕ × ℤ)) (t : ℤ),
    l.foldl (fun (acc : Int) p =>
      let v : Int := p.2.1 * 2 ^ (p.2.2 - q).toNat
      if p.1 then acc - v else acc + v) t = t + (l.map (unitsOf q)).sum
  | [], t => by simp
  | p :: l, t => by
    rw [List.foldl_cons, foldl_units q l, List.map_cons, List.sum_cons, unitsOf]
    dsimp only
    split <;> ring

theorem sum_nonzero (hf : ∀ p ∈ P, ∃ n m e, p.1 = .num n m e) :
    ((P.filterMap nonzero).map fun p => ratOf p.1 p.2.1 p.2.2).sum = (P.map fun p => ratOfXv p.1).sum := by
  induction P with
  | nil => rfl
  | cons p P ih =>
    obtain ⟨n, m, e, hp⟩ := hf p (List.mem_cons_self ..)
    have ih := ih fun p hp => hf p (List.mem_cons_of_mem _ hp)
    rw [List.map_cons, List.sum_cons, ← ih, hp]
    by_cases hm : m = 0
    · simp [nonzero, hp, hm, ratOfXv, ratOf]
    · simp [nonzero, hp, hm, ratOfXv]

theorem ofInt_value (z : Bool) (t e : ℤ) : ∃ n m d, ofInt z t e = .num n m d ∧ ratOf n m d = t * 2 ^ e ∧ (m = 0 → t = 0 ∧ n = z) := by
  rw [ofInt]
  split
  next h =>
    refine ⟨_, _, _, rfl, ?_, fun _ => ⟨by simpa using h, rfl⟩⟩
    simp [ratOf, by simpa using h]
  next h =>
    have ht : t ≠ 0 := by simpa using h
    refine ⟨_, _, _, rfl, ?_, fun hm => absurd (Int.natAbs_eq_zero.mp hm) ht⟩
    rw [ratOf]
    congr 1
    by_cases hneg : t < 0
    · simp [hneg, abs_of_neg (show (t : ℚ) < 0 by exact_mod_cast hneg)]
    · simp [hneg, abs_of_nonneg (show (0 : ℚ) ≤ t by exact_mod_cast not_lt.mp hneg)]

/-- The sum of numbers is exact; a zero is −0 where every product has the sign. -/
theorem groupSum_finite (hf : ∀ p ∈ P, ∃ n m e, p.1 = .num n m e) : ∃ n m e, groupSum P = (.num n m e, 0) ∧
    ratOf n m e = (P.map fun p => ratOfXv p.1).sum ∧ (m = 0 → n = P.all fun p => p.1.sign) := by
  have hnan : (P.any fun p => p.1.isNan) = false := not_any_nan fun p hp => by
    obtain ⟨n, m, e, h⟩ := hf p hp
    rw [h]
    rfl
  have hinf : ∀ neg, (P.any fun p => p.1 == .inf neg) = false := fun neg => by
    rw [any_inf, decide_eq_false_iff_not]
    rintro ⟨p, hp, h⟩
    obtain ⟨n, m, e, h'⟩ := hf p hp
    exact nomatch h.symm.trans h'
  have hsum : groupSum P = (ofInt (P.all fun p => p.1.sign) ((P.filterMap nonzero).map (unitsOf (lowest (P.filterMap nonzero)))).sum
      (lowest (P.filterMap nonzero)), 0) := by
    have hunits := foldl_units (lowest (P.filterMap nonzero)) (P.filterMap nonzero) 0
    rw [zero_add] at hunits
    rw [groupSum, hnan, hinf, hinf, ← hunits]
    rfl
  obtain ⟨n, m, e, he, hv, h0⟩ := ofInt_value (P.all fun p => p.1.sign) ((P.filterMap nonzero).map (unitsOf (lowest (P.filterMap nonzero)))).sum
    (lowest (P.filterMap nonzero))
  refine ⟨n, m, e, by rw [hsum, he], ?_, fun hm => (h0 hm).2⟩
  rw [hv, ← sum_nonzero hf, sum_units fun _ => lowest_le]

end

/-! ### The scales (R58, R69) -/

theorem scaleX_nan (x : Xv × ℕ) : scaleX (scaleExp 255) x = (.nan false, x.2 ||| fINV) := rfl

theorem scaleExp_of_ne {c : ℕ} (h : c ≠ 255) : scaleExp c = some ((c : ℤ) - 127) := by
  simp [scaleExp, h]

theorem scaleX_num {c : ℕ} (h : c ≠ 255) (n : Bool) (m : ℕ) (e : ℤ) (fl : ℕ) : scaleX (scaleExp c) (.num n m e, fl) = (.num n m (e + (c - 127)), fl) := by
  rw [scaleExp_of_ne h]
  rfl

/-- A scale that is a number leaves what is none. -/
theorem scaleX_special {c : ℕ} (h : c ≠ 255) {x : Xv × ℕ} (hx : ∀ n m e, x.1 ≠ .num n m e) : scaleX (scaleExp c) x = x := by
  rw [scaleExp_of_ne h, scaleX]
  split
  next he => exact absurd he (hx _ _ _)
  next => rfl

theorem ratOf_shift (n : Bool) (m : ℕ) (e k : ℤ) : ratOf n m (e + k) = ratOf n m e * 2 ^ k := by
  rw [ratOf, ratOf, zpow_add₀ two_ne_zero]
  ring


/-! ### The sum of a group with its scales (R69, R70) -/

section
variable {o : MOp} {ps : List (ℕ × ℕ)} {sa sb : ℕ}

/-- The products of a group. -/
def productsOf (o : MOp) (ps : List (ℕ × ℕ)) : List (Xv × ℕ) := ps.map fun p => mMul o p.1 p.2

/-- Some product of a group is of an infinity and a zero. -/
def someInvalid (o : MOp) (ps : List (ℕ × ℕ)) : Prop := ∃ p ∈ ps, zeroTimesInf (opValue o.fa o.ra p.1) (opValue o.fb o.rb p.2)

/-- Some operand of a group is a NaN. -/
def someNan (o : MOp) (ps : List (ℕ × ℕ)) : Prop := ∃ p ∈ ps, (opValue o.fa o.ra p.1).isNan ∨ (opValue o.fb o.rb p.2).isNan

/-- Some product of a group is the infinity of a sign. -/
def someInf (o : MOp) (ps : List (ℕ × ℕ)) (neg : Bool) : Prop := ∃ p ∈ ps, infProduct (opValue o.fa o.ra p.1) (opValue o.fb o.rb p.2) neg

theorem groupFlag_invalid (h : someInvalid o ps) : groupFlag (productsOf o ps) = fINV := by
  obtain ⟨p, hp, hz⟩ := h
  refine if_pos (List.any_eq_true.mpr ⟨_, List.mem_map_of_mem hp, ?_⟩)
  obtain ⟨hf, -⟩ | ⟨-, hn⟩ := (mMul_isProduct o p.1 p.2).flag
  · rw [hf]
    rfl
  · exact absurd hz hn

theorem groupFlag_valid (h : ¬someInvalid o ps) : groupFlag (productsOf o ps) = 0 := by
  refine if_neg fun hany => h ?_
  obtain ⟨x, hx, hne⟩ := List.any_eq_true.mp hany
  obtain ⟨p, hp, rfl⟩ := List.mem_map.mp hx
  obtain ⟨-, hz⟩ | ⟨h0, -⟩ := (mMul_isProduct o p.1 p.2).flag
  · exact ⟨p, hp, hz⟩
  · simp [h0] at hne

theorem products_nan_iff : (∃ x ∈ productsOf o ps, x.1.isNan = true) ↔ someInvalid o ps ∨ someNan o ps := by
  simp only [productsOf, List.mem_map, exists_exists_and_eq_and, (mMul_isProduct o _ _).nan, someInvalid, someNan, ← exists_or, ← and_or_left]

theorem products_inf_iff (neg : Bool) : (∃ x ∈ productsOf o ps, x.1 = .inf neg) ↔ someInf o ps neg := by
  simp only [productsOf, List.mem_map, exists_exists_and_eq_and, (mMul_isProduct o _ _).inf, someInf]

theorem products_notNan (hi : ¬someInvalid o ps) (hn : ¬someNan o ps) : ∀ x ∈ productsOf o ps, x.1.isNan = false := by
  intro x hx
  rw [← Bool.not_eq_true]
  exact fun h => (products_nan_iff.mp ⟨x, hx, h⟩).elim hi hn

/-- The group's sum of products where one is a NaN. -/
theorem sum_nan (h : someInvalid o ps ∨ someNan o ps) : groupSum (productsOf o ps) = (.nan false, groupFlag (productsOf o ps)) :=
  groupSum_nan (products_nan_iff.mpr h)

theorem products_num (hi : ¬someInvalid o ps) (hn : ¬someNan o ps) (hp : ¬someInf o ps false) (hm : ¬someInf o ps true) :
    ∀ x ∈ productsOf o ps, ∃ n m e, x.1 = .num n m e := by
  intro x hx
  have hnan := products_notNan hi hn x hx
  have hinf : ∀ neg, x.1 ≠ .inf neg := by
    intro neg h
    have := (products_inf_iff neg).mp ⟨x, hx, h⟩
    cases neg
    · exact hp this
    · exact hm this
  cases hv : x.1 with
  | nan s => simp [hv, Xv.isNan] at hnan
  | inf n => exact absurd hv (hinf n)
  | num n m e => exact ⟨n, m, e, rfl⟩

theorem products_value (hf : ∀ x ∈ productsOf o ps, ∃ n m e, x.1 = .num n m e) {p : ℕ × ℕ} (hp : p ∈ ps) :
    ratOfXv (mMul o p.1 p.2).1 = productOf o p.1 p.2 ∧
      (mMul o p.1 p.2).1.sign = ((opValue o.fa o.ra p.1).sign != (opValue o.fb o.rb p.2).sign) := by
  obtain ⟨n, m, e, h⟩ := hf _ (List.mem_map_of_mem hp)
  obtain ⟨hs, hv⟩ := (mMul_isProduct o p.1 p.2).num h
  rw [h]
  exact ⟨hv, hs⟩

/-- A number that is negative is not above zero. -/
theorem ratOfXv_nonpos {x : Xv} (h : x.sign = true) : ratOfXv x ≤ 0 := by
  cases x with
  | num n m e =>
    have hn : n = true := h
    rw [ratOfXv, hn, ratOf_eq, signed, if_pos rfl]
    have : (0 : ℚ) ≤ m * 2 ^ e := by positivity
    linarith
  | _ => exact le_refl _

/-- The sum of a group of numbers, and its sign where it is zero. -/
theorem sum_num (hf : ∀ x ∈ productsOf o ps, ∃ n m e, x.1 = .num n m e) : ∃ n m e, groupSum (productsOf o ps) = (.num n m e, 0) ∧
    ratOf n m e = (ps.map fun p => productOf o p.1 p.2).sum ∧
    (m = 0 → (n = true ↔ ∀ p ∈ ps, productOf o p.1 p.2 = 0 ∧ (opValue o.fa o.ra p.1).sign ≠ (opValue o.fb o.rb p.2).sign)) := by
  obtain ⟨n, m, e, hs, hv, h0⟩ := groupSum_finite hf
  have hsum : ratOf n m e = (ps.map fun p => productOf o p.1 p.2).sum := by
    rw [hv, productsOf, List.map_map]
    exact congrArg List.sum (List.map_congr_left fun p hp => (products_value hf hp).1)
  refine ⟨n, m, e, hs, hsum, fun hm => ?_⟩
  have hzero : (ps.map fun p => productOf o p.1 p.2).sum = 0 := by
    rw [← hsum, hm]
    simp [ratOf]
  have hall : n = true ↔ ∀ p ∈ ps, (opValue o.fa o.ra p.1).sign ≠ (opValue o.fb o.rb p.2).sign := by
    rw [h0 hm, List.all_eq_true]
    simp only [productsOf, List.forall_mem_map]
    refine forall₂_congr fun p hp => ?_
    rw [(products_value hf hp).2, bne_iff_ne]
  rw [hall]
  refine ⟨fun h => fun p hp => ⟨?_, h p hp⟩, fun h p hp => (h p hp).2⟩
  have hle : ∀ x ∈ ps.map fun p => productOf o p.1 p.2, x ≤ 0 := by
    rw [List.forall_mem_map]
    intro p hp
    rw [← (products_value hf hp).1]
    exact ratOfXv_nonpos (by rw [(products_value hf hp).2, bne_iff_ne]; exact h p hp)
  exact List.all_zero_of_le_zero_le_of_sum_eq_zero (M := ℚᵒᵈ) hle hzero (List.mem_map_of_mem (f := fun p : ℕ × ℕ => productOf o p.1 p.2) hp)

theorem scaledSum_eq (o : MOp) (ps : List (ℕ × ℕ)) (sa sb : ℕ) :
    scaledSum o ps sa sb = scaleX (scaleExp sb) (scaleX (scaleExp sa) (groupSum (productsOf o ps))) := rfl

/-- What is no number passes the scales, where they are numbers. -/
theorem scaledSum_special (ha : sa ≠ 255) (hb : sb ≠ 255) {x : Xv × ℕ} (hs : groupSum (productsOf o ps) = x) (hx : ∀ n m e, x.1 ≠ .num n m e) :
    scaledSum o ps sa sb = x := by
  rw [scaledSum_eq, hs, scaleX_special ha hx, scaleX_special hb hx]

/-- The flags of a group's sum are none or INV. -/
theorem groupSum_flag (P : List (Xv × ℕ)) : (groupSum P).2 ||| fINV = fINV := by
  unfold groupSum
  dsimp only
  split_ifs <;> simp only [Nat.zero_or, Nat.or_self]

theorem scaleX_flag {c : ℕ} {x : Xv × ℕ} (h : x.2 ||| fINV = fINV) : (scaleX (scaleExp c) x).2 ||| fINV = fINV := by
  by_cases hc : c = 255
  · rw [hc, scaleX_nan]
    simpa [Nat.or_assoc] using h
  · rw [scaleExp_of_ne hc, scaleX]
    split <;> exact h

/-- A scale that is a NaN, or an infinity times a zero, gives NaN with INV. -/
theorem scaledSum_bad (h : sa = 255 ∨ sb = 255 ∨ someInvalid o ps) : scaledSum o ps sa sb = (.nan false, fINV) := by
  by_cases hb : sb = 255
  · rw [scaledSum_eq, hb, scaleX_nan, scaleX_flag (groupSum_flag _)]
  by_cases ha : sa = 255
  · rw [scaledSum_eq, ha, scaleX_nan, groupSum_flag]
    exact scaleX_special hb nofun
  have hi : someInvalid o ps := by simpa [ha, hb] using h
  exact scaledSum_special ha hb (by rw [sum_nan (.inl hi), groupFlag_invalid hi]) nofun

/-- An infinity, or two of different signs. -/
theorem scaledSum_inf (ha : sa ≠ 255) (hb : sb ≠ 255) (hi : ¬someInvalid o ps) (hn : ¬someNan o ps) (neg : Bool) (h : someInf o ps neg) :
    (someInf o ps (!neg) → scaledSum o ps sa sb = (.nan false, fINV)) ∧ (¬someInf o ps (!neg) → scaledSum o ps sa sb = (.inf neg, 0)) := by
  have hs := groupSum_inf (products_notNan hi hn) neg ((products_inf_iff neg).mpr h)
  exact ⟨fun h2 => scaledSum_special ha hb (hs.trans (if_pos ((products_inf_iff _).mpr h2))) nofun,
    fun h2 => scaledSum_special ha hb (hs.trans (if_neg (mt (products_inf_iff _).mp h2))) nofun⟩

/-- A number, scaled. -/
theorem scaledSum_num (ha : sa ≠ 255) (hb : sb ≠ 255) (hi : ¬someInvalid o ps) (hn : ¬someNan o ps) (hp : ¬someInf o ps false) (hm : ¬someInf o ps true) :
    ∃ neg m e, scaledSum o ps sa sb = (.num neg m e, 0) ∧
      ratOf neg m e = (ps.map fun p => productOf o p.1 p.2).sum * (2 : ℚ) ^ ((sa : Int) - 127) * (2 : ℚ) ^ ((sb : Int) - 127) ∧
      (m = 0 → (neg = true ↔ ∀ p ∈ ps, productOf o p.1 p.2 = 0 ∧ (opValue o.fa o.ra p.1).sign ≠ (opValue o.fb o.rb p.2).sign)) := by
  obtain ⟨n, m, e, hs, hv, h0⟩ := sum_num (products_num hi hn hp hm)
  exact ⟨n, m, _, by rw [scaledSum_eq, hs, scaleX_num ha, scaleX_num hb], by rw [ratOf_shift, ratOf_shift, hv], h0⟩

end

/-- R69, R70: the sum of a group of products with the scales of its K-block. -/
theorem scaledSum_spec (o : MOp) (ps : List (ℕ × ℕ)) (sa sb : ℕ) :
    let bad : Prop := sa = 255 ∨ sb = 255 ∨ someInvalid o ps
    (bad → scaledSum o ps sa sb = (.nan false, fINV)) ∧
    (¬bad → someNan o ps → scaledSum o ps sa sb = (.nan false, 0)) ∧
    (¬bad → ¬someNan o ps → someInf o ps false → someInf o ps true → scaledSum o ps sa sb = (.nan false, fINV)) ∧
    (∀ neg, ¬bad → ¬someNan o ps → someInf o ps neg → ¬someInf o ps (!neg) → scaledSum o ps sa sb = (.inf neg, 0)) ∧
    (¬bad → ¬someNan o ps → ¬someInf o ps false → ¬someInf o ps true → ∃ neg m e, scaledSum o ps sa sb = (.num neg m e, 0) ∧
      ratOf neg m e = (ps.map fun p => productOf o p.1 p.2).sum * (2 : ℚ) ^ ((sa : Int) - 127) * (2 : ℚ) ^ ((sb : Int) - 127) ∧
      (m = 0 → (neg = true ↔ ∀ p ∈ ps, productOf o p.1 p.2 = 0 ∧ (opValue o.fa o.ra p.1).sign ≠ (opValue o.fb o.rb p.2).sign))) := by
  intro bad
  have hgood : ¬bad → sa ≠ 255 ∧ sb ≠ 255 ∧ ¬someInvalid o ps := fun h => by simpa [bad, not_or] using h
  refine ⟨scaledSum_bad, fun h hn => ?_, fun h hn hp hm => ?_, fun neg h hn hp hm => ?_, fun h hn hp hm => ?_⟩
  all_goals obtain ⟨ha, hb, hi⟩ := hgood h
  · exact scaledSum_special ha hb (by rw [sum_nan (.inr hn), groupFlag_valid hi]) nofun
  · exact (scaledSum_inf ha hb hi hn false hp).1 hm
  · exact (scaledSum_inf ha hb hi hn neg hp).2 hm
  · exact scaledSum_num ha hb hi hn hp hm

/-! ### The operands of a matrix operation -/

theorem startOf_toNat (o : MOp) (b : Block) (i j : ℕ) : (startOf o b i j).toNat = if o.zacc then 0 else (elt (listGet [] b.acc o.tile) i j).toNat := by
  unfold startOf
  split <;> rfl

/-- R69: an element of float operands. -/
theorem elem_float {o : MOp} (h : o.fa ≠ none ∨ o.fb ≠ none) (b : Block) (i j : ℕ) : o.elem b i j =
    (List.range (o.k / o.gsize)).foldl (fun r q =>
      let S := scaledSum o (groupCodes (o.codeA b.loc i) (fun k => o.codeB (wbOf b j) k (j % 128)) o.gsize (q * o.gsize))
        (o.scaleA b.loc i (q * o.gsize / 32)) (o.scaleB (wbOf b j) (q * o.gsize / 32) (j % 128))
      let t := xAdd false (fvalue .f32 .ieee r.1) S.1
      let y := roundF .f32 .ieee .rne false 0 t.1
      (y.1, r.2 ||| S.2 ||| t.2 ||| y.2)) (if o.zacc then 0 else (elt (listGet [] b.acc o.tile) i j).toNat, 0) := by
  rw [elem_eq_foldl, startOf_toNat]
  simp only [afterGroup_float h]

theorem gsize_int {o : MOp} (h : o.fa = none) : o.gsize = 8 := gsize_eight (by simp [h])

/-- Settles O34: the codes lie at the bytes of the layout, the check asks what R221 to R223 ask, an element is a fold over its groups, each with the sum
that `scaledSum_spec` gives, and the array's result holds every element. -/
theorem matrixOperands : Obligations.MatrixOperands := by
  refine ⟨⟨fun o loc i k ha => codeA_eq o loc i k ha, fun o wb k j hb hs => codeB_dense o wb k j hb hs, fun o wb q j g hb hs hg => codeB_kept o wb q j g hb hs hg,
    scale_codes, ?_, fun o ps sa sb _ _ _ _ => scaledSum_spec o ps sa sb⟩, check_none, fun o b _ _ => check_k o b, ?_, ?_, ?_, ?_, ?_⟩
  · intro o b i j wb start six pairs float
    refine ⟨fun h => ?_, fun h hne => ?_, fun ha hb => ?_⟩
    · have hne : o.fa ≠ none ∨ o.fb ≠ none := .inl (by rintro he; simp [six, he] at h)
      have he := elem_float hne b i j
      rw [gsize_sixteen h] at he
      exact he
    · have he := elem_float hne b i j
      rw [gsize_eight h] at he
      exact he
    · have he := elem_eq_foldl o b i j
      simp only [afterGroup_int ha hb, gsize_int ha, startOf_toNat] at he
      exact he
  · intro o loc i k ha
    have hl : rowLen o = o.k := by simp only [rowLen, ha]
    simpa only [ha, codeAt, hl] using codeA_eq o loc i k (by simp [takes, ha])
  · intro o wb k j hb hs
    have hw : widthB o = 8 := by simp only [widthB, hb]
    simpa only [hb, codeAt, hw] using codeB_dense o wb k j (by simp [takes, hb]) hs
  · intro o wb q j g hb hs hg
    have hw : widthB o = 8 := by simp only [widthB, hb]
    simpa only [hb, codeAt, hw] using codeB_kept o wb q j g (by simp [takes, hb]) hs hg
  · intro o b i j ha hb hk
    exact elem_int_mod ha hb hk
  · intro o b h
    obtain ⟨hw, -, hv⟩ := tileUpTo_holds h 32768 (le_refl _)
    refine ⟨hw, fun i j hi hj => (hv (i * 256 + j) (by omega)).trans ?_⟩
    rw [show (i * 256 + j) / 256 = i by omega, show (i * 256 + j) % 256 = j by omega]

end Sys2Proof.Claims
end

section
/-!
SUPPORT. A write of the shaping engine that its home does not answer, and its report (R127, R256, R329).
-/
namespace Sys2Proof.Claims
open Sys2Proof.Machine

/-- The faults that the reports of the next machine tell. -/
def reportedFaults (o : Host.Outcome State Fault Refusal) : List PFault := match o with
  | .next t => t.reports.map fun e => e.2.f
  | _ => []

/-- A report of the next machine tells one of its faults. -/
theorem mem_reportedFaults {o : Host.Outcome State Fault Refusal} {t : State} {n : ℕ} {r : Report} (h : o = .next t) (hr : tget t.reports n = some r) :
    r.f ∈ reportedFaults o := by
  rw [h]
  exact List.mem_map.mpr ⟨(n, r), mem_of_tget hr, rfl⟩

/-- A converted store of one element, a zero of E4M3, through an entry whose array begins at 2^21: one whole byte. -/
def movedStore : ShStore :=
  { ent := { base := 2 ^ 21, dims := [1, 1, 1, 1], strides := [0, 0, 0], soff := 0, attr := 3 }, at' := 0, rd := 1, a0 := 0, r0 := 0, rnd := .rne, sat := false,
    src := .lanes 0 1 false [0] }
def movedByte : ShByte := { va := 2 ^ 21, mask := 255, val := 0 }
def movedOp : ShOp := { g := 0, kind := .store movedStore, set := 0, out := some [movedByte] }
def movedBlock : Block := { res := .resident, sops := [(0, movedOp)] }
/-- A partition of one slice, whose VD 0 maps every address to itself by one leaf at 4096 (a first-stage root at PPN 1). Granule 1, which holds the
byte, is mid-migration. -/
def movedState : State :=
  { nextId := 1, blocks := [(0, movedBlock)], slices := [(0, { inReset := false, map := [128, 128] })], fw := [(0, { asgn := true, hold := false })],
    parts := [(0, { vds := [(0, { s1root := 10 * 2 ^ 60 + 1 })] })], mem := writeLE [] 4096 8 0xDF, migrating := [(0, 1)] }
/-- The home's answer to the write (R127). -/
def movedFault : PFault := { kind := .home }

theorem movedState_write : (State.shWrite 0 movedBlock [movedByte] movedState).2 = ([movedByte], some (.fault movedFault (2 ^ 21) { w := true })) := by
  decide +kernel

theorem movedState_reports : movedFault ∉ reportedFaults (exec (.shapeWriteComplete 0 0) movedState) := by
  decide +kernel

/-- Refutes O37: the fault that a write of an operation meets is not always the one that its report tells. A home that does not answer, here because the
granule is mid-migration, gives a fault without a guest address, and the report of such a fault adds the address and level of the access (R329); the
clause on a write that stops asks for a report of the fault as it came. -/
theorem not_shapingOperations : ¬Obligations.ShapingOperations := by
  rintro ⟨⟨-, -, -, -, -, -, -, -, -, -, -, -, -, -, -, -, -, -, hfault, -⟩, -⟩
  obtain ⟨t, n, r, ht, hr, he, -⟩ := hfault movedState 0 0 movedBlock movedOp [movedByte] _ movedByte [] movedFault (2 ^ 21) { w := true } rfl rfl rfl rfl nofun
    (by decide +kernel) (Prod.ext rfl movedState_write) (by decide +kernel) (by decide +kernel)
  obtain ⟨hf, -⟩ := Prod.mk.inj he
  exact movedState_reports (hf ▸ mem_reportedFaults ht hr)

end Sys2Proof.Claims
end
